-- ==== Sys2Proof/Word.lean ====
section
/-! DEFINITION. The word types of the TP9 and the sparse map every store is held in. -/

namespace Sys2Proof

/-- A byte of any memory (R6: little-endian structures). -/
abbrev Byte := BitVec 8
abbrev W16 := BitVec 16
/-- A 32-bit word: a lane value, an FP32 pattern, an int32. -/
abbrev W32 := BitVec 32
/-- A 64-bit word: an s register, a tray handle, a BAR0 register. -/
abbrev W64 := BitVec 64

/-- A sparse store: (key, value) pairs, keys strictly rising. -/
abbrev SMap (α : Type) := List (Nat × α)

end Sys2Proof
end

