-- ==== Sys2Proof/Syntax.lean ====
section
/-! DEFINITION. The commands of the block: one constructor of `Instr` per row of spec/opcode_table.json, with the
operands the rules give each row, and the operand structures they share. -/

namespace Sys2Proof

abbrev CoreId := Fin 128
abbrev PartId := Fin 64
/-- Link ports in the order XP, XN, YP, YN, ZP, ZN, E0, E1 (R22, R266). -/
abbrev PortId := Fin 8
/-- Function 0 is PF0, function n is VF n (R463, R468). -/
abbrev FuncId := Fin 65
abbrev SReg := Fin 64
abbrev PReg := Fin 8
abbrev HReg := Fin 16

/-- A master of BAR0 (R373, R465): the sideband, the host physical function, a remote device, or a VF, which never owns. -/
inductive Master where
  | sb
  | pf0
  | rm (x y z : W16)
  | vf (f : FuncId)
deriving DecidableEq, Repr, Inhabited

/-- The common header of a tile instruction (R245). `waitu` none stands for code 7. -/
structure TileHdr where
  pred  : PReg
  pneg  : Bool
  waitu : Option (Fin 5)
  waits : SReg
  ckpt  : BitVec 15
deriving DecidableEq, Repr, Inhabited

/-- MM and CX body (R251). -/
structure MMBody where
  eng   : Fin 4
  half  : Bool
  acc   : Bool
  af    : BitVec 5
  wf    : BitVec 5
  qsrc  : BitVec 2
  mode  : BitVec 3
  sr    : Bool
  whisk : Bool
  keep  : Bool
  score : Bool
  aslot : Bool
  mrows : BitVec 7
  npass : BitVec 8
  sa    : SReg
  sw    : SReg
  sx    : SReg
  sch   : SReg
  tag   : BitVec 24
deriving DecidableEq, Repr, Inhabited

/-- VX body (R254) without its OP, which is the command's own. -/
structure VXBody where
  nm1  : BitVec 14
  slot : Fin 16
  sd   : SReg
  sb   : SReg
  bind : Bool
  beng : Fin 4
  se   : SReg
  sop  : BitVec 3
  sel  : Bool
  rm1  : BitVec 14
deriving DecidableEq, Repr, Inhabited

/-- TR body (R257) without its OP. -/
structure TRBody where
  rail  : BitVec 10
  h     : HReg
  last  : Bool
  empty : Bool
deriving DecidableEq, Repr, Inhabited

/-- An instruction queue of a core (R247). -/
inductive QName where
  | me (e : Fin 4)
  | ve
  | scq
  | trq
deriving DecidableEq, Repr, Inhabited

/-- A cell upset during a pass: the column block sum of (row, kb, col) is off by `delta` units of 2^-32 (R89, R91).
It is the physical fault the taster detects; the spec gives it no other cause. -/
structure Upset where
  row   : Nat
  kb    : Nat
  col   : Nat
  delta : Int
deriving DecidableEq, Repr, Inhabited

/-- How a memory or far-side access of the device ends (R335, R348, R349, R239). -/
inductive AccessResult where
  | ok
  | corrected
  | correctedOnReread
  | uncorrectable (owner : Fin 8)
  | crcLimit (owner : Fin 8)
  | crcRepeated (times : Fin 5)
  | completionError
  | linkFailed
deriving DecidableEq, Repr, Inhabited

/-- Bytes that a host writes through BAR4, and how the access ends (R334, R464; log 134). -/
structure HostBytes where
  bytes  : List Byte
  access : AccessResult
deriving DecidableEq, Repr, Inhabited

/-- A device address on the links (R275). -/
structure DevAddr where
  x : W16
  y : W16
  z : W16
  level : Byte
deriving DecidableEq, Repr, Inhabited

/-- The packet header (R278). -/
structure PktHdr where
  dst    : DevAddr
  ptype  : Byte
  src    : DevAddr
  dpart  : Byte
  group  : Byte
  ctype  : Byte
  gseq   : W16
  step   : W16
  dfmt   : Byte
  pflags : Byte
  total  : W32
  offset : W32
  plen   : W16
  task   : W32
  addr   : W64
deriving DecidableEq, Repr, Inhabited

/-- A received flit (R269): header fields, body, CRC and whether FEC corrected its codewords. -/
structure Flit where
  head   : Bool
  tail   : Bool
  cls    : BitVec 2
  vc     : Bool
  fseq   : BitVec 12
  ackseq : BitVec 12
  nak    : Bool
  crcls  : BitVec 2
  crvc   : Bool
  crcnt  : BitVec 10
  blen   : BitVec 8
  body   : List Byte
  crc    : W64
  fecOk  : Bool
deriving DecidableEq, Repr, Inhabited

/-- A submission descriptor (R303). `rsv0` says that every reserved byte is 0. -/
structure SubDesc where
  reqid   : W64
  opc     : Byte
  prio    : Byte
  model   : Byte
  path    : Byte
  flags   : W16
  domain  : W16
  variant : W16
  epoch0  : W16
  version : W32
  ntok    : W32
  goal    : W32
  session : W64
  tokaddr : W64
  raddr   : W64
  rlen    : W64
  rkey    : W32
  qpn     : W32
  peer    : W16 × W16 × W16
  qraddr  : W64
  logaddr : W64
  rsv0    : Bool
deriving DecidableEq, Repr, Inhabited

/-- One lengths-table entry (R167). -/
structure LenEntry where
  seg   : W16
  flags : W16
  qpos  : W32
  qlen  : W32
  xtab  : W32
deriving DecidableEq, Repr, Inhabited

/-- A suspect report (R450). -/
structure SuspectRep where
  suspect : DevAddr
  res     : Byte
  reason  : Byte
  rflags  : Byte
  rx : W16
  ry : W16
  rz : W16
  count   : W32
  total   : W32
  first   : W64
deriving DecidableEq, Repr, Inhabited

/-- A grade certificate (R32): the first 2,676 bytes of its source, fewer where the source is shorter. `sigOk` is the outcome of the
ML-DSA-44 verification of its signature with the grade key. -/
structure Cert where
  bytes : List Byte
  sigOk : Bool
deriving DecidableEq, Repr, Inhabited

/-- A record of a section (R384): its header and the bytes from byte 8 of the record on. -/
structure ImgRecord where
  rtype  : W16
  rindex : W16
  rlen   : W32
  bytes  : List Byte
deriving DecidableEq, Repr, Inhabited

/-- A section with its section-table entry (R382). -/
structure ImgSection where
  stype   : W16
  sindex  : W16
  offset  : W32
  length  : W32
  rsv0    : Bool
  records : List ImgRecord
deriving DecidableEq, Repr, Inhabited

/-- A configuration image (R382): header, sections, signature outcome. `available` is how many bytes the source holds;
`digest` is SHA3-256 over bytes 0 to LEN - 2,421. -/
structure Image where
  magic     : W32
  format    : W16
  kind      : Byte
  len       : W32
  nsec      : W32
  partcode  : W32
  grade     : W16
  larruse   : W16
  certdig   : Nat
  basedig   : Nat
  period    : W32
  keyid     : W32
  imgver    : W64
  rsv0      : Bool
  sections  : List ImgSection
  sigOk     : Bool
  digest    : Nat
  available : Nat
deriving DecidableEq, Repr, Inhabited

/-- The header of a security command (R424), the length given in SEC_MBGO and the outcome of its signature check. -/
structure SecHdr where
  cmd   : Byte
  rsv0  : Bool
  nonce : W32
  tick  : W64
  len   : W16
  sigOk : Bool
deriving DecidableEq, Repr, Inhabited

/-- The keys of PROVISION and ROTATE (R424): NKEY, image KEYIDs, digest of the record they make, reserved bytes 0. -/
structure KeyPayload where
  nkey   : Byte
  keyids : List W32
  digest : Nat
  rsv0   : Bool
deriving DecidableEq, Repr, Inhabited

/-- What a CXL port finds at a start (R337): whether every step passes, its serial, capacity (bytes), width, rate (GT/s)
and the 99.9th-percentile latency (ns) it measures (R338). -/
structure ExpanderScan where
  ok      : Bool
  serial  : W64
  cap     : Nat
  width   : Nat
  rate    : Nat
  latency : Nat
deriving DecidableEq, Repr, Inhabited

/-- What the world answers during a start (R401): which Aghorn copies verify, the PUF, the certificate copies read, the
retention check, the self-test, the expanders, trims trained. -/
structure StartEnv where
  fw0Ok      : Bool
  fw1Ok      : Bool
  fwDigest   : Nat
  pufOk      : Bool
  iddig      : Nat
  retention  : Bool
  selfTest   : Bool
  expanders  : List ExpanderScan
  trainOk    : Bool
deriving DecidableEq, Repr, Inhabited

/-- What a measured boundary brings (R438, R439): input energy of the last tick (uJ) and junction temperature (deg C). -/
structure BoundaryEnv where
  energy     : Nat
  tempC      : Int
deriving DecidableEq, Repr, Inhabited

/-- An extent entry (R197). -/
structure Extent where
  base   : W64
  len    : W16
  fmt    : Byte
  flags  : Byte
  gen    : W32
  region : W32
deriving DecidableEq, Repr, Inhabited

/-- An edit of an extent table (R201, R202, R205). -/
inductive Edit where
  | append  (e : Extent)
  | free    (idx : Nat)
  | replace (idx : Nat) (e : Extent)
deriving DecidableEq, Repr, Inhabited

/-- The scoop unit of a core (R216). -/
abbrev UnitId := Fin 5

/-- Why a port retrains (R272). -/
inductive RetrainCause where
  | naks
  | fec (symbolErrors : Nat)
deriving DecidableEq, Repr, Inhabited

/-- The commands of the block, one per row of the opcode table, in the table's order. -/
inductive Instr where
  -- scalar parcels (R243, R244, R249, R259)
  | nop   (c : CoreId)
  | add   (c : CoreId) (rd ra rb : SReg)
  | sub   (c : CoreId) (rd ra rb : SReg)
  | mul   (c : CoreId) (rd ra rb : SReg)
  | and   (c : CoreId) (rd ra rb : SReg)
  | or    (c : CoreId) (rd ra rb : SReg)
  | xor   (c : CoreId) (rd ra rb : SReg)
  | shl   (c : CoreId) (rd ra rb : SReg)
  | shr   (c : CoreId) (rd ra rb : SReg)
  | sra   (c : CoreId) (rd ra rb : SReg)
  | min   (c : CoreId) (rd ra rb : SReg)
  | max   (c : CoreId) (rd ra rb : SReg)
  | addi  (c : CoreId) (rd ra : SReg) (imm : BitVec 13)
  | ori   (c : CoreId) (rd ra : SReg) (imm : BitVec 13)
  | shli  (c : CoreId) (rd ra : SReg) (imm : BitVec 13)
  | lui   (c : CoreId) (rd : SReg) (imm : BitVec 19)
  | ceq   (c : CoreId) (pd : PReg) (ra rb : SReg)
  | clt   (c : CoreId) (pd : PReg) (ra rb : SReg)
  | cltu  (c : CoreId) (pd : PReg) (ra rb : SReg)
  | cle   (c : CoreId) (pd : PReg) (ra rb : SReg)
  | b     (c : CoreId) (target : BitVec 17)
  | bp    (c : CoreId) (pa : PReg) (target : BitVec 17)
  | bnp   (c : CoreId) (pa : PReg) (target : BitVec 17)
  | call  (c : CoreId) (target : BitVec 17)
  | ret   (c : CoreId)
  | end_  (c : CoreId)
  | ldD   (c : CoreId) (rd ra : SReg) (imm : BitVec 13)
  | stD   (c : CoreId) (rs ra : SReg) (imm : BitVec 13)
  | movHS (c : CoreId) (rd : SReg) (h : HReg)
  | movSH (c : CoreId) (h : HReg) (ra : SReg)
  | csrr  (c : CoreId) (rd : SReg) (idx : BitVec 13)
  | twait (c : CoreId) (mask : BitVec 5)
  -- tile instructions (R245-R258)
  | mm      (c : CoreId) (h : TileHdr) (b : MMBody)
  | cx      (c : CoreId) (h : TileHdr) (b : MMBody) (xd : BitVec 9)
  | recipe  (c : CoreId) (h : TileHdr) (b : VXBody)
  | scan    (c : CoreId) (h : TileHdr) (b : VXBody)
  | perm    (c : CoreId) (h : TileHdr) (b : VXBody)
  | norm    (c : CoreId) (h : TileHdr) (b : VXBody)
  | reduce  (c : CoreId) (h : TileHdr) (b : VXBody)
  | smerge  (c : CoreId) (h : TileHdr) (b : VXBody)
  | park    (c : CoreId) (h : TileHdr) (b : VXBody)
  | restore (c : CoreId) (h : TileHdr) (b : VXBody)
  | rload   (c : CoreId) (h : TileHdr) (b : VXBody)
  | tload   (c : CoreId) (h : TileHdr) (b : VXBody)
  | arm     (c : CoreId) (h : TileHdr) (unit : BitVec 3) (doff : W16) (sovr : SReg)
  | fill    (c : CoreId) (h : TileHdr) (sf : SReg)
  | put     (c : CoreId) (h : TileHdr) (b : TRBody)
  | take    (c : CoreId) (h : TileHdr) (b : TRBody)
  | return_ (c : CoreId) (h : TileHdr) (b : TRBody)
  | free    (c : CoreId) (h : TileHdr) (b : TRBody)
  | bl      (c : CoreId) (h : TileHdr) (mark : W16)
  -- core and stream events
  | tileComplete        (c : CoreId) (q : QName)
  | matrixPass          (c : CoreId) (e : Fin 4) (upset : Option Upset)
  | scoopTransferIssue  (c : CoreId) (u : UnitId)
  | transferLanded      (c : CoreId) (u : UnitId) (r : AccessResult)
  | simmerRefill        (p : PartId)
  | fillPhase           (c : CoreId)
  | multicastBlockSend  (p : PartId) (mcid : W64) (data : List Byte)
  | multicastLagAbort   (p : PartId) (mcid : W64)
  | bellRelease         (p : PartId)
  | lateData            (p : PartId) (ckpt : BitVec 15)
  | abortWindowClose    (p : PartId)
  -- links
  | flitReceive         (port : PortId) (fl : Flit)
  | retrain             (port : PortId) (cause : RetrainCause)
  | retrainComplete     (port : PortId)
  | portDown            (port : PortId)
  | portTrain           (m : Master) (port : PortId)
  | trainingComplete    (port : PortId) (far : DevAddr) (farPort : PortId) (tag : W64)
  | write               (h : PktHdr) (data : List Byte)
  | piece               (port : PortId) (h : PktHdr) (data : List Byte)
  | segment             (h : PktHdr) (data : List Byte)
  | ack                 (port : PortId) (h : PktHdr)
  | notice              (h : PktHdr)
  | tickMessage         (port : PortId) (n : W64)
  | taskStartMessage    (p : PartId) (task : W32) (startTick : W64) (entries : List LenEntry) (epochs : List W16)
  | stateReport         (p : PartId) (src : DevAddr) (tstate pstate service sstate : Byte)
  | taskPrepared        (p : PartId) (src : DevAddr) (task : W32)
  | groupCheck          (p : PartId) (gid : Byte) (src : DevAddr) (check : W32) (sstate : Byte)
  | suspectReport       (r : SuspectRep)
  | peerAccused         (r : SuspectRep)
  | rmAccess            (x y z : W16) (wr : Bool) (off : BitVec 22) (size : Fin 4) (data : W64)
  | cancelFlagMessage   (p : PartId) (task : W32) (entry : Nat)
  | localTileLand       (p : PartId) (port : PortId) (c : CoreId) (xd : BitVec 9) (tile : Nat)
  | triggeredOpFire     (p : PartId) (port : PortId) (slot : Fin 1024)
  | collectiveDeadline  (p : PartId) (ckpt : BitVec 15)
  | roceAck             (port : PortId) (qp : BitVec 12) (upto : Nat)
  | congestionNotification (port : PortId) (qp : BitVec 12)
  | roceRetryTimeout    (port : PortId) (qp : BitVec 12)
  | foreignRequestDrop  (port : PortId)
  | segmentHandOff      (p : PartId) (reqid : W64) (payload : List Byte)
  | cancelledSegment    (p : PartId) (reqid : W64)
  -- serving
  | sqTail     (f : FuncId) (v : W64) (atomic : Bool)
  | cqHead     (f : FuncId) (v : W64) (atomic : Bool)
  | jqHead     (f : FuncId) (v : W64) (atomic : Bool)
  | cancel     (f : FuncId) (reqid : W64) (atomic : Bool)
  | prefill    (f : FuncId) (d : SubDesc) (tokens : Option (List W32)) (qrOk : Bool)
  | extend     (f : FuncId) (d : SubDesc) (tokens : Option (List W32)) (qrOk : Bool)
  | release    (f : FuncId) (d : SubDesc)
  | migrate    (f : FuncId) (d : SubDesc)
  | vload      (f : FuncId) (d : SubDesc) (srcOk : Bool)
  | acceptance (f : FuncId) (reqid : W64)
  | cancelHoldExpiry (f : FuncId) (reqid : W64)
  | admission  (p : PartId)
  | taskStart  (p : PartId)
  | taskEnd    (p : PartId) (logits : List (Nat × W64 × List W32))
  | commit     (p : PartId) (reqid : W64)
  | completionRecordWrite (f : FuncId)
  | extentEdit    (p : PartId) (xtab : W32) (e : Edit)
  | extentReclaim (p : PartId) (idx : Nat)
  | vloadComplete (p : PartId)
  -- memory tiers
  | upkeepWindow (port : Fin 5) (retrainOk : Bool) (scrub : List (W64 × AccessResult))
  | memCpgo      (m : Master) (srcHost dstHost : Bool)
  | ownerCopyComplete (errLine : Option (W64 × AccessResult))
  | memReload    (m : Master) (i : BitVec 6) (bits : W64) (again : List Nat)
  | memFreload   (m : Master) (i : BitVec 6) (bits : W64) (again : List Nat)
  | bar4Read     (f : FuncId) (off : W64) (n : Nat) (r : AccessResult)
  | bar4Write    (f : FuncId) (off : W64) (data : HostBytes)
  -- tick and budgets
  | tickEdge     (offset : Int) (interval : Nat)
  | tickMiss
  | tickBoundary (env : BoundaryEnv)
  | tikNext      (m : Master) (n : W64)
  | tikPeriod    (m : Master) (v : W64)
  | kappaUpdate  (num den : Nat)
  | budgetWrite  (m : Master) (p : PartId) (i : Fin 7) (v : W64)
  -- partitions
  | load         (m : Master) (p : PartId) (fromPart : Option Image)
  | start        (m : Master) (p : PartId)
  | drain        (m : Master) (p : PartId)
  | reset        (m : Master) (p : PartId)
  | unload       (m : Master) (p : PartId)
  | loadingComplete (p : PartId)
  -- ownership
  | ownClaim     (m : Master) (prio : Byte) (nonce : W32) (sigOk : Bool)
  | ownRenew     (m : Master) (nonce : W32)
  | ownRelease   (m : Master) (succ : Option Master)
  | claimWindowClose
  | leaseLapse
  | handoverExpiry
  | i3cAccess    (addr : BitVec 7) (wr : Bool) (off : BitVec 22) (size : Fin 4) (data : W64)
  -- image and flash
  | fullLoad     (m : Master) (img : Image)
  | writeSlotA   (m : Master) (img : Image)
  | writeSlotB   (m : Master) (img : Image)
  | setBootSlot  (m : Master) (slotB : Bool)
  | savetrim     (m : Master)
  | writeGradeCertificate (m : Master) (cert : Cert)
  | imageLoadComplete
  | flashWriteComplete
  | certificateWriteComplete
  -- starts and power
  | coldStart    (m : Option Master) (env : StartEnv)
  | warmStart    (m : Option Master) (env : StartEnv)
  | reqStandby   (m : Master)
  | reqOff       (m : Master)
  | reqWake      (m : Master) (env : StartEnv)
  | pwrEnAssert  (ms : Nat) (env : StartEnv)
  | pwrEnDeassert (ms : Nat)
  | perstAssert
  | perstDeassert (refclk : Bool)
  | inputInRange (brdId : BitVec 4) (env : StartEnv)
  | inputLoss
  | voltageOutOfRange (out : Bool)
  | thermalCritical (tempC : Int)
  -- security and debug
  | provision    (m : Master) (h : SecHdr) (k : KeyPayload)
  | rotate       (m : Master) (h : SecHdr) (k : KeyPayload)
  | lockdown     (m : Master) (h : SecHdr)
  | secRelease   (m : Master) (h : SecHdr)
  | deprovision  (m : Master) (h : SecHdr)
  | debug0       (m : Master) (h : SecHdr)
  | debug1       (m : Master) (h : SecHdr)
  | debug2       (m : Master) (h : SecHdr) (p : Byte) (rsv0 : Bool)
  | challenge    (m : Master) (h : SecHdr)
  | unlock       (m : Master) (h : SecHdr)
  | wipeComplete
  | challengeExpiry
  | consentLapse
  | prtConsent   (m : Master) (p : PartId) (nonce : W32) (consent : Bool)
  | secAttgo     (m : Master)
  | prtAttgo     (m : Master) (p : PartId)
  | attestationReport (f : FuncId)
  -- faults, logs, tests
  | lossSummary
  | suspectForward (e : Fin 64)
  | suspectExpiry  (e : Fin 64)
  | fltTestreq   (m : Master) (kind : Byte) (res : W16)
  | selfTestStart    (n : Nat)
  | selfTestComplete (n : Nat) (failmap : W64) (detail : W32) (arrays : List (Fin 512))
  | watchdogExpiry (env : StartEnv)
  | hubError     (block : Byte) (env : StartEnv)
  -- host interface
  | functionLevelReset (f : FuncId)
  | tktRingcfg   (f : FuncId) (v : W64)
  | msixMessage  (f : FuncId) (v : Fin 128)
  | readClear    (m : Master) (off : BitVec 22) (size : Fin 4)
  | registerWrite (m : Master) (off : BitVec 22) (size : Fin 4) (v : W64)
  | priorityFlowControl (port : PortId) (prio : Byte) (pause : Bool)
  | savetrimComplete
deriving DecidableEq, Repr, Inhabited

end Sys2Proof
end

