-- ==== Sys2Proof/Config.lean ====
section
/-! DEFINITION. What an implementation fixes and the values the spec leaves open: constants with no body. -/

namespace Sys2Proof.Config

/-- A fresh value the spec leaves open, by the model's counter (log 2, DESIGN CHOICE). -/
opaque free : Nat → W64

/-- An element of an accumulator half that R69 leaves undefined: by counter and element index (log 3, DESIGN CHOICE). -/
opaque undefAcc : Nat → Nat → W32

/-- The bits of a special function outside its special values (R134-R136, R264), by SOP code, SPREC and source pattern (log 4, DESIGN CHOICE). -/
opaque special : Nat → Bool → W32 → W32

/-- The bits of the NaN that a NaN element, or an element under a NaN scale, decodes to (R52): format, code, scale pattern (log 138, DESIGN
CHOICE). Bits that are no NaN stand for the canonical one. -/
opaque decodedNan : Nat → Nat → W32 → W32

/-- A byte that R159 leaves undefined: by counter and address (log 141, DESIGN CHOICE). -/
opaque undefByte : Nat → Nat → Byte

/-- SHA3-256 over a list of field values (FIPS 202), as one number (log 5, DESIGN CHOICE). -/
opaque sha3 : List Nat → Nat

/-- The 32 random bytes of a challenge (R432), by the model's counter (log 2, DESIGN CHOICE). -/
opaque random256 : Nat → Nat

/-- The domain key (k0, k1) of a device identity and a domain label (R206, R421; log 5, DESIGN CHOICE). -/
opaque domainKey : Nat → W64 → W64 × W64

/-- Whether a partition section's timetable fits its budgets and placement (R35, R237, R344, R366): section digest, partition, and the
disabled arrays, tick period, upkeep windows and budgets (log 6, DESIGN CHOICE). -/
opaque timetableFits : Nat → Nat → List Nat → Bool

/-- Whether the timetable of an engine holds the cost of escalating its `share` most expensive tiles of a layer (R105, R106): section
digest, shape, core, engine, layer, share (log 6, DESIGN CHOICE). -/
opaque shareFits : Nat → Nat → Nat → Nat → Nat → Nat → Bool

/-- T_e of R106: the quantiser tiles that the timetable of a task shape gives an engine in a layer: section digest, shape, core, engine,
layer (log 6, DESIGN CHOICE). -/
opaque quantTiles : Nat → Nat → Nat → Nat → Nat → Nat

/-- The largest single charge of a kind in a partition's program (R366): section digest and budget index (log 6, DESIGN CHOICE). -/
opaque largestCharge : Nat → Nat → Nat

/-- The grade's energy table (R365): energy in 1/1,024 uJ of one event, by activity kind (log 7, DESIGN CHOICE). -/
opaque energyOf : Nat → Nat

/-- Static energy per boundary, in 1/1,024 uJ, of a partition with that many powered core groups (R365; log 7, DESIGN CHOICE). -/
opaque staticEnergy : Nat → Nat

/-- The check number within a step that an outcome record reports (R394): step, and the model's own number of the check (log 47, DESIGN CHOICE). -/
opaque checkNumber : Nat → Nat → Nat

/-- Rows of the source tensor that a GATHER index is compared with (R146), by row descriptor (log 17, DESIGN CHOICE). -/
opaque sourceRows : W64 → Nat

/-- Element and scale regions of the imaginary plane of a complex operand (R84), by its descriptor (log 18, DESIGN CHOICE). -/
opaque imagPlane : W64 → Nat × Nat

/-- Position of a fed row where the instruction names no lengths table (R56): core, instruction identity, row (log 19, DESIGN CHOICE). -/
opaque rowPosition : Nat → Nat → Nat → Nat

/-- Which query tile of its lengths table an instruction that starts a sweep, or stands for itself, takes (R168): core, instruction
identity (log 20, DESIGN CHOICE). -/
opaque queryTile : Nat → Nat → Nat

/-- Which keeper head of its layer a score pass over BF16 keys reads (R189, R191): core, instruction identity (log 20, DESIGN CHOICE). -/
opaque keeperHead : Nat → Nat → Nat

/-- Which query head of its keeper head's group a sweep belongs to (R192): core, instruction identity (log 20, DESIGN CHOICE). -/
opaque queryHead : Nat → Nat → Nat

/-- Which split of its head's plan a sweep is, and one less than how many there are (R179): core, instruction identity (log 172, DESIGN
CHOICE). -/
opaque splitOf : Nat → Nat → Nat × Nat

/-- Real K indices of the last K-slice and real columns of an instruction, each less one, that is no score pass or PV (R88, R99): core,
instruction identity (log 65, DESIGN CHOICE). -/
opaque tileExtent : Nat → Nat → Nat × Nat

/-- The one block scale that a K-block is fed under where transposition brings elements of blocks with different scales into it (R42,
R147): the scale codes met (log 25, DESIGN CHOICE). -/
opaque mixedScale : List Nat → Nat

/-- Tile index and tile count of a chain's side buffer (R154, R155): core, instruction identity (log 21, DESIGN CHOICE). -/
opaque sideTile : Nat → Nat → Nat × Nat

/-- The core whose working store holds a chain's side buffer (R155): core, instruction identity (log 21, DESIGN CHOICE). -/
opaque sideHome : Nat → Nat → Nat

/-- Entry of the task that owns a fed row where the instruction names no lengths table (R112): core, identity, row (log 19, DESIGN CHOICE). -/
opaque rowOwner : Nat → Nat → Nat → Nat

/-- Where a landed piece goes in its port's group buffer, and the trigger counter it advances, where no operation slot of its
step says so (R284): port, group, step (log 36, DESIGN CHOICE). -/
opaque landAt : Nat → Nat → Nat → Nat × Nat

/-- Whether a DELIVER operation delivers its landed piece, not its local one (R285): port and slot (log 36, DESIGN CHOICE). -/
opaque deliversLanded : Nat → Nat → Bool

/-- Repetitions of an operation slot that one instance takes, less one and before reduction modulo REPS (R282, R283): port and slot (log 193, DESIGN
CHOICE). -/
opaque instReps : Nat → Nat → Nat

/-- Level of this device's torus in its tree of tori (R275, R299; log 194, DESIGN CHOICE). -/
opaque torusLevel : Nat

/-- Member index that a permutation sends to (R283, CTYPE 0x07): group, this member's index, first step (log 40, DESIGN CHOICE). -/
opaque permTo : Nat → Nat → Nat → Nat

/-- Outcome of an ML-DSA-44 verification of what a buffer holds (R424, R426): key, message values, signature bytes (log 54, DESIGN CHOICE). -/
opaque mldsa : Nat → List Nat → List Byte → Bool

/-- What the world holds or answers where a register write starts an operation whose own row would say so (log 54, DESIGN CHOICE): the image or
certificate at a source, what a start meets, the lines that read back uncorrectable. By the model's counter. -/
opaque worldImage : Nat → Image
opaque worldCert : Nat → Cert
opaque worldStart : Nat → StartEnv
opaque worldLines : Nat → List Nat

/-- Version of an Aghorn copy, ID_FW (R473; log 2, DESIGN CHOICE). -/
opaque aghornVersion : Nat → W32

end Sys2Proof.Config
end

