-- ==== Sys2Proof/Machine/State.lean ====
section
/-! DEFINITION. Everything the block holds, as plain data, and its state right after reset. Each field's docstring names
the rule that gives the state; the value after `:=` is its value at reset. -/

namespace Sys2Proof.Machine

/-- Why the machine stops with a fault. -/
inductive Fault where
  /-- Raised by a tile command whose line the image loader refuses (R260): no program section may hold it, so no sequencer
  ever meets it. Safe: the hardware never gets here. -/
  | staticallyIllegal (mnemonic : String)
deriving DecidableEq, Repr, Inhabited

/-- Why a command has no meaning. -/
inductive Refusal where
  /-- A command whose meaning is not written; raised by no arm of the finished model. Safe. -/
  | notModelled (mnemonic : String)
deriving DecidableEq, Repr, Inhabited

/-! ### Matrix engines -/

/-- An operand element of an array: NaN, an infinity, or an exact value in units of 2^-18 (R37, R61, R62). -/
inductive Elem where
  | nan
  | inf (neg : Bool)
  | fin (v : Int)
deriving DecidableEq, Repr, Inhabited

/-- A weight tile: rows of elements, block scales (FP32 patterns) per (K-block, column), and its taster sums, none where
a non-finite element stands (R65, R72, R88). -/
structure WTile where
  rows   : List (List Elem) := []
  scales : List (List W32) := []
  taster : List (Option Int) := []
deriving DecidableEq, Repr, Inhabited

/-- One quantised activation row: elements and block scales (R92, R95). -/
structure ARow where
  elems  : List Elem := []
  scales : List W32 := []
deriving DecidableEq, Repr, Inhabited

/-- A quantised tile held in a staging slot: rows, and its record fields (R94, R95); `src` gives the rows of a finished tile as (entry,
position), where its instruction names a lengths table (R78, R108). -/
structure QTile where
  fmt    : BitVec 5 := 8
  flags  : Byte := 0
  rows   : List ARow := []
  codes  : List (List Nat) := []
  scodes : List (List Nat) := []
  tclamp : Nat := 0
  clamp8 : List Nat := []
  clamps : List Nat := []
  nanblk : List Nat := []
  src    : List (Nat × Nat) := []
deriving DecidableEq, Repr, Inhabited

/-- Engine status flags with the skip count (R87). -/
structure MStatus where
  bovf  : Bool := false
  aovf  : Bool := false
  nanp  : Bool := false
  tskip : Bool := false
  skips : Nat := 0
deriving DecidableEq, Repr, Inhabited

/-- A key tile: its entry of the lengths table, and the positions of its real keys, in column order (R168, R191). -/
structure KTile where
  entry : Nat := 0
  keys  : List Nat := []
deriving DecidableEq, Repr, Inhabited

/-- A queued MM or CX with the descriptors it read at issue (R247, R252, R253); `rows` are the (entry, position) pairs of its
rows, `key` its key tile where a lengths table is named, `first` marks the first score tile of a sweep, `slice` and `sub` the next pass;
`pv` marks the PV of a score tile, `fresh` a PV that starts its sweep's O, `skipped` one whose score tile is wholly masked (R80,
R176); `kBase` is the contraction index of its first K index (R56); `kReal` and `nReal` are its real K indices and columns (R88, R99); `srcRows`
counts the rows of the chained tile it reads (R146); `khead`, `qhead` and `qtile` are the keeper head, query head and query tile of its
sweep (R192); `skip` marks a skipped tile, which only takes its turn in the queue (R80, R155). -/
structure MMEntry where
  id      : Nat := 0
  pc      : Nat := 0
  ckpt    : Nat := 0
  body    : MMBody := default
  xd      : Option Nat := none
  rowD    : W64 := 0
  wD      : W64 := 0
  sideD   : W64 := 0
  chain   : Option (List Byte) := none
  scalarC : W32 := 0
  eps     : W32 := 0
  rows    : List (Nat × Nat) := []
  key     : Option KTile := none
  first   : Bool := false
  pv      : Bool := false
  fresh   : Bool := false
  skipped : Bool := false
  skip    : Bool := false
  kBase   : Nat := 0
  kReal   : Nat := 0x40000
  nReal   : Nat := 128
  srcRows : Nat := 128
  khead   : Nat := 0
  qhead   : Nat := 0
  qtile   : Nat := 0
  slice   : Nat := 0
  sub     : Nat := 0
  status  : MStatus := {}
  sat     : Bool := false
  wenc    : Nat := 0
  done    : Bool := false
deriving DecidableEq, Repr, Inhabited

/-- An attention sweep of an engine: its fixed query rows as (entry, position), its keeper head, query head and query tile, its range of key
tiles, with no end where it takes them all, the key tile that comes next, whether a score tile and a PV of it have been issued, whether it
has ended, and whether a skim pass goes over it again (R168, R171, R174, R179, R192). -/
structure Sweep where
  rows    : List (Nat × Nat) := []
  head    : Nat := 0
  qhead   : Nat := 0
  tile    : Nat := 0
  lo      : Nat := 0
  hi      : Option Nat := none
  next    : Nat := 0
  begun   : Bool := false
  pvBegun : Bool := false
  done    : Bool := false
  skim    : Bool := false
deriving DecidableEq, Repr, Inhabited

/-- A pass that an abort stopped, with what it was fed: its check may still report its array, since two arrays can mismatch in one clock
(R91, R445). -/
structure Stopped where
  e       : MMEntry := {}
  tiles   : List QTile := []
  chainIn : List (Nat × QTile) := []
deriving DecidableEq, Repr, Inhabited

/-- A matrix engine. -/
structure Engine where
  /-- committed weight tile, none after reset and abort (R69, R72) -/ committed : Option WTile := none
  /-- shadow weight registers (R72) -/ shadow : Option WTile := none
  /-- accumulator half A, undefined after reset and abort; key 128m + n (R68, R69) -/ accA : Option (SMap W32) := none
  /-- accumulator half B (R68, R69) -/ accB : Option (SMap W32) := none
  /-- softmax row unit, running maximum m of each row (R174) -/ rowM : SMap W32 := []
  /-- softmax row unit, running sum l of each row (R174) -/ rowL : SMap W32 := []
  /-- factor slot alpha0 of each row (R174) -/ alpha0 : SMap W32 := []
  /-- factor slot alpha1 of each row (R174) -/ alpha1 : SMap W32 := []
  /-- quantiser staging slots: the tiles of the slice being fed (R94) -/ staging : List QTile := []
  /-- chained tiles waiting at the activation port, with the engine each came from, 4 for the vector engine (R77, R252) -/ chainIn : List (Nat × QTile) := []
  /-- escalation share consumed in each layer of the task (R107) -/ shares : List (Nat × Nat) := []
  /-- K indices that the sum in half A has taken (R56) -/ kA : Nat := 0
  /-- K indices that the sum in half B has taken (R56) -/ kB : Nat := 0
  /-- sticky status read by csrr (R87, R259) -/ sticky : MStatus := {}
  /-- queue of MM and CX, depth 8 (R247) -/ queue : List MMEntry := []
  /-- the last MM or CX issued, when its chain still waits for its bound VX (R253, R254) -/ toBind : Option MMEntry := none
  /-- the capture unit's row maxima of the last score pass (R173) -/ cmax : SMap W32 := []
  /-- the sweep in progress, as issued (R168, R171) -/ sweep : Option Sweep := none
  /-- key tile of the score pass issued into a factor slot and not yet followed by its PV: slot 0, slot 1 (R174, R176) -/
  armed : Option KTile × Option KTile := (none, none)
  /-- the score tile of a factor slot was skipped as wholly masked: its PV is not issued either (R80) -/ skipPV : Bool × Bool := (false, false)
  /-- the skipped instruction's bound VX is not issued either (R80) -/ skipVX : Bool := false
  /-- the pass that an abort stopped, until its check has come or the next task starts (R91, R445) -/ stopped : Option Stopped := none
  /-- clamps of the weight operand's sums under the Gauss form (R86) -/ wclamps : Nat := 0
deriving DecidableEq, Repr, Inhabited

/-! ### Vector engine, scoops, trays -/

/-- The VX operations (R254). -/
inductive VOp where
  | recipe | scan | perm | norm | reduce | smerge | park | restore | rload | tload
deriving DecidableEq, Repr, Inhabited

/-- A queued VX with the stream descriptor it read at issue; `flags` is set once it has run (R247, R254, R255), and `empty` marks a PARK
of a sweep that issued no tile (R179). -/
structure VXEntry where
  id    : Nat := 0
  pc    : Nat := 0
  ckpt  : Nat := 0
  op    : VOp := .recipe
  body  : VXBody := default
  desc  : List Byte := []
  seReg : W64 := 0
  bound : Option MMEntry := none
  empty : Bool := false
  flags : Option (BitVec 7) := none
deriving DecidableEq, Repr, Inhabited

/-- A user-table slot: two banks, which is active, the inactive bank's state (0 empty, 1 loading, 2 ready) and loads that
wait behind the one in progress (R137, R139, R140). -/
structure TabSlot where
  bank0    : Option (List Byte) := none
  bank1    : Option (List Byte) := none
  active   : Bool := false
  istate   : Nat := 0
  waiting  : List (List Byte) := []
deriving DecidableEq, Repr, Inhabited

/-- The vector engine of a core. -/
structure VecEng where
  /-- lane temporaries x0-x31 of 1,024 lanes, key 32 lane + index; an unlisted one is 0 (R121) -/ temps : SMap W32 := []
  /-- recipe slots 0-15, empty until loaded (R117) -/ recipes : Vector (Option (List Byte)) 16 := Vector.replicate 16 none
  /-- table slots TAB0-TAB3 (R137) -/ tables : Vector TabSlot 4 := Vector.replicate 4 {}
  /-- sticky vector flags (R122, R259) -/ sticky : BitVec 7 := 0
  /-- queue of VX, depth 8 (R247) -/ queue : List VXEntry := []
deriving DecidableEq, Repr, Inhabited

/-- One transfer that a scoop program generates: far-side address, working-store address, bytes (R219). -/
structure Xfer where
  far : Nat := 0
  ws  : Nat := 0
  len : Nat := 0
deriving DecidableEq, Repr, Inhabited

/-- The header of one copy of an extent table: length, state bits, domain, tag, keeper base (R197). -/
structure XHead where
  length   : Nat := 0
  retained : Bool := false
  inflight : Bool := false
  domain   : W16 := 0xFFFF
  tag      : W64 := 0
  keepbase : W64 := 0
deriving DecidableEq, Repr, Inhabited

/-- An extent table: its near address, control word, the current copy's header fields, and the entries of both copies (R197). `stale` is the
header of the copy that CUR does not name, `gbytes` the size of its block groups (R198), and `queued` holds edits that arrived in a tick that has
had one (R201). `slots` counts the occupied slots of its keeper stores, as (layer, head, slots), where the skimmer has run (R190), and `src` names
the session's table whose entries it took, with that table's generation (R204). -/
structure XTable where
  idx     : Nat := 0
  addr    : W64 := 0
  cur     : Bool := false
  gen     : Nat := 0
  length  : Nat := 0
  retained : Bool := false
  inflight : Bool := false
  domain  : W16 := 0xFFFF
  tag     : W64 := 0
  keepbase : W64 := 0
  gbytes  : Nat := 0
  copyA   : List Extent := []
  copyB   : List Extent := []
  stale   : XHead := {}
  editTick : Option Nat := none
  queued  : List Edit := []
  slots   : List (Nat × Nat × Nat) := []
  src     : Option (Nat × Nat) := none
deriving DecidableEq, Repr, Inhabited

/-- A unit's snapshot: the extent tables of the task's entries and its lengths entries, the rows that a COMPACT keeps, by the address of its
lengths table, and whether the tile group has started (R200, R221). -/
structure WalkSnap where
  tabs : List XTable := []
  lens : List LenEntry := []
  rows : List (Nat × List Xfer) := []
  used : Bool := false
deriving DecidableEq, Repr, Inhabited

/-- A transfer in a landing slot, or an OUT transfer awaiting its acknowledgement (R216, R224); `fetched` says that the far side has
given the bytes of a read that waits for its fill phase (R217), `mc` marks a multicast block, with its number (R233), and `serial` is the number
of the mesh packet that carries an OUT transfer to another core (R15). -/
structure Landing where
  out    : Bool := false
  src    : Nat := 0
  dst    : Nat := 0
  len    : Nat := 0
  data   : List Byte := []
  landed : Bool := false
  fetched : Bool := false
  serial : Option Nat := none
  peer   : Bool := false
  mc     : Bool := false
  mcid   : W64 := 0
  block  : Nat := 0
deriving DecidableEq, Repr, Inhabited

/-- A scoop program in a slot: its bytes, the base-0 override, how many transfers it has issued, and for gather, compact
and walk the transfers its snapshot gave; `snaps` are the extent tables it snapshotted with their generations, and `regions` the prefix regions in them (R218-R223, R200), `pc` the
line that armed it. -/
structure ScoopRun where
  bytes   : List Byte := []
  pc      : Nat := 0
  ovr     : Option (W64 × W64) := none
  issued  : Nat := 0
  total   : Nat := 0
  list    : List Xfer := []
  snaps   : List (Nat × Nat) := []
  regions : List Nat := []
deriving DecidableEq, Repr, Inhabited

/-- A scoop unit. -/
structure Scoop where
  /-- active slot (R216) -/ active : Option ScoopRun := none
  /-- shadow slot (R216) -/ shadow : Option ScoopRun := none
  /-- outstanding transfers, at most six, oldest first (R216) -/ landing : List Landing := []
  /-- landing count LANDED, 32 bits (R224) -/ landed : Nat := 0
  /-- re-arm overwrites, saturating at 0xFFFF (R223) -/ ovwcnt : Nat := 0
  /-- re-arm-overwrite sticky (R223) -/ ovw : Bool := false
  /-- the walker's snapshot of the tile group in progress (R200) -/ snap : Option WalkSnap := none
deriving DecidableEq, Repr, Inhabited

/-- A queued SC instruction (R256). -/
structure SCEntry where
  id     : Nat := 0
  ckpt   : Nat := 0
  pc     : Nat := 0
  arm    : Option (Nat × ScoopRun) := none
  fill   : List W32 := []
  ran    : Bool := false
deriving DecidableEq, Repr, Inhabited

/-- The TR operations (R257). -/
inductive TOp where
  | put | take | ret | free
deriving DecidableEq, Repr, Inhabited

/-- A queued TR instruction (R257). -/
structure TREntry where
  ckpt : Nat := 0
  pc   : Nat := 0
  op   : TOp := .put
  body : TRBody := default
  ran  : Bool := false
deriving DecidableEq, Repr, Inhabited

/-- Why a sequencer holds (R244, R246, R247, R235, R249). -/
inductive Hold where
  | none | twait | landing | earliest | queueFull | bell (mark : Nat) (ckpt : Nat) | ending
deriving DecidableEq, Repr, Inhabited

/-- Fault record of an illegal instruction, with the tag of the recipe or scoop program that met it, 0 for none (R117, R218, R260). -/
structure IllRec where
  reason : Nat := 0
  pc     : Nat := 0
  task   : Nat := 0
  tag    : Nat := 0
deriving DecidableEq, Repr, Inhabited

/-- A side buffer between its FIRST and its LAST: address, bytes, and whether its lifetime overlaps another's (R155). -/
structure SideBuf where
  base : Nat := 0
  size : Nat := 0
  bad  : Bool := false
deriving DecidableEq, Repr, Inhabited

/-- The column results of a skim pass over one key tile: entry, layer, keeper head, query head, query tile, key positions, sums (R192). -/
structure SkimCol where
  entry : Nat := 0
  layer : Nat := 0
  khead : Nat := 0
  qhead : Nat := 0
  qtile : Nat := 0
  keys  : List Nat := []
  cols  : List W32 := []
deriving DecidableEq, Repr, Inhabited

/-- A core (R19, R241). -/
structure Core where
  /-- the sequencer runs a task's program: from the task start until end or abort (R242, R249) -/ running : Bool := false
  /-- the core's program has ended (R249) -/ ended : Bool := false
  /-- why the sequencer holds (R246) -/ hold : Hold := .none
  /-- PC, 17 bits; 0x2_0000 is the end of the store (R241, R249) -/ pc : Nat := 0
  /-- s0-s63 (R241); no reset value in the spec -/ s : Vector W64 64 := Vector.replicate 64 0
  /-- p0-p7 (R241); no reset value in the spec -/ p : Vector Bool 8 := Vector.replicate 8 false
  /-- tray registers h0-h15 (R227, R241) -/ h : Vector W64 16 := Vector.replicate 16 0
  /-- program store, 128 KiB (R241) -/ pstore : SMap Byte := []
  /-- bytes of the store that the image wrote; the rest holds NOP parcels (R243, R389) -/ progLen : Nat := 0
  /-- descriptor store, 128 KiB (R241) -/ dstore : SMap Byte := []
  /-- the descriptor store's image contents, restored at each task start (R242) -/ dstoreImg : SMap Byte := []
  /-- the entry point the image gives (R242, R389) -/ entry : Nat := 0
  /-- working store, 2 MiB (R20) -/ ws : SMap Byte := []
  /-- ME0-ME3 (R19) -/ eng : Vector Engine 4 := Vector.replicate 4 {}
  /-- the vector engine (R19) -/ ve : VecEng := {}
  /-- SU0-SU4 (R216) -/ su : Vector Scoop 5 := Vector.replicate 5 {}
  /-- writes of other cores' OUT transfers that wait for the next fill phase: address, bytes (R217) -/ peerIn : List (Nat × List Byte) := []
  /-- SCQ (R247) -/ scq : List SCEntry := []
  /-- TRQ (R247) -/ trq : List TREntry := []
  /-- count of tile instructions issued in the task: gives each its identity -/ issued : Nat := 0
  /-- sweeps that PARK put away, by the address of their record: what RESTORE goes on with (R178) -/ parked : List (Nat × Sweep) := []
  /-- rows that the kept tile records of the task hold, by address, as (entry, position) (R95, R108) -/ kept : List (Nat × List (Nat × Nat)) := []
  /-- side buffers in the working store whose LAST fold is still to come (R155) -/ sides : List SideBuf := []
  /-- results of the task's skim passes (R192) -/ skims : List SkimCol := []
  /-- NaN-input count of the conversions of the epilogues and the vector engine (R47, R50) -/ nanIn : Nat := 0
  /-- the CORE window's fault record (R260, R479) -/ faultRec : Option IllRec := none
deriving DecidableEq, Repr, Inhabited

/-! ### Partitions and serving -/

/-- Partition states (R371). -/
inductive PState where
  | unconfigured | loading | running | draining | halted
deriving DecidableEq, Repr, Inhabited

/-- A budget counter of a partition or of D (R363, R364, R367). `pending` is a written value with the boundaries left. -/
structure Budget where
  written : Nat := 0
  inForce : Nat := 0
  counter : Nat := 0
  pending : Option (Nat × Nat) := none
  holds   : Nat := 0
deriving DecidableEq, Repr, Inhabited

/-- A packet of a peer send or of a multicast block in the mesh: its source (a core, 0x100 + port for a network interface, 0xFFFF for the
source of a multicast stream), its core, and its place among the packets of the task (R15, R18, R226). `direct` is the address of a write
to another core's working store, which needs no scoop there (R217), and `deliv` the DELIVER it belongs to: port, slot, repetition (R286, R287). -/
structure Packet where
  src    : Nat := 0xFFFF
  dst    : Nat := 0
  mc     : Bool := false
  mcid   : W64 := 0
  block  : Nat := 0
  serial : Nat := 0
  direct : Option Nat := none
  deliv  : Option (Nat × Nat × Nat) := none
  data   : List Byte := []
deriving DecidableEq, Repr, Inhabited

/-- A tray rail with its return rail (R228). For each handle on it, `ready` says whether it is takeable, and `upto` how many packets of
the task had been sent before its PUT. -/
structure Rail where
  idx      : Nat := 0
  producer : Nat := 0
  consumer : Nat := 0
  seq      : Nat := 0
  lastSeq  : Nat := 0xFFFF
  fwd      : List W64 := []
  ready    : List Bool := []
  upto     : List Nat := []
  back     : List W64 := []
  backSeq  : Nat := 0xFFFF
  backNext : Nat := 0
  image    : List W64 := []
deriving DecidableEq, Repr, Inhabited

/-- A simmer group (R231). -/
structure Simmer where
  rate  : Nat := 0
  depth : Nat := 0
  level : Nat := 0
deriving DecidableEq, Repr, Inhabited

/-- A multicast stream: receivers (core, unit), blocks sent, blocks each receiver has acknowledged (R233). -/
structure MStream where
  mcid  : W64 := 0
  recv  : List (Nat × Nat) := []
  sent  : Nat := 0
  acked : List Nat := []
deriving DecidableEq, Repr, Inhabited

/-- A timetable entry (R390). -/
structure Ckpt where
  idx      : Nat := 0
  kind     : Nat := 0
  earlyOk  : Bool := false
  onStep   : Bool := false
  core     : Nat := 0xFFFF
  unit     : Nat := 0xFF
  latest   : Nat := 0
  earliest : Nat := 0
  aux      : Nat := 0
  step     : Nat := 0
deriving DecidableEq, Repr, Inhabited

/-- A task shape (R312, R390) with its timetable. -/
structure Shape where
  idx    : Nat := 0
  rows   : Nat := 0
  area   : Nat := 0
  dur    : Nat := 0
  consts : List W64 := []
  ckpts  : List Ckpt := []
deriving DecidableEq, Repr, Inhabited

/-- The part of an exchange descriptor that the network interfaces use (R283). -/
structure Exch where
  ctype : Nat := 0
  dfmt  : Nat := 0
  gid   : Nat := 0
  flags : Nat := 0
  total : Nat := 0
  root  : Nat := 0
  axes  : Nat := 0
  tctr  : Nat := 0
  boff  : Nat := 0
  op0   : Nat := 0
  nops  : Nat := 0
deriving DecidableEq, Repr, Inhabited

/-- A piece of a step has landed from a member: instance, step, port, member, and whether it was that member's last of the step (R278, R293). -/
structure StepMark where
  gseq : Nat := 0
  step : Nat := 0
  port : Nat := 0
  mem  : Nat := 0
  last : Bool := false
deriving DecidableEq, Repr, Inhabited

/-- A repetition of an operation slot has its landed piece, which belongs to a step (R285, R288). -/
structure Bound where
  port : Nat := 0
  slot : Nat := 0
  rep  : Nat := 0
  step : Nat := 0
deriving DecidableEq, Repr, Inhabited

/-- A collective group as declared and as it stands (R279-R282): `bufs` gives each port's buffer offset and size in 16 KiB
units, `credits` the end-to-end credit held for each member, `gseq` counts the instances opened in the task, `opens` holds the open
ones as exchange descriptor and local bytes landed, `insts` gives every one opened in the task (GSEQ, descriptor),
newest first, `waiting` holds pieces that came before their instance, with the port they came through, `stepGot` what has landed of each step,
`bound` the repetitions that have their landed piece, and `unacked` the landed pieces not yet consumed, each with the repetitions that still consume
it. -/
structure Group where
  gid      : Nat := 0
  members  : List DevAddr := []
  self     : Nat := 0
  axes     : Nat := 0
  tree     : Bool := false
  gateway  : Nat := 0xFF
  piece    : Nat := 4096
  credit0  : Nat := 0
  bufs     : List (Nat × Nat) := []
  check    : W32 := 0
  usable   : Bool := true
  gseq     : Nat := 0
  credits  : List Nat := []
  opens    : List (Nat × Nat) := []
  insts    : List (Nat × Exch) := []
  waiting  : List (Nat × PktHdr × List Byte) := []
  stepGot  : List StepMark := []
  bound    : List Bound := []
  unacked  : List (Nat × PktHdr × List (Nat × Nat)) := []
deriving DecidableEq, Repr, Inhabited

/-- A cause of an abort (R444): code, error class, source; whether it is a deterministic illegal instruction, an unusable
group, or the uncorrectable line of owner classes 2-4 that a 0x26 read; and what its report names besides: the scoop unit that waits, 0xFF
for none, the checkpoint, the tag of the scoop program, and every receiver that holds a stream (R218, R234, R238). -/
structure Cause where
  code   : Byte := 0
  eclass : Byte := 1
  src    : Nat := 0xFFFF
  determ : Bool := false
  unusable : Bool := false
  badLine : Option Nat := none
  unit   : Nat := 0xFF
  ckpt   : Nat := 0
  tag    : Nat := 0
  held   : List (Nat × Nat) := []
deriving DecidableEq, Repr, Inhabited

/-- The abort window of a task (R444). `uncounted` marks an abort by a reset or a halt (R324). -/
structure AbortWin where
  openNs    : Nat := 0
  causes    : List Cause := []
  counted   : Nat := 0
  uncounted : Bool := false
deriving DecidableEq, Repr, Inhabited

/-- One entry of a task: the request, by its number in the partition, and its lengths entry (R314). -/
structure TEntry where
  rid   : Nat := 0
  func  : Nat := 0
  reqid : W64 := 0
  len   : LenEntry := default
deriving DecidableEq, Repr, Inhabited

/-- A task of a partition (R314-R317); `ltab` is the working-store address of its lengths table, `stage` the near address and size of its key
staging, `exports` the path, epoch, receive address and length of each entry's export, and `cyc0` the tiles' clock counts at its start (R259). -/
structure Task where
  num     : Nat := 0
  start   : Nat := 0
  shape   : Nat := 0
  entries : List TEntry := []
  started : Bool := false
  isolate : Bool := false
  met     : List Nat := []
  lastMet : Nat := 0
  ended   : Bool := false
  window  : Option AbortWin := none
  prepared : List DevAddr := []
  noticed : Bool := false
  follower : Bool := false
  ltab    : Nat := 0
  stage   : W64 × Nat := (0, 0)
  exports : List (Nat × Nat × Nat × Nat) := []
  cyc0    : List Nat := []
deriving DecidableEq, Repr, Inhabited

/-- Request states (R308). -/
inductive RState where
  | reading | pending | admitted | running | committed | final
deriving DecidableEq, Repr, Inhabited

/-- Deferral reasons (R309). -/
inductive Defer where
  | none | timelost | limited | memory | capacity | session | variant | follower | reload | test
deriving DecidableEq, Repr, Inhabited

/-- A layer entry of a quality record (R111). -/
structure QLayer where
  clamp  : Nat := 0
  clamp8 : Nat := 0
  esc    : Nat := 0
  deny   : Nat := 0
  nanblk : Nat := 0
  policy : Nat := 0
  whisk  : Bool := false
deriving DecidableEq, Repr, Inhabited

/-- A request's quality record while it is counted (R111, R112). -/
structure Quality where
  flags  : Nat := 0
  esc    : Nat := 0
  den    : Nat := 0
  layers : List QLayer := []
deriving DecidableEq, Repr, Inhabited

/-- A request (R303-R325): `rid` numbers the partition's requests, `code` is the final code once decided, `finalJ` says that its
FINAL is in the near-memory journal, `delivered` that its completion record has gone to its function's ring queue (R307, R325), `bound` that it has
bound its version (R320), `jslots` are its reserved journal-ring slots not yet used, `own` the private
extents of its attempt, `endOk` that its task ended without abort, `replayed` that a journal replay made it a retry (R326). -/
structure Req where
  rid      : Nat := 0
  func     : Nat := 0
  desc     : SubDesc := default
  tokens   : List W32 := []
  state    : RState := .reading
  accTick  : Nat := 0
  accSeq   : Nat := 0
  evaluated : Bool := false
  defer    : Defer := .none
  qpos     : Nat := 0
  qlen     : Nat := 0
  hits     : List Nat := []
  version  : Nat := 0
  bound    : Bool := false
  need     : Nat := 0
  xtab     : Nat := 0
  task     : Nat := 0
  epoch    : Nat := 0
  ran      : Nat := 0
  counted  : Nat := 0
  uncounted : Nat := 0
  isolate  : Bool := false
  attemptJ : Bool := false
  segDone  : Nat := 0
  segSent  : Nat := 0
  segAcked : Nat := 0
  seq      : Nat := 0
  offset   : Nat := 64
  voided   : Bool := false
  cancelled : Bool := false
  cancelSent : Bool := false
  firstTok : Option W32 := none
  code     : Option Byte := none
  finTick  : Nat := 0
  cseq     : Nat := 0
  finalJ   : Bool := false
  delivered : Bool := false
  jslots   : Nat := 9
  endOk    : Bool := false
  replayed : Bool := false
  own      : List Extent := []
  quality  : Quality := {}
  qualityW : Bool := false
  length   : Nat := 0
  session  : W64 := 0
deriving DecidableEq, Repr, Inhabited

/-- Freed memory awaiting its reclaim (R202): a private extent, what else a table held (LEN 0), or a block group of a prefix region; `hold` counts
bytes that wait and return nothing to the pool, since what replaced them is charged (R204). -/
structure Freed where
  xtab    : Nat := 0
  ext     : Extent := default
  freegen : Nat := 0
  bytes   : Nat := 0
  hold    : Nat := 0
deriving DecidableEq, Repr, Inhabited

/-- A retained session (R203); while it is busy, `holder` is the request in flight on it. -/
structure Session where
  handle  : W64 := 0
  func    : Nat := 0
  xtab    : Nat := 0
  model   : Nat := 0
  variant : Nat := 0
  version : Nat := 0
  domain  : W16 := 0xFFFF
  busy    : Bool := false
  holder  : Nat := 0
  relDue  : Bool := false
deriving DecidableEq, Repr, Inhabited

/-- A variant version, resident or not, with its slot (R319, R320). -/
structure VVersion where
  variant  : Nat := 0
  version  : Nat := 0
  resident : Bool := false
  current  : Bool := false
  loading  : Bool := false
  curDue   : Bool := false
  slot     : Nat := 0
  src      : W64 := 0
  bytes    : Nat := 0
deriving DecidableEq, Repr, Inhabited

/-- A queued operation of upkeep action 3: MIGRATE or VLOAD (R345); `silent` marks a reload of the ticket rail's own (R320),
`left` counts a load's bytes not yet copied, and `seq` is its place in the request order. -/
structure UpOp where
  vload   : Bool := false
  func    : Nat := 0
  reqid   : W64 := 0
  session : W64 := 0
  toNear  : Bool := false
  variant : Nat := 0
  version : Nat := 0
  silent  : Bool := false
  left    : Nat := 0
  seq     : Nat := 0
deriving DecidableEq, Repr, Inhabited

/-- A journal record, with the number of its request (R305, R342). -/
structure JRec where
  rid   : Nat := 0
  func  : Nat := 0
  reqid : W64 := 0
  type  : Nat := 0
  code  : Byte := 0
  epoch : Nat := 0
  ftok  : W32 := 0
  cseq  : Nat := 0
  tick  : Nat := 0
deriving DecidableEq, Repr, Inhabited

/-- A follower's state report at the lead, with its tick (R414). -/
structure FReport where
  src     : DevAddr := default
  tstate  : Nat := 0
  pstate  : Nat := 0
  service : Nat := 0
  sstate  : Nat := 0
  tick    : Nat := 0
deriving DecidableEq, Repr, Inhabited

/-- An attestation request waiting (R429). -/
structure AttReq where
  nonce : Nat := 0
  addr  : W64 := 0
deriving DecidableEq, Repr, Inhabited

/-- A triggered operation in its slot (R285) with the repetitions it has fired and completed. -/
structure TrigOp where
  op     : Nat := 0
  tc     : Nat := 0
  cc     : Nat := 0
  ccOk   : Bool := false
  held   : Bool := false
  thresh : Nat := 0
  reps   : Nat := 0
  tinc   : Nat := 0
  port   : Nat := 0
  dlist  : Nat := 0
  step   : Nat := 0
  loc    : Nat := 0
  lnd    : Nat := 0
  plen   : Nat := 0
  lstr   : Nat := 0
  nstr   : Nat := 0
  gid    : Nat := 0
  fired  : Nat := 0
  acked  : Nat := 0
deriving DecidableEq, Repr, Inhabited

/-- A partition's configuration, taken from its image section (R389). -/
structure PCfg where
  cores    : List Nat := []
  ftt      : Nat := 12
  span     : Nat := 0
  lead     : DevAddr := default
  windows  : List (W64 × Nat × Nat) := []
  shares   : Nat × Nat × Nat := (16, 0, 0)
  seed     : W64 := 0
  nests    : List (List Nat) := []
  dlists   : List (Nat × List Nat × W64) := []
  exchOff  : Nat := 0
  exch     : List (Nat × List TrigOp) := []
  shapes   : List Shape := []
  wstok    : List (Nat × Nat) := []
  farlat   : Nat := 0
  costWidth : Nat := 8
  costRate : Nat := 32
  rails    : List Rail := []
  groups   : List Group := []
  simmer   : List (Nat × Nat) := []
  budgets  : List Nat := []
  progs    : List (Nat × Nat × List Byte) := []
  dstores  : List (Nat × List Byte) := []
  digest   : Nat := 0
deriving DecidableEq, Repr, Inhabited

/-- A segment header (R212) with the type-specific fields of a control segment (R214). -/
structure Seg where
  type  : Nat := 1
  ver   : Nat := 1
  fmt   : Nat := 0
  part  : Nat := 0xFF
  seq   : Nat := 0
  reqid : W64 := 0
  epoch : Nat := 0
  layer : Nat := 0
  head0 : Nat := 0
  headn : Nat := 0
  pos0  : Nat := 0
  posn  : Nat := 0
  paylen : Nat := 0
  pcrc  : W32 := 0
  extra : List Nat := []
deriving DecidableEq, Repr, Inhabited

/-- A partition. -/
structure Part where
  /-- state (R371) -/ state : PState := .unconfigured
  /-- cores of the section being loaded, until it is in force (R28) -/ loadCores : List Nat := []
  /-- the state RESET or a warm start found, which loading returns to (R371, R403) -/ back : PState := .running
  /-- link ports and groups still to come into service end loading (R397) -/ section_ : Option PCfg := none
  /-- budgets ENG, NEAR, FAR, LINKA, LINKW, LINKM, ENERGY (R363) -/ budgets : Vector Budget 7 := Vector.replicate 7 {}
  /-- simmer groups 0-7 (R231) -/ simmer : Vector Simmer 8 := Vector.replicate 8 {}
  /-- tray rails (R228) -/ rails : List Rail := []
  /-- peer and multicast packets that wait in the mesh, oldest first (R15, R226) -/ mesh : List Packet := []
  /-- packets sent in the task: the place of the next (R15) -/ meshSent : Nat := 0
  /-- multicast streams of the task (R233) -/ mcast : List MStream := []
  /-- collective groups (R279) -/ groups : List Group := []
  /-- triggered operations by (port, slot) (R285) -/ ops : List (Nat × Nat × TrigOp) := []
  /-- trigger counters by (port, index) (R284) -/ ctrs : SMap Nat := []
  /-- exchange memory of the network interfaces, key port × 2^24 + offset (R279) -/ xmem : SMap Byte := []
  /-- acknowledgements of consumed pieces that wait for a link port, with the port the piece came through (R281) -/ acks : List (Nat × PktHdr) := []
  /-- group checks that came before the groups were there: group, member, check, security state (R280, R414) -/ checks : List (Nat × DevAddr × W32 × Nat) := []
  /-- finished tiles on their way to a network interface: (core, port, exchange descriptor, data) (R158, R283) -/ tiles : List (Nat × Nat × Nat × List Byte) := []
  /-- the running task (R314) -/ task : Option Task := none
  /-- the causes of the last abort, with all that its report names (R218, R234, R238, R444; log 162, DESIGN CHOICE) -/ lastAbort : List Cause := []
  /-- formed tasks that wait for their start, oldest first (R312, R314) -/ queue : List Task := []
  /-- ended tasks whose requests have not all committed (R323) -/ doneTasks : List Task := []
  /-- tick of the last admission (R309) -/ admTick : Option Nat := none
  /-- next request number, the model's own -/ nextRid : Nat := 1
  /-- acceptances so far: the acceptance order of the partition's requests (R307, R309) -/ accSeq : Nat := 0
  /-- last task number given (R315) -/ lastTask : Nat := 0
  /-- ratios of the last tasks, in 1/256, newest first (R313) -/ ratios : List Nat := []
  /-- ticks of measurement since the partition last started (R313) -/ measured : Nat := 0
  /-- requests (R308) -/ reqs : List Req := []
  /-- extent tables (R197) -/ xtabs : List XTable := []
  /-- freed extents (R202) -/ freed : List Freed := []
  /-- near bytes free for allocation (R311) -/ freeNear : Nat := 0
  /-- retained sessions (R203) -/ sessions : List Session := []
  /-- next session handle the ticket rail gives -/ nextSess : Nat := 1
  /-- variant versions (R319) -/ versions : List VVersion := []
  /-- variants defined (R319) -/ variants : List Nat := []
  /-- version slots of the image (R319, R386) -/ vslots : Nat := 0
  /-- MIGRATE and VLOAD operations in request order (R345) -/ upops : List UpOp := []
  /-- control segments of PATH 2 that wait for their link port, oldest first, with their requests (R212, R278) -/ ctlOut : List (Nat × Seg) := []
  /-- near-memory journal (R342) -/ journal : List JRec := []
  /-- a journal copy is bad: primary, mirror (R349) -/ jbad : Bool × Bool := (false, false)
  /-- follower reports (R414) -/ reports : List FReport := []
  /-- telemetry ABORTS for 0x21-0x27 (R456) -/ aborts : Vector Nat 7 := Vector.replicate 7 0
  /-- telemetry ESC (R456) -/ esc : Nat := 0
  /-- telemetry DENY (R456) -/ deny : Nat := 0
  /-- telemetry TSKIP (R456) -/ tskip : Nat := 0
  /-- telemetry OVWTOT (R456) -/ ovwtot : Nat := 0
  /-- telemetry WENC (R443, R456) -/ wenc : Nat := 0
  /-- prefix insertions refused by chain length (R210) -/ insRej : Nat := 0
  /-- TLOCK (R458, R477) -/ tlock : Bool := false
  /-- PRT_STATUS.OPREJ (R477) -/ oprej : Bool := false
  /-- PRT_STATUS.BREJ (R477) -/ brej : Bool := false
  /-- PRT_STATUS.ATTREJ (R477) -/ attrej : Bool := false
  /-- PRT_ATTNONCE, 256 bits (R477) -/ attNonce : Nat := 0
  /-- PRT_ATTADDR (R477) -/ attAddr : W64 := 0
  /-- digest of the section as loaded, PARTDIG (R429) -/ partDig : Nat := 0
  /-- a CORE or PORTEQ test waits or runs: no new task (R458) -/ testHold : Bool := false
deriving DecidableEq, Repr, Inhabited

/-! ### Functions: rings, records, MSI-X -/

/-- A completion record (R305). -/
structure CRec where
  reqid   : W64 := 0
  code    : Byte := 0
  kind    : Nat := 1
  attempts : Nat := 0
  cflags  : Nat := 0
  ftok    : W32 := 0
  session : W64 := 0
  accTick : Nat := 0
  finTick : Nat := 0
  length  : Nat := 0
  epoch   : Nat := 0
  reason  : Nat := 0
  cseq    : Nat := 0
deriving DecidableEq, Repr, Inhabited

/-- A cancel held for an unknown REQID (R321). -/
structure HeldCancel where
  reqid : W64 := 0
  tick  : Nat := 0
deriving DecidableEq, Repr, Inhabited

/-- An MSI-X vector (R466, R467): its address and data, mask and pending bits, an owed message, and when it last sent one. The mask
bit resets to 1, as PCIe gives it (log 53, PRESUMED). -/
structure Msix where
  addr    : W64 := 0
  data    : W32 := 0
  masked  : Bool := true
  pend    : Bool := false
  due     : Bool := false
  lastNs  : Option Nat := none
deriving DecidableEq, Repr, Inhabited

/-- A function, PF0 or a VF: its TKT entry and what the ticket rail keeps for it (R463, R468-R471). -/
structure Func where
  /-- TKT_SQBASE (R468) -/ sqBase : W64 := 0
  /-- TKT_CQBASE (R468) -/ cqBase : W64 := 0
  /-- TKT_JQBASE (R468) -/ jqBase : W64 := 0
  /-- TKT_RINGCFG.EN (R468) -/ en : Bool := false
  /-- TKT_RINGCFG.ERR (R468) -/ err : Bool := false
  /-- TKT_RINGCFG.PART, PF0 only (R468) -/ part : Nat := 0
  /-- TKT_RINGCFG.SQLOG2 (R468) -/ sqLog : Nat := 0
  /-- TKT_RINGCFG.CQLOG2 (R468) -/ cqLog : Nat := 0
  /-- TKT_RINGCFG.JQLOG2 (R468) -/ jqLog : Nat := 0
  /-- TKT_SQHEAD (R468) -/ sqHead : Nat := 0
  /-- latest SQ_TAIL (R470) -/ sqTail : Nat := 0
  /-- completion records written: CSEQ of the last, TKT_CQTAIL (R468) -/ cqTail : Nat := 0
  /-- last CSEQ given (R305) -/ cseq : Nat := 0
  /-- completion records released by CQ_HEAD, as a count (R470) -/ cqRel : Nat := 0
  /-- journal records written, as a count; TKT_JQTAIL is its ring index (R468) -/ jqCount : Nat := 0
  /-- journal records released by JQ_HEAD, as a count (R470) -/ jqRel : Nat := 0
  /-- journal slots reserved and not yet used (R305) -/ jqResv : Nat := 0
  /-- TKT_IGNDB (R468) -/ igndb : Nat := 0
  /-- completion records given a CSEQ and waiting for their slot (R306) -/ waiting : List CRec := []
  /-- journal-ring records waiting while EN is clear (R305, R471) -/ jwait : List JRec := []
  /-- cancels held for unknown REQIDs (R321) -/ heldCancels : List HeldCancel := []
  /-- doorbells recorded in P3: cancels in arrival order (R416) -/ p3cancels : List W64 := []
  /-- MSI-X vectors 0-127 (R466) -/ vectors : Vector Msix 128 := Vector.replicate 128 {}
  /-- attestation requests held, at most 4 (R429) -/ atts : List AttReq := []
deriving DecidableEq, Repr, Inhabited

/-! ### Links -/

/-- Port service state (R268, R272). -/
inductive LState where
  | off | training | refused | up | retraining | down
deriving DecidableEq, Repr, Inhabited

/-- A write of a queue pair that no acknowledgement has covered (R301, R302): its sequence, its partition's request and attempt epoch,
and whether it carries a DATA segment. -/
structure QWrite where
  seq   : Nat
  part  : Nat
  rid   : Nat
  epoch : Nat
  data  : Bool
deriving DecidableEq, Repr, Inhabited

/-- A RoCEv2 queue pair: its number on the port, the queue pair it writes to, its rate in 1/256 of line rate, its retries, when its oldest write was last sent, the bytes it has sent in this tick, and the
sequence number of its last packet (R301, R302). -/
structure QPair where
  qp      : Nat := 0
  dest    : Nat := 0
  rate    : Nat := 256
  retries : Nat := 0
  sentNs  : Nat := 0
  used    : Nat := 0
  psn     : Nat := 0
  unacked : List QWrite := []
deriving DecidableEq, Repr, Inhabited

/-- A link port with its network interface. -/
structure Port where
  /-- role: 0 OFF, 1 PEER, 2 UP, 3 DOWN, 4 ETH; torus ports 5 (R266, R267) -/ role : Nat := 0
  /-- service state (R268, R272) -/ state : LState := .off
  /-- far identity of the last training (R268) -/ farId : Option (DevAddr × Nat) := none
  /-- next FSEQ sent (R269) -/ txSeq : Nat := 0
  /-- next FSEQ expected (R270) -/ rxSeq : Nat := 0
  /-- replay buffer of sent flits, oldest first, at most 2,048, each with the partition and the task that sent it (R271, R272) -/ replay : List (Flit × Option (Nat × Nat)) := []
  /-- discarding until the expected FSEQ arrives (R270) -/ seeking : Bool := false
  /-- consecutive NAKs received without progress (R272) -/ naksRun : Nat := 0
  /-- credits held, index 2 class + channel (R274) -/ credits : List Nat := [1024, 1024, 512, 512, 64, 64]
  /-- transit packets in the receive buffers, oldest first: output port and channel, and the flits received so far (R273-R275) -/ transit : List (Nat × Bool × List Flit) := []
  /-- output port and channel of the packet in progress, index 2 class + channel (R275) -/ routes : List (Option (Nat × Bool)) := [none, none, none, none, none, none]
  /-- when the retrain began, ns (R272) -/ retrainNs : Nat := 0
  /-- the device's own class M packets that wait for the port, with their channel (R274, R277) -/ mq : List (Bool × PktHdr × List Byte) := []
  /-- flits of other classes sent since the last class M flit, as far as it matters (R277) -/ mGap : Nat := 1035
  /-- flits of class A and of class W sent while both waited (R277) -/ awSent : Nat × Nat := (0, 0)
  /-- telemetry FECSYM (R456) -/ fecsym : Nat := 0
  /-- telemetry NAKS, NAKs sent (R456) -/ naks : Nat := 0
  /-- telemetry RETRAIN (R456) -/ retrains : Nat := 0
  /-- telemetry NCLAMP (R456) -/ nclamp : Nat := 0
  /-- telemetry NPOISON (R456) -/ npoison : Nat := 0
  /-- queue pairs (R301) -/ qps : List QPair := []
  /-- PFC priorities paused (R301) -/ paused : Bool := false
  /-- foreign requests dropped (R301) -/ foreign : Nat := 0
deriving DecidableEq, Repr, Inhabited

/-! ### Memory tiers -/

/-- An owner copy (R343), the bytes of it that have moved, and its place in the request order (R345). -/
structure Copy where
  src     : W64 := 0
  dst     : W64 := 0
  len     : Nat := 0
  srcHost : Bool := false
  dstHost : Bool := false
  moved   : Nat := 0
  seq     : Nat := 0
deriving DecidableEq, Repr, Inhabited

/-- A GDDR7 channel (R334-R336, R346). -/
structure Channel where
  failed  : Bool := false
  uncTicks : List Nat := []
  crcTick : Nat := 0
  crcFails : Nat := 0
  badRetrains : Nat := 0
  ecccor  : Nat := 0
  eccunc  : Nat := 0
  crcrep  : Nat := 0
deriving DecidableEq, Repr, Inhabited

/-- A CXL port with its expander (R337, R340). -/
structure Cxl where
  up      : Bool := false
  serial  : W64 := 0
  cap     : Nat := 0
  width   : Nat := 0
  rate    : Nat := 0
  latency : Nat := 0
  scrub   : Nat := 0
  ecccor  : Nat := 0
  eccunc  : Nat := 0
deriving DecidableEq, Repr, Inhabited

/-- A near or far region of the memory map (R339, R386). -/
structure Region where
  idx    : Nat := 0
  far    : Bool := false
  base   : Nat := 0
  size   : Nat := 0
  cls    : Nat := 0
  part   : Nat := 0xFF
  key    : Nat := 0xFFFF
  ports  : List Nat := []
  pbase  : Nat := 0
deriving DecidableEq, Repr, Inhabited

/-- A prefix node (R207) in its domain's tree, at its near address, with the near address and size of its block group. -/
structure PNode where
  idx     : Nat := 0
  addr    : Nat := 0
  hash    : W64 := 0
  tag     : W64 := 0
  parent  : Nat := 0xFFFFFFFF
  ref     : Nat := 0
  region  : Nat := 0
  blk     : Nat := 0
  base    : Nat := 0
  bytes   : Nat := 0
  domain  : Nat := 0
  inUse   : Bool := true
  lastUse : Nat := 0
  owner   : Nat := 0
  tokens  : List W32 := []
  /-- a line of the block group read back uncorrectable (R349) -/ badAt : Option Nat := none
deriving DecidableEq, Repr, Inhabited

/-- A sharing domain (R206, R388). -/
structure Domain where
  id      : Nat := 0
  label   : W64 := 0
  seed    : W64 := 0
  parts   : W64 := 0
  log2    : Nat := 10
  pool    : Nat := 0
  region  : Nat := 0
deriving DecidableEq, Repr, Inhabited

/-- The memory tiers. -/
structure Mem where
  /-- near data space (R329) -/ near : SMap Byte := []
  /-- far data space (R328) -/ far : SMap Byte := []
  /-- host memory that the device reads and writes (R303, R343) -/ host : SMap Byte := []
  /-- ECC setting in force (R333); ECCON reads 0 until a start takes it from the boot control word (R401, R439) -/ ecc : Bool := false
  /-- ECC setting for the next cold start, in the boot control word (R396) -/ eccNext : Bool := true
  /-- channels 0-15 (R330) -/ chans : Vector Channel 16 := Vector.replicate 16 {}
  /-- CXL0-CXL3 (R337) -/ cxl : Vector Cxl 4 := Vector.replicate 4 {}
  /-- regions of the memory map (R386) -/ regions : List Region := []
  /-- retired pages, at most 8,192 (R350) -/ retired : List Nat := []
  /-- MEM_RELOAD marks, near regions (R349, R479) -/ reload : List Nat := []
  /-- MEM_FRELOAD marks, far regions (R349, R479) -/ freload : List Nat := []
  /-- MEM_CPSRC (R343) -/ cpSrc : W64 := 0
  /-- MEM_CPDST (R343) -/ cpDst : W64 := 0
  /-- MEM_CPLEN (R343) -/ cpLen : BitVec 40 := 0
  /-- owner copies queued, at most 16 waiting (R343) -/ cpQueue : List Copy := []
  /-- MEM_CPSTAT copies completed (R343) -/ cpDone : Nat := 0
  /-- MEM_CPSTAT.REASON (R343) -/ cpReason : Nat := 0
  /-- MEM_CPSTAT.ERR (R343) -/ cpErr : Bool := false
  /-- channel whose retrain is next (R345) -/ retrainNext : Nat := 0
  /-- tick of the last retrain (R345) -/ retrainTick : Nat := 0
  /-- near patrol-scrub pointer (R347) -/ scrub : Nat := 0
  /-- sharing domains (R206) -/ domains : List Domain := []
  /-- prefix nodes of every tree (R207) -/ nodes : List PNode := []
  /-- operations of upkeep action 3 asked for so far (R345) -/ opCount : Nat := 0
  /-- next prefix-node index -/ nextNode : Nat := 0
  /-- tick of each port's last upkeep window (R344) -/ winTick : Vector (Option Nat) 5 := Vector.replicate 5 none
deriving DecidableEq, Repr, Inhabited

/-! ### Tick, ownership -/

/-- Phase-lock states (R358). -/
inductive TState where
  | locked | holdover | timelost
deriving DecidableEq, Repr, Inhabited

/-- The tick phase-lock and the TIK block. -/
structure Tick where
  /-- TIK_PERIOD, ns (R354, R476) -/ period : Nat := 100000
  /-- TIK_SRC: CLASSM (R355) -/ srcM : Bool := false
  /-- TIK_CTRL.OUTEN (R356) -/ outEn : Bool := false
  /-- time state (R358) -/ state : TState := .timelost
  /-- TIK_NOW, tick number (R355) -/ now : Nat := 0
  /-- TIK_PHASE, 0-65,535 (R357) -/ phase : Nat := 0
  /-- number held for the coming boundary (R355) -/ held : Option Nat := none
  /-- consecutive good edges (R359, R476) -/ good : Nat := 0
  /-- consecutive missed edges (R359, R476) -/ miss : Nat := 0
  /-- the first interval of the acquisition run was within ±1,000 ppm (R360) -/ firstOk : Bool := false
  /-- phase error left to slew away, phase units (R360) -/ slew : Nat := 0
  /-- TIK_OFFSET: last difference (R362) -/ offset : Int := 0
  /-- consecutive equal differences (R362) -/ diffs : Nat := 0
  /-- locked at least once in this start (R455 TIME) -/ wasLocked : Bool := false
  /-- boundaries since the start, for kappa and rho -/ sinceStart : Nat := 0
  /-- energy factor κ, numerator over 1,000 (R365, R405) -/ kappa : Nat := 1100
  /-- κ to take effect at the next boundary (R365) -/ kappaNext : Option Nat := none
  /-- device account D (R363) -/ dacct : Vector Budget 7 := Vector.replicate 7 {}
  /-- telemetry TICKDISC (R456) -/ tickdisc : Nat := 0
  /-- telemetry TICKMISS (R456) -/ tickmiss : Nat := 0
deriving DecidableEq, Repr, Inhabited

/-- A claim (R374). -/
structure Claim where
  m     : Master := .sb
  prio  : Nat := 0
  nonce : Nat := 0
deriving DecidableEq, Repr, Inhabited

/-- Ownership states (R375-R377). -/
inductive OState where
  | unowned | owned | handover | window
deriving DecidableEq, Repr, Inhabited

/-- The OWN block. -/
structure Own where
  /-- STATE (R474) -/ state : OState := .unowned
  /-- owner: kind, priority, nonce (R374) -/ owner : Option Claim := none
  /-- lease count (R376) -/ lease : Nat := 0
  /-- claims in the open window (R375) -/ claims : List Claim := []
  /-- boundaries since the window opened (R375) -/ windowAge : Nat := 0
  /-- standing claims, one per master (R376) -/ standing : List Claim := []
  /-- successor of a handover (R377) -/ succ : Option Master := none
  /-- boundaries since the handover began (R377) -/ handAge : Nat := 0
  /-- tick at which the handover began (R474) -/ handTick : Nat := 0
  /-- the successor's claim, effective at the next boundary (R377) -/ taking : Option Claim := none
  /-- OWN_CLAIMTICK of SB, PF0, RM (R474) -/ claimTick : Vector W64 3 := Vector.replicate 3 0
  /-- OWN_SIGBUF of SB, PF0, RM (R474) -/ sigBuf : Vector (SMap Byte) 3 := Vector.replicate 3 []
  /-- IGNWR of SB, PF0, RM (R456) -/ ignwr : Vector Nat 3 := Vector.replicate 3 0
  /-- IGNWR of VF accesses, which no device counter shows (R477) -/ ignwrVf : Nat := 0
deriving DecidableEq, Repr, Inhabited

/-! ### Image and flash -/

/-- A flash image slot with its SLOTGEN and its commit record, SLOTGEN and LEN (R380). -/
structure Slot where
  image   : Option Image := none
  gen     : Nat := 0
  commit  : Option (Nat × Nat) := none
deriving DecidableEq, Repr, Inhabited

/-- A saved-trim copy: generation and whether its digest verifies (R381). -/
structure Trim where
  gen   : Nat := 0
  valid : Bool := false
deriving DecidableEq, Repr, Inhabited

/-- An outcome record (R394, R475). -/
structure Outcome where
  tick   : Nat := 0
  code   : Byte := 0
  step   : Nat := 0
  src    : Nat := 0
  kind   : Nat := 0
  stype  : Nat := 0
  sindex : Nat := 0
  check  : Nat := 0
  seq    : Nat := 0
  digest : Nat := 0
deriving DecidableEq, Repr, Inhabited

/-- A load in progress: its image, source, and the partition of a LOAD (R395-R397). -/
structure Loading where
  image : Image := default
  src   : Nat := 0
  part  : Option Nat := none
  fromFull : Bool := false
deriving DecidableEq, Repr, Inhabited

/-- A flash write in progress (R380, R381, R33). -/
inductive FlashJob where
  | slot (b : Bool) (len : Nat)
  | trim (copy : Bool)
  | cert (copy : Bool) (c : Cert)
deriving DecidableEq, Repr, Inhabited

/-- A model as its section describes it (R387): indices, cache form (0x10 KC8, 0x11 KC4), layout, RoPE length, the
mean-variance mark, per-layer attention entries and keeper heads (layer, B, Q_max, heads). -/
structure ModelCfg where
  idx     : Nat := 0
  layers  : Nat := 0
  qheads  : Nat := 0
  heads   : Nat := 0
  width   : Nat := 128
  form    : Nat := 0x10
  layout  : Nat := 1
  axis    : Nat := 0
  group   : Nat := 1
  chunk   : Nat := 0
  ropeLen : Nat := 0
  maxLen  : Nat := 0
  meanVar : Bool := false
  ropeAt  : Nat := 0
  attn    : List (Nat × Nat × Nat × Nat) := []
  keepers : List (Nat × Nat × Nat × List Nat) := []
  digest  : Nat := 0
deriving DecidableEq, Repr, Inhabited

/-- An Ethernet port's settings (R385). -/
structure EthCfg where
  port    : Nat := 6
  mac     : Nat := 0
  ipver   : Nat := 4
  dscp    : Nat := 0
  ip      : List Byte := []
  vlan    : Nat := 0
  pfcPrio : Nat := 0xFF
  ecn     : Bool := false
  factor  : Nat := 256
  regain  : Nat := 0
  retries : Nat := 1
  timeout : Nat := 0
deriving DecidableEq, Repr, Inhabited

/-- The DEVICE section in force (R385): relay ports, FECLIM, AUTOSTART, upkeep windows (port, start, length, scrub bytes,
RTP), axes (length, ring, coordinate), export ports (role, child, peer), fabric tag, AWSPLIT, Ethernet, VSLOTS (partition,
bytes per slot, slots, region). -/
structure DevCfg where
  relay     : Nat := 0
  feclim    : Nat := 0
  autostart : W64 := 0
  upkeep    : List (Nat × Nat × Nat × Nat × Nat) := []
  axes      : List (Nat × Bool × Nat) := []
  exports   : List (Nat × Nat × Nat × Nat × Nat) := []
  tag       : W64 := 0
  awsplit   : Nat := 8
  eth       : List EthCfg := []
  vslots    : List (Nat × Nat × Nat × Nat) := []
deriving DecidableEq, Repr, Inhabited

/-- Module flash and the IMG block. -/
structure Img where
  /-- slot A (R379, R380) -/ slotA : Slot := {}
  /-- slot B (R379, R380) -/ slotB : Slot := {}
  /-- boot control word: preferred slot is B (R379) -/ boot : Bool := false
  /-- saved trims, copies 0 and 1 (R381) -/ trim0 : Trim := {}
  /-- saved trims, copy 1 (R381) -/ trim1 : Trim := {}
  /-- grade certificate copies (R33) -/ cert0 : Option Cert := none
  /-- second grade certificate copy (R33) -/ cert1 : Option Cert := none
  /-- copy in use, chosen at the last cold start: false copy 0 (R33) -/ certUse : Option Bool := none
  /-- the certificate in use is valid, CERTOK (R31, R473) -/ certOk : Bool := false
  /-- disabled physical arrays in the map in force (R34) -/ disabled : List Nat := List.range 512
  /-- grade in force, 0 with no valid certificate (R31, R473) -/ grade : Nat := 0
  /-- digest of the certificate in use (R473) -/ certDig : Nat := 0
  /-- the loaded FULL image (R396) -/ loaded : Option Image := none
  /-- models of the loaded image (R387) -/ models : List ModelCfg := []
  /-- the DEVICE section in force (R385) -/ dev : DevCfg := {}
  /-- LSRC (R475) -/ lsrc : Nat := 0
  /-- QUIET (R398, R475) -/ quiet : Bool := true
  /-- IMG_SRC (R475) -/ src : W64 := 0
  /-- IMG_LEN (R475) -/ len : W32 := 0
  /-- IMG_STATUS.ERR (R475) -/ err : Bool := false
  /-- IMG_STATUS.ERRWHY (R475) -/ errWhy : Nat := 0
  /-- loads in progress, served one at a time (R395) -/ loads : List Loading := []
  /-- flash writes in progress and waiting, oldest first; FBUSY while there is one (R380) -/ jobs : List FlashJob := []
  /-- outcome records since the start, newest first (R394, R475) -/ outs : List Outcome := []
  /-- OUTSEQ (R475) -/ outSeq : Nat := 0
  /-- PART images accepted, in order (R428) -/ parts : List (Nat × Image) := []
  /-- layers' numeric policies of each model: (model, layer, policy, threshold, allowance) (R103) -/ policies : List (Nat × Nat × Nat × Nat × Nat) := []
  /-- ID_START: last start 1 cold, 2 warm, 3 cold-from-warm (R473) -/ lastStart : Nat := 0
  /-- starts since input power was applied (R473) -/ starts : Nat := 0
  /-- Aghorn copy running; 2 where neither verifies (R422, R473) -/ fwCopy : Nat := 0
deriving DecidableEq, Repr, Inhabited

/-! ### Security, debug, power -/

/-- A provisioning record copy (R423). -/
structure Prov where
  sgen   : Nat := 0
  s2     : Bool := false
  keys   : List W32 := []
  digest : Nat := 0
  valid  : Bool := false
  erased : Bool := true
deriving DecidableEq, Repr, Inhabited

/-- What a wipe leads to (R434). -/
inductive Wipe where
  | d3 | deprovision
deriving DecidableEq, Repr, Inhabited

/-- The security engine and the SEC block. -/
structure Sec where
  /-- PUFOK (R420) -/ pufOk : Bool := false
  /-- IDDIG (R421) -/ iddig : Nat := 0
  /-- provisioning record, copy 0 (R423) -/ prov0 : Prov := {}
  /-- provisioning record, copy 1 (R423) -/ prov1 : Prov := {}
  /-- SSTATE, 0-2 (R423) -/ state : Nat := 0
  /-- security state due at the next boundary (R408, R424) -/ stateNext : Option (Fin 3) := none
  /-- D1 access (R430) -/ d1 : Bool := false
  /-- D2 access, its partition (R430) -/ d2 : Option Nat := none
  /-- D3 (R430) -/ d3 : Bool := false
  /-- DEBUG0 (false) and DEBUG1 (true) commands due at the next boundary, oldest first (R430) -/ dbgNext : List Bool := []
  /-- DEBUG2 request: partition, nonce, consented, tick (R431) -/ d2req : Option (Nat × Nat × Bool × Nat) := none
  /-- nonce of the DEBUG2 in force, and a withdrawal due (R431) -/ d2nonce : Nat := 0
  /-- consent withdrawn: D2 ends at the next boundary (R431) -/ d2end : Bool := false
  /-- D3 due at the next boundary (R432, R434) -/ d3Next : Bool := false
  /-- RES (R439) -/ res : Nat := 0
  /-- FAILS (R427, R439) -/ fails : Nat := 0
  /-- CHALLENGE barred until the next cold start (R427) -/ barred : Bool := false
  /-- D3 challenge outstanding: value and tick (R432) -/ chal : Option (Nat × Nat) := none
  /-- wipe in progress (R434) -/ wipe : Option Wipe := none
  /-- measurement registers M0-M7, 256 bits each (R428) -/ m : Vector Nat 8 := Vector.replicate 8 0
  /-- SEC_ATTNONCE, 256 bits (R479) -/ attNonce : Nat := 0
  /-- SEC_ATTADDR (R479) -/ attAddr : W64 := 0
  /-- mailbox, 12 KiB (R424, R479) -/ mbox : SMap Byte := []
  /-- a report request of PF0's was rejected (R429), an error bit whose register the spec does not name -/ attRej : Bool := false
  /-- regrade requests written (R461): condemned and proposed arrays -/ regrades : List (List Nat × List Nat) := []
deriving DecidableEq, Repr, Inhabited

/-- Power states (R435). -/
inductive PowState where
  | p0 | p1 | p2 | p3 | p4
deriving DecidableEq, Repr, Inhabited

/-- Power domains (R26). -/
inductive PowerDomain where
  | cg (n : Fin 16) | mesh | nmem | fmem | hostd | linkt | linke | ctld | secd | aon
deriving DecidableEq, Repr

/-- Power: PWR block, AON logic and pins (R435-R439, R480-R492). -/
structure Pwr where
  /-- PSTATE (R436) -/ state : PowState := .p0
  /-- the core groups powered, by index (R28) -/ groups : List Nat := []
  /-- target clock codes FT0-FT3 (R437, R439) -/ ft : Vector Nat 4 := Vector.replicate 4 12
  /-- running clock codes F0-F3 (R439) -/ run : Vector Nat 4 := Vector.replicate 4 12
  /-- clocks of CT0-CT3 counted to the last boundary, in MHz times ticks (R259) -/ cyc : Vector Nat 4 := Vector.replicate 4 0
  /-- CAPW in 10 W (R439) -/ capw : Nat := 300
  /-- IDLE_EN (R439) -/ idleEn : Bool := false
  /-- AUTOWAKE (R439) -/ autowake : Bool := false
  /-- a doorbell was recorded in P3: AUTOWAKE wakes the device (R436) -/ wakeDue : Bool := false
  /-- φ_C (R439) -/ phiC : Nat := 256
  /-- φ_T (R439) -/ phiT : Nat := 256
  /-- PWR_STATUS.REJ (R439) -/ rej : Bool := false
  /-- THROT (R439) -/ throt : Bool := false
  /-- THROT at the previous boundary (R439) -/ throtPrev : Bool := false
  /-- CRIT (R439) -/ crit : Bool := false
  /-- input range flag of the POWER alarm: input outside 44-58 V (R484) -/ vout : Bool := false
  /-- AON powered (R485, R486) -/ aon : Bool := true
  /-- PWR_EN input (R486) -/ pwrEn : Bool := true
  /-- PERST_N asserted (R23, R471) -/ perst : Bool := false
  /-- HOST runs on the host's reference clock (R23) -/ refclk : Bool := false
  /-- FLASH_WP_N low (R380) -/ flashWp : Bool := false
  /-- DBG_EN_N low (R430) -/ dbgEn : Bool := false
  /-- BRD_ID as sampled (R492) -/ brdId : BitVec 4 := 15
  /-- PWR_GOOD (R486) -/ pwrGood : Bool := true
  /-- READY (R398, R401) -/ ready : Bool := false
  /-- REQ = 2 turned the module off with PWR_EN still asserted (R486) -/ offHeld : Bool := false
  /-- PF0 in D3hot, for WAKE_N (R491) -/ d3hot : Bool := false
deriving DecidableEq, Repr, Inhabited

/-! ### Faults, logs, tests -/

/-- A log record (R446). -/
structure LogRec where
  tick   : Nat := 0
  phase  : Nat := 0
  prio   : Nat := 3
  eclass : Nat := 0xFF
  type   : Nat := 0
  src    : Nat := 0xFFFF
  part   : Nat := 0xFFFF
  body   : List Nat := []
deriving DecidableEq, Repr, Inhabited

/-- A suspect-table entry (R450-R453). -/
structure Suspect where
  rep     : SuspectRep := default
  local_  : Bool := false
  lastFwd : Nat := 0
  lastRep : Nat := 0
  part    : Nat := 0xFFFF
deriving DecidableEq, Repr, Inhabited

/-- Test status (R457). -/
inductive TStat where
  | queued | deferred | running | passed | failed | refused | discarded
deriving DecidableEq, Repr, Inhabited

/-- A requested test (R457). -/
structure Test where
  num   : Nat := 0
  kind  : Nat := 0
  res   : Nat := 0
  stat  : TStat := .queued
deriving DecidableEq, Repr, Inhabited

/-- Alarms, log, traces, suspects, tests, recovery: the FLT block. -/
structure Flt where
  /-- sticky bit per alarm class, in AON (R454) -/ sticky : BitVec 16 := 0
  /-- count per alarm class, 16 bits saturating (R454) -/ counts : Vector Nat 16 := Vector.replicate 16 0
  /-- log queue, at most 4,096, oldest first (R447) -/ queue : List LogRec := []
  /-- log area, newest first (R446) -/ area : List LogRec := []
  /-- FLT_LOGPTR index (R446) -/ logPtr : Nat := 0
  /-- LOGWRAP (R446) -/ logWrap : Nat := 0
  /-- FLT_TRCPTR (R446) -/ trcPtr : Nat := 0
  /-- TRCWRAP (R446) -/ trcWrap : Nat := 0
  /-- sampling exponent per trace source 0-4 (R449) -/ samp : Vector Nat 5 := Vector.replicate 5 0
  /-- records produced per source since the last change of k (R449) -/ made : Vector Nat 5 := Vector.replicate 5 0
  /-- trace records of the area, newest first: (source, partition, k, data) (R448) -/ traces : List (Nat × Nat × Nat × List Nat) := []
  /-- trace sources kept, parameter TRCSRC (R392) -/ trcSrc : BitVec 32 := 0x1D
  /-- tile classes traced, parameter TRCCLASS (R392) -/ trcClass : Byte := 0
  /-- partitions traced, parameter TRCPART (R392) -/ trcPart : W64 := 0xFFFFFFFFFFFFFFFF
  /-- trace bytes the area may accept in a tick, TRCBW (R385, R448) -/ trcbw : Nat := 0
  /-- trace bytes accepted in this tick (R448) -/ trcBytes : Nat := 0
  /-- the trace area refused bytes in this tick (R449) -/ trcRef : Bool := false
  /-- LOGDROP per priority (R447) -/ drops : Vector Nat 4 := Vector.replicate 4 0
  /-- drops since the last loss summary, per priority (R447) -/ dropsNew : Vector Nat 4 := Vector.replicate 4 0
  /-- suspect table, 64 entries (R451) -/ suspects : Vector (Option Suspect) 64 := Vector.replicate 64 none
  /-- last logged peer accusation: accuser and tick (R452) -/ accLog : List (DevAddr × Nat) := []
  /-- tests, in AON (R457) -/ tests : List Test := []
  /-- FLT_TESTLAST (R478) -/ testLast : Nat := 0
  /-- the number that the next new test gets (R457), the model's own; no first number is stated -/ testNext : Nat := 1
  /-- numeric service is limited (R402, R410) -/ limited : Bool := true
  /-- normal service due at the next boundary (R410) -/ normalDue : Bool := false
  /-- the last full self-test passed (R402) -/ fullPassed : Bool := false
  /-- limited after a failed test (R455 SELFTEST) -/ testFailed : Bool := false
  /-- tiles mismatch ticks per physical array, in AON (R460) -/ mism : List (Nat × List Nat) := []
  /-- arrays with a first self-test failure (R459) -/ failedOnce : List Nat := []
  /-- arrays condemned since the last cold start (R460, R461) -/ condemned : List Nat := []
  /-- FLT_CTRL.RECOVER_EN (R462) -/ recoverEn : Bool := true
  /-- ticks of the recoveries (R462) -/ recTicks : List Nat := []
  /-- RECOVER (R456) -/ recover : Nat := 0
  /-- FIRMWARE active until the next cold start (R455) -/ fwAlarm : Bool := false
  /-- DISCARD per group identifier (R282, R456) -/ discard : Vector Nat 256 := Vector.replicate 256 0
  /-- ADDRFLT (R442) -/ addrflt : Nat := 0
  /-- ACCUSED (R452) -/ accused : Nat := 0
  /-- SUSPOVF (R453) -/ suspovf : Nat := 0
  /-- causes of recoveries held in AON until the log runs (R462) -/ recCause : List Nat := []
deriving DecidableEq, Repr, Inhabited

/-! ### What the block sends -/

/-- One thing the block puts on a wire or answers to a master. The kind of a class M message: 0x05 NOTICE, and for MGMT packets the
model's own numbers 0x10 suspect report, 0x11 peer-accused notice, 0x12 state report, 0x13 task prepared, 0x14 group check, 0x15
task start, 0x16 cancel flag, 0x17 tick number. -/
inductive Out where
  | packet  (port : Nat) (h : PktHdr) (data : List Byte)
  | nak     (port : Nat) (ackseq : Nat)
  | flitAck (port : Nat) (ackseq : Nat)
  | wire    (port : Nat) (fl : Flit)
  | training (port : Nat) (me : DevAddr) (tag : W64)
  | credit (port cls : Nat) (vc : Bool) (n : Nat)
  | seg     (path : Nat) (off : Nat) (imm : Option W32) (s : Seg) (payload : List Byte)
  | retransmit (port : Nat) (qp : Nat)
  | classM  (kind : Nat) (dst : DevAddr) (body : List Nat)
  | msix    (f : Nat) (v : Nat)
  | readData (m : Master) (off : Nat) (v : W64)
  | bar4    (f : Nat) (data : List Byte) (poison : Bool)
  | unsupported (f : Nat)
  | localTile (core : Nat) (port : Nat) (id : W64) (data : List Byte)
  | tickOut (low : Bool)
  | report  (f : Nat) (fields : List Nat)
deriving DecidableEq, Repr, Inhabited

/-- The block. -/
structure State where
  /-- the commands that wait, first in first out -/ pending : List Instr := []
  /-- cores 0-127 (R13) -/ cores : Vector Core 128 := Vector.replicate 128 {}
  /-- partitions 0-63 (R369) -/ parts : Vector Part 64 := Vector.replicate 64 {}
  /-- PF0 and VF 1-64 (R463) -/ funcs : Vector Func 65 := Vector.replicate 65 {}
  /-- ports XP, XN, YP, YN, ZP, ZN, E0, E1 (R266) -/ ports : Vector Port 8 := Vector.replicate 8 {}
  /-- memory tiers (R328) -/ mem : Mem := {}
  /-- tick (R353) -/ tick : Tick := {}
  /-- ownership (R373) -/ own : Own := {}
  /-- image and flash (R379) -/ img : Img := {}
  /-- security and debug (R420) -/ sec : Sec := {}
  /-- power and pins (R435, R480) -/ pwr : Pwr := {}
  /-- faults, logs, tests (R441) -/ flt : Flt := {}
  /-- what the block has sent, newest first (the model's own record of its wires) -/ out : List Out := []
  /-- the model's own counter of free values taken (not the spec's) -/ freeCtr : Nat := 0
deriving DecidableEq, Repr, Inhabited

/-- The block right after reset: every register at the value the spec gives it, memory with nothing listed, the device
unowned, in time-lost, in limited service and in the quiet state (R358, R375, R398, R402). -/
def State.reset : State := {}

end Sys2Proof.Machine
end

