-- ==== Sys2Proof/Machine/Ops.lean ====
section
/-! DEFINITION. The named operations: sparse stores and their byte orders, updates of one part of the state, the
log and the alarms, ownership checks, MSI-X events, the outbox and free values. -/

namespace Sys2Proof.Machine

/-- What a command answers. -/
abbrev Res := Host.Outcome State Fault Refusal

/-! ### Sparse stores -/

/-- What the store lists at a key. -/
def mapFind {α : Type} : SMap α → Nat → Option α
  | [], _ => none
  | (k, v) :: r, a => if a = k then some v else if a < k then none else mapFind r a

/-- The value at a key; `d` is what an unlisted key reads as. -/
def mapRead {α : Type} (d : α) (m : SMap α) (a : Nat) : α := (mapFind m a).getD d

/-- Insert or replace a key. -/
def mapInsert {α : Type} : SMap α → Nat → α → SMap α
  | [], a, x => [(a, x)]
  | (k, v) :: r, a, x =>
    if a < k then (a, x) :: (k, v) :: r
    else if a = k then (a, x) :: r
    else (k, v) :: mapInsert r a x

/-- Remove a key. -/
def mapErase {α : Type} : SMap α → Nat → SMap α
  | [], _ => []
  | (k, v) :: r, a => if a = k then r else if a < k then (k, v) :: r else (k, v) :: mapErase r a

/-- Write a value in canonical form: the value an unlisted key reads as removes the entry. -/
def mapWrite {α : Type} [DecidableEq α] (d : α) (m : SMap α) (a : Nat) (x : α) : SMap α :=
  if x = d then mapErase m a else mapInsert m a x

/-- The canonical form: keys strictly rising, no entry equal to what an unlisted key reads as. -/
abbrev Memory.wf (m : SMap Byte) : Prop :=
  m.Pairwise (fun x y => x.1 < y.1) ∧ ∀ x ∈ m, x.2 ≠ 0

/-- What a byte that nothing has written reads as (log 9, DESIGN CHOICE). -/
def emptyByte : Byte := 0

/-- One byte of a byte store. -/
def rd8 (m : SMap Byte) (a : Nat) : Byte := mapRead emptyByte m a

/-- Write one byte of a byte store. -/
def wr8 (m : SMap Byte) (a : Nat) (x : Byte) : SMap Byte := mapWrite emptyByte m a x

/-- `n` bytes from `a`, ascending. -/
def rdBytes (m : SMap Byte) (a : Nat) : Nat → List Byte
  | 0 => []
  | n + 1 => rd8 m a :: rdBytes m (a + 1) n

/-- Write a run of bytes from `a`. -/
def wrBytes (m : SMap Byte) (a : Nat) : List Byte → SMap Byte
  | [] => m
  | x :: r => wrBytes (wr8 m a x) (a + 1) r

/-- The number that little-endian bytes spell (R6). -/
def leNat : List Byte → Nat
  | [] => 0
  | x :: r => x.toNat + 256 * leNat r

/-- `n` little-endian bytes of a number (R6). -/
def leBytes : Nat → Nat → List Byte
  | 0, _ => []
  | n + 1, v => BitVec.ofNat 8 v :: leBytes n (v / 256)

/-- An `n`-byte little-endian field of a byte store. -/
def rdLE (m : SMap Byte) (a n : Nat) : Nat := leNat (rdBytes m a n)

/-- Write an `n`-byte little-endian field. -/
def wrLE (m : SMap Byte) (a n v : Nat) : SMap Byte := wrBytes m a (leBytes n v)

/-- An `n`-byte little-endian field at offset `a` of a byte list. -/
def fieldLE (l : List Byte) (a n : Nat) : Nat := leNat ((l.drop a).take n)

/-- Bits [hi:lo] of a number. -/
def bits (v hi lo : Nat) : Nat := (v >>> lo) % 2 ^ (hi + 1 - lo)

/-- One bit of a number. -/
def bit (v i : Nat) : Bool := v.testBit i

/-- Nat from Bool. -/
def b2n (x : Bool) : Nat := if x then 1 else 0

/-! ### One part of the state -/

def updCore (c : CoreId) (f : Core → Core) (s : State) : State :=
  { s with cores := s.cores.set c.1 (f (s.cores[c.1]'c.2)) c.2 }

def updPart (p : PartId) (f : Part → Part) (s : State) : State :=
  { s with parts := s.parts.set p.1 (f (s.parts[p.1]'p.2)) p.2 }

def updFunc (i : FuncId) (f : Func → Func) (s : State) : State :=
  { s with funcs := s.funcs.set i.1 (f (s.funcs[i.1]'i.2)) i.2 }

def updPort (i : PortId) (f : Port → Port) (s : State) : State :=
  { s with ports := s.ports.set i.1 (f (s.ports[i.1]'i.2)) i.2 }

def State.core (s : State) (c : CoreId) : Core := s.cores[c.1]'c.2
def State.part (s : State) (p : PartId) : Part := s.parts[p.1]'p.2
def State.func (s : State) (f : FuncId) : Func := s.funcs[f.1]'f.2
def State.port (s : State) (i : PortId) : Port := s.ports[i.1]'i.2

/-- Every partition index. -/
def allParts : List PartId := List.finRange 64
def allCores : List CoreId := List.finRange 128
def allFuncs : List FuncId := List.finRange 65
def allPorts : List PortId := List.finRange 8

/-- The index of a partition, core, function or port given as a number in range. -/
def pid (n : Nat) : PartId := Fin.ofNat 64 n
def cid (n : Nat) : CoreId := Fin.ofNat 128 n
def fid (n : Nat) : FuncId := Fin.ofNat 65 n
def portid (n : Nat) : PortId := Fin.ofNat 8 n

/-- The partition function of a partition (R369). -/
def vfOf (p : PartId) : FuncId := ⟨p.1 + 1, by omega⟩

/-- Fold a state update over a list. -/
def forAll {α : Type} (l : List α) (f : α → State → State) (s : State) : State :=
  l.foldl (fun s x => f x s) s

/-- Apply an update when a condition holds. -/
def whenS (b : Bool) (f : State → State) (s : State) : State := if b then f s else s

def updMem (f : Mem → Mem) (s : State) : State := { s with mem := f s.mem }
def updTick (f : Tick → Tick) (s : State) : State := { s with tick := f s.tick }
def updOwn (f : Own → Own) (s : State) : State := { s with own := f s.own }
def updImg (f : Img → Img) (s : State) : State := { s with img := f s.img }
def updSec (f : Sec → Sec) (s : State) : State := { s with sec := f s.sec }
def updPwr (f : Pwr → Pwr) (s : State) : State := { s with pwr := f s.pwr }
def updFlt (f : Flt → Flt) (s : State) : State := { s with flt := f s.flt }

/-- Put something on a wire. -/
def emit (o : Out) (s : State) : State := { s with out := o :: s.out }

/-- Device time in ns: the tick number and phase in units of the declared period (R354, R357). -/
def nowNs (s : State) : Nat := s.tick.now * s.tick.period + s.tick.phase * s.tick.period / 65536

/-- Take a fresh value that the spec leaves open. -/
def takeFree (s : State) : W64 × State := (Config.free s.freeCtr, { s with freeCtr := s.freeCtr + 1 })

/-- Saturating add for telemetry counters of 64 bits (R456). -/
def satAdd (bitsN a b : Nat) : Nat := Nat.min (2 ^ bitsN - 1) (a + b)

/-- Replace the elements of a list that satisfy a test. -/
def mapIf {α : Type} (t : α → Bool) (f : α → α) (l : List α) : List α := l.map (fun x => if t x then f x else x)

/-! ### Log, alarms, MSI-X -/

/-- What an event does to a vector (R467). -/
def msixHit (x : Msix) : Msix := if x.masked then { x with pend := true } else { x with due := true }

/-- An event of a vector: a masked vector sets its pending bit, an unmasked one owes a message (R467). -/
def vecEvent (f : FuncId) (v : Fin 128) (s : State) : State :=
  updFunc f (fun g => { g with vectors := g.vectors.set v.1 (msixHit (g.vectors[v.1]'v.2)) v.2 }) s

/-- Raise an alarm class without a record: sticky bit, count, PF0's alarm vector (R454). -/
def alarmBit (c : Fin 16) (s : State) : State :=
  vecEvent 0 0 (updFlt (fun f => { f with
    sticky := f.sticky ||| BitVec.ofNat 16 (2 ^ c.1)
    counts := f.counts.set c.1 (Nat.min 0xFFFF (f.counts[c.1]'c.2 + 1)) c.2 }) s)

/-- Count a dropped log record (R447). -/
def countDrop (prio : Nat) (s : State) : State :=
  alarmBit 14 (updFlt (fun f =>
    let i : Fin 4 := Fin.ofNat 4 prio
    { f with drops := f.drops.set i.1 (satAdd 64 (f.drops[i.1]'i.2) 1) i.2
             dropsNew := f.dropsNew.set i.1 (f.dropsNew[i.1]'i.2 + 1) i.2 }) s)

/-- Remove the newest record of a priority from a queue held oldest first. -/
def dropNewest (prio : Nat) (q : List LogRec) : List LogRec :=
  (q.reverse.eraseP (fun r => r.prio == prio)).reverse

/-- Queue a log record, dropping the newest record of the lowest priority present when the queue is full (R447). -/
def logPush (r : LogRec) (s : State) : State :=
  if s.flt.queue.length < 4096 then updFlt (fun f => { f with queue := f.queue ++ [r] }) s
  else
    let worst := s.flt.queue.foldl (fun a x => Nat.max a x.prio) 0
    if r.prio < worst then
      countDrop worst (updFlt (fun f => { f with queue := dropNewest worst f.queue ++ [r] }) s)
    else countDrop r.prio s

/-- Queue a log record of a type, stamped with tick and phase (R446). -/
def logR (type prio eclass src part : Nat) (body : List Nat) (s : State) : State :=
  logPush { tick := s.tick.now, phase := s.tick.phase, prio, eclass, type, src, part, body } s

/-- Charge the device account D (R363): Aghorn's own activities take what the counter holds. -/
def chargeD (i : Fin 7) (n : Nat) (s : State) : State :=
  let b := s.tick.dacct[i.1]'i.2
  { s with tick := { s.tick with dacct := s.tick.dacct.set i.1 { b with counter := b.counter - n } i.2 } }

/-- Produce a trace record of source `src` (0 marks, 1 completions, 2 checkpoints, 3 holds, 4 task and request events): one
record in 2^k is kept, and the area takes at most TRCBW bytes a tick, charged to D (R448, R449); the sources and the
partitions kept are Aghorn's parameters (R392). -/
def trace (src : Fin 5) (part : Nat) (data : List Nat) (s : State) : State :=
  let f := s.flt
  if !(f.trcSrc.getLsbD src.1 && (decide (64 ≤ part) || f.trcPart.getLsbD part)) then s else
  let n := f.made[src.1]'src.2
  let k := f.samp[src.1]'src.2
  let f := { f with made := f.made.set src.1 (n + 1) src.2 }
  if n % 2 ^ k ≠ 0 then { s with flt := f }
  else if f.trcbw < f.trcBytes + 32 then { s with flt := { f with trcRef := true } }
  else
    let wrapped := decide (f.trcPtr + 1 = 1572864)
    let f := { f with trcBytes := f.trcBytes + 32, trcPtr := (f.trcPtr + 1) % 1572864,
                      trcWrap := satAdd 64 f.trcWrap (b2n wrapped),
                      traces := ((src.1, part, k, data) :: f.traces).take 1572864 }
    chargeD 1 32 { s with flt := f }

/-- Raise an alarm class with its record (R454). -/
def alarm (c : Fin 16) (s : State) : State :=
  let s := alarmBit c s
  logR 0x0009 0 0xFF 0xFFFF 0xFFFF [c.1, 1, s.flt.counts[c.1]'c.2] s

/-! ### Masters and ownership -/

/-- Kind code of a master (R374): 1 SB, 2 PF0, 3 RM. -/
def masterKind : Master → Nat
  | .sb => 1
  | .pf0 => 2
  | .rm _ _ _ => 3
  | .vf _ => 0

/-- The master holds owner rights: state owned, and it is the owner (R373, R377). -/
def isOwner (s : State) (m : Master) : Bool :=
  decide (s.own.state = .owned) && decide (s.own.owner.map Claim.m = some m)

/-- Count an ignored write of a master (IGNWR, R456) with its record: reason 1 not owner, 2 state, 3 signature. -/
def ignoreWrite (m : Master) (off reason : Nat) (s : State) : State :=
  logR 0x000C 2 0xFF 0xFFFF 0xFFFF [off, masterKind m, reason]
    (updOwn (fun o => match m with
      | .sb => { o with ignwr := o.ignwr.set 0 (satAdd 64 (o.ignwr[0]) 1) }
      | .pf0 => { o with ignwr := o.ignwr.set 1 (satAdd 64 (o.ignwr[1]) 1) }
      | .rm _ _ _ => { o with ignwr := o.ignwr.set 2 (satAdd 64 (o.ignwr[2]) 1) }
      | .vf _ => { o with ignwrVf := satAdd 64 o.ignwrVf 1 }) s)

/-- An access of a master reaches the block: nothing does in P4, class M traffic none in P3 (R435), PCIe none while PERST_N is
asserted, and only the I3C target answers where no Aghorn copy runs (R422). -/
def arrives (s : State) (m : Master) : Bool :=
  match m with
  | .sb => decide (s.pwr.state ≠ PowState.p4)
  | .rm _ _ _ => decide (s.pwr.state ≠ PowState.p4 ∧ s.pwr.state ≠ PowState.p3 ∧ s.img.fwCopy ≠ 2)
  | _ => decide (s.pwr.state ≠ PowState.p4 ∧ s.img.fwCopy ≠ 2) && !s.pwr.perst

/-- The link ports are powered: nothing reaches the device over them in P3 and P4 (R26, R435). -/
def linksOn (s : State) : Bool := decide (s.pwr.state ≠ PowState.p3 ∧ s.pwr.state ≠ PowState.p4)

/-- Do an owner-only write, or ignore and count it (R373). -/
def ownerOnly (m : Master) (off : Nat) (f : State → State) (s : State) : State :=
  if !arrives s m then s else if isOwner s m then f s else ignoreWrite m off 1 s

/-! ### Regions of the device -/

/-- Partition of a core, among those with a section (R369). -/
def partOfCore (s : State) (c : Nat) : Option PartId :=
  allParts.find? (fun p => match (s.part p).section_ with
    | some cfg => cfg.cores.contains c
    | none => false)

/-- Cores of a partition's section. -/
def coresOf (s : State) (p : PartId) : List CoreId :=
  match (s.part p).section_ with
  | some cfg => cfg.cores.map cid
  | none => []

/-- Core group of a core (R26). -/
def groupOf (c : Nat) : Nat := c / 8

/-- A partition is active: its core groups are powered (R28, and R371: halted is idle, powered; log 10, DEDUCED). -/
def partActive (st : PState) : Bool :=
  match st with
  | .unconfigured => false
  | _ => true

/-- A core group is powered whenever a core of it belongs to an active partition, one whose section is still being loaded included; none
is in P3 and P4 (R28, R435). -/
def groupsPowered (s : State) : List Nat :=
  if s.pwr.state = .p3 ∨ s.pwr.state = .p4 then []
  else (List.range 16).filter (fun g => allParts.any (fun p =>
    partActive (s.part p).state && ((coresOf s p).map (·.1) ++ (s.part p).loadCores).any (fun c => groupOf c == g)))

/-- The domains that a domain needs powered (R26). -/
def domainNeeds : PowerDomain → List PowerDomain
  | .cg _ | .fmem | .linkt | .linke => [.mesh, .ctld]
  | .mesh | .nmem | .hostd => [.ctld]
  | .ctld => [.secd]
  | .secd => [.aon]
  | .aon => []

/-- A power domain is powered (R28, R435). -/
def domainOn (s : State) : PowerDomain → Bool
  | .aon => s.pwr.aon
  | .hostd | .ctld | .secd => s.pwr.aon && decide (s.pwr.state ≠ .p4)
  | .mesh | .nmem | .fmem | .linkt | .linke => s.pwr.aon && decide (s.pwr.state ≠ .p3 ∧ s.pwr.state ≠ .p4)
  | .cg n => s.pwr.aon && decide (s.pwr.state ≠ .p3 ∧ s.pwr.state ≠ .p4) && s.pwr.groups.contains n.1

/-- Every partition is in one of the given states. -/
def allPartsIn (s : State) (ok : PState → Bool) : Bool := allParts.all (fun p => ok (s.part p).state)

/-- Change a partition's state, signalling its vectors where it changes (R466), and power its core groups (R28). -/
def setPState (p : PartId) (st : PState) (s : State) : State :=
  let old := (s.part p).state
  let s := updPart p (fun x => { x with state := st }) s
  let s := { s with pwr := { s.pwr with groups := groupsPowered s } }
  if old = st then s else vecEvent (vfOf p) 2 (vecEvent 0 ⟨8 + p.1, by omega⟩ s)

/-- A PRT_STATUS error bit is set: update and signal (R466, R477). -/
def prtError (p : PartId) (f : Part → Part) (s : State) : State :=
  vecEvent (vfOf p) 2 (vecEvent 0 ⟨8 + p.1, by omega⟩ (updPart p f s))

/-- Set OPREJ: a partition operation was rejected (R371). -/
def opReject (p : PartId) (s : State) : State := prtError p (fun x => { x with oprej := true }) s

/-- An idle block lets one phase unit of the tick pass: 65,536 of them make a tick, numbered 0-65,535 (R357; log 35, DESIGN CHOICE). -/
def idle (s : State) : State := updTick (fun t => { t with phase := Nat.min 65535 (t.phase + 1) }) s

end Sys2Proof.Machine
end

