-- ==== Sys2Proof/Machine/Flags.lean ====
section
/-! DEFINITION. Exact values, roundings and the flags they raise: R37, R45, R51, R53, R60-R63 and R122. Every rounding
works on an exact fraction n/d, once. -/

namespace Sys2Proof.Machine

/-- A decoded number: NaN, an infinity, or (-1)^neg · m · 2^e, a zero keeping its sign. -/
inductive FV where
  | nan
  | inf (neg : Bool)
  | fin (neg : Bool) (m : Nat) (e : Int)
deriving DecidableEq, Repr, Inhabited

/-- 2^k as a fraction. -/
def pow2Num (k : Int) : Nat := 2 ^ k.toNat
def pow2Den (k : Int) : Nat := 2 ^ (-k).toNat

/-- Floor of log2 of n/d, for n, d > 0. -/
def floorLog2 (n d : Nat) : Int :=
  let l : Int := (Nat.log2 n : Int) - (Nat.log2 d : Int)
  if n * pow2Den l < d * pow2Num l then l - 1 else l

/-- n/d rounded to the nearest integer, ties to even. -/
def rneQuot (n d : Nat) : Nat :=
  let q := n / d
  let r := n % d
  if 2 * r < d then q else if d < 2 * r then q + 1 else if q % 2 = 0 then q else q + 1

/-- The quantum exponent of n/d in a format with `mw` mantissa bits and least quantum 2^qmin. -/
def quantum (mw : Nat) (qmin : Int) (n d : Nat) : Int := max qmin (floorLog2 n d - mw)

/-- Magnitude code of n/d under RNE, exponent range unbounded above: exponent field and mantissa run on (R45). -/
def magCode (mw : Nat) (qmin : Int) (n d : Nat) : Nat :=
  if n = 0 then 0 else
  let q := quantum mw qmin n d
  (q - qmin).toNat * 2 ^ mw + rneQuot (n * pow2Den q) (d * pow2Num q)

/-- Magnitude code of the largest representable magnitude at most n/d, with the fraction of the next step in 1/65,536 (R58). -/
def magFloor (mw : Nat) (qmin : Int) (n d : Nat) : Nat × Nat :=
  if n = 0 then (0, 0) else
  let q := quantum mw qmin n d
  let nn := n * pow2Den q
  let dd := d * pow2Num q
  ((q - qmin).toNat * 2 ^ mw + nn / dd, (nn % dd) * 65536 / dd)

/-- Mantissa and exponent of a magnitude code (R37). -/
def codeVal (mw : Nat) (qmin : Int) (c : Nat) : Nat × Int :=
  let ex := c / 2 ^ mw
  let ma := c % 2 ^ mw
  if ex = 0 then (ma, qmin) else (ma + 2 ^ mw, qmin + ex - 1)

/-- The seven vector flags, in the bit order of VXST (R259). -/
abbrev VF := BitVec 7
def flInvalid : VF := 1
def flOverflow : VF := 2
def flUnderflow : VF := 4
def flDivZero : VF := 8
def flSat : VF := 16
def flNanIn : VF := 32
def flPerm : VF := 64

/-- The canonical NaN of every engine (R62, R121). -/
def nan32 : W32 := 0x7FC00000
def inf32 (neg : Bool) : W32 := if neg then 0xFF800000 else 0x7F800000
def zero32 (neg : Bool) : W32 := if neg then 0x80000000 else 0

/-- Decode an FP32 pattern. -/
def dec32 (w : W32) : FV :=
  let neg := w.msb
  let c := w.toNat % 2 ^ 31
  if c < 0x7F800000 then let (m, e) := codeVal 23 (-149) c; .fin neg m e
  else if c = 0x7F800000 then .inf neg else .nan

def isNan32 (w : W32) : Bool := decide (0x7F800000 < w.toNat % 2 ^ 31)
def isInf32 (w : W32) : Bool := decide (w.toNat % 2 ^ 31 = 0x7F800000)
def isFin32 (w : W32) : Bool := decide (w.toNat % 2 ^ 31 < 0x7F800000)
def isZero32 (w : W32) : Bool := decide (w.toNat % 2 ^ 31 = 0)

/-- m · 2^e as a fraction. -/
def dyNum (m : Nat) (e : Int) : Nat := m * pow2Num e
def dyDen (e : Int) : Nat := pow2Den e

/-- Round n/d to an IEEE format of `mw` mantissa bits, least quantum 2^qmin and infinity code `infc`, with the overflow
and underflow of R122: tininess after rounding, and the delivered result differs from the exact one. -/
def roundIEEE (mw : Nat) (qmin : Int) (infc : Nat) (n d : Nat) : Nat × VF :=
  if n = 0 then (0, 0) else
  let c := magCode mw qmin n d
  if infc ≤ c then (infc, flOverflow) else
  let l := floorLog2 n d
  let q := rneQuot (n * pow2Den (l - mw)) (d * pow2Num (l - mw))
  let emin := qmin + mw
  let tiny := decide (l < emin) && !(decide (l = emin - 1) && decide (q = 2 ^ (mw + 1)))
  let (m, e) := codeVal mw qmin c
  let inexact := decide (dyNum m e * d ≠ n * dyDen e)
  (c, if tiny && inexact then flUnderflow else 0)

/-- Round a signed fraction to FP32 with RNE (R51, R60). -/
def rnd32f (neg : Bool) (n d : Nat) : W32 × VF :=
  let (c, f) := roundIEEE 23 (-149) 0x7F800000 n d
  (BitVec.ofNat 32 (c + (if neg then 2 ^ 31 else 0)), f)

def rnd32 (neg : Bool) (n d : Nat) : W32 := (rnd32f neg n d).1

/-- Narrow an FP32 pattern to a 16-bit IEEE-like format with RNE; a NaN keeps its sign and leading payload, quietened (R51). -/
def cvt16 (mw : Nat) (qmin : Int) (infc : Nat) (w : W32) : W16 × VF :=
  let sgn := if w.msb then 2 ^ 15 else 0
  match dec32 w with
  | .nan => (BitVec.ofNat 16 (sgn + (infc ||| (2 ^ (mw - 1)) ||| ((w.toNat % 2 ^ 23) >>> (23 - mw)))), 0)
  | .inf _ => (BitVec.ofNat 16 (sgn + infc), 0)
  | .fin _ m e =>
    let (c, f) := roundIEEE mw qmin infc (dyNum m e) (dyDen e)
    (BitVec.ofNat 16 (sgn + c), f)

/-- FP32 to BF16 (R51). -/
def toBF16 (w : W32) : W16 × VF := cvt16 7 (-133) 0x7F80 w
/-- FP32 to FP16 (R51). -/
def toFP16 (w : W32) : W16 × VF := cvt16 10 (-24) 0x7C00 w
/-- BF16 widened to FP32: it gains zero bits (R52). -/
def ofBF16 (x : W16) : W32 := x.setWidth 32 <<< 16
/-- FP16 widened to FP32 exactly (R52). -/
def ofFP16 (x : W16) : W32 :=
  let neg := x.msb
  let c := x.toNat % 2 ^ 15
  if c < 0x7C00 then let (m, e) := codeVal 10 (-24) c; rnd32 neg (dyNum m e) (dyDen e)
  else if c = 0x7C00 then inf32 neg
  else BitVec.ofNat 32 ((if neg then 2 ^ 31 else 0) + 0x7F800000 + 2 ^ 22 + (c % 2 ^ 10) * 2 ^ 13 % 2 ^ 22)

/-- Bring an FP32 value to a result format: FP32, or BF16 held as FP32 (R134, R152). -/
def rndStage (bf : Bool) (w : W32) : W32 × VF :=
  if bf then let (h, f) := toBF16 w; (ofBF16 h, f) else (w, 0)

/-- Signed numerator over the common denominator 2^-k (k the smaller exponent). -/
def alignInt (neg : Bool) (m : Nat) (e lo : Int) : Int :=
  let v : Int := (m * 2 ^ (e - lo).toNat : Nat)
  if neg then -v else v

/-- Round a signed dyadic v · 2^lo, a zero being +0. -/
def rndInt (v lo : Int) : W32 × VF := rnd32f (decide (v < 0)) (v.natAbs * pow2Num lo) (pow2Den lo)

/-- Round an exact value once to a result format: FP32, or BF16 held as FP32 (R51, R121, R152). -/
def rndTo (bf : Bool) (v : FV) : W32 × VF :=
  match v with
  | .nan => (nan32, 0)
  | .inf s => (inf32 s, 0)
  | .fin s m e =>
    if bf then
      let (c, f) := roundIEEE 7 (-133) 0x7F80 (dyNum m e) (dyDen e)
      (BitVec.ofNat 32 ((c + (if s then 2 ^ 15 else 0)) * 65536), f)
    else rnd32f s (dyNum m e) (dyDen e)

/-- The exact a·b + c, with invalid where R122 lists it. -/
def fmaExact (a b c : W32) : FV × VF :=
  match dec32 a, dec32 b, dec32 c with
  | .nan, _, _ => (.nan, 0)
  | _, .nan, _ => (.nan, 0)
  | .inf _, .fin _ 0 _, _ => (.nan, flInvalid)
  | .fin _ 0 _, .inf _, _ => (.nan, flInvalid)
  | _, _, .nan => (.nan, 0)
  | .inf s, x, z =>
    let sp := s != (match x with | .inf t => t | .fin t _ _ => t | .nan => false)
    (match z with
      | .inf u => if u = sp then (.inf sp, 0) else (.nan, flInvalid)
      | _ => (.inf sp, 0))
  | .fin s _ _, .inf t, z =>
    (match z with
      | .inf u => if u = (s != t) then (.inf (s != t), 0) else (.nan, flInvalid)
      | _ => (.inf (s != t), 0))
  | .fin _ _ _, .fin _ _ _, .inf u => (.inf u, 0)
  | .fin s m e, .fin t n f, .fin u k g =>
    let lo := min (e + f) g
    let v := alignInt (s != t) (m * n) (e + f) lo + alignInt u k g lo
    if v = 0 then (.fin (if m * n = 0 ∧ k = 0 then (s != t) && u else false) 0 0, 0)
    else (.fin (decide (v < 0)) v.natAbs lo, 0)

/-- The exact a·b (R121): the sign of a zero product is the exclusive or of the signs. -/
def mulExact (a b : W32) : FV × VF :=
  match dec32 a, dec32 b with
  | .nan, _ => (.nan, 0)
  | _, .nan => (.nan, 0)
  | .inf _, .fin _ 0 _ => (.nan, flInvalid)
  | .fin _ 0 _, .inf _ => (.nan, flInvalid)
  | .inf s, .inf t => (.inf (s != t), 0)
  | .inf s, .fin t _ _ => (.inf (s != t), 0)
  | .fin s _ _, .inf t => (.inf (s != t), 0)
  | .fin s m e, .fin t n f => (.fin (s != t) (m * n) (e + f), 0)

/-- Round an exact result, keeping its flags. -/
def rndExact (bf : Bool) (r : FV × VF) : W32 × VF := let (w, f) := rndTo bf r.1; (w, r.2 ||| f)

def negW (a : W32) : W32 := a ^^^ 0x80000000

/-- The operations of a stage, rounded once to its format (R148, R149, R152). -/
def fmaTo (bf : Bool) (a b c : W32) : W32 × VF := rndExact bf (fmaExact a b c)
def addTo32 (bf : Bool) (a b : W32) : W32 × VF := fmaTo bf a 0x3F800000 b
def subTo (bf : Bool) (a b : W32) : W32 × VF := addTo32 bf a (negW b)
def mulTo (bf : Bool) (a b : W32) : W32 × VF := rndExact bf (mulExact a b)

/-- IEEE 754 binary32 fused multiply-add a·b + c with RNE (R121). -/
def fFma (a b c : W32) : W32 × VF := fmaTo false a b c
/-- IEEE 754 binary32 addition (R60, R121). -/
def fAdd (a b : W32) : W32 × VF := addTo32 false a b
def fSub (a b : W32) : W32 × VF := subTo false a b
/-- IEEE 754 binary32 multiplication (R121). -/
def fMul (a b : W32) : W32 × VF := mulTo false a b

/-- IEEE 754 binary32 division with RNE, as the normaliser rounds it (R130). -/
def fDiv (a b : W32) : W32 × VF :=
  match dec32 a, dec32 b with
  | .nan, _ => (nan32, 0)
  | _, .nan => (nan32, 0)
  | .inf _, .inf _ => (nan32, flInvalid)
  | .inf s, .fin t _ _ => (inf32 (s != t), 0)
  | .fin s _ _, .inf t => (zero32 (s != t), 0)
  | .fin s m e, .fin t n f =>
    if n = 0 then (if m = 0 then (nan32, flInvalid) else (inf32 (s != t), flDivZero))
    else rnd32f (s != t) (m * pow2Num (e - f)) (n * pow2Den (e - f))

/-- Numeric order of two FP32 patterns, -0 below +0 (R121, the MAX and MIN rules). -/
def ordKey (w : W32) : Int := if w.msb then -1 - ((w.toNat % 2 ^ 31 : Nat) : Int) else (w.toNat : Int)

/-- MAX: a NaN operand gives the canonical NaN; -0 is below +0 (R121). -/
def fMax (a b : W32) : W32 :=
  if isNan32 a || isNan32 b then nan32 else if ordKey a < ordKey b then b else a
/-- MIN (R121). -/
def fMin (a b : W32) : W32 :=
  if isNan32 a || isNan32 b then nan32 else if ordKey b < ordKey a then b else a

/-- IEEE comparison a < b on non-NaN patterns: zeros are equal. -/
def fLt (a b : W32) : Bool :=
  !(isNan32 a || isNan32 b) && !(isZero32 a && isZero32 b) && decide (ordKey a < ordKey b)
def fEq (a b : W32) : Bool :=
  !(isNan32 a || isNan32 b) && ((isZero32 a && isZero32 b) || decide (a = b))

/-- Int32 to FP32 with RNE (R121, I2F). -/
def i2f (v : W32) : W32 × VF := rndInt v.toInt 0

/-- A signed fraction rounded to an integer with RNE. -/
def rneInt (neg : Bool) (n d : Nat) : Int := let q : Int := rneQuot n d; if neg then -q else q

/-- FP32 to an integer range with RNE, saturating: value, clamped, was NaN (R45-R47, R121). -/
def f2iSat (lo hi : Int) (w : W32) : Int × Bool × Bool :=
  match dec32 w with
  | .nan => (0, false, true)
  | .inf s => (if s then lo else hi, true, false)
  | .fin s m e =>
    let v := rneInt s (dyNum m e) (dyDen e)
    let out := if s then decide ((dyNum m e : Int) > -lo * dyDen e) else decide ((dyNum m e : Int) > hi * dyDen e)
    (max lo (min hi v), out, false)

/-- FLOOR: toward -Inf to an integral FP32 value; exact, no flag (R121). -/
def fFloor (w : W32) : W32 :=
  match dec32 w with
  | .nan => nan32
  | .inf _ => w
  | .fin s m e =>
    if m = 0 then w else
    let n := dyNum m e
    let d := dyDen e
    let v : Int := if s then -(((n + d - 1) / d : Nat) : Int) else ((n / d : Nat) : Int)
    if v = 0 then zero32 s else (rndInt v 0).1

/-- EXPO: the unbiased exponent as int32; 0 gives -127, Inf and NaN give 128 (R121). -/
def fExpo (w : W32) : W32 :=
  match dec32 w with
  | .nan => 128
  | .inf _ => 128
  | .fin _ m e => if m = 0 then BitVec.ofInt 32 (-127) else BitVec.ofInt 32 ((Nat.log2 m : Int) + e)

end Sys2Proof.Machine
end

