-- ==== Sys2Proof/Machine/Formats.lean ====
section
/-! DEFINITION. Element formats, block forms and the quantisers: R37-R59, R81-R83, R95-R100, R185-R188, R250. -/

namespace Sys2Proof.Machine

/-- Bits of an element of a format code (R37, R38, R250). -/
def fmtBits (f : Nat) : Nat :=
  match f with
  | 0x00 => 32
  | 0x01 => 16
  | 0x02 => 16
  | 0x03 => 8
  | 0x04 => 8
  | 0x05 => 8
  | 0x06 => 32
  | 0x07 => 4
  | 0x08 => 4
  | 0x09 => 6
  | 0x0A => 6
  | 0x0B => 8
  | 0x0C => 8
  | 0x0D => 8
  | 0x0E => 2
  | 0x0F => 2
  | 0x10 => 8
  | 0x11 => 4
  | 0x12 => 16
  | _ => 0

/-- MX block forms: 32 elements, E8M0 scale (R41, R42). -/
def isMX (f : Nat) : Bool := decide (0x08 ≤ f ∧ f ≤ 0x0D)
def isT2 (f : Nat) : Bool := decide (f = 0x0E ∨ f = 0x0F)
def isKC (f : Nat) : Bool := decide (f = 0x10 ∨ f = 0x11)

/-- Element bytes per scale byte of a block form (R41, R219). -/
def scaleDiv (f : Nat) : Nat :=
  if isT2 f then 8 else if f = 0x08 then 16 else if f = 0x09 ∨ f = 0x0A then 24 else 32

/-- Mantissa bits, log2 of the least quantum and largest finite magnitude code of a narrow float format (R37). -/
def narrow (f : Nat) : Option (Nat × Int × Nat) :=
  match f with
  | 0x03 => some (3, -9, 0x7E)
  | 0x0B => some (3, -9, 0x7E)
  | 0x10 => some (3, -9, 0x7E)
  | 0x04 => some (2, -16, 0x7B)
  | 0x0C => some (2, -16, 0x7B)
  | 0x08 => some (1, -1, 7)
  | 0x11 => some (1, -1, 7)
  | 0x09 => some (3, -3, 31)
  | 0x0A => some (2, -4, 31)
  | _ => none

/-- Written range of an integer element and the power of two its code counts in (R38). -/
def intFmt (f : Nat) : Option (Int × Int × Nat) :=
  match f with
  | 0x05 => some (-128, 127, 0)
  | 0x07 => some (-8, 7, 0)
  | 0x0D => some (-127, 127, 6)
  | 0x06 => some (-2147483648, 2147483647, 0)
  | _ => none

/-- Two's complement reading of a `w`-bit code. -/
def twos (w c : Nat) : Int := if c < 2 ^ (w - 1) then c else (c : Int) - (2 ^ w : Nat)

/-- The value of an element code, scales excluded (R37-R39). -/
def decCode (f c : Nat) : FV :=
  match narrow f with
  | some (mw, qmin, mx) =>
    let w := fmtBits f
    let neg := decide (2 ^ (w - 1) ≤ c)
    let g := c % 2 ^ (w - 1)
    if g ≤ mx then let (m, e) := codeVal mw qmin g; .fin neg m e
    else if f = 0x04 ∨ f = 0x0C then (if g = 0x7C then .inf neg else .nan)
    else .nan
  | none =>
    match intFmt f with
    | some (_, _, k) => let v := twos (fmtBits f) c; .fin (decide (v < 0)) v.natAbs (-(k : Int))
    | none =>
      match f with
      | 0x0E => let v := twos 2 c; .fin (decide (v < 0)) v.natAbs 0
      | 0x0F => if c = 2 then .fin false 0 0 else let v := twos 2 c; .fin (decide (v < 0)) v.natAbs 0
      | 0x00 => dec32 (BitVec.ofNat 32 c)
      | 0x01 => dec32 (ofBF16 (BitVec.ofNat 16 c))
      | 0x12 => dec32 (ofBF16 (BitVec.ofNat 16 c))
      | 0x02 => dec32 (ofFP16 (BitVec.ofNat 16 c))
      | _ => .fin false 0 0

/-- An element as the arrays take it, in units of 2^-18. -/
def elemOf (v : FV) : Elem :=
  match v with
  | .nan => .nan
  | .inf s => .inf s
  | .fin s m e => let x : Int := (dyNum m (e + 18) / dyDen (e + 18) : Nat); .fin (if s then -x else x)

/-- E8M0 scale byte as an FP32 pattern: 2^(e - 127), 0xFF is NaN (R40). -/
def e8m0 (b : Nat) : W32 := if b = 255 then nan32 else rnd32 false (pow2Num (b - 127)) (pow2Den (b - 127))

/-- A NaN of `mw` mantissa bits in a byte, converted into FP32: it keeps its sign and payload, quietened (R51). -/
def nanOf8 (mw c : Nat) : W32 :=
  BitVec.ofNat 32 ((if 128 ≤ c then 2 ^ 31 else 0) + (0x7FC00000 ||| ((c % 2 ^ mw) * 2 ^ (23 - mw))))

/-- The NaN that a NaN element or scale decodes to. A plain FP8 NaN converts by R51; the bits that a block form's NaN decodes to
are open (R52; log 138, DESIGN CHOICE), that it is one is not. -/
def decNan (f c : Nat) (sc : W32) : W32 :=
  if f = 0x03 then nanOf8 3 c
  else if f = 0x04 then nanOf8 2 c
  else if isNan32 (Config.decodedNan f c sc) then Config.decodedNan f c sc else nan32

/-- The FP32 value of the element code c of format f under a scale pattern: exact but for ±Inf past the FP32 range (R42, R44, R52). -/
def scaled (f c : Nat) (sc : W32) : W32 :=
  match decCode f c, dec32 sc with
  | .nan, _ => decNan f c sc
  | _, .nan => decNan f c sc
  | .inf s, .fin t m _ => if m = 0 then decNan f c sc else inf32 (s != t)
  | .inf s, .inf t => inf32 (s != t)
  | .fin s m _, .inf t => if m = 0 then decNan f c sc else inf32 (s != t)
  | .fin s m e, .fin t n g => rnd32 (s != t) (m * n * pow2Num (e + g)) (pow2Den (e + g))

/-! ### Bit-packed regions -/

/-- Element `i` of `w` bits of the region at `a` (R41). -/
def rdElem (m : SMap Byte) (a w i : Nat) : Nat :=
  let o := w * i
  (rdLE m (a + o / 8) 5 >>> (o % 8)) % 2 ^ w

/-- Write element `i` of `w` bits. -/
def wrElem (m : SMap Byte) (a w i c : Nat) : SMap Byte :=
  let o := w * i
  let old := rdLE m (a + o / 8) 5
  let sh := o % 8
  let v := old - ((old >>> sh) % 2 ^ w) * 2 ^ sh + (c % 2 ^ w) * 2 ^ sh
  wrLE m (a + o / 8) 5 v

/-- Block scale of the element at byte offset `off` of a block-form region: E8M0 for MX, BF16 for T2 (R40, R41, R43). -/
def rdScale (m : SMap Byte) (f saddr off : Nat) : W32 :=
  if isT2 f then ofBF16 (BitVec.ofNat 16 (rdLE m (saddr + off / 16 * 2) 2))
  else if isMX f then e8m0 (rd8 m (saddr + off / scaleDiv f)).toNat
  else 0x3F800000

/-! ### Rounding into narrow formats -/

/-- n/d exceeds the magnitude m · 2^e. -/
def exceeds (n d m : Nat) (e : Int) : Bool := decide (dyNum m e * d < n * dyDen e)

/-- Encode a signed exact value: code and whether it clamped; RNE, or stochastic with the draw u (R45, R46, R58). -/
def encNarrow (f : Nat) (u : Option Nat) (neg : Bool) (n d : Nat) : Nat × Bool :=
  let w := fmtBits f
  match narrow f with
  | some (mw, qmin, mx) =>
    let (mm, me) := codeVal mw qmin mx
    let big := exceeds n d mm me
    let c := if big then mx else
      match u with
      | none => min mx (magCode mw qmin n d)
      | some u => let (lo, fr) := magFloor mw qmin n d; if u < fr then lo + 1 else lo
    ((if neg then 2 ^ (w - 1) else 0) + c, big)
  | none =>
    match intFmt f with
    | some (lo, hi, k) =>
      let n := n * 2 ^ k
      let lim : Nat := if neg then (-lo).toNat else hi.toNat
      let big := decide (lim * d < n)
      let q := if big then lim else
        match u with
        | none => min lim (rneQuot n d)
        | some u => if u < (n % d) * 65536 / d then n / d + 1 else n / d
      let v : Int := if neg then -(q : Int) else q
      ((v % (2 ^ w : Nat)).toNat, big)
    | none => (0, false)

/-- Convert an FP32 value to a narrow element with no block scale: code, clamp, NaN counted (R47). -/
def cvtPlain (f : Nat) (u : Option Nat) (x : W32) : Nat × Bool × Bool :=
  match dec32 x with
  | .nan =>
    (match f with
      | 0x03 => 0x7F
      | 0x04 => 0x7E
      | _ => 0, false, decide (f ≠ 0x03 ∧ f ≠ 0x04))
  | .inf s =>
    (match narrow f, intFmt f with
      | some (_, _, mx), _ => (if s then 2 ^ (fmtBits f - 1) else 0) + mx
      | none, some (lo, hi, _) => ((if s then lo else hi) % (2 ^ fmtBits f : Nat)).toNat
      | none, none => 0, true, false)
  | .fin s m e => let (c, k) := encNarrow f u s (dyNum m e) (dyDen e); (c, k, false)

/-- A quantised block: scale code, element codes, clamps of each element, poisoned. -/
structure QBlock where
  scale    : Nat := 0x7F
  codes    : List Nat := []
  clamps   : Nat := 0
  poisoned : Bool := false
deriving DecidableEq, Repr, Inhabited

/-- Largest magnitude pattern of a list. -/
def amaxOf (xs : List W32) : Nat := xs.foldl (fun a x => Nat.max a (x.toNat % 2 ^ 31)) 0

/-- emax of R48. -/
def emaxOf (f : Nat) : Int :=
  match f with
  | 0x08 => 2
  | 0x09 => 2
  | 0x0A => 4
  | 0x0B => 8
  | 0x0C => 15
  | _ => 0

/-- Scale byte of an MX block by R48, from the largest magnitude pattern (finite). -/
def mxScale (emax : Int) (amax : Nat) : Nat :=
  if amax = 0 then 0x7F else
  let (m, e) := codeVal 23 (-149) amax
  let x := (Nat.log2 m : Int) + e - emax + 127
  if x < 0 then 0 else if 254 < x then 254 else x.toNat

/-- Encode one element divided by a positive dyadic scale m · 2^e. -/
def encScaled (f : Nat) (u : Option Nat) (sm : Nat) (se : Int) (x : W32) : Nat × Bool :=
  match dec32 x with
  | .fin s m e => encNarrow f u s (m * pow2Num (e - se)) (sm * pow2Den (e - se))
  | _ => (0, false)

/-- Quantise one MX block (R45, R46, R48, R50); `us` are the stochastic draws, none under RNE (R58). -/
def mxBlock (f : Nat) (us : Nat → Option Nat) (xs : List W32) : QBlock :=
  if xs.any (fun x => !isFin32 x) then
    { scale := 0xFF, codes := xs.map (fun _ => 0), clamps := 0, poisoned := true }
  else
    let sc := mxScale (emaxOf f) (amaxOf xs)
    let r := xs.zipIdx.map (fun (x, i) => encScaled f (us i) 1 ((sc : Int) - 127) x)
    { scale := sc, codes := r.map Prod.fst, clamps := r.countP Prod.snd, poisoned := false }

/-- Emax of R49. -/
def kcEmax (f : Nat) : Nat := if f = 0x10 then 448 else 6

/-- KC scale code by R49: the smallest E4M3 value at least amax / Emax. -/
def kcScale (f : Nat) (amax : Nat) : Nat :=
  if amax = 0 then 0x38 else
  let (m, e) := codeVal 23 (-149) amax
  let ok (c : Nat) : Bool :=
    let (cm, ce) := codeVal 3 (-9) c
    !exceeds (dyNum m e) (dyDen e * kcEmax f) cm ce
  ((List.range' 1 0x7E).find? ok).getD 0x7E

/-- Encode an element against an E4M3 scale code (R45, R49). -/
def encKC (f sc : Nat) (x : W32) : Nat × Bool :=
  let (sm, se) := codeVal 3 (-9) (sc % 128)
  encScaled f none sm se x

/-- Quantise one KC scale block (R49, R50). -/
def kcBlock (f : Nat) (xs : List W32) : QBlock :=
  if xs.any (fun x => !isFin32 x) then
    { scale := 0x7F, codes := xs.map (fun _ => 0), clamps := 0, poisoned := true }
  else
    let sc := kcScale f (amaxOf xs)
    let r := xs.map (encKC f sc)
    { scale := sc, codes := r.map Prod.fst, clamps := r.countP Prod.snd, poisoned := false }

/-- A new key element against a frozen key scale (R188): code and clamp. A NaN scale keeps the channel poisoned. -/
def frozenKey (f sc : Nat) (x : W32) : Nat × Bool :=
  if sc % 128 = 0x7F then (0, false) else
  match dec32 x with
  | .nan => (if f = 0x10 then 0x7F else 0, false)
  | .inf s => (if f = 0x10 then (if s then 0xFE else 0x7E) else (if s then 0xF else 7), true)
  | .fin _ _ _ => encKC f sc x

/-! ### Stochastic rounding -/

/-- mix64 of R57. -/
def mix64 (z : W64) : W64 :=
  let z := z + 0x9e3779b97f4a7c15
  let z := (z ^^^ (z >>> 30)) * 0xbf58476d1ce4e5b9
  let z := (z ^^^ (z >>> 27)) * 0x94d049bb133111eb
  z ^^^ (z >>> 31)

/-- The counter of R56. -/
def srCounter (t : BitVec 24) (p k : Nat) : W64 :=
  (t.setWidth 64 <<< 40) ||| (BitVec.ofNat 64 (p % 2 ^ 24) <<< 16) ||| BitVec.ofNat 64 (k / 4 % 2 ^ 16)

/-- The draw u of element k (R57). -/
def srDraw (seed : W64) (t : BitVec 24) (p k : Nat) : Nat :=
  ((mix64 (seed ^^^ srCounter t p k) >>> (16 * (k % 4))).setWidth 16).toNat

/-- Seed S of a row: its domain's seed and number, or the partition's with 0xFFFF (R55). -/
def rowSeed (seed : W64) (d : W16) : W64 := mix64 (seed + d.setWidth 64)

/-! ### The whisk and the BF16 split -/

/-- One butterfly stage of the whisk over pairs 2^j apart (R97). -/
def whiskStage (j : Nat) (x : List W32) : List W32 :=
  x.zipIdx.map (fun (v, i) =>
    if bit i j then (fSub (x.getD (i - 2 ^ j) 0) v).1 else (fAdd v (x.getD (i + 2 ^ j) 0)).1)

/-- The whisk of one 128-element K-slice (R97). -/
def whisk (x : List W32) : List W32 :=
  ((List.range 7).foldl (fun x j => whiskStage j x) x).map (fun v => (fMul v 0x3D800000).1)

/-- The BF16 split of one K-block: hi codes and scale, lo codes and scale (R81). -/
def splitBlock (xs : List W32) : QBlock × QBlock :=
  if xs.any (fun x => !isFin32 x) then
    ({ scale := 0xFF, codes := xs.map (fun _ => 0) }, { scale := 0xFF, codes := xs.map (fun _ => 0) })
  else
    let am := amaxOf xs
    let sh : Nat := if am = 0 then 0x7F else
      let (m, e) := codeVal 23 (-149) am
      (max ((Nat.log2 m : Int) + e + 120) 4).toNat
    let sl := sh - 4
    let hi := xs.map (fun x => (encScaled 0x0B none 1 ((sh : Int) - 127) x).1)
    let lo := (xs.zip hi).map (fun (x, h) => match dec32 x, decCode 0x0B h with
      | .fin s m e, .fin t n g =>
        let g := g + ((sh : Int) - 127)
        let k := min e g
        let r := alignInt s m e k - alignInt t n g k
        let z := (sl : Int) - 127
        (encNarrow 0x0B none (decide (r < 0)) (r.natAbs * pow2Num (k - z)) (pow2Den (k - z))).1
      | _, _ => 0)
    ({ scale := sh, codes := hi }, { scale := sl, codes := lo })

/-! ### Cache blocks (R185) -/

/-- Bytes of the element section of a half, of a key half, of a value half, and of a block. -/
def kcElems (f : Nat) : Nat := if f = 0x10 then 8192 else 4096
def kcKeyHalf (f : Nat) : Nat := kcElems f + 128
def kcValHalf (f : Nat) : Nat := kcElems f + 256
def kcBlockSize (f : Nat) : Nat := kcKeyHalf f + kcValHalf f

/-- CRC-32C (Castagnoli), reflected (R212, R380). -/
def crc32cStep : Nat → Nat → Nat
  | 0, c => c
  | k + 1, c => crc32cStep k (if c % 2 = 1 then (c / 2) ^^^ 0x82F63B78 else c / 2)
def crc32c (l : List Byte) : W32 :=
  if l.isEmpty then 0 else
  BitVec.ofNat 32 ((l.foldl (fun c x => crc32cStep 8 (c ^^^ x.toNat)) 0xFFFFFFFF) ^^^ 0xFFFFFFFF)

/-- CRC-64 of ECMA-182, most significant bit first (R270). -/
def crc64Step : Nat → W64 → W64
  | 0, c => c
  | k + 1, c => crc64Step k (if c.msb then (c <<< 1) ^^^ 0x42F0E1EBA9EA3693 else c <<< 1)
def crc64 (l : List Byte) : W64 :=
  l.foldl (fun (c : W64) (x : Byte) => crc64Step 8 (c ^^^ ((x.setWidth 64 : W64) <<< (56 : Nat)))) 0

end Sys2Proof.Machine
end

