-- ==== Sys2Proof/Machine/Wires.lean ====
section
/-! DEFINITION. The wires of the link ports: addresses and routing (R267, R275, R276), packets as flits (R269-R271, R274, R278), and class M
(R273, R277). -/

namespace Sys2Proof.Machine

/-! ### Addresses and routing -/

/-- Length, ring mark and coordinate of an axis (R267). -/
def axisOf (s : State) (a : Nat) : Nat × Bool × Nat := s.img.dev.axes.getD a (1, false, 0)

/-- This device in its own torus (R275). -/
def selfAddr (s : State) : DevAddr :=
  { x := BitVec.ofNat 16 (axisOf s 0).2.2, y := BitVec.ofNat 16 (axisOf s 1).2.2, z := BitVec.ofNat 16 (axisOf s 2).2.2, level := 0 }

/-- A port runs the link protocol: a torus port, or an export port in role PEER, UP or DOWN (R266, R267). -/
def isLink (x : Port) : Bool := decide (x.role = 1 ∨ x.role = 2 ∨ x.role = 3 ∨ x.role = 5)
def isEth (x : Port) : Bool := decide (x.role = 4)

/-- Step along an axis from c towards d: positive, and whether the hop crosses the wrap link (R275). -/
def axisStep (len : Nat) (ring : Bool) (c d : Nat) : Bool × Bool :=
  if ring then
    let up := (d + len - c) % len
    let down := (c + len - d) % len
    let pos := decide (up ≤ down)
    (pos, if pos then decide (c + 1 = len) else decide (c = 0))
  else (decide (c < d), false)

/-- The first axis on which two addresses differ, with the destination's coordinate. -/
def routeAxis (s : State) (d : DevAddr) : Option (Nat × Nat) :=
  let me := selfAddr s
  if d.x ≠ me.x then some (0, d.x.toNat) else if d.y ≠ me.y then some (1, d.y.toNat)
  else if d.z ≠ me.z then some (2, d.z.toNat) else none

/-- The export port of a packet of another level: role UP, else DOWN (R275, R299; log 38, DEDUCED). -/
def levelPort (s : State) : Option PortId :=
  match allPorts.find? (fun i => (s.port i).role == 2) with
  | some i => some i
  | none => allPorts.find? (fun i => (s.port i).role == 3)

/-- Output port and channel of a packet of class `cls` (R275, R276); `inPort` and `inVc` are where transit came from. A packet keeps to the
direction in which it entered an axis (log 167, DEDUCED). A down port turns class M the other way round its ring. None: no route, or a
failed transfer. -/
def routeOf (s : State) (d : DevAddr) (cls : Nat) (inPort : Option (PortId × Bool)) : Option (PortId × Bool) :=
  if d.level ≠ 0 then (levelPort s).map (fun i => (i, false))
  else match routeAxis s d with
    | none => none
    | some (a, c) =>
      let (len, ring, me) := axisOf s a
      let along := inPort.filter (fun i => decide (i.1.1 / 2 = a))
      let pos := match along with
        | some i => decide (i.1.1 % 2 = 1)
        | none => (axisStep len ring me c).1
      let crosses (p : Bool) : Bool := ring && (if p then decide (me + 1 = len) else decide (me = 0))
      let vc (p : Bool) : Bool := crosses p || (along.map Prod.snd).getD false
      let go (p : Bool) : PortId := portid (2 * a + (if p then 0 else 1))
      let serves (p : Bool) : Bool := decide ((s.port (go p)).state = .up ∨ (s.port (go p)).state = .retraining)
      if serves pos then some (go pos, vc pos)
      else if cls = 2 ∧ ring = true ∧ serves (!pos) then some (go (!pos), vc (!pos))
      else none

/-- A packet that came in by a port is for this device: level 0 and its own address, or another level, which travels only over an export port in
role UP or DOWN, from gateway to gateway (R275, R299; log 38, DEDUCED). -/
def forMe (s : State) (i : PortId) (d : DevAddr) : Bool :=
  if d.level = 0 then (routeAxis s d).isNone else decide ((s.port i).role = 2 ∨ (s.port i).role = 3)

/-- The PEER port whose peer an address is (R267). -/
def peerPort (s : State) (d : DevAddr) : Option PortId :=
  allPorts.find? (fun i => decide (6 ≤ i.1) && (s.port i).role == 1 && d.level == 0
    && s.img.dev.exports.getD (i.1 - 6) (0, 0, 0, 0, 0) == (1, (s.img.dev.exports.getD (i.1 - 6) (0, 0, 0, 0, 0)).2.1, d.x.toNat, d.y.toNat, d.z.toNat))

/-- Output port and channel of cache segments and management, which a PEER port carries to its peer, in service or not (R267, R276). -/
def routePeer (s : State) (d : DevAddr) (cls : Nat) : Option (PortId × Bool) :=
  match peerPort s d with
  | some i => if (s.port i).state = .up ∨ (s.port i).state = .retraining then some (i, false) else none
  | none => routeOf s d cls none

/-! ### Packets as flits (R269, R270, R278) -/

/-- Cut a list into blocks of n. -/
def cutBlocks {α : Type} (n : Nat) (l : List α) : List (List α) :=
  (List.range ((l.length + n - 1) / n)).map (fun i => (l.drop (n * i)).take n)

def addrBytes (d : DevAddr) : List Byte := leBytes 2 d.x.toNat ++ leBytes 2 d.y.toNat ++ leBytes 2 d.z.toNat ++ leBytes 1 d.level.toNat

/-- The packet header, 48 B (R278). -/
def hdrBytes (h : PktHdr) : List Byte :=
  addrBytes h.dst ++ leBytes 1 h.ptype.toNat ++ addrBytes h.src ++ leBytes 1 h.dpart.toNat ++ leBytes 1 h.group.toNat ++ leBytes 1 h.ctype.toNat
  ++ leBytes 2 h.gseq.toNat ++ leBytes 2 h.step.toNat ++ leBytes 1 h.dfmt.toNat ++ leBytes 1 h.pflags.toNat ++ leBytes 4 h.total.toNat
  ++ leBytes 4 h.offset.toNat ++ leBytes 2 h.plen.toNat ++ leBytes 2 0 ++ leBytes 4 h.task.toNat ++ leBytes 8 h.addr.toNat

/-- Flits of a packet of n payload bytes (R269, R278). -/
def flitsOf (n : Nat) : Nat := (48 + n + 239) / 240

/-- Index of a class and channel. -/
def cvIdx (cls : Nat) (vc : Bool) : Nat := 2 * cls + b2n vc

/-- The 8 header bytes of a flit as a number (R269). -/
def flitHeader (f : Flit) : Nat :=
  b2n f.head * 2 ^ 63 + b2n f.tail * 2 ^ 62 + f.cls.toNat * 2 ^ 60 + b2n f.vc * 2 ^ 59 + f.fseq.toNat * 2 ^ 47 + f.ackseq.toNat * 2 ^ 35
  + b2n f.nak * 2 ^ 34 + f.crcls.toNat * 2 ^ 32 + b2n f.crvc * 2 ^ 31 + f.crcnt.toNat * 2 ^ 21 + f.blen.toNat * 2 ^ 13

/-- Last good FSEQ of a port. -/
def lastGood (x : Port) : Nat := (x.rxSeq + 4095) % 4096

/-- CRC of a flit (R270). -/
def flitCrc (f : Flit) : W64 := crc64 (leBytes 8 (flitHeader f) ++ f.body)

/-- A flit as a port sends it, `k` flits from now: its own sequence number and acknowledgement, no credits, a new CRC (R269, R271). -/
def outFlit (x : Port) (vc : Bool) (k : Nat) (f : Flit) : Flit :=
  let f := { f with vc, fseq := BitVec.ofNat 12 (x.txSeq + k), ackseq := BitVec.ofNat 12 (lastGood x), nak := false, crcls := 0, crvc := false, crcnt := 0 }
  { f with crc := flitCrc f }

/-- The flits of a packet, before a port numbers them; the last body is filled with zeros (R269, R278; log 192, DESIGN CHOICE). -/
def rawFlits (cls : Nat) (h : PktHdr) (data : List Byte) : List Flit :=
  let bs := cutBlocks 240 (hdrBytes h ++ data)
  bs.zipIdx.map (fun (b, k) =>
    { head := k == 0, tail := k + 1 == bs.length, cls := BitVec.ofNat 2 cls, vc := false, fseq := 0, ackseq := 0, nak := false, crcls := 0, crvc := false
      crcnt := 0, blen := BitVec.ofNat 8 b.length, body := b ++ List.replicate (240 - b.length) 0, crc := 0, fecOk := true })

/-! ### Sending (R271, R274, R277) -/

/-- A port holds credits and replay room for n flits (R271, R274). -/
def canSend (x : Port) (cls : Nat) (vc : Bool) (n : Nat) : Bool :=
  decide (x.state = .up) && decide (n ≤ x.credits.getD (cvIdx cls vc) 0) && decide (x.replay.length + n ≤ 2048)

/-- Send flits by a port: credits and sequence numbers are taken, the flits stay in the replay buffer with the task that sent them, if one of
this device did (R269, R271, R272, R274). -/
def sendFlits (i : PortId) (cls : Nat) (vc : Bool) (own : Option (Nat × Nat)) (l : List Flit) (s : State) : State :=
  let x := s.port i
  let fs := l.zipIdx.map (fun (f, k) => outFlit x vc k f)
  forAll fs (fun f => emit (.wire i.1 f)) (updPort i (fun x => { x with
    credits := x.credits.set (cvIdx cls vc) (x.credits.getD (cvIdx cls vc) 0 - l.length)
    replay := x.replay ++ fs.map (fun f => (f, own))
    txSeq := (x.txSeq + l.length) % 4096
    mGap := if cls = 2 then 0 else Nat.min 1035 (x.mGap + l.length) }) s)

/-- Send a packet of this device. -/
def sendPacket (i : PortId) (cls : Nat) (vc : Bool) (own : Option (Nat × Nat)) (h : PktHdr) (data : List Byte) (s : State) : State :=
  sendFlits i cls vc own (rawFlits cls h data) (emit (.packet i.1 h data) s)

/-- Resend every flit that a port holds (R271). -/
def resend (i : PortId) (s : State) : State := forAll (s.port i).replay (fun f => emit (.wire i.1 f.1)) s

/-- A transit packet has arrived whole. -/
def wholePkt (l : List Flit) : Bool := (l.getLast?.map Flit.tail).getD false

/-- Class of a packet, and the channel that it came in on. -/
def pktCls (l : List Flit) : Nat := (l.head?.map (fun f => f.cls.toNat)).getD 0
def pktVc (l : List Flit) : Bool := (l.head?.map Flit.vc).getD false

/-- A transit packet of a class waits for a port (R277). -/
def transitWaits (s : State) (o : PortId) (cls : Nat) : Bool :=
  allPorts.any (fun i => (s.port i).transit.any (fun t => t.1 == o.1 && pktCls t.2.2 == cls))

/-! ### Class M (R273, R276, R277) -/

/-- The port's waiting class M packets leave while it can take them, behind transit packets of the class (R274, R277). -/
def mPump : Nat → PortId → State → State
  | 0, _, s => s
  | k + 1, o, s => match (s.port o).mq with
    | [] => s
    | (vc, h, data) :: rest =>
      if canSend (s.port o) 2 vc (flitsOf data.length) && !transitWaits s o 2 then
        mPump k o (sendPacket o 2 vc none h data (updPort o (fun x => { x with mq := rest }) s))
      else s

/-- A class M packet takes its place at a port. -/
def queueM (i : PortId) (vc : Bool) (h : PktHdr) (data : List Byte) (s : State) : State :=
  mPump ((s.port i).mq.length + 1) i (updPort i (fun x => { x with mq := x.mq ++ [(vc, h, data)] }) s)

/-- Widths of the fields of a suspect report (R450). -/
def reportWidths : List Nat := [2, 2, 2, 1, 1, 1, 1, 2, 2, 2, 4, 4, 8]

/-- The body of a class M message: a NOTICE has none, a suspect report that of R450, any other its kind and its fields, 8 B each (log 192, DESIGN
CHOICE). -/
def msgBytes (kind : Nat) (body : List Nat) : List Byte :=
  if kind = 0x05 then []
  else if kind = 0x10 ∨ kind = 0x11 then (reportWidths.zip body).flatMap (fun (n, v) => leBytes n v)
  else (kind :: body).flatMap (leBytes 8)

/-- The header of a class M message (R278): a NOTICE carries its task, its code and its partition, which its group lies in. -/
def msgHdr (s : State) (kind : Nat) (d : DevAddr) (body : List Nat) : PktHdr :=
  { (default : PktHdr) with
    dst := d, src := selfAddr s, ptype := if kind = 0x05 then 5 else 4, plen := BitVec.ofNat 16 (msgBytes kind body).length
    task := if kind = 0x05 then BitVec.ofNat 32 (body.getD 0 0) else 0, addr := if kind = 0x05 then BitVec.ofNat 64 (body.getD 1 0) else 0
    dpart := if kind = 0x05 then BitVec.ofNat 8 (body.getD 2 0) else 0, group := if kind = 0x05 then BitVec.ofNat 8 (body.getD 3 0) else 0 }

/-- Hand a class M message to a port, or to none where no port leads to its destination; it is charged to D (R276, R277, R363). -/
def sendMOn (r : Option (PortId × Bool)) (kind : Nat) (d : DevAddr) (body : List Nat) (s : State) : State :=
  let s := emit (.classM kind d body) (chargeD 5 (256 * flitsOf (msgBytes kind body).length) s)
  match r with
  | some (i, vc) => queueM i vc (msgHdr s kind d body) (msgBytes kind body) s
  | none => s

/-- Send a class M message to a device (R276). -/
def sendM (kind : Nat) (d : DevAddr) (body : List Nat) (s : State) : State := sendMOn (routePeer s d 2) kind d body s

end Sys2Proof.Machine
end

