-- ==== Sys2Proof/Machine/Tasks.lean ====
section
/-! DEFINITION. What every command of a task shares: budget charges (R363-R365), checkpoints (R236, R248), taking an abort
(R76, R240, R444, R295) and a dynamic illegal instruction (R260). -/

namespace Sys2Proof.Machine

/-! ### Budget charges -/

/-- Energy of `n` events of a kind, in 1/1,024 uJ, at the factor kappa (R365). -/
def energyFor (s : State) (kind n : Nat) : Nat := Config.energyOf kind * n * s.tick.kappa / 1000

/-- Charge several budget counters together, or none and count the hold (R364, R368): whether it was charged. -/
def charge (p : PartId) (cs : List (Fin 7 × Nat)) (s : State) : Bool × State :=
  let bs := (s.part p).budgets
  let ok := cs.all (fun (i, n) => decide (n ≤ (bs[i.1]'i.2).counter))
  let f (b : Vector Budget 7) (x : Fin 7 × Nat) : Vector Budget 7 :=
    let c := b[x.1.1]'x.1.2
    if ok then b.set x.1.1 { c with counter := c.counter - x.2 } x.1.2
    else if x.2 ≤ c.counter then b
    else b.set x.1.1 { c with holds := satAdd 64 c.holds 1 } x.1.2
  let s := updPart p (fun x => { x with budgets := cs.foldl f bs }) s
  (ok, if ok then s else trace 3 p.1 (cs.map (fun x => x.1.1)) s)

/-- Budget counters by name (R363). -/
def bENG : Fin 7 := 0
def bNEAR : Fin 7 := 1
def bFAR : Fin 7 := 2
def bLINKA : Fin 7 := 3
def bLINKW : Fin 7 := 4
def bLINKM : Fin 7 := 5
def bENERGY : Fin 7 := 6

/-! ### Checkpoints -/

/-- Phase units since the task's start (R236). -/
def taskPhase (s : State) (t : Task) : Nat := s.tick.now * 65536 + s.tick.phase - t.start * 65536

/-- The shape of a partition's task. -/
def shapeOf (x : Part) (t : Task) : Option Shape :=
  x.section_.bind (fun cfg => cfg.shapes.find? (fun h => h.idx == t.shape))

/-- A checkpoint of the task's timetable. -/
def ckptOf (x : Part) (t : Task) (k : Nat) : Option Ckpt :=
  (shapeOf x t).bind (fun h => h.ckpts.find? (fun c => c.idx == k))

/-- The task runs: it has started, has not ended, and no abort window is open. -/
def Task.live (t : Task) : Bool := t.started && !t.ended && t.window.isNone

/-- Meet a checkpoint (R236, R246, R248): 0 names none. -/
def meetCkpt (p : PartId) (k : Nat) (s : State) : State :=
  if k = 0 then s else
  match (s.part p).task with
  | none => s
  | some t =>
    let at_ := taskPhase s t
    trace 2 p.1 [k, at_] (updPart p (fun x => { x with
      task := some { t with met := if t.met.contains k then t.met else k :: t.met, lastMet := at_ } }) s)

/-- Meet a checkpoint of the partition a core belongs to. -/
def meetCkptOf (c : CoreId) (k : Nat) (s : State) : State :=
  match partOfCore s c.1 with
  | none => s
  | some p => meetCkpt p k s

/-! ### Aborts -/

/-- Rank of an abort code, 0 the highest (R445). -/
def abortRank (code : Byte) : Nat :=
  if code = 0x25 then 0 else if code = 0x26 then 1 else if code = 0x22 then 2 else if code = 0x23 then 3
  else if code = 0x27 then 4 else if code = 0x24 then 5 else 6

/-- The cause an abort record reports: the highest-ranked one of the window (R445). -/
def topCause (l : List Cause) : Cause :=
  l.foldl (fun a c => if abortRank c.code < abortRank a.code then c else a) (l.headD { code := 0x21 })

/-- The pass that an engine stopped by an abort was at, if any: its check may still report the array (R91, R445). -/
def stoppedPass (e : Engine) : Option Stopped :=
  match e.queue.find? (fun q => !q.done) with
  | some q => if q.skip || q.body.keep then none else some { e := q, tiles := e.staging, chainIn := e.chainIn }
  | none => none

/-- An engine stopped by an abort or a reset: no committed tile, both halves undefined, nothing staged (R69, R76). -/
def stopEngine (e : Engine) : Engine :=
  { e with stopped := stoppedPass e, committed := none, shadow := none, accA := none, accB := none, rowM := [], rowL := [], alpha0 := [], alpha1 := [],
           staging := [], chainIn := [], queue := [], toBind := none, cmax := [], sweep := none,
           armed := (none, none), skipPV := (false, false), skipVX := false, shares := [], kA := 0, kB := 0 }

/-- A table slot after an abort: tables persist (R141), but a load that was still writing ends, and its bank stays empty (log 149,
DEDUCED). -/
def stopTable (t : TabSlot) : TabSlot :=
  if t.istate = 1 then
    (if t.active then { t with istate := 0, waiting := [], bank0 := none } else { t with istate := 0, waiting := [], bank1 := none })
  else t

/-- A scoop unit after an abort: both slots empty, landing slots discarded, counts at their start values (R240). -/
def stopScoop (u : Scoop) : Scoop :=
  { u with active := none, shadow := none, landing := [], landed := 0, ovwcnt := 0, snap := none }

/-- A core stopped by an abort: nothing of the task goes on (R76, R121, R240). -/
def stopCore (x : Core) : Core :=
  { x with running := false, ended := false, hold := .none
           eng := x.eng.map stopEngine
           ve := { x.ve with temps := [], queue := [], tables := x.ve.tables.map stopTable }
           su := x.su.map stopScoop, scq := [], trq := [], parked := [], peerIn := [], kept := [], sides := [], skims := [] }

/-- A rail emptied, its return rail refilled from the image (R228). -/
def resetRail (r : Rail) : Rail :=
  { r with seq := 0, lastSeq := 0xFFFF, fwd := [], ready := [], upto := [], back := r.image, backSeq := 0xFFFF, backNext := r.image.length }

/-- A simmer bucket at its task-start value: full (R231, R240). -/
def fullSimmer (g : Simmer) : Simmer := { g with level := g.depth }

/-- The members of a task's groups with an instance open, to which NOTICE goes, with the group (R283, R295). -/
def noticeTargets (x : Part) : List (DevAddr × Nat) :=
  (x.groups.filter (fun g => !g.opens.isEmpty)).flatMap (fun g => (g.members.zipIdx.filter (fun m => m.2 != g.self)).map (fun m => (m.1, g.gid)))

/-- Send a NOTICE to every member of every group with an instance open in the task (R295). -/
def sendNotices (p : PartId) (task : Nat) (code : Byte) (s : State) : State :=
  forAll (noticeTargets (s.part p)) (fun d s => sendM 0x05 d.1 [task, code.toNat, p.1, d.2] s) s

/-- The weight-encoding errors of an MM or CX are counted and recorded once (R39, R443). -/
def weightErrors (c : CoreId) (e : MMEntry) (s : State) : State :=
  if e.wenc = 0 then s else
  match partOfCore s c.1 with
  | none => s
  | some p => logR 0x000B 2 0 c.1 p.1 [((s.part p).task.map Task.num).getD 0, e.pc, e.wenc]
      (updPart p (fun x => { x with wenc := satAdd 64 x.wenc e.wenc }) s)

/-- What the instructions of a core had met before an abort stops them (R39, R443). -/
def stoppedErrors (c : CoreId) (s : State) : State :=
  forAll ((s.core c).eng.toList.flatMap Engine.queue) (weightErrors c) s

/-- Stop a partition's task at once: engines, scoops, rails, streams (R76, R240). -/
def stopTask (p : PartId) (s : State) : State :=
  let s := forAll (coresOf s p) stoppedErrors s
  let s := forAll (coresOf s p) (fun c s => updCore c stopCore s) s
  updPart p (fun x => { x with
    rails := x.rails.map resetRail
    mesh := []
    meshSent := 0
    acks := []
    mcast := []
    tiles := []
    simmer := x.simmer.map fullSimmer
    groups := x.groups.map (fun g => { g with opens := [], waiting := [] }) }) s

/-- Record one more cause in an open window: the first six are kept, every one is counted (R444). -/
def addCause (w : AbortWin) (c : Cause) : AbortWin :=
  { w with counted := w.counted + 1, causes := if w.causes.length < 6 then w.causes ++ [c] else w.causes }

/-- A cause of an abort of a partition's task (R240, R295, R444). The first opens the window and stops the task; a later one
in the window is recorded; with no task that runs it is logged at priority 2 and is no cause. -/
def abortTask (p : PartId) (c : Cause) (uncounted : Bool) (s : State) : State :=
  match (s.part p).task with
  | none => logR 0x0002 2 c.eclass.toNat c.src p.1 [0, c.code.toNat] s
  | some t =>
    match t.window with
    | some w =>
      updPart p (fun x => { x with task := some { t with window := some { addCause w c with
        uncounted := w.uncounted || uncounted } } }) s
    | none =>
      if t.started && !t.ended then
        let s := sendNotices p t.num (if c.code = 0x27 then 0x27 else 0x24) s
        let s := stopTask p s
        updPart p (fun x => { x with task := some { t with
          window := some { openNs := nowNs s, causes := [c], counted := 1, uncounted } } }) s
      else logR 0x0002 2 c.eclass.toNat c.src p.1 [t.num, c.code.toNat] s

/-- Abort the task of the partition a core belongs to. -/
def abortOf (c : CoreId) (k : Cause) (s : State) : State :=
  match partOfCore s c.1 with
  | none => s
  | some p => abortTask p k false s

/-- A transfer fault of a core's task: 0x22 at once (R239). -/
def transferFault (c : CoreId) (s : State) : State := abortOf c { code := 0x22, src := c.1 } s

/-- A transfer fault of a scoop unit, its report quoting the program's tag (R218, R239). -/
def scoopFault (c : CoreId) (u : UnitId) (tag : Nat) (s : State) : State := abortOf c { code := 0x22, src := c.1, unit := u.1, tag } s

/-- The number of the task that a core runs. -/
def taskNumOf (s : State) (c : CoreId) : Nat :=
  match partOfCore s c.1 with
  | none => 0
  | some p => ((s.part p).task.map Task.num).getD 0

/-- A byte of the program store: beyond the image's contents it holds NOP parcels, all ones (R243, R389). -/
def progByte (x : Core) (a : Nat) : Byte := if a < x.progLen then rd8 x.pstore a else 0xFF

/-- A dynamic illegal instruction of a recipe or scoop program (R117, R218, R260): the fault record, which quotes its tag, its log record,
and an abort with 0x22 that repeats. -/
def illegalOf (c : CoreId) (reason pc tag : Nat) (s : State) : State :=
  let line := (List.range 16).map (fun k => progByte (s.core c) (pc / 16 * 16 + k))
  let s := updCore c (fun x => { x with faultRec := some { reason, pc, task := taskNumOf s c, tag } }) s
  let s := logR 0x0004 1 1 c.1 (((partOfCore s c.1).map (·.1)).getD 0xFFFF) ([reason, 1, c.1, pc] ++ line.map BitVec.toNat) s
  abortOf c { code := 0x22, src := c.1, determ := true, tag } s

/-- A dynamic illegal instruction (R260). -/
def illegal (c : CoreId) (reason pc : Nat) (s : State) : State := illegalOf c reason pc 0 s

end Sys2Proof.Machine
end

