-- ==== Sys2Proof/Machine/Hub.lean ====
section
/-! DEFINITION. The hub's network interfaces: transit and injection at a port (R274-R277, R363), collective groups and their triggered operations
(R279-R286), acknowledgement of consumed pieces (R281), completion of a step (R293). -/

namespace Sys2Proof.Machine

/-! ### Transit and injection (R274, R276, R277) -/

/-- The packets of a receive buffer that may leave now by output port `o`: whole ones, the first of their class and channel, for which the
port has credits and replay room (R274, R276). -/
def readyTransit (x : Port) (o : Nat) : List (Nat × Bool × List Flit) → List (Nat × Bool × List Flit)
  | [] => []
  | t :: r =>
    if t.1 != o then readyTransit x o r
    else
      let rest := (readyTransit x o r).filter (fun u => decide (pktCls u.2.2 ≠ pktCls t.2.2 ∨ u.2.1 ≠ t.2.1))
      if wholePkt t.2.2 && canSend x (pktCls t.2.2) t.2.1 t.2.2.length then t :: rest else rest

/-- Of the ready packets of classes A and W, the one that goes next: where both wait, the class below its share of AWSPLIT sixteenths (R277). -/
def shareTurn (split : Nat) (sent : Nat × Nat) (a w : Option (PortId × Nat × Bool × List Flit)) : Option (PortId × Nat × Bool × List Flit) :=
  match a, w with
  | some a, some w => if sent.1 * (16 - split) ≤ sent.2 * split ∧ split ≠ 0 then some a else some w
  | some a, none => some a
  | none, w => w

/-- The transit packet that leaves next by a port, with the port it came in by: class M first, but at most 1 flit in 16 while others wait; then A
and W by their shares (R277). -/
def nextTransit (s : State) (o : PortId) : Option (PortId × Nat × Bool × List Flit) :=
  let l := allPorts.flatMap (fun i => (readyTransit (s.port o) o.1 (s.port i).transit).map (fun t => (i, t)))
  let first (c : Nat) := l.find? (fun t => pktCls t.2.2.2 == c)
  match first 2, shareTurn s.img.dev.awsplit (s.port o).awSent (first 0) (first 1) with
  | some m, none => some m
  | some m, some t => if 15 * m.2.2.2.length ≤ (s.port o).mGap then some m else some t
  | none, t => t

/-- Classes A and W both wait at a port: what is sent counts against the shares (R277). -/
def bothWait (s : State) (o : PortId) : Bool := transitWaits s o 0 && transitWaits s o 1

/-- Send the flits of a transit packet. -/
def sendTransit (o : PortId) (vc : Bool) (l : List Flit) (s : State) : State :=
  let s := whenS (bothWait s o) (updPort o (fun x => { x with
    awSent := if pktCls l = 0 then (x.awSent.1 + l.length, x.awSent.2) else if pktCls l = 1 then (x.awSent.1, x.awSent.2 + l.length) else x.awSent })) s
  sendFlits o (pktCls l) vc none l s

/-- Send transit packets that wait for a port while it can take them; the receive buffer that drains returns its credits (R274, R277).
Packets leave whole (log 168, DESIGN CHOICE). -/
def transitPump : Nat → PortId → State → State
  | 0, _, s => s
  | k + 1, o, s =>
    match nextTransit s o with
    | none => s
    | some (i, t) =>
      let s := updPort i (fun x => { x with transit := x.transit.erase t }) (sendTransit o t.2.1 t.2.2 s)
      transitPump k o (emit (.credit i.1 (pktCls t.2.2) (pktVc t.2.2) t.2.2.length) s)

/-- What waits for a port leaves while it can: transit packets, then the device's own class M (R276, R277). -/
def portPump (o : PortId) (s : State) : State :=
  let s := transitPump 4096 o s
  mPump (s.port o).mq.length o s

/-- Inject packets of a partition, charged to its link budget, behind the transit packets of their class (R277, R363): whether they went. All of
them go, or none. -/
def injectAll (p : PartId) (i : PortId) (cls : Nat) (vc : Bool) (l : List (PktHdr × List Byte)) (s : State) : Bool × State :=
  let n := (l.map (fun k => flitsOf k.2.length)).sum
  if !canSend (s.port i) cls vc n || transitWaits s i cls then (false, s)
  else
    let (ok, s) := charge p [(Fin.ofNat 7 (3 + cls), n * 256), (bENERGY, energyFor s 5 n)] s
    if !ok then (false, s)
    else (true, forAll l (fun k => sendPacket i cls vc (some (p.1, k.1.task.toNat)) k.1 k.2) s)

/-- Inject one packet of a partition. -/
def inject (p : PartId) (i : PortId) (cls : Nat) (vc : Bool) (h : PktHdr) (data : List Byte) (s : State) : Bool × State :=
  injectAll p i cls vc [(h, data)] s

/-- Channel of a packet that this device injects out of a torus port: 1 across the wrap link (R275). -/
def wrapVc (s : State) (port : Nat) : Bool :=
  let (len, ring, me) := axisOf s (port / 2)
  decide (port < 6) && ring && (if port % 2 = 0 then decide (me + 1 = len) else decide (me = 0))

/-! ### Groups, counters, instances (R279-R284) -/

def groupOfGid (x : Part) (gid : Nat) : Option Group := x.groups.find? (fun g => g.gid == gid)

def updGroup (p : PartId) (gid : Nat) (f : Group → Group) (s : State) : State :=
  updPart p (fun x => { x with groups := mapIf (fun g => g.gid == gid) f x.groups }) s

/-- Class of a collective (R283): 0 A, 1 W. -/
def ctypeClass (ctype : Nat) : Nat := if ctype = 4 ∨ ctype = 5 then 1 else 0

/-- Byte address in the exchange memory of a port of an offset in a group's buffer there (R279). -/
def bufAddr (g : Group) (port off : Nat) : Nat := port * 2 ^ 24 + ((g.bufs.getD port (0, 0)).1 * 16384 + off) % 2 ^ 24

/-- Advance a trigger counter of a port by 1 (R284). -/
def bumpCtr (port k : Nat) (x : Part) : Part :=
  { x with ctrs := mapWrite 0 x.ctrs (256 * port + k) ((mapRead 0 x.ctrs (256 * port + k) + 1) % 2 ^ 32) }

def ctrOf (x : Part) (port k : Nat) : Nat := mapRead 0 x.ctrs (256 * port + k)

/-- Step number of repetition k of an operation (R285). -/
def opStep (o : TrigOp) (k : Nat) : Nat := if o.held then o.step else o.step + k

/-- An operation sends (R285). -/
def sends (o : TrigOp) : Bool := decide (o.op = 1 ∨ o.op = 2 ∨ o.op = 4 ∨ o.op = 6)

/-- An operation consumes a landed piece (R281, R285); `dl` says that a DELIVER delivers it (log 36, DESIGN CHOICE). -/
def consumes (dl : Bool) (o : TrigOp) : Bool := decide (o.op = 2 ∨ o.op = 3 ∨ o.op = 4 ∨ o.op = 7) || (decide (o.op = 5) && dl)

/-- A repetition consumes a piece of a step: one that sends it on does so in the next step (R288), any other in its own (log 36, DESIGN
CHOICE). -/
def feeds (o : TrigOp) (k step : Nat) : Bool := decide (opStep o k = if sends o then step + 1 else step)

/-- Repetitions of an operation slot in one instance: a free value of 1 up to REPS (R282, R286; log 193, DESIGN CHOICE). -/
def instReps (port slot : Nat) (o : TrigOp) : Nat := 1 + Config.instReps port slot % Nat.max 1 o.reps

/-- The instance that a repetition belongs to: the instances whose descriptor names the slot take its repetitions in turn, the newest all that are
left (R282, R283; log 193, DESIGN CHOICE). -/
def opInst (g : Group) (port slot : Nat) (o : TrigOp) (k : Nat) : Option (Nat × Exch) :=
  let l := g.insts.filter (fun i => decide (i.2.op0 ≤ slot ∧ slot < i.2.op0 + i.2.nops))
  match l.reverse[k / instReps port slot o]? with
  | some i => some i
  | none => l.head?

/-- The earlier instances of the group are complete here: all their repetitions have fired and completed (R282). -/
def earlierDone (x : Part) (g : Group) (gseq : Nat) : Bool :=
  let older := ((g.insts.dropWhile (fun i => i.1 != gseq)).drop 1).map Prod.fst
  older.isEmpty || x.ops.all (fun q => q.2.2.gid != g.gid || (List.range q.2.2.reps).all (fun k =>
    decide (k < q.2.2.acked) || !((opInst g q.1 q.2.1 q.2.2 k).any (fun i => older.contains i.1))))

def updOp (p : PartId) (port slot : Nat) (f : TrigOp → TrigOp) (s : State) : State :=
  updPart p (fun x => { x with ops := mapIf (fun o => o.1 == port && o.2.1 == slot) (fun o => (o.1, o.2.1, f o.2.2)) x.ops }) s

/-! ### Steps (R293) -/

/-- The checkpoint of a collective step (R293, R390). -/
def stepCkpt (x : Part) (gid step : Nat) : Option Ckpt :=
  x.task.bind (fun t => (shapeOf x t).bind (fun h => h.ckpts.find? (fun c => c.kind == 6 && c.aux == gid && c.step == step)))

/-- The repetitions of a group's operations, as port, slot, operation, repetition. -/
def groupReps (x : Part) (gid : Nat) : List (Nat × Nat × TrigOp × Nat) :=
  (x.ops.filter (fun q => q.2.2.gid == gid)).flatMap (fun q => (List.range q.2.2.reps).map (fun k => (q.1, q.2.1, q.2.2, k)))

/-- Ports and instances in which a step brings pieces: those of the repetitions that consume them (R288, R293). -/
def stepPorts (x : Part) (g : Group) (step : Nat) : List (Nat × Nat) :=
  ((groupReps x g.gid).filterMap (fun (i, slot, o, k) =>
    let b := g.bound.find? (fun b => b.port == i && b.slot == slot && b.rep == k)
    if consumes (Config.deliversLanded i slot) o && (match b with
      | some b => b.step == step
      | none => feeds o k step) then some (i, ((opInst g i slot o k).map Prod.fst).getD 0) else none)).dedup

/-- The pieces of a step and an instance on a port have landed: some have, and the last of every member that sent any (R278, R293). -/
def stepLanded (g : Group) (step : Nat) (q : Nat × Nat) : Bool :=
  let l := g.stepGot.filter (fun m => m.step == step && m.port == q.1 && m.gseq == q.2)
  !l.isEmpty && l.all (fun m => l.any (fun n => n.mem == m.mem && n.last))

/-- A step is complete here: its pieces have landed, its operations have fired, its sends are acknowledged (R293). -/
def stepComplete (x : Part) (gid step : Nat) : Bool :=
  match groupOfGid x gid with
  | none => false
  | some g =>
    let mine := (groupReps x gid).filter (fun (_, _, o, k) => opStep o k == step)
    !mine.isEmpty && (stepPorts x g step).all (stepLanded g step) && mine.all (fun (_, _, o, k) => decide (k < o.acked))

/-- Meet the checkpoint of a step that has become complete (R293, R236). -/
def meetStep (p : PartId) (gid step : Nat) (s : State) : State :=
  match stepCkpt (s.part p) gid step with
  | none => s
  | some k =>
    if stepComplete (s.part p) gid step && !(((s.part p).task.map Task.met).getD []).contains k.idx then meetCkpt p k.idx s else s

/-- An operation's completion: the repetition counts, and CC advances if it is valid (R284, R286). -/
def opDone (p : PartId) (port slot : Nat) (o : TrigOp) (s : State) : State :=
  let s := updOp p port slot (fun o => { o with acked := o.acked + 1 }) s
  if o.ccOk then updPart p (bumpCtr port o.cc) s else s

/-! ### Acknowledging pieces (R278, R281) -/

/-- Level of the link of an export port: that of the parent torus (R275, R299; log 194, DESIGN CHOICE). -/
def linkLevel (s : State) (port : Nat) : Byte :=
  BitVec.ofNat 8 ((Config.torusLevel + (if (s.port (portid port)).role = 2 then 1 else 0)) % 16)

/-- Inject the ACK of a consumed piece, in the piece's class: along its route, or back through the export port it came by (R278, R281,
R299): whether it went. -/
def sendAck (p : PartId) (u : Nat × PktHdr) (s : State) : Bool × State :=
  let h := u.2
  let a : PktHdr := { h with dst := h.src, src := selfAddr s, ptype := 6, plen := 0, addr := 0, pflags := 0 }
  let cls := ctypeClass h.ctype.toNat
  if 6 ≤ u.1 then inject p (portid u.1) cls false { a with src := { a.src with level := h.src.level } } [] s
  else match routeOf s h.src cls none with
    | some r => inject p r.1 cls r.2 a [] s
    | none => (false, s)

/-- Send the acknowledgements that wait, oldest first, as far as their ports and the budget take them (R281, R364). -/
def pumpAcks (p : PartId) (s : State) : State :=
  forAll (s.part p).acks (fun a s =>
    let (ok, t) := sendAck p a s
    if ok then updPart p (fun x => { x with acks := x.acks.erase a }) t else s) s

/-- The landed piece that a repetition consumes: the one bound to it, else the oldest of its step on the port that nothing is bound to. -/
def unackedOf (g : Group) (port slot k : Nat) (o : TrigOp) : Option (Nat × PktHdr × List (Nat × Nat)) :=
  match g.unacked.find? (fun u => u.1 == port && u.2.2.contains (slot, k)) with
  | some u => some u
  | none => g.unacked.find? (fun u => u.1 == port && u.2.2.isEmpty && feeds o k u.2.1.step.toNat)

/-- A repetition has consumed its landed piece: once all that consume it have, it is acknowledged (R281). -/
def consumePiece (p : PartId) (gid port slot k : Nat) (u : Nat × PktHdr × List (Nat × Nat)) (s : State) : State :=
  let left := u.2.2.erase (slot, k)
  if left.isEmpty then
    pumpAcks p (updPart p (fun x => { x with acks := x.acks ++ [(port, u.2.1)] })
      (updGroup p gid (fun g => { g with unacked := g.unacked.erase u }) s))
  else updGroup p gid (fun g => { g with unacked := mapIf (fun v => decide (v = u)) (fun v => (v.1, v.2.1, left)) g.unacked }) s

/-- A repetition that delivers has finished its write: it completes, and so may its step (R281, R286, R293). -/
def deliverDone (p : PartId) (port slot k : Nat) (s : State) : State :=
  match (s.part p).ops.find? (fun q => q.1 == port && q.2.1 == slot) with
  | none => s
  | some q =>
    let o := q.2.2
    let s := match (groupOfGid (s.part p) o.gid).bind (fun g => if Config.deliversLanded port slot then unackedOf g port slot k o else none) with
      | some u => consumePiece p o.gid port slot k u s
      | none => s
    meetStep p o.gid (opStep o k) (opDone p port slot o s)

end Sys2Proof.Machine
end

