-- ==== Sys2Proof/Machine/Scalar.lean ====
section
/-! DEFINITION. Scalar parcels (R241-R244, R249, R259). A parcel runs on a core whose sequencer runs a program and holds at
nothing; on any other core the command changes nothing (log 11, DESIGN CHOICE). -/

namespace Sys2Proof.Machine

/-- The program store's size: the PC that is beyond it (R241, R249). -/
def pcEnd : Nat := 0x20000

/-- s[r]: s0 reads as 0 (R241). -/
def Core.getS (x : Core) (r : SReg) : W64 := if r = 0 then 0 else x.s[r.1]'r.2
/-- Write s[r]: a write to s0 is discarded (R241). -/
def Core.setS (x : Core) (r : SReg) (v : W64) : Core := if r = 0 then x else { x with s := x.s.set r.1 v r.2 }
/-- p[r]: p0 reads as 1 (R241). -/
def Core.getP (x : Core) (r : PReg) : Bool := if r = 0 then true else x.p[r.1]'r.2
/-- Write p[r]: a write to p0 is discarded (R241). -/
def Core.setP (x : Core) (r : PReg) (v : Bool) : Core := if r = 0 then x else { x with p := x.p.set r.1 v r.2 }
def Core.getH (x : Core) (r : HReg) : W64 := x.h[r.1]'r.2
def Core.setH (x : Core) (r : HReg) (v : W64) : Core := { x with h := x.h.set r.1 v r.2 }

/-- The sequencer executes parcels: it runs and holds at nothing (R246). -/
def Core.steps (x : Core) : Bool := x.running && decide (x.hold = .none)

/-- Move the PC; one that reaches the end of the program store is an illegal instruction 0x0C (R249). -/
def setPc (c : CoreId) (n : Nat) (s : State) : State :=
  let s := updCore c (fun x => { x with pc := n, hold := .none }) s
  if pcEnd ≤ n then illegal c 0x0C n s else s

/-- Do a parcel's effect on its core and advance by 4 B (R243). -/
def parcel (c : CoreId) (f : Core → Core) (s : State) : State :=
  if (s.core c).steps then setPc c ((s.core c).pc + 4) (updCore c f s) else s

/-- A two-source arithmetic parcel (R244). -/
def arith (c : CoreId) (rd ra rb : SReg) (f : W64 → W64 → W64) (s : State) : State :=
  parcel c (fun x => x.setS rd (f (x.getS ra) (x.getS rb))) s

/-- A compare parcel (R244). -/
def compare (c : CoreId) (pd : PReg) (ra rb : SReg) (f : W64 → W64 → Bool) (s : State) : State :=
  parcel c (fun x => x.setP pd (f (x.getS ra) (x.getS rb))) s

/-- A shift parcel: an amount of 64 or more gives a value the spec does not state (R244; log 12, DESIGN CHOICE). -/
def shiftBy (c : CoreId) (rd ra : SReg) (amount : Nat) (f : W64 → Nat → W64) (s : State) : State :=
  if !(s.core c).steps then s
  else if amount < 64 then parcel c (fun x => x.setS rd (f (x.getS ra) amount)) s
  else let (v, s) := takeFree s; parcel c (fun x => x.setS rd v) s

/-- The 16 B line of an address holds a tile instruction: bit 127 is 0 (R243). -/
def lineIsTile (x : Core) (a : Nat) : Bool := !(progByte x (a / 16 * 16 + 15)).msb

/-- An address a branch may target (R243). -/
def targetOk (x : Core) (a : Nat) : Bool :=
  decide (a % 4 = 0) && (!lineIsTile x a || decide (a % 16 = 0))

/-- Take a branch: a target that is no parcel and no tile line's start is an illegal instruction 0x01, one beyond the store
0x0C (R243, R249, R260). -/
def branchTo (c : CoreId) (a : Nat) (s : State) : State :=
  if pcEnd ≤ a then setPc c a s
  else if targetOk (s.core c) a then setPc c a s
  else illegal c 0x01 (s.core c).pc s

/-- A branch parcel, taken when `t` holds of its core. -/
def branch (c : CoreId) (t : Core → Bool) (a : Nat) (s : State) : State :=
  if !(s.core c).steps then s
  else if t (s.core c) then branchTo c a s
  else setPc c ((s.core c).pc + 4) s

/-- Signed 13-bit immediate (R244). -/
def simm (imm : BitVec 13) : W64 := imm.signExtend 64
/-- Zero-extended 13-bit immediate (R244). -/
def zimm (imm : BitVec 13) : W64 := imm.setWidth 64

/-- The descriptor-store offset of ld.d and st.d (R244). -/
def dsOff (x : Core) (ra : SReg) (imm : BitVec 13) : Nat := (x.getS ra + simm imm * 8).toNat

/-- An offset that ld.d and st.d may use: aligned, inside the 128 KiB store (R241, R244). -/
def dsOffOk (o : Nat) : Bool := decide (o % 8 = 0 ∧ o + 8 ≤ 0x20000)

/-- Occupancies of ME0-ME3, VE, SCQ and TRQ, 4 bits each from bit 0 (R259). -/
def qdepth (x : Core) : Nat :=
  [(x.eng[0]).queue.length, (x.eng[1]).queue.length, (x.eng[2]).queue.length, (x.eng[3]).queue.length,
   x.ve.queue.length, x.scq.length, x.trq.length].foldr (fun d a => d % 16 + 16 * a) 0

/-- MMSTn as csrr reads it (R259). -/
def mmst (m : MStatus) : Nat :=
  b2n m.bovf + 2 * b2n m.aovf + 4 * b2n m.nanp + 8 * b2n m.tskip + (Nat.min 0xFFFF m.skips) * 2 ^ 32

/-- Phase units since the core's task started (R259). -/
def corePhase (s : State) (c : CoreId) : Nat :=
  match partOfCore s c.1 with
  | none => 0
  | some p => ((s.part p).task.map (taskPhase s)).getD 0

/-- CYCLE: the clocks of the core's tile since the task started, at the frequencies that the tile ran at (R24, R259, R439). Where it lies within
the present phase unit is a free value (log 13, DESIGN CHOICE). -/
def cycles (s : State) (c : CoreId) : Nat :=
  let t : Fin 4 := Fin.ofNat 4 (c.1 / 32)
  let mhz := 1200 + 100 * (s.pwr.run[t.1]'t.2)
  let start := (((partOfCore s c.1).bind (fun p => (s.part p).task)).map (fun k => k.cyc0.getD t.1 0)).getD 0
  let done := ((s.pwr.cyc[t.1]'t.2) - start) * 65536 + mhz * s.tick.phase
  done * s.tick.period / 65536000 + (Config.free s.freeCtr).toNat % (mhz * s.tick.period / 65536000 + 2)

/-- A sequencer status register: its value, none where the spec gives no number (CYCLE is read apart; an index outside the table names no register; log 13, DESIGN CHOICE), and the core after the read, a sticky status cleared (R259). -/
def csr (s : State) (c : CoreId) (idx : Nat) : Option Nat × (Core → Core) :=
  let x := s.core c
  let st (e : Fin 4) : Option Nat × (Core → Core) :=
    (some (mmst (x.eng[e.1]'e.2).sticky),
      fun x => { x with eng := x.eng.set e.1 { (x.eng[e.1]'e.2) with sticky := {} } e.2 })
  match idx with
  | 0x01 => (some (corePhase s c), id)
  | 0x02 => (some (x.su[0]).landed, id)
  | 0x03 => (some (x.su[1]).landed, id)
  | 0x04 => (some (x.su[2]).landed, id)
  | 0x05 => (some (x.su[3]).landed, id)
  | 0x06 => (some (x.su[4]).landed, id)
  | 0x08 => st 0
  | 0x09 => st 1
  | 0x0A => st 2
  | 0x0B => st 3
  | 0x0C => (some x.ve.sticky.toNat, fun x => { x with ve := { x.ve with sticky := 0 } })
  | 0x0D => (some (qdepth x), id)
  | _ => (none, id)

/-- The queue and its engine hold no instruction (R244, R249). -/
def engIdle (e : Engine) : Bool := e.queue.isEmpty

/-- The queues a twait mask names are empty (R244). -/
def maskIdle (x : Core) (m : BitVec 5) : Bool :=
  (!m.getLsbD 0 || engIdle x.eng[0]) && (!m.getLsbD 1 || engIdle x.eng[1]) && (!m.getLsbD 2 || engIdle x.eng[2])
  && (!m.getLsbD 3 || engIdle x.eng[3]) && (!m.getLsbD 4 || x.ve.queue.isEmpty)

/-- Both slots of every scoop unit are empty (R235, R249). -/
def scoopsEmpty (x : Core) : Bool := x.su.all (fun u => u.active.isNone && u.shadow.isNone)

/-- Every OUT transfer is acknowledged (R235, R249). -/
def outsAcked (x : Core) : Bool := x.su.all (fun u => u.landing.all (fun l => !l.out))

/-- What end waits for (R249). -/
def endReady (x : Core) : Bool :=
  maskIdle x 0x1F && x.scq.isEmpty && x.trq.isEmpty && scoopsEmpty x && outsAcked x

def execNop (c : CoreId) (s : State) : Res := .next (parcel c id s)
def execAdd (c : CoreId) (rd ra rb : SReg) (s : State) : Res := .next (arith c rd ra rb (· + ·) s)
def execSub (c : CoreId) (rd ra rb : SReg) (s : State) : Res := .next (arith c rd ra rb (· - ·) s)
def execMul (c : CoreId) (rd ra rb : SReg) (s : State) : Res := .next (arith c rd ra rb (· * ·) s)
def execAnd (c : CoreId) (rd ra rb : SReg) (s : State) : Res := .next (arith c rd ra rb (· &&& ·) s)
def execOr (c : CoreId) (rd ra rb : SReg) (s : State) : Res := .next (arith c rd ra rb (· ||| ·) s)
def execXor (c : CoreId) (rd ra rb : SReg) (s : State) : Res := .next (arith c rd ra rb (· ^^^ ·) s)
def execShl (c : CoreId) (rd ra rb : SReg) (s : State) : Res :=
  .next (shiftBy c rd ra ((s.core c).getS rb).toNat (fun v n => v <<< n) s)
def execShr (c : CoreId) (rd ra rb : SReg) (s : State) : Res :=
  .next (shiftBy c rd ra ((s.core c).getS rb).toNat (fun v n => v >>> n) s)
def execSra (c : CoreId) (rd ra rb : SReg) (s : State) : Res :=
  .next (shiftBy c rd ra ((s.core c).getS rb).toNat (fun v n => v.sshiftRight n) s)
/-- min is signed, as clt is and cltu is not (R244; log 14, DEDUCED). -/
def execMin (c : CoreId) (rd ra rb : SReg) (s : State) : Res :=
  .next (arith c rd ra rb (fun a b => if a.slt b then a else b) s)
def execMax (c : CoreId) (rd ra rb : SReg) (s : State) : Res :=
  .next (arith c rd ra rb (fun a b => if a.slt b then b else a) s)
def execAddi (c : CoreId) (rd ra : SReg) (imm : BitVec 13) (s : State) : Res :=
  .next (parcel c (fun x => x.setS rd (x.getS ra + simm imm)) s)
def execOri (c : CoreId) (rd ra : SReg) (imm : BitVec 13) (s : State) : Res :=
  .next (parcel c (fun x => x.setS rd (x.getS ra ||| zimm imm)) s)
def execShli (c : CoreId) (rd ra : SReg) (imm : BitVec 13) (s : State) : Res :=
  .next (shiftBy c rd ra imm.toNat (fun v n => v <<< n) s)
/-- lui sets [31:13] and clears the rest (R244). -/
def execLui (c : CoreId) (rd : SReg) (imm : BitVec 19) (s : State) : Res :=
  .next (parcel c (fun x => x.setS rd ((imm.setWidth 64 : W64) <<< (13 : Nat))) s)
def execCeq (c : CoreId) (pd : PReg) (ra rb : SReg) (s : State) : Res := .next (compare c pd ra rb (fun a b => decide (a = b)) s)
def execClt (c : CoreId) (pd : PReg) (ra rb : SReg) (s : State) : Res := .next (compare c pd ra rb BitVec.slt s)
def execCltu (c : CoreId) (pd : PReg) (ra rb : SReg) (s : State) : Res := .next (compare c pd ra rb BitVec.ult s)
def execCle (c : CoreId) (pd : PReg) (ra rb : SReg) (s : State) : Res := .next (compare c pd ra rb BitVec.sle s)
def execB (c : CoreId) (target : BitVec 17) (s : State) : Res := .next (branch c (fun _ => true) target.toNat s)
def execBp (c : CoreId) (pa : PReg) (target : BitVec 17) (s : State) : Res := .next (branch c (fun x => x.getP pa) target.toNat s)
def execBnp (c : CoreId) (pa : PReg) (target : BitVec 17) (s : State) : Res := .next (branch c (fun x => !x.getP pa) target.toNat s)
/-- call saves PC + 4 in s63 (R244). -/
def execCall (c : CoreId) (target : BitVec 17) (s : State) : Res :=
  .next (if (s.core c).steps then
    branchTo c target.toNat (updCore c (fun x => x.setS 63 (BitVec.ofNat 64 (x.pc + 4))) s) else s)
/-- ret branches to s63, which call set (R244; log 15, DEDUCED). -/
def execRet (c : CoreId) (s : State) : Res := .next (branch c (fun _ => true) ((s.core c).getS 63).toNat s)

/-- end waits, then the core issues nothing more until the next task start (R249). -/
def execEnd (c : CoreId) (s : State) : Res :=
  let x := s.core c
  .next (if !(x.running && (decide (x.hold = .none) || decide (x.hold = .ending))) then s
    else if endReady x then updCore c (fun x => { x with running := false, ended := true, hold := .none }) s
    else updCore c (fun x => { x with hold := .ending }) s)

/-- ld.d reads 8 aligned bytes of the descriptor store; another offset gives a value the spec does not state (R244; log 16, DESIGN CHOICE). -/
def execLdD (c : CoreId) (rd ra : SReg) (imm : BitVec 13) (s : State) : Res :=
  let x := s.core c
  .next (if !x.steps then s
    else if dsOffOk (dsOff x ra imm) then
      parcel c (fun x => x.setS rd (BitVec.ofNat 64 (rdLE x.dstore (dsOff x ra imm) 8))) s
    else let (v, s) := takeFree s; parcel c (fun x => x.setS rd v) s)

/-- st.d writes 8 aligned bytes of the descriptor store; another offset stores nothing (R244; log 16, DESIGN CHOICE). -/
def execStD (c : CoreId) (rs ra : SReg) (imm : BitVec 13) (s : State) : Res :=
  .next (parcel c (fun x =>
    if dsOffOk (dsOff x ra imm) then { x with dstore := wrLE x.dstore (dsOff x ra imm) 8 (x.getS rs).toNat } else x) s)

def execMovHS (c : CoreId) (rd : SReg) (h : HReg) (s : State) : Res := .next (parcel c (fun x => x.setS rd (x.getH h)) s)
def execMovSH (c : CoreId) (h : HReg) (ra : SReg) (s : State) : Res := .next (parcel c (fun x => x.setH h (x.getS ra)) s)

def execCsrr (c : CoreId) (rd : SReg) (idx : BitVec 13) (s : State) : Res :=
  .next (if !(s.core c).steps then s else
    if idx = 0 then parcel c (fun x => x.setS rd (BitVec.ofNat 64 (cycles s c))) { s with freeCtr := s.freeCtr + 1 }
    else match csr s c idx.toNat with
    | (some v, f) => parcel c (fun x => (f x).setS rd (BitVec.ofNat 64 v)) s
    | (none, _) => let (v, s) := takeFree s; parcel c (fun x => x.setS rd v) s)

/-- twait waits until the named queues are empty and their instructions complete (R244). -/
def execTwait (c : CoreId) (mask : BitVec 5) (s : State) : Res :=
  let x := s.core c
  .next (if !(x.running && (decide (x.hold = .none) || decide (x.hold = .twait))) then s
    else if maskIdle x mask then setPc c (x.pc + 4) s
    else updCore c (fun x => { x with hold := .twait }) s)

end Sys2Proof.Machine
end

