-- ==== Sys2Proof/Machine/Arrays.lean ====
section
/-! DEFINITION. Arrays out of order: the taster mismatch report, condemned arrays and the regrade request (R91, R454, R460,
R461). -/

namespace Sys2Proof.Machine

/-- Physical array of an engine (R30). -/
def physArray (c e : Nat) : Nat := 4 * c + e

/-- Logical index of an enabled physical array (R34). -/
def logicalOf (disabled : List Nat) (p : Nat) : Nat :=
  ((List.range p).filter (fun q => !disabled.contains q)).length

/-- An array answers tile instructions: it is not disabled (R34). -/
def arrayOn (s : State) (c : CoreId) (e : Fin 4) : Bool := !s.img.disabled.contains (physArray c.1 e.1)

/-- Take from a list the first `n` elements of another that it does not hold. -/
def fillUp : Nat → List Nat → List Nat → List Nat
  | 0, _, l => l
  | _, [], l => l
  | n + 1, x :: r, l => if l.contains x then fillUp (n + 1) r l else fillUp n r (l ++ [x])

/-- The proposed list of a regrade request: filled to 32 or 64 with enabled arrays in descending index (R461). -/
def proposed (disabled condemned : List Nat) : Option (List Nat) :=
  let base := disabled ++ condemned.filter (fun p => !disabled.contains p)
  let goal := if disabled.length < 32 ∧ base.length ≤ 32 then 32 else 64
  if disabled.length < 64 ∧ base.length ≤ 64 then
    some ((fillUp (goal - base.length) (List.range 512).reverse base).mergeSort)
  else none

/-- Write a regrade request to the SEC mailbox; a TP9-448 raises ARRAY and FIRMWARE instead (R461). -/
def regrade (s : State) : State :=
  match proposed s.img.disabled s.flt.condemned with
  | some l => updSec (fun x => { x with regrades := x.regrades ++ [(s.flt.condemned, l)] }) s
  | none => alarm 10 (alarm 7 (updFlt (fun f => { f with fwAlarm := true }) s))

/-- Condemn an array, once (R460, R461). -/
def condemn (p : Nat) (s : State) : State :=
  if s.flt.condemned.contains p then s
  else regrade (updFlt (fun f => { f with condemned := f.condemned ++ [p] }) s)

/-- Mismatches of an array in the window of 1,000,000 ticks that ends now (R460). -/
def recentMism (s : State) (p : Nat) : List Nat :=
  (((s.flt.mism.find? (fun x => x.1 == p)).map Prod.snd).getD []).filter (fun t => decide (s.tick.now < t + 1000000))

/-- Report a taster mismatch of an array: record, count, alarm, condemnation at the third in the window (R91, R460). -/
def tasterMismatch (c : CoreId) (e : Fin 4) (task pc pass kb row : Nat) (s : State) : State :=
  let p := physArray c.1 e.1
  let l := recentMism s p ++ [s.tick.now]
  let s := updFlt (fun f => { f with mism := (p, l) :: f.mism.filter (fun x => x.1 != p) }) s
  let part := ((partOfCore s c.1).map (·.1)).getD 0xFFFF
  let s := logR 0x0003 0 1 c.1 part [p, logicalOf s.img.disabled p, c.1, e.1, pass, kb, row, task, pc, l.length] s
  let s := alarm 7 s
  if 3 ≤ l.length then condemn p s else s

end Sys2Proof.Machine
end

