-- ==== Sys2Proof/WellFormed.lean ====
section
/-! DEFINITION. Which commands are well formed: the static checks of R260 on a tile line, and R245's checkpoint range. -/

namespace Sys2Proof

/-- Format codes that R250 defines (0x1E, None, stands in stream descriptors only). -/
def fmtDefined (f : BitVec 5) : Bool := f.toNat ≤ 0x12

/-- Classes of an operand format in R70: 4-bit float, 6/8-bit float, INT4, INT8, T2, BF16 split, KC, or none. -/
inductive FClass where
  | fp4 | fp68 | int4 | int8 | t2 | bf16s | kc | none
deriving DecidableEq, Repr, Inhabited

/-- R70: MX forms count as their element format, MXINT8 as INT8. -/
def fclass (f : BitVec 5) : FClass :=
  match f.toNat with
  | 0x08 => .fp4
  | 0x03 => .fp68
  | 0x04 => .fp68
  | 0x09 => .fp68
  | 0x0A => .fp68
  | 0x0B => .fp68
  | 0x0C => .fp68
  | 0x07 => .int4
  | 0x05 => .int8
  | 0x0D => .int8
  | 0x0E => .t2
  | 0x0F => .t2
  | 0x10 => .kc
  | 0x11 => .kc
  | 0x12 => .bf16s
  | _ => .none

/-- The operand pairs of R70, with R162's KC weights: the row operand of a KC tile is MXFP4 or MXFP8 E4M3 (R163). -/
def pairOk (af wf : BitVec 5) : Bool :=
  match fclass af, fclass wf with
  | .fp4, .fp4 => true
  | .int4, .int4 => true
  | .fp4, .t2 => true
  | .fp4, .fp68 => true
  | .fp68, .fp68 => true
  | .fp68, .fp4 => true
  | .fp68, .t2 => true
  | .int4, .int8 => true
  | .int8, .int4 => true
  | .int8, .int8 => true
  | .bf16s, .bf16s => true
  | .fp4, .kc => true
  | .fp68, .kc => af == 0x0B
  | _, _ => false

/-- Row slot of an operand pair (R70, R163). -/
def rowSlot (af wf : BitVec 5) : Nat :=
  match fclass af, fclass wf with
  | .fp4, .fp4 => 1
  | .int4, .int4 => 1
  | .fp4, .t2 => 1
  | .fp4, .kc => if wf == 0x11 then 1 else 2
  | _, _ => 2

/-- K indices one pass covers (R70): 256 for FP4 activations against T2 weights, else 128. -/
def kPerPass (af wf : BitVec 5) : Nat :=
  if fclass af = .fp4 ∧ fclass wf = .t2 then 256 else 128

/-- The loader's static checks of an MM or CX line (R260, R251, R70, R84, R100). -/
def MMBody.wellFormed (b : MMBody) : Bool :=
  decide (b.mode.toNat ≤ 4)
  && pairOk b.af b.wf
  && (decide (b.mode = 1 ∨ b.mode = 2) == decide (fclass b.af = .bf16s))
  && !(b.whisk && (decide (fclass b.wf = .t2) || decide (fclass b.af = .int4 ∨ fclass b.af = .int8 ∨ fclass b.af = .bf16s)))
  && !(decide (b.mode = 3 ∨ b.mode = 4) && (decide (fclass b.wf = .t2 ∨ fclass b.wf = .kc) || decide (fclass b.af = .bf16s)))
  && !(decide (b.mode = 4) && decide (fclass b.af = .int4 ∨ fclass b.af = .int8))

/-- VX lines whose fields the loader can refuse: SB above 56 (R254). -/
def VXBody.wellFormed (b : VXBody) : Bool := decide (b.sb.val ≤ 56)

/-- A well-formed command: every tile line passes R260's static checks. Other operands are in range by their types. -/
def Instr.wellFormed : Instr → Bool
  | .mm _ _ x => x.wellFormed
  | .cx _ _ x _ => x.wellFormed
  | .recipe _ _ x => x.wellFormed
  | .scan _ _ x => x.wellFormed && decide (x.sop.toNat ≤ 5)
  | .perm _ _ x => x.wellFormed
  | .norm _ _ x => x.wellFormed
  | .reduce _ _ x => x.wellFormed && decide (x.sop.toNat ≤ 2)
  | .smerge _ _ x => x.wellFormed
  | .park _ _ x => x.wellFormed
  | .restore _ _ x => x.wellFormed
  | .rload _ _ x => x.wellFormed
  | .tload _ _ x => x.wellFormed
  | .arm _ _ u _ sovr => decide (u.toNat ≤ 4) && decide (sovr.val ≤ 62)
  | .fill _ _ sf => decide (sf.val ≤ 59)
  | _ => true

end Sys2Proof
end

