-- ==== Sys2Proof/Machine/Operands.lean ====
section
/-! DEFINITION. Operand forms: row, weight and side descriptors (R252), chain descriptors (R253), stream descriptors (R255),
lengths tables (R167-R172), and the elements and scales they name in the working store. -/

namespace Sys2Proof.Machine

/-- Chunk a list into pieces of `n` (fuel: its length). -/
def chunksOf {α : Type} (n : Nat) : Nat → List α → List (List α)
  | 0, _ => []
  | k + 1, l => if l.isEmpty then [] else l.take n :: chunksOf n k (l.drop n)

def chunks {α : Type} (n : Nat) (l : List α) : List (List α) := chunksOf n l.length l

/-- Size of a working store (R20); an engine's address past its end wraps (log 22, DESIGN CHOICE). -/
def wsSize : Nat := 0x200000
def wsRd (m : SMap Byte) (a n : Nat) : Nat := rdLE m (a % wsSize) n
def wsWr (m : SMap Byte) (a : Nat) (l : List Byte) : SMap Byte := wrBytes m (a % wsSize) l

/-! ### MM descriptors (R252) -/

def dEA (d : Nat) : Nat := bits d 20 0
def dSA (d : Nat) : Nat := bits d 41 21
/-- Row pitch in bytes. -/
def dPitch (d : Nat) : Nat := bits d 53 42 * 64
def dFlag54 (d : Nat) : Bool := bit d 54
def sLayer (d : Nat) : Nat := bits d 15 0
def sLaddr (d : Nat) : Nat := bits d 36 16
def sLen (d : Nat) : Bool := bit d 37
def sKaddr (d : Nat) : Nat := bits d 58 38

/-- A descriptor of R252 with a reserved bit set. -/
def mmDescBad (qsrc : Nat) (row w side : Nat) : Bool :=
  (decide (qsrc ≠ 3) && decide (bits row 63 55 ≠ 0)) || decide (bits w 63 55 ≠ 0) || decide (bits side 63 59 ≠ 0)

/-! ### Chain descriptors (R253) -/

/-- An extra-stream entry (R253). -/
structure XStream where
  fmt  : Nat := 0x1E
  accs : Bool := false
  eng  : Nat := 0
  half : Bool := false
  ea   : Nat := 0
  sa   : Nat := 0
  kind : Nat := 0
deriving DecidableEq, Repr, Inhabited

def xstreamOf (v : Nat) : XStream :=
  { fmt := bits v 63 59, accs := bit v 58, eng := bits v 57 56, half := bit v 55, ea := bits v 54 34, sa := bits v 33 13,
    kind := bits v 11 8 }

/-- An entry in use: a format and a kind are named. -/
def XStream.used (x : XStream) : Bool := decide (x.fmt ≠ 0x1E) && decide (x.kind ≠ 0)

/-- Formats a stream kind is read in (R143). -/
def xkindFmtOk (kind fmt : Nat) : Bool :=
  match kind with
  | 1 => fmt == 6
  | 2 => fmt == 0
  | 3 => fmt == 0
  | 4 => fmt == 0 || fmt == 1
  | 5 => fmt == 0
  | 6 => fmt == 0
  | 7 => fmt == 0 || fmt == 1
  | 8 => fmt == 0 || fmt == 1
  | 9 => fmt == 0 || fmt == 1
  | 10 => fmt == 0
  | _ => false

/-- A byte of a chain descriptor. -/
def cb (l : List Byte) (i : Nat) : Nat := (l.getD i 0).toNat

/-- Prologue stage i selected (R253). -/
def chPro (l : List Byte) (i : Nat) : Bool := bit (fieldLE l 0 2) (i - 1)
/-- Epilogue stage i selected, 1-10 (R253). -/
def chEpi (l : List Byte) (i : Nat) : Bool := bit (fieldLE l 4 2) (i - 1)
/-- Result of epilogue stage i is BF16 (R253). -/
def chBf (l : List Byte) (i : Nat) : Bool := bit (cb l 6) (i - 2)
def chVector (l : List Byte) : Bool := bit (cb l 7) 0
def chRed (l : List Byte) : Nat := bits (cb l 7) 2 1
def chRedCol (l : List Byte) : Bool := bit (cb l 7) 3
def chRms (l : List Byte) : Bool := bit (cb l 7) 4
def chFirst (l : List Byte) : Bool := bit (cb l 7) 5
def chLast (l : List Byte) : Bool := bit (cb l 7) 6
def chQfmt (l : List Byte) : Nat := bits (cb l 8) 4 0
def chSlot (l : List Byte) : Nat := bits (cb l 9) 3 0
def chSC (l : List Byte) : Nat := bits (cb l 10) 5 0
def chSEPS (l : List Byte) : Nat := bits (cb l 11) 5 0
def chLocal (l : List Byte) : Nat := bits (cb l 12) 1 0
def chSecond (l : List Byte) : Nat := bits (cb l 12) 3 2
def chTarget (l : List Byte) : Nat := bits (cb l 12) 5 4
def chRowLen (l : List Byte) : Nat := fieldLE l 14 2
def chLaddr (l : List Byte) : Nat := bits (fieldLE l 40 4) 20 0
def chLsaddr (l : List Byte) : Nat := bits (fieldLE l 44 4) 20 0
def chSide (l : List Byte) : Nat := bits (fieldLE l 56 4) 20 0
def chSendId (l : List Byte) : W64 := BitVec.ofNat 64 (fieldLE l 48 8)
def chX (l : List Byte) (i : Nat) : XStream := xstreamOf (fieldLE l (16 + 8 * i) 8)

/-- The entry of a kind, if one is present. -/
def chKind (l : List Byte) (k : Nat) : Option XStream :=
  [chX l 0, chX l 1, chX l 2].find? (fun x => x.used && x.kind == k)

/-- Formats that stage 8 writes: element formats, MX and KC forms; T2 and the BF16 split are never written (R38, R152). -/
def storable (f : Nat) : Bool := decide (f ≤ 0x11) && !isT2 f

/-- An extra-stream entry with a code out of range or a reserved bit set. -/
def xsBad (v : Nat) : Bool :=
  let x := xstreamOf v
  bit v 12 || decide (bits v 7 0 ≠ 0) || decide (10 < x.kind) || decide (0x11 < x.fmt ∧ x.fmt ≠ 0x1E)
  || (x.used && (!xkindFmtOk x.kind x.fmt || (x.kind == 10) != x.accs))

/-- The reason-0x09 cases of a chain descriptor (R253). -/
def chainBad (l : List Byte) : Bool :=
  let vec := chVector l
  let second := chSecond l
  let kinds := ([chX l 0, chX l 1, chX l 2].filter XStream.used).map XStream.kind
  decide (16 ≤ fieldLE l 0 2) || decide (4 ≤ cb l 2) || decide (8 ≤ cb l 3)
  || decide (1024 ≤ fieldLE l 4 2) || decide (64 ≤ cb l 6) || bit (cb l 7) 7
  || decide (chRed l = 3) || decide (32 ≤ cb l 8)
  || (if chEpi l 8 then !storable (chQfmt l) else decide (chQfmt l ≠ 0x1E))
  || decide (16 ≤ cb l 9) || decide (64 ≤ cb l 10) || decide (64 ≤ cb l 11) || decide (64 ≤ cb l 12)
  || (if second = 3 then decide (7 < cb l 13) else decide (second ≠ 2) && decide (cb l 13 ≠ 0))
  || (if chEpi l 10 then decide (chRowLen l = 0 ∨ 16384 < chRowLen l) else decide (chRowLen l ≠ 0))
  || xsBad (fieldLE l 16 8) || xsBad (fieldLE l 24 8) || xsBad (fieldLE l 32 8)
  || decide (wsSize ≤ fieldLE l 40 4) || decide (wsSize ≤ fieldLE l 44 4) || decide (wsSize ≤ fieldLE l 56 4)
  || (decide (second ≠ 2 ∧ second ≠ 3) && decide (fieldLE l 48 8 ≠ 0))
  || decide (fieldLE l 60 4 ≠ 0)
  || decide (¬ kinds.Nodup)
  || (!vec && (chEpi l 1 || chEpi l 5 || chEpi l 6 || chEpi l 7 || chEpi l 9 || chEpi l 10 || kinds.contains 10))
  || (vec && decide (second = 1))

/-- A selected stage whose stream kind no entry holds: reason 0x03 (R142, R253). -/
def chainLacks (l : List Byte) : Bool :=
  let no (k : Nat) : Bool := (chKind l k).isNone
  (chPro l 1 && no 1) || (chPro l 3 && no 3 && no 4) || (chPro l 4 && no 2)
  || (chEpi l 2 && (no 5 || (!bit (cb l 3) 2 && no 6)))
  || (chEpi l 4 && no 8) || (chEpi l 5 && no 2) || (chEpi l 6 && no 9)

/-! ### Stream descriptors (R255) -/

/-- An entry of a stream descriptor. -/
structure StreamE where
  fmt   : Nat := 0x1E
  accs  : Bool := false
  eng   : Nat := 0
  half  : Bool := false
  ea    : Nat := 0
  sa    : Nat := 0
  chain : Bool := false
deriving DecidableEq, Repr, Inhabited

/-- Entry i of a stream descriptor: v0-v3, o0, o1. -/
def streamE (l : List Byte) (i : Nat) : StreamE :=
  let v := fieldLE l (8 * i) 8
  { fmt := bits v 63 59, accs := bit v 58, eng := bits v 57 56, half := bit v 55, ea := bits v 54 34, sa := bits v 33 13,
    chain := bit v 12 }

/-- Formats an input stream reads (R120). -/
def inFmt (f : Nat) : Bool := decide (f ≤ 6) || isMX f || isKC f || decide (f = 0x1E)
/-- Formats an output stream writes (R120). -/
def outFmt (f : Nat) : Bool := decide (f ≤ 6) || isMX f || isKC f || decide (f = 0x1E)

/-- A stream descriptor with a reserved bit set or a code out of range: reason 0x09 (R255, R260). -/
def streamsBad (l : List Byte) : Bool :=
  (List.range 6).any (fun i =>
    let v := fieldLE l (8 * i) 8
    let e := streamE l i
    decide (bits v 11 0 ≠ 0) || (if i < 4 then !inFmt e.fmt || e.chain || (e.accs && !(e.fmt == 0 || e.fmt == 0x1E))
      else !outFmt e.fmt || e.accs))

/-- A reserved bit set or a code that names no format, in an entry of which only the address and the half count (R250, R255, R260). -/
def streamCodesBad (l : List Byte) : Bool :=
  (List.range 6).any (fun i => decide (bits (fieldLE l (8 * i) 8) 11 0 ≠ 0) || decide (0x11 < (streamE l i).fmt ∧ (streamE l i).fmt ≠ 0x1E))

/-! ### Lengths tables (R167-R172) -/

/-- An entry as the working store holds it. -/
structure LRow where
  seg   : Nat := 0
  cancelled : Bool := false
  qpos  : Nat := 0
  qlen  : Nat := 0
  xtab  : Nat := 0
deriving DecidableEq, Repr, Inhabited

def lrow (m : SMap Byte) (a i : Nat) : LRow :=
  let o := a + 16 * i
  { seg := wsRd m o 2, cancelled := bit (wsRd m (o + 2) 2) 0, qpos := wsRd m (o + 4) 4, qlen := wsRd m (o + 8) 4,
    xtab := wsRd m (o + 12) 4 }

/-- The table at an address: one entry per sequence of the task (log 23, DEDUCED). -/
def ltable (m : SMap Byte) (a n : Nat) : List LRow := (List.range n).map (lrow m a)

/-- SEG strictly ascends (R169). -/
def segsAscend : List LRow → Bool
  | [] => true
  | [_] => true
  | x :: y :: r => decide (x.seg < y.seg) && segsAscend (y :: r)

/-- The first `k` query rows in table order, as (entry, position): entries whose rows are cancelled supply none (R168). -/
def queryRows : List LRow → Nat → Nat → List (Nat × Nat)
  | [], _, _ => []
  | e :: r, i, k =>
    let n := if e.cancelled then 0 else Nat.min e.qlen k
    (List.range n).map (fun j => (i, e.qpos + j)) ++ queryRows r (i + 1) (k - n)

/-- Key tiles of an entry (R168). -/
def keyTiles (e : LRow) : Nat := (e.qpos + e.qlen + 127) / 128

/-- The `k` query rows of query tile `t` of a table, a query tile being 128 rows (R168). -/
def tileRows (tab : List LRow) (t k : Nat) : List (Nat × Nat) := ((queryRows tab 0 (128 * t + k)).drop (128 * t)).take k

/-- Positions from `a` on, `n` of them. -/
def positions (a n : Nat) : List Nat := List.range' a n

/-- The runs of positions that a device of a ring processes at step k: the two chunks of device (i - k) mod g, the lower first; each run
starts a key tile (R168, R182). -/
def stepRuns (n i g c k : Nat) : List (Nat × Nat) :=
  let run (j : Nat) : Nat × Nat := (j * c, Nat.min c (n - j * c))
  let d := (i + g - k) % g
  [run d, run (2 * g - 1 - d)]

/-- Key tiles of runs of positions: 128 to a tile, a run's last one short (R168). -/
def runTiles (l : List (Nat × Nat)) : List (List Nat) := l.flatMap (fun r => chunks 128 (positions r.1 r.2))

/-- The key tiles of a sweep over the entries with rows in the query tile: step by step of a ring, within a step in table order; `tiles`
gives an entry's at a step (R168, R182). -/
def sweepTiles (rows : List (Nat × Nat)) (tiles : Nat → Nat → List (List Nat)) (steps entries : Nat) : List KTile :=
  (List.range steps).flatMap (fun k => (List.range entries).flatMap (fun i =>
    if rows.any (fun x => x.1 == i) then (tiles k i).map (fun l => { entry := i, keys := l }) else []))

/-- How many columns of a row of a score tile are unmasked: they start at column 0, positions rising along the tile (R170, R191). -/
def unmasked (k : KTile) (rows : List (Nat × Nat)) (m : Nat) : Nat :=
  match rows[m]? with
  | some (re, pos) => if re = k.entry then k.keys.countP (fun q => decide (q ≤ pos)) else 0
  | none => 0

/-! ### Elements and scales -/

/-- Element code at (row, index) of a region with a row pitch. -/
def srcCode (m : SMap Byte) (f ea pitch row i : Nat) : Nat := rdElem m ((ea + row * pitch) % wsSize) (fmtBits f) i

/-- Block scale of the element at (row, index): the scale region runs beside the element region, in the same order (R41). -/
def srcScale (m : SMap Byte) (f sa pitch row i : Nat) : W32 := rdScale m f sa (row * pitch + i * fmtBits f / 8)

/-- An FP32 value of a 16- or 32-bit region. -/
def srcVal (m : SMap Byte) (f ea pitch row i : Nat) : W32 :=
  let c := srcCode m f ea pitch row i
  if f = 1 then ofBF16 (BitVec.ofNat 16 c) else if f = 2 then ofFP16 (BitVec.ofNat 16 c) else BitVec.ofNat 32 c

/-- One value of a vector of FP32 or BF16 values at an address. -/
def vecVal (m : SMap Byte) (x : XStream) (i : Nat) : W32 := srcVal m x.fmt x.ea 0 0 i

end Sys2Proof.Machine
end

