-- ==== Sys2Proof/Machine/Tiles.lean ====
section
/-! DEFINITION. Tiles and sums: activation rows and quantiser tiles (R92-R108, R145-R149), weight tiles (R72, R88, R147,
R162), block sums and the accumulation (R60-R63, R89, R90). -/

namespace Sys2Proof.Machine

/-! ### Activation rows -/

/-- Row element code to array element. -/
def toElem (f c : Nat) : Elem := elemOf (decCode f c)

/-- An activation row from its codes and scale codes (R95): 1 where the form has no block scale. -/
def arowOf (f : Nat) (codes scodes : List Nat) : ARow :=
  { elems := codes.map (toElem f)
    scales := if isMX f then scodes.map e8m0 else (chunks 32 codes).map (fun _ => 0x3F800000) }

/-- Scale byte of a stored MX element. -/
def scaleCode (m : SMap Byte) (f sa pitch row i : Nat) : Nat :=
  if isMX f then (rd8 m ((sa + (row * pitch + i * fmtBits f / 8) / scaleDiv f) % wsSize)).toNat else 0

/-- Codes and scale codes of a 128-wide K-slice of a stored narrow row, from K index `k0` (R41, R252). -/
def storedCodes (m : SMap Byte) (f ea sa pitch row k0 : Nat) : List Nat × List Nat :=
  ((List.range 128).map (fun k => srcCode m f ea pitch row (k0 + k)),
   (List.range 4).map (fun j => scaleCode m f sa pitch row (k0 + 32 * j)))

/-- The scale that a K-block is fed under: the one its elements share, else an open one (R42, R147; log 25, DESIGN CHOICE). -/
def oneScale (l : List Nat) : Nat :=
  match l with
  | [] => 0x7F
  | x :: r => if r.all (· == x) then x else Config.mixedScale l % 256

/-- Codes and scale codes of a fed row under transposition: its element k is column `m` of source row `src k`, zero where that is none;
`code` and `sc` give a source element's code and the scale code over it (R145, R147). -/
def exchanged (code sc : Nat → Nat → Nat) (src : Nat → Option Nat) (m : Nat) : List Nat × List Nat :=
  ((List.range 128).map (fun k => ((src k).map (fun r => code r m)).getD 0),
   (List.range 4).map (fun j => oneScale ((List.range 32).filterMap (fun i => (src (32 * j + i)).map (fun r => sc r m)))))

/-- A tile whose K indices from `n` on are none of the operand's: zeros, under a block scale of 1 where the whole block is none (R60, R88). -/
def padTile (n : Nat) (t : QTile) : QTile :=
  if 128 ≤ n then t else
  { t with
    rows := t.rows.map (fun r => { r with
      elems := r.elems.zipIdx.map (fun (x, k) => if k < n then x else .fin 0)
      scales := r.scales.zipIdx.map (fun (x, j) => if 32 * j < n then x else 0x3F800000) })
    codes := t.codes.map (fun r => r.zipIdx.map (fun (x, k) => if k < n then x else 0)) }

/-- Format code of R250 from the FMT byte of a kept tile record (R95). -/
def recFmt (b : Nat) : Nat :=
  match b with
  | 0x04 => 0x08
  | 0x06 => 0x09
  | 0x07 => 0x0A
  | 0x08 => 0x0B
  | 0x09 => 0x0C
  | 0x0A => 0x0D
  | 0x0B => 0x07
  | 0x0C => 0x05
  | _ => 0x08

/-- FMT byte of a kept tile record (R95). A plain FP8 target is not in R95's list: its record is marked as MXFP8 E4M3, and is read back as that
(log 67, DEDUCED). -/
def fmtRec (f : Nat) : Nat :=
  match f with
  | 0x08 => 0x04
  | 0x09 => 0x06
  | 0x0A => 0x07
  | 0x0B => 0x08
  | 0x0C => 0x09
  | 0x0D => 0x0A
  | 0x07 => 0x0B
  | 0x05 => 0x0C
  | _ => 0x08

/-- Element bytes of one row of a record (R95). -/
def recRow (f : Nat) : Nat := 16 * fmtBits f

/-- Codes and scale codes of row `r` of the kept record at `a` (R95). -/
def recCodes (m : SMap Byte) (a r : Nat) : List Nat × List Nat :=
  let f := recFmt (wsRd m a 1)
  ((List.range 128).map (fun k => srcCode m f (a + 576 + r * recRow f) 0 0 k),
   (List.range 4).map (fun j => wsRd m (a + 64 + 4 * r + j) 1))

/-- Element and scale code of a kept record's row at a column (R95). -/
def recCode (m : SMap Byte) (a r col : Nat) : Nat := srcCode m (recFmt (wsRd m a 1)) (a + 576 + r * recRow (recFmt (wsRd m a 1))) 0 0 col
def recScale (m : SMap Byte) (a r col : Nat) : Nat := wsRd m (a + 64 + 4 * r + col / 32) 1

/-- Element code of a stored tensor whose K runs over its rows, and its scale code: one run of 128 columns per K-block, as for
weights (R41, R252; log 25, DESIGN CHOICE). -/
def colScale (m : SMap Byte) (f sa r col : Nat) : Nat := if isMX f then wsRd m (sa + (r / 32 * 128 + col)) 1 else 0

/-- A quantised row: codes, scale codes, clamps, poisoned blocks or NaN inputs (R45-R50, R92, R101). -/
def quantRow (f : Nat) (us : Nat → Option Nat) (xs : List W32) : List Nat × List Nat × Nat × Nat :=
  if isMX f then
    let bs := (chunks 32 xs).zipIdx.map (fun (b, j) => mxBlock f (fun i => us (32 * j + i)) b)
    (bs.flatMap QBlock.codes, bs.map QBlock.scale, (bs.map QBlock.clamps).sum, bs.countP QBlock.poisoned)
  else
    let r := xs.zipIdx.map (fun (v, i) => cvtPlain f (us i) v)
    (r.map Prod.fst, (chunks 32 xs).map (fun _ => 0), r.countP (fun t => t.2.1), r.countP (fun t => t.2.2))

/-! ### The prologue (R145-R149) -/

/-- Rotate the pairs of a 128-wide row by the table row of a position, each with its flags (R149): cos and sin of pair i at 8i and 8i + 4 (log 24, DESIGN CHOICE). -/
def ropeRow (m : SMap Byte) (x : XStream) (inter bf : Bool) (pos : Nat) (v : List W32) : List (W32 × VF) :=
  let cs (i : Nat) : W32 × W32 :=
    (BitVec.ofNat 32 (wsRd m (x.ea + pos * 512 + 8 * i) 4), BitVec.ofNat 32 (wsRd m (x.ea + pos * 512 + 8 * i + 4) 4))
  v.zipIdx.map (fun (a, k) =>
    let i := if inter then k / 2 else k % 64
    let lower := if inter then decide (k % 2 = 0) else decide (k < 64)
    let mate := if inter then (if lower then k + 1 else k - 1) else (if lower then k + 64 else k - 64)
    let b := v.getD mate 0
    let (c, sn) := cs i
    let (t, f) := fMul b sn
    let (r, g) := fmaTo bf a c (if lower then negW t else t)
    (r, f ||| g))

/-- Apply a row factor stream to a row (R148). -/
def rowScale (m : SMap Byte) (l : List Byte) (row : Nat) (v : List W32) : List W32 :=
  let bf := bit (cb l 2) 0
  match chKind l 3, chKind l 4 with
  | some x, _ =>
    let mu := BitVec.ofNat 32 (wsRd m (x.ea + 8 * row) 4)
    let r := BitVec.ofNat 32 (wsRd m (x.ea + 8 * row + 4) 4)
    if bit (cb l 3) 1 then v.map (fun a => (mulTo bf a r).1)
    else v.map (fun a => (mulTo bf (subTo bf a mu).1 r).1)
  | none, some x => let f := vecVal m x row; v.map (fun a => (mulTo bf a f).1)
  | none, none => v

/-- A prologue stage selected by an optional chain. -/
def proOn (ch : Option (List Byte)) (i : Nat) : Bool := match ch with
  | some l => chPro l i
  | none => false

/-- Rows of the source that a GATHER index is compared with (R146): a kept record's ROWS (R95), those of a chained tile, else a
number no field gives (log 17, DESIGN CHOICE). -/
def sourceCount (ws : SMap Byte) (e : MMEntry) : Nat :=
  if e.body.qsrc = 3 then e.srcRows
  else if e.body.qsrc = 0 && dFlag54 e.rowD.toNat then wsRd ws (dEA e.rowD.toNat + 2) 2
  else Config.sourceRows e.rowD

/-- The source row that place i of the gathered operand copies; none is a zero row (R146). -/
def gatherAt (ws : SMap Byte) (e : MMEntry) (n i : Nat) : Option Nat :=
  if proOn e.chain 1 then
    match e.chain.bind (fun l => chKind l 1) with
    | some x =>
      let r := (vecVal ws x i).toNat
      if r < n then some r else none
    | none => some i
  else some i

/-- The source row that fed row m copies. Under transposition it copies no one row (R146, R147; log 17, DESIGN CHOICE). -/
def srcRowOf (ws : SMap Byte) (e : MMEntry) (m : Nat) : Option Nat :=
  if proOn e.chain 2 then some m else gatherAt ws e (sourceCount ws e) m

/-- Position of a fed row (R56, R146, R172). -/
def rowPos (core : Nat) (e : MMEntry) (src : Option Nat) : Nat :=
  match src with
  | none => 0
  | some r => match e.rows[r]? with
    | some x => x.2
    | none => Config.rowPosition core e.id r

/-- The values of a fed row after prologue stages 1-5: `val` gives the source's value at a row and a column, `n` its rows (R92 steps 1 and 2,
R145). A K index beyond the instruction's real ones is padded with +0 (R99; log 65, DESIGN CHOICE). -/
def fedRow (ws : SMap Byte) (core : Nat) (e : MMEntry) (val : Nat → Nat → W32) (n m k0 : Nat) : List W32 :=
  let v := (List.range 128).map (fun k =>
    if proOn e.chain 2 then ((gatherAt ws e n (k0 + k)).map (fun r => val r m)).getD 0
    else ((gatherAt ws e n m).map (fun r => val r (k0 + k))).getD 0)
  let v := match e.chain with
    | none => v
    | some l =>
      let v := if chPro l 3 then rowScale ws l m v else v
      match chPro l 4, chKind l 2 with
      | true, some x => (ropeRow ws x (bit (cb l 3) 0) (bit (cb l 2) 1) (rowPos core e (srcRowOf ws e m)) v).map Prod.fst
      | _, _ => v
  let v := v.zipIdx.map (fun (x, k) => if k0 + k < e.kReal then x else 0)
  if e.body.whisk then whisk v else v

/-- The source values of a fed row's K-slice from `k0`, after prologue stages 1-5. -/
def prologueRow (ws : SMap Byte) (core : Nat) (e : MMEntry) (ea m k0 : Nat) : List W32 :=
  fedRow ws core e (srcVal ws (if e.body.qsrc = 2 then 0 else 1) ea (dPitch e.rowD.toNat)) (sourceCount ws e) m k0

/-! ### Quantiser tiles -/

/-- A layer's numeric policy: 0 STRICT4, 1 ESCALATE, 2 FLOOR8, with threshold and allowance (R103). -/
structure Policy where
  kind  : Nat := 0
  thr   : Nat := 16383
  allow : Nat := 0
deriving DecidableEq, Repr, Inhabited

/-- An integer target: no policy applies (R104). -/
def intTarget (af : BitVec 5) : Bool := decide (fclass af = .int4 ∨ fclass af = .int8)

/-- Escalating this pair costs no time (R105). -/
def freeEsc (af wf : BitVec 5) : Bool := decide (rowSlot af wf = 2)

/-- Quantise the fed rows of one 128-wide K-slice and decide the encoding (R92, R101, R104, R107). `room` says whether the
engine's share has a unit left. -/
def quantTile (pol : Policy) (af wf : BitVec 5) (whisked room : Bool) (rows : List (List W32))
    (us : Nat → Nat → Option Nat) : QTile :=
  let isInt := intTarget af
  let floor8 := decide (pol.kind = 2) && !isInt
  let cf := if floor8 then 0x0B else af.toNat
  let cand := rows.zipIdx.map (fun (r, m) => quantRow cf (us m) r)
  let clamps := cand.map (fun t => t.2.2.1)
  let qualifies := decide (pol.kind = 1) && !isInt && decide (pol.thr < clamps.sum)
  let free := freeEsc af wf
  let esc := qualifies && (free || room)
  let fed := if esc then rows.zipIdx.map (fun (r, m) => quantRow 0x0B (us m) r) else cand
  let f := if esc then 0x0B else cf
  { fmt := BitVec.ofNat 5 f
    flags := BitVec.ofNat 8 (b2n esc + 2 * b2n (qualifies && !esc) + 4 * b2n whisked + 8 * b2n floor8 + 16 * b2n (esc && free))
    rows := fed.map (fun t => arowOf f t.1 t.2.1)
    codes := fed.map Prod.fst
    scodes := fed.map (fun t => t.2.1)
    tclamp := clamps.sum
    clamps := clamps
    clamp8 := if f = 0x0B ∨ f = 0x0C then fed.map (fun t => t.2.2.1) else fed.map (fun _ => 0)
    nanblk := cand.map (fun t => t.2.2.2) }

/-- The hi and lo tiles of a BF16 split (R81). An FP32 value is split as it is, with no rounding to BF16 before (log 151, DESIGN CHOICE). -/
def splitTiles (rows : List (List W32)) : List QTile :=
  let bs := rows.map (fun r => (chunks 32 r).map splitBlock)
  let mk (p : QBlock × QBlock → QBlock) : QTile :=
    { fmt := 0x0B, rows := bs.map (fun r => arowOf 0x0B (r.flatMap (fun b => (p b).codes)) (r.map (fun b => (p b).scale))) }
  [mk Prod.fst, mk Prod.snd]

/-- Write a kept tile record of a quantised tile (R95): rows for which `live` is false keep their bytes (R171). A record of INT4 or INT8 has
no blocks to poison (log 140, DEDUCED). -/
def writeRecord (ws : SMap Byte) (a tag pol : Nat) (q : QTile) (live : Nat → Bool) : SMap Byte :=
  let f := q.fmt.toNat
  let ws := wsWr ws a (leBytes 1 (fmtRec f) ++ [q.flags] ++ leBytes 2 q.rows.length ++ leBytes 2 q.tclamp
    ++ leBytes 2 (if f = 0x05 ∨ f = 0x07 then 0 else q.nanblk.sum) ++ leBytes 3 tag ++ leBytes 1 pol ++ leBytes 52 0)
  let ws := q.scodes.zipIdx.foldl (fun ws (l, m) => if live m then wsWr ws (a + 64 + 4 * m) (l.map (BitVec.ofNat 8)) else ws) ws
  q.codes.zipIdx.foldl (fun ws (l, m) =>
    if live m then l.zipIdx.foldl (fun ws (c, k) => wrElem ws ((a + 576 + m * recRow f) % wsSize) (fmtBits f) k c) ws else ws) ws

/-- The largest record a tile of M rows can be given at a site (R96). -/
def recReserve (pol : Policy) (af : BitVec 5) (rows : Nat) : Nat :=
  576 + rows * (if pol.kind ≠ 0 ∧ intTarget af = false then 128 else recRow af.toNat)

/-! ### Exact sums for the Gauss operands (R86) -/

/-- The exact sum of two decoded values. -/
def addFV (a b : FV) : FV :=
  match a, b with
  | .nan, _ => .nan
  | _, .nan => .nan
  | .inf s, .inf t => if s = t then .inf s else .nan
  | .inf s, _ => .inf s
  | _, .inf t => .inf t
  | .fin s m e, .fin t n f =>
    let lo := min e f
    let v := alignInt s m e lo + alignInt t n f lo
    .fin (decide (v < 0)) v.natAbs lo

/-- floor(log2) of a decoded magnitude. -/
def fvLog (v : FV) : Option Int :=
  match v with
  | .fin _ m e => if m = 0 then none else some ((Nat.log2 m : Int) + e)
  | _ => none

/-- Quantise a run of exact values to a form with a fresh block scale and RNE: codes, scale code, clamps (R86). -/
def quantFV (f : Nat) (xs : List FV) : QBlock :=
  if isMX f then
    if xs.any (fun v => match v with
      | .fin _ _ _ => false
      | _ => true) then { scale := 0xFF, codes := xs.map (fun _ => 0), poisoned := true }
    else
      let sc := match (xs.filterMap fvLog).max? with
        | none => 0x7F
        | some l => (max 0 (min 254 (l - emaxOf f + 127))).toNat
      let r := xs.map (fun v => match v with
        | .fin s m e => encNarrow f none s (m * pow2Num (e - ((sc : Int) - 127))) (pow2Den (e - ((sc : Int) - 127)))
        | _ => (0, false))
      { scale := sc, codes := r.map Prod.fst, clamps := r.countP Prod.snd }
  else
    let r := xs.map (fun v => match v with
      | .fin s m e => encNarrow f none s (dyNum m e) (dyDen e)
      | .inf s => ((cvtPlain f none (inf32 s)).1, true)
      | .nan => ((cvtPlain f none nan32).1, false))
    { scale := 0, codes := r.map Prod.fst, clamps := r.countP Prod.snd }

/-- An element code with its scale code, decoded exactly. -/
def codeFV (f c sc : Nat) : FV :=
  match decCode f c with
  | .fin s m e => if isMX f then (if sc = 255 then .nan else .fin s m (e + (sc : Int) - 127)) else .fin s m e
  | v => if isMX f && sc == 255 then .nan else v

/-- A row of the sum tile of a Gauss product, in form `f`, from the codes of its two planes, each in its own form: codes, scale codes,
clamps, poisoned blocks (R86). -/
def gaussRow (f fa fb : Nat) (a b : List Nat × List Nat) : List Nat × List Nat × Nat × Nat :=
  let vals (g : Nat) (p : List Nat × List Nat) : List FV := p.1.zipIdx.map (fun (c, k) => codeFV g c (p.2.getD (k / 32) 0))
  let bs := (chunks 32 (List.zipWith addFV (vals fa a) (vals fb b))).map (quantFV f)
  (bs.flatMap QBlock.codes, bs.map QBlock.scale, (bs.map QBlock.clamps).sum, bs.countP QBlock.poisoned)

/-- The sum tile of a Gauss product. It takes the planes' form where they share one, else the operand's (R86; log 152, DEDUCED). -/
def gaussTile (af : BitVec 5) (r i : QTile) : QTile :=
  let f := if r.fmt = i.fmt then r.fmt else af
  let sm := (List.range r.codes.length).map (fun m => gaussRow f.toNat r.fmt.toNat i.fmt.toNat
    (r.codes.getD m [], r.scodes.getD m []) (i.codes.getD m [], i.scodes.getD m []))
  let clamps := sm.map (fun t => t.2.2.1)
  { fmt := f, rows := sm.map (fun t => arowOf f.toNat t.1 t.2.1), codes := sm.map Prod.fst, scodes := sm.map (fun t => t.2.1)
    tclamp := clamps.sum, clamps, clamp8 := if f = 0x0B ∨ f = 0x0C then clamps else [], nanblk := sm.map (fun t => t.2.2.2) }

/-! ### Weight tiles -/

/-- Weight (k, n) of a tile is a real one: the loader makes the others zero (R88). `ext` gives the tile's real K indices and columns. -/
def realW (ext : Nat × Nat) (k n : Nat) : Bool := decide (k < ext.1) && decide (n < ext.2)

/-- The scale over a block of a tile: 1 where no weight of the block is real (R88). -/
def realScale (ext : Nat × Nat) (kb n : Nat) (w : W32) : W32 := if realW ext (32 * kb) n then w else 0x3F800000

/-- Code of weight (k, n) of a tile whose first K index is `k0` (R147, R252). -/
def wCode (ws : SMap Byte) (wf ea pitch k0 : Nat) (tr : Bool) (k n : Nat) : Nat :=
  if tr then srcCode ws wf ea pitch n (k0 + k) else srcCode ws wf ea pitch (k0 + k) n

/-- Block scale of K-block `kb` and column n: beside a transposed operand's elements in their order, else one run of 128
columns per K-block (R41, R252; log 25, DESIGN CHOICE). -/
def wScale (ws : SMap Byte) (wf ea_sa pitch k0 : Nat) (tr : Bool) (kb n : Nat) : W32 :=
  if !(isMX wf || isT2 wf) then 0x3F800000
  else if tr then srcScale ws wf ea_sa pitch n (k0 + 32 * kb)
  else if isT2 wf then ofBF16 (BitVec.ofNat 16 (wsRd ws (ea_sa + (((k0 + 32 * kb) / 64) * 128 + n) * 2) 2))
  else e8m0 (wsRd ws (ea_sa + ((k0 / 32 + kb) * 128 + n)) 1)

/-- The exact product of an element and a KC scale (R162). -/
def kcCell (f c sc : Nat) : Elem :=
  match decCode f c, decCode 0x03 sc with
  | .fin s m e, .fin t n g => elemOf (.fin (s != t) (m * n) (e + g))
  | _, _ => .nan

/-- Cell (k, n) of a KC tile: key halves when `key`, else value halves (R162, R185; log 26, DESIGN CHOICE). -/
def kcWeight (ws : SMap Byte) (f ea sa : Nat) (key : Bool) (k n : Nat) : Elem :=
  let pos := if key then n else k
  let ch := if key then k else n
  let h := pos / 64 * (if key then kcKeyHalf f else kcValHalf f)
  let p := pos % 64
  let idx := if key then 64 * ch + p else 128 * p + ch
  let sidx := if key then ch else 4 * p + ch / 32
  kcCell f (srcCode ws f (ea + h) 0 0 idx) (wsRd ws (sa + h + sidx) 1)

/-- A KC tile: `tr` exchanges its rows and columns, slice i starts 128 K-rows later, and padding is zero (R88, R147, R162, R252). -/
def kcTile (ws : SMap Byte) (f ea sa k0 : Nat) (key tr : Bool) (ext : Nat × Nat) : List (List Elem) :=
  (List.range 128).map (fun k => (List.range 128).map (fun n =>
    if realW ext k n then (if tr then kcWeight ws f ea sa key n (k0 + k) else kcWeight ws f ea sa key (k0 + k) n) else .fin 0))

/-- Sum of a weight row, none where an element is not finite (R88, R90). -/
def tasterOf (row : List Elem) : Option Int :=
  row.foldl (fun a x => match a, x with
    | some s, .fin v => some (s + v)
    | _, _ => none) (some 0)

/-- A weight tile from its rows and scales, with the taster sums the loader computes (R72, R88). -/
def mkTile (rows : List (List Elem)) (scales : List (List W32)) : WTile :=
  { rows, scales, taster := rows.map tasterOf }

def onesRow : List W32 := List.replicate 128 0x3F800000

/-- The tile of a plain or MX or T2 operand: `kk` K indices from `k0`, padded with zeros (R72, R88). -/
def plainTile (ws : SMap Byte) (wf ea sa pitch k0 kk : Nat) (tr : Bool) (ext : Nat × Nat) : WTile :=
  mkTile ((List.range kk).map (fun k => (List.range 128).map (fun n =>
      if realW ext k n then toElem wf (wCode ws wf ea pitch k0 tr k n) else .fin 0)))
    ((List.range (kk / 32)).map (fun kb => (List.range 128).map (fun n => realScale ext kb n (wScale ws wf sa pitch k0 tr kb n))))

/-- The hi and lo tiles of a BF16 weight operand, split per column and K-block (R81). -/
def splitWeights (ws : SMap Byte) (ea pitch k0 : Nat) (tr : Bool) (ext : Nat × Nat) : WTile × WTile :=
  let blk (kb n : Nat) : QBlock × QBlock :=
    splitBlock ((List.range 32).map (fun i =>
      if realW ext (32 * kb + i) n then ofBF16 (BitVec.ofNat 16 (wCode ws 1 ea pitch k0 tr (32 * kb + i) n)) else 0))
  let cols := (List.range 4).map (fun kb => (List.range 128).map (blk kb))
  let mk (p : QBlock × QBlock → QBlock) : WTile :=
    mkTile ((List.range 128).map (fun k => ((cols.getD (k / 32) []).map (fun b => toElem 0x0B ((p b).codes.getD (k % 32) 0)))))
      (cols.map (fun r => r.map (fun b => e8m0 (p b).scale)))
  (mk Prod.fst, mk Prod.snd)

/-- The blocks of the Gauss sum of two weight planes, by K-block and column (R86). -/
def gaussBlocks (ws : SMap Byte) (wf ea sa ei si pitch k0 : Nat) (tr : Bool) (ext : Nat × Nat) : List (List QBlock) :=
  let sc (a : Nat) (kb n : Nat) : Nat :=
    if !isMX wf then 0
    else if tr then scaleCode ws wf a pitch n (k0 + 32 * kb)
    else wsRd ws (a + ((k0 / 32 + kb) * 128 + n)) 1
  let blk (kb n : Nat) : QBlock :=
    quantFV wf ((List.range 32).map (fun i =>
      if !realW ext (32 * kb + i) n then .fin false 0 0
      else addFV (codeFV wf (wCode ws wf ea pitch k0 tr (32 * kb + i) n) (sc sa kb n))
                 (codeFV wf (wCode ws wf ei pitch k0 tr (32 * kb + i) n) (sc si kb n))))
  (List.range 4).map (fun kb => (List.range 128).map (blk kb))

/-- The Gauss sum tile of two weight planes (R86). -/
def gaussWeights (ws : SMap Byte) (wf ea sa ei si pitch k0 : Nat) (tr : Bool) (ext : Nat × Nat) : WTile :=
  let cols := gaussBlocks ws wf ea sa ei si pitch k0 tr ext
  mkTile ((List.range 128).map (fun k => ((cols.getD (k / 32) []).map (fun b => toElem wf (b.codes.getD (k % 32) 0)))))
    (cols.map (fun r => r.map (fun b => if isMX wf then e8m0 b.scale else 0x3F800000)))

/-- Ternary codes that a tile decodes as 0 (R39). -/
def ternaryErrors (ws : SMap Byte) (wf ea pitch k0 kk : Nat) (tr : Bool) (ext : Nat × Nat) : Nat :=
  if wf ≠ 0x0F then 0 else
  (List.range kk).foldl (fun a k => a + (List.range 128).countP (fun n => realW ext k n && wCode ws wf ea pitch k0 tr k n == 2)) 0

/-! ### Block sums -/

/-- What a block of 32 products holds (R61, R62): NaN, Inf times 0, infinities of either sign, and the finite sum in units
of 2^-36. -/
structure BSum where
  nan : Bool := false
  infZero : Bool := false
  pos : Bool := false
  neg : Bool := false
  sum : Int := 0
deriving DecidableEq, Repr, Inhabited

def bstep (b : BSum) (a w : Elem) : BSum :=
  match a, w with
  | .nan, _ => { b with nan := true }
  | _, .nan => { b with nan := true }
  | .inf s, .fin v => if v = 0 then { b with infZero := true } else
      if s != decide (v < 0) then { b with neg := true } else { b with pos := true }
  | .fin v, .inf s => if v = 0 then { b with infZero := true } else
      if s != decide (v < 0) then { b with neg := true } else { b with pos := true }
  | .inf s, .inf t => if s != t then { b with neg := true } else { b with pos := true }
  | .fin v, .fin u => { b with sum := b.sum + v * u }

def bsum (as ws : List Elem) : BSum := (List.zip as ws).foldl (fun b x => bstep b x.1 x.2) {}

/-- The FP32 pattern b of a block and whether a finite sum gave an infinity (R60, R62, R63, R87). -/
def blockB (b : BSum) (sa sw : W32) : W32 × Bool :=
  let szero := isZero32 sa || isZero32 sw
  let sneg := sa.msb != sw.msb
  if b.nan || isNan32 sa || isNan32 sw then (nan32, false)
  else if b.infZero then (nan32, false)
  else if b.pos && b.neg then (nan32, false)
  else if b.pos || b.neg then (if szero then (nan32, false) else (inf32 (b.neg != sneg), false))
  else if isInf32 sa || isInf32 sw then
    (if b.sum = 0 || szero then (nan32, false) else (inf32 (decide (b.sum < 0) != sneg), true))
  else if b.sum = 0 || szero then (0, false)
  else
    match dec32 sa, dec32 sw with
    | .fin _ m e, .fin _ n f =>
      let neg := decide (b.sum < 0) != sneg
      let k := e + f - 36
      let (c, fl) := rnd32f neg (b.sum.natAbs * m * n * pow2Num k) (pow2Den k)
      (c, decide (fl &&& flOverflow ≠ 0))
    | _, _ => (nan32, false)

/-- Add a b to an accumulator value, with the flags of R87. -/
def accAdd (st : MStatus) (acc b : W32) : W32 × MStatus :=
  let r := (fAdd acc b).1
  (r, { st with aovf := st.aovf || (isFin32 acc && isFin32 b && isInf32 r), nanp := st.nanp || isNan32 b || isNan32 r })

/-- A block holds a NaN or an infinity (R90). -/
def nonFinite (l : List Elem) : Bool := l.any (fun x => match x with
  | .fin _ => false
  | _ => true)

/-- The taster compare of one row and K-block (R89, R90): none skipped, else whether T equals C. `delta` is an upset of the
columns' sum. -/
def taster (as : List Elem) (ts : List (Option Int)) (sums : List BSum) (delta : Int) : Option Bool :=
  if nonFinite as || ts.any Option.isNone then none
  else
    let t : Int := ((List.zip as ts).map (fun (a, t) => match a, t with
      | .fin v, some u => v * u
      | _, _ => 0)).sum
    let c : Int := (sums.map BSum.sum).sum + delta
    some (decide (t = c))

end Sys2Proof.Machine
end

