-- ==== Sys2Proof/Machine/MemOps.lean ====
section
/-! DEFINITION. Memory tiers: addresses, channels, memory error records, failed channels, uncorrectable data by owner class,
retired pages (R328-R336, R339, R346-R352). -/

namespace Sys2Proof.Machine

/-- A module address names far memory (R328). -/
def isFar (a : Nat) : Bool := bit a 63
/-- Address within its tier. -/
def tierAddr (a : Nat) : Nat := if isFar a then bits a 41 0 else bits a 36 0
/-- Near capacity: 120 GiB with ECC, 128 GiB without (R329). -/
def nearCap (s : State) : Nat := if s.mem.ecc then 0x1E00000000 else 0x2000000000
/-- Base of the Aghorn region, the top 256 MiB (R329). -/
def aghornBase (s : State) : Nat := nearCap s - 0x10000000
/-- Far capacity in service: the expanders of the ports that are up, at most 1 TiB each (R328, R337). -/
def farCap (s : State) : Nat := (s.mem.cxl.toList.map (fun c => if c.up then Nat.min c.cap 0x10000000000 else 0)).sum
/-- GDDR7 channel of a near address (R330). -/
def channelOf (a : Nat) : Fin 16 := Fin.ofNat 16 (bits a 13 10 ^^^ bits a 17 14)

/-- Reserved bits 0 and inside the tier (R328). -/
def addrValid (s : State) (a : Nat) : Bool :=
  if isFar a then decide (bits a 62 42 = 0) && decide (tierAddr a < farCap s)
  else decide (bits a 62 37 = 0) && decide (tierAddr a < nearCap s)

/-- Every address of a run is in its tier (R328). -/
def runValid (s : State) (a n : Nat) : Bool := addrValid s a && addrValid s (a + (n - 1))

/-- Inside a partition's windows, with write access where `wr` (R328, R370). -/
def inWindow (cfg : PCfg) (a len : Nat) (wr : Bool) : Bool :=
  cfg.windows.any (fun (b, n, attr) => decide (b.toNat ≤ a ∧ a + len ≤ b.toNat + n) && (!wr || attr == 2))

/-- A far region that names a port out of service is offline (R339). -/
def regionOffline (s : State) (r : Region) : Bool :=
  r.far && r.ports.any (fun i => match s.mem.cxl[i]? with
    | some c => !c.up
    | none => true)

def inRegion (r : Region) (a : Nat) : Bool := decide (r.far = isFar a) && decide (r.base ≤ tierAddr a ∧ tierAddr a < r.base + r.size)

/-- The address lies in an offline region (R339). -/
def offline (s : State) (a : Nat) : Bool := s.mem.regions.any (fun r => inRegion r a && regionOffline s r)

/-- A run of module addresses meets an offline region (R339). -/
def runOffline (s : State) (a n : Nat) : Bool :=
  s.mem.regions.any (fun r => regionOffline s r && isFar a && decide (r.base < tierAddr a + n ∧ tierAddr a < r.base + r.size))

/-- The memory ports that a run of module addresses touches: 0 the near controller, 1-4 CXL0-CXL3 (R339, R344). -/
def portsOf (s : State) (a n : Nat) : List Nat :=
  if isFar a then (s.mem.regions.filter (fun r => r.far && decide (r.base < tierAddr a + n ∧ tierAddr a < r.base + r.size))).flatMap (fun r =>
    ((List.range ((n + 4095) / 4096 + 1)).filterMap (fun k => r.ports[(tierAddr a / 4096 + k) % Nat.max 1 r.ports.length]?)).map (· + 1))
  else [0]

/-- A port's upkeep window is open in the present phase (R344). -/
def windowOpen (s : State) (port : Nat) : Bool :=
  s.img.dev.upkeep.any (fun u => u.1 == port && decide (u.2.1 ≤ s.tick.phase ∧ s.tick.phase < u.2.1 + u.2.2.1))

/-- Task traffic to a run waits for the end of a port's upkeep window (R344). -/
def runHeld (s : State) (a n : Nat) : Bool := (portsOf s a n).any (windowOpen s)

/-- WHERE of a memory error record: channel, or 0x80 + CXL port (R339, R348). -/
def whereOf (s : State) (a : Nat) : Nat :=
  if isFar a then
    match s.mem.regions.find? (fun r => inRegion r a) with
    | some r => 0x80 + r.ports.getD (tierAddr a / 4096 % Nat.max 1 r.ports.length) 0
    | none => 0x80
  else (channelOf (tierAddr a)).1

/-- Who found a memory event, with its task (R348). -/
structure Finder where
  found : Nat := 0
  task  : Nat := 0
  part  : Nat := 0xFFFF
deriving DecidableEq, Repr, Inhabited

/-- A private extent of a request's attempt covers the address (R204, R311). -/
def reqHolds (x : Part) (r : Req) (a : Nat) : Bool :=
  let gb := ((x.xtabs.find? (fun t => t.idx == r.xtab)).map (fun t => t.gbytes)).getD 0
  decide (r.need ≠ 0) && r.own.any (fun e => decide (e.base.toNat ≤ a ∧ a < e.base.toNat + e.len.toNat * gb))

/-- The request whose own data holds the address: 0 with none (R348). -/
def reqOfLine (s : State) (a : Nat) : W64 :=
  ((allParts.flatMap (fun p => (s.part p).reqs.filter (fun r => reqHolds (s.part p) r a))).head?.map (fun r => r.desc.reqid)).getD 0

/-- Write a memory error record (R348, R446). -/
def memRecord (a kind owner : Nat) (f : Finder) (s : State) : State :=
  let prio := if kind = 7 then 0 else if kind = 3 ∨ kind = 4 ∨ kind = 5 then 1 else 3
  let ec := if kind = 7 then 3 else if kind = 3 ∨ kind = 4 ∨ kind = 5 then 2 else 0
  let w := whereOf s a
  logR 0x0001 prio ec (if w < 0x80 then 0x200 + w else 0x300 + (w - 0x80)) f.part
    [a, w, kind, owner, f.found, f.task, (reqOfLine s a).toNat, s.tick.now] s

def updChan (c : Fin 16) (f : Channel → Channel) (s : State) : State :=
  updMem (fun m => { m with chans := m.chans.set c.1 (f (m.chans[c.1]'c.2)) c.2 }) s

def updCxl (c : Fin 4) (f : Cxl → Cxl) (s : State) : State :=
  updMem (fun m => { m with cxl := m.cxl.set c.1 (f (m.cxl[c.1]'c.2)) c.2 }) s

/-- Fail a channel, with its record and alarm (R336, R348). -/
def failChannel (c : Fin 16) (a : Nat) (f : Finder) (s : State) : State :=
  if (s.mem.chans[c.1]'c.2).failed then s
  else alarm 3 (memRecord a 7 0 f (updChan c (fun x => { x with failed := true }) s))

/-- Count an uncorrectable event of a near channel: the 16th within 1,000 ticks fails it (R336). -/
def uncEvent (a : Nat) (f : Finder) (s : State) : State :=
  let c := channelOf (tierAddr a)
  let s := updChan c (fun x => { x with
    eccunc := satAdd 64 x.eccunc 1
    uncTicks := s.tick.now :: x.uncTicks.filter (fun t => decide (s.tick.now < t + 1000)) }) s
  if 16 ≤ (s.mem.chans[c.1]'c.2).uncTicks.length then failChannel c a f s else s

/-- Count a fifth CRC failure of a burst: the fourth such burst within a tick fails the channel (R334, R336). -/
def crcEvent (a : Nat) (f : Finder) (s : State) : State :=
  let c := channelOf (tierAddr a)
  let s := updChan c (fun x => { x with
    crcrep := satAdd 64 x.crcrep 4
    crcFails := if x.crcTick = s.tick.now then x.crcFails + 1 else 1
    crcTick := s.tick.now }) s
  let s := uncEvent a f s
  if 4 ≤ (s.mem.chans[c.1]'c.2).crcFails then failChannel c a f s else s

/-- Count a corrected event (R335, R347, R456). -/
def corEvent (a : Nat) (s : State) : State :=
  if isFar a then updCxl (Fin.ofNat 4 (whereOf s a)) (fun x => { x with ecccor := satAdd 64 x.ecccor 1 }) s
  else updChan (channelOf (tierAddr a)) (fun x => { x with ecccor := satAdd 64 x.ecccor 1 }) s

/-- Near address on a failed channel (R352). -/
def onFailed (s : State) (a : Nat) : Bool :=
  !isFar a && (let c := channelOf (tierAddr a); (s.mem.chans[c.1]'c.2).failed)

/-- The first line of a run that lies on a failed channel: channels change every 1 KiB (R330, R352). -/
def failedLine (s : State) (a len : Nat) : Option Nat :=
  if isFar a then none
  else ((List.range (len / 1024 + 2)).find? (fun i =>
    let b := a / 1024 * 1024 + 1024 * i
    decide (b < a + len) && onFailed s b)).map (fun i => Nat.max (a / 64 * 64) (a / 1024 * 1024 + 1024 * i))

/-- A run of bytes touches a failed channel (R352). -/
def runFailed (s : State) (a len : Nat) : Bool := (failedLine s a len).isSome

/-! ### Reads and writes of a tier -/

/-- Bytes of a module address run, without check. -/
def tierRead (s : State) (a n : Nat) : List Byte :=
  if isFar a then rdBytes s.mem.far (tierAddr a) n else rdBytes s.mem.near (tierAddr a) n

/-- Write bytes to near memory; bytes on a failed channel are dropped (R352). -/
def nearWrite (s : State) (a : Nat) (l : List Byte) : SMap Byte :=
  l.zipIdx.foldl (fun m (x, i) => if onFailed s (a + i) then m else wr8 m (a + i) x) s.mem.near

/-- Write bytes at a module address (R328, R352). -/
def tierWrite (a : Nat) (l : List Byte) (s : State) : State :=
  if isFar a then updMem (fun m => { m with far := wrBytes m.far (tierAddr a) l }) s
  else { s with mem := { s.mem with near := nearWrite s (tierAddr a) l } }

/-- Clear a fresh run of near memory: code 0x00 stands at every position that nothing writes; nothing is written to a failed channel (R188, R352). -/
def clearRun (a n : Nat) (s : State) : State :=
  updMem (fun m => { m with near := m.near.filter (fun x => decide (x.1 < a ∨ a + n ≤ x.1) || onFailed s x.1) }) s

/-- An extent entry's 32 bytes (R197). -/
def extBytes (e : Extent) : List Byte :=
  leBytes 8 e.base.toNat ++ leBytes 2 e.len.toNat ++ leBytes 1 e.fmt.toNat ++ leBytes 1 e.flags.toNat ++ leBytes 4 e.gen.toNat
  ++ leBytes 4 e.region.toNat ++ leBytes 12 0

/-- One copy of an extent table: 64 header bytes, then 64 entries (R197). -/
def copyBytes (h : XHead) (l : List Extent) : List Byte :=
  leBytes 4 h.length ++ leBytes 1 l.length ++ leBytes 1 (b2n h.retained + 2 * b2n h.inflight) ++ leBytes 2 h.domain.toNat ++ leBytes 8 h.tag.toNat
  ++ leBytes 8 h.keepbase.toNat ++ leBytes 40 0 ++ l.flatMap extBytes ++ leBytes (32 * (64 - l.length)) 0

/-- The header fields of the copy that CUR names. -/
def XTable.head (t : XTable) : XHead :=
  { length := t.length, retained := t.retained, inflight := t.inflight, domain := t.domain, tag := t.tag, keepbase := t.keepbase }

/-- An extent table's 4,288 bytes (R197). -/
def tableBytes (t : XTable) : List Byte :=
  leBytes 8 (t.gen + b2n t.cur * 2 ^ 32) ++ leBytes 56 0
  ++ copyBytes (if t.cur then t.stale else t.head) t.copyA ++ copyBytes (if t.cur then t.head else t.stale) t.copyB

/-- A prefix node's 320 bytes (R207). -/
def nodeBytes (n : PNode) (next : Nat) : List Byte :=
  leBytes 8 n.hash.toNat ++ leBytes 8 n.tag.toNat ++ leBytes 4 n.parent ++ leBytes 4 next ++ leBytes 4 n.ref ++ leBytes 4 n.region ++ leBytes 4 n.blk
  ++ leBytes 2 n.domain ++ leBytes 2 (b2n n.inUse) ++ leBytes 8 n.lastUse ++ leBytes 1 n.owner ++ leBytes 15 0 ++ n.tokens.flatMap (fun w => leBytes 4 w.toNat)

/-- Bucket of a node in its domain's tree (R208). -/
def bucketOf (m : Mem) (n : PNode) : Nat := n.hash.toNat % 2 ^ (((m.domains.find? (fun d => d.id == n.domain)).map (fun d => d.log2)).getD 0)

/-- The next node in the bucket chain of a node, 0xFFFF_FFFF with none (R207). -/
def nextInChain (m : Mem) (n : PNode) : Nat :=
  (((m.nodes.dropWhile (fun q => q.idx != n.idx)).drop 1).find? (fun q => q.inUse && q.domain == n.domain && bucketOf m q == bucketOf m n)).elim
    0xFFFFFFFF (fun q => q.idx)

/-- The bytes that every node stands in, with those of nodes that have gone (R207). -/
def nodeImage (m : Mem) : List (Nat × List Byte) := m.nodes.map (fun n => (n.addr, nodeBytes n (nextInChain m n)))

/-- Change the prefix nodes: their bytes in near memory follow, and a node that goes is no longer in use (R207). -/
def updNodes (f : List PNode → List PNode) (s : State) : State :=
  let old := nodeImage s.mem
  let s' := updMem (fun m => { m with nodes := f m.nodes }) s
  let gone := (s.mem.nodes.filter (fun n => !s'.mem.nodes.any (fun q => q.idx == n.idx))).map (fun n => (n.addr, nodeBytes { n with inUse := false } 0xFFFFFFFF))
  forAll (gone ++ (nodeImage s'.mem).filter (fun x => !old.contains x)) (fun x s => tierWrite x.1 x.2 s) s'

/-! ### Uncorrectable data (R349) -/

/-- A partition whose pool holds a page no longer counts it as free (R311, R350). -/
def losePage (a : Nat) (s : State) : State :=
  match s.mem.regions.find? (fun r => inRegion r a && r.cls == 5 && decide (r.part < 64)) with
  | none => s
  | some r => updPart (pid r.part) (fun x => { x with freeNear := x.freeNear - 4096 }) s

/-- Retire the page of a near address; a full list raises the alarm (R350). -/
def retirePage (a : Nat) (s : State) : State :=
  let p := tierAddr a / 4096
  if isFar a || s.mem.retired.contains p then s
  else if s.mem.retired.length < 8192 then losePage a (updMem (fun m => { m with retired := m.retired ++ [p] }) s)
  else alarm 3 s

/-- Mark the region of a bad line for reload (R349, R479). -/
def markReload (a : Nat) (s : State) : State :=
  match s.mem.regions.find? (fun r => inRegion r a) with
  | none => s
  | some r =>
    if r.far then updMem (fun m => { m with freload := if m.freload.contains r.idx then m.freload else m.freload ++ [r.idx] }) s
    else updMem (fun m => { m with reload := if m.reload.contains r.idx then m.reload else m.reload ++ [r.idx] }) s

/-- The block group of a node, or the node's own bytes, cover the address. -/
def nodeHolds (n : PNode) (a : Nat) : Bool :=
  !isFar a && (decide (n.base ≤ tierAddr a ∧ tierAddr a < n.base + n.bytes) || decide (n.addr ≤ tierAddr a ∧ tierAddr a < n.addr + 320))

/-- Take the nodes of a block group out of their tree; the page is retired when the region is freed (R349). -/
def dropNodes (a : Nat) (s : State) : State :=
  updNodes (mapIf (fun n => nodeHolds n a) (fun n => { n with inUse := false, badAt := some a })) s

/-- The extent table holds an extent that covers the address. -/
def xtHolds (t : XTable) (a : Nat) : Bool :=
  (if t.cur then t.copyB else t.copyA).any (fun e => decide (e.base.toNat ≤ a ∧ a < e.base.toNat + e.len.toNat * t.gbytes))

/-- The keeper stores of a table cover the address: 520 B for each entry of every keeper head of its model (R191). -/
def keepHolds (s : State) (t : XTable) (a : Nat) : Bool :=
  let n := ((s.img.models.find? (fun m => m.idx == t.tag.toNat / 2 ^ 48)).map (fun m =>
    (m.keepers.map (fun k => k.2.2.2.length * (k.2.1 + k.2.2.1) * 520)).sum)).getD 0
  decide (t.keepbase.toNat ≤ a ∧ a < t.keepbase.toNat + n)

/-- A session's context covers the address (R349, owner class 4). -/
def sessHolds (s : State) (x : Part) (z : Session) (a : Nat) : Bool :=
  x.xtabs.any (fun t => t.idx == z.xtab && (xtHolds t a || keepHolds s t a || decide (t.addr.toNat ≤ a ∧ a < t.addr.toNat + 4288)))

/-- A session whose context covers the address is released once no request is in flight on it; from then its handle is unknown
(R349, owner class 4). -/
def loseSessions (a : Nat) (s : State) : State :=
  forAll allParts (fun p s => updPart p (fun x =>
    { x with sessions := mapIf (fun z => sessHolds s x z a) (fun z => { z with relDue := true }) x.sessions }) s) s

/-- The owner class of a line, where an access does not give it (R329, R349, R386): from what holds it, else from its region's class. -/
def lineOwner (s : State) (a : Nat) : Fin 8 :=
  if allParts.any (fun p => (s.part p).sessions.any (fun z => sessHolds s (s.part p) z a)) then 4
  else if allParts.any (fun p => (s.part p).reqs.any (fun r => reqHolds (s.part p) r a)) then 2
  else if s.mem.nodes.any (fun n => nodeHolds n a) then 3
  else if !isFar a && decide (aghornBase s ≤ tierAddr a) then 6
  else match s.mem.regions.find? (fun r => inRegion r a) with
    | none => 7
    | some r => if r.cls = 2 then 5 else if r.cls = 4 then 3 else if r.cls = 5 then 2 else 1

/-- The line lies in a region that the image's map places whole: such a region is never retired (R350, R386). -/
def imageMapped (s : State) (a : Nat) : Bool := s.mem.regions.any (fun r => inRegion r a && r.cls != 4 && r.cls != 5)

/-- A journal copy is bad: it is rewritten from the other copy, which lies at the address with bit 13 inverted. With the
other copy unreadable too the partition halts, and its task is aborted uncounted (R342, R349, owner class 5). -/
def badJournal (a : Nat) (s : State) : State :=
  match s.mem.regions.find? (fun r => inRegion r a && r.cls == 2) with
  | none => s
  | some r =>
    if 64 ≤ r.part then s else
    let p := pid r.part
    if !onFailed s (a ^^^ 0x2000) then s else
    let s := updPart p (fun x => { x with jbad := (true, true) }) s
    let s := alarm 6 (setPState p .halted s)
    match (s.part p).task with
    | some t => if t.started && !t.ended then abortTask p { code := 0x26, eclass := 4, src := 0xFFFF } true s else s
    | none => s

/-- Retire the page of a line, or mark its region where that is image-mapped (R350). -/
def retireLine (a : Nat) (s : State) : State := if imageMapped s a then markReload a s else retirePage a s

/-- What the owner class of an uncorrectable line asks for (R349). -/
def ownerAction (owner : Fin 8) (a : Nat) (s : State) : State :=
  match owner.1 with
  | 1 => markReload a s
  | 2 => retireLine a s
  | 3 => dropNodes a s
  | 4 => loseSessions a s
  | 5 => badJournal a s
  | 6 => countDrop 3 s
  | 7 => retireLine a s
  | _ => s

/-- The owner class that an access gives for its line, else the one that the state shows (R349). -/
def ownerFor (s : State) (r : AccessResult) (a : Nat) : Fin 8 :=
  match r with
  | .uncorrectable o => o
  | .crcLimit o => o
  | _ => lineOwner s a

/-- The line of a run that its uncorrectable read is recorded for: the first on a failed channel, else the first (R348, R352). -/
def badLineOf (s : State) (a len : Nat) : Nat := (failedLine s a len).getD a

/-- What an uncorrectable line does (R333, R349): its owner's action, and the data is bad. With ECC off a near line is only counted and recorded. -/
def badLine (o : Fin 8) (b : Nat) (s : State) : Bool × State :=
  if s.mem.ecc || isFar b then (false, ownerAction o b s) else (true, s)

/-- Judge a read of a run of module addresses (R333-R335, R348, R349, R352): whether the data is good, and the state after
counts, records and the owner's action. A line on a failed channel is uncorrectable whatever the access answers. With ECC off near memory
gives its bytes, whatever the access met (log 146, DESIGN CHOICE). -/
def judgeRead (a len : Nat) (r : AccessResult) (f : Finder) (s : State) : Bool × State :=
  let o := ownerFor s r (badLineOf s a len)
  match failedLine s a len with
  | some b => badLine o b (uncEvent b f (memRecord b 3 o.1 f s))
  | none => match r with
    | .corrected => if s.mem.ecc || isFar a then (true, memRecord a 1 0 f (corEvent a s)) else (true, s)
    | .correctedOnReread => if s.mem.ecc || isFar a then (true, memRecord a 2 0 f (corEvent a s)) else (true, s)
    | .uncorrectable _ =>
      if isFar a then
        badLine o a (memRecord a 4 o.1 f (updCxl (Fin.ofNat 4 (whereOf s a)) (fun x => { x with eccunc := satAdd 64 x.eccunc 1 }) s))
      else if s.mem.ecc then badLine o a (uncEvent a f (memRecord a 3 o.1 f s))
      else (true, s)
    | .crcLimit _ => if isFar a then (true, s) else badLine o a (crcEvent a f (memRecord a 5 o.1 f s))
    | .crcRepeated n => (true, if isFar a then s else updChan (channelOf (tierAddr a)) (fun x => { x with crcrep := satAdd 64 x.crcrep n.1 }) s)
    | _ => (true, s)

/-- An access that its CRC makes uncorrectable: a fifth failure at one near burst (R334). -/
def crcFails (r : AccessResult) (a : Nat) : Bool :=
  match r with
  | .crcLimit _ => !isFar a
  | _ => false

end Sys2Proof.Machine
end

