-- ==== Sys2Proof/Machine/Scoops.lean ====
section
/-! DEFINITION. Scoop programs, arming, the transfers they generate, landing slots and the mesh (R216-R226, R231-R234), and
the extent walker (R198-R200, R222). -/

namespace Sys2Proof.Machine

/-! ### Scoop programs (R218) -/

def scNI (l : List Byte) : Nat := cb l 0
def scOut (l : List Byte) : Bool := cb l 1 == 1
def scSpace (l : List Byte) : Nat := cb l 2
def scMode (l : List Byte) : Nat := cb l 3
def scGroup (l : List Byte) : Fin 8 := Fin.ofNat 8 (cb l 4)
/-- The tag that fault reports quote (R218). -/
def scTag (l : List Byte) : Nat := fieldLE l 6 2
def scFlags (l : List Byte) : Nat := cb l 5
def scMcid (l : List Byte) : W64 := BitVec.ofNat 64 (fieldLE l 8 8)
/-- The instructions as 128-bit numbers. -/
def scInstrs (l : List Byte) : List Nat := (List.range (scNI l)).map (fun i => fieldLE l (16 + 16 * i) 16)
def scOp (v : Nat) : Nat := bits v 127 124
def scOps (l : List Byte) (op : Nat) : List Nat := (scInstrs l).filter (fun v => scOp v == op)
def loopLvl (v : Nat) : Nat := bits v 122 120
def loopCount (v : Nat) : Nat := bits v 119 96
def loopS (v : Nat) : Int := twos 48 (bits v 95 48)
def loopD (v : Nat) : Int := twos 24 (bits v 47 24)
def baseIdx (v : Nat) : Nat := bits v 123 122
def baseShift (v : Nat) : Nat := bits v 121 119
def baseDiv3 (v : Nat) : Bool := bit v 118
def baseS (v : Nat) : Nat := bits v 111 64
def baseD (v : Nat) : Nat := bits v 52 32
def xferBase (v : Nat) : Nat := bits v 123 122
def xferLen (v : Nat) : Nat := if bits v 121 114 = 0 then 256 * 64 else bits v 121 114 * 64

/-- The divisor of a base's strided sums (R219). -/
def baseQ (v : Nat) : Nat := (if baseDiv3 v then 3 else 1) * 2 ^ baseShift v

/-- Reserved bits of a scoop instruction that are set, or an undefined code (R218). -/
def scInstrBad (v : Nat) : Bool :=
  match scOp v with
  | 1 => bit v 123 || decide (5 < loopLvl v) || decide (loopCount v = 0) || decide (bits v 23 0 ≠ 0)
  | 2 => decide (bits v 117 112 ≠ 0) || decide (bits v 63 53 ≠ 0) || decide (bits v 31 0 ≠ 0)
  | 3 => decide (bits v 113 0 ≠ 0)
  | 4 => bit v 123 || decide (5 < bits v 122 120) || decide (bits v 119 53 ≠ 0)
  | 5 => bit v 123 || decide (5 < bits v 122 120) || decide (bits v 119 53 ≠ 0) || decide (bits v 31 0 ≠ 0)
  | 6 => decide (bits v 88 0 ≠ 0)
  | 7 => decide (bits v 118 0 ≠ 0)
  | _ => true

/-- Reserved fields and codes of a program: reason 0x09 (R218, R260). -/
def scBad (l : List Byte) : Bool :=
  decide (scNI l = 0 ∨ 32 < scNI l ∨ 1 < cb l 1 ∨ 3 < scSpace l ∨ 3 < scMode l ∨ 7 < cb l 4 ∨ 3 < scFlags l)
  || (scFlags l == 0 && decide (fieldLE l 8 8 ≠ 0)) || (scOut l && scSpace l == 1)
  || (scInstrs l).any scInstrBad

/-- Count of loop level g; a level no LOOP names has 1 (R219). -/
def lvlCount (l : List Byte) (g : Nat) : Nat :=
  (((scOps l 1).find? (fun v => loopLvl v == g)).map loopCount).getD 1
def lvlS (l : List Byte) (g : Nat) : Int := (((scOps l 1).find? (fun v => loopLvl v == g)).map loopS).getD 0
def lvlD (l : List Byte) (g : Nat) : Int := (((scOps l 1).find? (fun v => loopLvl v == g)).map loopD).getD 0

/-- The level a GATHER or COMPACT names. -/
def specialLvl (l : List Byte) : Option Nat := ((scOps l 4 ++ scOps l 5).head?).map (fun v => bits v 122 120)

/-- Counts of the six levels, a compact level counting its snapshot's rows (R221). -/
def counts (r : ScoopRun) : List Nat :=
  (List.range 6).map (fun g =>
    if (scOps r.bytes 5).any (fun v => bits v 122 120 == g) then r.list.length else lvlCount r.bytes g)

/-- How many transfers a program has (R219, R222). -/
def xferTotal (r : ScoopRun) : Nat :=
  if scMode r.bytes = 3 then r.list.length else (counts r).foldl (· * ·) 1 * (scOps r.bytes 3).length

/-- Counters i0-i5 of iteration k. -/
def iters : List Nat → Nat → List Nat
  | [], _ => []
  | n :: r, k => k % n :: iters r (k / n)

/-- The source counter at a level: the gather index or the compacted row's place in the source (R220, R221). None is an index
0xFFFFFFFF (zeros), an index out of range faults. -/
inductive SrcIdx where
  | at_ (i : Nat)
  | zeros
  | bad
deriving DecidableEq, Repr, Inhabited

def srcIdx (ws : SMap Byte) (r : ScoopRun) (g i : Nat) : SrcIdx :=
  match (scOps r.bytes 4).find? (fun v => bits v 122 120 == g) with
  | some v =>
    let x := wsRd ws (bits v 52 32 + 4 * i) 4
    if x = 0xFFFFFFFF then .zeros else if bits v 31 0 ≤ x then .bad else .at_ x
  | none =>
    if (scOps r.bytes 5).any (fun v => bits v 122 120 == g) then .at_ ((r.list.getD i {}).far) else .at_ i

/-- Transfer k of a program (R219): none past the end. `zero` marks a gathered row of zeros, `bad` a gather index out of range
or a far-side address below 0, which no window holds (R239). -/
structure XferGen where
  x    : Xfer := {}
  zero : Bool := false
  bad  : Bool := false
deriving DecidableEq, Repr, Inhabited

def xferAt (ws : SMap Byte) (r : ScoopRun) (k : Nat) : Option XferGen :=
  if xferTotal r ≤ k then none
  else if scMode r.bytes = 3 then (r.list[k]?).map (fun x => { x })
  else
    let xs := scOps r.bytes 3
    let v := xs.getD (k % xs.length) 0
    let b := ((scOps r.bytes 2).find? (fun w => baseIdx w == xferBase v)).getD 0
    let is_ := iters (counts r) (k / xs.length)
    let js := is_.zipIdx.map (fun (i, g) => srcIdx ws r g i)
    let q : Int := baseQ b
    let sumS : Int := (js.zipIdx.map (fun (j, g) => match j with
      | .at_ i => (i : Int) * lvlS r.bytes g
      | _ => 0)).sum
    let sumD : Int := (is_.zipIdx.map (fun (i, g) => (i : Int) * lvlD r.bytes g)).sum
    let ovr := if xferBase v = 0 then r.ovr else none
    let sb : Nat := match ovr with
      | some o => o.1.toNat
      | none => baseS b
    let db : Nat := match ovr with
      | some o => o.2.toNat
      | none => baseD b
    let far := (sb : Int) + sumS / q
    some { x := { far := far.toNat, ws := ((db : Int) + sumD / q).toNat, len := xferLen v }
           zero := js.contains .zeros, bad := js.contains .bad || (decide (far < 0) && !js.contains .zeros) }

/-! ### The extent walker (R198-R200, R222) -/

/-- The model of a task: that of its first entry's request, or on a follower, which holds no requests, the first
of the partition's cost table (R391; log 42, DEDUCED). -/
def taskModelOf (s : State) (p : PartId) (t : Task) : Option ModelCfg :=
  let x := s.part p
  let mine := (t.entries.head?.bind (fun e =>
    x.reqs.find? (fun r => r.rid == e.rid))).map (fun r => r.desc.model.toNat)
  let cost := (x.section_.bind (fun cfg => cfg.wstok.head?)).map Prod.fst
  (match mine with
    | some m => some m
    | none => cost).bind (fun i => s.img.models.find? (fun m => m.idx == i))

/-- The model of the task that a partition runs. -/
def taskModel (s : State) (p : PartId) : Option ModelCfg := taskModelOf s p ((s.part p).task.getD {})

/-- Keeper heads of a layer (R189). -/
def keeperHeads (m : ModelCfg) (layer : Nat) : List Nat :=
  ((m.keepers.find? (fun k => k.1 == layer)).map (fun k => k.2.2.2)).getD []

/-- Index of this device in its layout group: its coordinate on the axis that the model names (R196). -/
def layoutIndex (s : State) (m : ModelCfg) : Nat := ((s.img.dev.axes[m.axis]?).map (fun a => a.2.2)).getD 0 % Nat.max 1 m.group

/-- Key-value heads a device holds: all of them, or its share under L2 (R196). -/
def heldHeads (s : State) (m : ModelCfg) : List Nat :=
  if m.layout = 2 then
    let n := m.heads / Nat.max 1 m.group
    (List.range n).map (fun h => layoutIndex s m * n + h)
  else List.range m.heads

/-- Keeper heads of a layer that this device holds, ascending (R189, R196). -/
def heldKeepers (s : State) (m : ModelCfg) (layer : Nat) : List Nat := (keeperHeads m layer).filter (heldHeads s m).contains

/-- How many of a sequence's first n positions this device holds: all of them, or under L3 those of chunks i and 2G - 1 - i (R181,
R196). It is also the local number of position n where the device holds it. -/
def localPos (s : State) (m : ModelCfg) (n : Nat) : Nat :=
  let i := layoutIndex s m
  if m.layout = 3 then Nat.min m.chunk (n - i * m.chunk) + Nat.min m.chunk (n - (2 * Nat.max 1 m.group - 1 - i) * m.chunk) else n

/-- This device holds a position (R196). -/
def holdsPos (s : State) (m : ModelCfg) (n : Nat) : Bool := decide (localPos s m n < localPos s m (n + 1))

/-- A lengths-table entry as this device sees it: it covers its own positions only (R196, R317). -/
def localEntry (s : State) (m : ModelCfg) (e : LenEntry) : LenEntry :=
  let lo := localPos s m e.qpos.toNat
  { e with qpos := BitVec.ofNat 32 lo, qlen := BitVec.ofNat 32 (localPos s m (e.qpos.toNat + e.qlen.toNat) - lo) }

/-- Bytes of a layer within a block group (R198). -/
def layerBytes (s : State) (m : ModelCfg) (keep : Bool) (layer : Nat) : Nat :=
  let kc := (heldHeads s m).filter (fun h => !(keeperHeads m layer).contains h)
  kc.length * kcBlockSize m.form + (if keep then (heldKeepers s m layer).length * 32768 else 0)

/-- Bytes of a block group (R198). -/
def groupBytes (s : State) (m : ModelCfg) (keep : Bool) : Nat := ((List.range m.layers).map (layerBytes s m keep)).sum

/-- Offset of a head's block within a group (R198). -/
def headOffset (s : State) (m : ModelCfg) (keep : Bool) (layer head : Nat) : Nat :=
  let base := ((List.range layer).map (layerBytes s m keep)).sum
  let kc := (heldHeads s m).filter (fun h => !(keeperHeads m layer).contains h)
  if (keeperHeads m layer).contains head then
    base + kc.length * kcBlockSize m.form + ((heldKeepers s m layer).idxOf head) * 32768
  else base + (kc.idxOf head) * kcBlockSize m.form

/-- The extent that covers a block group, with the group's place in it (R198). -/
def extentAt : List Extent → Nat → Option (Extent × Nat)
  | [], _ => none
  | e :: r, g => if g < e.len.toNat then some (e, g) else extentAt r (g - e.len.toNat)

/-- The current copy of a table. -/
def XTable.current (t : XTable) : List Extent := if t.cur then t.copyB else t.copyA

/-- The prefix regions that a table's extents lie in. -/
def sharedRegions (t : XTable) : List Nat := (t.current.filter (fun e => bit e.flags.toNat 0)).map (fun e => e.region.toNat)

/-- Address and extent of a block group. -/
def groupAddr (s : State) (m : ModelCfg) (t : XTable) (g : Nat) : Option (Extent × Nat) :=
  (extentAt t.current g).map (fun (e, i) => (e, e.base.toNat + i * groupBytes s m (bit e.flags.toNat 1)))

/-- FMT code of a cache form (R197). -/
def extFmt (form : Nat) : Byte := if form = 0x10 then 1 else 2

/-- Budget B and new positions Q_max of a layer's keeper stores; their slots c are the sum (R189, R190). -/
def keeperBudget (m : ModelCfg) (layer : Nat) : Nat × Nat :=
  match m.keepers.find? (fun k => k.1 == layer) with
  | some k => (k.2.1, k.2.2.1)
  | none => (0, 0)
def keeperCap (m : ModelCfg) (layer : Nat) : Nat := (keeperBudget m layer).1 + (keeperBudget m layer).2

/-- Address of the keeper store of a layer's head: stores follow in layer and keeper-head order (R190, R197). -/
def keeperStore (s : State) (m : ModelCfg) (t : XTable) (layer head : Nat) : Nat :=
  let before := ((m.keepers.filter (fun k => k.1 < layer)).map (fun k => (heldKeepers s m k.1).length * (k.2.1 + k.2.2.1) * 520)).sum
  t.keepbase.toNat + before + ((heldKeepers s m layer).idxOf head) * keeperCap m layer * 520

/-- Positions that a table takes from the shared prefix (R190, R197). -/
def sharedPos (t : XTable) : Nat := (((t.current.filter (fun x => bit x.flags.toNat 0)).map (fun x => x.len.toNat)).sum) * 64

/-- Occupied slots of a keeper store before a task's new positions: those that the skimmer left, and before its first run at most B of the positions
that the sequence wrote itself (R190, R191, R194). -/
def heldSlots (m : ModelCfg) (t : XTable) (layer head qpos : Nat) : Nat :=
  match t.slots.find? (fun x => x.1 == layer && x.2.1 == head) with
  | some x => x.2.2
  | none => Nat.min (keeperBudget m layer).1 (qpos - sharedPos t)

/-- Address of slot `i`'s record in a store: position, then score (R190). -/
def slotRec (m : ModelCfg) (layer store i : Nat) : Nat := store + keeperCap m layer * 512 + 8 * i

/-- The walk of one entry, or none where the walker faults (R199, R222). -/
def walkEntry (s : State) (m : ModelCfg) (t : XTable) (e : LenEntry) (out : Bool) (layer head0 nhead part : Nat) (newOnly : Bool) :
    Option (List (Nat × Nat)) :=
  let stop := (e.qpos.toNat + e.qlen.toNat + 63) / 64
  let start := if newOnly || out then e.qpos.toNat / 64 else 0
  let heads := (List.range nhead).map (· + head0)
  if part = 3 then
    -- new positions only: the slots from the last retained one on, and no shared group (R190, R191, R222)
    let new := newOnly || out
    let cap := keeperCap m layer
    let old (h : Nat) : Nat := heldSlots m t layer h e.qpos.toNat
    let gs := if new then [] else List.range (sharedPos t / 64)
    if gs.any (fun g => match groupAddr s m t g with
      | none => true
      | some (x, _) => x.fmt != extFmt m.form || !bit x.flags.toNat 1) || heads.any (fun h => decide (cap < old h + e.qlen.toNat)) then none
    else
      some (gs.flatMap (fun g => match groupAddr s m t g with
          | some (x, a) => heads.flatMap (fun h =>
              let o := a + headOffset s m (bit x.flags.toNat 1) layer h; [(o, 16384), (o + 16384, 16384)])
          | none => [])
        ++ (List.range ((cap + 63) / 64)).flatMap (fun i => heads.flatMap (fun h =>
            let first := if new then old h else 0
            let a := first + 64 * i
            let k := Nat.min 64 (old h + e.qlen.toNat - a) * 256
            let store := keeperStore s m t layer h
            if k = 0 then [] else [(store + a * 256, k), (store + cap * 256 + a * 256, k)])))
  else
    let gs := (List.range (stop - start)).map (· + start)
    if gs.any (fun g => match groupAddr s m t g with
      | none => true
      | some (x, _) => x.fmt != extFmt m.form || (out && (bit x.flags.toNat 0 || bit x.base.toNat 63))) then none
    else
      some (gs.flatMap (fun g => match groupAddr s m t g with
        | none => []
        | some (x, a) => heads.flatMap (fun h =>
            let o := a + headOffset s m (bit x.flags.toNat 1) layer h
            (if part = 0 ∨ part = 2 then [(o, kcKeyHalf m.form)] else [])
            ++ (if part = 1 ∨ part = 2 then [(o + kcKeyHalf m.form, kcValHalf m.form)] else []))))

/-- Lay out the transfers of a walk densely from a working-store address. -/
def placeWalk : List (Nat × Nat) → Nat → List Xfer
  | [], _ => []
  | (a, n) :: r, w => { far := a, ws := w, len := n } :: placeWalk r (w + n)

/-- The snapshot a walker takes now: the tables that the task's entries name, and its lengths entries (R200). -/
def snapNow (s : State) (p : PartId) : WalkSnap :=
  let lens := (((s.part p).task.map Task.entries).getD []).map TEntry.len
  { tabs := (s.part p).xtabs.filter (fun t => lens.any (fun e => e.xtab.toNat == t.idx)), lens }

/-- The walk of one lengths entry of a snapshot: a cancelled entry whose table has gone visits nothing (R222; log 189, DEDUCED). -/
def walkOf (s : State) (k : WalkSnap) (m : ModelCfg) (l : List Byte) (v : Nat) (e : LenEntry) : Option (List (Nat × Nat)) :=
  match k.tabs.find? (fun x => x.idx == e.xtab.toNat) with
  | some x => walkEntry s m x e (scOut l) (bits v 123 108) (bits v 107 100) (bits v 99 92) (bits v 91 90) (bit v 89)
  | none => if bit e.flags.toNat 0 then some [] else none

/-- The walk of a snapshot (R200, R222): none where the walker faults. -/
def walkList (s : State) (p : PartId) (k : WalkSnap) (l : List Byte) (db : Nat) : Option (List Xfer) :=
  match taskModel s p, (scOps l 6).head? with
  | some m, some v =>
    (k.lens.mapM (walkOf s k m l v)).map (fun ls => placeWalk (ls.flatMap id) db)
  | _, _ => none

/-- Source rows that a COMPACT snapshot keeps, in order (R221). -/
def compactRows : List LRow → Nat → List Xfer
  | [], _ => []
  | e :: r, o => (if e.cancelled then [] else (List.range e.qlen).map (fun j => { far := o + j })) ++ compactRows r (o + e.qlen)

/-! ### Arming (R219, R223) -/

/-- Least and one past the greatest working-store address of a strided program's transfers (R219). -/
def dstRange (r : ScoopRun) (v : Nat) : Int × Int :=
  let b := ((scOps r.bytes 2).find? (fun w => baseIdx w == xferBase v)).getD 0
  let ovr := if xferBase v = 0 then r.ovr else none
  let db : Int := match ovr with
    | some o => o.2.toNat
    | none => baseD b
  let spans := (counts r).zipIdx.map (fun (n, g) => ((n - 1 : Nat) : Int) * lvlD r.bytes g)
  (db + (spans.map (fun d => min d 0)).sum / (baseQ b : Int), db + (spans.map (fun d => max d 0)).sum / (baseQ b : Int) + xferLen v)

/-- The arm failures of R219: reason 0x05. -/
def armBad (r : ScoopRun) : Bool :=
  let l := r.bytes
  let lvls := (scOps l 1).map loopLvl
  let used := (scOps l 2).filter (fun b => (scOps l 3).any (fun x => xferBase x == baseIdx b))
  decide (¬ lvls.Nodup)
  || decide (1 < (scOps l 4).length + (scOps l 5).length + (scOps l 6).length)
  || (scOps l 1).any (fun v => used.any (fun b =>
      decide (loopS v % (64 * baseQ b : Nat) ≠ 0) || decide (loopD v % (64 * baseQ b : Nat) ≠ 0)))
  || (if scMode l = 3 then r.list.any (fun x => decide (wsSize < x.ws + x.len))
      else (scOps l 3).any (fun v => decide ((dstRange r v).1 < 0 ∨ (wsSize : Int) < (dstRange r v).2)))

/-- Every transfer of the unit's active program has landed, or been acknowledged (R223). -/
def activeDone (u : Scoop) : Bool :=
  match u.active with
  | none => true
  | some r => decide (r.total ≤ r.issued) && u.landing.all (fun l => !l.out && l.landed)

/-- The shadow becomes active once the active program's last transfer has landed (R223). -/
def rotateScoop (u : Scoop) : Scoop :=
  if u.active.isSome && activeDone u then { u with active := u.shadow, shadow := none } else u

/-- A program enters a unit whose finished program has made way (R223): whether it replaced a shadow. -/
def enterScoop (r : ScoopRun) (u : Scoop) : Scoop × Bool :=
  if u.active.isNone then ({ u with active := some r }, false)
  else if u.shadow.isNone then ({ u with shadow := some r }, false)
  else ({ u with shadow := some r, ovw := true, ovwcnt := Nat.min 0xFFFF (u.ovwcnt + 1) }, true)

def updScoop (c : CoreId) (u : UnitId) (f : Scoop → Scoop) (s : State) : State :=
  updCore c (fun x => { x with su := x.su.set u.1 (f (x.su[u.1]'u.2)) u.2 }) s

def scoopOf (s : State) (c : CoreId) (u : UnitId) : Scoop := (s.core c).su[u.1]'u.2

/-! ### Snapshots at the start of a tile group (R200, R221) -/

/-- The engine that a unit serves is in an attention sweep (R171, R216). -/
def inSweep (x : Core) (u : UnitId) : Bool :=
  if h : u.1 < 4 then (match (x.eng[u.1]'h).sweep with
    | some w => w.begun && !w.done
    | none => false)
  else false

/-- The snapshot of a unit's tile group: the one it holds until its engine has issued its MM, or while that engine's sweep goes on, else one taken
now. SU4 takes one for each program (R171, R200, R221; log 163, DESIGN CHOICE). -/
def snapFor (s : State) (p : PartId) (c : CoreId) (u : UnitId) : WalkSnap :=
  match (scoopOf s c u).snap with
  | some k => if u.1 < 4 ∧ (!k.used || inSweep (s.core c) u) = true then k else snapNow s p
  | none => snapNow s p

/-- The working-store address of base 0 of a program. -/
def baseWS (r : ScoopRun) : Nat :=
  match r.ovr with
  | some o => o.2.toNat
  | none => (((scOps r.bytes 2).find? (fun b => baseIdx b == 0)).map baseD).getD 0

/-- The rows that a COMPACT keeps in a tile group, with the snapshot that holds them: none where the lengths table is out of order (R168,
R221). -/
def compactSnap (s : State) (p : PartId) (c : CoreId) (k : WalkSnap) (laddr : Nat) : Option (List Xfer × WalkSnap) :=
  match k.rows.find? (fun x => x.1 == laddr) with
  | some x => some (x.2, k)
  | none =>
    let tab := ltable (s.core c).ws laddr (((s.part p).task.map (fun t => t.entries.length)).getD 0)
    if !segsAscend tab then none else some (compactRows tab 0, { k with rows := (laddr, compactRows tab 0) :: k.rows })

/-- A program with its snapshots, and what its unit then holds (R200, R221, R222): none where the walker or the lengths table faults. -/
def snapRun (s : State) (p : PartId) (c : CoreId) (u : UnitId) (r : ScoopRun) : Option (ScoopRun × Option WalkSnap) :=
  let l := r.bytes
  match scMode l, (scOps l 5).head? with
  | 3, _ =>
    let k := snapFor s p c u
    (walkList s p k l (baseWS r)).map (fun xs =>
      let r := { r with list := xs, snaps := k.tabs.flatMap (fun (t : XTable) => (t.idx, t.gen) :: t.src.toList), regions := k.tabs.flatMap sharedRegions }
      ({ r with total := xferTotal r }, some k))
  | _, some v =>
    (compactSnap s p c (snapFor s p c u) (bits v 52 32)).map (fun (xs, k) =>
      let r := { r with list := xs }
      ({ r with total := xferTotal r }, some k))
  | _, none => some ({ r with total := xferTotal r }, (scoopOf s c u).snap)

/-- Rotate a unit whose active program has landed all it has: the shadow becomes active, and takes its snapshots then (R200, R221,
R223). -/
def rotateUnit (c : CoreId) (u : UnitId) (s : State) : State :=
  let su := scoopOf s c u
  if !(su.active.isSome && activeDone su) then s
  else match su.shadow, partOfCore s c.1 with
    | some r, some p =>
      (match snapRun s p c u r with
        | none => scoopFault c u (scTag r.bytes) s
        | some (r', k) =>
          if armBad r' then illegalOf c 0x05 r.pc (scTag r.bytes) s
          else updScoop c u (fun x => { x with active := some r', shadow := none, snap := k }) s)
    | _, _ => updScoop c u rotateScoop s

/-! ### The mesh (R15, R226) -/

/-- A core may be sent to: it belongs to the partition and its core group is powered (R29, R239). -/
def coreReachable (s : State) (p : PartId) (c : Nat) : Bool :=
  (coresOf s p).any (fun d => d.1 == c) && (groupsPowered s).contains (groupOf c)

/-- The scoop program may receive a packet: its direction, its FLAGS and its MCID; a peer send or a delivered piece also comes from the
program's far side (R217, R226, R287). -/
def receives (r : ScoopRun) (k : Packet) : Bool :=
  !scOut r.bytes && bit (scFlags r.bytes) (if k.mc then 0 else 1) && scMcid r.bytes == k.mcid
  && (k.mc || scSpace r.bytes == (if 0x100 ≤ k.src then 3 else 2))

/-- Landing slots that a unit's stream fills (R233). -/
def streamSlots (su : Scoop) (id : W64) : Nat := su.landing.countP (fun l => l.mc && l.mcid == id)

/-- The unit of a core that receives a packet now (R226, R233): an IN program armed for it, with a landing slot free; a stream takes four at
most. -/
def receiver (x : Core) (k : Packet) : Option UnitId :=
  (List.finRange 5).find? (fun u =>
    let su := x.su[u.1]'u.2
    match su.active with
    | none => false
    | some r => receives r k && decide (r.issued < r.total) && decide (su.landing.length < 6) && (!k.mc || decide (streamSlots su k.mcid < 4)))

/-- Two packets go one way: from one source to one core, in order (R15). The sources of two streams are told apart by the stream. -/
def sameWay (a b : Packet) : Bool := a.dst == b.dst && a.src == b.src && (a.src != 0xFFFF || a.mcid == b.mcid)

/-- Where a packet goes now: a scoop unit of its core, or straight to the core's store (R217, R226); none where it waits. -/
def landsAt (s : State) (k : Packet) : Option (Option UnitId) :=
  if k.direct.isSome then some none else (receiver (s.core (cid k.dst)) k).map some

/-- The oldest packet that can land now, with where it lands and the mesh without it: none may pass an earlier one of its way
(R15, R226). `seen` holds the packets in front of the list, newest first. -/
def readyPacket (s : State) : List Packet → List Packet → Option (Packet × Option UnitId × List Packet)
  | _, [] => none
  | seen, k :: r =>
    if seen.any (sameWay k) then readyPacket s (k :: seen) r
    else match landsAt s k with
      | some u => some (k, u, seen.reverse ++ r)
      | none => readyPacket s (k :: seen) r

/-- A packet enters a landing slot of its unit (R226). -/
def landPacket (k : Packet) (u : UnitId) (s : State) : State :=
  let c := cid k.dst
  updScoop c u (fun su => match su.active with
    | none => su
    | some r =>
      { su with
        active := some { r with issued := r.issued + 1 }
        landing := su.landing ++ [{ dst := ((xferAt (s.core c).ws r r.issued).map (fun g => g.x.ws)).getD 0, len := k.data.length
                                    data := k.data, landed := true, peer := !k.mc, mc := k.mc, mcid := k.mcid, block := k.block }] }) s

/-- A packet reaches its core: a unit's landing slot, or the writes that wait for the core's next fill phase (R217, R226). -/
def arrive (k : Packet) (u : Option UnitId) (s : State) : State :=
  match u with
  | some u => rotateUnit (cid k.dst) u (landPacket k u s)
  | none => updCore (cid k.dst) (fun x => { x with peerIn := x.peerIn ++ [(k.direct.getD 0, k.data)] }) s

/-- The last packet of a DELIVER has left the mesh: the operation's write has finished (R286, R287). -/
def settleDeliver (p : PartId) (k : Packet) (s : State) : State :=
  match k.deliv with
  | some (port, slot, rep) => if (s.part p).mesh.any (fun q => q.deliv == k.deliv) then s else deliverDone p port slot rep s
  | none => s

/-- Deliver one packet, or leave all in the mesh (R226). -/
def deliver (p : PartId) (s : State) : State :=
  match readyPacket s [] (s.part p).mesh with
  | none => s
  | some (k, u, rest) => settleDeliver p k (arrive k u (updPart p (fun x => { x with mesh := rest }) s))

/-- Offer every waiting packet to its receiver again, in order (R15, R226). -/
def meshPump (p : PartId) (s : State) : State := forAll (List.range (s.part p).mesh.length) (fun _ => deliver p) s

/-- Packets enter the mesh (R15, R18). -/
def toMesh (p : PartId) (ks : List Packet) (s : State) : State :=
  meshPump p (updPart p (fun x => { x with
    mesh := x.mesh ++ ks.map (fun k => { k with serial := x.meshSent })
    meshSent := x.meshSent + 1 }) s)

/-- Send a packet to cores of the partition; a destination outside it or powered down is a transfer fault (R239, R442). -/
def meshSend (p : PartId) (src : CoreId) (cores : List Nat) (mc : Bool) (id : W64) (block : Nat) (data : List Byte) (s : State) : State :=
  if cores.any (fun c => !coreReachable s p c) then transferFault src s
  else toMesh p (cores.map (fun c => { src := src.1, dst := c, mc, mcid := id, block, data })) s

/-! ### Placing a program -/

/-- The scoop program at a descriptor-store offset: its header and instructions (R218). -/
def scBytes (d : SMap Byte) (off : Nat) : List Byte := rdBytes d off (16 + 16 * Nat.min 32 (rd8 d off).toNat)

/-- The override of base 0 of a program, whose working-store side a TRAY gives (R218; log 27, DEDUCED). -/
def trayOvr (x : Core) (r : ScoopRun) : Option (W64 × W64) :=
  match (scOps r.bytes 7).head? with
  | none => r.ovr
  | some v =>
    let h := (x.getH (Fin.ofNat 16 (bits v 123 120))).toNat
    let sb : W64 := match r.ovr with
      | some o => o.1
      | none => BitVec.ofNat 64 ((((scOps r.bytes 2).find? (fun b => baseIdx b == 0)).map baseS).getD 0)
    some (sb, BitVec.ofNat 64 (bits h 40 20))

/-- A program enters its slot; a replaced shadow is counted (R223, R456). `k` is the snapshot that it took as it became active. -/
def placeProgram (c : CoreId) (u : UnitId) (p : PartId) (r : ScoopRun) (k : Option WalkSnap) (s : State) : State :=
  let su := scoopOf s c u
  let e := enterScoop r su
  meshPump p (whenS e.2 (updPart p (fun x => { x with ovwtot := satAdd 64 x.ovwtot 1 }))
    (updScoop c u (fun _ => { e.1 with snap := if su.active.isNone then k else su.snap }) s))

/-- Place a program in a unit, with its snapshots (R200, R218-R223): an illegal instruction where the arm fails. A program whose transfers
have landed makes way first; one in the shadow slot takes its snapshots anew as it becomes active. -/
def armUnit (c : CoreId) (u : UnitId) (r : ScoopRun) (pc : Nat) (s : State) : State :=
  let tag := scTag r.bytes
  if scBad r.bytes then illegalOf c 0x09 pc tag s
  else
    let s := rotateUnit c u s
    match partOfCore s c.1, (s.core c).running with
    | some p, true =>
      (match snapRun s p c u { r with ovr := trayOvr (s.core c) r, pc } with
        | none => scoopFault c u tag s
        | some (r, k) => if armBad r then illegalOf c 0x05 pc tag s else placeProgram c u p r k s)
    | _, _ => s

end Sys2Proof.Machine
end

