-- ==== Sys2Proof/Machine/Keeper.lean ====
section
/-! DEFINITION. The skimmer: the scores of a keeper store's slots after a task, eviction and compaction (R189-R194). -/

namespace Sys2Proof.Machine

/-- The ring of a model's sequences, seen from this device: index, size, chunk length; none but under L3 (R181, R196). -/
def ringOf (s : State) (m : ModelCfg) : Option (Nat × Nat × Nat) :=
  if m.layout = 3 then some (layoutIndex s m, Nat.max 1 m.group, m.chunk) else none

/-- The position in its sequence of a position this device holds (R181, R196). -/
def globalPos (s : State) (m : ModelCfg) (n : Nat) : Nat :=
  match ringOf s m with
  | none => n
  | some (i, g, c) => if n < c then i * c + n else (2 * g - 1 - i) * c + (n - c)

/-- An occupied slot of a keeper store: its place before the update, its position, its score (R190). -/
structure KSlot where
  idx   : Nat := 0
  pos   : Nat := 0
  score : W32 := 0
deriving DecidableEq, Repr, Inhabited

/-- A score decayed `n` times by 0.9375 (R193). -/
def decayed : Nat → W32 → W32
  | 0, w => w
  | n + 1, w => decayed n (fMul w 0x3F700000).1

/-- A slot's score after a task of `qlen` new positions: decayed once for each block of 128, and its contribution added (R193). -/
def newScore (qlen : Nat) (contribution score : W32) : W32 := (fAdd (decayed ((qlen + 127) / 128) score) contribution).1

/-- A position that is never evicted (R194). -/
def protectedPos (stop pos : Nat) : Bool := decide (pos < 64) || decide (stop ≤ pos + 512)

/-- The slot to evict: the lowest score among the unprotected ones, of equal scores the lower position (R194). -/
def victim (stop : Nat) (l : List KSlot) : Option KSlot :=
  (l.filter (fun k => !protectedPos stop k.pos)).foldl (fun a k => match a with
    | none => some k
    | some v => if fLt k.score v.score || (fEq k.score v.score && decide (k.pos < v.pos)) then some k else some v) none

/-- Evict `n` slots (R194). -/
def evicted (stop : Nat) : Nat → List KSlot → List KSlot
  | 0, l => l
  | n + 1, l => match victim stop l with
    | none => l
    | some v => evicted stop n (l.filter (fun k => k.idx != v.idx))

/-- The first n slots of a store (R190). -/
def storeSlots (s : State) (m : ModelCfg) (layer store n : Nat) : List KSlot :=
  (List.range n).map (fun i =>
    let l := tierRead s (slotRec m layer store i) 8
    { idx := i, pos := fieldLE l 0 4, score := BitVec.ofNat 32 (fieldLE l 4 4) })

/-- The slots of a store when its layer has run: those retained, then the new positions from +0 (R190, R193). -/
def taskSlots (s : State) (m : ModelCfg) (layer store kept : Nat) (e : LenEntry) : List KSlot :=
  storeSlots s m layer store kept ++ (List.range e.qlen.toNat).map (fun j => { idx := kept + j, pos := e.qpos.toNat + j })

/-- Write a store compacted: keys, values and records of the slots that remain, in ascending position (R190, R194). -/
def putSlots (m : ModelCfg) (layer store : Nat) (l : List KSlot) (s : State) : State :=
  let cap := keeperCap m layer
  let old := l.map (fun k => (tierRead s (store + 256 * k.idx) 256, tierRead s (store + 256 * (cap + k.idx)) 256, k))
  old.zipIdx.foldl (fun s ((key, val, k), i) =>
    tierWrite (slotRec m layer store i) (leBytes 4 k.pos ++ leBytes 4 k.score.toNat)
      (tierWrite (store + 256 * (cap + i)) val (tierWrite (store + 256 * i) key s))) s

/-- Put a value in a list kept in ascending order of its key. -/
def insertAsc (k : Nat) (v : W32) : List (Nat × W32) → List (Nat × W32)
  | [] => [(k, v)]
  | x :: r => if k < x.1 then (k, v) :: x :: r else x :: insertAsc k v r

/-- The FP32 sum of values in ascending order of their keys. -/
def sumAsc (l : List (Nat × W32)) : W32 :=
  (l.foldl (fun a x => insertAsc x.1 x.2 a) []).foldl (fun a x => (fAdd a x.2).1) 0

/-- A sequence's contribution for a key of a keeper head: the column results of the skim passes over its query tiles, summed over the query
heads of the group in ascending index, then over the query tiles (R192). -/
def contribution (l : List SkimCol) (pos : Nat) : W32 :=
  let vs := l.filterMap (fun k => ((k.keys.idxOf? pos).bind (fun n => k.cols[n]?)).map (fun v => (k.qtile, k.qhead, v)))
  sumAsc ((vs.map Prod.fst).eraseDups.map (fun t => (t, sumAsc ((vs.filter (fun v => v.1 == t)).map Prod.snd))))

/-- The skim results of a task for an entry, a layer and a keeper head (R192). -/
def skimCols (s : State) (p : PartId) (m : ModelCfg) (entry layer head : Nat) : List SkimCol :=
  ((coresOf s p).flatMap (fun c => (s.core c).skims)).filter (fun k =>
    k.entry == entry && k.layer == layer && (heldKeepers s m layer).getD k.khead 0 == head)

/-- Compact a table's keeper store to the slots given, and count them (R190, R194). -/
def setSlots (p : PartId) (m : ModelCfg) (t : XTable) (layer head : Nat) (l : List KSlot) (s : State) : State :=
  updPart p (fun x => { x with
    xtabs := mapIf (fun u => u.idx == t.idx)
      (fun u => { u with slots := (layer, head, l.length) :: u.slots.filter (fun z => z.1 != layer || z.2.1 != head) }) x.xtabs })
    (putSlots m layer (keeperStore s m t layer head) l s)

/-- The skimmer's update of one keeper store (R193, R194). -/
def skimStore (p : PartId) (m : ModelCfg) (entry : Nat) (t : XTable) (e : LenEntry) (layer head : Nat) (s : State) : State :=
  let b := (keeperBudget m layer).1
  let store := keeperStore s m t layer head
  let cols := skimCols s p m entry layer head
  let l := (taskSlots s m layer store (heldSlots m t layer head e.qpos.toNat) e).map (fun k =>
    { k with score := newScore e.qlen.toNat (contribution cols (globalPos s m k.pos)) k.score })
  setSlots p m t layer head (evicted (e.qpos.toNat + e.qlen.toNat) (l.length - b) l) s

/-- Positions that have become shared leave the keeper stores of a table, which hold only those that the sequence keeps itself (R190, R210; log 185,
DEDUCED). -/
def compactKeepers (p : PartId) (m : ModelCfg) (t : XTable) (shared : Nat) (s : State) : State :=
  forAll (m.keepers.map Prod.fst) (fun layer s =>
    forAll (heldKeepers s m layer) (fun h s =>
      setSlots p m t layer h ((storeSlots s m layer (keeperStore s m t layer h) (heldSlots m t layer h t.length)).filter (fun k => decide (shared ≤ k.pos))) s) s) s

/-- The skimmer's updates at the end of a task, for every entry whose rows ran, layer and keeper head this device holds (R192-R194; log 150,
DEDUCED). -/
def skimTask (p : PartId) (t : Task) (s : State) : State :=
  match taskModel s p with
  | none => s
  | some m =>
    forAll t.entries.zipIdx (fun (e, i) s =>
      match (s.part p).xtabs.find? (fun x => x.idx == e.len.xtab.toNat) with
      | none => s
      | some x =>
        if bit e.len.flags.toNat 0 then s
        else forAll (m.keepers.map Prod.fst) (fun layer s =>
          forAll (heldKeepers s m layer) (fun h s => skimStore p m i x e.len layer h s) s) s) s

end Sys2Proof.Machine
end

