-- ==== Sys2Proof/Machine/Specials.lean ====
section
/-! DEFINITION. Special functions (R134-R136): their special values and thresholds, and between them a free value held to the error
bound and the monotonicity of the table. The reference values are fractions correct to more than 200 bits. -/

namespace Sys2Proof.Machine

/-! ### Reference values -/

/-- The unit of the fixed-point references. -/
def fxOne : Nat := 2 ^ 400
/-- ln 2, pi / 2 and 2 / sqrt pi in units of 2^-400. -/
def fxLn2 : Nat :=
  1789879222497203190815761498240779176894896805856420935579692301363062920687047601279850318367644315849030039181347319086
def fxHalfPi : Nat :=
  4056188623365485619431135675650447259580575800089632601795595518807615452686995249372761680463408407713783389863663788118
def fxErf : Nat :=
  2913756966668194800300214067270034030186276855045544562015353861004409627435460814446341471088463227900768995815277951550

/-- An FP32 magnitude pattern in units of 2^-400. -/
def fxOf (c : Nat) : Nat := let (m, e) := codeVal 23 (-149) c; m * 2 ^ (e + 400).toNat

/-- Terms of a power series from term `t` on, each the one before times y and over its place; `n` counts up, `k` is fuel. -/
def expTerms (y : Nat) : Nat → Nat → Nat → Nat
  | 0, _, _ => 0
  | k + 1, n, t => t + expTerms y k (n + 1) (t * y / fxOne / n)

/-- 2^f for f in [0, 1). -/
def fxExp2 (f : Nat) : Nat := expTerms (f * fxLn2 / fxOne) 80 1 fxOne

/-- 2^x for x ≥ 0 in units of 2^-400. -/
def fxPow2 (x : Nat) : Nat := 2 ^ (x / fxOne) * fxExp2 (x % fxOne)

/-- e^x for x ≥ 0. -/
def fxExp (x : Nat) : Nat := fxPow2 (x * fxOne / fxLn2)

/-- Terms z^n / n of odd n from `z` on. -/
def artanhTerms (z2 : Nat) : Nat → Nat → Nat → Nat
  | 0, _, _ => 0
  | k + 1, n, z => z / n + artanhTerms z2 k (n + 2) (z * z2 / fxOne)

/-- ln((1 + z) / (1 - z)) for z = a / b at most 1/3. -/
def fxArtanh (a b : Nat) : Nat := let z := a * fxOne / b; 2 * artanhTerms (z * z / fxOne) 128 1 z

/-- Alternating terms of the sine and cosine series, from a first term and place. -/
def trigTerms (r2 : Int) : Nat → Nat → Int → Int
  | 0, _, _ => 0
  | k + 1, n, t => t + trigTerms r2 k (n + 2) (-(t * r2 / (fxOne : Int) / ((n : Int) * (n + 1))))

def fxSin (r : Int) : Int := trigTerms (r * r / (fxOne : Int)) 60 2 r
def fxCos (r : Int) : Int := trigTerms (r * r / (fxOne : Int)) 60 1 fxOne

/-- sin x of a magnitude: quadrant and remainder of x over pi / 2 (R134). -/
def fxSinOf (c quarter : Nat) : Int :=
  let x := fxOf c
  let q := (2 * x + fxHalfPi) / (2 * fxHalfPi)
  let r : Int := (x : Int) - (q * fxHalfPi : Nat)
  match (q + quarter) % 4 with
  | 0 => fxSin r
  | 1 => fxCos r
  | 2 => -fxSin r
  | _ => -fxCos r

/-- Terms of the error function's series: (-1)^n x^(2n+1) / (n! (2n+1)). -/
def erfTerms (x2 : Int) : Nat → Nat → Int → Int
  | 0, _, _ => 0
  | k + 1, n, t => t / ((2 * n + 1 : Nat) : Int) + erfTerms x2 k (n + 1) (-(t * x2 / (fxOne : Int) / ((n : Int) + 1)))

def fxErfOf (c : Nat) : Nat := ((erfTerms ((fxOf c * fxOf c / fxOne : Nat) : Int) 200 0 (fxOf c : Int)).toNat) * fxErf / fxOne

/-- The magnitude of a special function at a pattern, as a fraction: by SOP code, sign and magnitude of the source. -/
def refOf (code : Nat) (neg : Bool) (c : Nat) : Nat × Nat :=
  let x := fxOf c
  let (m, e) := codeVal 23 (-149) c
  match code with
  | 1 => if neg then (let i := (x + fxOne - 1) / fxOne; (fxExp2 (i * fxOne - x), fxOne * 2 ^ i)) else (fxPow2 x, fxOne)
  | 2 =>
    let k := floorLog2 (m * pow2Num e) (pow2Den e)
    let n := m * pow2Num (e - k)
    let d := pow2Den (e - k)
    -- x = 2^k n/d; below 1 the distance to the power above keeps the precision near 1
    if 0 ≤ k then ((k.toNat * fxLn2 + fxArtanh (n - d) (n + d)), fxLn2)
    else (((-k - 1).toNat * fxLn2 + fxArtanh (2 * d - n) (2 * d + n)), fxLn2)
  | 3 => (dyDen e, dyNum m e)
  | 4 =>
    let r := Nat.log2 (dyNum m e)
    (fxOne * 2 ^ (r / 2), rootOf (dyNum m e * fxOne * fxOne * 4 ^ (r / 2) / dyDen e))
  | 5 => (rootOf (dyNum m e * fxOne * fxOne / dyDen e), fxOne)
  | 6 => ((fxSinOf c 0).natAbs, fxOne)
  | 7 => ((fxSinOf c 1).natAbs, fxOne)
  | 8 => let t := fxExp (2 * x); (t - fxOne, t + fxOne)
  | 9 => if neg then (fxOne, fxOne + fxExp x) else (fxExp x, fxOne + fxExp x)
  | _ => (fxErfOf c, fxOne)
where
  /-- One bit of an integer square root, from bit `k` down. -/
  rootBits (n : Nat) : Nat → Nat → Nat
    | 0, r => r
    | k + 1, r => rootBits n k (if (r + 2 ^ k) * (r + 2 ^ k) ≤ n then r + 2 ^ k else r)
  /-- Integer square root. -/
  rootOf (n : Nat) : Nat := rootBits n (Nat.log2 n / 2 + 1) 0

/-! ### The free value within its bounds -/

/-- A magnitude pattern lies within the error bound of the table, 2 ulp of FP32 or 1 ulp of BF16, of the reference n/d (R134). -/
def withinUlp (bf : Bool) (n d c : Nat) : Bool :=
  let (k, mw, qm) : Nat × Nat × Int := if bf then (1, 7, -133) else (2, 23, -149)
  let q := quantum mw qm n d
  let (m, e) := codeVal 23 (-149) c
  let off := ((dyNum m e * d : Nat) : Int) - (n * dyDen e : Nat)
  decide (off.natAbs * pow2Den q ≤ k * pow2Num q * dyDen e * d)

/-- Magnitude pattern nearest to n/d. -/
def nearest (bf : Bool) (n d : Nat) : Nat := if bf then magCode 7 (-133) n d * 65536 else magCode 23 (-149) n d

/-- The free magnitude of a special function at a source: any within the error bound (R134, R135; log 4, DESIGN CHOICE). -/
def freeMag (code : Nat) (bf neg : Bool) (c : Nat) : Nat :=
  let (n, d) := refOf code neg c
  let w := (Config.special code bf (BitVec.ofNat 32 (c + if neg then 2 ^ 31 else 0))).toNat % 2 ^ 31
  let y := if bf then w / 65536 * 65536 else w
  if withinUlp bf n d y then y else nearest bf n d

/-- The greatest free magnitude over `n` sources from magnitude `a` on: what makes the function monotone (R135). -/
def supMag (code : Nat) (bf neg : Bool) (a : Nat) : Nat → Nat
  | 0 => 0
  | n + 1 => Nat.max (supMag code bf neg a n) (freeMag code bf neg (a + n))

/-- A monotone special function's magnitude at source `c`, between the exact values that bound it (R135, R136): the sources whose
magnitude of the result is smaller lie from `a` to `c`, or from `c` to `a`. -/
def monoMag (code : Nat) (bf neg : Bool) (a c lo hi : Nat) : Nat :=
  Nat.max lo (Nat.min hi (supMag code bf neg (Nat.min a c) (Nat.max a c - Nat.min a c + 1)))

/-- A result from its magnitude: an infinite one is an overflow (R122). -/
def magW (neg : Bool) (c : Nat) : W32 × VF :=
  (BitVec.ofNat 32 (c + if neg then 2 ^ 31 else 0), if c = 0x7F800000 then flOverflow else 0)

/-- |x| as a pattern. -/
def mag (x : W32) : Nat := x.toNat % 2 ^ 31

/-- Round a special function's result by SPREC: FP32, or BF16 held as FP32, with that rounding's flags (R122, R134). -/
def sprec (bf : Bool) (w : W32) : W32 × VF := rndStage bf w

/-- |x| below the magnitude pattern `p`. -/
def magLt (x : W32) (p : Nat) : Bool := decide (mag x < p)

/-- The integer value of an FP32 pattern, if it is one. -/
def intOf (x : W32) : Option Int :=
  match dec32 x with
  | .fin s m e =>
    if 0 ≤ e then some ((if s then -1 else 1) * ((m * 2 ^ e.toNat : Nat) : Int))
    else if m % 2 ^ (-e).toNat = 0 then some ((if s then -1 else 1) * ((m / 2 ^ (-e).toNat : Nat) : Int)) else none
  | _ => none

/-- floor(log2 |x|) of a finite nonzero pattern. -/
def logOf (x : W32) : Int := let (m, e) := codeVal 23 (-149) (mag x); floorLog2 (dyNum m e) (dyDen e)

/-- The power k with |x| = 2^k, if there is one. -/
def powOf (x : W32) : Option Int :=
  match dec32 x with
  | .fin _ m e => if m = 0 then none else if m = 2 ^ Nat.log2 m then some ((Nat.log2 m : Int) + e) else none
  | _ => none

/-- 2^k as an FP32 pattern, signed. -/
def pow2W (neg : Bool) (k : Int) : W32 := rnd32 neg (pow2Num k) (pow2Den k)

/-- Magnitude pattern of 2^k and of an integer. -/
def pow2M (k : Int) : Nat := mag (pow2W false k)
def intM (k : Int) : Nat := mag (rndInt k 0).1

/-- EXP2 (R136). -/
def sExp2 (bf : Bool) (x : W32) : W32 × VF :=
  if isNan32 x then (nan32, 0)
  else if isInf32 x then (if x.msb then 0 else inf32 false, 0)
  else if isZero32 x then (0x3F800000, 0)
  else if fLt x 0xC2FC0000 then (0, 0)
  else if !fLt x 0x43000000 then (inf32 false, flOverflow)
  else match intOf x with
    | some i => (pow2W false i, 0)
    | none =>
      -- the sources from the integer below to x
      let i := (intOf (fFloor x)).getD 0
      magW false (monoMag 1 bf x.msb (mag (fFloor x)) (mag x) (pow2M i) (pow2M (i + 1)))

/-- LOG2 (R136). -/
def sLog2 (bf : Bool) (x : W32) : W32 × VF :=
  if isNan32 x then (nan32, 0)
  else if isZero32 x then (inf32 true, flDivZero)
  else if x.msb then (nan32, flInvalid)
  else if isInf32 x then (inf32 false, 0)
  else match powOf x with
    | some k => sprec bf (rndInt k 0).1
    | none =>
      let k := logOf x
      if 0 ≤ k then magW false (monoMag 2 bf false (pow2M k) (mag x) (intM k) (intM (k + 1)))
      else magW true (monoMag 2 bf false (pow2M (k + 1) - 1) (mag x) (intM (k + 1)) (intM k))

/-- RCP (R136). -/
def sRcp (bf : Bool) (x : W32) : W32 × VF :=
  if isNan32 x then (nan32, 0)
  else if isInf32 x then (zero32 x.msb, 0)
  else if isZero32 x then (inf32 x.msb, flDivZero)
  else if !magLt x 0x7E800001 then (zero32 x.msb, 0)
  else if magLt x 0x00200001 then (inf32 x.msb, flOverflow)
  else match powOf x with
    | some k => (pow2W x.msb (-k), 0)
    | none => let k := logOf x; magW x.msb (monoMag 3 bf false (pow2M (k + 1) - 1) (mag x) (pow2M (-k - 1)) (pow2M (-k)))

/-- RSQRT (R136). -/
def sRsqrt (bf : Bool) (x : W32) : W32 × VF :=
  if isNan32 x then (nan32, 0)
  else if isZero32 x then (inf32 x.msb, flDivZero)
  else if x.msb then (nan32, flInvalid)
  else if isInf32 x then (0, 0)
  else magW false (monoMag 4 bf false 0x7F7FFFFF (mag x) 0 0x7F7FFFFF)

/-- SQRT (R136). -/
def sSqrt (bf : Bool) (x : W32) : W32 × VF :=
  if isNan32 x then (nan32, 0)
  else if isZero32 x then (x, 0)
  else if x.msb then (nan32, flInvalid)
  else if isInf32 x then (inf32 false, 0)
  else
    let k := logOf x / 2
    if powOf x = some (2 * k) then (pow2W false k, 0)
    else magW false (monoMag 5 bf false (pow2M (2 * k)) (mag x) (pow2M k) (pow2M (k + 1)))

/-- SIN and COS (R136): no monotonicity is stated. A subnormal source that the table gives as the result is the exact result, so no underflow
is set, in SIN and in TANH (R122; log 175, DEDUCED). -/
def sSin (bf : Bool) (x : W32) : W32 × VF :=
  if isNan32 x then (nan32, 0) else if isInf32 x then (nan32, flInvalid)
  else if magLt x 0x39800000 then sprec bf x
  else magW (x.msb != decide (fxSinOf (mag x) 0 < 0)) (freeMag 6 bf false (mag x))
def sCos (bf : Bool) (x : W32) : W32 × VF :=
  if isNan32 x then (nan32, 0) else if isInf32 x then (nan32, flInvalid)
  else if magLt x 0x39800000 then (0x3F800000, 0)
  else magW (decide (fxSinOf (mag x) 1 < 0)) (freeMag 7 bf false (mag x))

/-- TANH (R136): odd (R134). -/
def sTanh (bf : Bool) (x : W32) : W32 × VF :=
  if isNan32 x then (nan32, 0)
  else if !magLt x 0x41100000 then (0x3F800000 ||| (x &&& 0x80000000), 0)
  else if magLt x 0x39800000 then sprec bf x
  else magW x.msb (monoMag 8 bf false 0x39800000 (mag x) (mag (sprec bf 0x397FFFFF).1) 0x3F800000)

/-- SIGM (R136): a result below 2^-126 flushes to +0. -/
def sSigm (bf : Bool) (x : W32) : W32 × VF :=
  if isNan32 x then (nan32, 0)
  else if isZero32 x then (0x3F000000, 0)
  else if isInf32 x then (if x.msb then 0 else 0x3F800000, 0)
  else if !fLt x 0x41880000 then (0x3F800000, 0)
  else if x.msb then
    let r := if magLt x 0x43000000 then monoMag 9 bf true 0x43000000 (mag x) 0 0x3F000000 else 0
    if r < 0x00800000 then (0, 0) else magW false r
  else magW false (monoMag 9 bf false 1 (mag x) 0x3F000000 0x3F800000)

/-- x times 2 / sqrt pi, rounded once: ERF near 0 (R136). -/
def erfLine (bf : Bool) (x : W32) : W32 × VF :=
  match dec32 x, dec32 0x3F906EBB with
  | .fin s m e, .fin _ n f =>
    if bf then
      let (c, g) := roundIEEE 7 (-133) 0x7F80 (m * n * pow2Num (e + f)) (pow2Den (e + f))
      (BitVec.ofNat 32 ((c + (if s then 2 ^ 15 else 0)) * 65536), g)
    else rnd32f s (m * n * pow2Num (e + f)) (pow2Den (e + f))
  | _, _ => (0, 0)

/-- ERF (R136): odd (R134). -/
def sErf (bf : Bool) (x : W32) : W32 × VF :=
  if isNan32 x then (nan32, 0)
  else if !magLt x 0x40800000 then (0x3F800000 ||| (x &&& 0x80000000), 0)
  else if magLt x 0x39800000 then erfLine bf x
  else magW x.msb (monoMag 10 bf false 0x39800000 (mag x) (mag (erfLine bf 0x397FFFFF).1) 0x3F800000)

end Sys2Proof.Machine
end

