-- ==== Sys2Proof/Machine/Epilogue.lean ====
section
/-! DEFINITION. Epilogue stages (R151-R160), side buffers, statistics and reductions (R130, R131, R154-R156), and the
destinations of a tile. -/

namespace Sys2Proof.Machine

/-! ### Statistics (R129-R131) -/

/-- A Welford triple: count, mean, sum of squares (R130). -/
structure Welford where
  k : W32 := 0
  m : W32 := 0
  q : W32 := 0
deriving DecidableEq, Repr, Inhabited

/-- OR of the flags of several operations. -/
def fl (l : List VF) : VF := l.foldl (· ||| ·) 0

/-- Invalid is the only flag that Inf - Inf raises in the normaliser; every arithmetic flag of R122 is kept (R122, R130). -/
def welfordStep (w : Welford) (x : W32) : Welford × VF :=
  let (k, f0) := fAdd w.k 0x3F800000
  let (d, f1) := fSub x w.m
  let (t, f2) := fDiv d k
  let (mu, f3) := fAdd w.m t
  let (e, f4) := fSub x mu
  let (q, f5) := fFma d e w.q
  ({ k, m := mu, q }, fl [f0, f1, f2, f3, f4, f5])

/-- The merge of R130; `a` is the lower range. -/
def welfordMerge (a b : Welford) : Welford × VF :=
  if isZero32 b.k then (a, 0)
  else if isZero32 a.k then (b, 0)
  else
    let (k, f0) := fAdd a.k b.k
    let (d, f1) := fSub b.m a.m
    let (r, f2) := fDiv b.k k
    let (t, f3) := fMul d r
    let (mean, f4) := fAdd a.m t
    let (qs, f5) := fAdd a.q b.q
    let (dd, f6) := fMul d d
    let (kk, f7) := fMul a.k b.k
    let (kr, f8) := fDiv kk k
    let (u, f9) := fMul dd kr
    let (q, f10) := fAdd qs u
    ({ k, m := mean, q }, fl [f0, f1, f2, f3, f4, f5, f6, f7, f8, f9, f10])

/-- One level of a tree: adjacent results merged, lower range first, an unpaired last passed on. -/
def treeLevel {α : Type} (f : α → α → α × VF) : List α → List α × VF
  | [] => ([], 0)
  | [x] => ([x], 0)
  | x :: y :: r =>
    let (z, f0) := f x y
    let (l, f1) := treeLevel f r
    (z :: l, f0 ||| f1)

/-- `n` levels of a tree. -/
def tree {α : Type} (f : α → α → α × VF) : Nat → List α → List α × VF
  | 0, l => (l, 0)
  | n + 1, l =>
    let (l1, f1) := treeLevel f l
    let (l2, f2) := tree f n l1
    (l2, f1 ||| f2)

/-- The elements of a row that lane i of 1,024 takes, in ascending position (R130). -/
def laneElems (xs : List W32) (i : Nat) : List W32 :=
  (chunks 1024 xs).filterMap (fun b => b[i]?)

/-- Mean-variance statistic triple of a row (R130). -/
def welfordRow (xs : List W32) : Welford × VF :=
  let lanes := (List.range 1024).map (fun i =>
    (laneElems xs i).foldl (fun (a : Welford × VF) x => let (w, f) := welfordStep a.1 x; (w, a.2 ||| f)) ({}, 0))
  let (l, f) := tree welfordMerge 10 (lanes.map Prod.fst)
  (l.headD {}, fl (f :: lanes.map Prod.snd))

/-- Sum of squares of a row in RMS mode (R131). -/
def squareRow (xs : List W32) : W32 × VF :=
  let lanes := (List.range 1024).map (fun i =>
    (laneElems xs i).foldl (fun (a : W32 × VF) x => let (w, f) := fFma x x a.1; (w, a.2 ||| f)) (0, 0))
  let (l, f) := tree fAdd 10 (lanes.map Prod.fst)
  (l.headD 0, fl (f :: lanes.map Prod.snd))

/-- RSQRT(v / l + eps) (R129, R154). -/
def rstd (v : W32) (l : Nat) (eps : W32) : W32 × VF :=
  let (q, f0) := fDiv v (rnd32 false l 1)
  let (a, f1) := fAdd q eps
  let (r, f2) := sRsqrt false a
  (r, fl [f0, f1, f2])

/-! ### Reductions (R156) -/

/-- Combine two values of a reduction: 0 FADD, 1 FMAX, 2 FMIN. -/
def redOp (op : Nat) (a b : W32) : W32 × VF :=
  if op = 0 then fAdd a b else if op = 1 then (fMax a b, 0) else (fMin a b, 0)

/-- Identity of a reduction or scan (R125). -/
def redId (op : Nat) : W32 :=
  match op with
  | 0 => 0
  | 1 => inf32 true
  | 2 => inf32 false
  | 3 => 0
  | 4 => 0x80000000
  | _ => 0x7FFFFFFF

/-- A position without a value passes its partner through (R156). -/
def optOp (op : Nat) (a b : Option W32) : Option W32 × VF :=
  match a, b with
  | some x, some y => let (z, f) := redOp op x y; (some z, f)
  | some x, none => (some x, 0)
  | none, y => (y, 0)

/-- The 7-level tree over 128 positions (R156). -/
def redTree (op : Nat) (xs : List (Option W32)) : Option W32 × VF :=
  let (l, f) := tree (optOp op) 7 xs
  (l.headD none, f)

/-! ### Stage functions -/

/-- An accumulator element: undefined where nothing defined it (R69; log 3, DESIGN CHOICE). -/
def accRead (ctr : Nat) (h : Option (SMap W32)) (m n : Nat) : W32 :=
  match h.bind (fun l => mapFind l (128 * m + n)) with
  | some v => v
  | none => Config.undefAcc ctr (128 * m + n)

def engHalf (e : Engine) (b : Bool) : Option (SMap W32) := if b then e.accB else e.accA
def setHalf (e : Engine) (b : Bool) (h : Option (SMap W32)) : Engine := if b then { e with accB := h } else { e with accA := h }
/-- K indices that the sum in a half has taken (R56). -/
def kOf (e : Engine) (b : Bool) : Nat := if b then e.kB else e.kA
def setK (b : Bool) (k : Nat) (e : Engine) : Engine := if b then { e with kB := k } else { e with kA := k }
def engOf (x : Core) (i : Nat) : Engine := x.eng[(Fin.ofNat 4 i).1]'(Fin.ofNat 4 i).2

/-- Map the elements of a tile with their places. -/
def mapTile (f : Nat → Nat → W32 → W32 × VF) (t : List (List W32)) : List (List W32) × VF :=
  let r := t.zipIdx.map (fun (row, m) => row.zipIdx.map (fun (v, n) => f m n v))
  (r.map (fun row => row.map Prod.fst), fl (r.map (fun row => fl (row.map Prod.snd))))

/-- Stage 2, deferred scale (R153). -/
def stDeferred (ws : SMap Byte) (l : List Byte) (t : List (List W32)) : List (List W32) × VF :=
  if !chEpi l 2 then (t, 0) else
  match chKind l 5 with
  | none => (t, 0)
  | some d =>
    let bf := chBf l 2
    let mu (m : Nat) : W32 := BitVec.ofNat 32 (wsRd ws (d.ea + 8 * m) 4)
    let r (m : Nat) : W32 := BitVec.ofNat 32 (wsRd ws (d.ea + 8 * m + 4) 4)
    mapTile (fun m n v =>
      if bit (cb l 3) 2 then mulTo bf v (r m)
      else
        let cs := match chKind l 6 with
          | some x => vecVal ws x n
          | none => 0
        let (a, f0) := fmaTo bf (negW (mu m)) cs v
        let (b, f1) := mulTo bf a (r m)
        (b, f0 ||| f1)) t

/-- One factor of stage 3. -/
def scaleBy (bf : Bool) (k : Option W32) (a : W32 × VF) : W32 × VF :=
  match k with
  | none => a
  | some c => let (b, f) := mulTo bf a.1 c; (b, a.2 ||| f)

/-- Stage 3, scale (R151): each factor only if named; scalar c is named by an s register other than s0 (R253; log 28, DEDUCED). -/
def stScale (ws : SMap Byte) (l : List Byte) (c : Option W32) (t : List (List W32)) : List (List W32) × VF :=
  if !chEpi l 3 then (t, 0) else
  let bf := chBf l 3
  mapTile (fun m n v =>
    scaleBy bf c (scaleBy bf ((chKind l 7).map (fun x => vecVal ws x n)) (scaleBy bf ((chKind l 4).map (fun x => vecVal ws x m)) (v, 0)))) t

/-- Stages 4 and 6: add a stream and round (R151). -/
def stAdd (bf : Bool) (f : Nat → Nat → W32) (t : List (List W32)) : List (List W32) × VF :=
  mapTile (fun m n v => addTo32 bf v (f m n)) t

def stBias (ws : SMap Byte) (l : List Byte) (t : List (List W32)) : List (List W32) × VF :=
  match chEpi l 4, chKind l 8 with
  | true, some x => stAdd (chBf l 4) (fun _ n => vecVal ws x n) t
  | _, _ => (t, 0)

/-- Stage 5: rotate pairs along n at the position of each row (R149, R151). -/
def stRope (ws : SMap Byte) (l : List Byte) (pos : Nat → Nat) (t : List (List W32)) : List (List W32) × VF :=
  match chEpi l 5, chKind l 2 with
  | true, some x =>
    let r := t.zipIdx.map (fun (row, m) => ropeRow ws x (bit (cb l 3) 0) (chBf l 5) (pos m) row)
    (r.map (fun row => row.map Prod.fst), fl (r.map (fun row => fl (row.map Prod.snd))))
  | _, _ => (t, 0)

/-- Stage 6: the residual stream holds a dense tile of 128 columns (R143, R159; log 29, DESIGN CHOICE). -/
def stResid (ws : SMap Byte) (l : List Byte) (t : List (List W32)) : List (List W32) × VF :=
  match chEpi l 6, chKind l 9 with
  | true, some x => stAdd (chBf l 6) (fun m n => vecVal ws x (128 * m + n)) t
  | _, _ => (t, 0)

/-- Encode one element in an element format (R45-R47, R51, R152). -/
def encElem (f : Nat) (w : W32) : Nat × VF :=
  match f with
  | 0x00 => (w.toNat, 0)
  | 0x01 => let (h, g) := toBF16 w; (h.toNat, g)
  | 0x02 => let (h, g) := toFP16 w; (h.toNat, g)
  | _ => let (c, k, _) := cvtPlain f none w; (c, if k then flSat else 0)

/-- Encode a row of 128 values (R152): codes, scale codes, poisoned blocks (R50), flags. A KC form here is the value form, one scale per
32 channels (R186). No rule gives these conversions a NaN-input count of their own: R122's NaN-in is of inputs. -/
def encRow (f : Nat) (r : List W32) : List Nat × List Nat × Nat × VF :=
  if isMX f || isKC f then
    let bs := (chunks 32 r).map (fun b => if isKC f then kcBlock f b else mxBlock f (fun _ => none) b)
    (bs.flatMap QBlock.codes, bs.map QBlock.scale, bs.countP QBlock.poisoned, if bs.any (fun b => decide (0 < b.clamps)) then flSat else 0)
  else
    let cs := r.map (encElem f)
    (cs.map Prod.fst, [], 0, fl (cs.map Prod.snd))

/-- The value a stored element reads back as (R52, R152). -/
def readBack (f c sc : Nat) : W32 :=
  if isMX f then scaled f c (e8m0 sc)
  else if isKC f then (match decCode 0x03 sc with
    | .fin s m e => scaled f c (rnd32 s (dyNum m e) (dyDen e))
    | _ => decNan f c (BitVec.ofNat 32 sc))
  else match f with
    | 0x00 => BitVec.ofNat 32 c
    | 0x01 => ofBF16 (BitVec.ofNat 16 c)
    | 0x02 => ofFP16 (BitVec.ofNat 16 c)
    | _ => scaled f c 0x3F800000

/-- The NaN inputs of a conversion: NaN elements into an integer format, and poisoned blocks of `k` elements (R47, R50). -/
def nanInputs (f k : Nat) (vals : List W32) : Nat :=
  if isMX f || isKC f then (chunks k vals).countP (fun b => b.any (fun x => !isFin32 x))
  else if f = 0x05 ∨ f = 0x06 ∨ f = 0x07 then vals.countP isNan32 else 0

/-- A tile after stage 8: codes, scale codes, flags and its storage format; FP32 where stage 8 is not selected (R152). -/
structure ETile where
  fmt    : Nat := 0
  codes  : List (List Nat) := []
  scodes : List (List Nat) := []
  nanblk : List Nat := []
  flags  : VF := 0
deriving DecidableEq, Repr, Inhabited

def encTile (l : List Byte) (t : List (List W32)) : ETile :=
  let f := if chEpi l 8 then chQfmt l else 0
  let r := t.map (encRow f)
  { fmt := f, codes := r.map Prod.fst, scodes := r.map (fun x => x.2.1), nanblk := r.map (fun x => x.2.2.1), flags := fl (r.map (fun x => x.2.2.2)) }

/-- Stored values decoded exactly (R151 stages 9 and 10). -/
def ETile.values (t : ETile) : List (List W32) :=
  t.codes.zipIdx.map (fun (row, m) => row.zipIdx.map (fun (c, n) => readBack t.fmt c ((t.scodes.getD m []).getD (n / 32) 0)))

/-! ### Destinations (R157, R158) -/

/-- Write a tile as a dense working-store tensor: rows of 128 elements, four scales per row (log 29, DESIGN CHOICE). Rows for which `live` is
false keep their bytes (R171). -/
def storeTile (ws : SMap Byte) (a sa : Nat) (t : ETile) (live : Nat → Bool) : SMap Byte :=
  let ws := t.codes.zipIdx.foldl (fun ws (row, m) =>
    if live m then row.zipIdx.foldl (fun ws (c, n) => wrElem ws (a % wsSize) (fmtBits t.fmt) (128 * m + n) c) ws else ws) ws
  t.scodes.zipIdx.foldl (fun ws (row, m) => if live m then wsWr ws (sa + 4 * m) (row.map (BitVec.ofNat 8)) else ws) ws

/-- The tile as one unit: its element bytes, then its scale bytes (R158). -/
def tileBytes (t : ETile) : List Byte :=
  let n := t.codes.length * 16 * fmtBits t.fmt
  rdBytes (storeTile [] 0 n t (fun _ => true)) 0 (n + if t.scodes.any (fun r => !r.isEmpty) then 4 * t.codes.length else 0)

/-- The tile as it is sent: nothing of the rows for which `live` is false goes out, and their places hold zeros (R171; log 171, DESIGN
CHOICE). -/
def ETile.sent (t : ETile) (live : Nat → Bool) : ETile :=
  let only (l : List (List Nat)) : List (List Nat) := l.zipIdx.map (fun (r, m) => if live m then r else r.map (fun _ => 0))
  { t with codes := only t.codes, scodes := only t.scodes }

/-- Note the rows that the kept records at some addresses hold (R95, R108). -/
def noteKept (l : List Nat) (rows : List (Nat × Nat)) (x : Core) : Core :=
  { x with kept := l.map (fun a => (a, rows)) ++ x.kept.filter (fun k => !l.contains k.1) }

/-- The tile as the rows of a kept record or of the chain path. -/
def ETile.toQ (t : ETile) : QTile :=
  { fmt := BitVec.ofNat 5 t.fmt, codes := t.codes, scodes := t.scodes.map (fun r => if r.isEmpty then [0, 0, 0, 0] else r)
    rows := t.codes.zipIdx.map (fun (row, m) => arowOf t.fmt row (t.scodes.getD m [])), nanblk := t.nanblk }

def updEngine (c : CoreId) (e : Fin 4) (f : Engine → Engine) (s : State) : State :=
  updCore c (fun x => { x with eng := x.eng.set e.1 (f (x.eng[e.1]'e.2)) e.2 }) s

/-- The partition of a core and its section. -/
def cfgOf (s : State) (c : CoreId) : Option (PartId × PCfg) :=
  (partOfCore s c.1).bind (fun p => ((s.part p).section_).map (fun cfg => (p, cfg)))

/-- Deliver a whole tile to a chain's destinations (R157, R158). `vals` are the values before encoding; a CX's tile goes to the
network interface for the instance of its exchange descriptor (R283). Tiles on the chain path wait at the target's port in order of
arrival, the sender not held (R77; log 153, DESIGN CHOICE). Rows for which `live` is false are stored and sent nowhere (R171); `src` gives the
rows of the tile as (entry, position). The accumulator-keep takes the values before stage 8 (log 173, DESIGN CHOICE). -/
def sendTile (c : CoreId) (l : List Byte) (xd : Option Nat) (tag pol : Nat) (e : Fin 4) (half : Bool) (vals : List (List W32)) (t : ETile)
    (live : Nat → Bool) (src : List (Nat × Nat)) (s : State) : State :=
  let s := match chLocal l with
    | 1 => updEngine c e (fun g => setHalf (setK half 0 g) half (some (vals.zipIdx.foldl (fun h (row, m) =>
        if live m then row.zipIdx.foldl (fun h (v, n) => mapInsert h (128 * m + n) v) h else h) ((engHalf g half).getD [])))) s
    | 2 => updCore c (fun x => { x with ws := storeTile x.ws (chLaddr l) (chLsaddr l) t live }) s
    | 3 => updCore c (fun x => { noteKept [chLaddr l] src x with ws := writeRecord x.ws (chLaddr l) tag pol t.toQ live }) s
    | _ => s
  let t := t.sent live
  match chSecond l with
  | 1 => updEngine c (Fin.ofNat 4 (chTarget l)) (fun g => { g with chainIn := g.chainIn ++ [(e.1, { t.toQ with src })] }) s
  | 2 =>
    (match cfgOf s c with
      | none => s
      | some (p, cfg) => match cfg.dlists.find? (fun d => d.1 == cb l 13) with
        | none => transferFault c s
        | some d => meshSend p c d.2.1 false (chSendId l) 0 (tileBytes t) s)
  | 3 =>
    (match xd, partOfCore s c.1 with
      | some k, some p => updPart p (fun x => { x with tiles := x.tiles ++ [(c.1, cb l 13 % 8, k, tileBytes t)] }) s
      | _, _ => emit (.localTile c.1 (cb l 13) (chSendId l) (tileBytes t)) s)
  | _ => s

/-! ### Side buffers (R154, R155) -/

/-- Tiles of a chain's side buffer: those of its row length, or the open count of a reduction (R154; log 21, DESIGN CHOICE). -/
def sideTiles (core id : Nat) (l : List Byte) : Nat :=
  if chEpi l 10 then (chRowLen l + 127) / 128 else (Config.sideTile core id).2

/-- A chain whose side buffer an instruction clears or whose entries it fills (R155). -/
def sideWork (ch : Option (List Byte)) : Bool := (ch.map (fun l => chEpi l 9 || chEpi l 10)).getD false

/-- Bytes of a chain's side buffer (R155). -/
def sideBytes (l : List Byte) (tiles : Nat) : Nat := tiles * 128 * ((if chEpi l 9 then 1 else 0) + (if chEpi l 10 then 1 else 0)) * 16

/-- A FIRST opens a side buffer: where its lifetime overlaps that of another one, both are bad (R155; log 174, DESIGN CHOICE). -/
def openBuf (base size : Nat) (l : List SideBuf) : List SideBuf :=
  let meets (b : SideBuf) : Bool := decide (b.base < base + size ∧ base < b.base + b.size)
  { base, size, bad := l.any meets } :: l.map (fun b => if meets b then { b with bad := true } else b)

/-- Which of the two stages with side partials a chain selects: the reduction, the row statistic (`true`). -/
def sideSets (l : List Byte) : List Bool := (if chEpi l 9 then [false] else []) ++ (if chEpi l 10 then [true] else [])

/-- Address of a side partial: tile j, row or column i; the entries of a statistic follow those of a reduction in the same buffer (log
21, DESIGN CHOICE). -/
def sideAt (l : List Byte) (tiles : Nat) (stat : Bool) (j i : Nat) : Nat :=
  chSide l + (128 * j + i + if stat && chEpi l 9 then 128 * tiles else 0) * 16

/-- Write a side partial (R155). -/
def writePartial (ws : SMap Byte) (a : Nat) (x y z : W32) (st : Nat) : SMap Byte :=
  wsWr ws a (leBytes 4 x.toNat ++ leBytes 4 y.toNat ++ leBytes 4 z.toNat ++ leBytes 1 st ++ leBytes 3 0)

/-- The instruction marked FIRST sets every entry pending (R155). -/
def clearSide (ws : SMap Byte) (l : List Byte) (tiles : Nat) : SMap Byte :=
  (List.range (tiles * 128 * (sideSets l).length)).foldl (fun ws i => writePartial ws (chSide l + 16 * i) 0 0 0 0) ws

/-- Mark a skipped tile's entries empty (R155). -/
def emptySide (ws : SMap Byte) (l : List Byte) (tiles j : Nat) : SMap Byte :=
  (sideSets l).foldl (fun ws st => (List.range 128).foldl (fun ws i => writePartial ws (sideAt l tiles st j i) 0 0 0 2) ws) ws

def partialState (ws : SMap Byte) (a : Nat) : Nat := wsRd ws (a + 12) 1
def partialWord (ws : SMap Byte) (a i : Nat) : W32 := BitVec.ofNat 32 (wsRd ws (a + 4 * i) 4)

/-- Real length of tile j of a row of length n: 128, or the rest in the last tile (R154). -/
def tileLen (n j : Nat) : Nat := Nat.min 128 (n - 128 * j)

/-- Real columns of tile j: those of its row length, where the chain says how long its rows are, else the instruction's (R154, R156). -/
def realCols (l : List Byte) (j nReal : Nat) : Nat := if chEpi l 10 then tileLen (chRowLen l) j else nReal

/-- Stage 10 of a tile: the statistic of each row (R154). -/
def statPartials (ws : SMap Byte) (l : List Byte) (tiles j : Nat) (vals : List (List W32)) : SMap Byte × VF :=
  vals.zipIdx.foldl (fun (a : SMap Byte × VF) (row, m) =>
    let xs := row.take (tileLen (chRowLen l) j)
    if chRms l then
      let (q, f) := squareRow xs
      (writePartial a.1 (sideAt l tiles true j m) (rnd32 false xs.length 1) q 0 1, a.2 ||| f)
    else
      let (w, f) := welfordRow xs
      (writePartial a.1 (sideAt l tiles true j m) w.k w.m w.q 1, a.2 ||| f)) (ws, 0)

/-- Column n of a tile: 128 positions, those of rows not fed without a value (R156). -/
def tileCol (vals : List (List W32)) (n : Nat) : List (Option W32) := (List.range 128).map (fun m => (vals[m]?).map (fun r => r.getD n 0))

/-- Stage 9 of a tile: the reduction of each row or column; a place without a value passes its partner through (R156). -/
def redPartials (ws : SMap Byte) (l : List Byte) (tiles j nReal : Nat) (vals : List (List W32)) : SMap Byte × VF :=
  let lines : List (List (Option W32)) :=
    if chRedCol l then (List.range 128).map (fun n => if n < realCols l j nReal then tileCol vals n else [])
    else vals.map (fun r => (r.take (realCols l j nReal)).map some)
  lines.zipIdx.foldl (fun (a : SMap Byte × VF) (xs, i) =>
    let (v, f) := redTree (chRed l) xs
    (writePartial a.1 (sideAt l tiles false j i) (v.getD 0) 0 0 (if v.isSome then 1 else 2), a.2 ||| f)) (ws, 0)

/-- Stages 9 and 10 of a tile: its side partials (R151, R154-R156). -/
def sidePartials (ws : SMap Byte) (l : List Byte) (tiles j nReal : Nat) (vals : List (List W32)) : SMap Byte × VF :=
  let (ws, f) := if chEpi l 9 then redPartials ws l tiles j nReal vals else (ws, 0)
  let (ws, g) := if chEpi l 10 then statPartials ws l tiles j vals else (ws, 0)
  (ws, f ||| g)

/-- Fold the statistics of one row in ascending tile index, skipping empty ones (R154). -/
def foldStat (ws : SMap Byte) (l : List Byte) (tiles i : Nat) (eps : W32) : W32 × W32 × VF :=
  let os := ((List.range tiles).map (fun j => sideAt l tiles true j i)).filter (fun o => partialState ws o == 1)
  if chRms l then
    let r := os.foldl (fun (a : W32 × VF) o => let (v, f) := fAdd a.1 (partialWord ws o 1); (v, a.2 ||| f)) (0, 0)
    let (d, f) := rstd r.1 (chRowLen l) eps
    (0, d, r.2 ||| f)
  else
    let r := os.foldl (fun (a : Welford × VF) o =>
      let (w, f) := welfordMerge a.1 { k := partialWord ws o 0, m := partialWord ws o 1, q := partialWord ws o 2 }
      (w, a.2 ||| f)) ({}, 0)
    let (d, f) := rstd r.1.q (chRowLen l) eps
    (r.1.m, d, r.2 ||| f)

/-- Fold the reductions of one row or column in ascending tile index, skipping empty ones (R156). -/
def foldRed (ws : SMap Byte) (l : List Byte) (tiles i : Nat) : W32 × VF :=
  (((List.range tiles).map (fun j => sideAt l tiles false j i)).filter (fun o => partialState ws o == 1)).foldl
    (fun (a : W32 × VF) o => let (v, f) := redOp (chRed l) a.1 (partialWord ws o 0); (v, a.2 ||| f)) (redId (chRed l), 0)

/-- Rows or columns that a stage with side partials has: the fed rows, or 128 columns. -/
def sideLines (l : List Byte) (rows : Nat) (stat : Bool) : Nat := if !stat && chRedCol l then 128 else rows

/-- The LAST fold of a side buffer (R154-R156): pending entries make the data late. Its results go densely to the start of the buffer,
whose partials are spent: 4 B reduction values, then 8 B statistic records, these from byte 512 where both stages run (log 30, DESIGN
CHOICE). -/
def lastFold (ws : SMap Byte) (l : List Byte) (tiles rows : Nat) (eps : W32) : Option (SMap Byte × VF) :=
  if (sideSets l).any (fun st => (List.range tiles).any (fun j => (List.range (sideLines l rows st)).any (fun i =>
    partialState ws (sideAt l tiles st j i) == 0))) then none
  else
    let red := if chEpi l 9 then (List.range (sideLines l rows false)).map (foldRed ws l tiles) else []
    let stat := if chEpi l 10 then (List.range rows).map (fun i => foldStat ws l tiles i eps) else []
    let ws := red.zipIdx.foldl (fun ws (v, i) => wsWr ws (chSide l + 4 * i) (leBytes 4 v.1.toNat)) ws
    let o := chSide l + if chEpi l 9 then 512 else 0
    some (stat.zipIdx.foldl (fun ws (v, i) => wsWr ws (o + 8 * i) (leBytes 4 v.1.toNat ++ leBytes 4 v.2.1.toNat)) ws,
      fl (red.map Prod.snd) ||| fl (stat.map (fun v => v.2.2)))

end Sys2Proof.Machine
end

