-- ==== Sys2Proof/Machine/Issue.lean ====
section
/-! DEFINITION. Issuing tile instructions (R245-R248), and the SC and TR queues (R223, R228, R256, R257). -/

namespace Sys2Proof.Machine

/-- The predicate of a header holds (R245, R246). -/
def predHolds (x : Core) (h : TileHdr) : Bool := (x.getP h.pred) != h.pneg

/-- The landing-count wait of a header is over (R246). -/
def landingReached (x : Core) (h : TileHdr) : Bool :=
  match h.waitu with
  | none => true
  | some u => decide ((x.getS h.waits).toNat % 2 ^ 32 ≤ (x.su[u.1]'u.2).landed)

/-- The earliest phase of a header's checkpoint is reached (R236, R246). -/
def earliestReached (s : State) (c : CoreId) (k : Nat) : Bool :=
  match partOfCore s c.1 with
  | none => true
  | some p => match (s.part p).task with
    | none => true
    | some t => match ckptOf (s.part p) t k with
      | some e => !e.earlyOk || decide (e.earliest ≤ taskPhase s t)
      | none => true

/-- The sequencer may try a tile instruction: it runs, and holds at nothing or at a tile instruction (R246). -/
def Core.tries (x : Core) : Bool :=
  x.running && (match x.hold with
    | .none => true
    | .landing => true
    | .earliest => true
    | .queueFull => true
    | _ => false)

/-- Advance past a tile line. -/
def nextLine (c : CoreId) (s : State) : State := setPc c ((s.core c).pc + 16) s

def holdAt (c : CoreId) (h : Hold) (s : State) : State := updCore c (fun x => { x with hold := h }) s

/-- Issue a tile instruction in its three steps (R246, R247); `go` does the rest and advances the PC. -/
def issue (c : CoreId) (h : TileHdr) (full : Core → Bool) (go : State → State) (s : State) : State :=
  let x := s.core c
  if !x.tries then s
  else if !predHolds x h then nextLine c (meetCkptOf c h.ckpt.toNat s)
  else if !landingReached x h then holdAt c .landing s
  else if !earliestReached s c h.ckpt.toNat then holdAt c .earliest s
  else if full x then holdAt c .queueFull s
  else go s

/-- A fresh identity for an issued instruction. -/
def takeId (c : CoreId) (s : State) : Nat × State :=
  ((s.core c).issued, updCore c (fun x => { x with issued := x.issued + 1 }) s)

/-- An un-run fill point bars instructions issued after it from the working store (R247). -/
def fenced (x : Core) (id : Nat) : Bool := x.scq.any (fun f => f.arm.isNone && !f.ran && decide (f.id < id))

/-! ### The SC queue -/

/-- Run the arms at the front of the SC queue; a fill waits for its phase (R223, R256). -/
def scqPump (c : CoreId) (s : State) : State :=
  match (s.core c).scq with
  | [] => s
  | e :: r =>
    match e.ran, e.arm with
    | false, some (u, run) =>
      armUnit c (Fin.ofNat 5 u) run e.pc (updCore c (fun x => { x with scq := { e with ran := true } :: r }) s)
    | _, _ => s

/-! ### The TR queue -/

/-- The rail of a partition. -/
def railOf (x : Part) (k : Nat) : Option Rail := x.rails.find? (fun r => r.idx == k)

def updRail (p : PartId) (k : Nat) (f : Rail → Rail) (s : State) : State :=
  updPart p (fun x => { x with rails := mapIf (fun r => r.idx == k) f x.rails }) s

/-- Fields of a handle (R227). -/
def hSeq (h : W64) : Nat := bits h.toNat 63 48
def hCore (h : W64) : Nat := bits h.toNat 47 41
def hAddr (h : W64) : Nat := bits h.toNat 40 20
def hBytes (h : W64) : Nat := bits h.toNat 19 4 * 64
def hEmpty (h : W64) : Bool := h.getLsbD 2

/-- A handle with another SEQ. -/
def withSeq (h : W64) (n : Nat) : W64 := (h &&& 0x0000FFFFFFFFFFFF) ||| (BitVec.ofNat 64 (n % 65536) <<< (48 : Nat))

/-- The tray's last byte is still in a landing slot of its core or waits for its fill phase, or a packet that the producer sent there
before the PUT is in the mesh (R15, R228; log 164, DESIGN CHOICE). -/
def trayInFlight (s : State) (p : PartId) (producer upto : Nat) (h : W64) : Bool :=
  let a := hAddr h + hBytes h - 1
  let x := s.core (cid (hCore h))
  x.su.any (fun u => u.landing.any (fun l => !l.out && decide (l.dst ≤ a ∧ a < l.dst + l.len)))
  || x.peerIn.any (fun w => decide (w.1 ≤ a ∧ a < w.1 + w.2.length))
  || (s.part p).mesh.any (fun k => !k.mc && k.src == producer && k.dst == hCore h && decide (k.serial < upto))

/-- Recompute which handles are takeable on the rails that a core consumes, at the end of a fill phase (R228). -/
def readyRails (p : PartId) (c : CoreId) (s : State) : State :=
  updPart p (fun x => { x with rails := (mapIf (fun r => r.consumer == c.1)
    (fun r => { r with ready := ((r.fwd.zip r.upto).zip r.ready).map (fun h => h.2 || !trayInFlight s p r.producer h.1.2 h.1.1) }) x.rails) }) s

/-- Try the front of a core's TR queue (R228, R257): it runs, waits, faults, or is illegal. -/
def trqPump (c : CoreId) (s : State) : State :=
  match (s.core c).trq, partOfCore s c.1 with
  | e :: rest, some p =>
    if e.ran then s else
    let done (s : State) : State := updCore c (fun x => { x with trq := { e with ran := true } :: rest }) s
    let k := e.body.rail.toNat
    match railOf (s.part p) k with
    | none => illegal c 0x0A e.pc s
    | some r =>
      let mine := match e.op with
        | .put => r.producer == c.1
        | .free => r.producer == c.1
        | .take => r.consumer == c.1
        | .ret => r.consumer == c.1
      if !mine then illegal c 0x0A e.pc s else
      match e.op with
      | .put =>
        if 16 ≤ r.fwd.length then s
        else
          let h := withSeq (((s.core c).getH e.body.h &&& 0xFFFFFFFFFFFFFFF0) ||| (if e.body.last then 8 else 0)
            ||| (if e.body.empty then 4 else 0)) r.seq
          let n := (s.part p).meshSent
          let rdy := e.body.empty || r.producer == r.consumer || !trayInFlight s p r.producer n h
          done (updRail p k (fun r => { r with
            fwd := r.fwd ++ [h], ready := r.ready ++ [rdy], upto := r.upto ++ [n], seq := (r.seq + 1) % 65536 }) s)
      | .take =>
        (match r.fwd, r.ready with
          | h :: fs, true :: rs =>
            if hSeq h ≠ (r.lastSeq + 1) % 65536 ∨ hCore h ≠ r.consumer then transferFault c s
            else done (updCore c (fun x => x.setH e.body.h h)
              (updRail p k (fun r => { r with fwd := fs, ready := rs, upto := r.upto.tail, lastSeq := hSeq h }) s))
          | _, _ => s)
      | .ret =>
        if 16 ≤ r.back.length then s
        else done (updRail p k (fun r => { r with back := r.back ++ [withSeq ((s.core c).getH e.body.h) r.backNext],
                                                  backNext := (r.backNext + 1) % 65536 }) s)
      | .free =>
        (match r.back with
          | [] => s
          | h :: bs =>
            if hSeq h ≠ (r.backSeq + 1) % 65536 ∨ hCore h ≠ r.consumer then transferFault c s
            else done (updCore c (fun x => x.setH e.body.h h) (updRail p k (fun r => { r with back := bs, backSeq := hSeq h }) s)))
  | _, _ => s

/-- Offer every waiting TR instruction of a partition its rails again; four rounds carry a change along. -/
def railPump (p : PartId) (s : State) : State :=
  forAll (List.range 4) (fun _ s => forAll (coresOf s p) (fun c s => trqPump c s) s) s

end Sys2Proof.Machine
end

