-- ==== Sys2Proof/Machine/Vector.lean ====
section
/-! DEFINITION. The vector engine: recipes (R117-R123), scans (R124, R125), permutation (R126-R128), normaliser (R129-R133),
user tables (R137-R140), tile reduce (R156), sweep state (R174, R178, R180), bound epilogues (R150-R156, R175-R177). -/

namespace Sys2Proof.Machine

/-! ### Recipe encoding (R117, R118) -/

def rcpNB (l : List Byte) : Nat := cb l 0
/-- The bundles of a recipe as 128-bit numbers. -/
def bundles (l : List Byte) : List Nat := (List.range (rcpNB l)).map (fun i => fieldLE l (16 + 16 * i) 16)

def bFop (v : Nat) : Nat := bits v 127 124
def bFd (v : Nat) : Nat := bits v 123 118
def bFa (v : Nat) : Nat := bits v 117 112
def bFb (v : Nat) : Nat := bits v 111 106
def bFc (v : Nat) : Nat := bits v 105 100
def bAop (v : Nat) : Nat := bits v 99 94
def bAd (v : Nat) : Nat := bits v 93 88
def bAa (v : Nat) : Nat := bits v 87 82
def bAb (v : Nat) : Nat := bits v 81 76
def bAc (v : Nat) : Nat := bits v 75 70
def bSop (v : Nat) : Nat := bits v 69 66
def bSd (v : Nat) : Nat := bits v 65 60
def bSa (v : Nat) : Nat := bits v 59 54
def bSprec (v : Nat) : Bool := bit v 53
def bPred (v : Nat) : Nat := bits v 52 47

/-- A valid source specifier. -/
def srcOk (c : Nat) : Bool := decide (c ≤ 0x2E) || decide (0x30 ≤ c ∧ c ≤ 0x3A) || decide (c = 0x3F)
/-- A valid destination specifier. -/
def dstOk (c : Nat) : Bool := decide (c ≤ 0x21) || decide (c = 0x3F)

/-- Source fields an FMA-slot operation reads. -/
def fReads (op : Nat) : Nat := if op ≤ 3 then 3 else if op ≤ 6 then 2 else 1
/-- Source fields an ALU operation reads (R121). -/
def aReads (op : Nat) : Nat :=
  if op = 0x08 then 3 else if op = 0x14 ∨ op = 0x15 ∨ op = 0x16 ∨ op = 0x17 ∨ op = 0x19 ∨ op = 0x1A then 1 else 2

/-- The checks of R118 on one bundle. -/
def bundleOk (v : Nat) : Bool :=
  let f := bFop v
  let a := bAop v
  let g := bSop v
  let ds := (if f = 0 then [] else [bFd v]) ++ (if a = 0 then [] else [bAd v]) ++ (if g = 0 then [] else [bSd v])
  decide (f ≤ 7) && decide (a ≤ 0x1A) && decide (g ≤ 14)
  && (f == 0 || (dstOk (bFd v) && srcOk (bFa v) && (decide (fReads f < 2) || srcOk (bFb v)) && (decide (fReads f < 3) || srcOk (bFc v))))
  && (a == 0 || (dstOk (bAd v) && srcOk (bAa v) && (decide (aReads a < 2) || srcOk (bAb v)) && (decide (aReads a < 3) || srcOk (bAc v))))
  && (g == 0 || (dstOk (bSd v) && srcOk (bSa v)))
  && srcOk (bPred v) && decide (bits v 46 0 = 0)
  && decide ((ds.filter (fun d => d != 0x3F)).Nodup)

/-- A recipe that a load accepts (R118). -/
def recipeOk (l : List Byte) : Bool :=
  decide (1 ≤ rcpNB l ∧ rcpNB l ≤ 64) && decide (cb l 1 = 0) && decide (fieldLE l 4 12 = 0) && (bundles l).all bundleOk

/-- The recipe bytes at an address of the working store. -/
def recipeAt (ws : SMap Byte) (a : Nat) : List Byte := rdBytes ws (a % wsSize) (16 + 16 * Nat.min 64 (rd8 ws (a % wsSize)).toNat)

/-! ### User tables (R137, R138) -/

def tabLog (l : List Byte) : Nat := cb l 0
def tabWord (l : List Byte) (o : Nat) : W32 := BitVec.ofNat 32 (fieldLE l o 4)

/-- The header checks of R137. -/
def tableOk (l : List Byte) : Bool :=
  decide (1 ≤ tabLog l ∧ tabLog l ≤ 9) && decide (fieldLE l 1 3 = 0) && decide (fieldLE l 28 4 = 0)
  && isFin32 (tabWord l 4) && isFin32 (tabWord l 8) && fLt 0 (tabWord l 8)

/-- The table bytes at an address. -/
def tableAt (ws : SMap Byte) (a : Nat) : List Byte :=
  rdBytes ws (a % wsSize) (32 + 12 * 2 ^ Nat.min 9 (rd8 ws (a % wsSize)).toNat)

/-- A table function (R138). -/
def tabEval (l : List Byte) (x : W32) : W32 × VF :=
  let ba := tabWord l 12
  let bb := tabWord l 16
  let aa := tabWord l 20
  let ab := tabWord l 24
  if isNan32 x then (nan32, 0)
  else if x = inf32 true then (if isZero32 ba then (bb, 0) else fFma ba x bb)
  else if x = inf32 false then (if isZero32 aa then (ab, 0) else fFma aa x ab)
  else
    let (d, f0) := fSub x (tabWord l 4)
    let (u, f1) := fMul d (tabWord l 8)
    let n := 2 ^ tabLog l
    if fLt u 0 then let (y, f) := fFma ba x bb; (y, fl [f0, f1, f])
    else if !fLt u (rnd32 false n 1) then let (y, f) := fFma aa x ab; (y, fl [f0, f1, f])
    else
      let j := ((intOf (fFloor u)).getD 0).toNat
      let (t, f2) := fSub u (fFloor u)
      let c (i : Nat) : W32 := tabWord l (32 + 12 * j + 4 * i)
      let (a, f3) := fFma (c 2) t (c 1)
      let (b, f4) := fFma a t (c 0)
      (b, fl [f0, f1, f2, f3, f4])

/-- The active bank of a slot. -/
def activeBank (t : TabSlot) : Option (List Byte) := if t.active then t.bank1 else t.bank0

/-- Swap a slot whose inactive bank is ready (R139). -/
def swapSlot (t : TabSlot) : TabSlot :=
  if t.istate = 2 then
    (if t.active then { t with active := false, istate := 0, bank1 := none }
     else { t with active := true, istate := 0, bank0 := none })
  else t

/-- Write the inactive bank. -/
def setInactive (t : TabSlot) (l : List Byte) : TabSlot := if t.active then { t with bank0 := some l } else { t with bank1 := some l }

/-- Start a table load (R139, R140). -/
def startLoad (t : TabSlot) (l : List Byte) : TabSlot :=
  if t.istate = 1 then { t with waiting := t.waiting ++ [l] } else setInactive { t with istate := 1 } l

/-- A table load's last byte is written (R139, R140). -/
def finishLoad (t : TabSlot) : TabSlot :=
  match t.waiting with
  | [] => { t with istate := 2 }
  | l :: r => setInactive { t with waiting := r } l

/-! ### Running a recipe (R119-R122) -/

/-- What a lane reads besides its temporaries. -/
structure LaneIn where
  v    : List W32 := []
  c    : List W32 := []
  lane : Nat := 0
  elem : Nat := 0
  beat : Nat := 0
deriving DecidableEq, Repr, Inhabited

/-- What an element's run holds: temporaries, outputs written, flags. -/
structure LaneSt where
  x  : List W32 := []
  o0 : Option W32 := none
  o1 : Option W32 := none
  f  : VF := 0
deriving DecidableEq, Repr, Inhabited

/-- The constants 0x30-0x3A. -/
def constSrc : List W32 :=
  [0, 0x3F800000, 0xBF800000, 0x3F000000, 0x40000000, 0x7F800000, 0xFF800000, 0x3FB8AA3B, 0x3F317218, 1, 0xFFFFFFFF]

/-- Read a source specifier. -/
def readSrc (i : LaneIn) (st : LaneSt) (c : Nat) : W32 :=
  if c < 0x20 then st.x.getD c 0
  else if c < 0x24 then i.v.getD (c - 0x20) 0
  else if c < 0x2C then i.c.getD (c - 0x24) 0
  else if c = 0x2C then BitVec.ofNat 32 i.lane
  else if c = 0x2D then BitVec.ofNat 32 i.elem
  else if c = 0x2E then BitVec.ofNat 32 i.beat
  else if c = 0x3F then 0
  else constSrc.getD (c - 0x30) 0

/-- Canonical NaN (R121). -/
def canon (w : W32) : W32 := if isNan32 w then nan32 else w

/-- An FMA-slot operation (R121). -/
def fSlot (op : Nat) (a b c : W32) : W32 × VF :=
  match op with
  | 1 => fFma a b c
  | 2 => fFma a b (negW c)
  | 3 => fFma (negW a) b c
  | 4 => fMul a b
  | 5 => fAdd a b
  | 6 => fSub a b
  | _ => (canon a, 0)

def boolW (b : Bool) : W32 := if b then 0xFFFFFFFF else 0
/-- IEEE a ≤ b. -/
def fLe (a b : W32) : Bool := fLt a b || fEq a b

/-- An ALU-slot operation (R121, R122). -/
def aSlot (op : Nat) (a b c : W32) : W32 × VF :=
  let un := isNan32 a || isNan32 b
  match op with
  | 0x01 => (fMax a b, 0)
  | 0x02 => (fMin a b, 0)
  | 0x03 => (boolW (fEq a b), 0)
  | 0x04 => (boolW (fLt a b), if un then flInvalid else 0)
  | 0x05 => (boolW (fLe a b), if un then flInvalid else 0)
  | 0x06 => (boolW (!fEq a b), 0)
  | 0x07 => (boolW un, 0)
  | 0x08 => (if c = 0 then b else a, 0)
  | 0x09 => (a &&& b, 0)
  | 0x0A => (a ||| b, 0)
  | 0x0B => (a ^^^ b, 0)
  | 0x0C => (a <<< (b.toNat % 32), 0)
  | 0x0D => (a >>> (b.toNat % 32), 0)
  | 0x0E => (a.sshiftRight (b.toNat % 32), 0)
  | 0x0F => (a + b, 0)
  | 0x10 => (a - b, 0)
  | 0x11 => (a * b, 0)
  | 0x12 => (if b.slt a then b else a, 0)
  | 0x13 => (if a.slt b then b else a, 0)
  | 0x14 =>
    let (v, k, n) := f2iSat (-2147483648) 2147483647 a
    (BitVec.ofInt 32 v, (if n then flInvalid else 0) ||| (if k then flSat else 0))
  | 0x15 => i2f a
  | 0x16 => (a &&& 0x7FFFFFFF, 0)
  | 0x17 => (negW a, 0)
  | 0x18 => ((a &&& 0x7FFFFFFF) ||| (b &&& 0x80000000), 0)
  | 0x19 => (fFloor a, 0)
  | _ => (fExpo a, 0)

/-- A special-function slot (R134-R138); `tabs` are the active banks bound at launch. -/
def sSlot (tabs : List (Option (List Byte))) (op : Nat) (bf : Bool) (a : W32) : W32 × VF :=
  match op with
  | 1 => sExp2 bf a
  | 2 => sLog2 bf a
  | 3 => sRcp bf a
  | 4 => sRsqrt bf a
  | 5 => sSqrt bf a
  | 6 => sSin bf a
  | 7 => sCos bf a
  | 8 => sTanh bf a
  | 9 => sSigm bf a
  | 10 => sErf bf a
  | _ => match tabs.getD (op - 11) none with
    | some l => let (y, f) := tabEval l a; let (z, g) := sprec bf y; (z, f ||| g)
    | none => (0, 0)

/-- Write a destination specifier. -/
def writeDst (st : LaneSt) (d : Nat) (w : W32) : LaneSt :=
  if d < 0x20 then { st with x := st.x.set d w }
  else if d = 0x20 then { st with o0 := some w }
  else if d = 0x21 then { st with o1 := some w }
  else st

/-- One bundle on one lane: the three slots read, then write, unless PRED gates the bundle off (R119). -/
def runBundle (tabs : List (Option (List Byte))) (i : LaneIn) (st : LaneSt) (v : Nat) : LaneSt :=
  let rd := readSrc i st
  if bPred v ≠ 0x3F ∧ rd (bPred v) = 0 then st else
  let f := fSlot (bFop v) (rd (bFa v)) (rd (bFb v)) (rd (bFc v))
  let a := aSlot (bAop v) (rd (bAa v)) (rd (bAb v)) (rd (bAc v))
  let g := sSlot tabs (bSop v) (bSprec v) (rd (bSa v))
  let st := if bFop v = 0 then st else { writeDst st (bFd v) f.1 with f := st.f ||| f.2 }
  let st := if bAop v = 0 then st else { writeDst st (bAd v) a.1 with f := st.f ||| a.2 }
  if bSop v = 0 then st else { writeDst st (bSd v) g.1 with f := st.f ||| g.2 }

/-- The temporaries of a lane. -/
def laneTemps (m : SMap W32) (lane : Nat) : List W32 := (List.range 32).map (fun k => mapRead 0 m (32 * lane + k))

/-- Keep a lane's temporaries. -/
def keepTemps (m : SMap W32) (lane : Nat) (l : List W32) : SMap W32 :=
  l.zipIdx.foldl (fun m (w, k) => mapWrite 0 m (32 * lane + k) w) m

/-- What a run over elements gives: temporaries, outputs of each element, flags. -/
structure RunOut where
  temps : SMap W32 := []
  o0 : List (Option W32) := []
  o1 : List (Option W32) := []
  f  : VF := 0
deriving DecidableEq, Repr, Inhabited

/-- Run a recipe over elements in ascending order; lane temporaries pass from beat to beat (R113, R119, R121). -/
def runRecipe (tabs : List (Option (List Byte))) (bs : List Nat) (cs : List W32) (vin : Nat → List W32) (temps : SMap W32)
    (elems : List Nat) : RunOut :=
  let r := elems.foldl (fun (a : RunOut) i =>
    let li : LaneIn := { v := vin i, c := cs, lane := i % 1024, elem := i, beat := i / 1024 }
    let st := bs.foldl (runBundle tabs li) { x := laneTemps a.temps (i % 1024) }
    { temps := keepTemps a.temps (i % 1024) st.x, o0 := st.o0 :: a.o0, o1 := st.o1 :: a.o1, f := a.f ||| st.f })
    { temps := temps }
  { r with o0 := r.o0.reverse, o1 := r.o1.reverse }

/-- The table slots a recipe's special-function slots name. -/
def tabsUsed (bs : List Nat) : List Nat := (bs.filter (fun v => decide (11 ≤ bSop v ∧ bSop v ≤ 14))).map (fun v => bSop v - 11)

/-! ### Streams (R120) -/

/-- Element i of an input stream: FP32, or an int32 pattern for an integer format (R120). A KC stream is read in the key form, one scale
per 64 elements (log 32, DESIGN CHOICE). -/
def streamIn (ctr : Nat) (x : Core) (e : StreamE) (i : Nat) : W32 :=
  if e.fmt = 0x1E then 0
  else if e.accs then accRead ctr (engHalf (engOf x e.eng) e.half) (i / 128) (i % 128)
  else
    let c := rdElem x.ws e.ea (fmtBits e.fmt) i
    match e.fmt with
    | 0x05 => BitVec.ofInt 32 (twos 8 c)
    | 0x06 => BitVec.ofNat 32 c
    | f => if isMX f then scaled f c (e8m0 (wsRd x.ws (e.sa + i / 32) 1))
        else if isKC f then readBack f c (wsRd x.ws (e.sa + i / 64) 1)
        else readBack f c 0

/-- The NaN-in flag of an input element (R122). -/
def nanIn (e : StreamE) (w : W32) : VF :=
  if e.fmt = 0x1E ∨ e.fmt = 0x05 ∨ e.fmt = 0x06 then 0 else if isNan32 w then flNanIn else 0

/-- Encode an output element in an element format: integers are rounded with RNE and saturated (R120). -/
def outElem (f : Nat) (w : W32) : Nat × VF := encElem f w

/-- An int32 result as the output stream takes it: a saturated integer for INT8 and INT32, else its FP32 value (R120, R124). -/
def intElem (f : Nat) (w : W32) : Nat × VF :=
  if f = 0x06 then (w.toNat, 0)
  else if f = 0x05 then
    let v := max (-128) (min 127 w.toInt)
    ((v % 256).toNat, if v = w.toInt then 0 else flSat)
  else let (v, g) := i2f w; let (c, h) := encElem f v; (c, g ||| h)

/-- A block of a KC output is a tail block whose key scales are frozen: its first written position is the one at which an entry of the task
goes on in a block that an earlier task began; `tails` gives those (R188; log 32, DEDUCED). -/
def tailBlock (tails : List Nat) (f : Nat) (b : List (Option W32)) : Bool :=
  let n := (b.takeWhile Option.isNone).length
  isKC f && decide (0 < n ∧ n < b.length) && tails.contains n

/-- Write the elements of a block-form output from element `i0`, a multiple of 64, on: 32 elements a block for MX, 64 for the key form of
KC (R120, R185, R187, R188; log 32, DEDUCED). Unwritten elements are +0, but in a tail block. -/
def outBlocks (tails : List Nat) (ws : SMap Byte) (e : StreamE) (i0 : Nat) (vals : List (Option W32)) : SMap Byte × VF :=
  let k := if isKC e.fmt then 64 else 32
  (chunks k vals).zipIdx.foldl (fun (a : SMap Byte × VF) (b, j0) =>
    let j := i0 / k + j0
    let full := b ++ List.replicate (k - b.length) none
    let old := wsRd a.1 (e.sa + j) 1
    if tailBlock tails e.fmt full then
      -- the key scale is frozen: only the written elements change (R188)
      let r := full.zipIdx.foldl (fun (c : SMap Byte × VF) (v, i) => match v with
        | none => c
        | some w =>
          let (q, cl) := frozenKey e.fmt old w
          (wrElem c.1 e.ea (fmtBits e.fmt) (k * j + i) q, c.2 ||| if cl then flSat else 0)) a
      r
    else
      let xs := full.map (fun v => v.getD 0)
      let q := if isKC e.fmt then kcBlock e.fmt xs else mxBlock e.fmt (fun _ => none) xs
      let ws := q.codes.zipIdx.foldl (fun ws (c, i) => wrElem ws e.ea (fmtBits e.fmt) (k * j + i) c) a.1
      (wsWr ws (e.sa + j) [BitVec.ofNat 8 q.scale], a.2 ||| if 0 < q.clamps then flSat else 0)) (ws, 0)

/-- Write the elements of an output stream from element `i0` on (R120): unwritten elements of an element format leave memory unchanged.
`int` says that the values are int32. -/
def streamOut (tails : List Nat) (int : Bool) (ws : SMap Byte) (e : StreamE) (i0 : Nat) (vals : List (Option W32)) : SMap Byte × VF :=
  if e.fmt = 0x1E then (ws, 0)
  else if isMX e.fmt || isKC e.fmt then outBlocks tails ws e i0 (if int then vals.map (fun v => v.map (fun w => (i2f w).1)) else vals)
  else vals.zipIdx.foldl (fun (a : SMap Byte × VF) (v, i) => match v with
    | none => a
    | some w =>
      let (c, f) := if int then intElem e.fmt w else outElem e.fmt w
      (wrElem a.1 (e.ea % wsSize) (fmtBits e.fmt) (i0 + i) c, a.2 ||| f)) (ws, 0)

/-- An output bound to the chain path: rows of 128 to another engine's activation port (R77, R120). -/
def chainOut (e : StreamE) (vals : List (Option W32)) : QTile × VF :=
  let rows := chunks 128 (vals.map (fun v => v.getD 0))
  let enc := rows.map (encRow e.fmt)
  ({ fmt := BitVec.ofNat 5 e.fmt, codes := enc.map Prod.fst, scodes := enc.map (fun x => x.2.1)
     rows := enc.map (fun x => arowOf e.fmt x.1 x.2.1), nanblk := enc.map (fun x => x.2.2.1) }, fl (enc.map (fun x => x.2.2.2)))

/-- The NaN inputs of a beat that an output stream converts: tail blocks take each element by itself (R47, R50, R188). -/
def streamNans (tails : List Nat) (e : StreamE) (vals : List (Option W32)) : Nat :=
  let k := if isKC e.fmt then 64 else 32
  ((chunks k vals).map (fun b =>
    if tailBlock tails e.fmt (b ++ List.replicate (k - b.length) none) then 0 else nanInputs e.fmt k (b.map (fun v => v.getD 0)))).sum

/-- Put a beat of an output stream in the working store; the chain path takes the whole stream at the end. -/
def putBeat (tails : List Nat) (int : Bool) (e : StreamE) (i0 : Nat) (vals : List (Option W32)) (x : Core) : Core × VF :=
  if e.chain then (x, 0) else
    let (ws, f) := streamOut tails int x.ws e i0 vals
    ({ x with ws, nanIn := x.nanIn + if int then 0 else streamNans tails e vals }, f)

/-- Put a whole output stream on the chain path, where its entry names it; the port knows the vector engine as source 4 (R77, R255). -/
def putChain (e : StreamE) (vals : List (Option W32)) (x : Core) : Core × VF :=
  if e.fmt ≠ 0x1E ∧ e.chain then
    let (q, f) := chainOut e vals
    let i : Fin 4 := Fin.ofNat 4 e.eng
    ({ x with eng := x.eng.set i.1 { (x.eng[i.1]'i.2) with chainIn := (x.eng[i.1]'i.2).chainIn ++ [(4, q)] } i.2
              nanIn := x.nanIn + nanInputs e.fmt 32 (vals.map (fun v => v.getD 0)) }, f)
  else (x, 0)

/-- Put an output stream where its entry says. -/
def putOut (e : StreamE) (vals : List (Option W32)) (x : Core) : Core × VF :=
  let (x, f) := putBeat [] false e 0 vals x
  let (x, g) := putChain e vals x
  (x, f ||| g)

/-! ### The VX operations -/

/-- c0-c7: the low words of s[SB] to s[SB + 7] at launch (R120, R254). -/
def scalars (x : Core) (sb : SReg) : List W32 :=
  (List.range 8).map (fun i => (x.getS (Fin.ofNat 64 (sb.1 + i))).setWidth 32)

/-- NaN scalar broadcasts at launch (R122). -/
def nanScalars (cs : List W32) : VF := if cs.any isNan32 then flNanIn else 0

def ent (e : VXEntry) (i : Nat) : StreamE := streamE e.desc i
def cnt (e : VXEntry) : Nat := e.body.nm1.toNat + 1

/-- The elements of a VX, beat by beat (R113). -/
def beatsOf (n : Nat) : List (List Nat) := chunks 1024 (List.range n)

/-- What the beats of a RECIPE leave: the core, both output streams, flags. -/
structure RecipeSt where
  x  : Core
  o0 : List (Option W32) := []
  o1 : List (Option W32) := []
  f  : VF := 0
deriving DecidableEq, Repr

/-- A beat of a RECIPE: its elements are read before its outputs are written (R113, R119, R120). -/
def recipeBeat (tails : List Nat) (ctr : Nat) (e : VXEntry) (bs : List Nat) (cs : List W32) (a : RecipeSt) (beat : List Nat) : RecipeSt :=
  let ins := (List.range 4).map (ent e)
  let r := runRecipe (a.x.ve.tables.toList.map activeBank) bs cs (fun i => ins.map (fun st => streamIn ctr a.x st i)) a.x.ve.temps beat
  let nf := fl (beat.map (fun i => fl (ins.map (fun st => nanIn st (streamIn ctr a.x st i)))))
  let x := { a.x with ve := { a.x.ve with temps := r.temps } }
  let (x, f0) := putBeat tails false (ent e 4) (beat.headD 0) r.o0 x
  let (x, f1) := putBeat tails false (ent e 5) (beat.headD 0) r.o1 x
  { x, o0 := a.o0 ++ r.o0, o1 := a.o1 ++ r.o1, f := fl [a.f, r.f, nf, f0, f1] }

/-- RECIPE (R119, R120); `tails` gives where the task's entries go on in a tail block (R188). -/
def vxRecipe (tails : List Nat) (ctr : Nat) (e : VXEntry) (l : List Byte) (x : Core) : Core × VF :=
  let cs := scalars x e.body.sb
  let r := (beatsOf (cnt e)).foldl (recipeBeat tails ctr e (bundles l) cs) { x }
  let (x, f0) := putChain (ent e 4) r.o0 r.x
  let (x, f1) := putChain (ent e 5) r.o1 x
  (x, fl [r.f, f0, f1, nanScalars cs])

/-- A scan operation (R124, R125). -/
def scanOp (op : Nat) (a b : W32) : W32 × VF :=
  match op with
  | 0 => fAdd a b
  | 1 => (fMax a b, 0)
  | 2 => (fMin a b, 0)
  | 3 => (a + b, 0)
  | 4 => (if a.slt b then b else a, 0)
  | _ => (if b.slt a then b else a, 0)

/-- One Kogge-Stone step of distance 2^d over a beat's (value, flag) list (R125). -/
def scanStep (op d : Nat) (l : List (W32 × Bool)) : List (W32 × Bool) × VF :=
  let r := l.zipIdx.map (fun ((v, f), i) =>
    if i < 2 ^ d then ((v, f), (0 : VF))
    else
      let (u, g) := l.getD (i - 2 ^ d) (0, false)
      if f then ((v, f), 0) else let (w, h) := scanOp op u v; ((w, f || g), h))
  (r.map Prod.fst, fl (r.map Prod.snd))

/-- One beat of a scan with the carry of the beat before (R125): inclusive results and flags. -/
def scanBeat (op : Nat) (b : List (W32 × Bool)) (carry : Option W32) : List W32 × VF :=
  let (w, f) := (List.range 10).foldl (fun (a : List (W32 × Bool) × VF) d =>
    let (l, g) := scanStep op d a.1; (l, a.2 ||| g)) (b, 0)
  let done := w.map (fun (v, st) => match carry with
    | none => (v, (0 : VF))
    | some c => if st then (v, 0) else scanOp op c v)
  (done.map Prod.fst, fl (f :: done.map Prod.snd))

/-- Exclusive form of a beat: the identity at a segment start, else the previous inclusive result (R125). -/
def exclusive (op : Nat) (starts : List Bool) (carry : Option W32) (vs : List W32) : List W32 :=
  (starts.zip (carry.getD 0 :: vs)).map (fun (st, v) => if st then redId op else v)

/-- What the beats of a SCAN leave: the core, the carry, the output stream, flags. -/
structure ScanSt where
  x     : Core
  carry : Option W32 := none
  out   : List (Option W32) := []
  f     : VF := 0
deriving DecidableEq, Repr

/-- A beat of a SCAN: its elements and flags are read before its outputs are written (R113, R124, R125). -/
def scanDo (ctr : Nat) (e : VXEntry) (a : ScanSt) (beat : List Nat) : ScanSt :=
  let src := ent e 0
  let vs := beat.map (streamIn ctr a.x src)
  let segs := beat.map (fun i => decide (i = 0) ||
    (decide (e.body.se ≠ 0) && bit (rd8 a.x.ws ((e.seReg.toNat + i / 8) % wsSize)).toNat (i % 8)))
  let op := e.body.sop.toNat
  let (inc, f) := scanBeat op (vs.zip segs) a.carry
  let out := (if e.body.sel then exclusive op segs a.carry inc else inc).map some
  let (x, g) := putBeat [] (decide (3 ≤ op)) (ent e 4) (beat.headD 0) out a.x
  { x, carry := some (inc.getLastD 0), out := a.out ++ out, f := fl [a.f, f, g, fl (vs.map (nanIn src))] }

/-- SCAN (R124, R125): v0 in, o0 out, the address of the segment flags as read at issue (log 154, DESIGN CHOICE). -/
def vxScan (ctr : Nat) (e : VXEntry) (x : Core) : Core × VF :=
  let r := (beatsOf (cnt e)).foldl (scanDo ctr e) { x }
  let (x, g) := putChain (ent e 4) (if 3 ≤ e.body.sop.toNat then r.out.map (fun v => v.map (fun w => (i2f w).1)) else r.out) r.x
  (x, r.f ||| g)

/-- PERM (R126-R128), the source at v0, the indices at v1, the output at o0 (log 154, DESIGN CHOICE): the source is copied first; each beat
reads its indices, then writes. The source is moved, not decoded, so that no NaN-in flag is raised (R122; log 176, DEDUCED). -/
def vxPerm (ctr : Nat) (e : VXEntry) (x : Core) : Core × VF :=
  let n := cnt e
  let src := ent e 0
  let idx := ent e 1
  let out := ent e 4
  let w := fmtBits src.fmt
  let buf := (List.range n).map (fun i =>
    if src.accs then (streamIn ctr x src i).toNat else rdElem x.ws src.ea w i)
  let r := (chunks 1024 (List.range n)).foldl (fun (a : SMap Byte × List Nat × VF) beat =>
    let js := beat.map (fun i => (i, rdElem a.1 idx.ea 32 i))
    let vs := js.map (fun (i, j) => (i, if j < n then buf.getD j 0 else 0))
    (if out.fmt = 0x1E ∨ out.chain then a.1 else vs.foldl (fun ws (i, v) => wrElem ws out.ea w i v) a.1,
     a.2.1 ++ vs.map Prod.snd,
     a.2.2 ||| if js.any (fun (_, j) => decide (n ≤ j)) then flPerm else 0)) (x.ws, [], 0)
  let (x, f) := putChain out (r.2.1.map (fun c => some (if out.fmt = 0x05 then BitVec.ofInt 32 (twos 8 c) else readBack out.fmt c 0))) { x with ws := r.1 }
  (x, r.2.2 ||| f)

/-- NORM (R129-R132): dense rows of L elements at v0, one 8 B record per row densely at o0's address, whatever else that entry says (log 154,
DESIGN CHOICE). Epsilon is read at launch. -/
def vxNorm (ctr : Nat) (e : VXEntry) (x : Core) : Core × VF :=
  let l := cnt e
  let src := ent e 0
  let eps := (x.getS e.body.se).setWidth 32
  let r := (List.range (e.body.rm1.toNat + 1)).foldl (fun (a : SMap Byte × VF) row =>
    let xs := (List.range l).map (fun j => streamIn ctr { x with ws := a.1 } src (row * l + j))
    let nf := fl (xs.map (nanIn src))
    let (p, q, f) :=
      if e.body.sel then
        let (v, f0) := squareRow xs
        let (d, f1) := rstd v l eps
        ((0 : W32), d, f0 ||| f1)
      else
        let (v, f0) := welfordRow xs
        let (d, f1) := rstd v.q l eps
        (v.m, d, f0 ||| f1)
    (wsWr a.1 ((ent e 4).ea + 8 * row) (leBytes 4 p.toNat ++ leBytes 4 q.toNat), fl [a.2, nf, f])) (x.ws, 0)
  ({ x with ws := r.1 }, r.2)

/-- REDUCE (R156): tiles of 128 of the named axis, by the tree, then the fold in ascending tile index (log 33, DEDUCED). -/
def vxReduce (ctr : Nat) (e : VXEntry) (x : Core) : Core × VF :=
  let n := cnt e
  let tiles := e.body.rm1.toNat + 1
  let src := ent e 0
  let op := e.body.sop.toNat
  let lines := (n + 128 * tiles - 1) / (128 * tiles)
  let at_ (line k : Nat) : Option W32 :=
    let i := if e.body.sel then k * lines + line else line * (128 * tiles) + k
    if i < n then some (streamIn ctr x src i) else none
  let r := (List.range lines).map (fun line =>
    (List.range tiles).foldl (fun (a : W32 × VF) j =>
      match redTree op ((List.range 128).map (fun k => at_ line (128 * j + k))) with
      | (some v, f) => let (w, g) := redOp op a.1 v; (w, fl [a.2, f, g])
      | (none, f) => (a.1, a.2 ||| f)) (redId op, 0))
  let nf := fl ((List.range n).map (fun i => nanIn src (streamIn ctr x src i)))
  let (x, f) := putOut (ent e 4) (r.map (fun v => some v.1)) x
  (x, fl (f :: nf :: r.map Prod.snd))

/-- Rows of a sweep record: n elements are n / 128 rows (R177, R178). -/
def sweepRowsOf (e : VXEntry) : Nat := (cnt e + 127) / 128

/-- Write row m of a partial record: m, l, then 128 elements (R177; log 34, DESIGN CHOICE). -/
def writePart (ws : SMap Byte) (a m : Nat) (mx l : W32) (o : List W32) : SMap Byte :=
  wsWr ws (a + 520 * m) (leBytes 4 mx.toNat ++ leBytes 4 l.toNat ++ o.flatMap (fun w => leBytes 4 w.toNat))

def partWord (ws : SMap Byte) (a m i : Nat) : W32 := BitVec.ofNat 32 (wsRd ws (a + 520 * m + 4 * i) 4)

/-- Row state of an engine: m starts at -inf, l at +0 (R175). -/
def rowMax (g : Engine) (m : Nat) : W32 := (mapFind g.rowM m).getD 0xFF800000
def rowSum (g : Engine) (m : Nat) : W32 := (mapFind g.rowL m).getD 0

/-- PARK (R178): the row state and the O half named by v0 go to the record at o0 (log 34, DESIGN CHOICE). A sweep that issued no tile leaves
(-inf, +0) and an O of +0 (R179). -/
def vxPark (ctr : Nat) (e : VXEntry) (x : Core) : Core × VF :=
  let v := ent e 0
  let g := engOf x v.eng
  ({ x with ws := (List.range (sweepRowsOf e)).foldl (fun ws m =>
      if e.empty then writePart ws (ent e 4).ea m 0xFF800000 0 (List.replicate 128 0)
      else writePart ws (ent e 4).ea m (rowMax g m) (rowSum g m) ((List.range 128).map (accRead ctr (engHalf g v.half) m))) x.ws }, 0)

/-- RESTORE (R178): the record at v0 goes back to the engine and half named by o0 (log 34, DESIGN CHOICE). -/
def vxRestore (e : VXEntry) (x : Core) : Core × VF :=
  let a := (ent e 0).ea
  let o := ent e 4
  let i : Fin 4 := Fin.ofNat 4 o.eng
  let g := x.eng[i.1]'i.2
  let rows := List.range (sweepRowsOf e)
  let h := rows.foldl (fun h m => (List.range 128).foldl (fun h n => mapInsert h (128 * m + n) (partWord x.ws a m (n + 2))) h)
    ((engHalf g o.half).getD [])
  let g := { setHalf g o.half (some h) with
    rowM := rows.foldl (fun r m => mapInsert r m (partWord x.ws a m 0)) g.rowM
    rowL := rows.foldl (fun r m => mapInsert r m (partWord x.ws a m 1)) g.rowL }
  ({ x with eng := x.eng.set i.1 g i.2 }, 0)

/-- SMERGE (R180): the lower partial from the accumulator and row state, the other from the record at v1, the merge to the
record at o0 and the row state (log 34, DESIGN CHOICE). The root's finalisation under R177 is the program's: a recipe over the record. -/
def vxMerge (ctr : Nat) (e : VXEntry) (x : Core) : Core × VF :=
  let v := ent e 0
  let b := (ent e 1).ea
  let i : Fin 4 := Fin.ofNat 4 v.eng
  let g := x.eng[i.1]'i.2
  let step (a : Core × VF) (m : Nat) : Core × VF :=
    let am := rowMax g m
    let al := rowSum g m
    let bm := partWord x.ws b m 0
    let bl := partWord x.ws b m 1
    let mm := fMax am bm
    let put (l : W32) (o : List W32) (f : VF) : Core × VF :=
      let g' := a.1.eng[i.1]'i.2
      ({ a.1 with ws := writePart a.1.ws (ent e 4).ea m mm l o
                  eng := a.1.eng.set i.1 { g' with rowM := mapInsert g'.rowM m mm, rowL := mapInsert g'.rowL m l } i.2 }, a.2 ||| f)
    if mm = 0xFF800000 then put 0 (List.replicate 128 0) 0
    else
      let (d1, f1) := fSub am mm
      let (d2, f2) := fSub bm mm
      let (aa, f3) := sExp2 false d1
      let (ab, f4) := sExp2 false d2
      let mix (p q : W32) : W32 × VF :=
        let (u, g1) := fMul p aa
        let (w, g2) := fMul q ab
        let (r, g3) := fAdd u w
        (r, fl [g1, g2, g3])
      let (l, f5) := mix al bl
      let os := (List.range 128).map (fun n => mix (accRead ctr (engHalf g v.half) m n) (partWord x.ws b m (n + 2)))
      put l (os.map Prod.fst) (fl ([f1, f2, f3, f4, f5] ++ os.map Prod.snd))
  (List.range (sweepRowsOf e)).foldl step (x, 0)

/-! ### Bound epilogues (R150-R156, R175-R177) -/

/-- Value of an extra stream at an element of the tile, as stage 7 reads it through v1-v3 (R120, R143, R151). -/
def xsElem (ctr : Nat) (x : Core) (k : XStream) (m n : Nat) : W32 :=
  if !k.used then 0
  else match k.kind with
    | 1 => vecVal x.ws k m
    | 4 => vecVal x.ws k m
    | 6 => vecVal x.ws k n
    | 7 => vecVal x.ws k n
    | 8 => vecVal x.ws k n
    | 9 => vecVal x.ws k (128 * m + n)
    | 10 => accRead ctr (engHalf (engOf x k.eng) k.half) m n
    | _ => vecVal x.ws k (2 * m)

/-- The accumulator tile of an entry's rows. -/
def accTile (ctr : Nat) (x : Core) (eng : Fin 4) (half : Bool) (rows : Nat) : List (List W32) :=
  let h := engHalf (x.eng[eng.1]'eng.2) half
  (List.range rows).map (fun m => (List.range 128).map (accRead ctr h m))

/-- Fed rows of an instruction. -/
def mRows (e : MMEntry) : Nat :=
  if sLen e.sideD.toNat then Nat.min (e.body.mrows.toNat + 1) e.rows.length else e.body.mrows.toNat + 1

/-- Unmasked columns of row m of a tile, from column 0 (R170, R191): all of them where no lengths table is named (log 20, DESIGN CHOICE). -/
def scoreCols (e : MMEntry) (m : Nat) : Nat :=
  match e.key with
  | none => 128
  | some k => unmasked k e.rows m

/-- A skim pass: a score pass whose epilogue sums its probabilities over the rows of each column (R192; log 155, DEDUCED). -/
def skims (b : MMBody) (ch : Option (List Byte)) : Bool :=
  b.score && (match ch with
    | some l => chVector l && chEpi l 9 && chRedCol l && chRed l == 0
    | none => false)

/-- The score epilogue of one row (R175): probabilities, new m, new l before its sum, alpha, flags. -/
def scoreRow (c cmax m : W32) (cols : Nat) (row : List W32) : List W32 × W32 × W32 × VF :=
  let (mb, f0) := fMul cmax c
  let mnew := fMax m mb
  let none_ := decide (mnew = 0xFF800000)
  let (alpha, f1) := if none_ then ((0x3F800000 : W32), (0 : VF)) else let (d, f) := fSub m mnew; let (a, g) := sExp2 false d; (a, f ||| g)
  let r := row.zipIdx.map (fun (s, n) =>
    let (t, g0) := if cols ≤ n then ((0xFF800000 : W32), (0 : VF)) else fMul s c
    if none_ then ((0 : W32), g0) else
      let (d, g1) := fSub t mnew
      let (p, g2) := sExp2 false d
      (p, fl [g0, g1, g2]))
  (r.map Prod.fst, mnew, alpha, fl (f0 :: f1 :: r.map Prod.snd))

/-- Rows of the sweep whose request was cancelled while it ran: stored and sent for none of them (R171). -/
def rowLive (tab : List LRow) (e : MMEntry) (m : Nat) : Bool :=
  match e.rows[m]? with
  | some r => !(tab.getD r.1 {}).cancelled
  | none => true

/-- The epilogue of one row of a skim pass, with the row's final m and r = rcp(l) (R192). -/
def skimRow (c m r : W32) (cols : Nat) (row : List W32) : List W32 × VF :=
  let q := row.zipIdx.map (fun (s, n) =>
    if cols ≤ n then ((0 : W32), (0 : VF)) else
      let (t, f0) := fMul s c
      let (d, f1) := fSub t m
      let (p, f2) := sExp2 false d
      let (v, f3) := fMul p r
      (v, fl [f0, f1, f2, f3]))
  (q.map Prod.fst, fl (q.map Prod.snd))

/-- A skim pass's tile: p = +0 outside the interval, else rne(exp2(rne(t - m)) r) (R192). -/
def skimTile (e : MMEntry) (c : W32) (g : Engine) (t : List (List W32)) : List (List W32) × VF :=
  let q := t.zipIdx.map (fun (row, m) =>
    let (r, f) := sRcp false (rowSum g m)
    let (v, h) := skimRow c (rowMax g m) r (scoreCols e m) row
    (v, f ||| h))
  (q.map Prod.fst, fl (q.map Prod.snd))

/-- A score tile's probabilities, and the row unit after its new maxima and factors (R174, R175). -/
def scoreTile (e : MMEntry) (c : W32) (g : Engine) (t : List (List W32)) : List (List W32) × Engine × VF :=
  let m0 (m : Nat) : W32 := if e.first then 0xFF800000 else rowMax g m
  let r := t.zipIdx.map (fun (row, m) => scoreRow c ((mapFind g.cmax m).getD 0xFF800000) (m0 m) (scoreCols e m) row)
  let alphas := r.zipIdx.map (fun (q, m) => (m, q.2.2.1))
  (r.map Prod.fst, { g with
    rowM := r.zipIdx.foldl (fun a (q, m) => mapInsert a m q.2.1) g.rowM
    rowL := if e.first then r.zipIdx.foldl (fun a (_, m) => mapInsert a m 0) g.rowL else g.rowL
    alpha0 := if e.body.aslot then g.alpha0 else alphas
    alpha1 := if e.body.aslot then alphas else g.alpha1 }, fl (r.map (fun q => q.2.2.2)))

/-- The finalisation of a whole sweep (R177): +0 where l is +0, or where no tile of the sweep was issued, else o times RCP(l). -/
def finalTile (e : MMEntry) (g : Engine) (t : List (List W32)) : List (List W32) × VF :=
  let q := t.zipIdx.map (fun (row, m) =>
    if isZero32 (rowSum g m) || (e.fresh && e.skipped) then (row.map (fun _ => (0 : W32)), (0 : VF))
    else
      let (r, f) := sRcp false (rowSum g m)
      let vs := row.map (fun o => fMul o r)
      (vs.map Prod.fst, fl (f :: vs.map Prod.snd)))
  (q.map Prod.fst, fl (q.map Prod.snd))

/-- Stage 7 of a bound epilogue: the recipe, with v0 the element and v1-v3 the extra streams (R120, R151). -/
def activation (ctr : Nat) (l : List Byte) (cs : List W32) (x : Core) (t : List (List W32)) : List (List W32) × Core × VF :=
  let rb := ((x.ve.recipes[chSlot l]?).getD none).getD []
  let flat := t.flatMap id
  let vin (k : Nat) : List W32 := [flat.getD k 0, xsElem ctr x (chX l 0) (k / 128) (k % 128), xsElem ctr x (chX l 1) (k / 128) (k % 128),
    xsElem ctr x (chX l 2) (k / 128) (k % 128)]
  let r := runRecipe (x.ve.tables.toList.map activeBank) (bundles rb) cs vin x.ve.temps (List.range flat.length)
  let nf : VF := if (List.range flat.length).any (fun k => ((vin k).zip (0 :: [0, 1, 2].map (fun j => (chX l j).fmt))).any (fun (w, f) =>
    f != 0x05 && f != 0x06 && isNan32 w)) then flNanIn else 0
  let o := (List.zipWith (fun o v => o.getD v) r.o0 flat).map (rndStage (chBf l 7))
  (chunks 128 (o.map Prod.fst), { x with ve := { x.ve with temps := r.temps } }, fl [r.f, nf, nanScalars cs, fl (o.map Prod.snd)])

/-- The tile that stage 8 of a bound epilogue encodes, the core after the row unit and stage 7, and flags. A mask outside a score pass
is that of the instruction's key tile, or of key tile 0 (R79; log 156, DESIGN CHOICE). -/
def boundValues (ctr : Nat) (core : Nat) (e : MMEntry) (l : List Byte) (cs : List W32) (x : Core) :
    List (List W32) × Core × VF :=
  let i := e.body.eng
  let g := x.eng[i.1]'i.2
  let t := accTile ctr x i e.body.half (mRows e)
  let c : Option W32 := if chSC l = 0 then none else some e.scalarC
  if skims e.body e.chain then
    let (v, f) := skimTile e (c.getD 0x3F800000) g t
    (v, x, f)
  else if e.body.score then
    let (v, g, f) := scoreTile e (c.getD 0x3F800000) g t
    (v, { x with eng := x.eng.set i.1 g i.2 }, f)
  else
    let (t, f0) := if e.pv then finalTile e g t else (t, 0)
    let (t, f1) := if chEpi l 1 then (t.zipIdx.map (fun (row, m) => row.zipIdx.map (fun (v, n) =>
        if scoreCols e m ≤ n then 0xFF800000 else v)), (0 : VF)) else (t, 0)
    let (t, f2) := stDeferred x.ws l t
    let (t, f3) := stScale x.ws l c t
    let (t, f4) := stBias x.ws l t
    let (t, f6) := stRope x.ws l (fun m => rowPos core e (srcRowOf x.ws e m)) t
    let (t, f5) := stResid x.ws l t
    if chEpi l 7 then
      let (t, x, f7) := activation ctr l cs x t
      (t, x, fl [f0, f1, f2, f3, f4, f5, f6, f7])
    else (t, x, fl [f0, f1, f2, f3, f4, f5, f6])

/-- The row sums of a score tile: l = rne(rne(l x alpha) + lb) over the stored P (R175). -/
def scoreSums (e : MMEntry) (vals : List (List W32)) (x : Core) : Core × VF :=
  let i := e.body.eng
  let g := x.eng[i.1]'i.2
  let al := if e.body.aslot then g.alpha1 else g.alpha0
  let r := vals.zipIdx.map (fun (row, m) =>
    let (lb, f0) := redTree 0 (row.map some)
    let (t, f1) := fMul (rowSum g m) ((mapFind al m).getD 0x3F800000)
    let (l, f2) := fAdd t (lb.getD 0)
    (m, l, fl [f0, f1, f2]))
  let g := { g with rowL := r.foldl (fun a q => mapInsert a q.1 q.2.1) g.rowL }
  ({ x with eng := x.eng.set i.1 g i.2 }, fl (r.map (fun q => q.2.2)))

/-- The policy code of a layer in a partition's task, for records. -/
def policyOf (s : State) (c : CoreId) (layer : Nat) : Policy :=
  match (partOfCore s c.1).bind (fun p => taskModel s p) with
  | none => {}
  | some m => match s.img.policies.find? (fun q => q.1 == m.idx && q.2.1 == layer) with
    | some q => { kind := q.2.2.1, thr := q.2.2.2.1, allow := q.2.2.2.2 }
    | none => {}

/-- The lengths table an MM names, as it stands; the task's own where it names none (R167, R252, R317). -/
def tableOf (s : State) (c : CoreId) (e : MMEntry) : List LRow :=
  match (partOfCore s c.1).bind (fun p => (s.part p).task) with
  | some t => ltable (s.core c).ws (if sLen e.sideD.toNat then sLaddr e.sideD.toNat else t.ltab) t.entries.length
  | none => []

/-- The stages of a bound epilogue (R150, R151): its values, with the flags they raised. -/
def boundCompute (c : CoreId) (v : VXEntry) (e : MMEntry) (l : List Byte) (s : State) : (List (List W32) × VF) × State :=
  let r := boundValues s.freeCtr c.1 e l (scalars (s.core c) v.body.sb) (s.core c)
  ((r.1, r.2.2), { updCore c (fun _ => r.2.1) s with freeCtr := s.freeCtr + 1 })

/-- The score sums of the stored values (R150): none in a skim pass, which takes the row unit as it is (R192). -/
def boundScores (c : CoreId) (e : MMEntry) (stored : List (List W32)) (s : State) : VF × State :=
  if !e.body.score || skims e.body e.chain then (0, s) else
  let r := scoreSums e stored (s.core c)
  (r.2, updCore c (fun _ => r.1) s)

/-- The core whose working store holds a chain's side buffer: one of the same partition (R155; log 21, DESIGN CHOICE). -/
def sideCore (s : State) (c : CoreId) (e : MMEntry) : CoreId :=
  let h := cid (Config.sideHome c.1 e.id)
  if partOfCore s h.1 = partOfCore s c.1 then h else c

/-- The side partials of the stored values (R150). -/
def boundSide (c : CoreId) (e : MMEntry) (l : List Byte) (stored : List (List W32)) (s : State) : VF × State :=
  let h := sideCore s c e
  let r := sidePartials (s.core h).ws l (sideTiles c.1 e.id l) (Config.sideTile c.1 e.id).1 e.nReal stored
  (r.2, updCore h (fun x => { x with ws := r.1 }) s)

/-- The bytes of some runs of a working store are undefined (R155, R159; log 141, DESIGN CHOICE). -/
def spoil (ctr : Nat) (runs : List (Nat × Nat)) (ws : SMap Byte) : SMap Byte :=
  runs.foldl (fun ws r => wsWr ws r.1 ((List.range r.2).map (fun i => Config.undefByte ctr (r.1 + i)))) ws

/-- The LAST fold over a side buffer (R151, R155), where the instruction is marked LAST: none where an entry is still pending. The buffer's
lifetime ends with it; where it overlapped another's, the results are undefined (log 174, DESIGN CHOICE). -/
def boundLast (c : CoreId) (e : MMEntry) (l : List Byte) (s : State) : Option (VF × State) :=
  if chLast l && sideWork (some l) then
    let h := sideCore s c e
    let closed (x : Core) (ws : SMap Byte) : Core := { x with ws, sides := x.sides.filter (fun b => b.base != chSide l) }
    if (s.core h).sides.any (fun b => b.base == chSide l && b.bad) then
      some (0, { updCore h (fun x => closed x (spoil s.freeCtr [(chSide l, sideBytes l (sideTiles c.1 e.id l))] x.ws)) s with freeCtr := s.freeCtr + 1 })
    else (lastFold (s.core h).ws l (sideTiles c.1 e.id l) (mRows e) (((s.core c).getS (Fin.ofNat 64 (chSEPS l))).setWidth 32)).map
      (fun (ws, f) => (f, updCore h (fun x => closed x ws) s))
  else some (0, s)

/-- A skim pass's column results over its key tile: one value per key (R192). -/
def boundSkim (c : CoreId) (e : MMEntry) (stored : List (List W32)) (s : State) : State :=
  if !skims e.body e.chain then s else
  let k := e.key.getD {}
  updCore c (fun x => { x with skims := { entry := k.entry, layer := sLayer e.sideD.toNat, khead := e.khead, qhead := e.qhead, qtile := e.qtile
                                          keys := k.keys
                                          cols := (List.range k.keys.length).map (fun n => (redTree 0 (tileCol stored n)).1.getD 0) } :: x.skims }) s

/-- Byte runs, as start and length, that a tile's local destination writes (R157, R171). -/
def destRuns (l : List Byte) (t : ETile) (live : Nat → Bool) : List (Nat × Nat) :=
  let w := 16 * fmtBits t.fmt
  match chLocal l with
  | 2 => (List.range t.codes.length).flatMap (fun m => if live m then
      (chLaddr l + m * w, w) :: (if (t.scodes.getD m []).isEmpty then [] else [(chLsaddr l + 4 * m, 4)]) else [])
  | 3 => (chLaddr l, 64) :: (List.range t.codes.length).flatMap (fun m => if live m then
      [(chLaddr l + 64 + 4 * m, 4), (chLaddr l + 576 + m * w, w)] else [])
  | _ => []

/-- Byte runs that an extra stream reads for `rows` rows, at source row or position of each (R143, R146); a PEER stream reads none of the
working store. -/
def extraRuns (core : Nat) (ws : SMap Byte) (e : MMEntry) (rows : Nat) (x : XStream) : List (Nat × Nat) :=
  let w := fmtBits x.fmt / 8
  if !x.used then [] else
  match x.kind with
  | 1 => [(x.ea, 4 * Nat.max rows (if proOn e.chain 2 then (e.body.npass.toNat + 1) * kPerPass e.body.af e.body.wf else 0))]
  | 2 => (List.range rows).map (fun m => (x.ea + 512 * rowPos core e (srcRowOf ws e m), 512))
  | 4 => [(x.ea, w * rows)]
  | 6 => [(x.ea, w * 128)]
  | 7 => [(x.ea, w * 128)]
  | 8 => [(x.ea, w * 128)]
  | 9 => [(x.ea, w * 128 * rows)]
  | 10 => []
  | _ => [(x.ea, 8 * rows)]

/-- Bytes of `n` elements of a row, and of their scales, from an element and a scale address. -/
def lineRuns (f ea sa n : Nat) : List (Nat × Nat) :=
  let b := (n * fmtBits f + 7) / 8
  (ea, b) :: if isMX f then [(sa, (b + scaleDiv f - 1) / scaleDiv f)] else []

/-- Byte runs of the row operand in the working store, its scales and its imaginary plane included: none where the chain path feeds it
(R84, R146, R252). -/
def rowRuns (ws : SMap Byte) (stride : Nat) (e : MMEntry) (rows : Nat) : List (Nat × Nat) :=
  let d := e.rowD.toNat
  let b := e.body
  let k := (b.npass.toNat + 1) * kPerPass b.af b.wf
  let f := if b.qsrc = 2 then 0 else if b.qsrc = 1 then 1 else b.af.toNat
  let plane (ea sa : Nat) : List (Nat × Nat) :=
    if b.qsrc = 0 && dFlag54 d then [(ea, k / 128 * stride)]
    else if proOn e.chain 2 then
      (List.range k).flatMap (fun i => match gatherAt ws e (sourceCount ws e) i with
        | none => []
        | some r => [(ea + r * dPitch d, (rows * fmtBits f + 7) / 8), (if isMX f then (sa + r / 32 * 128, rows) else (0, 0))])
    else (List.range rows).flatMap (fun m => match srcRowOf ws e m with
      | none => []
      | some r => lineRuns f (ea + r * dPitch d) (sa + r * dPitch d / scaleDiv f) k)
  if b.qsrc = 3 then []
  else plane (dEA d) (dSA d) ++ if 3 ≤ b.mode.toNat then plane (Config.imagPlane e.rowD).1 (Config.imagPlane e.rowD).2 else []

/-- Bytes from one kept record to the next: the size reserved under R96 for the policy, format and row count that the first record's header
and the reader give (R252; log 157, DESIGN CHOICE). -/
def recStride (ws : SMap Byte) (e : MMEntry) (ea : Nat) : Nat :=
  recReserve { kind := wsRd ws (ea + 11) 1 } (BitVec.ofNat 5 (recFmt (wsRd ws ea 1))) (e.body.mrows.toNat + 1)

/-- Two lists of byte runs share a byte. -/
def runsMeet (a b : List (Nat × Nat)) : Bool :=
  a.any (fun x => b.any (fun y => decide (x.1 < y.1 + y.2 ∧ y.1 < x.1 + x.2)))

/-- A residual stream that coincides exactly with the destination (R159). -/
def residExact (l : List Byte) (t : ETile) (x : XStream) : Bool :=
  x.kind == 9 && chLocal l == 2 && x.ea == chLaddr l && fmtBits x.fmt == fmtBits t.fmt

/-- A destination overlaps an extra stream or the row operand otherwise than R159 allows. -/
def destOverlaps (core : Nat) (ws : SMap Byte) (e : MMEntry) (l : List Byte) (t : ETile) (live : Nat → Bool) : Bool :=
  let d := destRuns l t live
  let rows := t.codes.length
  runsMeet d (rowRuns ws (recStride ws e (dEA e.rowD.toNat)) e rows)
  || [chX l 0, chX l 1, chX l 2].any (fun x => !residExact l t x && runsMeet d (extraRuns core ws e rows x))

/-- An instruction that names a lengths table (R252). -/
def namesTable (e : MMEntry) : Bool := sLen e.sideD.toNat

/-- Deliver a tile, its destination's bytes undefined where they overlap an operand, and count the NaN inputs of its encoding (R47, R50,
R157-R159). -/
def deliverTile (c : CoreId) (e : MMEntry) (l : List Byte) (pol : Policy) (vals : List (List W32)) (t : ETile) (live : Nat → Bool)
    (s : State) : State :=
  let s1 := sendTile c l e.xd e.body.tag.toNat pol.kind e.body.eng e.body.half vals t live (if namesTable e then e.rows else []) s
  let s1 := updCore c (fun x => { x with nanIn := x.nanIn + (vals.map (nanInputs t.fmt 32)).sum }) s1
  if destOverlaps c.1 (s.core c).ws e l t live then
    { updCore c (fun x => { x with ws := spoil s.freeCtr (destRuns l t live) x.ws }) s1 with freeCtr := s1.freeCtr + 1 }
  else s1

/-- A bound epilogue (R150, R151): its stages, score sums, side partials, LAST fold and destinations in that order, with the flags it
raised. A LAST fold that finds an entry pending is late data, and nothing is delivered (R155, R158, R238). -/
def runBound (c : CoreId) (v : VXEntry) (e : MMEntry) (l : List Byte) (s : State) : State × VF :=
  let tab := tableOf s c e
  let live := fun m => !e.pv || rowLive tab e m
  let pol := policyOf s c (sLayer e.sideD.toNat)
  let ((vals, f0), s) := boundCompute c v e l s
  let t := encTile l vals
  let (f1, s) := boundScores c e t.values s
  let (f2, s) := boundSide c e l t.values (boundSkim c e t.values s)
  match boundLast c e l s with
  | none => (abortOf c { code := 0x21, src := c.1, ckpt := v.ckpt } s, 0)
  | some (f3, s) => (deliverTile c e l pol vals t live s, fl [f0, t.flags, f1, f2, f3])

/-! ### Launching (R114, R139, R247) -/

/-- Working-store bytes that a stream moves for `k` elements: its elements, and its scales in a block form (R115). -/
def streamBytes (st : StreamE) (k : Nat) : Nat :=
  if st.fmt = 0x1E || st.accs || st.chain then 0
  else (k * fmtBits st.fmt + 7) / 8 + if isMX st.fmt then (k + 31) / 32 else if isKC st.fmt then (k + 63) / 64 else 0

/-- Working-store bytes that an extra stream moves for `k` elements, in rows of 128 (R115, R143). -/
def extraBytes (x : XStream) (k : Nat) : Nat :=
  let w := fmtBits x.fmt / 8
  let rows := (k + 127) / 128
  if !x.used then 0 else
  match x.kind with
  | 2 => 512 * rows
  | 4 => w * rows
  | 5 => 8 * rows
  | 6 => w * 128
  | 7 => w * 128
  | 8 => w * 128
  | 9 => w * k
  | _ => 0

/-- Working-store and accumulator bytes that a beat of `k` elements of a bound VX moves: its tile, extra streams, destination and side
partials (R115, R155, R157). -/
def boundBytes (l : List Byte) (k : Nat) : Nat × Nat :=
  let f := if chEpi l 8 then chQfmt l else 0
  let xs := [chX l 0, chX l 1, chX l 2]
  let out := if chLocal l = 2 ∨ chLocal l = 3 then (k * fmtBits f + 7) / 8 + (if isMX f || isKC f then k / 32 else 0) else 0
  ((xs.map (fun x => extraBytes x k)).sum + out + (sideSets l).length * 16 * ((k + 127) / 128),
   4 * k + 4 * k * xs.countP (fun x => x.used && x.kind == 10))

/-- Clocks of a VX (R115). A SCAN moves v0, o0 and its flags, a NORM v0 and its 8 B records. REDUCE, SMERGE, PARK and RESTORE are not in the
table: they issue once a beat and take 12 fixed clocks, as R180's example of a merge does (log 177, DEDUCED). -/
def vxClocks (x : Core) (e : VXEntry) : Nat :=
  let n := cnt e
  let chain := e.bound.bind (fun b => b.chain)
  let ins := match e.op with
    | .perm => [ent e 1, ent e 4]
    | .scan => [ent e 0, ent e 4]
    | .norm => [ent e 0]
    | _ => (List.range 6).map (ent e)
  let bytes (k : Nat) (last : Bool) : Nat × Nat := match chain with
    | some l => boundBytes l k
    | none => ((ins.map (fun st => streamBytes st k)).sum + (if e.op = .scan ∧ e.body.se ≠ 0 then (k + 7) / 8 else 0)
                 + (if e.op = .norm ∧ last then 8 else 0),
               4 * k * ins.countP (fun st => st.fmt != 0x1E && st.accs))
  let beats (issueClocks : Nat) : Nat := ((chunks 1024 (List.range n)).map (fun b =>
    let q := bytes b.length (b.getLastD 0 + 1 == n)
    Nat.max issueClocks (Nat.max ((q.1 + 255) / 256) ((q.2 + 511) / 512)))).sum
  match e.op with
  | .recipe =>
    let slot : Option Nat := match chain with
      | some l => if chEpi l 7 then some (chSlot l) else none
      | none => some e.body.slot.1
    let bs := bundles ((slot.bind (fun k => (x.ve.recipes[k]?).getD none)).getD [])
    beats ((bs.map (fun v => if 6 ≤ bSop v ∧ bSop v ≤ 10 then 2 else 1)).sum) + 12
  | .scan => beats 2 + 16
  | .perm => beats 1 + 8 + (n * (fmtBits (ent e 0).fmt / 8) + 255) / 256
  | .norm => (e.body.rm1.toNat + 1) * (beats 4 + 40)
  | .rload => 8 + (16 + 16 * (rd8 x.ws (ent e 0).ea).toNat + 255) / 256
  | .tload => 8 + (32 + 12 * 2 ^ Nat.min 9 (rd8 x.ws (ent e 0).ea).toNat + 255) / 256
  | _ => beats 1 + 12

/-- A permutation's streams do not fit R126: a source of 1, 2 or 4 bytes per element, an int32 index, an output of the source's width. -/
def permBad (src idx out : StreamE) : Bool :=
  !decide (fmtBits src.fmt = 8 ∨ fmtBits src.fmt = 16 ∨ fmtBits src.fmt = 32) || decide (idx.fmt ≠ 0x06)
  || (out.fmt != 0x1E && decide (fmtBits out.fmt ≠ fmtBits src.fmt))

/-- Why a launch is an illegal instruction, if it is (R117, R118, R133, R140, R255). -/
def vxIllegal (s : State) (c : CoreId) (e : VXEntry) : Option Nat :=
  let x := s.core c
  let unloaded (bs : List Nat) : Bool :=
    (tabsUsed bs).any (fun k => (match x.ve.tables[k]? with
      | some t => activeBank (swapSlot t)
      | none => none).isNone)
  match e.op, e.bound.bind (fun b => b.chain) with
  | .recipe, some l =>
    if !chEpi l 7 then none
    else (match (x.ve.recipes[chSlot l]?).getD none with
      | none => some 0x0D
      | some r => if unloaded (bundles r) then some 0x07 else none)
  | .recipe, none =>
    if streamsBad e.desc then some 0x09
    else (match (x.ve.recipes[e.body.slot.1]?).getD none with
      | none => some 0x0D
      | some r => if unloaded (bundles r) then some 0x07 else none)
  | .rload, _ => if streamCodesBad e.desc then some 0x09 else if recipeOk (recipeAt x.ws (ent e 0).ea) then none else some 0x06
  | .tload, _ => if streamCodesBad e.desc then some 0x09 else if tableOk (tableAt x.ws (ent e 0).ea) then none else some 0x07
  | .norm, _ => if streamsBad e.desc then some 0x09 else if s.flt.limited && !e.body.sel then some 0x08 else none
  | .restore, _ => if streamCodesBad e.desc then some 0x09 else none
  | .perm, _ => if streamsBad e.desc || permBad (ent e 0) (ent e 1) (ent e 4) then some 0x09 else none
  | _, _ => if streamsBad e.desc then some 0x09 else none

/-- Positions within a block at which entries of the core's task go on in a tail block (R188). -/
def tailStarts (s : State) (c : CoreId) : List Nat :=
  match (partOfCore s c.1).bind (fun p => (s.part p).task) with
  | none => []
  | some t => (t.entries.map (fun e => e.len.qpos.toNat % 64)).filter (fun n => n != 0)

/-- Run a VX at its launch: every effect but its completion. RLOAD and TLOAD read at v0's address (log 178, DESIGN CHOICE). -/
def vxRun (c : CoreId) (e : VXEntry) (s : State) : State × VF :=
  let ctr := s.freeCtr
  let on (r : Core × VF) : State × VF := ({ updCore c (fun _ => r.1) s with freeCtr := ctr + 1 }, r.2)
  let x := s.core c
  match e.op, e.bound with
  | .recipe, some b => (match b.chain with
      | some l => runBound c e b l s
      | none => (s, 0))
  | .recipe, none => on (vxRecipe (tailStarts s c) ctr e (((x.ve.recipes[e.body.slot.1]?).getD none).getD []) x)
  | .scan, _ => on (vxScan ctr e x)
  | .perm, _ => on (vxPerm ctr e x)
  | .norm, _ => on (vxNorm ctr e x)
  | .reduce, _ => on (vxReduce ctr e x)
  | .smerge, _ => on (vxMerge ctr e x)
  | .park, _ => on (vxPark ctr e x)
  | .restore, _ => on (vxRestore e x)
  | .rload, _ => on ({ x with ve := { x.ve with recipes := x.ve.recipes.set e.body.slot.1 (some (recipeAt x.ws (ent e 0).ea)) e.body.slot.2 } }, 0)
  | .tload, _ =>
    let k : Fin 4 := Fin.ofNat 4 e.body.slot.1
    on ({ x with ve := { x.ve with tables := x.ve.tables.set k.1 (startLoad (x.ve.tables[k.1]'k.2) (tableAt x.ws (ent e 0).ea)) k.2 } }, 0)

/-- The recipe tag that a fault of a VX quotes: that of the recipe it runs, or offers to a load; 0 for none (R117). -/
def vxTag (x : Core) (e : VXEntry) : Nat :=
  match e.op, e.bound.bind (fun b => b.chain) with
  | .recipe, some l => fieldLE (((x.ve.recipes[chSlot l]?).getD none).getD []) 2 2
  | .recipe, none => fieldLE (((x.ve.recipes[e.body.slot.1]?).getD none).getD []) 2 2
  | .rload, _ => fieldLE (recipeAt x.ws (ent e 0).ea) 2 2
  | _, _ => 0

/-- Every MM and CX of its engine up to the one a bound VX waits for has finished its passes, a skipped PV its turn (R68, R150, R177, R247). -/
def boundReady (x : Core) (e : VXEntry) : Bool :=
  match e.bound with
  | none => true
  | some b => (x.eng[b.body.eng.1]'b.body.eng.2).queue.all (fun q => decide (b.id < q.id) || q.done)

/-- Every MM, CX and VX issued before a fill has finished its working-store accesses (R225, R247). -/
def beforeDone (x : Core) (id : Nat) : Bool :=
  x.eng.all (fun g => g.queue.all (fun q => q.done || decide (id ≤ q.id)))
  && x.ve.queue.all (fun v => v.flags.isSome || decide (id ≤ v.id))

/-- A core is in a fill phase: its scoops write the working store, and no engine may (R20, R225). -/
def inFill (x : Core) : Bool :=
  match x.scq with
  | e :: _ => e.arm.isNone && !e.ran && beforeDone x e.id
  | [] => false

/-- An MM or CX that is to set a side buffer pending (R155). -/
def opensSide (q : MMEntry) : Bool := !q.done && q.slice == 0 && q.sub == 0 && sideWork q.chain && (q.chain.map chFirst).getD false

/-- An instruction may touch its side buffer: the buffer's core is in no fill phase, unless it is the instruction's own, and no FIRST
issued before it is still to set the buffer pending (R20, R155; log 72, DEDUCED). -/
def sideFree (s : State) (c : CoreId) (e : MMEntry) : Bool :=
  let h := sideCore s c e
  let base (q : MMEntry) : Nat := (q.chain.map chSide).getD 0
  !sideWork e.chain
  || ((h == c || !inFill (s.core h))
    && (s.core c).eng.all (fun g => g.queue.all (fun q => !(opensSide q && decide (q.id < e.id) && base q == base e && sideCore s c q == h))))

/-- A VX may launch: the MM it waits for is done, no fence bars it, and its side buffer is free (R20, R68, R155, R247). -/
def vxReady (s : State) (c : CoreId) (e : VXEntry) : Bool :=
  boundReady (s.core c) e && !fenced (s.core c) e.id && (e.bound.map (sideFree s c)).getD true

/-- The banks at a launch: every slot whose inactive bank is ready swaps, but the one a table load names, whose ready bank is overwritten
(R139, R140; log 158, DEDUCED). -/
def swapBanks (e : VXEntry) (t : Vector TabSlot 4) : Vector TabSlot 4 :=
  let k : Fin 4 := Fin.ofNat 4 e.body.slot.1
  if e.op = .tload then (t.map swapSlot).set k.1 (t[k.1]'k.2) k.2 else t.map swapSlot

/-- Start a VX whose charge is made: swap ready banks, check, run (R114, R139). A launch that turns out an illegal instruction keeps the banks as
they were (log 179, DESIGN CHOICE). -/
def startVX (c : CoreId) (e : VXEntry) (s : State) : State :=
  match vxIllegal s c e with
  | some r => illegalOf c r e.pc (vxTag (s.core c) e) s
  | none =>
    let s := updCore c (fun x => { x with ve := { x.ve with tables := swapBanks e x.ve.tables } }) s
    let (s, f) := vxRun c e s
    updCore c (fun x => { x with ve := { x.ve with
      queue := mapIf (fun q => q.id == e.id) (fun q => { q with flags := some f }) x.ve.queue } }) s

/-- The charge of a VX (R363). -/
def chargeVX (c : CoreId) (e : VXEntry) (s : State) : Bool × State :=
  match partOfCore s c.1 with
  | some p => charge p [(bENG, vxClocks (s.core c) e), (bENERGY, energyFor s 1 (cnt e))] s
  | none => (true, s)

/-- Launch one VX: charge and start it (R114, R363). None where it must wait. -/
def launch (c : CoreId) (e : VXEntry) (s : State) : Option State :=
  if !vxReady s c e then none
  else
    let r := chargeVX c e s
    if r.1 then some (startVX c e r.2) else none

/-- The VX whose turn it is: the oldest not launched, once every one before it has completed, but for table loads, which run beside the
others (R114). -/
def nextVX : List VXEntry → Option VXEntry
  | [] => none
  | e :: r => if e.flags.isNone then some e else if e.op = .tload then nextVX r else none

/-- Launch the VX whose turn it is, and those that may run beside a table load (R114, R247). -/
def vePump (c : CoreId) : Nat → State → State
  | 0, s => s
  | k + 1, s =>
    match nextVX (s.core c).ve.queue with
    | none => s
    | some e => match launch c e s with
      | none => holdCharge c e s
      | some s => vePump c k s
where
  /-- A launch refused by a budget counts its hold (R364, R368). -/
  holdCharge (c : CoreId) (e : VXEntry) (s : State) : State :=
    if !vxReady s c e then s
    else (chargeVX c e s).2

/-- The entry that a VX becomes, with what it reads at issue (R254). -/
def vxEntry (op : VOp) (x : Core) (h : TileHdr) (b : VXBody) (id : Nat) : VXEntry :=
  { id, pc := x.pc, ckpt := h.ckpt.toNat, op, body := b, desc := rdBytes x.dstore (x.getS b.sd).toNat 48, seReg := x.getS b.se
    bound := if b.bind then (x.eng[b.beng.1]'b.beng.2).toBind else none }

/-- What PARK and RESTORE do to the sweep of the engine they name, in program order: a parked sweep leaves its engine with its rows and its
place, and a restored one goes on (R178, R179). -/
def moveSweep (e : VXEntry) (x : Core) : Core :=
  match e.op with
  | .park =>
    let i : Fin 4 := Fin.ofNat 4 (ent e 0).eng
    let g := x.eng[i.1]'i.2
    (match g.sweep with
      | none => x
      | some w => { x with
          eng := x.eng.set i.1 { g with sweep := none, armed := (none, none), skipPV := (false, false) } i.2
          parked := ((ent e 4).ea, w) :: x.parked.filter (fun k => k.1 != (ent e 4).ea) })
  | .restore =>
    let i : Fin 4 := Fin.ofNat 4 (ent e 4).eng
    (match x.parked.find? (fun k => k.1 == (ent e 0).ea) with
      | none => x
      | some k => { x with eng := x.eng.set i.1 { (x.eng[i.1]'i.2) with sweep := some k.2 } i.2 })
  | _ => x

/-- A PARK of a sweep none of whose tiles was issued (R179). -/
def parksEmpty (e : VXEntry) (x : Core) : Bool :=
  e.op == .park && (match (engOf x (ent e 0).eng).sweep with
    | some w => !w.begun
    | none => false)

/-- Issue a VX (R246, R247, R254): its stream descriptor is read, and a BIND takes the engine's waiting MM or CX. That the VX after a
vector-path chain has BIND set is the program's duty (R253): no reason of R260 names the other case. -/
def vxIssue (op : VOp) (c : CoreId) (h : TileHdr) (b : VXBody) (s : State) : State :=
  issue c h (fun x => decide (8 ≤ x.ve.queue.length)) (fun s =>
    let x := s.core c
    let g := x.eng[b.beng.1]'b.beng.2
    let off := (x.getS b.sd).toNat
    if b.bind && g.skipVX then
      nextLine c (meetCkptOf c h.ckpt.toNat (updEngine c b.beng (fun g => { g with skipVX := false }) s))
    else if b.bind && (g.toBind.isNone || op != .recipe) then illegal c 0x0B x.pc s
    else if !b.bind && decide (0x20000 < off + 48) then illegal c 0x09 x.pc s
    else
      let (id, s) := takeId c s
      let e := vxEntry op x h b id
      let e := { e with empty := parksEmpty e x }
      let s := updCore c (moveSweep e) s
      let s := if b.bind then updEngine c b.beng (fun g => { g with toBind := none }) s else s
      let s := updCore c (fun x => { x with ve := { x.ve with queue := x.ve.queue ++ [e] } }) s
      vePump c 8 (nextLine c s)) s

/-- A tile line that the loader's static checks refuse (R260): no program holds it, so it stops by name. -/
def staticCheck (ok : Bool) (mnemonic : String) (s : State) : Res := if ok then .next s else .fault (.staticallyIllegal mnemonic)

def execRecipe (c : CoreId) (h : TileHdr) (b : VXBody) (s : State) : Res :=
  staticCheck (Instr.recipe c h b).wellFormed "RECIPE" (vxIssue .recipe c h b s)
def execScan (c : CoreId) (h : TileHdr) (b : VXBody) (s : State) : Res :=
  staticCheck (Instr.scan c h b).wellFormed "SCAN" (vxIssue .scan c h b s)
def execPerm (c : CoreId) (h : TileHdr) (b : VXBody) (s : State) : Res :=
  staticCheck (Instr.perm c h b).wellFormed "PERM" (vxIssue .perm c h b s)
def execNorm (c : CoreId) (h : TileHdr) (b : VXBody) (s : State) : Res :=
  staticCheck (Instr.norm c h b).wellFormed "NORM" (vxIssue .norm c h b s)
def execReduce (c : CoreId) (h : TileHdr) (b : VXBody) (s : State) : Res :=
  staticCheck (Instr.reduce c h b).wellFormed "REDUCE" (vxIssue .reduce c h b s)
def execSmerge (c : CoreId) (h : TileHdr) (b : VXBody) (s : State) : Res :=
  staticCheck (Instr.smerge c h b).wellFormed "SMERGE" (vxIssue .smerge c h b s)
def execPark (c : CoreId) (h : TileHdr) (b : VXBody) (s : State) : Res :=
  staticCheck (Instr.park c h b).wellFormed "PARK" (vxIssue .park c h b s)
def execRestore (c : CoreId) (h : TileHdr) (b : VXBody) (s : State) : Res :=
  staticCheck (Instr.restore c h b).wellFormed "RESTORE" (vxIssue .restore c h b s)
def execRload (c : CoreId) (h : TileHdr) (b : VXBody) (s : State) : Res :=
  staticCheck (Instr.rload c h b).wellFormed "RLOAD" (vxIssue .rload c h b s)
def execTload (c : CoreId) (h : TileHdr) (b : VXBody) (s : State) : Res :=
  staticCheck (Instr.tload c h b).wellFormed "TLOAD" (vxIssue .tload c h b s)

end Sys2Proof.Machine
end

