-- ==== Sys2Proof/Machine/Exchange.lean ====
section
/-! DEFINITION. Collective groups and their instances (R279-R284, R296): exchange descriptors, opening an instance, landing
local tiles and remote pieces in exchange memory. -/

namespace Sys2Proof.Machine

/-- The exchange descriptor of an index in a core's descriptor store (R283). -/
def exchAt (d : SMap Byte) (base xd : Nat) : Exch :=
  let a := base + 64 * xd
  { ctype := rdLE d a 1, dfmt := rdLE d (a + 1) 1, gid := rdLE d (a + 2) 1, flags := rdLE d (a + 3) 1,
    total := rdLE d (a + 4) 4, root := rdLE d (a + 8) 2, axes := rdLE d (a + 10) 1, tctr := rdLE d (a + 11) 1,
    boff := rdLE d (a + 12) 4, op0 := rdLE d (a + 16) 2, nops := rdLE d (a + 18) 2 }

/-- An unbound repetition of an operation consumes a piece of this header, its bytes being those that the piece carries where `exact` asks for it:
the local piece at its offset, or the landed one (R285, R288; log 36, DESIGN CHOICE). -/
def takesPiece (g : Group) (port slot : Nat) (o : TrigOp) (h : PktHdr) (strict exact : Bool) (k : Nat) : Bool :=
  let i := opInst g port slot o k
  let at_ (a : Nat) : Bool := i.any (fun i => decide (i.2.boff ≤ a ∧ a - i.2.boff = h.offset.toNat))
  !g.bound.any (fun b => b.port == port && b.slot == slot && b.rep == k) && decide (o.fired ≤ k)
  && (if strict then feeds o k h.step.toNat else opStep o k == h.step.toNat)
  && i.any (fun i => i.1 == h.gseq.toNat) && (!exact || at_ (o.loc + k * o.lstr * 64) || at_ (o.lnd + k * o.nstr * 64))

/-- The repetitions that take a landed piece, one of each operation slot at most: those whose bytes it carries, else any of its step (R281,
R284, R285; log 36, DESIGN CHOICE). -/
def landOps (x : Part) (g : Group) (port : Nat) (h : PktHdr) : List (Nat × TrigOp × Nat) :=
  let ops := x.ops.filter (fun q => q.1 == port && q.2.2.gid == g.gid && consumes (Config.deliversLanded port q.2.1) q.2.2)
  let l (strict exact : Bool) := ops.filterMap (fun q =>
    ((List.range q.2.2.reps).find? (takesPiece g port q.2.1 q.2.2 h strict exact)).map (fun k => (q.2.1, q.2.2, k)))
  if !(l true true).isEmpty then l true true else if !(l true false).isEmpty then l true false else l false false

/-- A remote piece has landed whole: its bytes go where the operations that take it look for it, their trigger counters advance by 1 each (R284,
R285), and it waits until all of them have consumed it (R281). Bit 0 of PFLAGS marks the step's last piece from its source (R278, R293). -/
def landPiece (p : PartId) (port : Nat) (g : Group) (h : PktHdr) (data : List Byte) (s : State) : State :=
  let ops := landOps (s.part p) g port h
  let free := Config.landAt port g.gid h.step.toNat
  let places := if ops.isEmpty then [free.1] else ops.map (fun (_, o, k) => o.lnd + k * o.nstr * 64)
  let ctrs := if ops.isEmpty then [free.2 % 256] else (ops.map (fun (_, o, _) => o.tc)).dedup
  let s := updPart p (fun x => ctrs.foldl (fun x k => bumpCtr port k x)
    { x with xmem := places.foldl (fun m a => wrBytes m (bufAddr g port a) data) x.xmem }) s
  updGroup p g.gid (fun g => { g with
    bound := ops.map (fun (slot, _, k) => { port, slot, rep := k, step := h.step.toNat }) ++ g.bound
    unacked := g.unacked ++ [(port, h, ops.map (fun (slot, _, k) => (slot, k)))]
    stepGot := { gseq := h.gseq.toNat, step := h.step.toNat, port, mem := (g.members.findIdx? (fun m => decide (m = h.src))).getD g.members.length
                 last := h.pflags.getLsbD 0 } :: g.stepGot }) s

/-- A piece and the local instance agree (R296). -/
def pieceMatches (e : Exch) (h : PktHdr) : Bool :=
  decide (h.ctype.toNat = e.ctype) && decide (h.dfmt.toNat = e.dfmt) && decide (h.total.toNat = e.total)

/-- The descriptor of an instance opened in the task. -/
def instOf (g : Group) (gseq : Nat) : Option Exch := (g.insts.find? (fun i => i.1 == gseq)).map Prod.snd

/-- Land the pieces that waited for an instance, comparing each at the opening (R296). -/
def landWaiting (p : PartId) (gid : Nat) (s : State) : State :=
  match groupOfGid (s.part p) gid with
  | none => s
  | some g =>
    let (now, later) := g.waiting.partition (fun w => (instOf g w.2.1.gseq.toNat).isSome)
    let s := updGroup p gid (fun g => { g with waiting := later }) s
    forAll now (fun w s =>
      if !((instOf g w.2.1.gseq.toNat).any (fun e => pieceMatches e w.2.1)) then abortTask p { code := 0x27, src := 0xFFFF } false s
      else landPiece p w.1 g w.2.1 w.2.2 s) s

/-- Open the exchange instance that a CX names, unless it is open (R282, R283); a CX that names a group that is unusable here
aborts its task with 0x27 (R280). -/
def openExchange (c : CoreId) (xd : Nat) (s : State) : State :=
  match cfgOf s c with
  | none => s
  | some (p, cfg) =>
    let e := exchAt (s.core c).dstore cfg.exchOff xd
    match groupOfGid (s.part p) e.gid with
    | none => abortOf c { code := 0x27, src := c.1, unusable := true } s
    | some g =>
      if !g.usable then abortOf c { code := 0x27, src := c.1, unusable := true } s
      else if g.opens.any (fun o => o.1 == xd) then s
      else landWaiting p e.gid (updGroup p e.gid (fun g => { g with
        opens := (xd, 0) :: g.opens, insts := (g.gseq, e) :: g.insts, gseq := (g.gseq + 1) % 65536 }) s)

/-- Local bytes of an open instance land: it closes once all of them have (R283). -/
def openTiles (xd n total : Nat) (l : List (Nat × Nat)) : List (Nat × Nat) :=
  (l.map (fun o => if o.1 = xd then (o.1, o.2 + n) else o)).filter (fun o => o.1 != xd || decide (o.2 < total))

/-- The group a CX names can be used (R280). -/
def groupUsable (c : CoreId) (xd : Nat) (s : State) : Bool :=
  match cfgOf s c with
  | none => true
  | some (p, cfg) => match groupOfGid (s.part p) (exchAt (s.core c).dstore cfg.exchOff xd).gid with
    | none => false
    | some g => g.usable

end Sys2Proof.Machine
end

