-- ==== Sys2Proof/Machine/Matrix.lean ====
section
/-! DEFINITION. MM and CX issue (R251-R253) and the matrix pass: staging and quantising (R92-R112), block sums and the
taster (R60-R64, R88-R91), multi-pass and complex products (R81-R86), score capture and PV (R161-R177), output-path
epilogues (R150-R158). -/

namespace Sys2Proof.Machine

/-! ### Issue -/

/-- Stage 3 or 4 of the prologue selected on a row operand that is already narrow (R145). -/
def narrowProBad (b : MMBody) (l : List Byte) : Bool :=
  (chPro l 3 || chPro l 4) && (b.qsrc == 0 || b.qsrc == 3) && fclass b.af != .bf16s

/-- The mean-variance row statistic is not available in limited service (R133). -/
def limitedBad (s : State) (l : List Byte) : Bool := s.flt.limited && chEpi l 10 && !chRms l

/-- Why a chain makes the instruction illegal at issue, if it does (R133, R142, R145, R253). -/
def chainIllegal (s : State) (b : MMBody) (l : List Byte) : Option Nat :=
  if chainBad l then some 0x09
  else if chainLacks l then some 0x03
  else if narrowProBad b l then some 0x04
  else if limitedBad s l then some 0x08
  else none

/-- A chain selects a vector-path stage, so it binds the next VX (R253). -/
def bindsVX (l : List Byte) : Bool := chVector l

/-! ### Sweeps (R167-R172, R181, R182, R191) -/

/-- A BF16 product of attention reads a keeper head (R164, R189). -/
def keeperMM (b : MMBody) : Bool := fclass b.wf == .bf16s

/-- Recorded positions of a keeper head's entries: the shared prefix, then the occupied slots with the task's new positions behind
them (R190, R191). -/
def keeperKeys (s : State) (p : PartId) (m : ModelCfg) (r : LRow) (layer head : Nat) : List Nat :=
  match (s.part p).xtabs.find? (fun t => t.idx == r.xtab) with
  | none => []
  | some t =>
    let store := keeperStore s m t layer head
    positions 0 (sharedPos t)
      ++ (List.range (heldSlots m t layer head r.qpos)).map (fun i => fieldLE (tierRead s (slotRec m layer store i) 4) 0 4)
      ++ positions r.qpos r.qlen

/-- Steps of a sweep: those of the ring, else one (R182). -/
def sweepSteps (s : State) (p : PartId) (b : MMBody) : Nat :=
  match (taskModel s p).bind (ringOf s) with
  | some (_, g, _) => if keeperMM b then 1 else g
  | none => 1

/-- Key tiles of an entry at a step of its sweep (R168, R182, R191). -/
def entryTiles (s : State) (p : PartId) (b : MMBody) (layer head step : Nat) (r : LRow) : List (List Nat) :=
  match taskModel s p with
  | none => runTiles [(0, r.qpos + r.qlen)]
  | some m =>
    if keeperMM b then chunks 128 ((keeperKeys s p m r layer ((heldKeepers s m layer).getD head 0)).map (globalPos s m))
    else match ringOf s m with
      | none => runTiles [(0, r.qpos + r.qlen)]
      | some (i, g, c) => runTiles (stepRuns (2 * g * c) i g c step)

/-- The key tiles that a query tile's sweep covers, in order (R168, R182). -/
def keyTilesOf (s : State) (c : CoreId) (e : MMEntry) (tab : List LRow) (rows : List (Nat × Nat)) (head : Nat) : List KTile :=
  match partOfCore s c.1 with
  | none => []
  | some p => sweepTiles rows (fun k i => entryTiles s p e.body (sLayer e.sideD.toNat) head k (tab.getD i {})) (sweepSteps s p e.body) tab.length

/-- The key tile a sweep comes to next; past its last one, a tile with no key (R168, R179). -/
def keyTileAt (s : State) (c : CoreId) (e : MMEntry) (tab : List LRow) (w : Sweep) : KTile :=
  if (w.hi.map (fun h => decide (h ≤ w.next))).getD false then {} else (keyTilesOf s c e tab w.rows w.head).getD w.next {}

/-- The rows of query tile `t` of a table, each as its entry and its position in its sequence (R168, R172, R182; log 23, DEDUCED). -/
def queryTileRows (s : State) (c : CoreId) (tab : List LRow) (b : MMBody) (t : Nat) : List (Nat × Nat) :=
  let l := tileRows tab t (b.mrows.toNat + 1)
  match (partOfCore s c.1).bind (taskModel s) with
  | none => l
  | some m => l.map (fun x => (x.1, globalPos s m x.2))

/-- A sweep that starts at an instruction (R168, R171, R191; log 20, DESIGN CHOICE). Split i of S takes tiles floor(i T / S) to
floor((i + 1) T / S) - 1 of the T that the head has, a ring's sweep all of them (R179, R182; log 172, DESIGN CHOICE). -/
def newSweep (s : State) (c : CoreId) (tab : List LRow) (e : MMEntry) : Sweep :=
  let rows := queryTileRows s c tab e.body (Config.queryTile c.1 e.id)
  let head := match (partOfCore s c.1).bind (taskModel s) with
    | none => 0
    | some m => Config.keeperHead c.1 e.id % Nat.max 1 (m.keepers.map (fun k => k.2.2.2.length)).sum
  let n := (keyTilesOf s c e tab rows head).length
  let k := Config.splitOf c.1 e.id
  let parts := if ((partOfCore s c.1).bind (taskModel s)).bind (ringOf s) |>.isSome then 1 else k.2 % 16 + 1
  let i := k.1 % parts
  { rows, head, qhead := Config.queryHead c.1 e.id, tile := Config.queryTile c.1 e.id
    lo := i * n / parts, hi := some ((i + 1) * n / parts), next := i * n / parts }

/-- The sweep that a score pass goes on with: the one in progress, else a new one. A skim pass goes over the sweep that has ended, from
its first tile (R171, R174, R192). -/
def sweepFor (s : State) (c : CoreId) (tab : List LRow) (e : MMEntry) (g : Engine) : Sweep :=
  match g.sweep with
  | none => newSweep s c tab e
  | some w =>
    if skims e.body e.chain then
      (if !w.skim || (keyTileAt s c e tab w).keys.isEmpty then { w with next := w.lo, done := true, skim := true } else w)
    else if w.done then newSweep s c tab e else w

def slotOf {α : Type} (x : α × α) (slot : Bool) : α := if slot then x.2 else x.1
def setSlot {α : Type} (slot : Bool) (v : α) (x : α × α) : α × α := if slot then (x.1, v) else (v, x.2)

/-- The PV of a score tile: it reads the factor slot of a score pass that waits for its PV (R174, R176; log 159, DEDUCED). -/
def isPV (e : MMEntry) (g : Engine) : Bool := namesTable e && !e.body.score && (slotOf g.armed e.body.aslot).isSome

/-- Every row of a score tile is wholly masked (R80, R170). -/
def whollyMasked (e : MMEntry) : Bool := (List.range (mRows e)).all (fun m => scoreCols e m == 0)

/-- The rows, key tile and sweep marks that an instruction takes at issue (R168, R171, R174, R176). -/
def withSweep (s : State) (c : CoreId) (tab : List LRow) (g : Engine) (e : MMEntry) : MMEntry :=
  if !namesTable e then { e with rows := queryTileRows s c tab e.body (Config.queryTile c.1 e.id) }
  else if e.body.score then
    let w := sweepFor s c tab e g
    { e with rows := w.rows, key := some (keyTileAt s c e tab w), first := !w.begun, khead := w.head, qhead := w.qhead, qtile := w.tile }
  else match isPV e g, g.sweep with
    | true, some w => { e with rows := w.rows, key := slotOf g.armed e.body.aslot, pv := true, fresh := !w.pvBegun
                               skipped := slotOf g.skipPV e.body.aslot }
    | _, _ =>
      let w := newSweep s c tab e
      { e with rows := w.rows, key := some (keyTileAt s c e tab { w with next := 0, hi := none }) }

/-- Real K indices and columns of an instruction: those of an attention tile are known; of any other the last K-slice and the columns hold an
open number (R88, R99, R161, R168; log 65, DESIGN CHOICE). -/
def withExtent (s : State) (c : CoreId) (e : MMEntry) : MMEntry :=
  let width := (((partOfCore s c.1).bind (taskModel s)).map (fun m => m.width)).getD 128
  let kp := kPerPass e.body.af e.body.wf
  let k := Config.tileExtent c.1 e.id
  match e.key, e.body.score, e.pv with
  | some t, true, _ => { e with kReal := width, nReal := t.keys.length }
  | some t, _, true => { e with kReal := t.keys.length, nReal := width }
  | _, _, _ => { e with kReal := e.body.npass.toNat * kp + k.1 % kp + 1, nReal := k.2 % 128 + 1 }

/-- The entry that an MM or CX becomes, with what it reads at issue (R251-R253). -/
def mmEntry (s : State) (c : CoreId) (h : TileHdr) (b : MMBody) (xd : Option Nat) (ch : Option (List Byte)) (id : Nat) : MMEntry :=
  let x := s.core c
  let e : MMEntry := { id, pc := x.pc, ckpt := h.ckpt.toNat, body := b, xd, rowD := x.getS b.sa, wD := x.getS b.sw, sideD := x.getS b.sx
                       chain := ch, scalarC := (x.getS (Fin.ofNat 64 (chSC (ch.getD [])))).setWidth 32 }
  withExtent s c (withSweep s c (tableOf s c e) (x.eng[b.eng.1]'b.eng.2) e)

/-- What a score pass leaves of the sweep at issue: the next tile, and the factor slot that waits for its PV; a skipped tile does not begin the
sweep (R80, R168, R174, R179). -/
def afterScore (s : State) (c : CoreId) (tab : List LRow) (e : MMEntry) (skipped : Bool) (g : Engine) : Engine :=
  let w := sweepFor s c tab e g
  if skims e.body e.chain then { g with sweep := some { w with next := w.next + 1 } }
  else { g with
    sweep := some { w with next := w.next + 1, begun := w.begun || !skipped, skim := false }
    armed := setSlot e.body.aslot e.key g.armed, skipPV := setSlot e.body.aslot skipped g.skipPV }

/-- What a PV leaves of the sweep at issue: its factor slot is free, and the sweep ends with the PV that binds a VX (R176, R177). -/
def afterPV (e : MMEntry) (g : Engine) : Engine :=
  { g with
    sweep := g.sweep.map (fun w => { w with pvBegun := w.pvBegun || !e.skipped, done := w.done || (e.chain.map bindsVX).getD false })
    armed := setSlot e.body.aslot none g.armed, skipPV := setSlot e.body.aslot false g.skipPV }

/-- Skip a wholly masked score tile: no pass is issued, its factor slot and its bound VX are skipped. Where it has side partials the
entry waits its turn to mark them empty, and its checkpoint with it; else the checkpoint counts as met (R80, R155, R247). A skipped tile
marked LAST folds nothing (log 180, DESIGN CHOICE). -/
def skipTile (c : CoreId) (e : MMEntry) (s : State) : State :=
  let s := updEngine c e.body.eng (fun g => { g with skipVX := (e.chain.map bindsVX).getD false, toBind := none }) s
  if sideWork e.chain then updEngine c e.body.eng (fun g => { g with queue := g.queue ++ [{ e with skip := true }] }) s
  else meetCkptOf c e.ckpt s

/-- Skip the PV of a skipped score tile. One that binds a VX still closes the sweep: it waits its turn behind the PV passes before it, runs no
pass, and its epilogue follows (R80, R155, R177). -/
def skipPVTile (c : CoreId) (e : MMEntry) (s : State) : State :=
  if (e.chain.map bindsVX).getD false then
    updEngine c e.body.eng (fun g => { g with queue := g.queue ++ [{ e with skip := true }], toBind := some { e with skip := true } }) s
  else meetCkptOf c e.ckpt (updEngine c e.body.eng (fun g => { g with toBind := none }) s)

/-- The tile group of the engine's unit has started: its next program takes its own snapshot, once no sweep holds this one (R200; log 163,
DESIGN CHOICE). -/
def useSnap (c : CoreId) (i : Fin 4) (s : State) : State :=
  updScoop c (Fin.castSucc i) (fun u => { u with snap := u.snap.map (fun k => { k with used := true }) }) s

/-- Put an instruction in its engine's queue: a later BIND takes the last one issued (R247, R254), and its tile group starts (R200). -/
def enqueueMM (c : CoreId) (e : MMEntry) (s : State) : State :=
  useSnap c e.body.eng (updEngine c e.body.eng (fun g => { g with
    queue := g.queue ++ [e]
    toBind := if (e.chain.map bindsVX).getD false then some e else none }) s)

/-- The descriptor of an MM's or CX's epilogue chain: none where s0 names it (R253). -/
def epiOf (x : Core) (b : MMBody) : Option (List Byte) := if b.sch = 0 then none else some (rdBytes x.dstore (x.getS b.sch).toNat 64)

/-- Why an MM or CX is an illegal instruction, if it is (R252, R253, R260). -/
def mmReject (s : State) (c : CoreId) (b : MMBody) : Option Nat :=
  let x := s.core c
  let off := (x.getS b.sch).toNat
  if mmDescBad b.qsrc.toNat (x.getS b.sa).toNat (x.getS b.sw).toNat (x.getS b.sx).toNat then some 0x09
  else match epiOf x b with
    | none => none
    | some l => if off % 64 ≠ 0 ∨ 0x20000 < off + 64 then some 0x09 else chainIllegal s b l

/-- Put the instruction in its queue, unless its tile is skipped, and move the sweep on (R80, R155, R176). -/
def admitMM (c : CoreId) (e : MMEntry) (s : State) : State :=
  if e.body.score && namesTable e then
    let skip := whollyMasked e
    let s' := updEngine c e.body.eng (afterScore s c (tableOf s c e) e skip) s
    if skip then skipTile c e s' else enqueueMM c e s'
  else if e.pv then
    let s' := updEngine c e.body.eng (afterPV e) s
    if e.skipped then skipPVTile c e s' else enqueueMM c e s'
  else enqueueMM c e s

/-- Issue an MM or CX (R246, R247, R251-R253). -/
def mmIssue (c : CoreId) (h : TileHdr) (b : MMBody) (xd : Option Nat) (s : State) : State :=
  issue c h (fun x => decide (8 ≤ (x.eng[b.eng.1]'b.eng.2).queue.length)) (fun s =>
    match mmReject s c b with
    | some r => illegal c r (s.core c).pc s
    | none =>
      let ch := epiOf (s.core c) b
      let (id, s) := takeId c s
      let e := mmEntry s c h b xd ch id
      if namesTable e && !segsAscend (tableOf s c e) then transferFault c s
      else if !(xd.map (fun k => groupUsable c k s)).getD true then
        abortOf c { code := 0x27, src := c.1, unusable := true } s
      else
        let s := match xd with
          | some k => openExchange c k s
          | none => s
        nextLine c (admitMM c e s)) s

/-- MM (R251). -/
def execMm (c : CoreId) (h : TileHdr) (b : MMBody) (s : State) : Res :=
  staticCheck (Instr.mm c h b).wellFormed "MM" (mmIssue c h b none s)
/-- CX: as MM, with an exchange descriptor (R251, R283). -/
def execCx (c : CoreId) (h : TileHdr) (b : MMBody) (xd : BitVec 9) (s : State) : Res :=
  staticCheck (Instr.cx c h b xd).wellFormed "CX" (mmIssue c h b (some xd.toNat) s)

/-! ### The plan of a slice -/

/-- One pass of a slice: which activation tile and weight tile it takes, and the halves each b goes to, with a sign. -/
structure PStep where
  a : Nat := 0
  w : Nat := 0
  dst: List (Bool × Bool) := []
deriving DecidableEq, Repr, Inhabited

/-- Passes of a K-slice in order (R83, R85, R86): half false is A; sign true subtracts. `split` runs the two K-halves of a
T2 x FP4 slice separately (R105). -/
def planOf (b : MMBody) (split : Bool) : List PStep :=
  let h := [(b.half, false)]
  match b.mode.toNat with
  | 1 => [⟨0, 0, h⟩, ⟨1, 0, h⟩, ⟨0, 1, h⟩]
  | 2 => [⟨0, 0, h⟩, ⟨1, 0, h⟩, ⟨0, 1, h⟩, ⟨1, 1, h⟩]
  | 3 => [⟨0, 0, [(false, false)]⟩, ⟨1, 0, [(true, false)]⟩, ⟨1, 1, [(false, true)]⟩, ⟨0, 1, [(true, false)]⟩]
  | 4 => [⟨0, 0, [(false, false), (true, true)]⟩, ⟨1, 1, [(false, true), (true, true)]⟩, ⟨2, 2, [(true, false)]⟩]
  | _ => if split then [⟨0, 0, h⟩, ⟨1, 0, h⟩] else [⟨0, 0, h⟩]

/-- FP4 activations against T2 weights: 256 K indices a pass (R70). -/
def wideK (b : MMBody) : Bool := kPerPass b.af b.wf == 256

/-- A wide slice whose combined pass is split: a tile of it is fed in FP8 (R105). -/
def splitsWide (b : MMBody) (st : List QTile) : Bool := wideK b && st.any (fun t => t.fmt == 0x0B)

/-- The activation tiles that a pass of a slice feeds (R70, R85, R86, R105). -/
def passTiles (b : MMBody) (sub : Nat) (tiles : List QTile) : List QTile :=
  let split := splitsWide b tiles
  if wideK b then (if split then [tiles.getD sub {}] else tiles)
  else [tiles.getD ((planOf b split).getD sub {}).a {}]

/-- Row slot of a pass, by the encoding it feeds (R70, R105). -/
def passSlot (b : MMBody) (sub : Nat) (tiles : List QTile) : Nat :=
  if wideK b && splitsWide b tiles then 2
  else if (passTiles b sub tiles).any (fun t => t.fmt != b.af && fclass t.fmt == .fp68) then 2 else rowSlot b.af b.wf

/-! ### Staging -/

/-- Decoded values of a chained tile. -/
def qRows (t : QTile) : List (List W32) :=
  t.codes.zipIdx.map (fun (row, m) => row.zipIdx.map (fun (v, n) => readBack t.fmt.toNat v ((t.scodes.getD m []).getD (n / 32) 0)))

/-- A narrow tile from the codes and scale codes of its rows. -/
def narrowTile (f : Nat) (cs : List (List Nat × List Nat)) : QTile :=
  { fmt := BitVec.ofNat 5 f, rows := cs.map (fun t => arowOf f t.1 t.2), codes := cs.map Prod.fst, scodes := cs.map Prod.snd }

def zeroCodes : List Nat × List Nat := (List.replicate 128 0, List.replicate 4 0x7F)

/-- Row of a tile of (entry, position) rows `src` that fed row m of an instruction takes: where both name a lengths table, the same query
row, so that rows cancelled since are skipped (R78, R108). -/
def sameRow (e : MMEntry) (src : List (Nat × Nat)) (m : Nat) : Nat :=
  if !namesTable e then m else
  match e.rows[m]? with
  | some r => (src.idxOf? r).getD m
  | none => m

/-- The rows of a stored narrow operand's K-slice: kept record or plain tensor, with gather and transposition in that order (R93, R95,
R145-R147, R252). An encoding that is no pair of R70 with the weights is fed as it is (log 181, DESIGN CHOICE). -/
def storedTile (kept : List (Nat × List (Nat × Nat))) (ws : SMap Byte) (e : MMEntry) (ea sa slice k0 : Nat) : QTile :=
  let d := e.rowD.toNat
  let rows := List.range (mRows e)
  let n := sourceCount ws e
  let tr := proOn e.chain 2
  let src (k : Nat) : Option Nat := gatherAt ws e n (k0 + k)
  padTile (e.kReal - k0) <|
  if dFlag54 d then
    let a := ea + (if tr then 0 else slice * recStride ws e ea)
    let rows := if proOn e.chain 1 then rows else rows.map (sameRow e (((kept.find? (fun k => k.1 == a)).map Prod.snd).getD []))
    narrowTile (recFmt (wsRd ws (a % wsSize) 1)) (rows.map (fun m =>
      if tr then exchanged (recCode ws a) (recScale ws a) src m
      else match gatherAt ws e n m with
        | some r => recCodes ws a r
        | none => zeroCodes))
  else
    let f := e.body.af.toNat
    narrowTile f (rows.map (fun m =>
      if tr then exchanged (srcCode ws f ea (dPitch d)) (colScale ws f sa) src m
      else match gatherAt ws e n m with
        | some r => storedCodes ws f ea sa (dPitch d) r k0
        | none => zeroCodes))

/-- The rows of a chained narrow operand, with gather and transposition in that order (R77, R145-R147). An encoding that is no pair of R70
with the weights is fed as it is (log 181, DESIGN CHOICE). -/
def chainedTile (ws : SMap Byte) (e : MMEntry) (k0 : Nat) (t : QTile) : QTile :=
  let f := t.fmt.toNat
  let n := t.codes.length
  padTile (e.kReal - k0) <|
  if !(proOn e.chain 1 || proOn e.chain 2) then
    (if t.src.isEmpty then t else
      narrowTile f ((List.range (mRows e)).map (fun m =>
        (t.codes.getD (sameRow e t.src m) (List.replicate 128 0), t.scodes.getD (sameRow e t.src m) [0, 0, 0, 0]))))
  else
  narrowTile f ((List.range (mRows e)).map (fun m =>
    if proOn e.chain 2 then exchanged (fun r k => (t.codes.getD r []).getD k 0) (fun r k => (t.scodes.getD r []).getD (k / 32) 0)
      (fun k => (gatherAt ws e n k).bind (fun r => if r < n then some r else none)) m
    else match gatherAt ws e n m with
      | some r => (t.codes.getD r [], t.scodes.getD r [0, 0, 0, 0])
      | none => zeroCodes))

/-- The rows of a chained BF16 operand after prologue stages 1-4 (R77, R145). -/
def chainedRows (ws : SMap Byte) (core : Nat) (e : MMEntry) (t : QTile) : List (List W32) :=
  let v := qRows t
  let row (r : Nat) : Nat := if proOn e.chain 1 || proOn e.chain 2 then r else sameRow e t.src r
  (List.range (mRows e)).map (fun m => fedRow ws core e (fun r k => (v.getD (row r) []).getD k 0) t.codes.length m 0)

/-- The chained tile that a pass takes from a port: the oldest from the engine that bits [1:0] of the row-operand register name; one from the
vector engine answers to every name (R77, R252; log 153, DESIGN CHOICE). -/
def fromPort (e : MMEntry) (x : Nat × QTile) : Bool := x.1 == 4 || x.1 == e.rowD.toNat % 4

/-- Chained tiles that a slice takes: both planes, or both halves of 256 K indices (R70, R77, R84). -/
def chainNeed (b : MMBody) : Nat := if b.mode = 3 ∨ b.mode = 4 ∨ wideK b then 2 else 1

/-- Take `n` chained tiles for an instruction from a port's list. -/
def takeChain (e : MMEntry) : Nat → List (Nat × QTile) → List QTile × List (Nat × QTile)
  | 0, l => ([], l)
  | _, [] => ([], [])
  | n + 1, x :: r =>
    if fromPort e x then let (ts, r) := takeChain e n r; (x.2 :: ts, r)
    else let (ts, r) := takeChain e (n + 1) r; (ts, x :: r)

/-- The entry of the task that owns fed row m (R112). -/
def ownerOf (s : State) (c : CoreId) (e : MMEntry) (m : Nat) : Option TEntry :=
  match (partOfCore s c.1).bind (fun p => (s.part p).task) with
  | none => none
  | some t => match e.rows[m]? with
    | some r => t.entries[r.1]?
    | none => t.entries[Config.rowOwner c.1 e.id m % Nat.max 1 t.entries.length]?

/-- The entry of the task whose row fed row m copies: none for a row of zeros (R112, R146). -/
def fedOwner (s : State) (c : CoreId) (e : MMEntry) (m : Nat) : Option TEntry :=
  (srcRowOf (s.core c).ws e m).bind (ownerOf s c e)

/-- The request of a task entry. -/
def reqOfEntry (x : Part) (t : TEntry) : Option Req := x.reqs.find? (fun r => r.rid == t.rid)

/-- Draws of fed row m (R54-R58): none unless the instruction rounds stochastically. -/
def drawsOf (s : State) (c : CoreId) (e : MMEntry) (k0 m : Nat) : Nat → Option Nat :=
  if !e.body.sr then fun _ => none else
  match cfgOf s c with
  | none => fun _ => none
  | some (p, cfg) =>
    let dom : Option Nat := (fedOwner s c e m).bind (fun t => (reqOfEntry (s.part p) t).map (fun r => r.desc.domain.toNat))
    let ds := (dom.bind (fun d => s.mem.domains.find? (fun z => z.id == d))).map (fun z => rowSeed z.seed (BitVec.ofNat 16 z.id))
    let seed := ds.getD (rowSeed cfg.seed 0xFFFF)
    let pos := rowPos c.1 e (srcRowOf (s.core c).ws e m)
    fun k => some (srDraw seed e.body.tag pos (e.kBase + k0 + k))

/-- Share of an engine in a layer (R106; log 6, DESIGN CHOICE). -/
def shareOf (s : State) (c : CoreId) (e : Fin 4) (layer : Nat) (pol : Policy) : Nat :=
  match cfgOf s c with
  | none => 0
  | some (p, cfg) => pol.allow * Config.quantTiles cfg.digest (((s.part p).task.map Task.shape).getD 0) c.1 e.1 layer / 256

/-- Count of a `w`-bit quality field, and whether it has reached its maximum, where it stays (R112). -/
def qAdd (w a b : Nat) : Nat × Bool := (Nat.min (2 ^ w - 1) (a + b), decide (2 ^ w - 1 ≤ a + b))

/-- An FP8 encoding whose clamps CLAMP8 counts: the block forms; a plain FP8 target counts none (R37, R101; log 67, DEDUCED). -/
def isFp8 (f : BitVec 5) : Bool := decide (f = 0x0B ∨ f = 0x0C)

/-- Add a quantiser tile's counts of one request to its record's layer (R111, R112). A FLOOR8 tile's clamps are those of its candidate, so
they count in CLAMP and in CLAMP8 (R101, R104; log 160, DEDUCED). -/
def addLayer (layer pol : Nat) (wh : Bool) (t : QTile) (mine : List Nat) (q : Quality) : Quality :=
  let pick (l : List Nat) : Nat := (mine.map (fun m => l.getD m 0)).sum
  let ls := q.layers ++ List.replicate (layer + 1 - q.layers.length) {}
  let y := ls.getD layer {}
  let esc := b2n (t.flags.getLsbD 0)
  let den := b2n (t.flags.getLsbD 1)
  let (cl, f0) := qAdd 32 y.clamp (pick t.clamps)
  let (c8, f1) := qAdd 32 y.clamp8 (if isFp8 t.fmt then pick t.clamp8 else 0)
  let (es, f2) := qAdd 16 y.esc esc
  let (dn, f3) := qAdd 16 y.deny den
  let (nb, f4) := qAdd 16 y.nanblk (pick t.nanblk)
  let (et, f5) := qAdd 32 q.esc esc
  let (dt, f6) := qAdd 32 q.den den
  let y := { y with clamp := cl, clamp8 := c8, esc := es, deny := dn, nanblk := nb, policy := pol, whisk := y.whisk || wh }
  { q with layers := ls.set layer y, esc := et, den := dt
           flags := if f0 || f1 || f2 || f3 || f4 || f5 || f6 then q.flags ||| 1 else q.flags }

/-- Count a quantiser tile for every request with a row in it, and in the partition's telemetry (R112, R456). A cancelled request's rows
leave at the next tile group, which takes its rows from the lengths table; a row that no table gives stops counting at the cancellation. -/
def countTile (c : CoreId) (e : MMEntry) (pol : Policy) (t : QTile) (s : State) : State :=
  match partOfCore s c.1 with
  | none => s
  | some p =>
    let owners := (List.range t.rows.length).map (fun m => (m, fedOwner s c e m))
    let layer := sLayer e.sideD.toNat
    updPart p (fun x => { x with
      esc := satAdd 64 x.esc (b2n (t.flags.getLsbD 0))
      deny := satAdd 64 x.deny (b2n (t.flags.getLsbD 1))
      reqs := x.reqs.map (fun r =>
        let mine := (owners.filter (fun o => match o.2 with
          | some te => te.rid == r.rid && (!r.cancelled || decide (o.1 < e.rows.length))
          | none => false)).map Prod.fst
        if mine.isEmpty then r else { r with quality := addLayer layer pol.kind e.body.whisk t mine r.quality }) }) s

/-- Escalation share that a layer has taken of an engine in the task (R107). -/
def shareUsed (g : Engine) (layer : Nat) : Nat := ((g.shares.find? (fun x => x.1 == layer)).map Prod.snd).getD 0

/-- Quantise one 128-wide K-slice of the source into the engine's staging (R92, R107). -/
def quantSlice (c : CoreId) (e : MMEntry) (ea k0 : Nat) (s : State) : QTile × State :=
  let layer := sLayer e.sideD.toNat
  let pol := policyOf s c layer
  let used := shareUsed ((s.core c).eng[e.body.eng.1]'e.body.eng.2) layer
  let room := decide (used < shareOf s c e.body.eng layer pol)
  let rows := (List.range (mRows e)).map (fun m => prologueRow (s.core c).ws c.1 e ea m k0)
  let t := quantTile pol e.body.af e.body.wf e.body.whisk room rows (drawsOf s c e k0)
  let took := t.flags.getLsbD 0 && !t.flags.getLsbD 4
  let s := updEngine c e.body.eng (fun g => { g with shares := (layer, used + b2n took) :: g.shares.filter (fun x => x.1 != layer) }) s
  (t, countTile c e pol t s)

/-- The sum tile of a Gauss product behind its two planes, its clamps counted (R86). -/
def withGauss (c : CoreId) (e : MMEntry) (r i : QTile) (s : State) : List QTile × State :=
  let q := gaussTile e.body.af r i
  ([r, i, q], countTile c e (policyOf s c (sLayer e.sideD.toNat)) q s)

/-- The activation tiles of a slice that the chain path feeds (R77, R81, R84, R145). -/
def stageChain (c : CoreId) (e : MMEntry) (s : State) : List QTile × State :=
  let b := e.body
  let ws := (s.core c).ws
  let (ts, rest) := takeChain e (chainNeed b) ((s.core c).eng[b.eng.1]'b.eng.2).chainIn
  let s := updEngine c b.eng (fun g => { g with chainIn := rest }) s
  if fclass b.af = .bf16s then (splitTiles (chainedRows ws c.1 e (ts.headD {})), s)
  else
    let ts := ts.zipIdx.map (fun (t, j) => chainedTile ws e (e.slice * kPerPass b.af b.wf + if wideK b then 128 * j else 0) t)
    if b.mode = 4 then withGauss c e (ts.headD {}) (ts.getD 1 {}) s else (ts, s)

/-- The activation tiles of slice i (R81, R84, R86, R92, R95). -/
def stage (c : CoreId) (e : MMEntry) (s : State) : List QTile × State :=
  let b := e.body
  let d := e.rowD.toNat
  let ws := (s.core c).ws
  let k0 := e.slice * kPerPass b.af b.wf
  let narrow (ea sa k : Nat) (s : State) : QTile × State :=
    if b.qsrc = 0 then (storedTile (s.core c).kept ws e ea sa (k / 128) k, s) else quantSlice c e ea k s
  let im := Config.imagPlane e.rowD
  let split : List QTile := splitTiles ((List.range (mRows e)).map (fun m => prologueRow ws c.1 e (dEA d) m k0))
  if b.qsrc = 3 then stageChain c e s
  else
    match b.mode.toNat with
    | 1 => (split, s)
    | 2 => (split, s)
    | 3 =>
      let (r, s) := narrow (dEA d) (dSA d) k0 s
      let (i, s) := narrow im.1 im.2 k0 s
      ([r, i], s)
    | 4 =>
      let (r, s) := narrow (dEA d) (dSA d) k0 s
      let (i, s) := narrow im.1 im.2 k0 s
      withGauss c e r i s
    | _ =>
      let (t, s) := narrow (dEA d) (dSA d) k0 s
      if wideK b then let (u, s) := narrow (dEA d) (dSA d) (k0 + 128) s; ([t, u], s) else ([t], s)

/-! ### Weights -/

/-- Real K indices of an instruction's slice, and its real columns (R88). -/
def extOf (e : MMEntry) : Nat × Nat := (e.kReal - e.slice * kPerPass e.body.af e.body.wf, e.nReal)

/-- Weight tile w of slice i (R72, R81, R84, R86, R88, R147, R162). -/
def weightsOf (ws : SMap Byte) (e : MMEntry) (w : Nat) : WTile :=
  let b := e.body
  let d := e.wD.toNat
  let f := b.wf.toNat
  let kk := kPerPass b.af b.wf
  let k0 := e.slice * kk
  let ext := extOf e
  let tr := dFlag54 d
  let im := Config.imagPlane e.wD
  let split := splitWeights ws (dEA d) (dPitch d) k0 tr ext
  match b.mode.toNat with
  | 1 => if w = 0 then split.1 else split.2
  | 2 => if w = 0 then split.1 else split.2
  | 0 =>
    if isKC f then mkTile (kcTile ws f (dEA d) (dSA d) k0 b.score tr ext) (List.replicate 4 onesRow)
    else plainTile ws f (dEA d) (dSA d) (dPitch d) k0 kk tr ext
  | _ =>
    if w = 0 then plainTile ws f (dEA d) (dSA d) (dPitch d) k0 kk tr ext
    else if w = 1 then plainTile ws f im.1 im.2 (dPitch d) k0 kk tr ext
    else gaussWeights ws f (dEA d) (dSA d) im.1 im.2 (dPitch d) k0 tr ext

/-- Clamps of the weight operand's sums that a pass of the Gauss form takes (R86). -/
def weightClamps (ws : SMap Byte) (e : MMEntry) (w : Nat) : Nat :=
  let d := e.wD.toNat
  if e.body.mode = 4 ∧ w = 2 then
    ((gaussBlocks ws e.body.wf.toNat (dEA d) (dSA d) (Config.imagPlane e.wD).1 (Config.imagPlane e.wD).2 (dPitch d)
      (e.slice * kPerPass e.body.af e.body.wf) (dFlag54 d) (extOf e)).map (fun l => (l.map QBlock.clamps).sum)).sum
  else 0

/-! ### Running a pass -/

/-- What a pass accumulates: the two halves, the status, the tasters skipped, the first mismatch as (K-block, row). -/
structure PassSt where
  a    : SMap W32 := []
  b    : SMap W32 := []
  st   : MStatus := {}
  skip : Nat := 0
  bad  : Option (Nat × Nat) := none
deriving DecidableEq, Repr, Inhabited

/-- The columns of K-block kb of a tile: 32 elements of each of its 128 columns. -/
def colsOf (w : WTile) (kb : Nat) : List (List Elem) :=
  let rows := (w.rows.drop (32 * kb)).take 32
  (List.range 128).map (fun n => rows.map (fun r => r.getD n (.fin 0)))

/-- Add one b to an accumulator element of a half, with a sign; an unlisted element reads as its initial value. -/
def addTo (init : Nat → Nat → W32) (m n : Nat) (b : W32) (dst : Bool × Bool) (p : PassSt) : PassSt :=
  let h := if dst.1 then p.b else p.a
  let old := (mapFind h (128 * m + n)).getD (init m n)
  let (v, st) := accAdd p.st old (if dst.2 then negW b else b)
  let h := mapInsert h (128 * m + n) v
  if dst.1 then { p with b := h, st } else { p with a := h, st }

/-- One row against one K-block (R60-R64, R87, R89, R90). `init` gives the value an element not yet listed starts from. -/
def passBlock (init : Bool → Nat → Nat → W32) (ar : ARow) (aj : Nat) (w : WTile) (cols : List (List Elem)) (kb m : Nat)
    (dst : List (Bool × Bool)) (delta : Int) (p : PassSt) : PassSt :=
  let as := (ar.elems.drop (32 * aj)).take 32
  let sums := cols.map (bsum as)
  let p := match taster as ((w.taster.drop (32 * kb)).take 32) sums delta with
    | none => { p with skip := p.skip + 1 }
    | some true => p
    | some false => { p with bad := p.bad.or (some (kb, m)) }
  let sa := ar.scales.getD aj 0x3F800000
  sums.zipIdx.foldl (fun p (sm, n) =>
    let (b, o) := blockB sm sa ((w.scales.getD kb []).getD n 0x3F800000)
    let p := { p with st := { p.st with bovf := p.st.bovf || o } }
    dst.foldl (fun p t => addTo (init t.1) m n b t p) p) p

/-- A pass over the fed rows, K-blocks in ascending order within each row (R60, R64). `blocks` are (tile, its block, weight
block) triples. -/
def runPass (init : Bool → Nat → Nat → W32) (tiles : List QTile) (w : WTile) (blocks : List (Nat × Nat × Nat)) (rows : Nat)
    (dst : List (Bool × Bool)) (up : Option Upset) (p : PassSt) : PassSt :=
  let cols := blocks.map (fun b => (b, colsOf w b.2.2))
  (List.range rows).foldl (fun p m =>
    cols.foldl (fun p (b, cs) =>
      let delta : Int := match up with
        | some u => if u.row = m ∧ u.kb = b.2.2 then u.delta * 16 else 0
        | none => 0
      passBlock init (((tiles.getD b.1 {}).rows).getD m {}) b.2.1 w cs b.2.2 m dst delta p) p) p

/-- The blocks of pass `sub` of a slice. -/
def blocksOf (b : MMBody) (split : Bool) (st : PStep) (sub : Nat) : List (Nat × Nat × Nat) :=
  if wideK b then
    let half (t : Nat) : List (Nat × Nat × Nat) := (List.range 4).map (fun j => (t, j, 4 * t + j))
    if split then half sub else half 0 ++ half 1
  else (List.range 4).map (fun j => (st.a, j, j))

/-- An instruction accumulates in half A, or in half B. -/
def usesHalf (b : MMBody) (half : Bool) : Bool := decide (b.mode = 3 ∨ b.mode = 4) || b.half == half

/-- Factor slots of an engine. -/
def alphaOf (g : Engine) (slot : Bool) : SMap W32 := if slot then g.alpha1 else g.alpha0

/-- The halves a pass sequence starts from: +0, or what the halves hold, a PV's O rescaled by the row's factor (R68, R176). Rows that
are not fed keep what they hold (R60, R68). -/
def startHalf (ctr : Nat) (g : Engine) (e : MMEntry) (h : Option (SMap W32)) (rows : Nat) : SMap W32 :=
  let kept := (h.getD []).filter (fun x => decide (128 * rows ≤ x.1))
  if !e.body.acc || e.fresh then kept
  else if e.pv then
    (List.range rows).foldl (fun l m => (List.range 128).foldl (fun l n =>
      mapInsert l (128 * m + n) (fMul (accRead ctr h m n) ((mapFind (alphaOf g e.body.aslot) m).getD 0x3F800000)).1) l) kept
  else h.getD []

/-- The output-path epilogue of a finished instruction (R150-R152, R158). -/
def outputPath (c : CoreId) (e : MMEntry) (l : List Byte) (s : State) : State × Bool :=
  let x := s.core c
  let tab := tableOf s c e
  let cS : Option W32 := if chSC l = 0 then none else some e.scalarC
  let t := accTile s.freeCtr x e.body.eng e.body.half (mRows e)
  let (t, _) := stDeferred x.ws l t
  let (t, _) := stScale x.ws l cS t
  let (t, _) := stBias x.ws l t
  let et := encTile l t
  let pol := policyOf s c (sLayer e.sideD.toNat)
  let s := { s with freeCtr := s.freeCtr + 1 }
  (deliverTile c e l pol t et (fun m => !e.pv || rowLive tab e m) s, et.flags &&& flSat != 0)

/-- The capture unit's maxima of a score pass (R173). -/
def captureMax (ctr : Nat) (e : MMEntry) (x : Core) : SMap W32 :=
  (List.range (mRows e)).map (fun m =>
    let h := engHalf (x.eng[e.body.eng.1]'e.body.eng.2) e.body.half
    (m, (List.range (scoreCols e m)).foldl (fun a n => fMax a (accRead ctr h m n)) 0xFF800000))

/-- Replace an entry of an engine's queue. -/
def setEntry (c : CoreId) (e : MMEntry) (s : State) : State :=
  updEngine c e.body.eng (fun g => { g with queue := mapIf (fun q => q.id == e.id) (fun _ => e) g.queue }) s

/-- An entry's epilogue on the vector path reads a half of an engine: its own tile, or a PEER stream (R68, R143). -/
def readsHalf (b : MMEntry) (en : Nat) (half : Bool) : Bool :=
  (b.body.eng.1 == en && (b.body.half == half || decide (b.body.mode = 3 ∨ b.body.mode = 4)))
  || (match b.chain with
    | some l => [chX l 0, chX l 1, chX l 2].any (fun x => x.used && x.kind == 10 && x.eng == en && x.half == half)
    | none => false)

/-- A VX that has not run, or has not issued, still reads a half that the instruction writes, for an earlier instruction (R68). -/
def halfBusy (x : Core) (e : MMEntry) : Bool :=
  let same (b : MMEntry) : Bool := decide (b.id < e.id) && ([false, true].any (fun h => usesHalf e.body h && readsHalf b e.body.eng.1 h))
  x.ve.queue.any (fun v => v.flags.isNone && (v.bound.map same).getD false)
  || x.eng.any (fun g => (g.toBind.map same).getD false)

/-- A pass can start: its engine is on, no fence bars it, its half, its side buffer and its chained operand are ready; a skipped tile needs its
side buffer alone (R20, R34, R68, R77, R155, R247). -/
def passReady (s : State) (c : CoreId) (en : Fin 4) (e : MMEntry) : Bool :=
  let x := s.core c
  let first := e.slice == 0 && e.sub == 0
  arrayOn s c en && !fenced x e.id && (!first || !(e.skip || (e.chain.map chFirst).getD false) || sideFree s c e)
  && (e.skip || !(first && halfBusy x e))
  && (e.skip || e.body.qsrc != 3 || decide (0 < e.sub) || decide (chainNeed e.body ≤ (((x.eng[en.1]'en.2).chainIn).filter (fromPort e)).length))

/-- Accumulation into a half that nothing wrote: an illegal instruction (R69). The first PV of a sweep starts from +0 (R176). -/
def halfUndefined (g : Engine) (e : MMEntry) : Bool :=
  let b := e.body
  b.acc && !e.fresh && (if b.mode = 3 ∨ b.mode = 4 then g.accA.isNone || g.accB.isNone else (engHalf g b.half).isNone)

/-- K indices that the sum has taken once a slice of an instruction is done: a later one that accumulates goes on from there (R56). -/
def countK (e : MMEntry) (g : Engine) : Engine :=
  let k := e.kBase + (e.slice + 1) * kPerPass e.body.af e.body.wf
  [false, true].foldl (fun g h => if usesHalf e.body h then setK h k g else g) g

/-- The capture of a finished score pass (R173). -/
def capture (c : CoreId) (e : MMEntry) (s : State) : State :=
  if e.body.score then
    let m := captureMax s.freeCtr e (s.core c)
    { updEngine c e.body.eng (fun g => { g with cmax := m }) s with freeCtr := s.freeCtr + 1 }
  else s

/-- The VX that an instruction with a vector-path chain is bound to, issued or not, takes it as its last pass left it (R150, R253). -/
def bindDone (c : CoreId) (e : MMEntry) (s : State) : State :=
  let now (b : MMEntry) : MMEntry := if b.id = e.id then e else b
  updCore c (fun x => { x with
    ve := { x.ve with queue := x.ve.queue.map (fun v => { v with bound := v.bound.map (fun b => if b.body.eng = e.body.eng then now b else b) }) }
    eng := x.eng.set e.body.eng.1 { (x.eng[e.body.eng.1]'e.body.eng.2) with toBind := (x.eng[e.body.eng.1]'e.body.eng.2).toBind.map now }
      e.body.eng.2 }) s

/-- Advance an entry past the pass it ran; the last pass finishes the instruction (R248). -/
def afterPass (c : CoreId) (e : MMEntry) (nsub : Nat) (s : State) : State :=
  let (slice, sub) := if e.sub + 1 < nsub then (e.slice, e.sub + 1) else (e.slice + 1, 0)
  let s := if e.sub + 1 < nsub || e.body.keep then s else updEngine c e.body.eng (countK e) s
  if slice ≤ e.body.npass.toNat then setEntry c { e with slice, sub } s
  else
    let s := capture c e s
    let (s, sat) := match e.chain with
      | some l => if chVector l || e.body.keep then (bindDone c e s, false) else outputPath c e l s
      | none => (s, false)
    vePump c 8 (setEntry c { e with slice, sub, done := true, sat } s)

/-- The instruction marked FIRST sets its side buffer pending as it starts, before any tile issued after it writes; a skipped score tile
marks its entries empty (R155, R247; log 72, DEDUCED). -/
def openSide (c : CoreId) (e : MMEntry) (s : State) : State :=
  match e.chain with
  | none => s
  | some l =>
    let n := sideTiles c.1 e.id l
    let h := sideCore s c e
    let s := if chFirst l && sideWork e.chain then
        updCore h (fun x => { x with ws := clearSide x.ws l n, sides := openBuf (chSide l) (sideBytes l n) x.sides }) s
      else s
    if e.skip && !e.pv && sideWork e.chain then updCore h (fun x => { x with ws := emptySide x.ws l n (Config.sideTile c.1 e.id).1 }) s else s

/-- A skipped tile's turn in its queue: its side entries are marked and it is done; the epilogue of a skipped PV may follow (R80, R155, R177). -/
def skipDo (c : CoreId) (e : MMEntry) (s : State) : State := vePump c 8 (setEntry c { e with done := true } (openSide c e s))

/-- An entry as a slice's first pass takes it: a chained tile's rows (R146). -/
def withSource (g : Engine) (e : MMEntry) : MMEntry :=
  if e.body.qsrc = 3 ∧ e.sub = 0 then { e with srcRows := (((takeChain e (chainNeed e.body) g.chainIn).1).headD {}).codes.length } else e

/-- A keep-form slice: its tile record is written and no pass runs (R94, R95). The imaginary plane's record of a complex operand lies one record
size behind the real plane's (log 182, DESIGN CHOICE). -/
def keepSlice (c : CoreId) (e : MMEntry) (s : State) : State :=
  let e := withSource ((s.core c).eng[e.body.eng.1]'e.body.eng.2) e
  let pol := policyOf s c (sLayer e.sideD.toNat)
  let (ts, s) := stage c e s
  let n := kPerPass e.body.af e.body.wf / 128
  let size := recReserve pol e.body.af (e.body.mrows.toNat + 1)
  let at_ (j : Nat) : Nat := sKaddr e.sideD.toNat + (n * e.slice + j) * size
  let s := updCore c (fun x => { x with ws := ts.zipIdx.foldl (fun ws (t, j) =>
    writeRecord ws (at_ j) e.body.tag.toNat pol.kind t (fun _ => true)) x.ws }) s
  let s := updCore c (noteKept ((List.range ts.length).map at_) (if namesTable e then e.rows else [])) s
  afterPass c e 1 s

/-- What a pass computes. -/
structure PassOut where
  /-- The halves. -/ a : SMap W32
  b : SMap W32
  /-- The instruction's entry, with its flags and counts. -/ e : MMEntry
  /-- Blocks skipped. -/ skip : Nat
  /-- The row check that failed: K-block and row (R87). -/ bad : Option (Nat × Nat)
  deriving DecidableEq, Repr

/-- The arithmetic of a pass: its blocks over staged tiles and a committed weight tile (R60-R91). -/
def passEval (ctr : Nat) (x : Core) (en : Fin 4) (e : MMEntry) (tiles : List QTile) (w : WTile) (up : Option Upset) : PassOut :=
  let b := e.body
  let g := x.eng[en.1]'en.2
  let split := splitsWide b tiles
  let st := (planOf b split).getD e.sub {}
  let rows := mRows e
  let fresh := e.slice == 0 && e.sub == 0
  let ha := if fresh && usesHalf b false then startHalf ctr g e g.accA rows else g.accA.getD []
  let hb := if fresh && usesHalf b true then startHalf ctr g e g.accB rows else g.accB.getD []
  let init (half : Bool) (m n : Nat) : W32 :=
    if b.acc && !e.fresh then accRead ctr (if half then g.accB else g.accA) m n else 0
  let r := runPass init tiles w (blocksOf b split st e.sub) rows st.dst up { a := ha, b := hb, st := e.status }
  { a := r.a, b := r.b, skip := r.skip, bad := r.bad
    e := { e with status := { r.st with tskip := r.st.tskip || decide (0 < r.skip), skips := Nat.min 0xFFFF (r.st.skips + r.skip) }
                  wenc := e.wenc + (if e.sub = 0 then ternaryErrors x.ws b.wf.toNat (dEA e.wD.toNat) (dPitch e.wD.toNat)
                    (e.slice * kPerPass b.af b.wf) (kPerPass b.af b.wf) (dFlag54 e.wD.toNat) (extOf e) else 0) } }

/-- The charge of a pass (R108, R364). -/
def passCost (s : State) (e : MMEntry) (tiles : List QTile) : List (Fin 7 × Nat) :=
  let rows := mRows e
  [(bENG, passSlot e.body e.sub tiles * rows), (bENERGY, energyFor s 0 (rows * kPerPass e.body.af e.body.wf * 128))]

/-- What a pass leaves in its engine: the staged tiles, the committed weights and the halves (R60-R63), and the clamps of the weights it
formed (R86). -/
def passCommit (c : CoreId) (en : Fin 4) (tiles : List QTile) (w : WTile) (r : PassOut) (s : State) : State :=
  let wn := ((planOf r.e.body (splitsWide r.e.body tiles)).getD r.e.sub {}).w
  updEngine c en (fun g => { g with
    wclamps := g.wclamps + weightClamps (s.core c).ws r.e wn
    staging := tiles, committed := some w, shadow := some w
    accA := if usesHalf r.e.body false then some r.a else g.accA
    accB := if usesHalf r.e.body true then some r.b else g.accB }) { s with freeCtr := s.freeCtr + 1 }

/-- Skipped blocks are counted for the partition (R90). -/
def countSkips (c : CoreId) (n : Nat) (s : State) : State :=
  if n = 0 then s else
  match partOfCore s c.1 with
  | some p => updPart p (fun x => { x with tskip := satAdd 64 x.tskip n }) s
  | none => s

/-- The weight tile of a pass: the committed one where the pass before it in the slice had the same weights (R72, R85, R105). -/
def passWeights (s : State) (c : CoreId) (en : Fin 4) (e : MMEntry) (tiles : List QTile) : WTile :=
  let plan := planOf e.body (splitsWide e.body tiles)
  let w := (plan.getD e.sub {}).w
  let fresh := weightsOf (s.core c).ws e w
  if 0 < e.sub ∧ (plan.getD (e.sub - 1) {}).w = w then (((s.core c).eng[en.1]'en.2).committed).getD fresh else fresh

/-- The number that a report gives a pass: its slice times the passes of that slice, and its place in it (R91; log 183, DESIGN CHOICE). -/
def passNumber (e : MMEntry) (subs : Nat) : Nat := e.slice * subs + e.sub

/-- Report a mismatch: the array, and a cause of the task's abort (R91, R444). -/
def reportMismatch (c : CoreId) (en : Fin 4) (e : MMEntry) (subs kb m : Nat) (s : State) : State :=
  abortOf c { code := 0x25, src := c.1 } (tasterMismatch c en (taskNumOf s c) e.pc (passNumber e subs) kb m s)

/-- A charged pass: commit, accumulate, check (R60-R91). A mismatch aborts; what the instruction had counted is kept for its report (R39). -/
def passDo (c : CoreId) (en : Fin 4) (e : MMEntry) (tiles : List QTile) (up : Option Upset) (s : State) : State :=
  let subs := (planOf e.body (splitsWide e.body tiles)).length
  let w := passWeights s c en e tiles
  let r := passEval s.freeCtr (s.core c) en e tiles w up
  let s := countSkips c r.skip (passCommit c en tiles w r s)
  match r.bad with
  | some (kb, m) => updEngine c en (fun g => { g with stopped := none }) (reportMismatch c en r.e subs kb m (setEntry c r.e s))
  | none => afterPass c r.e subs s

/-- An entry as its first pass takes it: where its contraction goes on from (R56). -/
def withK (g : Engine) (e : MMEntry) : MMEntry :=
  if e.slice = 0 ∧ e.sub = 0 then { e with kBase := if e.body.acc && !e.fresh then kOf g (!usesHalf e.body false) else 0 } else e

/-- What a pass starts with: the instruction's entry, its staged tiles (those of the slice's first pass, for a later one) and the state; the
instruction's first pass opens its side buffer (R56, R68, R155). -/
def passStart (c : CoreId) (en : Fin 4) (e : MMEntry) (s : State) : MMEntry × List QTile × State :=
  let g := (s.core c).eng[en.1]'en.2
  let e := withSource g (withK g e)
  let (tiles, s1) := if e.sub = 0 then stage c e s else (g.staging, s)
  (e, tiles, if e.slice = 0 ∧ e.sub = 0 then openSide c e s1 else s1)

/-- The body of a pass once it may run: stage, charge, then the pass. A refused charge holds the pass and its quantiser; only the hold
is counted (R108, R364). -/
def passRun (c : CoreId) (en : Fin 4) (e : MMEntry) (up : Option Upset) (s : State) : State :=
  let (e, tiles, s1) := passStart c en e s
  match partOfCore s c.1 with
  | none => passDo c en e tiles up s1
  | some p =>
    let (ok, s2) := charge p (passCost s e tiles) s1
    if ok then passDo c en e tiles up s2 else (charge p (passCost s e tiles) s).2

/-- The check of a pass that an abort stopped: a mismatch of the same clock or window is reported too, and nothing else of the pass is kept
(R76, R91, R445). -/
def lateCheck (c : CoreId) (en : Fin 4) (up : Option Upset) (s : State) : State :=
  match ((s.core c).eng[en.1]'en.2).stopped with
  | none => s
  | some k =>
    let u := updEngine c en (fun g => { g with chainIn := k.chainIn, stopped := none }) s
    let tiles := if k.e.sub = 0 then (stage c k.e u).1 else k.tiles
    let s := updEngine c en (fun g => { g with stopped := none }) s
    match (passEval s.freeCtr (s.core c) en k.e tiles (passWeights s c en k.e tiles) up).bad with
    | none => s
    | some (kb, m) => reportMismatch c en k.e (planOf k.e.body (splitsWide k.e.body tiles)).length kb m s

/-- MATRIX_PASS (R67): the next pass of the engine's oldest unfinished instruction; where an abort stopped one, its check. -/
def execMatrixPass (c : CoreId) (e : Fin 4) (upset : Option Upset) (s : State) : Res :=
  .next (match ((s.core c).eng[e.1]'e.2).queue.find? (fun q => !q.done) with
    | none => lateCheck c e upset s
    | some q =>
      if !passReady s c e q then s
      else if q.skip then skipDo c q s
      else if q.body.keep then keepSlice c q s
      else if q.slice == 0 && q.sub == 0 && halfUndefined ((s.core c).eng[e.1]'e.2) q then illegal c 0x02 q.pc s
      else passRun c e q upset s)

end Sys2Proof.Machine
end

