-- ==== Sys2Proof/Machine/Streams.lean ====
section
/-! DEFINITION. SC, TR and BL instructions, tile completions, scoop transfers, fill phases, simmer, multicast streams, bells
and late data (R216-R240, R247, R248, R256-R259). -/

namespace Sys2Proof.Machine

/-! ### Issue of SC, TR and BL -/

/-- ARM (R256): its program is read from the descriptor store and enters a slot in queue order. -/
def armIssue (c : CoreId) (h : TileHdr) (u : BitVec 3) (doff : W16) (sovr : SReg) (s : State) : State :=
  issue c h (fun x => decide (8 ≤ x.scq.length)) (fun s =>
    let x := s.core c
    let off := doff.toNat * 16
    if 0x20000 < off + (scBytes x.dstore off).length then illegal c 0x09 x.pc s
    else
      let ovr := if sovr = 0 then none else some (x.getS sovr, x.getS (Fin.ofNat 64 (sovr.1 + 1)))
      let (id, s) := takeId c s
      let e : SCEntry := { id, ckpt := h.ckpt.toNat, pc := x.pc, arm := some (u.toNat, { bytes := scBytes x.dstore off, ovr }) }
      scqPump c (nextLine c (updCore c (fun x => { x with scq := x.scq ++ [e] }) s))) s

def execArm (c : CoreId) (h : TileHdr) (u : BitVec 3) (doff : W16) (sovr : SReg) (s : State) : Res :=
  staticCheck (Instr.arm c h u doff sovr).wellFormed "ARM" (armIssue c h u doff sovr s)

/-- FILL (R256): a fence with the landing counts it requires. -/
def fillIssue (c : CoreId) (h : TileHdr) (sf : SReg) (s : State) : State :=
  issue c h (fun x => decide (8 ≤ x.scq.length)) (fun s =>
    let x := s.core c
    let (id, s) := takeId c s
    let e : SCEntry := { id, ckpt := h.ckpt.toNat, pc := x.pc,
                         fill := (List.range 5).map (fun j => (x.getS (Fin.ofNat 64 (sf.1 + j))).setWidth 32) }
    nextLine c (updCore c (fun x => { x with scq := x.scq ++ [e] }) s)) s

def execFill (c : CoreId) (h : TileHdr) (sf : SReg) (s : State) : Res :=
  staticCheck (Instr.fill c h sf).wellFormed "FILL" (fillIssue c h sf s)

/-- Issue a TR instruction and try the rails (R228, R257). -/
def trIssue (op : TOp) (c : CoreId) (h : TileHdr) (b : TRBody) (s : State) : State :=
  issue c h (fun x => decide (8 ≤ x.trq.length)) (fun s =>
    let e : TREntry := { ckpt := h.ckpt.toNat, pc := (s.core c).pc, op, body := b }
    let s := nextLine c (updCore c (fun x => { x with trq := x.trq ++ [e] }) s)
    match partOfCore s c.1 with
    | some p => railPump p s
    | none => s) s

def execPut (c : CoreId) (h : TileHdr) (b : TRBody) (s : State) : Res := .next (trIssue .put c h b s)
def execTake (c : CoreId) (h : TileHdr) (b : TRBody) (s : State) : Res := .next (trIssue .take c h b s)
def execReturn (c : CoreId) (h : TileHdr) (b : TRBody) (s : State) : Res := .next (trIssue .ret c h b s)
def execFree (c : CoreId) (h : TileHdr) (b : TRBody) (s : State) : Res := .next (trIssue .free c h b s)

/-- BL: the core stops at the bell (R235, R247, R258). -/
def execBl (c : CoreId) (h : TileHdr) (mark : W16) (s : State) : Res :=
  .next (issue c h (fun _ => false) (holdAt c (.bell mark.toNat h.ckpt.toNat)) s)

/-! ### Completion (R248, R259) -/

/-- The trace record of a tile instruction's completion, if its class is kept (R392, R448). -/
def traceDone (c : CoreId) (cls ckpt pc : Nat) (s : State) : State :=
  if s.flt.trcClass.getLsbD cls then
    trace 1 (((partOfCore s c.1).map (·.1)).getD 0xFF) [cls, c.1, pc, ckpt, s.tick.now, s.tick.phase] s
  else s

/-- OR an instruction's status into the sticky status of its engine (R87, R259). -/
def orStatus (a b : MStatus) : MStatus :=
  { bovf := a.bovf || b.bovf, aovf := a.aovf || b.aovf, nanp := a.nanp || b.nanp, tskip := a.tskip || b.tskip,
    skips := Nat.min 0xFFFF (a.skips + b.skips) }

/-- The sends of a CX are with the network interface: the VX it binds has run, and no tile of its exchange waits in the core (R248, R253). -/
def handedOver (s : State) (c : CoreId) (e : MMEntry) : Bool :=
  let x := s.core c
  match e.xd, partOfCore s c.1 with
  | some k, some p =>
    !x.ve.queue.any (fun v => v.flags.isNone && (v.bound.map (fun b => b.id == e.id && b.body.eng == e.body.eng)).getD false)
    && !(((x.eng[e.body.eng.1]'e.body.eng.2).toBind.map (fun b => b.id == e.id)).getD false)
    && !(s.part p).tiles.any (fun t => t.1 == c.1 && t.2.2.1 == k)
  | _, _ => true

/-- Complete the front MM or CX of an engine (R248, R259). -/
def completeMM (c : CoreId) (i : Fin 4) (s : State) : State :=
  match ((s.core c).eng[i.1]'i.2).queue with
  | e :: r =>
    if !e.done || !handedOver s c e then s else
    let s := updEngine c i (fun g => { g with queue := r, sticky := orStatus g.sticky e.status }) s
    let s := whenS e.sat (updCore c (fun x => { x with ve := { x.ve with sticky := x.ve.sticky ||| flSat } })) s
    vePump c 8 (weightErrors c e (traceDone c (if e.xd.isSome then 6 else 1) e.ckpt e.pc (meetCkptOf c e.ckpt s)))
  | [] => s

/-- The VX that completes next, and the queue without it: the front one, or one that ran beside a table load in front of it; `late` says
which (R114, R248; log 161, DESIGN CHOICE). -/
def doneVX (late : Bool) : List VXEntry → Option (VXEntry × List VXEntry)
  | [] => none
  | e :: r =>
    if e.flags.isNone then none
    else match e.op, doneVX late r with
      | .tload, some (d, q) => if late && !(d.op == .tload && tabOf d == tabOf e) then some (d, e :: q) else some (e, r)
      | _, _ => some (e, r)
where
  /-- The table slot of a load: two loads of one slot complete in order (R140). -/
  tabOf (e : VXEntry) : Nat := e.body.slot.1 % 4

/-- Complete a VX: its flags join the sticky status, and a table load's bank is ready (R139, R248, R259). -/
def completeVX (c : CoreId) (s : State) : State :=
  match doneVX ((Config.free s.freeCtr).getLsbD 0) (s.core c).ve.queue with
  | none => s
  | some (e, r) =>
    let k : Fin 4 := Fin.ofNat 4 e.body.slot.1
    let s := updCore c (fun x => { x with ve := { x.ve with
      queue := r
      sticky := x.ve.sticky ||| e.flags.getD 0
      tables := if e.op = .tload then x.ve.tables.set k.1 (finishLoad (x.ve.tables[k.1]'k.2)) k.2 else x.ve.tables } }) s
    vePump c 8 (traceDone c 2 e.ckpt e.pc (meetCkptOf c e.ckpt { s with freeCtr := s.freeCtr + 1 }))

/-- Complete the front SC instruction. -/
def completeSC (c : CoreId) (s : State) : State :=
  match (s.core c).scq with
  | e :: r =>
    if !e.ran then s
    else vePump c 8 (scqPump c (traceDone c 3 e.ckpt e.pc (meetCkptOf c e.ckpt (updCore c (fun x => { x with scq := r }) s))))
  | [] => s

/-- Complete the front TR instruction. -/
def completeTR (c : CoreId) (s : State) : State :=
  match (s.core c).trq with
  | e :: r =>
    if !e.ran then s
    else
      let s := traceDone c 4 e.ckpt e.pc (meetCkptOf c e.ckpt (updCore c (fun x => { x with trq := r }) s))
      (match partOfCore s c.1 with
        | some p => railPump p s
        | none => s)
  | [] => s

/-- TILE_COMPLETE (R248): the front instruction of a queue completes, if it has done its work. -/
def execTileComplete (c : CoreId) (q : QName) (s : State) : Res :=
  .next (match q with
    | .me e => completeMM c e s
    | .ve => completeVX c s
    | .scq => completeSC c s
    | .trq => completeTR c s)

/-! ### Transfers -/

/-- The core that a peer far-side address names, and the address in its working store (R217; log 37, DESIGN CHOICE). -/
def peerCore (a : Nat) : Nat := a / 2 ^ 21
def peerAddr (a : Nat) : Nat := a % 2 ^ 21

/-- A transfer the simmer regulator throttles: IN from near or far memory (R231). -/
def throttled (l : List Byte) : Bool := !scOut l && decide (scSpace l ≤ 1)

/-- The unit wants to issue a throttled transfer of a group now (R216, R231). -/
def wantsSimmer (u : Scoop) (g : Fin 8) : Bool :=
  match u.active with
  | some r => throttled r.bytes && scGroup r.bytes == g && decide (r.issued < r.total) && decide (u.landing.length < 6)
      && decide (scFlags r.bytes = 0)
  | none => false

/-- A unit that comes earlier in the group's order waits (R231: SU0-SU4 of ascending core ID). -/
def earlierWaits (s : State) (p : PartId) (c : CoreId) (u : UnitId) (g : Fin 8) : Bool :=
  (coresOf s p).any (fun d => (List.finRange 5).any (fun v =>
    (decide (d.1 < c.1) || (d == c && decide (v.1 < u.1))) && wantsSimmer (scoopOf s d v) g))

/-- The far side of one transfer: the program's SPACE, but a walk reads an extent in the tier that its address names (R199, R218,
R222). -/
def xferSpace (l : List Byte) (a : Nat) : Nat := if scMode l = 3 then b2n (isFar a) else scSpace l

/-- The far side of a transfer may be reached: a window of the partition and a region in service, a core of the partition that
is powered, or exchange memory (R239, R328, R339, R370). -/
def farOk (s : State) (p : PartId) (cfg : PCfg) (l : List Byte) (a len : Nat) : Bool :=
  match xferSpace l a with
  | 0 => !isFar a && runValid s a len && inWindow cfg a len (scOut l)
  | 1 => !scOut l && isFar a && runValid s a len && inWindow cfg a len false && !runOffline s a len
  | 2 => coreReachable s p (peerCore a) && decide (peerAddr a + len ≤ wsSize)
  | _ => decide (a < 8 * 2 ^ 24)

/-- Budget counters a transfer is charged to (R363). -/
def xferCost (s : State) (l : List Byte) (a len : Nat) : List (Fin 7 × Nat) :=
  match xferSpace l a with
  | 0 => [(bNEAR, len), (bENERGY, energyFor s 2 len)]
  | 1 => [(bFAR, len), (bENERGY, energyFor s 3 len)]
  | _ => [(bENERGY, energyFor s 4 len)]

/-- The transfer enters a landing slot and its program moves on (R216, R219). -/
def takeSlot (c : CoreId) (u : UnitId) (l : Landing) (s : State) : State :=
  updScoop c u (fun su => match su.active with
    | none => su
    | some r => { su with active := some { r with issued := r.issued + 1 }, landing := su.landing ++ [l] }) s

/-- A transfer waits for the upkeep window of a memory port on its far side (R344). -/
def windowHolds (s : State) (space a len : Nat) : Bool := decide (space ≤ 1) && runHeld s a len

/-- Issue the next transfer of a unit's active program (R216, R219, R220, R231, R239, R344, R363). A transfer that reads nothing may be
its program's last (R223). -/
def xferIssue (c : CoreId) (u : UnitId) (p : PartId) (cfg : PCfg) (r : ScoopRun) (s : State) : State :=
  let l := r.bytes
  match xferAt (s.core c).ws r r.issued with
  | none => s
  | some g =>
    if g.bad then scoopFault c u (scTag l) s
    else if g.zero then rotateUnit c u (takeSlot c u { dst := g.x.ws, len := g.x.len, data := List.replicate g.x.len 0, landed := true } s)
    else if !farOk s p cfg l g.x.far g.x.len then scoopFault c u (scTag l) s
    else
      let grp := scGroup l
      let b := (s.part p).simmer[grp.1]'grp.2
      let units := g.x.len / 64
      let space := xferSpace l g.x.far
      if throttled l && (earlierWaits s p c u grp || decide (b.level < units)) then s
      else if windowHolds s space g.x.far g.x.len then s
      else
        let (ok, s) := charge p (xferCost s l g.x.far g.x.len) s
        if !ok then s
        else
          let s := whenS (throttled l) (updPart p (fun x => { x with
            simmer := x.simmer.set grp.1 { (x.simmer[grp.1]'grp.2) with level := b.level - units } grp.2 })) s
          if scOut l then takeSlot c u { out := true, src := g.x.ws, dst := g.x.far, len := g.x.len, mcid := scMcid l, block := space } s
          else takeSlot c u { src := g.x.far, dst := g.x.ws, len := g.x.len, block := space } s

/-- SCOOP_TRANSFER_ISSUE (R219): receives issue nothing, the mesh brings them (R226). -/
def execScoopTransferIssue (c : CoreId) (u : UnitId) (s : State) : Res :=
  .next (match cfgOf s c, (scoopOf s c u).active with
    | some (p, cfg), some r =>
      if decide (r.total ≤ r.issued) || decide (6 ≤ (scoopOf s c u).landing.length) || (!scOut r.bytes && scFlags r.bytes != 0) then s
      else xferIssue c u p cfg r s
    | _, _ => s)

/-- Replace the first element that satisfies a test. -/
def mapFirst {α : Type} (t : α → Bool) (f : α → α) : List α → List α
  | [] => []
  | x :: r => if t x then f x :: r else x :: mapFirst t f r

/-- The transfer the next landing or acknowledgement is for: the oldest that is still out. -/
def awaits (l : Landing) : Bool := if l.out then l.landed else !l.landed

/-- After a unit's slots change: rotate, and offer the mesh's packets again (R223, R226). -/
def unitMoved (c : CoreId) (u : UnitId) (s : State) : State :=
  let s := rotateUnit c u s
  match partOfCore s c.1 with
  | some p => meshPump p s
  | none => s

/-- The tag of the program a unit runs (R218). -/
def unitTag (s : State) (c : CoreId) (u : UnitId) : Nat := ((scoopOf s c u).active.map (fun r => scTag r.bytes)).getD 0

/-- A task meets an uncorrectable line: owner classes 2 to 4 isolate the requests whose data holds it (R349, R351, R445). -/
def lineAbort (c : CoreId) (a : Nat) (o : Fin 8) (s : State) : State :=
  let w := whereOf s a
  abortOf c { code := 0x26, eclass := 2, src := if w < 0x80 then 0x200 + w else 0x300 + (w - 0x80)
              badLine := if 2 ≤ o.1 ∧ o.1 ≤ 4 then some a else none } s

/-- An IN transfer ends (R224, R239, R349); one from another core's working store ends after a fill phase of that core has read the bytes
(R217). -/
def landIn (c : CoreId) (u : UnitId) (l : Landing) (r : AccessResult) (s : State) : State :=
  let put (d : List Byte) (s : State) : State :=
    unitMoved c u (updScoop c u (fun su => { su with landing := mapFirst awaits (fun l => { l with data := d, landed := true }) su.landing }) s)
  match r with
  | .completionError => scoopFault c u (unitTag s c u) s
  | .linkFailed => scoopFault c u (unitTag s c u) s
  | _ =>
    if l.block ≤ 1 then
      let f : Finder := { found := 0, task := taskNumOf s c, part := ((partOfCore s c.1).map (·.1)).getD 0xFFFF }
      let s0 := s
      let (ok, s) := judgeRead l.src l.len r f s
      if ok then put (tierRead s l.src l.len) s
      else
        lineAbort c (badLineOf s0 l.src l.len) (ownerFor s0 r (badLineOf s0 l.src l.len)) s
    else if l.block = 2 then (if l.fetched then put l.data s else s)
    else match partOfCore s c.1 with
      | some p => put (rdBytes (s.part p).xmem l.src l.len) s
      | none => s

/-- The packet of an OUT transfer to another core still waits in the mesh (R15, R226). -/
def inMesh (s : State) (c : CoreId) (l : Landing) : Bool :=
  match partOfCore s c.1 with
  | some p => l.serial.isSome && (s.part p).mesh.any (fun k => k.src == c.1 && some k.serial == l.serial)
  | none => false

/-- An OUT transfer is acknowledged: its far side holds it, it counts, its slot is free (R217, R224). -/
def ackOut (c : CoreId) (u : UnitId) (l : Landing) (s : State) : State :=
  let s := match l.block with
    | 0 => tierWrite l.dst l.data s
    | 2 => s
    | _ =>
      (match partOfCore s c.1 with
        | some p => updPart p (fun x => { x with xmem := wrBytes x.xmem l.dst l.data }) s
        | none => s)
  unitMoved c u (updScoop c u (fun su => { su with landing := su.landing.eraseP awaits, landed := (su.landed + 1) % 2 ^ 32 }) s)

/-- TRANSFER_LANDED (R224): the oldest outstanding transfer of a unit reaches its landing slot, or is acknowledged. An upkeep window of its port
holds it (R344), and so does the mesh while its packet waits there (R15). -/
def execTransferLanded (c : CoreId) (u : UnitId) (r : AccessResult) (s : State) : Res :=
  .next (match (scoopOf s c u).landing.find? awaits with
    | none => s
    | some l =>
      if windowHolds s l.block (if l.out then l.dst else l.src) l.len || inMesh s c l then s
      else if !l.out then landIn c u l r s
      else match r with
        | .completionError => scoopFault c u (unitTag s c u) s
        | .linkFailed => scoopFault c u (unitTag s c u) s
        | .crcLimit o =>
          if l.block ≤ 1 && !isFar l.dst && !runFailed s l.dst l.len then
            let f : Finder := { found := 0, task := taskNumOf s c, part := ((partOfCore s c.1).map (·.1)).getD 0xFFFF }
            let (ok, s) := judgeRead l.dst l.len r f s
            if ok then ackOut c u l s else lineAbort c l.dst o s
          else ackOut c u l s
        | .crcRepeated _ => ackOut c u l (if l.block ≤ 1 && !runFailed s l.dst l.len then (judgeRead l.dst l.len r {} s).2 else s)
        | _ => ackOut c u l s)

/-- SIMMER_REFILL (R231): each bucket gains RATE, capped at DEPTH. -/
def execSimmerRefill (p : PartId) (s : State) : Res :=
  .next (updPart p (fun x => { x with simmer := x.simmer.map (fun g => { g with level := Nat.min g.depth (g.level + g.rate) }) }) s)

/-! ### Fill phases (R225) -/

/-- Acknowledge a multicast block that a fill phase wrote (R233). -/
def ackBlock (p : PartId) (c : CoreId) (l : Landing) (s : State) : State :=
  if !l.mc then s
  else updPart p (fun x => { x with mcast := (mapIf (fun m => m.mcid == l.mcid) (fun m =>
    { m with acked := (m.recv.zip m.acked).map (fun (r, n) => if r.1 = c.1 then n + 1 else n) }) x.mcast) }) s

/-- Landed transfers at the front of a unit's issue order. -/
def landedFront (l : List Landing) : List Landing := l.takeWhile (fun x => !x.out && x.landed)

/-- A drain reads the bytes of the OUT transfers that wait for it; those to other cores take the mesh's next serials from `n` on, in issue
order (R15, R217, R225). -/
def readOuts (ws : SMap Byte) : Nat → List Landing → List Landing
  | _, [] => []
  | n, l :: r =>
    if l.out && !l.landed then
      let l := { l with data := rdBytes ws l.src l.len, landed := true }
      if l.block = 2 then { l with serial := some n } :: readOuts ws (n + 1) r else l :: readOuts ws n r
    else l :: readOuts ws n r

/-- The packet of an OUT transfer to another core: a peer send, or with MCID 0 a write straight to that core's store (R217, R226). -/
def outPacket (c : CoreId) (l : Landing) : Packet :=
  { src := c.1, dst := peerCore l.dst, mcid := l.mcid, data := l.data, direct := if l.mcid = 0 then some (peerAddr l.dst) else none }

/-- Drain a unit: landed transfers in issue order are written and counted, OUT transfers read their bytes, and those to other cores enter the
mesh (R15, R217, R224, R225). -/
def drainUnit (c : CoreId) (u : UnitId) (s : State) : State :=
  let done := landedFront (scoopOf s c u).landing
  let s := updCore c (fun x => { x with ws := done.foldl (fun ws l => wsWr ws l.dst l.data) x.ws }) s
  let ws := (s.core c).ws
  let old := (scoopOf s c u).landing.drop done.length
  let n := ((partOfCore s c.1).map (fun p => (s.part p).meshSent)).getD 0
  let new := readOuts ws n old
  let s := updScoop c u (fun su => { su with landing := new, landed := (su.landed + done.length) % 2 ^ 32 }) s
  match partOfCore s c.1 with
  | some p => forAll (new.filter (fun l => l.serial.any (fun k => decide (n ≤ k)))) (fun l => toMesh p [outPacket c l]) (forAll done (ackBlock p c) s)
  | none => s

/-- A fill phase of a core serves the other cores of its partition: their waiting OUT transfers are written and their IN transfers read
(R20, R217; log 37, DESIGN CHOICE). -/
def servePeers (p : PartId) (c : CoreId) (s : State) : State :=
  let s := updCore c (fun x => { x with ws := x.peerIn.foldl (fun ws w => wsWr ws w.1 w.2) x.ws, peerIn := [] }) s
  let ws := (s.core c).ws
  forAll (coresOf s p) (fun d s => forAll (List.finRange 5) (fun u s => updScoop d u (fun su => { su with
    landing := su.landing.map (fun l =>
      if !l.out && !l.landed && !l.fetched && l.block == 2 && peerCore l.src == c.1
      then { l with data := rdBytes ws (peerAddr l.src) l.len, fetched := true } else l) }) s) s) s

/-- The counts a fill point names are reached (R225, R256). -/
def countsReached (x : Core) (fill : List W32) : Bool :=
  (List.finRange 5).all (fun u =>
    let n := fill.getD u.1 0xFFFFFFFF
    n == 0xFFFFFFFF || decide (n.toNat ≤ (x.su[u.1]'u.2).landed))

/-- What a fill phase does before its point is judged: the units drain in order, other cores are served, and units whose programs have
run take their next (R217, R223, R225). -/
def fillWork (c : CoreId) (s : State) : State :=
  let s := forAll (List.finRange 5) (drainUnit c) s
  let s := match partOfCore s c.1 with
    | some p => servePeers p c s
    | none => s
  forAll (List.finRange 5) (rotateUnit c) s

/-- The end of a core's fill phase: handles whose trays it wrote become takeable, and VX that waited for the store may launch (R20, R228). -/
def fillEnd (p : PartId) (c : CoreId) (s : State) : State :=
  forAll (coresOf s p) (fun d s => vePump d 8 s) (railPump p (meshPump p (readyRails p c s)))

/-- FILL_PHASE (R225): the units drain in order; the phase ends once the counts are reached, and handles whose trays it wrote
become takeable (R228). -/
def execFillPhase (c : CoreId) (s : State) : Res :=
  .next (match (s.core c).scq with
    | e :: r =>
      if e.arm.isSome || e.ran || !beforeDone (s.core c) e.id then s
      else
        let s := fillWork c s
        if (s.core c).scq.isEmpty then s
        else if !countsReached (s.core c) e.fill then
          (match partOfCore s c.1 with
            | some p => meshPump p s
            | none => s)
        else
          let s := updCore c (fun x => { x with scq := { e with ran := true } :: r }) s
          (match partOfCore s c.1 with
            | some p => fillEnd p c s
            | none => s)
    | [] => s)

/-! ### Multicast (R233, R234) -/

def streamOf (x : Part) (mcid : W64) : Option MStream := x.mcast.find? (fun m => m.mcid == mcid)

/-- The unit of a core that receives a stream: its program runs or is in the shadow slot, or blocks of the stream still wait there for a fill
phase (R233, R234). -/
def streamUnit (s : State) (mcid : W64) (c : CoreId) : Option UnitId :=
  (List.finRange 5).find? (fun u => decide (0 < streamSlots (scoopOf s c u) mcid)
    || [(scoopOf s c u).active, (scoopOf s c u).shadow].any (fun r => match r with
      | some r => !scOut r.bytes && bit (scFlags r.bytes) 0 && scMcid r.bytes == mcid
      | none => false))

/-- Destination set of a stream: the cores of the delivery list that carries its MCID, else the cores armed for it, each once with the
first unit so armed (R18, R233, R389). -/
def destsOf (s : State) (p : PartId) (mcid : W64) : List (Nat × Nat) :=
  match ((s.part p).section_).bind (fun cfg => cfg.dlists.find? (fun d => d.2.2 == mcid)) with
  | some d => d.2.1.map (fun c => (c, 0xFF))
  | none => (coresOf s p).filterMap (fun c => (streamUnit s mcid c).map (fun u => (c.1, u.1)))

/-- Receivers that have not acknowledged the block four before `b` (R233). -/
def holders (m : MStream) (b : Nat) : List (Nat × Nat) :=
  ((m.recv.zip m.acked).filter (fun (_, n) => decide (n + 4 ≤ b))).map Prod.fst

/-- The checkpoint of a multicast block send (R390). -/
def blockCkpt (x : Part) (t : Task) (mcid : W64) (b : Nat) : Option Ckpt :=
  (shapeOf x t).bind (fun h => h.ckpts.find? (fun k => k.kind == 4 && k.aux == mcid.toNat % 65536 && k.step == b))

/-- MULTICAST_BLOCK_SEND (R233): block b goes to every receiver at once, once each has acknowledged block b - 4. -/
def execMulticastBlockSend (p : PartId) (mcid : W64) (data : List Byte) (s : State) : Res :=
  .next (match (s.part p).task with
    | none => s
    | some t =>
      if !t.live || data.isEmpty || decide (16384 < data.length) then s
      else
        let fresh : MStream := { mcid, recv := destsOf s p mcid, acked := (destsOf s p mcid).map (fun _ => 0) }
        let m := (streamOf (s.part p) mcid).getD fresh
        if m.recv.isEmpty || !(holders m m.sent).isEmpty then s
        else if m.recv.any (fun r => !coreReachable s p r.1) then abortTask p { code := 0x22 } false s
        else
          let m' := { m with sent := m.sent + 1 }
          let s := updPart p (fun x => { x with mcast := m' :: x.mcast.filter (fun z => z.mcid != mcid) }) s
          let s := match blockCkpt (s.part p) t mcid m.sent with
            | some k => meetCkpt p k.idx s
            | none => s
          toMesh p (m.recv.map (fun r => { dst := r.1, mc := true, mcid, block := m.sent, data })) s)

/-- MULTICAST_LAG_ABORT (R234): block b is held by a receiver past its latest send phase. -/
def execMulticastLagAbort (p : PartId) (mcid : W64) (s : State) : Res :=
  .next (match (s.part p).task, streamOf (s.part p) mcid with
    | some t, some m =>
      (match blockCkpt (s.part p) t mcid m.sent with
        | some k =>
          if t.live && decide (k.latest < taskPhase s t) && !(holders m m.sent).isEmpty then
            let held := (holders m m.sent).map (fun r => (r.1, ((streamUnit s mcid (cid r.1)).map (·.1)).getD r.2))
            forAll held (fun r s => abortTask p { code := 0x23, src := r.1, unit := r.2, ckpt := k.idx, held } false s) s
          else s
        | none => s)
    | _, _ => s)

/-! ### Bells and late data -/

/-- A core has arrived at the bell (R235). -/
def atBell (x : Core) : Bool :=
  (match x.hold with
    | .bell _ _ => true
    | _ => false)
  && maskIdle x 0x1F && x.scq.isEmpty && x.trq.isEmpty && scoopsEmpty x && x.su.all (fun u => u.landing.isEmpty)

def bellMark (x : Core) : Nat × Nat :=
  match x.hold with
  | .bell m k => (m, k)
  | _ => (0, 0)

/-- BELL_RELEASE (R235, R258): every core of the partition has arrived, and no earliest phase holds it (R236). -/
def execBellRelease (p : PartId) (s : State) : Res :=
  let cs := coresOf s p
  .next (if cs.isEmpty || !cs.all (fun c => (s.core c).running && atBell (s.core c)
        && earliestReached s c (bellMark (s.core c)).2) then s
    else forAll cs (fun c s =>
      let (m, k) := bellMark (s.core c)
      nextLine c (meetCkpt p k (trace 0 p.1 [m, c.1, s.tick.now, s.tick.phase] s))) s)

/-- A receiver holds the multicast block of a checkpoint: it is no late data (R234). -/
def blockHeld (x : Part) (k : Ckpt) : Bool :=
  k.kind == 4 && x.mcast.any (fun m => k.aux == m.mcid.toNat % 65536 && k.step == m.sent && !(holders m m.sent).isEmpty)

/-- LATE_DATA (R238): a checkpoint that waits on no collective step and on no receiver of a block is not met by its latest phase. -/
def execLateData (p : PartId) (ckpt : BitVec 15) (s : State) : Res :=
  .next (match (s.part p).task with
    | none => s
    | some t => match ckptOf (s.part p) t ckpt.toNat with
      | none => s
      | some k =>
        if t.live && k.kind != 6 && !k.onStep && !blockHeld (s.part p) k && !t.met.contains k.idx && decide (k.latest < taskPhase s t) then
          abortTask p { code := 0x21, src := k.core, unit := k.unit, ckpt := k.idx } false s
        else s)

end Sys2Proof.Machine
end

