-- ==== Sys2Proof/Machine/Suspects.lean ====
section
/-! DEFINITION. The suspect table (R450-R453). -/

namespace Sys2Proof.Machine

/-- Same coordinates and level. -/
def sameDev (a b : DevAddr) : Bool := decide (a = b)

def addrNums (a : DevAddr) : List Nat := [a.x.toNat, a.y.toNat, a.z.toNat, a.level.toNat]

/-- The body of a suspect report (R450). -/
def repBody (r : SuspectRep) : List Nat :=
  addrNums r.suspect ++ [r.res.toNat, r.reason.toNat, r.rflags.toNat, r.rx.toNat, r.ry.toNat, r.rz.toNat, r.count.toNat, r.total.toNat, r.first.toNat]

def setSuspect (e : Fin 64) (x : Option Suspect) (s : State) : State :=
  updFlt (fun f => { f with suspects := f.suspects.set e.1 x e.2 }) s

/-- Devices a forward goes to besides the log: the lead of the partition concerned and the remote owner (R451). -/
def forwardTo (s : State) (part : Nat) : List DevAddr :=
  let me := selfAddr s
  let lead := if 64 ≤ part then [] else match (s.part (pid part)).section_ with
    | some cfg => if cfg.span ≠ 0 && !sameDev cfg.lead me then [cfg.lead] else []
    | none => []
  let rm := match s.own.owner.map Claim.m with
    | some (.rm x y z) => if decide (s.own.state = OState.owned) && !sameDev ⟨x, y, z, 0⟩ me then [(⟨x, y, z, 0⟩ : DevAddr)] else []
    | _ => []
  lead ++ rm.filter (fun d => !lead.contains d)

/-- An entry forwards (R451, R452): a record, and where the count includes local detections the class M reports and the notice
to the suspect. -/
def forwardEntry (e : Fin 64) (s : State) : State :=
  match s.flt.suspects[e.1]'e.2 with
  | none => s
  | some q =>
    let me := selfAddr s
    let r : SuspectRep := { q.rep with rx := me.x, ry := me.y, rz := me.z }
    let s := logR 0x0006 1 6 (if r.res == 0 then 0xFFFF else 0x100 + (r.res.toNat - 1)) q.part (repBody r) s
    let s := whenS q.local_ (fun s =>
      sendM 0x11 r.suspect (repBody { r with rflags := r.rflags ||| 2 })
        (forAll (forwardTo s q.part) (fun d => sendM 0x10 d (repBody r)) s)) s
    setSuspect e (some { q with rep := { q.rep with count := 0 }, local_ := false, lastFwd := s.tick.now }) s

/-- Add to a saturating 32-bit count. -/
def sat32 (a : W32) (n : Nat) : W32 := BitVec.ofNat 32 (Nat.min 0xFFFFFFFF (a.toNat + n))

/-- The slot a new suspect takes (R453): a free one, else the one longest without a report if that is 16 ticks or more. -/
def suspectSlot (s : State) : Option (Fin 64) :=
  match (List.finRange 64).find? (fun e => (s.flt.suspects[e.1]'e.2).isNone) with
  | some e => some e
  | none =>
    let age (e : Fin 64) : Nat := ((s.flt.suspects[e.1]'e.2).map Suspect.lastRep).getD 0
    let e := (List.finRange 64).foldl (fun a e => if age e < age a then e else a) 0
    if age e + 16 ≤ s.tick.now then some e else none

/-- Enter `n` reports of a suspect (R451, R453). -/
def noteSuspect (d : DevAddr) (res reason : Byte) (n : Nat) (loc : Bool) (recv : Bool) (part : Nat) (s : State) : State :=
  match (List.finRange 64).find? (fun e => match s.flt.suspects[e.1]'e.2 with
    | some q => sameDev q.rep.suspect d && q.rep.res == res
    | none => false) with
  | some e =>
    (match s.flt.suspects[e.1]'e.2 with
      | none => s
      | some q => setSuspect e (some { q with rep := { q.rep with count := sat32 q.rep.count n, total := sat32 q.rep.total n, reason }
                                              local_ := q.local_ || loc, lastRep := s.tick.now }) s)
  | none =>
    match suspectSlot s with
    | none => alarm 13 (updFlt (fun f => { f with suspovf := satAdd 64 f.suspovf 1 }) s)
    | some e =>
      let s := match s.flt.suspects[e.1]'e.2 with
        | some q => if q.rep.count ≠ 0 then forwardEntry e s else s
        | none => s
      let rep : SuspectRep := { suspect := d, res, reason, rflags := if recv then 1 else 0, rx := 0, ry := 0, rz := 0
                                count := BitVec.ofNat 32 n, total := BitVec.ofNat 32 n, first := BitVec.ofNat 64 s.tick.now }
      forwardEntry e (setSuspect e (some { rep, local_ := loc, lastFwd := s.tick.now, lastRep := s.tick.now, part }) s)

/-- A local detection (R451). -/
def detect (d : DevAddr) (res reason : Byte) (part : Nat) (s : State) : State := noteSuspect d res reason 1 true false part s

/-- SUSPECT_REPORT (R451): a partner's report adds its COUNT, is logged, and is never forwarded over class M again. -/
def execSuspectReport (r : SuspectRep) (s : State) : Res :=
  .next (if !linksOn s then s else noteSuspect r.suspect r.res r.reason r.count.toNat false true 0xFFFF s)

/-- An accusation is counted, logged at most once per accuser in 16 ticks, and raises PEER (R452). -/
def accused (r : SuspectRep) (s : State) : State :=
  let who : DevAddr := ⟨r.rx, r.ry, r.rz, 0⟩
  let recent := s.flt.accLog.any (fun a => sameDev a.1 who && decide (s.tick.now < a.2 + 16))
  let s := updFlt (fun f => { f with accused := satAdd 64 f.accused 1 }) s
  let s := if recent then s else
    logR 0x0007 0 6 0xFFFF 0xFFFF (repBody r) (updFlt (fun f => { f with accLog := (who, s.tick.now) :: f.accLog.filter (fun a => !sameDev a.1 who) }) s)
  alarm 12 s

/-- PEER_ACCUSED (R452). -/
def execPeerAccused (r : SuspectRep) (s : State) : Res := .next (if !linksOn s then s else accused r s)

/-- SUSPECT_FORWARD (R451): at the 16th boundary after its last forward, an entry with a count forwards again. -/
def execSuspectForward (e : Fin 64) (s : State) : Res :=
  .next (match s.flt.suspects[e.1]'e.2 with
    | some q => if q.lastFwd + 16 ≤ s.tick.now ∧ q.rep.count ≠ 0 then forwardEntry e s else s
    | none => s)

/-- SUSPECT_EXPIRY (R453): an entry without a report for 1,024 ticks goes, after any pending forward. -/
def execSuspectExpiry (e : Fin 64) (s : State) : Res :=
  .next (match s.flt.suspects[e.1]'e.2 with
    | some q =>
      if q.lastRep + 1024 ≤ s.tick.now then
        setSuspect e none (whenS (decide (q.rep.count ≠ 0)) (forwardEntry e) s)
      else s
    | none => s)

end Sys2Proof.Machine
end

