-- ==== Sys2Proof/Machine/Links.lean ====
section
/-! DEFINITION. Link ports: flits, acknowledgements, replay, credits, routing, retrain, training (R266-R277), and the Ethernet
queue pairs (R301, R302). -/

namespace Sys2Proof.Machine

/-! ### Receiving (R270, R271, R274) -/

/-- FEC corrected it and its CRC holds (R270). -/
def flitGood (f : Flit) : Bool := f.fecOk && f.crc == flitCrc f

/-- Drop the replay flits that an ACKSEQ covers (R271). -/
def ackReplay (l : List (Flit × Option (Nat × Nat))) (ack : Nat) : List (Flit × Option (Nat × Nat)) :=
  match l.findIdx? (fun f => f.1.fseq.toNat == ack) with
  | some i => l.drop (i + 1)
  | none => l

/-- Acknowledgement, NAK and credits of a good flit (R270, R271, R274): what waited for the port, or for a partition's acknowledgements, goes
on. -/
def takeAck (i : PortId) (f : Flit) (s : State) : State :=
  let x := s.port i
  let r := ackReplay x.replay f.ackseq.toNat
  let progress := decide (r.length < x.replay.length)
  let k := cvIdx f.crcls.toNat f.crvc
  let lim := [1024, 1024, 512, 512, 64, 64].getD k 0
  let s := updPort i (fun x => { x with
    replay := r
    naksRun := if f.nak then (if progress then 1 else x.naksRun + 1) else if progress then 0 else x.naksRun
    credits := x.credits.set k (Nat.min lim (x.credits.getD k 0 + f.crcnt.toNat)) }) s
  let s := whenS f.nak (resend i) s
  forAll allParts pumpAcks (portPump i s)

/-- Answer with a NAK (R270). -/
def sendNak (i : PortId) (s : State) : State :=
  emit (.nak i.1 (lastGood (s.port i))) (updPort i (fun x => { x with seeking := true, naks := satAdd 64 x.naks 1 }) s)

/-- The credit of a flit that leaves the receive buffer at once (R274). -/
def returnCredit (i : PortId) (f : Flit) (s : State) : State := emit (.credit i.1 f.cls.toNat f.vc 1) s

/-- Add a flit to the packet in progress on its class and channel. -/
def growPkt (f : Flit) : List (Nat × Bool × List Flit) → List (Nat × Bool × List Flit)
  | [] => []
  | t :: r => if pktCls t.2.2 == f.cls.toNat && pktVc t.2.2 == f.vc && !wholePkt t.2.2 then (t.1, t.2.1, t.2.2 ++ [f]) :: r else t :: growPkt f r

/-- Forward a flit of a packet in transit: its head names the route, its tail ends it (R275). A packet that no port takes is dropped here: for
class A and W, a failed transfer of its sender (R276); one of another level travels on no torus port (R275). -/
def transitFlit (i : PortId) (f : Flit) (dst : Option DevAddr) (s : State) : State :=
  let k := cvIdx f.cls.toNat f.vc
  let r := match dst with
    | some d => if d.level = 0 then routeOf s d f.cls.toNat (some (i, f.vc)) else none
    | none => ((s.port i).routes.getD k none).map (fun t => (portid t.1, t.2))
  let s := updPort i (fun x => { x with routes := x.routes.set k (if f.tail then none else r.map (fun t => (t.1.1, t.2))) }) s
  match r with
  | none => returnCredit i f s
  | some (o, vc) => portPump o (updPort i (fun x => { x with
      transit := if dst.isSome then x.transit ++ [(o.1, vc, [f])] else growPkt f x.transit }) s)

/-- Destination in the packet header of a HEAD flit (R278). -/
def headDst (f : Flit) : DevAddr :=
  { x := BitVec.ofNat 16 (fieldLE f.body 0 2), y := BitVec.ofNat 16 (fieldLE f.body 2 2), z := BitVec.ofNat 16 (fieldLE f.body 4 2)
    level := f.body.getD 6 0 }

/-- FLIT_RECEIVE (R270). -/
def execFlitReceive (port : PortId) (fl : Flit) (s : State) : Res :=
  let x := s.port port
  .next (if !isLink x || decide (x.state ≠ .up) then s
    else if !flitGood fl then sendNak port s
    else if fl.cls = 3 then takeAck port fl s
    else if fl.fseq.toNat ≠ x.rxSeq then (if x.seeking then s else sendNak port s)
    else
      let s := updPort port (fun x => { x with rxSeq := (x.rxSeq + 1) % 4096, seeking := false }) s
      let s := emit (.flitAck port.1 fl.fseq.toNat) (takeAck port fl s)
      if fl.head then (if forMe s port (headDst fl) then returnCredit port fl s else transitFlit port fl (some (headDst fl)) s)
      else if ((s.port port).routes.getD (cvIdx fl.cls.toNat fl.vc) none).isSome then transitFlit port fl none s
      else returnCredit port fl s)

/-! ### Retrain, port down, training (R268, R272) -/

/-- Write a port event record (R446). -/
def portEvent (i : PortId) (kind eclass : Nat) (s : State) : State :=
  let far := (s.port i).farId
  logR 0x0005 1 eclass (0x100 + i.1) 0xFFFF ([i.1, kind] ++ (match far with
    | some (d, q) => [d.x.toNat, d.y.toNat, d.z.toNat, q]
    | none => [0, 0, 0, 0])) s

/-- RETRAIN (R272): 16 NAKs without progress, or more FEC symbol errors in 1 ms than the image's limit. -/
def execRetrain (port : PortId) (cause : RetrainCause) (s : State) : Res :=
  let x := s.port port
  let due := match cause with
    | .naks => decide (16 ≤ x.naksRun)
    | .fec n => decide (s.img.dev.feclim < n)
  let s := match cause with
    | .naks => s
    | .fec n => updPort port (fun x => { x with fecsym := satAdd 64 x.fecsym n }) s
  .next (if !isLink x || decide (x.state ≠ .up) || !due then s
    else portEvent port 2 0 (updPort port (fun x => { x with state := .retraining, retrainNs := nowNs s, retrains := satAdd 64 x.retrains 1 }) s))

/-- RETRAIN_COMPLETE (R272): within 1 ms, and the held flits resume. -/
def execRetrainComplete (port : PortId) (s : State) : Res :=
  let x := s.port port
  .next (if x.state ≠ .retraining ∨ x.retrainNs + 1000000 < nowNs s then s
    else
      let s := updPort port (fun x => { x with state := .up, naksRun := 0 }) s
      portPump port (resend port s))

/-- The far device of a port: its last training's identity. -/
def farDev (s : State) (i : PortId) : Option (DevAddr × Nat) := (s.port i).farId

/-- Every transit packet that waits for a port is discarded, its receive buffer returning its credits, and every packet whose rest would have come
in by the port (R272, R274). -/
def dropTransit (o : PortId) (s : State) : State :=
  let s := updPort o (fun x => { x with transit := x.transit.filter (fun t => wholePkt t.2.2) }) s
  forAll allPorts (fun i s =>
    let s := forAll ((s.port i).transit.filter (fun t => t.1 == o.1 && i != o)) (fun t => emit (.credit i.1 (pktCls t.2.2) (pktVc t.2.2) t.2.2.length)) s
    updPort i (fun x => { x with transit := x.transit.filter (fun t => t.1 != o.1) }) s) s

/-- The partitions whose running task has a packet among a port's held flits (R272). -/
def heldTasks (s : State) (i : PortId) : List Nat :=
  ((((s.port i).replay.filterMap Prod.snd).filter (fun o => ((s.part (pid o.1)).task.map Task.num) == some o.2)).map Prod.fst).dedup

/-- Take a port down (R272): its packets are discarded and every task with one among them aborts with 0x22. -/
def takeDown (i : PortId) (s : State) : State :=
  let users := heldTasks s i
  let s := dropTransit i (updPort i (fun x => { x with state := .down, replay := [], mq := [], seeking := false, naksRun := 0
                                                       routes := [none, none, none, none, none, none] }) s)
  let s := alarm 5 (portEvent i 3 3 s)
  let s := match (s.port i).farId with
    | some (d, q) => detect d (BitVec.ofNat 8 (q + 1)) 0x02 0xFFFF s
    | none => s
  forAll users (fun p s => abortTask (pid p) { code := 0x22, src := 0x100 + i.1 } false s) s

/-- PORT_DOWN (R272): a retrain has not succeeded after 1 ms. -/
def execPortDown (port : PortId) (s : State) : Res :=
  let x := s.port port
  .next (if x.state = .retraining ∧ x.retrainNs + 1000000 ≤ nowNs s then takeDown port s else s)

/-- Register offset that stands for a port's TRAIN operation in an ignored write's record (R479; log 39, DESIGN CHOICE). -/
def lnkTrain (i : PortId) : Nat := 0x80000 + i.1

/-- A training starts: the port carries nothing until its check, and a link port sends its coordinates, its name and the fabric tag (R268). -/
def startTraining (i : PortId) (s : State) : State :=
  let s := updPort i (fun x => { x with state := .training, replay := [], transit := [], mq := [], seeking := false, naksRun := 0 }) s
  whenS (isLink (s.port i)) (emit (.training i.1 (selfAddr s) s.img.dev.tag)) s

/-- PORT_TRAIN (R272, R479): the owner's TRAIN operation. A port in role OFF stays at electrical idle (R267). -/
def execPortTrain (m : Master) (port : PortId) (s : State) : Res :=
  .next (ownerOnly m (lnkTrain port) (fun s => if (s.port port).role = 0 then s else startTraining port s) s)

/-- The check of R268. -/
def trainOk (s : State) (i : PortId) (far : DevAddr) (farPort : PortId) (tag : W64) : Bool :=
  let me := selfAddr s
  let co (d : DevAddr) (a : Nat) : Nat := if a = 0 then d.x.toNat else if a = 1 then d.y.toNat else d.z.toNat
  tag == s.img.dev.tag &&
  (if i.1 < 6 then
    let a := i.1 / 2
    let (len, ring, c) := axisOf s a
    let pos := decide (i.1 % 2 = 0)
    let want : Option Nat := if pos then (if c + 1 < len then some (c + 1) else if ring then some 0 else none)
      else (if 0 < c then some (c - 1) else if ring then some (len - 1) else none)
    decide (farPort.1 = (if pos then i.1 + 1 else i.1 - 1)) && decide (want = some (co far a))
    && (List.range 3).all (fun b => b == a || co far b == co me b)
  else true)

/-- TRAINING_COMPLETE (R268): the identity check admits the port to service, or it carries no traffic. An Ethernet port trains as
its own standard gives (R301). -/
def execTrainingComplete (port : PortId) (far : DevAddr) (farPort : PortId) (tag : W64) (s : State) : Res :=
  let x := s.port port
  .next (if x.state ≠ .training then s
    else
      let s := updPort port (fun x => { x with farId := some (far, farPort.1) }) s
      if isEth x || trainOk s port far farPort tag then
        portEvent port 4 0xFF (updPort port (fun x => { x with
          state := .up, txSeq := 0, rxSeq := 0, replay := [], credits := [1024, 1024, 512, 512, 64, 64], naksRun := 0 }) s)
      else
        let s := updPort port (fun x => { x with state := .refused }) s
        let me := selfAddr s
        let s := logR 0x0005 1 3 (0x100 + port.1) 0xFFFF [port.1, 1, far.x.toNat, far.y.toNat, far.z.toNat, farPort.1, me.x.toNat, me.y.toNat, me.z.toNat] s
        detect far (BitVec.ofNat 8 (farPort.1 + 1)) 0x01 0xFFFF (alarm 5 s))

/-! ### Ethernet queue pairs (R301, R302) -/

def updQp (i : PortId) (qp : Nat) (f : QPair → QPair) (s : State) : State :=
  updPort i (fun x => { x with qps := mapIf (fun q => q.qp == qp) f x.qps }) s

def qpOf (x : Port) (qp : Nat) : Option QPair := x.qps.find? (fun q => q.qp == qp)

/-- A port has a queue pair for a destination, or can make one: it has 4,096, of which an idle one may take a new destination (R301; log 195, DESIGN
CHOICE). -/
def qpRoom (x : Port) (dest : Nat) : Bool :=
  x.qps.any (fun q => q.dest == dest) || decide (x.qps.length < 4096) || x.qps.any (fun q => q.unacked.isEmpty)

/-- The queue pair of a destination is made at its first use (R301). -/
def ensureQp (i : PortId) (dest : Nat) (s : State) : State :=
  updPort i (fun x =>
    if x.qps.any (fun q => q.dest == dest) then x
    else if x.qps.length < 4096 then { x with qps := x.qps ++ [{ qp := x.qps.length, dest }] }
    else { x with qps := mapFirst (fun q => q.unacked.isEmpty) (fun q => { qp := q.qp, dest }) x.qps }) s

/-- Packets of a write of n bytes at the path MTU of 4,096 B (R301). -/
def writePackets (n : Nat) : Nat := Nat.max 1 ((n + 4095) / 4096)

/-- Bytes that a port's line carries in a tick, at 1.6 Tb/s (R301). -/
def lineBytes (s : State) : Nat := 200 * s.tick.period

/-- A queue pair has used its rate of the tick (R301, R385). A write larger than the rate still goes, alone (log 195, DESIGN CHOICE). -/
def rateHolds (s : State) (i : PortId) (dest n : Nat) : Bool :=
  (s.port i).qps.any (fun q => q.dest == dest && decide (0 < q.used ∧ q.rate * lineBytes s / 256 < q.used + n))

/-- A write of n bytes goes out by the queue pair of a destination (R301, R302): `w` takes the number of its last packet. -/
def addWrite (i : PortId) (dest n : Nat) (w : QWrite) (s : State) : State :=
  updPort i (fun x => { x with qps := mapIf (fun q => q.dest == dest) (fun q => { q with
    psn := q.psn + writePackets n, used := q.used + n, sentNs := if q.unacked.isEmpty then nowNs s else q.sentNs
    unacked := q.unacked ++ [{ w with seq := q.psn + writePackets n }] }) x.qps }) s

def ethCfg (s : State) (i : PortId) : EthCfg := (s.img.dev.eth.find? (fun e => e.port == i.1)).getD {}

/-- Writes are acknowledged: each DATA segment counts for the attempt that sent it (R301, R323). -/
def segsAcked (qs : List QWrite) (s : State) : State :=
  forAll (qs.filter QWrite.data) (fun q s => updPart (pid q.part) (fun x => { x with
    reqs := mapIf (fun r => r.rid == q.rid && r.epoch == q.epoch) (fun r => { r with segAcked := r.segAcked + 1 }) x.reqs }) s) s

/-- Partitions whose running task carries the attempt of an unacknowledged write (R302). -/
def failedParts (s : State) (qs : List QWrite) : List Nat :=
  ((qs.filter (fun q => (s.part (pid q.part)).reqs.any (fun r => r.rid == q.rid && r.epoch == q.epoch
    && ((s.part (pid q.part)).task.map Task.num) == some r.task))).map QWrite.part).dedup

/-- A tick begins on the Ethernet ports: every queue pair regains rate, and none has used any (R301, R385). -/
def qpTick (s : State) : State :=
  forAll allPorts (fun i s => updPort i (fun x => { x with qps := x.qps.map (fun q => { q with
    rate := Nat.min 256 (q.rate + (ethCfg s i).regain), used := 0 }) }) s) s

/-- ROCE_ACK (R301): every write of the queue pair up to a sequence is acknowledged, and the timer of the next starts (R302). -/
def execRoceAck (port : PortId) (qp : BitVec 12) (upto : Nat) (s : State) : Res :=
  .next (match isEth (s.port port), qpOf (s.port port) qp.toNat with
    | true, some q =>
      let (done, left) := q.unacked.partition (fun u => decide (u.seq ≤ upto))
      segsAcked done (updQp port qp.toNat (fun q => { q with
        unacked := left
        retries := if done.isEmpty then q.retries else 0
        sentNs := if done.isEmpty then q.sentNs else nowNs s }) s)
    | _, _ => s)

/-- CONGESTION_NOTIFICATION (R301): the queue pair cuts its rate by the image's factor, in 1/256. -/
def execCongestionNotification (port : PortId) (qp : BitVec 12) (s : State) : Res :=
  .next (if isEth (s.port port) && (ethCfg s port).ecn then
      updQp port qp.toNat (fun q => { q with rate := q.rate * (ethCfg s port).factor / 256 }) s
    else s)

/-- The image's acknowledgement timeout has passed since a queue pair's oldest write was last sent (R302, R385). -/
def timedOut (s : State) (i : PortId) (q : QPair) : Bool := decide (q.sentNs + 1000 * (ethCfg s i).timeout ≤ nowNs s)

/-- ROCE_RETRY_TIMEOUT (R302): after the timeout, retransmit, or fail the attempts that used a queue pair whose retries are spent. -/
def execRoceRetryTimeout (port : PortId) (qp : BitVec 12) (s : State) : Res :=
  .next (match isEth (s.port port), qpOf (s.port port) qp.toNat with
    | true, some q =>
      if q.unacked.isEmpty || !timedOut s port q then s
      else if q.retries < (ethCfg s port).retries then
        emit (.retransmit port.1 qp.toNat) (updQp port qp.toNat (fun q => { q with retries := q.retries + 1, sentNs := nowNs s }) s)
      else
        let parts := failedParts s q.unacked
        let s := updQp port qp.toNat (fun q => { q with retries := 0, unacked := [] }) s
        forAll parts (fun p s => abortTask (pid p) { code := 0x22, src := 0x100 + port.1 } false s) s
    | _, _ => s)

/-- FOREIGN_REQUEST_DROP (R301). -/
def execForeignRequestDrop (port : PortId) (s : State) : Res :=
  .next (if isEth (s.port port) then updPort port (fun x => { x with foreign := x.foreign + 1 }) s else s)

/-- PRIORITY_FLOW_CONTROL (R301): sending on the image's priority pauses or resumes; another priority, or none, is not supported. -/
def execPriorityFlowControl (port : PortId) (prio : Byte) (pause : Bool) (s : State) : Res :=
  .next (if isEth (s.port port) && decide ((ethCfg s port).pfcPrio = prio.toNat ∧ prio.toNat < 8) then
      updPort port (fun x => { x with paused := pause }) s
    else s)

end Sys2Proof.Machine
end

