-- ==== Sys2Proof/Machine/Collective.lean ====
section
/-! DEFINITION. Packets that land (R278), and collectives: pieces, acknowledgements, local tiles, triggered operations, step
deadlines, notices (R280-R300). -/

namespace Sys2Proof.Machine

/-! ### WRITE and SEGMENT packets (R278, R370, R386) -/

/-- WRITE (R278): the payload lands at ADDR if the destination partition may write the whole run there (R328, R370, R339). -/
def execWrite (h : PktHdr) (data : List Byte) (s : State) : Res :=
  .next (if !linksOn s || decide (64 ≤ h.dpart.toNat) then s else
    match (s.part (pid h.dpart.toNat)).section_ with
    | none => s
    | some cfg =>
      let a := h.addr.toNat
      if inWindow cfg a data.length true && runValid s a data.length && !runOffline s a data.length then tierWrite a data s else s)

/-- SEGMENT (R278): a peer's cache segment lands in the export receive region of the image (R386, class 7). -/
def execSegment (h : PktHdr) (data : List Byte) (s : State) : Res :=
  let a := h.addr.toNat
  .next (if linksOn s && s.mem.regions.any (fun r => r.cls == 7 && inRegion r a && inRegion r (a + (data.length - 1))) then tierWrite a data s else s)

/-! ### Pieces (R278, R281, R282, R296) -/

/-- Discard a piece: counted and logged, never an abort; the sender is a suspect (R282, R446, R450). -/
def discardPiece (p : PartId) (reason : Nat) (h : PktHdr) (s : State) : State :=
  let s := updFlt (fun f => { f with discard := f.discard.set h.group.toNat (satAdd 64 (f.discard[h.group.toNat]'h.group.isLt) 1) h.group.isLt }) s
  let s := logR 0x000A 2 6 0xFFFF p.1 [h.group.toNat, reason, h.src.x.toNat, h.src.y.toNat, h.src.z.toNat, h.task.toNat] s
  detect h.src 0 0x05 p.1 s

/-- PIECE (R281, R282, R284, R296). -/
def execPiece (port : PortId) (h : PktHdr) (data : List Byte) (s : State) : Res :=
  .next (if !linksOn s || decide (64 ≤ h.dpart.toNat) then s else
    let p := pid h.dpart.toNat
    match groupOfGid (s.part p) h.group.toNat, (s.part p).task with
    | none, _ => s
    | some _, none => discardPiece p 1 h s
    | some g, some t =>
      if h.task.toNat ≠ t.num ∨ !t.live then discardPiece p 1 h s
      else if !g.members.contains h.src then discardPiece p 2 h s
      else match instOf g h.gseq.toNat with
        | some e =>
          if pieceMatches e h then landPiece p port.1 g h data s
          else detect h.src 0 0x04 p.1 (abortTask p { code := 0x27, src := 0x100 + port.1 } false s)
        | none => updGroup p g.gid (fun g => { g with waiting := g.waiting ++ [(port.1, h, data)] }) s)

/-! ### Local tiles (R283, R284) -/

/-- Take the first tile on its way to a network interface. -/
def takeTile (k : Nat × Nat × Nat) (l : List (Nat × Nat × Nat × List Byte)) : Option (List Byte × List (Nat × Nat × Nat × List Byte)) :=
  (l.find? (fun t => decide ((t.1, t.2.1, t.2.2.1) = k))).map (fun t => (t.2.2.2, l.erase t))

/-- LOCAL_TILE_LAND (R283, R284): the tile lands at BOFF + index × tile bytes and advances TCTR; the instance closes once TOTAL
bytes of local tiles have landed. -/
def execLocalTileLand (p : PartId) (port : PortId) (c : CoreId) (xd : BitVec 9) (tile : Nat) (s : State) : Res :=
  .next (match takeTile (c.1, port.1, xd.toNat) (s.part p).tiles, (s.part p).section_ with
    | some (data, rest), some cfg =>
      let e := exchAt (s.core c).dstore cfg.exchOff xd.toNat
      (match groupOfGid (s.part p) e.gid with
        | none => s
        | some g =>
          let s := updPart p (fun x => bumpCtr port.1 e.tctr { x with
            tiles := rest, xmem := wrBytes x.xmem (bufAddr g port.1 (e.boff + tile * data.length)) data }) s
          updGroup p e.gid (fun g => { g with opens := openTiles xd.toNat data.length e.total g.opens }) s)
    | _, _ => s)

/-! ### Reducing and narrowing (R285, R292, R300) -/

/-- rnd(landed ⊕ local) of one element (R285): FP32, BF16 rounded once, or INT32; MAX for FP32 under FLAGS bit 4. -/
def reduceElem (e : Exch) (a b : Nat) : Nat :=
  let x : W32 := BitVec.ofNat 32 a
  let y : W32 := BitVec.ofNat 32 b
  if e.dfmt = 6 then (x + y).toNat
  else if e.dfmt = 1 then (toBF16 (addTo32 true (ofBF16 (BitVec.ofNat 16 a)) (ofBF16 (BitVec.ofNat 16 b))).1).1.toNat
  else if bit e.flags 4 then (fMax x y).toNat
  else (fAdd x y).1.toNat

/-- Bytes of a reduced element. -/
def elemBytes (e : Exch) : Nat := if e.dfmt = 1 then 2 else 4

/-- Combine two pieces element by element, landed first (R285, R292). -/
def reducePiece (e : Exch) (landed loc : List Byte) : List Byte :=
  let n := elemBytes e
  (List.range (loc.length / n)).flatMap (fun i => leBytes n (reduceElem e (fieldLE landed (n * i) n) (fieldLE loc (n * i) n)))

/-- The FP32 elements of a piece. -/
def f32s (l : List Byte) : List W32 := (List.range (l.length / 4)).map (fun i => BitVec.ofNat 32 (fieldLE l (4 * i) 4))

/-- Narrow a piece (R300): BF16, or FP8 E4M3 blocks of 256 with a scale byte each, and its clamps and poisoned blocks. -/
def narrowPiece (e : Exch) (l : List Byte) : List Byte × Nat × Nat :=
  if bit e.flags 2 then ((f32s l).flatMap (fun x => leBytes 2 (toBF16 x).1.toNat), 0, 0)
  else
    let qs := (cutBlocks 256 (f32s l)).map (fun b => (b.length, mxBlock 0x0B (fun _ => none) (b ++ List.replicate (256 - b.length) 0)))
    (qs.flatMap (fun q => (q.2.codes.take q.1).flatMap (leBytes 1)) ++ qs.flatMap (fun q => leBytes 1 q.2.scale),
      (qs.map (fun q => q.2.clamps)).sum, qs.countP (fun q => q.2.poisoned))

/-- Bytes of a narrowed piece of n FP32 elements. -/
def narrowBytes (e : Exch) (n : Nat) : Nat := if bit e.flags 2 then 2 * n else n + (n + 255) / 256

/-- Widen a narrowed piece of n elements exactly (R52, R300). -/
def widenPiece (e : Exch) (n : Nat) (l : List Byte) : List Byte :=
  (List.range n).flatMap (fun i =>
    if bit e.flags 2 then leBytes 4 (ofBF16 (BitVec.ofNat 16 (fieldLE l (2 * i) 2))).toNat
    else leBytes 4 (scaled 0x03 (fieldLE l i 1) (e8m0 (fieldLE l (n + i / 256) 1))).toNat)

/-! ### Triggered operations (R284-R291) -/

/-- The next repetition's trigger counter has reached its threshold (R286). -/
def opReady (x : Part) (port : Nat) (o : TrigOp) : Bool :=
  decide (o.fired < o.reps) && decide (o.thresh + o.fired * o.tinc ≤ ctrOf x port o.tc)

/-- Coordinate of an address on an axis. -/
def coordOf (d : DevAddr) (a : Nat) : Nat := if a = 0 then d.x.toNat else if a = 1 then d.y.toNat else d.z.toNat

/-- Hops from this device to an address out of a torus port, along the port's axis alone; none where it is on another line. -/
def hopsTo (s : State) (port : Nat) (d : DevAddr) : Option Nat :=
  let a := port / 2
  let (len, ring, me) := axisOf s a
  let c := coordOf d a
  if d.level ≠ 0 || (List.range 3).any (fun b => b != a && coordOf d b != coordOf (selfAddr s) b) || c == me then none
  else if port % 2 = 0 then (if ring then some ((c + len - me) % len) else if me < c then some (c - me) else none)
  else (if ring then some ((me + len - c) % len) else if c < me then some (me - c) else none)

/-- The nearest group member out of a torus port (R288, R291). -/
def memberOut (s : State) (g : Group) (port : Nat) : Option DevAddr :=
  (g.members.foldl (fun (a : Option (Nat × DevAddr)) d => match hopsTo s port d, a with
    | none, _ => a
    | some n, none => some (n, d)
    | some n, some (m, e) => if n < m then some (n, d) else some (m, e)) none).map Prod.snd

/-- Where a sending operation sends (R285, R288-R291, R299): a shift to the member at its signed distance, a permutation to the
member the program planned (log 40, DESIGN CHOICE), any other pattern to the next member out of its port, or the device across an export port. -/
def opDst (s : State) (g : Group) (e : Exch) (o : TrigOp) : Option DevAddr :=
  if 6 ≤ o.port then (s.port (portid o.port)).farId.map (fun f => { f.1 with level := linkLevel s o.port })
  else if e.ctype = 6 then
    let n := g.members.length
    g.members[(((g.self : Int) + twos 16 e.root) % (n : Int)).toNat]?
  else if e.ctype = 7 then g.members[Config.permTo g.gid g.self o.step % Nat.max 1 g.members.length]?
  else memberOut s g o.port

/-- End-to-end credit held for a member's buffer (R281); an export partner takes the entry past the members. -/
def creditIdx (g : Group) (d : DevAddr) : Nat := (g.members.findIdx? (fun m => decide (m = d))).getD g.members.length

def creditOf (g : Group) (d : DevAddr) : Nat := g.credits.getD (creditIdx g d) g.credit0

/-- Add to or take from the credit for a member. -/
def setCredit (d : DevAddr) (n : Nat) (g : Group) : Group :=
  let l := g.credits ++ List.replicate (g.members.length + 1 - g.credits.length) g.credit0
  { g with credits := l.set (creditIdx g d) n }

/-- No other repetition of the port is left to send in the step (R278, PFLAGS bit 0). -/
def lastOfStep (x : Part) (port slot : Nat) (o : TrigOp) : Bool :=
  let st := opStep o o.fired
  x.ops.all (fun q => q.1 != port || q.2.2.gid != o.gid || !sends q.2.2 || q.2.2.port != o.port ||
    (List.range q.2.2.reps).all (fun k => decide (k < q.2.2.fired) || (q.2.1 == slot && k == o.fired) || opStep q.2.2 k != st))

/-- Deliver a piece to the cores of a delivery list (R287): a powered-down core group drops it there, counted and logged (R442). The packets carry
their operation and repetition, which completes when the last has left the mesh (R286). -/
def deliverPiece (p : PartId) (port slot : Nat) (o : TrigOp) (data : List Byte) (s : State) : State :=
  match (s.part p).section_.bind (fun cfg => cfg.dlists.find? (fun d => d.1 == o.dlist)) with
  | none => s
  | some d =>
    let (up, down) := d.2.1.partition (coreReachable s p)
    let s := toMesh p (up.map (fun c => { src := 0x100 + port, dst := c, mcid := d.2.2, deliv := some (port, slot, o.fired), data })) s
    forAll down (fun c s =>
      logR 0x0010 1 1 (0x100 + port) p.1 [1, port, c, ((s.part p).task.map Task.num).getD 0, o.gid]
        (updFlt (fun f => { f with addrflt := satAdd 64 f.addrflt 1 }) s)) s

/-- The send of one repetition (R276, R281, R285): none where it holds for credit, replay room, budget or an earlier instance. -/
def sendOp (p : PartId) (port slot : Nat) (g : Group) (i : Nat × Exch) (o : TrigOp) (h : PktHdr) (data : List Byte) (s : State) : Option State :=
  let out := portid o.port
  match opDst s g i.2 o with
  | none => some (abortTask p { code := 0x22, src := 0x100 + o.port } false s)
  | some d =>
    if (s.port out).state ≠ .up ∧ (s.port out).state ≠ .retraining then
      some (abortTask p { code := 0x22, src := 0x100 + o.port } false s)
    else if creditOf g d = 0 || !earlierDone (s.part p) g i.1 then none
    else
      let h : PktHdr := { h with dst := d, src := { h.src with level := d.level }, plen := BitVec.ofNat 16 data.length
                                 pflags := BitVec.ofNat 8 (b2n (lastOfStep (s.part p) port slot o)) }
      let (ok, s) := inject p out (ctypeClass i.2.ctype) (wrapVc s o.port) h data s
      if ok then some (updGroup p g.gid (setCredit d (creditOf g d - 1)) s) else none

/-- The header of a piece that an operation sends (R278). -/
def pieceHdr (s : State) (p : PartId) (g : Group) (i : Nat × Exch) (o : TrigOp) (off : Nat) : PktHdr :=
  { dst := default, ptype := 2, src := selfAddr s, dpart := BitVec.ofNat 8 p.1, group := BitVec.ofNat 8 g.gid
    ctype := BitVec.ofNat 8 i.2.ctype, gseq := BitVec.ofNat 16 i.1, step := BitVec.ofNat 16 (opStep o o.fired)
    dfmt := BitVec.ofNat 8 i.2.dfmt, pflags := 0, total := BitVec.ofNat 32 i.2.total, offset := BitVec.ofNat 32 off, plen := 0
    task := BitVec.ofNat 32 (((s.part p).task.map Task.num).getD 0), addr := 0 }

/-- A DELIVER fires: its pieces enter the mesh, and with none on their way it completes at once (R286, R287). -/
def startDeliver (p : PartId) (port slot : Nat) (o : TrigOp) (data : List Byte) (s : State) : State :=
  match (s.part p).section_.bind (fun cfg => cfg.dlists.find? (fun d => d.1 == o.dlist)) with
  | some d =>
    let s := deliverPiece p port slot o data s
    if d.2.1.any (coreReachable s p) then s else deliverDone p port slot o.fired s
  | none => deliverDone p port slot o.fired s

/-- Do one repetition (R285): none where it holds. -/
def fireOp (p : PartId) (port slot : Nat) (g : Group) (i : Nat × Exch) (o : TrigOp) (s : State) : Option State :=
  let x := s.part p
  let len := o.plen * 64
  let la := o.loc + o.fired * o.lstr * 64
  let loc := rdBytes x.xmem (bufAddr g port la) len
  let da := o.lnd + o.fired * o.nstr * 64
  let landed := rdBytes x.xmem (bufAddr g port da) len
  let dl := Config.deliversLanded port slot
  let u := if consumes dl o then unackedOf g port slot o.fired o else none
  let h := pieceHdr s p g i o (la - i.2.boff)
  let keep (l : List Byte) (s : State) : State := updPart p (fun x => { x with xmem := wrBytes x.xmem (bufAddr g port la) l }) s
  let act : Option State := match o.op with
    | 1 => sendOp p port slot g i o h loc s
    | 2 => sendOp p port slot g i o h (reducePiece i.2 landed loc) s
    | 3 => some (keep (reducePiece i.2 landed loc) s)
    | 4 => sendOp p port slot g i o { h with offset := (u.map (fun u => u.2.1.offset)).getD h.offset } landed s
    | 5 => some s
    | 6 =>
      let (l, k, b) := narrowPiece i.2 loc
      (sendOp p port slot g i o h l s).map (updPort (portid port) (fun y => { y with nclamp := satAdd 64 y.nclamp k, npoison := satAdd 64 y.npoison b }))
    | 7 => some (keep (widenPiece i.2 (len / 4) (rdBytes x.xmem (bufAddr g port da) (narrowBytes i.2 (len / 4)))) s)
    | _ => some s
  act.map (fun s =>
    let s := updOp p port slot (fun o => { o with fired := o.fired + 1 }) s
    if o.op = 5 then startDeliver p port slot o (if dl then landed else loc) s
    else
      let s := match u with
        | some u => consumePiece p g.gid port slot o.fired u s
        | none => s
      if sends o then s else opDone p port slot o s)

/-- One repetition of a slot, if its trigger has come (R286): none where it does not fire. -/
def tryFire (p : PartId) (port slot : Nat) (o : TrigOp) (s : State) : Option State :=
  let x := s.part p
  if !(opReady x port o && (x.task.map Task.live).getD false) then none
  else match groupOfGid x o.gid with
    | none => none
    | some g => match opInst g port slot o o.fired with
      | none => none
      | some i => fireOp p port slot g i o s

/-- TRIGGERED_OP_FIRE (R284-R287): the lower of two ready slots of an interface fires first. -/
def execTriggeredOpFire (p : PartId) (port : PortId) (slot : Fin 1024) (s : State) : Res :=
  let x := s.part p
  .next (match x.ops.find? (fun q => q.1 == port.1 && q.2.1 == slot.1) with
    | none => s
    | some q =>
      if x.ops.any (fun r => r.1 == port.1 && decide (r.2.1 < slot.1) && opReady x port.1 r.2.2 && (tryFire p port.1 r.2.1 r.2.2 s).isSome) then s
      else match tryFire p port.1 slot.1 q.2.2 s with
        | none => s
        | some s => meetStep p q.2.2.gid (opStep q.2.2 q.2.2.fired) s)

/-- The oldest repetition of the step that sent to the sender of an ACK and waits for it (R281, R286). -/
def ackedOp (s : State) (p : PartId) (g : Group) (h : PktHdr) : Option (Nat × Nat × TrigOp) :=
  (s.part p).ops.find? (fun q => q.2.2.gid == g.gid && sends q.2.2 && decide (q.2.2.acked < q.2.2.fired) && opStep q.2.2 q.2.2.acked == h.step.toNat
    && ((opInst g q.1 q.2.1 q.2.2 q.2.2.acked).bind (fun i => opDst s g i.2 q.2.2)).any (fun d => creditIdx g d == creditIdx g h.src))

/-- ACK (R281, R286): group credit returns, and the oldest repetition of the step that sent to the receiver and waits
for it completes. -/
def execAck (_port : PortId) (h : PktHdr) (s : State) : Res :=
  .next (if !linksOn s || decide (64 ≤ h.dpart.toNat) then s else
    let p := pid h.dpart.toNat
    let x := s.part p
    match groupOfGid x h.group.toNat, x.task with
    | some g, some t =>
      if t.num ≠ h.task.toNat then s
      else
        let op := ackedOp s p g h
        let s := updGroup p g.gid (setCredit h.src (creditOf g h.src + 1)) s
        (match op with
          | none => s
          | some q => meetStep p g.gid h.step.toNat (opDone p q.1 q.2.1 q.2.2 s))
    | _, _ => s)

/-! ### Deadlines, notices, group checks -/

/-- Source of the missing pieces of a step on a port: the nearest member out of it, or the device across an export port (R450). -/
def starvedBy (s : State) (g : Group) (port : Nat) : Option DevAddr :=
  if 6 ≤ port then (s.port (portid port)).farId.map Prod.fst else memberOut s g port

/-- COLLECTIVE_DEADLINE (R293, R294): a step, or a checkpoint that waits on one, not met 131,072 phase units after its latest
phase aborts the task with 0x24; the senders of missing pieces are suspects (R450). -/
def execCollectiveDeadline (p : PartId) (ckpt : BitVec 15) (s : State) : Res :=
  .next (match (s.part p).task with
    | none => s
    | some t => match ckptOf (s.part p) t ckpt.toNat with
      | none => s
      | some k =>
        if !t.live || !(k.kind == 6 || k.onStep) || t.met.contains k.idx || (k.kind == 6 && stepComplete (s.part p) k.aux k.step)
          || decide (taskPhase s t ≤ k.latest + 131072) then s
        else
          let s0 := s
          let s := abortTask p { code := 0x24, src := 0xFFFF } false s
          if k.kind != 6 then s else
          match groupOfGid (s0.part p) k.aux with
          | none => s
          | some g =>
            forAll ((stepPorts (s0.part p) g k.step).filter (fun i => !stepLanded g k.step i))
              (fun i s => match starvedBy s0 g i.1 with
                | none => s
                | some d => detect d 0 0x03 p.1 s) s)

/-- GROUP_CHECK (R280, R414): a check, or a security state, that differs makes the group unusable here. One that comes before the partition's groups
are there is kept, the newest of each member. -/
def execGroupCheck (p : PartId) (gid : Byte) (src : DevAddr) (check : W32) (sstate : Byte) (s : State) : Res :=
  .next (if !linksOn s then s else match groupOfGid (s.part p) gid.toNat with
    | none => updPart p (fun x => { x with
        checks := (gid.toNat, src, check, sstate.toNat) :: x.checks.filter (fun c => !(c.1 == gid.toNat && sameDev c.2.1 src)) }) s
    | some g =>
      if !g.members.contains src then s
      else if g.check ≠ check ∨ sstate.toNat ≠ s.sec.state then updGroup p gid.toNat (fun g => { g with usable := false }) s
      else s)

end Sys2Proof.Machine
end

