-- ==== Sys2Proof/Machine/Tickets.lean ====
section
/-! DEFINITION. The ticket rail's shared operations: journals, completion records and their order (R305-R307, R325), extent tables
and sessions (R197-R205), memory (R311), the prefix tree (R206-R211), segments (R212-R215), final codes, aborts and retries
(R321-R324), the journal replay (R326). -/

namespace Sys2Proof.Machine

/-! ### Requests and functions -/

/-- The partition a function submits to (R303, R463, R468). -/
def partOfFunc (s : State) (f : FuncId) : PartId :=
  if f.1 = 0 then pid (s.func 0).part else pid (f.1 - 1)

/-- The function's latest request of a REQID. -/
def findReq (x : Part) (f : Nat) (id : W64) : Option Req := x.reqs.reverse.find? (fun r => r.func == f && r.desc.reqid == id)

/-- The latest request of a REQID in the partition that a step may act on: two functions may use one REQID (R303). -/
def reqFor (x : Part) (ok : Req → Bool) (id : W64) : Option Req := x.reqs.reverse.find? (fun r => r.desc.reqid == id && ok r)

def updReq (p : PartId) (r : Req) (f : Req → Req) (s : State) : State :=
  updPart p (fun x => { x with reqs := mapIf (fun q => q.rid == r.rid) f x.reqs }) s

/-- A request as it stands now. -/
def reqNow (s : State) (p : PartId) (r : Req) : Req := ((s.part p).reqs.find? (fun q => q.rid == r.rid)).getD r

/-- Its work has begun: it is never refused (R12, R309, R326). -/
def isRetry (r : Req) : Bool := decide (0 < r.ran) || r.replayed

/-- Write host memory. -/
def hostWrite (a : Nat) (l : List Byte) (s : State) : State := updMem (fun m => { m with host := wrBytes m.host a l }) s

/-! ### Journals (R305, R342) -/

/-- A journal record's 32 bytes (R305). -/
def jrecBytes (j : JRec) : List Byte :=
  leBytes 8 j.reqid.toNat ++ leBytes 1 j.type ++ leBytes 1 j.code.toNat ++ leBytes 2 j.epoch ++ leBytes 4 j.ftok.toNat
  ++ leBytes 8 j.cseq ++ leBytes 8 j.tick

/-- The address of a partition's k-th journal record: records fill the first 8 KiB of each 16 KiB block of its journal region, from the
front, and start over at its end (R342; log 186, DESIGN CHOICE). -/
def journalSpot (s : State) (p : PartId) (k : Nat) : Option Nat :=
  (s.mem.regions.find? (fun r => r.cls == 2 && r.part == p.1 && !r.far)).map (fun r =>
    let k := k % Nat.max 1 (r.size / 16384 * 256)
    r.base + k / 256 * 16384 + k % 256 * 32)

/-- Write the bytes of the k-th record: the primary copy, then the mirror (R342). -/
def journalWrite (p : PartId) (k : Nat) (j : JRec) (s : State) : State :=
  match journalSpot s p k with
  | none => s
  | some a => tierWrite (a ^^^ 0x2000) (jrecBytes j) (tierWrite a (jrecBytes j) s)

/-- Write a record to the partition's near-memory journal, in its two copies (R305, R342). -/
def journalNear (p : PartId) (j : JRec) (s : State) : State :=
  updPart p (fun x => { x with journal := x.journal ++ [j] }) (journalWrite p (s.part p).journal.length j s)

/-- Write a record into the function's next journal-ring slot (R305, R468). -/
def ringWrite (f : FuncId) (j : JRec) (s : State) : State :=
  let g := s.func f
  hostWrite (g.jqBase.toNat + g.jqCount % 2 ^ g.jqLog * 32) (jrecBytes j) (updFunc f (fun g => { g with jqCount := g.jqCount + 1 }) s)

/-- A record for the journal ring takes a reserved slot: it is written, or waits there while EN is clear (R305, R471). -/
def journalRing (f : FuncId) (j : JRec) (s : State) : State :=
  let s := updFunc f (fun g => { g with jqResv := g.jqResv - 1 }) s
  if (s.func f).en && (s.func f).jwait.isEmpty then ringWrite f j s else updFunc f (fun g => { g with jwait := g.jwait ++ [j] }) s

/-- Once EN is set the waiting records are written in order (R305, R471). -/
def flushJournal (f : FuncId) (s : State) : State :=
  if !(s.func f).en then s
  else
    let l := (s.func f).jwait
    forAll l (ringWrite f) (updFunc f (fun g => { g with jwait := [] }) s)

/-- The journal ring can hold a new reservation of nine slots (R305, R470). -/
def canReserve (g : Func) : Bool := decide ((g.jqCount - g.jqRel) + g.jwait.length + g.jqResv + 9 ≤ 2 ^ g.jqLog)

/-! ### Completion records (R305, R306) -/

/-- A completion record's 64 bytes (R305). -/
def crecBytes (c : CRec) : List Byte :=
  leBytes 8 c.reqid.toNat ++ leBytes 1 c.code.toNat ++ leBytes 1 c.kind ++ leBytes 1 c.attempts ++ leBytes 1 c.cflags
  ++ leBytes 4 c.ftok.toNat ++ leBytes 8 c.session.toNat ++ leBytes 8 c.accTick ++ leBytes 8 c.finTick ++ leBytes 4 c.length
  ++ leBytes 2 c.epoch ++ leBytes 1 c.reason ++ leBytes 1 0 ++ leBytes 8 c.cseq ++ leBytes 8 0

/-- Give a record the function's next CSEQ; it waits for its slot (R305, R306). -/
def pushRec (f : FuncId) (c : CRec) (s : State) : State :=
  updFunc f (fun g => { g with cseq := g.cseq + 1, waiting := g.waiting ++ [{ c with cseq := g.cseq + 1 }] }) s

/-- Answer an operation: it has no final code, so FINTICK is 0 (R303, R305; log 136, DEDUCED). -/
def opDoneRec (f : FuncId) (reqid : W64) (failed : Bool) (s : State) : State :=
  pushRec f { reqid, kind := 4, cflags := if failed then 8 else 0 } s

/-- Answer a cancel that lost, or one of an unknown REQID (R321). -/
def cancelAns (f : FuncId) (reqid : W64) (unknown : Bool) (s : State) : State :=
  pushRec f { reqid, code := 0x32, kind := 2, cflags := if unknown then 4 else 0, finTick := s.tick.now } s

/-- Answer a descriptor that fails validation: it has no final code, so FINTICK is 0 (R304, R305; log 136, DEDUCED). -/
def rejectRec (f : FuncId) (reqid : W64) (reason : Nat) (s : State) : State :=
  pushRec f { reqid, kind := 3, reason } s

/-! ### The quality record (R111) -/

def layerBytesQ (q : QLayer) : List Byte :=
  leBytes 4 q.clamp ++ leBytes 4 q.clamp8 ++ leBytes 2 q.esc ++ leBytes 2 q.deny ++ leBytes 2 q.nanblk ++ leBytes 1 q.policy ++ leBytes 1 (b2n q.whisk)

/-- The policy code of a layer of a model (R103). -/
def layerPolicy (s : State) (m layer : Nat) : Nat :=
  ((s.img.policies.find? (fun x => x.1 == m && x.2.1 == layer)).map (fun x => x.2.2.1)).getD 0

/-- The quality record's bytes: one entry per layer of the model (R111, R112). -/
def qualityBytes (s : State) (r : Req) : List Byte :=
  let n := ((s.img.models.find? (fun m => m.idx == r.desc.model.toNat)).map (fun m => m.layers)).getD 0
  let flags := r.quality.flags ||| (if r.cancelled then 2 else 0) ||| (if r.qpos = 0 then 0 else 4)
  leBytes 8 r.desc.reqid.toNat ++ leBytes 2 r.epoch ++ leBytes 2 n ++ leBytes 4 flags ++ leBytes 4 r.quality.esc ++ leBytes 4 r.quality.den
  ++ leBytes 8 0
  ++ (List.range n).flatMap (fun i => layerBytesQ ({ r.quality.layers.getD i {} with policy := layerPolicy s r.desc.model.toNat i }))

/-! ### Delivery (R307, R325) -/

/-- The request has been accepted. -/
def accepted (r : Req) : Bool := r.state != .reading

/-- A cancelled request's rows still run: a pass that carries them has not, or a sweep that keeps them goes on (R112, R171). -/
def carried (s : State) (p : PartId) (r : Req) : Bool :=
  match r.cancelled, (s.part p).task with
  | true, some t => t.num == r.task && t.live && (match t.entries.findIdx? (fun e => e.rid == r.rid) with
      | none => false
      | some i => (coresOf s p).any (fun c => (s.core c).eng.toList.any (fun g =>
          g.queue.any (fun e => !e.done && e.rows.any (fun x => x.1 == i))
          || g.sweep.any (fun w => w.begun && !w.done && w.rows.any (fun x => x.1 == i)))))
  | _, _ => false

/-- The function's request whose completion record may be written next: its code is decided and its counts are complete, and every request
accepted earlier in its priority class has had its FINAL completion record (R112, R307). -/
def nextFinal (s : State) (p : PartId) (f : Nat) : Option Req :=
  let x := s.part p
  x.reqs.find? (fun r => r.func == f && r.finalJ && !r.delivered && !carried s p r
    && x.reqs.all (fun q => q.delivered || !accepted q || q.func != f || q.desc.prio != r.desc.prio || decide (r.accSeq ≤ q.accSeq)))

/-- A version that some request without a final code is bound to (R320). -/
def boundTo (x : Part) (v ver : Nat) : Bool :=
  x.reqs.any (fun r => !r.finalJ && r.desc.variant.toNat == v && r.version == ver && r.bound)

/-- A bound version is freed once its last request has its final code, unless it is current (R320). -/
def releaseVersion (p : PartId) (r : Req) (s : State) : State :=
  let v := r.desc.variant.toNat
  if v = 0 || !r.bound then s
  else updPart p (fun x => { x with
    versions := mapIf (fun w => w.variant == v && w.version == r.version && !w.current && !w.curDue && !boundTo x v r.version)
      (fun w => { w with resident := false }) x.versions }) s

/-- A request's FINAL record (R305): its tick is that of the final code. -/
def finalRec (r : Req) (cseq : Nat) : JRec :=
  { rid := r.rid, func := r.func, reqid := r.desc.reqid, type := 3, code := r.code.getD 0, epoch := r.epoch
    ftok := if r.code = some 0 then r.firstTok.getD 0 else 0, cseq, tick := r.finTick }

/-- The quality record of a request whose work has begun, where the host asked for one (R111, step 3 of R325). -/
def writeQuality (p : PartId) (r : Req) (s : State) : State :=
  if r.qualityW || r.ran == 0 || r.desc.qraddr == 0 then s
  else updReq p r (fun q => { q with qualityW := true }) (hostWrite r.desc.qraddr.toNat (qualityBytes s r) s)

/-- Steps 2 and 3 of R325, as the code is decided: FINAL goes to the near-memory journal, and the quality record to the host. That of a
cancelled request waits until no pass carries its rows (R112; log 43, DEDUCED). -/
def journalFinal (p : PartId) (r : Req) (s : State) : State :=
  let s := journalNear p (finalRec r 0) s
  let s := if carried s p r then s else writeQuality p r s
  releaseVersion p r (updReq p r (fun q => { q with finalJ := true, state := .final }) s)

/-- The near-memory records of a request that wait for their CSEQ take it (R305, R323; log 43, DEDUCED). -/
def numberRecords (p : PartId) (r : Req) (cseq : Nat) (s : State) : State :=
  forAll ((s.part p).journal.zipIdx.filter (fun x => x.1.rid == r.rid && 3 ≤ x.1.type && x.1.cseq == 0)) (fun x s =>
    updPart p (fun y => { y with journal := y.journal.set x.2 { x.1 with cseq } }) (journalWrite p x.2 { x.1 with cseq } s)) s

/-- Steps 4 and 5 of R325 for the request that R307 lets go: its CSEQ is given now (log 43, DEDUCED). -/
def deliver1 (p : PartId) (r : Req) (s : State) : State :=
  let f := fid r.func
  let s := writeQuality p r s
  let r := reqNow s p r
  let cseq := (s.func f).cseq + 1
  let s := journalRing f (finalRec r cseq) (numberRecords p r cseq s)
  let fin := finalRec r cseq
  let rec_ : CRec := { reqid := r.desc.reqid, code := fin.code, kind := 1, attempts := r.ran, cflags := b2n r.qualityW + (if r.session = 0 then 0 else 2)
                       ftok := fin.ftok, session := r.session, accTick := r.accTick, finTick := r.finTick, length := r.length, epoch := r.epoch, cseq }
  let s := updFunc f (fun g => { g with jqResv := g.jqResv - (r.jslots - 1), cseq, waiting := g.waiting ++ [rec_] }) s
  trace 4 p.1 [3, r.desc.reqid.toNat, fin.code.toNat] (updReq p r (fun q => { q with delivered := true, cseq, jslots := 0 }) s)

/-- Write the completion records that R307 lets go, in acceptance order per class. -/
def releaseFinals : Nat → PartId → Nat → State → State
  | 0, _, _, s => s
  | k + 1, p, f, s => match nextFinal s p f with
    | none => s
    | some r => releaseFinals k p f (deliver1 p r s)

def releaseAll (p : PartId) (f : Nat) (s : State) : State := releaseFinals (s.part p).reqs.length p f s

/-- Write the completion records of every function of the partition that are due (R112, R307). -/
def releaseDue (p : PartId) (s : State) : State :=
  forAll (((s.part p).reqs.filter (fun r => r.finalJ && !r.delivered)).map (fun r => r.func)).dedup (releaseAll p) s

/-! ### Extent tables (R197-R202) -/

def xtAt (x : Part) (xt : Nat) : Option XTable := x.xtabs.find? (fun t => t.idx == xt)

/-- Write a table's bytes to its place in near memory (R197). -/
def storeTable (p : PartId) (xt : Nat) (s : State) : State :=
  match xtAt (s.part p) xt with
  | none => s
  | some t => tierWrite t.addr.toNat (tableBytes t) s

/-- Change an extent table, in its bytes too (R197). -/
def updTable (p : PartId) (xt : Nat) (f : XTable → XTable) (s : State) : State :=
  storeTable p xt (updPart p (fun x => { x with xtabs := mapIf (fun t => t.idx == xt) f x.xtabs }) s)

/-- A table read now carries generation `g` or a later one: it is another table, or it took its entries from no earlier one (R202, R204). -/
def tablePast (xt g : Nat) (t : XTable) : Bool :=
  (t.idx != xt || decide (g ≤ t.gen)) && t.src.all (fun n => n.1 != xt || decide (g ≤ n.2))

/-- Every snapshot of a table still held carries a generation of at least `g`, and so does every table of a request in flight that took its
entries from it (R202, R204). -/
def snapsPast (s : State) (p : PartId) (xt g : Nat) : Bool :=
  (s.part p).xtabs.all (fun t => t.src.all (fun n => n.1 != xt || decide (g ≤ n.2)))
  && (coresOf s p).all (fun c => (List.finRange 5).all (fun i =>
    let u := scoopOf s c i
    ([u.active, u.shadow].filterMap id).all (fun r => r.snaps.all (fun n => n.1 != xt || decide (g ≤ n.2)))
    && ((u.snap.filter (fun k => !k.used || inSweep (s.core c) i)).map WalkSnap.tabs).toList.flatten.all (tablePast xt g)))

/-- A snapshot still held names a prefix region (R202, R211). -/
def snapsRegion (s : State) (p : PartId) (region : Nat) : Bool :=
  (coresOf s p).any (fun c => (List.finRange 5).any (fun i =>
    let u := scoopOf s c i
    ([u.active, u.shadow].filterMap id).any (fun r => r.regions.contains region)
    || (((u.snap.filter (fun k => !k.used || inSweep (s.core c) i)).map WalkSnap.tabs).toList.flatten).any (fun t => (sharedRegions t).contains region)))

/-- No node, table or snapshot refers to a prefix region (R202, R211). -/
def regionFree (s : State) (region : Nat) : Bool :=
  !s.mem.nodes.any (fun n => n.region == region)
  && allParts.all (fun p => !(s.part p).xtabs.any (fun t => (sharedRegions t).contains region) && !snapsRegion s p region)

/-- Freed memory may be reclaimed (R202, R211). -/
def mayReclaim (s : State) (p : PartId) (e : Freed) : Bool :=
  if bit e.ext.flags.toNat 0 then regionFree s e.ext.region.toNat else snapsPast s p e.xtab e.freegen

/-- Bytes of freed memory that return to the near pool. -/
def freedBytes (l : List Freed) : Nat := ((l.filter (fun e => !isFar e.ext.base.toNat)).map Freed.bytes).sum

/-- A prefix region returns to its owner's pool once nothing refers to it (R202, R211). -/
def settleRegion (p : PartId) (region : Nat) (s : State) : State :=
  if !regionFree s region then s
  else
    let mine (e : Freed) : Bool := bit e.ext.flags.toNat 0 && e.ext.region.toNat == region
    updPart p (fun x => { x with
      freeNear := x.freeNear + freedBytes (x.freed.filter mine)
      freed := x.freed.filter (fun e => !mine e) }) s

/-- Memory of a table that goes besides its extents: it returns at once where no snapshot is left, else it waits (R202, R311). -/
def returnBytes (p : PartId) (xt freegen : Nat) (base : W64) (bytes : Nat) (s : State) : State :=
  if snapsPast s p xt freegen then updPart p (fun x => { x with freeNear := x.freeNear + bytes }) s
  else updPart p (fun x => { x with
    freed := x.freed ++ [{ xtab := xt, ext := { base, len := 0, fmt := 0, flags := 0, gen := 0, region := 0xFFFFFFFF }, freegen, bytes }] }) s

/-- Nodes whose block group lies in a shared extent. -/
def nodeIn (e : Extent) (gb : Nat) (n : PNode) : Bool :=
  n.region == e.region.toNat && decide (e.base.toNat ≤ n.base ∧ n.base < e.base.toNat + e.len.toNat * gb)

/-- A node is freed: its parent loses a reference, and its block group waits with the rest of its region, which returns to the pool of the
node's owner (R202, R211, R311; log 142, DEDUCED). -/
def freeNode (v : PNode) (s : State) : State :=
  let s := match v.badAt with
    | some a => retireLine a s
    | none => s
  let s := updNodes (fun l => mapIf (fun q => q.idx == v.parent) (fun q => { q with ref := q.ref - 1 }) (l.filter (fun q => q.idx != v.idx))) s
  let e : Extent := { base := BitVec.ofNat 64 v.base, len := 1, fmt := 0, flags := 1, gen := 0, region := BitVec.ofNat 32 v.region }
  settleRegion (pid v.owner) v.region (updPart (pid v.owner) (fun x => { x with freed := x.freed ++ [{ ext := e, bytes := v.bytes }] }) s)

/-- Nodes that are out of their tree and that nothing refers to are freed (R210, R211). -/
def sweepNodes : Nat → State → State
  | 0, s => s
  | k + 1, s => match s.mem.nodes.find? (fun n => !n.inUse && n.ref == 0) with
    | none => s
    | some n => sweepNodes k (freeNode n s)

def sweepAll (s : State) : State := sweepNodes s.mem.nodes.length s

/-- Drop one reference to every node that a predicate names (R211). -/
def derefNodes (t : PNode → Bool) (s : State) : State :=
  sweepAll (updNodes (mapIf t (fun n => { n with ref := n.ref - 1 })) s)

/-- Log a freed private extent with the generation after the edit (R202). -/
def logFreed (p : PartId) (xt freegen gb : Nat) (e : Extent) (s : State) : State :=
  updPart p (fun x => { x with freed := x.freed ++ [{ xtab := xt, ext := e, freegen, bytes := e.len.toNat * gb }] }) s

/-- An extent that an edit drops: a private one is logged for reclaim, a shared one releases its nodes (R202, R211). -/
def dropExtent (p : PartId) (xt freegen gb : Nat) (e : Extent) (s : State) : State :=
  if bit e.flags.toNat 0 then derefNodes (nodeIn e gb) s else logFreed p xt freegen gb e s

/-- The entries after one edit. -/
def editList (l : List Extent) : Edit → List Extent
  | .append e => if l.length < 64 then l ++ [e] else l
  | .free i => l.eraseIdx i
  | .replace i e => if i < l.length then l.set i e else l

/-- Make one edit of a table: the other copy takes the new entries, CUR flips and GEN rises; new entries carry the new GEN and
dropped ones are freed (R201, R202). -/
def setEntries (p : PartId) (xt : Nat) (new : List Extent) (s : State) : State :=
  match xtAt (s.part p) xt with
  | none => s
  | some t =>
    let old := t.current
    let gen := (t.gen + 1) % 2 ^ 32
    let new := (new.map (fun e => if old.contains e then e else { e with gen := BitVec.ofNat 32 gen })).take 64
    let s := updTable p xt (fun t => { t with
      cur := !t.cur, gen, stale := t.head, editTick := some s.tick.now
      copyA := if t.cur then new else t.copyA
      copyB := if t.cur then t.copyB else new }) s
    forAll (old.filter (fun e => !new.contains e)) (dropExtent p xt gen t.gbytes) s

/-- An edit that the ticket rail is asked for: at most one per table and tick, later ones merge and wait (R201). -/
def requestEdit (p : PartId) (xt : Nat) (e : Edit) (s : State) : State :=
  match xtAt (s.part p) xt with
  | none => s
  | some t =>
    if t.editTick = some s.tick.now then updTable p xt (fun t => { t with queued := t.queued ++ [e] }) s
    else setEntries p xt (editList t.current e) s

/-- The merged edits of a table act in the next tick (R201). -/
def flushEdits (p : PartId) (s : State) : State :=
  forAll ((s.part p).xtabs.filter (fun t => !t.queued.isEmpty)) (fun t s =>
    updTable p t.idx (fun t => { t with queued := [] }) (setEntries p t.idx (t.queued.foldl editList t.current) s)) s

/-- Bytes of a sequence's keeper stores: B + Q_max entries of 520 B for each keeper head (R191, R311). -/
def keeperBytes (s : State) (m : ModelCfg) : Nat := (m.keepers.map (fun k => (heldKeepers s m k.1).length * (k.2.1 + k.2.2.1) * 520)).sum

/-- Bytes of a table's keeper stores. -/
def keepBytes (s : State) (t : XTable) : Nat := ((s.img.models.find? (fun m => m.idx == t.tag.toNat / 2 ^ 48)).map (keeperBytes s)).getD 0

/-- Free a table with everything in it: its extents, its keeper stores and itself (R202, R211, R311). -/
def freeTable (p : PartId) (xt : Nat) (s : State) : State :=
  match xtAt (s.part p) xt with
  | none => s
  | some t =>
    let g := (t.gen + 1) % 2 ^ 32
    let s := updPart p (fun x => { x with xtabs := x.xtabs.filter (fun u => u.idx != xt) }) s
    let s := forAll t.current (dropExtent p xt g t.gbytes) s
    returnBytes p xt g t.addr 4288 (returnBytes p xt g t.keepbase (keepBytes s t) s)

/-- Runs of memory that a partition uses, or that wait for their reclaim (R197, R202, R316). -/
def partRuns (s : State) (x : Part) : List (Nat × Nat) :=
  x.freed.map (fun e => (e.ext.base.toNat, e.bytes + e.hold))
  ++ x.xtabs.flatMap (fun t => (t.addr.toNat, 4288) :: (t.keepbase.toNat, keepBytes s t) :: t.current.map (fun e => (e.base.toNat, e.len.toNat * t.gbytes)))
  ++ (x.task.toList ++ x.queue).map (fun t => (t.stage.1.toNat, t.stage.2))

/-- Runs of memory that are in use, wait for their reclaim, or are retired (R197, R202, R207, R350). -/
def usedRuns (s : State) : List (Nat × Nat) :=
  s.mem.retired.map (fun p => (4096 * p, 4096)) ++ s.mem.nodes.flatMap (fun n => [(n.base, n.bytes), (n.addr, 320)])
  ++ allParts.flatMap (fun p => partRuns s (s.part p))

/-- A run lies in a region of a tier and class that the allocation is for, and meets no memory in use (R341, R350, R386). -/
def mayPlace (s : State) (far : Bool) (cls : Nat) (mine : Region → Bool) (used : List (Nat × Nat)) (n a : Nat) : Bool :=
  s.mem.regions.any (fun r => r.far == far && r.cls == cls && mine r && isFar a == far && decide (r.base ≤ tierAddr a ∧ tierAddr a + n ≤ r.base + r.size))
  && used.all (fun u => decide (a + n ≤ u.1 ∨ u.1 + u.2 ≤ a))

/-- Places behind which memory may be free: the starts of the regions, and the ends of the runs in use. -/
def freePlaces (s : State) (used : List (Nat × Nat)) : List Nat :=
  s.mem.regions.map (fun r => r.base + if r.far then 2 ^ 63 else 0) ++ used.map (fun u => (u.1 + u.2 + 63) / 64 * 64)

/-- A fresh run of `n` bytes, apart from `taken` too, that allocation gives, aligned to 64 B: a free value among the places that it may give,
another such place where the free value is none, and no run where there is no place (R204, R341, R350; log 44, DESIGN CHOICE). -/
def allocBase (far : Bool) (cls : Nat) (mine : Region → Bool) (taken : List (Nat × Nat)) (n : Nat) (s : State) : Option W64 × State :=
  let used := taken ++ usedRuns s
  let v := if far then (Config.free s.freeCtr &&& 0x000003FFFFFFFFC0) ||| 0x8000000000000000 else Config.free s.freeCtr &&& 0x0000001FFFFFFFC0
  (if mayPlace s far cls mine used n v.toNat then some v
    else ((freePlaces s used).find? (mayPlace s far cls mine used n)).map (BitVec.ofNat 64), { s with freeCtr := s.freeCtr + 1 })

/-- Several fresh runs for a partition in its near pool (R341): none where one of them finds no place. -/
def allocRuns (p : PartId) : List Nat → List (Nat × Nat) → State → Option (List W64) × State
  | [], _, s => (some [], s)
  | n :: r, taken, s => match allocBase false 5 (fun g => g.part == p.1) taken n s with
    | (none, s) => (none, s)
    | (some a, s) => ((allocRuns p r ((a.toNat, n) :: taken) s).1.map (a :: ·), (allocRuns p r ((a.toNat, n) :: taken) s).2)

/-! ### Sessions (R203) -/

/-- The session of a handle. One that lost its context has no handle once no request is in flight on it (R203, R349). -/
def sessionOf (x : Part) (h : W64) : Option Session := x.sessions.find? (fun z => z.handle == h && (z.busy || !z.relDue))

/-- Release a session: its table goes and its handle becomes unknown (R203). -/
def releaseSession (p : PartId) (z : Session) (s : State) : State :=
  updPart p (fun x => { x with sessions := x.sessions.filter (fun y => y.handle != z.handle) }) (freeTable p z.xtab s)

/-- Sessions that lost their context and have no request in flight are released (R349, owner class 4). -/
def releaseLost (p : PartId) (s : State) : State :=
  forAll ((s.part p).sessions.filter (fun z => z.relDue && !z.busy)) (releaseSession p) s

/-- The session's request has its final code: a release that waited takes effect (R203, R349). -/
def sessionIdle (p : PartId) (h : W64) (s : State) : State :=
  match sessionOf (s.part p) h with
  | none => s
  | some z =>
    if z.relDue then releaseSession p z s
    else
      let s := updTable p z.xtab (fun t => { t with inflight := false }) s
      updPart p (fun x => { x with sessions := mapIf (fun y => y.handle == h) (fun y => { y with busy := false }) x.sessions }) s

/-! ### Attempt memory (R311, R321, R324) -/

/-- Free what an attempt holds: its extents wait for reclaim, and so does the rest of its need while a snapshot of its table is held
(R202, R311). -/
def endAttempt (p : PartId) (r : Req) (s : State) : State :=
  match xtAt (s.part p) r.xtab with
  | none => s
  | some t =>
    if r.need = 0 then s else
    let g := (t.gen + 1) % 2 ^ 32
    let s := forAll r.own (logFreed p t.idx g t.gbytes) s
    let inExt := (r.own.map (fun e => e.len.toNat * t.gbytes)).sum
    let s := updPart p (fun x => { x with xtabs := x.xtabs.filter (fun u => u.idx != t.idx) }) s
    let s := returnBytes p t.idx g t.addr 4288 (returnBytes p t.idx g t.keepbase (r.need - inExt - 4288) s)
    updReq p r (fun q => { q with need := 0, xtab := 0, own := [] }) s

/-- Release the prefix references of a request (R309, R211). -/
def dropHits (p : PartId) (r : Req) (s : State) : State :=
  updReq p r (fun q => { q with hits := [] }) (derefNodes (fun n => r.hits.contains n.idx) s)

/-- Everything that a request holds goes: its attempt's memory and its prefix references (R309, R321, R322). -/
def freeReq (p : PartId) (r : Req) (s : State) : State := dropHits p r (endAttempt p r s)

/-- The request is the one in flight on its session (R203). -/
def holdsSession (x : Part) (r : Req) : Bool :=
  r.desc.opc == 2 && (sessionOf x r.desc.session).any (fun z => z.busy && z.holder == r.rid)

/-- A final code is decided (R307, R321, R324): a session that the request was in flight on is idle. -/
def giveCode (p : PartId) (r : Req) (code : Byte) (s : State) : State :=
  let s := updReq p r (fun q => { q with code := some code, finTick := s.tick.now, firstTok := none }) s
  let s := if holdsSession (s.part p) r then sessionIdle p r.desc.session s else s
  releaseAll p r.func (journalFinal p (reqNow s p r) s)

/-- A final code is decided for a request that does not commit and runs no more (R309, R321, R324). -/
def decideCode (p : PartId) (r : Req) (code : Byte) (s : State) : State := giveCode p r code (freeReq p r s)

/-! ### Segments (R212-R215) -/

/-- The immediate of a control segment (R215). -/
def segImm (type epoch : Nat) : W32 := BitVec.ofNat 32 (type * 2 ^ 28 + epoch % 65536)

/-- Port of an export path: E0, E1. -/
def pathPort (path : Nat) : PortId := portid (6 + path)

/-- A segment's 64-byte header (R212); `extra` holds the type-specific fields of a control segment (R214). -/
def segHeader (g : Seg) : List Byte :=
  leBytes 1 g.type ++ leBytes 1 g.fmt ++ leBytes 1 g.part ++ leBytes 1 g.ver ++ leBytes 4 g.seq ++ leBytes 8 g.reqid.toNat ++ leBytes 2 g.epoch
  ++ leBytes 2 g.layer ++ leBytes 2 g.head0 ++ leBytes 2 g.headn ++ leBytes 4 g.pos0 ++ leBytes 4 g.posn ++ leBytes 4 g.paylen ++ leBytes 4 g.pcrc.toNat
  ++ ((if g.type = 3 then leBytes 1 (g.extra.getD 0 0) else g.extra.flatMap (leBytes 4)) ++ List.replicate 24 0).take 24

/-- The device that a PATH 2 export goes to (R303). -/
def peerOf (r : Req) : DevAddr := ⟨r.desc.peer.1, r.desc.peer.2.1, r.desc.peer.2.2, 0⟩

/-- A SEGMENT packet of a request's export to a peer (R278); DPART is the partition's own number (log 187, DEDUCED). -/
def segmentHdr (s : State) (p : PartId) (r : Req) (off n : Nat) : PktHdr :=
  { (default : PktHdr) with
    dst := peerOf r, ptype := 3, src := selfAddr s, dpart := BitVec.ofNat 8 p.1, plen := BitVec.ofNat 16 n, task := BitVec.ofNat 32 r.task
    addr := r.desc.raddr + BitVec.ofNat 64 off }

/-- Inject a segment in packets of up to 16,384 B, each at its own address (R278): whether it went. -/
def injectSegment (p : PartId) (r : Req) (off : Nat) (data : List Byte) (s : State) : Bool × State :=
  match routePeer s (peerOf r) 0 with
  | none => (false, s)
  | some (i, vc) => injectAll p i 0 vc ((cutBlocks 16384 data).zipIdx.map (fun (d, k) => (segmentHdr s p r (off + 16384 * k) d.length, d))) s

/-- Inject the control segments that wait for their link port, in order (R212, R278). -/
def pumpCtl : Nat → PartId → State → State
  | 0, _, s => s
  | k + 1, p, s => match (s.part p).ctlOut with
    | [] => s
    | (rid, g) :: rest => match (s.part p).reqs.find? (fun r => r.rid == rid) with
      | none => pumpCtl k p (updPart p (fun x => { x with ctlOut := rest }) s)
      | some r =>
        let (ok, s') := injectSegment p r 0 (segHeader g) s
        if ok then pumpCtl k p (updPart p (fun x => { x with ctlOut := rest }) s') else s

def pumpAll (p : PartId) (s : State) : State := pumpCtl (s.part p).ctlOut.length p s

/-- Send a control segment of a request with an epoch and its type-specific fields (R214, R215, R278): nothing under PATH 3. -/
def controlSeg (p : PartId) (r : Req) (type epoch : Nat) (extra : List Nat) (s : State) : State :=
  let path := r.desc.path.toNat
  if path = 3 then s else
  let sg : Seg := { type, fmt := 0, part := 0xFF, seq := if epoch = r.epoch then r.seq else 0, reqid := r.desc.reqid, epoch, extra }
  let s := emit (.seg path 0 (if path ≤ 1 then some (segImm type epoch) else none) sg []) s
  let s := if path ≤ 1 then
      addWrite (pathPort path) r.desc.qpn.toNat 64 { seq := 0, part := p.1, rid := r.rid, epoch, data := false }
        (ensureQp (pathPort path) r.desc.qpn.toNat s)
    else pumpAll p (updPart p (fun x => { x with ctlOut := x.ctlOut ++ [(r.rid, sg)] }) s)
  if epoch = r.epoch then updReq p r (fun q => { q with seq := q.seq + 1 }) s else s

/-- An ATTEMPT record goes to both journals before an attempt's first segment (R305). -/
def attemptRecord (p : PartId) (r : Req) (s : State) : State :=
  if r.attemptJ || r.desc.path == 3 then s
  else
    let j : JRec := { rid := r.rid, func := r.func, reqid := r.desc.reqid, type := 2, epoch := r.epoch, tick := s.tick.now }
    updReq p r (fun q => { q with attemptJ := true, jslots := q.jslots - 1 }) (journalRing (fid r.func) j (journalNear p j s))

/-- The request's attempt is a retry: an earlier one has run (R324). -/
def retried (r : Req) : Bool := if r.state = .admitted then decide (0 < r.ran) else decide (1 < r.ran)

/-- A retried attempt opens with VOID, FINAL 0 (R214, R324). -/
def voidFirst (p : PartId) (r : Req) (s : State) : State :=
  if r.voided || !retried r then s else updReq p r (fun q => { q with voided := true }) (controlSeg p r 3 r.epoch [0] s)

/-- Before any segment of an attempt (R214, R305): a request that never ran has none. -/
def openAttempt (p : PartId) (r : Req) (s : State) : State :=
  if r.ran = 0 then s
  else
    let s := attemptRecord p r s
    voidFirst p (reqNow s p r) s

/-! ### Attempts and retries (R324) -/

/-- The attempt failed: the request returns to PENDING, or takes the abort's code (R324). `uncounted` marks a reset or a halt. -/
def retryOrFinal (p : PartId) (r : Req) (code : Byte) (final isolate uncounted : Bool) (s : State) : State :=
  if r.cancelled || r.code.isSome then s
  else
    let free := uncounted && decide (r.uncounted < 4)
    let counted := if free then r.counted else r.counted + 1
    let s := updReq p r (fun q => { q with counted, uncounted := if free then q.uncounted + 1 else q.uncounted }) s
    if final || decide (3 ≤ counted) then
      decideCode p (reqNow s p r) code (controlSeg p (reqNow s p r) 3 (r.epoch + 1) [1] s)
    else
      let s := endAttempt p (reqNow s p r) s
      updReq p r (fun q => { q with state := .pending, isolate, endOk := false, firstTok := none, quality := {} }) s

/-- The requests of a task, with the entry's class. -/
def taskReqs (x : Part) (t : Task) : List Req :=
  t.entries.filterMap (fun e => x.reqs.find? (fun r => r.rid == e.rid && !r.finalJ))

/-! ### The journal replay (R326) -/

/-- Replay a partition's journal: a request with no final code returns to PENDING as a retry, and an attempt that had ended and not committed
counts as one aborted by the reset (R324). One that has its code keeps it: a commit sends COMPLETION again, and the completion records that
were not written go on in their order (R11, R325, R326). -/
def replayJournal (p : PartId) (s : State) : State :=
  let live := (s.part p).reqs.filter (fun r => accepted r && !r.delivered)
  let s := forAll (live.filter (fun r => r.code.isNone && r.state == .running)) (fun r s => retryOrFinal p (reqNow s p r) 0x24 false r.isolate true s) s
  let s := forAll live (fun r s => match (reqNow s p r).code with
    | none => updReq p r (fun q => { q with
        state := .pending, replayed := true, need := 0, xtab := 0, own := [], endOk := false, firstTok := none, quality := {}, defer := .none }) s
    | some c => if c = 0 then controlSeg p (reqNow s p r) 2 r.epoch [(r.firstTok.getD 0).toNat, r.segSent, r.length] s else s) s
  releaseDue p s

/-! ### The prefix tree (R206-R211) -/

/-- The model tag (R208). -/
def modelTag (model variant version : Nat) : W64 := BitVec.ofNat 64 (model * 2 ^ 48 + variant * 2 ^ 32 + version)

/-- The hash of a block under its parent's (R208). -/
def nodeHash (k1 : W64) (parent : W64) (toks : List W32) : W64 :=
  (toks.zipIdx.foldl (fun h (t, i) => mix64 (h ^^^ k1 ^^^ BitVec.ofNat 64 (t.toNat + i * 2 ^ 32))) parent)

/-- The whole blocks of a token list. -/
def wholeBlocks (toks : List W32) : List (List W32) := (List.range (toks.length / 64)).map (fun i => (toks.drop (64 * i)).take 64)

/-- The nodes of a bucket chain (R207, R208). -/
def chainOf (s : State) (d : Domain) (h : W64) : List PNode :=
  s.mem.nodes.filter (fun n => n.inUse && n.domain == d.id && n.hash.toNat % 2 ^ d.log2 == h.toNat % 2 ^ d.log2)

/-- Look blocks up in ascending order, stopping at the first miss; at most 8 nodes of a chain are probed (R209). -/
def lookupBlocks (s : State) (d : Domain) (k1 tag : W64) : List (List W32) → Nat → W64 → List PNode
  | [], _, _ => []
  | b :: r, parent, h =>
    let h := nodeHash k1 h b
    match ((chainOf s d h).take 8).find? (fun n => n.hash == h && n.tag == tag && n.parent == parent && n.tokens == b) with
    | none => []
    | some n => n :: lookupBlocks s d k1 tag r n.idx h

/-- Runs of nodes with one region and consecutive block groups, as shared extents (R209). -/
def hitExtents (fmt flags : Byte) : List PNode → List (Extent × Nat)
  | [] => []
  | n :: r =>
    let e : Extent := { base := BitVec.ofNat 64 n.base, len := 1, fmt, flags, gen := 0, region := BitVec.ofNat 32 n.region }
    match hitExtents fmt flags r with
    | [] => [(e, n.blk)]
    | (f, b) :: l => if f.region.toNat = n.region ∧ b = n.blk + 1 then ({ e with len := f.len + 1 }, n.blk) :: l else (e, n.blk) :: (f, b) :: l

/-- Keep the hits whose extents leave at least 2 free entries (R209). -/
def fitHits : Nat → List PNode → List PNode
  | 0, l => l
  | k + 1, l => if (hitExtents 0 0 l).length ≤ 62 then l else fitHits k l.dropLast

/-- Evict unreferenced nodes that a predicate names, oldest LASTUSE first, until `enough` holds (R211). -/
def evictNodes : Nat → (PNode → Bool) → (State → Bool) → State → State
  | 0, _, _, s => s
  | k + 1, mine, enough, s =>
    if enough s then s
    else match s.mem.nodes.filter (fun n => n.ref == 0 && mine n) with
      | [] => s
      | n :: r => evictNodes k mine enough (freeNode (r.foldl (fun a b => if b.lastUse < a.lastUse then b else a) n) s)

/-! ### Memory figures (R311) -/

/-- The partition pool: its near regions of class 5 (R386, R311). -/
def nearPool (s : State) (p : PartId) : Nat :=
  ((s.mem.regions.filter (fun r => r.cls == 5 && !r.far && r.part == p.1)).map (fun r => r.size)).sum

/-- Keeper sections are held by private extents of a model with keeper heads that asks to publish (R210). -/
def keepsSections (m : ModelCfg) (d : SubDesc) : Bool := !m.keepers.isEmpty && d.flags.getLsbD 1

/-- Staging and workspace of a new position of a model, from the partition's cost table (R311, R391). -/
def wstokOf (s : State) (p : PartId) (m : ModelCfg) : Nat :=
  (((s.part p).section_.bind (fun cfg => cfg.wstok.find? (fun w => w.1 == m.idx))).map Prod.snd).getD 0

/-- The near-memory need of R311, of the positions that this device holds (R196). -/
def needOf (s : State) (p : PartId) (m : ModelCfg) (d : SubDesc) (qpos qlen : Nat) : Nat :=
  let lo := localPos s m qpos
  let n := localPos s m (qpos + qlen) - lo
  let tail := if d.opc = 2 then lo % 64 else 0
  (tail + n + 63) / 64 * groupBytes s m (keepsSections m d) + (if d.opc = 2 then 0 else keeperBytes s m) + n * wstokOf s p m + 4288

end Sys2Proof.Machine
end

