-- ==== Sys2Proof/Machine/Serving.lean ====
section
/-! DEFINITION. Doorbells, submissions, acceptance, cancels, completion records, sessions, variants and extent edits
(R201-R205, R303-R308, R319-R322, R470). -/

namespace Sys2Proof.Machine

/-! ### Doorbells (R470) -/

/-- The control tiles answer: power states P0 to P3 (R416, R435). -/
def awake (s : State) : Bool := decide (s.pwr.state ≠ PowState.p4)

/-- Count an ignored doorbell write (R470). -/
def ignoreBell (f : FuncId) (s : State) : State := updFunc f (fun g => { g with igndb := g.igndb + 1 }) s

/-- A doorbell recorded in P3 calls for the wake of AUTOWAKE (R416, R436). -/
def noteBell (s : State) : State := whenS (decide (s.pwr.state = PowState.p3)) (updPwr (fun w => { w with wakeDue := true })) s

/-- SQ_TAIL (R303, R416, R470). -/
def execSqTail (f : FuncId) (v : W64) (atomic : Bool) (s : State) : Res :=
  let g := s.func f
  let p := partOfFunc s f
  .next (if !awake s then s
    else if !atomic || !g.en || decide ((s.part p).state = PState.unconfigured) || (f.1 == 0 && !isOwner s .pf0) then ignoreBell f s
    else noteBell (updFunc f (fun g => { g with sqTail := v.toNat % 2 ^ g.sqLog }) s))

/-- How many slots a head value releases, counted from `rel` (R470): none where it lies beyond the records written. -/
def headMove (v rel written size : Nat) : Option Nat :=
  let d := (v + size - rel % size) % size
  if size ≤ v ∨ written < rel + d then none else some d

/-- CQ_HEAD (R306, R470). -/
def execCqHead (f : FuncId) (v : W64) (atomic : Bool) (s : State) : Res :=
  let g := s.func f
  .next (if !awake s then s
    else match if atomic then headMove v.toNat g.cqRel g.cqTail (2 ^ g.cqLog) else none with
      | none => ignoreBell f s
      | some d => updFunc f (fun g => { g with cqRel := g.cqRel + d }) s)

/-- JQ_HEAD (R305, R470). -/
def execJqHead (f : FuncId) (v : W64) (atomic : Bool) (s : State) : Res :=
  let g := s.func f
  .next (if !awake s then s
    else match if atomic then headMove v.toNat g.jqRel g.jqCount (2 ^ g.jqLog) else none with
      | none => ignoreBell f s
      | some d => updFunc f (fun g => { g with jqRel := g.jqRel + d }) s)

/-! ### Cancels (R321, R322) -/

/-- The other devices that a spanning partition's groups hold (R317). -/
def followersOf (s : State) (p : PartId) : List DevAddr :=
  (((s.part p).groups.flatMap (fun g => (g.members.zipIdx.filter (fun m => m.2 != g.self)).map Prod.fst)).filter
    (fun d => !sameDev d (selfAddr s))).dedup

/-- Mark an entry's rows cancelled: FLAGS bit 0 (R167). -/
def flagEntry (e : TEntry) : TEntry := { e with len := { e.len with flags := e.len.flags ||| 1 } }

/-- A transfer of Aghorn's to a core group that is powered down is dropped, counted and logged (R29, R442). -/
def aghornFault (c : CoreId) (p : PartId) (task : Nat) (s : State) : State :=
  logR 0x0010 1 0xFF 0xFFFF p.1 [2, 0xFF, c.1, task, 0xFF] (updFlt (fun f => { f with addrflt := satAdd 64 f.addrflt 1 }) s)

/-- Set FLAGS bit 0 of entry i in the task's lengths table, in every core's working store (R322; log 41, DESIGN CHOICE). -/
def flagRunning (p : PartId) (i : Nat) (s : State) : State :=
  match (s.part p).task with
  | none => s
  | some t =>
    let a := t.ltab + 16 * i + 2
    let s := forAll (coresOf s p) (fun c s =>
      if (groupsPowered s).contains (groupOf c.1) then
        updCore c (fun x => { x with ws := wr8 x.ws (a % 2 ^ 21) (rd8 x.ws (a % 2 ^ 21) ||| 1) }) s
      else aghornFault c p t.num s) s
    updPart p (fun x => { x with task := some { t with entries := t.entries.modify i flagEntry } }) s

/-- Tell the followers of a cancelled entry by class M (R322). -/
def sendCancelFlag (p : PartId) (task i : Nat) (s : State) : State :=
  if ((s.part p).section_.map (fun cfg => cfg.span)).getD 0 = 1 then
    forAll (followersOf s p) (fun d s => sendM 0x16 d [task, i] s) s
  else s

/-- Mark an entry of a waiting task: left with no rows it is not started (R314). -/
def flagQueued (p : PartId) (num i : Nat) (s : State) : State :=
  updPart p (fun x => { x with
    queue := ((mapIf (fun t => t.num == num) (fun t => { t with entries := t.entries.modify i flagEntry }) x.queue).filter
      (fun t => !t.entries.all (fun e => e.len.flags.getLsbD 0))) }) s

/-- Take a request out of the running or the waiting task by its flag: a waiting one too (R314, R322). -/
def flagTask (p : PartId) (r : Req) (s : State) : State :=
  let x := s.part p
  let mine (e : TEntry) : Bool := e.rid == r.rid
  match x.task.bind (fun t => if t.num == r.task then t.entries.findIdx? mine else none) with
  | some i => sendCancelFlag p r.task i (flagRunning p i s)
  | none => match x.queue.find? (fun t => t.num == r.task) with
    | none => s
    | some t => match t.entries.findIdx? mine with
      | none => s
      | some i => sendCancelFlag p t.num i (flagQueued p t.num i s)

/-- The cancel event (R321). -/
def cancelEvent (f : FuncId) (id : W64) (s : State) : State :=
  let p := partOfFunc s f
  let hold (s : State) : State :=
    if (s.func f).heldCancels.any (fun h => h.reqid == id) then s
    else updFunc f (fun g => { g with heldCancels := g.heldCancels ++ [{ reqid := id, tick := s.tick.now }] }) s
  match findReq (s.part p) f.1 id with
  | none => hold s
  | some r =>
    if r.code.isSome then cancelAns f id false s
    else match r.state with
      | .reading => hold s
      | .committed => cancelAns f id false s
      | .final => cancelAns f id false s
      | .running =>
        let s := flagTask p r s
        let s := updReq p r (fun q => { q with cancelled := true }) s
        let s := giveCode p (reqNow s p r) 0x31 s
        if r.desc.path = 3 then freeReq p (reqNow s p r) s else s
      | _ =>
        let s := openAttempt p r (if r.state == .admitted then flagTask p r s else s)
        let r := reqNow s p r
        let s := controlSeg p r 4 r.epoch [r.segSent] s
        let s := updReq p r (fun q => { q with cancelled := true, cancelSent := true }) s
        decideCode p (reqNow s p r) 0x31 s

/-- CANCEL (R321, R416, R470). -/
def execCancel (f : FuncId) (reqid : W64) (atomic : Bool) (s : State) : Res :=
  .next (if !awake s then s
    else if !atomic then ignoreBell f s
    else if s.pwr.state = PowState.p3 then noteBell (updFunc f (fun g => { g with p3cancels := g.p3cancels ++ [reqid] }) s)
    else cancelEvent f reqid s)

/-- CANCEL_HOLD_EXPIRY (R321): after 1,024 ticks a held cancel is answered, unless a submission of its REQID has been read and waits for its
acceptance. -/
def execCancelHoldExpiry (f : FuncId) (reqid : W64) (s : State) : Res :=
  let read := (s.part (partOfFunc s f)).reqs.any (fun r => r.func == f.1 && r.desc.reqid == reqid && r.state == .reading)
  .next (if !read && (s.func f).heldCancels.any (fun h => h.reqid == reqid && decide (h.tick + 1024 ≤ s.tick.now)) then
      cancelAns f reqid true (updFunc f (fun g => { g with heldCancels := g.heldCancels.filter (fun h => h.reqid != reqid) }) s)
    else s)

/-- A CANCELLED segment is owed and every DATA handed over is acknowledged (R322). -/
def cancelDue (r : Req) : Bool := r.cancelled && !r.cancelSent && decide (r.segAcked = r.segSent) && r.desc.path != 3

/-- CANCELLED_SEGMENT (R322): once every DATA handed over is acknowledged, CANCELLED goes with that count, and then the request's
memory is freed. A retried attempt that has sent nothing yet opens with its VOID first (R214, R305). -/
def execCancelledSegment (p : PartId) (reqid : W64) (s : State) : Res :=
  .next (match reqFor (s.part p) cancelDue reqid with
    | none => s
    | some r =>
      let s := openAttempt p r s
      let r := reqNow s p r
      let s := updReq p r (fun q => { q with cancelSent := true }) (controlSeg p r 4 r.epoch [r.segSent] s)
      freeReq p (reqNow s p r) s)

/-- CANCEL_FLAG_MESSAGE (R322): a follower marks the entry. -/
def execCancelFlagMessage (p : PartId) (task : W32) (entry : Nat) (s : State) : Res :=
  let x := s.part p
  .next (if !linksOn s then s
    else if (x.task.map Task.num) = some task.toNat then flagRunning p entry s
    else flagQueued p task.toNat entry s)

/-! ### Submissions (R303, R304) -/

/-- The ticket rail reads the function's next descriptor (R303, R305, R371, R416, R470). -/
def canRead (s : State) (f : FuncId) : Bool :=
  let g := s.func f
  let x := s.part (partOfFunc s f)
  g.en && g.sqHead != g.sqTail && canReserve g
  && decide (x.state = PState.running ∨ x.state = PState.draining ∨ x.state = PState.halted)
  && decide (s.pwr.state = PowState.p0 ∨ s.pwr.state = PowState.p1 ∨ s.pwr.state = PowState.p2)
  && (match x.section_ with
    | some cfg => cfg.span != 2
    | none => false)

/-- Read one descriptor: TKT_SQHEAD moves on, and a reason answers it with REJECT (R304, R470). -/
def readDesc (f : FuncId) (d : SubDesc) (reason : Option Nat) (go : State → State) (s : State) : State :=
  if !canRead s f then s
  else
    let s := updFunc f (fun g => { g with sqHead := (g.sqHead + 1) % 2 ^ g.sqLog }) s
    match reason with
    | some k => rejectRec f d.reqid k s
    | none => go s

/-- Checks shared by every operation, in the order of the reasons (R304): form, then REQID. -/
def formReason (s : State) (f : FuncId) (d : SubDesc) (opc : Byte) : Option Nat :=
  if d.opc ≠ opc ∨ !d.rsv0 ∨ 3 < d.prio.toNat ∨ 3 < d.path.toNat ∨ 7 < d.flags.toNat ∨ 2 ^ 24 ≤ d.qpn.toNat then some 1
  else match findReq (s.part (partOfFunc s f)) f.1 d.reqid with
    | some r => if r.finalJ then none else some 2
    | none => none

/-- Bytes that the largest delivery of positions lo to hi - 1 needs (R215, R304). -/
def exportNeed (m : ModelCfg) (lo hi : Nat) : Nat :=
  let blocks := (hi + 63) / 64 - lo / 64
  let tiles := (hi + 127) / 128 - lo / 128
  let kp := (m.keepers.map (fun k => k.2.2.2.length)).sum
  blocks * (kcKeyHalf m.form + kcValHalf m.form) * (m.layers * m.heads - kp) + kp * (hi - lo) * 512 + 64 * (tiles * 2 * m.layers * m.heads)

/-- A request's validation (R304). -/
def requestReason (s : State) (f : FuncId) (d : SubDesc) (opc : Byte) (tokOk qrOk : Bool) : Option Nat :=
  let p := partOfFunc s f
  match formReason s f d opc with
  | some k => some k
  | none => match s.img.models.find? (fun m => m.idx == d.model.toNat) with
    | none => some 3
    | some m =>
      if d.ntok = 0 then some 3
      else if d.domain ≠ 0xFFFF ∧ !(s.mem.domains.any (fun x => x.id == d.domain.toNat && x.parts.getLsbD p.1)) then some 4
      else
        let z := if opc = 2 then sessionOf (s.part p) d.session else none
        let lo := (z.bind (fun z => (xtAt (s.part p) z.xtab).map (fun t => t.length))).getD 0
        if d.path ≠ 3 ∧ d.rlen.toNat < 64 + exportNeed m lo (lo + d.ntok.toNat) then some 5
        else if (opc = 1 ∧ d.session ≠ 0) ∨ (opc = 2 ∧ z.isNone) then some 6
        else if (d.path = 2 ∧ !(decide (d.peer.1.toNat < (axisOf s 0).1 ∧ d.peer.2.1.toNat < (axisOf s 1).1 ∧ d.peer.2.2.toNat < (axisOf s 2).1)))
          ∨ (d.path.toNat < 2 ∧ !isEth (s.port (pathPort d.path.toNat))) then some 7
        else if !tokOk ∨ !qrOk then some 8
        else none

/-- A request enters: its journal slots are reserved, and it waits for its acceptance (R305). -/
def enterReq (f : FuncId) (d : SubDesc) (toks : List W32) (s : State) : State :=
  let p := partOfFunc s f
  let s := updFunc f (fun g => { g with jqResv := g.jqResv + 9 }) s
  updPart p (fun x => { x with
    nextRid := x.nextRid + 1
    reqs := x.reqs ++ [{ rid := x.nextRid, func := f.1, desc := d, tokens := toks, epoch := d.epoch0.toNat }] }) s

/-- PREFILL (R303, R304, R310). -/
def execPrefill (f : FuncId) (d : SubDesc) (tokens : Option (List W32)) (qrOk : Bool) (s : State) : Res :=
  .next (readDesc f d (requestReason s f d 1 tokens.isSome qrOk) (enterReq f d ((tokens.getD []).take d.ntok.toNat)) s)

/-- EXTEND (R203, R303, R304). -/
def execExtend (f : FuncId) (d : SubDesc) (tokens : Option (List W32)) (qrOk : Bool) (s : State) : Res :=
  .next (readDesc f d (requestReason s f d 2 tokens.isSome qrOk) (enterReq f d ((tokens.getD []).take d.ntok.toNat)) s)

/-- Validation of RELEASE and MIGRATE: the session must be known (R304). -/
def sessReason (s : State) (f : FuncId) (d : SubDesc) (opc : Byte) : Option Nat :=
  match formReason s f d opc with
  | some k => some k
  | none => if (sessionOf (s.part (partOfFunc s f)) d.session).isNone then some 6 else none

/-- RELEASE (R203): at once, or at the final code of a request in flight on the session. -/
def execRelease (f : FuncId) (d : SubDesc) (s : State) : Res :=
  let p := partOfFunc s f
  .next (readDesc f d (sessReason s f d 3) (fun s =>
    match sessionOf (s.part p) d.session with
    | none => s
    | some z =>
      let s := if z.busy then
          updPart p (fun x => { x with sessions := mapIf (fun y => y.handle == z.handle) (fun y => { y with relDue := true }) x.sessions }) s
        else releaseSession p z s
      opDoneRec f d.reqid false s) s)

/-- An operation takes its place in the request order of upkeep (R345). -/
def queueOp (p : PartId) (o : UpOp) (s : State) : State :=
  updMem (fun m => { m with opCount := m.opCount + 1 }) (updPart p (fun x => { x with upops := x.upops ++ [{ o with seq := s.mem.opCount }] }) s)

/-- MIGRATE (R205): the move runs in upkeep windows, in request order (R345). -/
def execMigrate (f : FuncId) (d : SubDesc) (s : State) : Res :=
  let p := partOfFunc s f
  .next (readDesc f d (sessReason s f d 4)
    (queueOp p { func := f.1, reqid := d.reqid, session := d.session, toNear := d.flags.getLsbD 0 }) s)

/-! ### Variants (R319, R320) -/

/-- A resident version that may be dropped to free its slot (R320). -/
def dropable (x : Part) (w : VVersion) : Bool := w.resident && !w.current && !w.curDue && !boundTo x w.variant w.version

/-- A slot that no version fills, the lowest (R319). -/
def freeSlot (x : Part) : Option Nat :=
  (List.range x.vslots).find? (fun k => !x.versions.any (fun w => (w.resident || w.loading) && w.slot == k))

/-- Take a slot for a load, dropping a version if none is free (R319, R320): the slot, or none where no slot can be freed. -/
def takeSlotFor (p : PartId) (s : State) : Option (Nat × State) :=
  let x := s.part p
  match freeSlot x, x.versions.find? (dropable x) with
  | some k, _ => some (k, s)
  | none, none => none
  | none, some w => some (w.slot, updPart p (fun x => { x with
        versions := mapIf (fun v => v.variant == w.variant && v.version == w.version) (fun v => { v with resident := false }) x.versions }) s)

/-- The far address and size of a version slot: slots follow one another in the region that the image names (R319, R386; log 188, DEDUCED). -/
def slotRun (s : State) (p : PartId) (k : Nat) : Option (Nat × Nat) :=
  (s.img.dev.vslots.find? (fun v => v.1 == p.1)).bind (fun (_, n, _, g) =>
    (s.mem.regions.find? (fun r => r.far && r.idx == g)).map (fun r => (2 ^ 63 + r.base + k * n, n)))

/-- The slots of a partition lie in a far region that is offline (R339). -/
def slotsOffline (s : State) (p : PartId) : Bool :=
  (s.img.dev.vslots.find? (fun v => v.1 == p.1)).any (fun v => s.mem.regions.any (fun r => r.far && r.idx == v.2.2.2 && regionOffline s r))

/-- Start loading a version: a queued operation of upkeep (R319, R345). -/
def startVLoad (p : PartId) (w : VVersion) (op : UpOp) (s : State) : State :=
  queueOp p { op with left := w.bytes } (updPart p (fun x => { x with
    versions := x.versions.filter (fun v => !(v.variant == w.variant && v.version == w.version)) ++ [{ w with resident := false, loading := true }] }) s)

/-- VLOAD (R303, R319): copies a version into a free slot in upkeep, or ends failed where it is resident, no slot can be freed, it is larger than
a slot, or the slots' region is offline (R339; log 188, DEDUCED). -/
def execVload (f : FuncId) (d : SubDesc) (srcOk : Bool) (s : State) : Res :=
  let p := partOfFunc s f
  let reason := match formReason s f d 5 with
    | some k => some k
    | none => if d.ntok = 0 then some 3 else if !srcOk then some 8 else none
  .next (readDesc f d reason (fun s =>
    let v := d.variant.toNat
    let ver := d.version.toNat
    let n := d.ntok.toNat * 4
    if v = 0 || slotsOffline s p || !(slotRun s p 0).any (fun k => decide (n ≤ k.2))
      || (s.part p).versions.any (fun w => w.variant == v && w.version == ver && (w.resident || w.loading)) then opDoneRec f d.reqid true s
    else match takeSlotFor p s with
      | none => opDoneRec f d.reqid true s
      | some (slot, s) => startVLoad p { variant := v, version := ver, slot, src := d.tokaddr, bytes := n }
          { vload := true, func := f.1, reqid := d.reqid, variant := v, version := ver } s) s)

/-- VLOAD_COMPLETE (R319, R345): the load at the front of the operations ends, all its bytes copied; its version is current from the next tick. -/
def execVloadComplete (p : PartId) (s : State) : Res :=
  .next (match (s.part p).upops with
    | [] => s
    | o :: rest =>
      if !o.vload || decide (0 < o.left) then s
      else
        let known := (s.part p).variants.contains o.variant
        let s := updPart p (fun x => { x with
          upops := rest
          variants := if known then x.variants else x.variants ++ [o.variant]
          versions := (mapIf (fun w => w.variant == o.variant && w.version == o.version)
            (fun w => { w with resident := true, loading := false, curDue := !o.silent }) x.versions) }) s
        if o.silent then s else opDoneRec (fid o.func) o.reqid false s)

/-! ### Acceptance (R305) -/

/-- ACCEPTANCE (R305, R307): the oldest request read is journaled in both journals and becomes PENDING; a held cancel of its REQID acts at once
(R321). With EN clear no ring takes its record, and it waits (R471). -/
def execAcceptance (f : FuncId) (reqid : W64) (s : State) : Res :=
  let p := partOfFunc s f
  .next (match (s.part p).reqs.find? (fun r => r.func == f.1 && r.state == .reading) with
    | none => s
    | some r =>
      if r.desc.reqid ≠ reqid ∨ (s.func f).en = false ∨ s.pwr.state = PowState.p3 ∨ s.pwr.state = PowState.p4 then s
      else
        let j : JRec := { rid := r.rid, func := f.1, reqid, type := 1, tick := s.tick.now }
        let s := journalRing f j (journalNear p j s)
        let n := (s.part p).accSeq + 1
        let s := updPart p (fun x => { x with accSeq := n }) s
        let s := updReq p r (fun q => { q with state := .pending, accTick := s.tick.now, accSeq := n, jslots := q.jslots - 1 }) s
        let s := trace 4 p.1 [1, reqid.toNat] s
        if (s.func f).heldCancels.any (fun h => h.reqid == reqid) then
          cancelEvent f reqid (updFunc f (fun g => { g with heldCancels := g.heldCancels.filter (fun h => h.reqid != reqid) }) s)
        else s)

/-- COMPLETION_RECORD_WRITE (R306, R325, R326): the next record in CSEQ order goes to its slot once the host has released it; a
replayed record whose slot was released is not written again. -/
def execCompletionRecordWrite (f : FuncId) (s : State) : Res :=
  let g := s.func f
  .next (if !g.en || !awake s then s
    else match g.waiting with
      | [] => s
      | r :: rest =>
        if r.cseq ≤ g.cqRel then updFunc f (fun g => { g with waiting := rest }) s
        else if g.cqRel + 2 ^ g.cqLog < r.cseq then s
        else
          let s := hostWrite (g.cqBase.toNat + (r.cseq - 1) % 2 ^ g.cqLog * 64) (crecBytes r) s
          let s := updFunc f (fun g => { g with waiting := rest, cqTail := Nat.max g.cqTail r.cseq }) s
          vecEvent f (if f.1 = 0 then 7 else 0) s)

/-! ### Extent edits (R201, R202) -/

/-- EXTENT_EDIT (R201). -/
def execExtentEdit (p : PartId) (xtab : W32) (e : Edit) (s : State) : Res := .next (requestEdit p xtab.toNat e s)

/-- EXTENT_RECLAIM (R202, R211): freed memory returns once every snapshot held is past its generation, that of a prefix region once no
node, table or snapshot refers to the region. -/
def execExtentReclaim (p : PartId) (idx : Nat) (s : State) : Res :=
  .next (match (s.part p).freed[idx]? with
    | none => s
    | some e =>
      if !mayReclaim s p e then s
      else updPart p (fun x => { x with
        freed := x.freed.eraseIdx idx
        freeNear := if isFar e.ext.base.toNat then x.freeNear else x.freeNear + e.bytes }) s)

end Sys2Proof.Machine
end

