-- ==== Sys2Proof/Machine/Requests.lean ====
section
/-! DEFINITION. Admission (R309-R314), tasks (R315-R318), export (R212-R215), the commit (R323) and aborts (R324, R444). -/

namespace Sys2Proof.Machine

/-! ### Predictions (R312, R313) -/

/-- Quotient rounded up to a multiple of 1/256, at most 1. -/
def ratio256 (a b : Nat) : Nat := Nat.min 256 ((256 * a + Nat.max 1 b - 1) / Nat.max 1 b)

/-- The running task's ratio (R313). -/
def runRatio (s : State) (x : Part) : List Nat :=
  match x.task with
  | none => []
  | some t => if !t.live then [] else match t.met.head?.bind (ckptOf x t) with
    | none => []
    | some k => [ratio256 (taskPhase s t) k.latest]

/-- The correction rho in 1/256 (R313). -/
def rhoOf (s : State) (x : Part) : Nat :=
  if x.measured < 16 then 256
  else match x.ratios.take 64 ++ runRatio s x with
    | [] => 256
    | l => Nat.min 256 (l.foldl Nat.max 0)

/-- Predicted end of a task, running or queued (R312). -/
def taskEnds (s : State) (x : Part) (t : Task) : Nat :=
  t.start + (((shapeOf x t).map (fun h => h.dur)).getD 0 * rhoOf s x + 255) / 256

/-- Predicted start of the next task (R312, R315). -/
def nextStart (s : State) (x : Part) : Nat :=
  ((x.task.toList.filter Task.live ++ x.queue).map (taskEnds s x)).foldl Nat.max (s.tick.now + 4)

/-- The smallest shape that holds rows and area (R312). -/
def fitShape (cfg : PCfg) (rows area : Nat) : Option Shape :=
  (cfg.shapes.filter (fun h => decide (rows ≤ h.rows ∧ area ≤ h.area))).foldl (fun (a : Option Shape) h => match a with
    | none => some h
    | some g => if h.rows < g.rows then some h else some g) none

/-! ### The checks (R309) -/

/-- What a check decides. -/
inductive Verdict where
  | pass
  | refuse (code : Byte)
  | defer (why : Defer)
deriving DecidableEq, Repr, Inhabited

/-- The first verdict that is not pass. -/
def Verdict.orElse' (a b : Verdict) : Verdict :=
  match a with
  | .pass => b
  | v => v

/-- Followers' latest reports, on a lead (R414). -/
def followerReports (s : State) (p : PartId) : List (Option FReport) :=
  if ((s.part p).section_.map (fun cfg => cfg.span)).getD 0 ≠ 1 then []
  else (followersOf s p).map (fun d => (s.part p).reports.find? (fun r => sameDev r.src d))

/-- Check 1: time (R309, R414, R415). -/
def checkTime (s : State) (p : PartId) (r : Req) : Verdict :=
  if decide (s.tick.state = TState.timelost) || (followerReports s p).any (fun q => q.any (fun q => q.tstate == 2)) then
    if isRetry r then .defer .timelost else .refuse 0x14
  else .pass

/-- Check 2: a facility that the mode lacks (R133, R309, R411, R414). -/
def checkService (s : State) (p : PartId) (m : ModelCfg) (r : Req) : Verdict :=
  if m.meanVar && (s.flt.limited || (followerReports s p).any (fun q => q.any (fun q => q.service == 1))) then
    if isRetry r then .defer .limited else .refuse 0x15
  else .pass

/-- The version a request binds (R320). -/
def bindVersion (x : Part) (r : Req) : Option Nat :=
  let v := r.desc.variant.toNat
  if r.bound then some r.version
  else if v = 0 then (if r.desc.version = 0 then some 0 else none)
  else if !x.variants.contains v then none
  else if r.desc.version = 0 then (x.versions.find? (fun w => w.variant == v && w.current)).map (fun w => w.version)
  else (x.versions.find? (fun w => w.variant == v && w.version == r.desc.version.toNat)).map (fun w => w.version)

/-- A version's entry. -/
def versionAt (x : Part) (v ver : Nat) : Option VVersion := x.versions.find? (fun w => w.variant == v && w.version == ver)

/-- Check 3: the variant, its version and a slot for it; the session's model tag (R203, R309, R319, R320). A version not resident
starts reloading, for a retry too, which is never refused (R340). -/
def checkVariant (p : PartId) (r : Req) (s : State) : Verdict × State :=
  let x := s.part p
  let v := r.desc.variant.toNat
  match bindVersion x r with
  | none => (.refuse 0x13, s)
  | some ver =>
    let tagOk := r.desc.opc != 2 || ((sessionOf x r.desc.session).bind (fun z => xtAt x z.xtab)).all (fun t =>
      t.tag == modelTag r.desc.model.toNat v ver)
    if !tagOk then (.refuse 0x13, s)
    else if v = 0 then (.pass, s)
    else match versionAt x v ver with
      | none => (.refuse 0x13, s)
      | some w =>
        if w.resident || w.loading then (.pass, s)
        else match takeSlotFor p s with
          | none => (.refuse 0x13, s)
          | some (slot, s) => (.pass, startVLoad p { w with slot } { vload := true, silent := true, variant := v, version := ver } s)

/-- QPOS and QLEN are fixed: once evaluated, but for an EXTEND, whose QPOS is its session's LENGTH as it then is (R203, R310). -/
def spanFixed (r : Req) : Bool := r.evaluated && r.desc.opc != 2

/-- QPOS and QLEN as they are known (R310). -/
def spanOf (x : Part) (r : Req) : Nat × Nat :=
  if spanFixed r then (r.qpos, r.qlen)
  else if r.desc.opc = 2 then
    ((((sessionOf x r.desc.session).bind (fun z => xtAt x z.xtab)).map (fun t => t.length)).getD 0, r.desc.ntok.toNat)
  else (0, r.desc.ntok.toNat)

/-- Check 4: keeper queues, the position table, the window (R309). -/
def checkSize (s : State) (p : PartId) (m : ModelCfg) (r : Req) : Verdict :=
  let (qpos, qlen) := spanOf (s.part p) r
  if m.keepers.any (fun k => decide (k.2.2.1 < qlen)) || decide (m.ropeLen ≤ qpos + qlen) || decide (nearPool s p < needOf s p m r.desc qpos qlen) then
    .refuse 0x11
  else .pass

/-- Check 5: the first evaluation, with the prefix lookup of a PREFILL that names a domain (R209, R309, R310). -/
def firstEval (p : PartId) (r : Req) (s : State) : State :=
  if spanFixed r then s else
  let (q0, n0) := spanOf (s.part p) r
  let plain := updReq p r (fun q => { q with evaluated := true, qpos := q0, qlen := n0 }) s
  if r.desc.opc = 2 then plain
  else match s.mem.domains.find? (fun d => d.id == r.desc.domain.toNat) with
    | none => plain
    | some d =>
      let ver := (bindVersion (s.part p) r).getD 0
      let tag := modelTag r.desc.model.toNat r.desc.variant.toNat ver
      let key := Config.domainKey s.sec.iddig d.label
      let hits := lookupBlocks s d key.2 tag (wholeBlocks r.tokens) 0xFFFFFFFF (mix64 (key.1 ^^^ tag))
      let hits := fitHits hits.length hits
      let hits := if r.desc.ntok.toNat ≤ 64 * hits.length then hits.dropLast else hits
      let ids := hits.map (fun n => n.idx)
      let s := updNodes (mapIf (fun n => ids.contains n.idx) (fun n => { n with ref := n.ref + 1, lastUse := s.tick.now })) s
      let qpos := 64 * hits.length
      updReq p r (fun q => { q with evaluated := true, hits := ids, qpos, qlen := r.desc.ntok.toNat - qpos }) s

/-- Check 6: a shape that holds the request alone, and its goal (R309, R312). -/
def checkGoal (cfg : PCfg) (start rows area : Nat) (r : Req) : Verdict :=
  let mine := r.qlen * (r.qpos + r.qlen)
  match fitShape cfg r.qlen mine with
  | none => .refuse 0x12
  | some alone =>
    let h := (fitShape cfg (rows + r.qlen) (area + mine)).getD alone
    if decide (r.accTick + r.desc.goal.toNat < start + h.dur + 1) then
      .refuse (if r.defer = .memory then 0x11 else 0x12)
    else .pass

/-- A model's weights wait for a reload, or lie in an offline region (R339, R349). -/
def weightsWait (s : State) (m : ModelCfg) : Bool :=
  s.mem.regions.any (fun g => g.cls == 1 && g.key == m.idx
    && ((if g.far then s.mem.freload else s.mem.reload).contains g.idx || regionOffline s g))

/-- A session's extents lie in an offline region, or its tail on a channel that has failed, so that admission cannot copy it (R204, R339, R352;
log 191, DEDUCED). -/
def sessionOffline (s : State) (p : PartId) (r : Req) : Bool :=
  r.desc.opc == 2 && ((sessionOf (s.part p) r.desc.session).bind (fun z => xtAt (s.part p) z.xtab)).any (fun t =>
    t.current.any (fun e => runOffline s e.base.toNat (e.len.toNat * t.gbytes) || runFailed s e.base.toNat (e.len.toNat * t.gbytes))
    || runFailed s t.keepbase.toNat (keepBytes s t))

/-- A new request waits while a channel has failed (R352). -/
def channelDown (s : State) : Bool := s.mem.chans.toList.any (fun c => c.failed)

/-- Check 7: what defers (R309, R339, R349, R351, R352, R458). -/
def checkDefer (s : State) (p : PartId) (cfg : PCfg) (m : ModelCfg) (rows area : Nat) (full : Bool) (r : Req) : Verdict :=
  let x := s.part p
  let busy := r.desc.opc == 2 && ((sessionOf x r.desc.session).any (fun z => z.busy && z.holder != r.rid)
    || x.reqs.any (fun q => q.desc.opc == 2 && q.desc.session == r.desc.session && accepted q && q.code.isNone && decide (q.accSeq < r.accSeq)))
  let ver := (bindVersion x r).getD 0
  let loading := r.desc.variant != 0 && !((versionAt x r.desc.variant.toNat ver).any (fun w => w.resident))
  if x.freeNear < needOf s p m r.desc r.qpos r.qlen then .defer .memory
  else if (channelDown s && !isRetry r) || sessionOffline s p r then .defer .memory
  else if full || (fitShape cfg (rows + r.qlen) (area + r.qlen * (r.qpos + r.qlen))).isNone then .defer .capacity
  else if busy then .defer .session
  else if loading || (r.desc.variant != 0 && slotsOffline s p) then .defer .variant
  else if (followerReports s p).any (fun q => match q with
    | none => true
    | some q => q.pstate != 2 || decide (q.tick + 4 < s.tick.now)) then .defer .follower
  else if weightsWait s m then .defer .reload
  else if x.testHold then .defer .test
  else .pass

/-! ### Admitting (R311, R314, R204) -/

/-- The first n block groups of a table's entries. -/
def takeGroups : Nat → List Extent → List Extent
  | 0, _ => []
  | _, [] => []
  | n, e :: r => if e.len.toNat ≤ n then e :: takeGroups (n - e.len.toNat) r else [{ e with len := BitVec.ofNat 16 n }]

/-- Copy a run of bytes between tiers. -/
def tierCopy (src dst n : Nat) (s : State) : State := tierWrite dst (tierRead s src n) s

/-- Copy a block group, head by head: the two groups need not both hold keeper sections (R198, R204). -/
def copyGroup (m : ModelCfg) (old new : Bool) (src dst : Nat) (s : State) : State :=
  forAll ((List.range m.layers).flatMap (fun l => (heldHeads s m).map (fun h => (l, h)))) (fun x s =>
    let kept := (keeperHeads m x.1).contains x.2
    if kept && !(old && new) then s
    else tierCopy (src + headOffset s m old x.1 x.2) (dst + headOffset s m new x.1 x.2) (if kept then 32768 else kcBlockSize m.form) s) s

/-- The tail and the keeper stores of a session, copied exactly into the fresh memory of its extension (R204). -/
def copyTail (m : ModelCfg) (t : XTable) (lo : Nat) (keep : Bool) (base kb : Nat) (s : State) : State :=
  let s := if lo % 64 = 0 then s else match groupAddr s m t (lo / 64) with
    | some (e, a) => copyGroup m (bit e.flags.toNat 1) keep a base s
    | none => s
  if m.keepers.isEmpty then s else tierCopy t.keepbase.toNat kb (keeperBytes s m) s

/-- Give an admitted request its extent table and memory (R197, R204, R209, R311): none where a run finds no place (R341). -/
def allocTable (p : PartId) (m : ModelCfg) (ver : Nat) (r : Req) (s : State) : Option State :=
  let x := s.part p
  let keep := keepsSections m r.desc
  let gb := groupBytes s m keep
  let need := needOf s p m r.desc r.qpos r.qlen
  let idx := x.xtabs.foldl (fun a t => Nat.max a t.idx) 0 + 1
  let sess := if r.desc.opc = 2 then (sessionOf x r.desc.session).bind (fun z => xtAt x z.xtab) else none
  let lo := localPos s m r.qpos
  let n := localPos s m (r.qpos + r.qlen) - lo
  let len := ((if sess.isSome then lo % 64 else 0) + n + 63) / 64
  match allocRuns p [len * gb, keeperBytes s m, 4288] [] s with
  | (some [base, kb, at_], s) =>
    let kb := if m.keepers.isEmpty then 0 else kb
    let priv : Extent := { base, len := BitVec.ofNat 16 len, fmt := extFmt m.form
                           flags := if keep then 2 else 0, gen := 0, region := 0xFFFFFFFF }
    let front := match sess with
      | some t => takeGroups (lo / 64) t.current
      | none => (hitExtents (extFmt m.form) (if m.keepers.isEmpty then 1 else 3)
          (r.hits.filterMap (fun i => s.mem.nodes.find? (fun n => n.idx == i && n.bytes != 0)))).map Prod.fst
    let s := clearRun base.toNat (len * gb) s
    let s := match sess with
      | some t => copyTail m t lo keep base.toNat kb.toNat s
      | none => s
    let t : XTable := { idx, addr := at_, length := r.qpos, domain := sess.elim r.desc.domain (fun t => t.domain)
                        tag := modelTag r.desc.model.toNat r.desc.variant.toNat ver, keepbase := kb, gbytes := gb, copyA := (front ++ [priv]).take 64
                        slots := (sess.map XTable.slots).getD [], src := sess.map (fun t => (t.idx, t.gen)) }
    let s := match sess with
      | some t => updTable p t.idx (fun u => { u with inflight := true }) s
      | none => s
    let s := storeTable p idx (updPart p (fun x => { x with
      xtabs := x.xtabs ++ [t]
      sessions := (mapIf (fun z => r.desc.opc == 2 && z.handle == r.desc.session) (fun z => { z with busy := true, holder := r.rid }) x.sessions)
      freeNear := x.freeNear - need }) s)
    some (updReq p r (fun q => { q with need, xtab := idx, own := [priv] }) s)
  | _ => none

/-- The task being formed: its entries, rows, area, and whether it carries one isolated request (R351). -/
structure Batch where
  entries : List TEntry := []
  rows    : Nat := 0
  area    : Nat := 0
  iso     : Bool := false
deriving DecidableEq, Repr, Inhabited

/-- Admit a request to the task being formed (R309 check 8, R314, R320, R324): none where its memory finds no place. -/
def admitReq (p : PartId) (m : ModelCfg) (num : Nat) (b : Batch) (r : Req) (s : State) : Option (Batch × State) :=
  let ver := (bindVersion (s.part p) r).getD 0
  (allocTable p m ver r s).map (fun s =>
    let s := updReq p r (fun q => { q with
      state := .admitted, defer := .none, version := ver, bound := true, task := num
      epoch := if 0 < q.ran then (q.epoch + 1) % 65536 else q.epoch
      attemptJ := false, segDone := 0, segSent := 0, segAcked := 0, seq := 0, offset := 64, voided := false }) s
    let r := reqNow s p r
    let le : LenEntry := localEntry s m { seg := BitVec.ofNat 16 b.entries.length, flags := 0, qpos := BitVec.ofNat 32 r.qpos
                                          qlen := BitVec.ofNat 32 r.qlen, xtab := BitVec.ofNat 32 r.xtab }
    ({ entries := b.entries ++ [{ rid := r.rid, func := r.func, reqid := r.desc.reqid, len := le }], rows := b.rows + r.qlen
       area := b.area + r.qlen * (r.qpos + r.qlen), iso := b.iso || r.isolate }, s))

/-- What a check's answer does to a request (R309). -/
def ruleOn (p : PartId) (r : Req) (v : Verdict) (s : State) : State :=
  match v with
  | .pass => s
  | .refuse c => decideCode p (reqNow s p r) c s
  | .defer d => updReq p r (fun q => { q with defer := d }) s

/-- Checks 6 and 7, and admission: a request that finds no memory waits (R309, R311, R313). -/
def placeReq (p : PartId) (cfg : PCfg) (m : ModelCfg) (start num : Nat) (b : Batch) (r : Req) (s : State) : Batch × State :=
  let v6 := if isRetry r then .pass else checkGoal cfg start b.rows b.area r
  if v6 ≠ .pass then (b, ruleOn p r v6 s)
  else
    let need := needOf s p m r.desc r.qpos r.qlen
    let s := evictNodes s.mem.nodes.length (fun n => n.owner == p.1) (fun s => decide (need ≤ (s.part p).freeNear)) s
    let v7 := checkDefer s p cfg m b.rows b.area (b.iso || (r.isolate && !b.entries.isEmpty)) r
    if v7 ≠ .pass then (b, ruleOn p r v7 s)
    else match admitReq p m num b r s with
      | some x => x
      | none => (b, ruleOn p r (.defer .memory) s)

/-- Evaluate one pending request: the first check that applies decides (R309). -/
def evalReq (p : PartId) (cfg : PCfg) (start num : Nat) (b : Batch) (r0 : Req) (s : State) : Batch × State :=
  let r := reqNow s p r0
  match s.img.models.find? (fun m => m.idx == r.desc.model.toNat) with
  | none => (b, s)
  | some m =>
    let v12 := (checkTime s p r).orElse' (checkService s p m r)
    if v12 ≠ .pass then (b, ruleOn p r v12 s)
    else
      let (v3, s) := checkVariant p r s
      let v3 := if isRetry r then .pass else v3
      let v4 := if isRetry r then .pass else checkSize s p m r
      let v34 := v3.orElse' v4
      if v34 ≠ .pass then (b, ruleOn p r v34 s)
      else
        let s := firstEval p r s
        placeReq p cfg m start num b (reqNow s p r) s

/-- Evaluation order: retries, then priority class, then acceptance (R309). -/
def evalKey (r : Req) : Nat × Nat := (if isRetry r then 0 else 1 + r.desc.prio.toNat, r.accSeq)

def keyLe (a b : Nat × Nat) : Bool := decide (a.1 < b.1 ∨ (a.1 = b.1 ∧ a.2 ≤ b.2))

def insertReq (r : Req) : List Req → List Req
  | [] => [r]
  | q :: l => if keyLe (evalKey r) (evalKey q) then r :: q :: l else q :: insertReq r l

def sortReqs (l : List Req) : List Req := l.foldr insertReq []

/-- The lead tells its followers of a task (R317). -/
def sendTaskStart (p : PartId) (t : Task) (s : State) : State :=
  if ((s.part p).section_.map (fun cfg => cfg.span)).getD 0 ≠ 1 then s else
  let body := [t.num, t.start] ++ t.entries.flatMap (fun e => match (s.part p).reqs.find? (fun r => r.rid == e.rid) with
    | some r => [e.len.seg.toNat, r.qpos, r.qlen, e.len.xtab.toNat, r.epoch]
    | none => [])
  forAll (followersOf s p) (fun d s => sendM 0x15 d body s) s

/-- The pending requests in acceptance order (R309). -/
def evalAll (p : PartId) (cfg : PCfg) (start num : Nat) (l : List Req) (s : State) : Batch × State :=
  l.foldl (fun a r => evalReq p cfg start num a.1 r a.2) ({}, s)

/-- A placed task wakes an idle device (R416, R436). -/
def wakeIdle (s : State) : State := if s.pwr.state = .p2 then updPwr (fun w => { w with state := .p0 }) s else s

/-- ADMISSION (R309, R314, R315): once in each tick of a running partition; the admitted requests form the next task. -/
def execAdmission (p : PartId) (s : State) : Res :=
  let x := s.part p
  .next (match x.section_ with
    | none => s
    | some cfg =>
      if x.state ≠ .running ∨ cfg.span = 2 ∨ x.admTick = some s.tick.now ∨ s.pwr.state = .p3 ∨ s.pwr.state = .p4 then s
      else
        let s := updPart p (fun x => { x with admTick := some s.tick.now }) s
        let start := nextStart s (s.part p)
        let num := ((s.part p).lastTask + 1) % 2 ^ 32
        let pend := sortReqs ((s.part p).reqs.filter (fun r => decide (r.state = RState.pending) && r.code.isNone))
        let (b, s) := evalAll p cfg start num pend s
        if b.entries.isEmpty then s
        else match fitShape cfg b.rows b.area with
          | none => s
          | some h =>
            let t : Task := { num, start, shape := h.idx, entries := b.entries, isolate := b.iso }
            let s := updPart p (fun x => { x with lastTask := num, queue := x.queue ++ [t] }) s
            trace 4 p.1 [2, num] (sendTaskStart p t (wakeIdle s)))

/-! ### Task start (R242, R315, R316) -/

/-- The group whose exchange descriptor uses an operation slot (R283). -/
def slotGroup (s : State) (cfg : PCfg) (slot : Nat) : Nat :=
  ((cfg.cores.findSome? (fun c => (List.range 512).findSome? (fun k =>
    let e := exchAt (s.core (cid c)).dstoreImg cfg.exchOff k
    if e.nops ≠ 0 ∧ e.op0 ≤ slot ∧ slot < e.op0 + e.nops then some e.gid else none))).getD 0xFFFF)

/-- s1-s63 of the task-start record (R316; log 41, DESIGN CHOICE): `xa` is the address of the XTAB array in the working store, `et` that of the
export descriptors. -/
def startRegs (t : Task) (xa et : Nat) (consts : List W64) : Vector W64 64 :=
  let rows := ((t.entries.filter (fun e => !e.len.flags.getLsbD 0)).map (fun e => e.len.qlen.toNat)).sum
  let head : List W64 := [0, BitVec.ofNat 64 t.num, BitVec.ofNat 64 t.ltab, BitVec.ofNat 64 t.entries.length, BitVec.ofNat 64 rows
    , BitVec.ofNat 64 xa, t.stage.1, BitVec.ofNat 64 et, BitVec.ofNat 64 t.start, BitVec.ofNat 64 t.shape]
  Vector.ofFn (fun i => (head ++ consts).getD i.1 0)

/-- A lengths-table entry's bytes (R167). -/
def lenBytes (l : LenEntry) : List Byte :=
  leBytes 2 l.seg.toNat ++ leBytes 2 l.flags.toNat ++ leBytes 4 l.qpos.toNat ++ leBytes 4 l.qlen.toNat ++ leBytes 4 l.xtab.toNat

/-- What the ticket rail puts in every core's working store for a task: the lengths table, the XTAB addresses, and the path, epoch and receive
region of each entry's export (R316; log 41, DESIGN CHOICE). -/
def startBytes (t : Task) (xtabs : List Nat) : List Byte :=
  t.entries.flatMap (fun e => lenBytes e.len) ++ xtabs.flatMap (leBytes 8)
  ++ t.exports.flatMap (fun x => leBytes 8 x.1 ++ leBytes 8 x.2.1 ++ leBytes 8 x.2.2.1 ++ leBytes 8 x.2.2.2)

/-- A core at a task's start (R242, R121, R224, R316). -/
def startCore (t : Task) (regs : Vector W64 64) (bytes : List Byte) (x : Core) : Core :=
  { x with
    running := true, ended := false, hold := .none, pc := x.entry
    s := regs, p := Vector.ofFn (fun i => decide (i.1 = 0)), h := Vector.replicate 16 0
    dstore := x.dstoreImg, issued := 0
    eng := x.eng.map (fun g => { stopEngine g with stopped := none })
    ve := { x.ve with temps := [], queue := [] }
    su := x.su.map stopScoop, scq := [], trq := [], parked := [], peerIn := [], kept := [], sides := [], skims := []
    ws := wrBytes x.ws t.ltab bytes }

/-- Bytes of a task's key staging: staging and workspace of its new positions (R311, R316). -/
def stageBytes (s : State) (p : PartId) (t : Task) : Nat :=
  ((taskModelOf s p t).map (fun m => (t.entries.map (fun e => e.len.qlen.toNat * wstokOf s p m)).sum)).getD 0

/-- The path, epoch and receive region of an entry's export (R316). -/
def exportOf (x : Part) (e : TEntry) : Nat × Nat × Nat × Nat :=
  match x.reqs.find? (fun r => r.rid == e.rid) with
  | some r => (r.desc.path.toNat, r.epoch, r.desc.raddr.toNat, r.desc.rlen.toNat)
  | none => (3, 0, 0, 0)

/-- Start the task at the head of the queue (R242, R282-R285, R315, R316). -/
def startTask (p : PartId) (cfg : PCfg) (t : Task) (s : State) : State :=
  let (a, s) := takeFree s
  let (ks, s) := allocRuns p [stageBytes s p t] [] s
  let ltab := a.toNat % 2 ^ 14 * 64
  let xa := ltab + 16 * t.entries.length
  let x := s.part p
  let t := { t with start := s.tick.now, started := true, cyc0 := s.pwr.cyc.toList, ltab, stage := ((ks.bind List.head?).getD 0, stageBytes s p t), exports := t.entries.map (exportOf x) }
  let xtabs := t.entries.map (fun e => ((xtAt x e.len.xtab.toNat).map (fun u => u.addr.toNat)).getD 0)
  let consts := ((cfg.shapes.find? (fun h => h.idx == t.shape)).map (fun h => h.consts)).getD []
  let s := forAll (coresOf s p) (fun c s => updCore c (startCore t (startRegs t xa (xa + 8 * t.entries.length) consts) (startBytes t xtabs)) s) s
  let ops := cfg.exch.flatMap (fun e => e.2.zipIdx.map (fun o => (e.1, o.2, { o.1 with gid := slotGroup s cfg o.2, fired := 0, acked := 0 })))
  updPart p (fun x => { x with
    task := some t, queue := x.queue.filter (fun q => q.num != t.num)
    rails := x.rails.map resetRail, simmer := x.simmer.map fullSimmer, mesh := [], meshSent := 0, mcast := [], tiles := [], ctrs := [], ops
    groups := x.groups.map (fun g => { g with
      gseq := 0, opens := [], insts := [], waiting := [], stepGot := [], bound := [], unacked := [], credits := [] })
    reqs := (mapIf (fun r => r.state == .admitted && r.task == t.num) (fun r => { r with state := .running, ran := r.ran + 1, quality := {} }) x.reqs) }) s

/-- TASK_START (R314, R315, R317): the oldest formed task, at its start tick, with no task running. -/
def execTaskStart (p : PartId) (s : State) : Res :=
  let x := s.part p
  .next (match x.section_, x.queue.head? with
    | some cfg, some t =>
      if x.task.isSome ∨ x.state ≠ .running ∨ s.tick.now < t.start ∨ ¬ (s.pwr.state = .p0 ∨ s.pwr.state = .p1) then s
      else trace 4 p.1 [4, t.num] (startTask p cfg t s)
    | _, _ => s)

/-- TASK_START_MESSAGE (R317): a follower takes the task with its number, start tick and lengths table, and builds its extents where its pool has
room (R341). -/
def execTaskStartMessage (p : PartId) (task : W32) (startTick : W64) (entries : List LenEntry) (epochs : List W16) (s : State) : Res :=
  .next (if !linksOn s then s else match (s.part p).section_ with
    | none => s
    | some cfg =>
      if cfg.span ≠ 2 ∨ startTick.toNat < s.tick.now then s
      else
        let m := (cfg.wstok.head?.bind (fun w => s.img.models.find? (fun m => m.idx == w.1))).getD {}
        let gb := groupBytes s m false
        let entries := entries.map (localEntry s m)
        let s := forAll entries (fun e s =>
          if ((s.part p).xtabs.any (fun t => t.idx == e.xtab.toNat)) then s
          else
            let len := (e.qpos.toNat + e.qlen.toNat + 63) / 64
            match allocRuns p [len * gb, 4288] [] s with
            | (some [base, at_], s) =>
              let priv : Extent := { base, len := BitVec.ofNat 16 len, fmt := extFmt m.form, flags := 0, gen := 0, region := 0xFFFFFFFF }
              storeTable p e.xtab.toNat (updPart p (fun x => { x with
                xtabs := x.xtabs ++ [{ idx := e.xtab.toNat, addr := at_, length := e.qpos.toNat, gbytes := gb, copyA := [priv] }] })
                (clearRun base.toNat (len * gb) s))
            | _ => s) s
        let rows := (entries.map (fun e => e.qlen.toNat)).sum
        let area := (entries.map (fun e => e.qlen.toNat * (e.qpos.toNat + e.qlen.toNat))).sum
        let t : Task := { num := task.toNat, start := startTick.toNat, shape := ((fitShape cfg rows area).map (fun h => h.idx)).getD 0
                          entries := (entries.zip (epochs.map (fun w => w.toNat) ++ List.replicate entries.length 0)).map (fun e => { len := e.1, reqid := BitVec.ofNat 64 e.2 })
                          follower := true }
        updPart p (fun x => { x with lastTask := task.toNat, queue := x.queue ++ [t] }) s)

/-- STATE_REPORT (R414): the lead keeps each follower's latest report. -/
def execStateReport (p : PartId) (src : DevAddr) (tstate pstate service sstate : Byte) (s : State) : Res :=
  .next (if !linksOn s then s else updPart p (fun x => { x with reports := x.reports.filter (fun r => !sameDev r.src src)
    ++ [{ src, tstate := tstate.toNat, pstate := pstate.toNat, service := service.toNat, sstate := sstate.toNat, tick := s.tick.now }] }) s)

/-- TASK_PREPARED (R323): a follower has met its end checkpoint. -/
def execTaskPrepared (p : PartId) (src : DevAddr) (task : W32) (s : State) : Res :=
  let note (t : Task) : Task := if t.num = task.toNat ∧ !t.prepared.contains src then { t with prepared := src :: t.prepared } else t
  .next (if !linksOn s then s else updPart p (fun x => { x with task := x.task.map note, doneTasks := x.doneTasks.map note }) s)

/-! ### Task end (R236, R249, R318) -/

/-- The index of the largest logit: the lowest wins a tie, NaN is passed over; all NaN gives 0xFFFF_FFFF (R318). -/
def firstToken (l : List W32) : W32 :=
  match l.zipIdx.foldl (fun (a : Option (W32 × Nat)) (w, i) => if isNan32 w then a else match a with
    | none => some (w, i)
    | some (v, j) => if fLt v w then some (w, i) else some (v, j)) none with
  | some (_, i) => BitVec.ofNat 32 i
  | none => 0xFFFFFFFF

/-- Every DATA segment handed over for the task's requests is acknowledged (R249). -/
def dataAcked (x : Part) (t : Task) : Bool :=
  x.reqs.all (fun r => r.task != t.num || r.desc.path == 3 || decide (r.segSent ≤ r.segAcked))

/-- The task-end checkpoint's three conditions (R249). -/
def taskOver (s : State) (p : PartId) (t : Task) : Bool :=
  let x := s.part p
  t.live && (coresOf s p).all (fun c => (s.core c).ended) && x.ops.all (fun o => decide (o.2.2.fired = o.2.2.reps)) && dataAcked x t

/-- The end checkpoint of a task (R390). -/
def endCkpt (x : Part) (t : Task) : Nat :=
  ((shapeOf x t).bind (fun h => h.ckpts.find? (fun k => k.kind == 7))).elim 0 (fun k => k.idx)

/-- A request's first token is drawn, and its logits go to LOGADDR (R318): `logits` gives them by function and REQID. -/
def drawToken (p : PartId) (logits : List (Nat × W64 × List W32)) (r : Req) (s : State) : State :=
  let l := ((logits.find? (fun g => g.1 == r.func && g.2.1 == r.desc.reqid)).map (fun g => g.2.2)).getD []
  let s := if r.desc.logaddr = 0 then s else hostWrite r.desc.logaddr.toNat (l.flatMap (fun w => leBytes 4 w.toNat)) s
  updReq p r (fun q => { q with firstTok := some (firstToken l), endOk := true }) s

/-- TASK_END (R249, R313, R318, R323). -/
def execTaskEnd (p : PartId) (logits : List (Nat × W64 × List W32)) (s : State) : Res :=
  .next (match (s.part p).task with
    | none => s
    | some t =>
      if !taskOver s p t then s
      else
        let dur := ((shapeOf (s.part p) t).map (fun h => h.dur)).getD 0
        let s := skimTask p t (meetCkpt p (endCkpt (s.part p) t) s)
        let q := ratio256 (taskPhase s t) (dur * 65536)
        let lead := ((s.part p).section_.map (fun cfg => cfg.lead)).getD default
        let t := ((s.part p).task.getD t)
        let live := (taskReqs (s.part p) t).filter (fun r => !r.cancelled && r.code.isNone)
        let s := updPart p (fun x => { x with
          task := none, ratios := (q :: x.ratios).take 64
          doneTasks := if live.isEmpty then x.doneTasks else x.doneTasks ++ [{ t with ended := true }] }) s
        let s := forAll live (drawToken p logits) s
        trace 4 p.1 [5, t.num] (whenS t.follower (sendM 0x13 lead [t.num]) (releaseDue p s)))

/-! ### Export (R212-R215, R305) -/

/-- Positions an attempt delivers: its new ones, or all under EXPALL (R212, R303). -/
def delivered (r : Req) : Nat × Nat := (if r.desc.flags.getLsbD 2 then 0 else r.qpos, r.qpos + r.qlen)

/-- Positions that a head's segments of an attempt deliver: a keeper head's are the new ones alone (R212, R213; log 190, DEDUCED). -/
def deliveredOf (m : ModelCfg) (r : Req) (layer head : Nat) : Nat × Nat :=
  if (keeperHeads m layer).contains head then (r.qpos, r.qpos + r.qlen) else delivered r

/-- Key tiles that a head's segments cover. -/
def tilesOf (m : ModelCfg) (r : Req) (layer head : Nat) : Nat :=
  let (lo, hi) := deliveredOf m r layer head
  (hi + 127) / 128 - lo / 128

/-- The layers and heads of a model, in the order of its segments (R212). -/
def segHeads (m : ModelCfg) : List (Nat × Nat) := (List.range m.layers).flatMap (fun l => (List.range m.heads).map (fun h => (l, h)))

/-- DATA segments of an attempt (R212). -/
def segTotal (m : ModelCfg) (r : Req) : Nat :=
  if r.desc.path = 3 then 0 else ((segHeads m).map (fun x => 2 * tilesOf m r x.1 x.2)).sum

/-- Segment k of an attempt among the heads left: layer, head, tile, half (R212). -/
def segIn (m : ModelCfg) (r : Req) : List (Nat × Nat) → Nat → Nat × Nat × Nat × Nat
  | [], _ => (0, 0, 0, 0)
  | (l, h) :: rest, k =>
    let n := 2 * tilesOf m r l h
    if k < n then (l, h, (deliveredOf m r l h).1 / 128 + k / 2, k % 2) else segIn m r rest (k - n)

/-- Segment k of an attempt: layer, head, tile, half (R212). -/
def segAt (m : ModelCfg) (r : Req) (k : Nat) : Nat × Nat × Nat × Nat := segIn m r (segHeads m) k

/-- The payload of a keeper head's segment: the BF16 keys or values of its new positions, from the slots that the task wrote, the last ones
of its store (R190, R213). -/
def keeperPayload (s : State) (m : ModelCfg) (t : XTable) (r : Req) (layer head half pos0 posn : Nat) : List Byte :=
  let lo := localPos s m r.qpos
  let n := localPos s m (r.qpos + r.qlen) - lo
  -- the skimmer has run where the table counts its slots: the new positions are the last ones that it held
  let old := match t.slots.find? (fun x => x.1 == layer && x.2.1 == head) with
    | some x => x.2.2 - n
    | none => heldSlots m t layer head lo
  tierRead s (keeperStore s m t layer head + half * keeperCap m layer * 256 + (old + (localPos s m pos0 - lo)) * 256) (posn * 256)

/-- The payload of a DATA segment: the named halves of the blocks that hold a delivered position, or a keeper head's new positions, read
where this device holds the head and the tile; a head or a tile of another device brings its bytes (R196, R213, R317). -/
def segPayload (s : State) (p : PartId) (m : ModelCfg) (r : Req) (layer head tile half : Nat) (given : List Byte) : List Byte :=
  let (lo, hi) := deliveredOf m r layer head
  let pos0 := Nat.max lo (128 * tile)
  if !(heldHeads s m).contains head || !holdsPos s m (128 * tile) then given
  else match xtAt (s.part p) r.xtab with
    | none => given
    | some t => if (keeperHeads m layer).contains head then keeperPayload s m t r layer head half pos0 (Nat.min hi (128 * tile + 128) - pos0)
      else ((List.range 2).map (fun i => 2 * tile + i)).flatMap (fun g =>
        if decide (64 * g + 64 ≤ lo ∨ hi ≤ 64 * g) then []
        else match groupAddr s m t (localPos s m (64 * g) / 64) with
          | none => []
          | some (e, a) =>
            let o := a + headOffset s m (bit e.flags.toNat 1) layer head
            if half = 0 then tierRead s o (kcKeyHalf m.form) else tierRead s (o + kcKeyHalf m.form) (kcValHalf m.form))

/-- Put a segment on its path (R212, R215, R277, R278, R301): whether it went. -/
def sendSegment (p : PartId) (r : Req) (sg : Seg) (payload : List Byte) (s : State) : Bool × State :=
  let path := r.desc.path.toNat
  let n := 64 + payload.length
  if path ≤ 1 then
    let i := pathPort path
    let x := s.port i
    let dest := r.desc.qpn.toNat
    if !isEth x || x.paused || decide (x.state ≠ LState.up) || !qpRoom x dest || rateHolds s i dest n then (false, s)
    else
      let (ok, s) := charge p [(bLINKA, n), (bENERGY, energyFor s 5 ((n + 255) / 256))] s
      if !ok then (false, s)
      else
        let s := addWrite i dest n { seq := 0, part := p.1, rid := r.rid, epoch := r.epoch, data := true } (ensureQp i dest s)
        (true, emit (.seg path r.offset none sg payload) s)
  else if (s.part p).ctlOut.any (fun c => c.1 == r.rid) then (false, s)
  else if (routePeer s (peerOf r) 0).isNone then (false, abortTask p { code := 0x22, src := 0xFFFF } false s)
  else
    let (ok, s) := injectSegment p r r.offset (segHeader sg ++ payload) s
    if ok then (true, emit (.seg path r.offset none sg payload) (updReq p r (fun q => { q with segAcked := q.segAcked + 1 }) s)) else (false, s)

/-- A request whose attempt runs, and may still send or commit. -/
def inAttempt (r : Req) : Bool := r.state == .running && !r.cancelled && r.code.isNone

/-- Segments of the request's attempt are left to hand over. -/
def sendsMore (s : State) (r : Req) : Bool :=
  inAttempt r && (s.img.models.find? (fun m => m.idx == r.desc.model.toNat)).any (fun m => decide (r.segDone < segTotal m r))

/-- SEGMENT_HAND_OFF (R212-R215, R305): the next DATA segment of a running request, in the fixed order. -/
def execSegmentHandOff (p : PartId) (reqid : W64) (payload : List Byte) (s : State) : Res :=
  .next (match reqFor (s.part p) (sendsMore s) reqid with
    | none => s
    | some r => match s.img.models.find? (fun m => m.idx == r.desc.model.toNat) with
      | none => s
      | some m =>
        if !(((s.part p).task.map Task.live).getD false) then s
        else
          let s := openAttempt p r (pumpAll p s)
          let r := reqNow s p r
          let (layer, head, tile, half) := segAt m r r.segDone
          let (lo, hi) := deliveredOf m r layer head
          let pos0 := Nat.max lo (128 * tile)
          let data := segPayload s p m r layer head tile half payload
          let sg : Seg := { type := 1, fmt := if (keeperHeads m layer).contains head then 3 else (extFmt m.form).toNat, part := half, seq := r.seq
                            reqid := r.desc.reqid, epoch := r.epoch, layer, head0 := head, headn := 1, pos0, posn := Nat.min hi (128 * tile + 128) - pos0
                            paylen := data.length, pcrc := if data.isEmpty then 0 else crc32c data }
          let (ok, s) := sendSegment p r sg data s
          if ok then updReq p r (fun q => { q with segDone := q.segDone + 1, segSent := q.segSent + 1, seq := q.seq + 1, offset := q.offset + 64 + data.length }) s else s)

/-! ### Prefix insertion (R210) -/

/-- The node behind block group g of a table: in a shared extent only. -/
def nodeAtGroup (s : State) (t : XTable) (g : Nat) : Option PNode :=
  (extentAt t.current g).bind (fun (e, i) =>
    if bit e.flags.toNat 0 then s.mem.nodes.find? (fun n => n.inUse && n.region == e.region.toNat && n.base == e.base.toNat + i * t.gbytes) else none)

/-- Evict one node where a domain's pool is full, but none that a block under way names as its parent (R211). -/
def poolRoom (d : Domain) (parent : Nat) (s : State) : State :=
  if (s.mem.nodes.filter (fun q => q.domain == d.id)).length < d.pool then s
  else evictNodes 1 (fun n => n.domain == d.id && n.idx != parent) (fun _ => false) s

/-- Insert blocks in ascending order until one may not go (R210, R211): how many went. `place` gives a block's group in the new region, or
none where another device holds its positions (R196); `taken` is the run of the region. -/
def insertBlocks (p : PartId) (d : Domain) (k1 tag : W64) (region base gb ref : Nat) (taken : List (Nat × Nat)) (place : Nat → Option Nat) :
    List (List W32) → Nat → Nat → W64 → State → Nat × State
  | [], n, _, _, s => (n, s)
  | b :: r, n, parent, h, s =>
    let h := nodeHash k1 h b
    if 8 ≤ (chainOf s d h).length then (n, updPart p (fun x => { x with insRej := satAdd 64 x.insRej 1 }) s)
    else
      let s := poolRoom d parent s
      if d.pool ≤ (s.mem.nodes.filter (fun q => q.domain == d.id)).length then (n, s)
      else match allocBase false 4 (fun g => g.key == d.id) taken 320 s with
      | (none, s) => (n, s)
      | (some at_, s) =>
        let idx := s.mem.nextNode
        let g := (place n).getD 0
        let node : PNode := { idx, addr := at_.toNat, hash := h, tag, parent, ref, region, blk := g, base := base + g * gb
                              bytes := if (place n).isSome then gb else 0
                              domain := d.id, inUse := true, lastUse := s.tick.now, owner := p.1, tokens := b }
        let s := updNodes (fun l => mapIf (fun q => q.idx == parent) (fun q => { q with ref := q.ref + 1 }) l ++ [node])
          (updMem (fun m => { m with nextNode := idx + 1 }) s)
        insertBlocks p d k1 tag region base gb ref taken place r (n + 1) idx h s

/-- Every ancestor of a node is in its tree (R210). -/
def ancestorsIn (s : State) : Nat → Nat → Bool
  | 0, _ => false
  | k + 1, i => i == 0xFFFFFFFF || (match s.mem.nodes.find? (fun n => n.idx == i && n.inUse) with
    | some n => ancestorsIn s k n.parent
    | none => false)

/-- The node of the block before a request's first: the last block it hit, or for an EXTEND the one behind its table's block group (R209,
R210). Every earlier block is in the tree. -/
def parentNode (s : State) (m : ModelCfg) (r : Req) (t : XTable) : Option PNode :=
  (if r.desc.opc = 2 then nodeAtGroup s t (localPos s m (r.qpos - 64) / 64)
  else r.hits.getLast?.bind (fun i => s.mem.nodes.find? (fun n => n.idx == i && n.inUse))).filter
    (fun n => ancestorsIn s (s.mem.nodes.length + 1) n.parent)

/-- Place of a request's n-th new block among those that this device holds (R196). -/
def blockPlace (s : State) (m : ModelCfg) (r : Req) (n : Nat) : Option Nat :=
  let at_ := r.qpos + 64 * n
  if holdsPos s m at_ then some ((localPos s m at_ - localPos s m r.qpos) / 64) else none

/-- The prefix insertion of a commit (R210): the entries of the request's own extent after the moved block groups are shared, and the extents
moved from. -/
def prefixInsert (p : PartId) (m : ModelCfg) (r : Req) (retained : Bool) (s : State) : List Extent × List Extent × State :=
  match xtAt (s.part p) r.xtab, r.own.head?
      , (xtAt (s.part p) r.xtab).bind (fun t => s.mem.domains.find? (fun d => d.id == t.domain.toNat)) with
  | some t, some priv, some d =>
    let none_ := ([priv], ([] : List Extent), s)
    if runFailed s priv.base.toNat (priv.len.toNat * t.gbytes) ∨ r.quality.esc ≠ 0 ∨ r.qpos % 64 ≠ 0 ∨ (!m.keepers.isEmpty ∧ !keepsSections m r.desc) then none_
    else
      let key := Config.domainKey s.sec.iddig d.label
      let parent := if r.qpos = 0 then some (0xFFFFFFFF, mix64 (key.1 ^^^ t.tag)) else (parentNode s m r t).map (fun n => (n.idx, n.hash))
      let toks := if r.desc.opc = 2 then r.tokens else r.tokens.drop r.qpos
      let size := (wholeBlocks toks).length * t.gbytes
      match parent, allocBase false 4 (fun g => g.key == d.id) [] size s with
      | some (pi, ph), (some base, s) =>
        let region := s.mem.nextNode
        let (n, s) := insertBlocks p d key.2 t.tag region base.toNat t.gbytes (b2n retained) [(base.toNat, size)] (blockPlace s m r)
          (wholeBlocks toks) 0 pi ph s
        let k := ((List.range n).filterMap (blockPlace s m r)).length
        if k = 0 then ([priv], [], s)
        else
          let s := tierCopy priv.base.toNat base.toNat (k * t.gbytes) s
          let sh : Extent := { base, len := BitVec.ofNat 16 k, fmt := priv.fmt, flags := priv.flags ||| 1, gen := 0, region := BitVec.ofNat 32 region }
          let moved : Extent := { priv with len := BitVec.ofNat 16 k }
          let rest := if priv.len.toNat ≤ k then [] else
            [{ priv with base := priv.base + BitVec.ofNat 64 (k * t.gbytes), len := priv.len - BitVec.ofNat 16 k }]
          ([sh] ++ rest, [moved], s)
      | _, _ => none_
  | _, some priv, _ => ([priv], [], s)
  | _, none, _ => ([], [], s)

/-! ### Commit (R323) -/

/-- One edit that sets a table's entries, at most 64 (R197; log 166), with the extents it frees, and those whose blocks moved into a prefix region and stay charged
(R201, R202, R210; log 142). `ext` is the table of the extension whose keeper stores it takes (R204): the old stores wait for their reclaim. -/
def commitEntries (p : PartId) (xt : Nat) (es freed moved : List Extent) (len : Nat) (ext : Option XTable) (s : State) : State :=
  match xtAt (s.part p) xt with
  | none => s
  | some t =>
    let gen := (t.gen + 1) % 2 ^ 32
    let es := (es.map (fun e => if t.current.contains e then e else { e with gen := BitVec.ofNat 32 gen })).take 64
    let kept := ext.elim 0 (fun _ => keepBytes s t)
    let s := updTable p xt (fun t => { t with
      cur := !t.cur, gen, stale := t.head, editTick := some s.tick.now, retained := true, inflight := false, length := len
      keepbase := ext.elim t.keepbase XTable.keepbase, slots := ext.elim t.slots XTable.slots
      copyA := if t.cur then es else t.copyA
      copyB := if t.cur then t.copyB else es }) s
    let s := if kept = 0 then s else updPart p (fun x => { x with
      freed := x.freed ++ [{ xtab := xt, ext := { base := t.keepbase, len := 0, fmt := 0, flags := 0, gen := 0, region := 0xFFFFFFFF }, freegen := gen, hold := kept }] }) s
    forAll moved (logFreed p xt gen 0) (forAll freed (logFreed p xt gen t.gbytes) s)

/-- A retained table whose blocks moved into the prefix tree keeps none of their positions in its keeper stores (R190, R210). -/
def settleKeepers (p : PartId) (m : ModelCfg) (xt : Nat) (moved : List Extent) (s : State) : State :=
  match moved, xtAt (s.part p) xt with
  | _ :: _, some t => compactKeepers p m t (sharedPos t) s
  | _, _ => s

/-- The edit of an extension's commit: the blocks before its first new position stay as its session's table has them now, the tail is replaced by
the request's own extent, and its table goes (R204, R205). -/
def settleExtend (p : PartId) (m : ModelCfg) (r : Req) (es moved : List Extent) (lo back : Nat) (old new : XTable) (s : State) : State :=
  let tail := if lo % 64 = 0 then [] else match extentAt old.current (lo / 64) with
    | some (e, i) => [{ e with base := e.base + BitVec.ofNat 64 (i * old.gbytes), len := 1 }]
    | none => []
  let s := commitEntries p old.idx (takeGroups (lo / 64) old.current ++ es) (tail.filter (fun e => !bit e.flags.toNat 0)) moved (r.qpos + r.qlen) (some new) s
  let s := settleKeepers p m old.idx moved s
  let s := updPart p (fun x => { x with xtabs := x.xtabs.filter (fun t => t.idx != new.idx), freeNear := x.freeNear + back + 4288 }) s
  let s := updReq p r (fun q => { q with need := 0, xtab := 0, own := [], session := r.desc.session, length := r.qpos + r.qlen }) s
  sessionIdle p r.desc.session s

/-- What a committed request keeps (R203, R204, R210): its session, or nothing. -/
def settleMemory (p : PartId) (m : ModelCfg) (r : Req) (s : State) : State :=
  let x := s.part p
  let retain := r.desc.flags.getLsbD 0
  let len := r.qpos + r.qlen
  let (es, moved, s) := prefixInsert p m r (retain || r.desc.opc == 2) s
  let lo := localPos s m r.qpos
  let back := (localPos s m len - lo) * wstokOf s p m
  if r.desc.opc = 2 then
    match (sessionOf x r.desc.session).bind (fun z => xtAt x z.xtab), xtAt x r.xtab with
    | some old, some new => settleExtend p m r es moved lo back old new s
    | _, _ => s
  else
    let t := (xtAt x r.xtab).getD {}
    if retain then
      let h := x.nextSess
      let s := commitEntries p r.xtab (t.current.filter (fun e => !r.own.contains e) ++ es) [] moved len none s
      let s := settleKeepers p m r.xtab moved s
      let s := updPart p (fun x => { x with
        nextSess := h + 1
        freeNear := x.freeNear + back
        sessions := x.sessions ++ [{ handle := BitVec.ofNat 64 h, func := r.func, xtab := r.xtab, model := m.idx, variant := r.desc.variant.toNat
                                     version := r.version, domain := r.desc.domain }] }) s
      updReq p r (fun q => { q with need := 0, own := [], hits := [], session := BitVec.ofNat 64 h, length := len }) s
    else
      let s := forAll moved (logFreed p t.idx ((t.gen + 1) % 2 ^ 32) 0) s
      let s := updReq p r (fun q => { q with
        length := len, own := es.filter (fun e => !bit e.flags.toNat 0), need := q.need - (moved.map (fun e => e.len.toNat * t.gbytes)).sum }) s
      freeReq p (reqNow s p r) s

/-- The lead's further conditions: every follower has reported prepared, and no NOTICE has come (R323). -/
def spanReady (s : State) (p : PartId) (r : Req) : Bool :=
  let span := ((s.part p).section_.map (fun cfg => cfg.span)).getD 0
  match (s.part p).doneTasks.find? (fun t => t.num == r.task) with
  | none => span != 1
  | some t => (span != 1 || (followersOf s p).all (fun d => t.prepared.contains d)) && !t.noticed

/-- Drop ended tasks whose requests are all settled. -/
def pruneDone (p : PartId) (s : State) : State :=
  updPart p (fun x => { x with doneTasks := x.doneTasks.filter (fun t => x.reqs.any (fun r => r.task == t.num && r.state == .running && r.code.isNone)) }) s

/-- The table that a commit edits has had no edit in this tick: a table takes one edit a tick, so the commit waits for the next (R201;
log 166, DESIGN CHOICE). -/
def tableQuiet (s : State) (p : PartId) (r : Req) : Bool :=
  let x := s.part p
  (if r.desc.opc = 2 then (sessionOf x r.desc.session).bind (fun z => xtAt x z.xtab) else xtAt x r.xtab).all (fun t =>
    t.editTick != some s.tick.now)

/-- A request may commit (R201, R323): its attempt has ended well, and every segment is sent and acknowledged. -/
def commitReady (s : State) (p : PartId) (r : Req) : Bool :=
  inAttempt r && r.endOk && spanReady s p r && tableQuiet s p r
  && (s.img.models.find? (fun m => m.idx == r.desc.model.toNat)).any (fun m =>
    decide (r.segSent = segTotal m r) && (r.desc.path == 3 || decide (segTotal m r ≤ r.segAcked)))

/-- COMMIT (R210, R323, R325). -/
def execCommit (p : PartId) (reqid : W64) (s : State) : Res :=
  .next (match reqFor (s.part p) (commitReady s p) reqid with
    | none => s
    | some r => match s.img.models.find? (fun m => m.idx == r.desc.model.toNat) with
      | none => s
      | some m =>
        let n := segTotal m r
        let s := settleMemory p m r s
        let s := attemptRecord p (reqNow s p r) s
        let r := reqNow s p r
        let s := journalNear p { rid := r.rid, func := r.func, reqid := r.desc.reqid, type := 4, epoch := r.epoch, ftok := r.firstTok.getD 0, tick := s.tick.now } s
        let s := controlSeg p r 2 r.epoch [(r.firstTok.getD 0).toNat, n, r.length] s
        let s := updReq p r (fun q => { q with state := .committed, code := some 0, finTick := s.tick.now }) s
        pruneDone p (releaseAll p r.func (journalFinal p (reqNow s p r) s)))

/-! ### The end of an abort (R324, R444, R445) -/

/-- Retry or finish the requests of a failed task: every recorded cause counts, not the reported code alone (R324, R351, R445). -/
def failRequests (p : PartId) (t : Task) (code : Byte) (causes : List Cause) (uncounted : Bool) (s : State) : State :=
  let final := causes.any (fun c => c.determ || c.unusable)
  forAll (taskReqs (s.part p) t) (fun r s =>
    let iso := causes.any (fun c => c.badLine.any (fun a => (xtAt (s.part p) r.xtab).any (fun x => xtHolds x a)))
    retryOrFinal p r code final iso uncounted s) s

/-- The abort record (R446): task, reported code, causes recorded and counted, six causes. -/
def abortRecord (p : PartId) (t : Task) (code : Byte) (w : AbortWin) (s : State) : State :=
  let top := topCause w.causes
  logR 0x0002 0 1 top.src p.1 ([t.num, code.toNat, w.causes.length, w.counted]
    ++ (List.range 6).flatMap (fun i => match w.causes[i]? with
      | some c => [c.code.toNat, c.eclass.toNat, c.src]
      | none => [0, 0, 0])) s

/-- Count an abort by its code (R456). -/
def countAbort (p : PartId) (code : Byte) (s : State) : State :=
  let i : Fin 7 := Fin.ofNat 7 (code.toNat - 0x21)
  updPart p (fun x => { x with aborts := x.aborts.set i.1 (satAdd 64 (x.aborts[i.1]'i.2) 1) i.2 }) s

/-- Close the window of a task: the code is ranked, the record written, the requests retried or finished (R324, R444, R445). -/
def closeWindow (p : PartId) (s : State) : State :=
  match (s.part p).task with
  | none => s
  | some t => match t.window with
    | none => s
    | some w =>
      let code := (topCause w.causes).code
      let s := countAbort p code (abortRecord p t code w s)
      let s := updPart p (fun x => { x with task := none, lastAbort := w.causes }) s
      trace 4 p.1 [6, t.num, code.toNat] (releaseDue p (failRequests p t code w.causes w.uncounted s))

/-- ABORT_WINDOW_CLOSE (R444). -/
def execAbortWindowClose (p : PartId) (s : State) : Res := .next (closeWindow p s)

/-- The code of a NOTICE: R295 gives it 0x27 or 0x24 and no other. -/
def noticeCode (h : PktHdr) : Option Byte := if h.addr = 0x27 ∨ h.addr = 0x24 then some (BitVec.ofNat 8 h.addr.toNat) else none

/-- NOTICE (R295, R323): for the current task it aborts with the code it carries, in an open window it is one more cause (R444); for
a task that has ended here and whose requests have not committed it fails the attempt (log 45, DEDUCED); else, and where it carries another
code, it is only recorded. -/
def execNotice (h : PktHdr) (s : State) : Res :=
  .next (if !linksOn s || decide (64 ≤ h.dpart.toNat) then s else
    let p := pid h.dpart.toNat
    let note := logR 0x0002 2 1 0xFFFF p.1 [h.task.toNat, h.addr.toNat % 256]
    match noticeCode h with
    | none => note s
    | some code =>
      match (s.part p).task.filter (fun t => t.num == h.task.toNat), (s.part p).doneTasks.find? (fun t => t.num == h.task.toNat) with
      | some t, _ => if t.window.isSome || t.live then abortTask p { code, src := 0xFFFF } false s else note s
      | none, some t =>
        failRequests p { t with noticed := true } code [] false
          (updPart p (fun x => { x with doneTasks := x.doneTasks.filter (fun q => q.num != t.num) }) (note s))
      | none, none => note s)

end Sys2Proof.Machine
end

