-- ==== Sys2Proof/Machine/MemTiers.lean ====
section
/-! DEFINITION. Upkeep windows, owner copies, reload marks and BAR4 (R339, R343-R347, R349, R352, R464, R479). -/

namespace Sys2Proof.Machine

/-- Near memory and the CXL ports are on: P0 to P2 (R435). -/
def memOn (s : State) : Bool := decide (s.pwr.state = PowState.p0 ∨ s.pwr.state = PowState.p1 ∨ s.pwr.state = PowState.p2)

/-! ### Upkeep windows (R344-R347) -/

/-- A line of channel c, for records that name the channel alone. -/
def chanLine (c : Fin 16) : Nat := c.1 * 1024

/-- Action 1: retrain the next channel once RTP ticks have passed (R345, R346). -/
def upkeepRetrain (rtp : Nat) (ok : Bool) (s : State) : State :=
  if rtp = 0 ∨ s.tick.now < s.mem.retrainTick + rtp then s
  else
    let c : Fin 16 := Fin.ofNat 16 s.mem.retrainNext
    let s := updMem (fun m => { m with retrainNext := (c.1 + 1) % 16, retrainTick := s.tick.now }) s
    if (s.mem.chans[c.1]'c.2).failed then s
    else if ok then updChan c (fun x => { x with badRetrains := 0 }) s
    else
      let s := memRecord (chanLine c) 6 0 {} (updChan c (fun x => { x with badRetrains := x.badRetrains + 1 }) s)
      if 3 ≤ (s.mem.chans[c.1]'c.2).badRetrains then failChannel c (chanLine c) {} s else s

/-- Offset of a far address on the port that holds it (R339). -/
def portOffset (s : State) (a : Nat) : Nat :=
  match s.mem.regions.find? (fun r => inRegion r a) with
  | none => tierAddr a
  | some r => r.pbase + (tierAddr a - r.base) / 4096 / Nat.max 1 r.ports.length * 4096 + a % 4096

/-- A scrub of `n` bytes from `ptr`, wrapping at `cap`, reads the byte at `a` (R347). -/
def scrubReads (ptr n cap a : Nat) : Bool := decide (a < cap ∧ (a + cap - ptr) % Nat.max 1 cap < n)

/-- Action 2: the lines that scrub found bad in the bytes it reads are counted, recorded and handled by owner (R347, R349). -/
def upkeepScrub (port : Fin 5) (n : Nat) (found : List (W64 × AccessResult)) (s : State) : State :=
  let f : Finder := { found := 1 }
  if port.1 = 0 then
    let cap := nearCap s
    let ptr := s.mem.scrub
    let s := forAll found (fun x s =>
      if !isFar x.1.toNat && scrubReads ptr n cap (tierAddr x.1.toNat) && !onFailed s x.1.toNat then (judgeRead x.1.toNat 64 x.2 f s).2 else s) s
    updMem (fun m => { m with scrub := (ptr + n) % Nat.max 1 cap }) s
  else
    let i : Fin 4 := Fin.ofNat 4 (port.1 - 1)
    let c := s.mem.cxl[i.1]'i.2
    let s := forAll found (fun x s =>
      if isFar x.1.toNat && whereOf s x.1.toNat == 0x80 + i.1 && scrubReads c.scrub n c.cap (portOffset s x.1.toNat) && !offline s x.1.toNat then
        (judgeRead x.1.toNat 64 x.2 f s).2 else s) s
    updCxl i (fun x => { x with scrub := (x.scrub + n) % Nat.max 1 x.cap }) s

/-- Move one retained extent to the other tier: its bytes are copied, one edit replaces its entry, the old copy waits for its
reclaim (R202, R205). None where its data is uncorrectable or the target has no room (R349). -/
def migrateExtent (p : PartId) (t : XTable) (i : Nat) (e : Extent) (toNear : Bool) (s : State) : Option State :=
  let n := e.len.toNat * t.gbytes
  if runFailed s e.base.toNat n || runOffline s e.base.toNat n then none
  else if toNear && decide ((s.part p).freeNear < n) then none
  else
    match allocBase (!toNear) 5 (fun r => r.part == p.1) [] n s with
    | (none, _) => none
    | (some base, s) =>
      let s := tierCopy e.base.toNat base.toNat n s
      let s := whenS toNear (updPart p (fun x => { x with freeNear := x.freeNear - n })) s
      some (setEntries p t.idx (editList t.current (.replace i { e with base })) s)

/-- The first private extent of a table that lies in the wrong tier. -/
def nextMove (t : XTable) (toNear : Bool) : Option (Nat × Extent) :=
  (t.current.zipIdx.find? (fun x => !bit x.1.flags.toNat 0 && isFar x.1.base.toNat == toNear)).map (fun x => (x.2, x.1))

/-- The read of an extent that a migration meets an uncorrectable line in: the line the window found there, or one on a failed
channel (R348, R349, R352). -/
def badSource (s : State) (e : Extent) (n : Nat) (found : List (W64 × AccessResult)) : Option (Nat × AccessResult) :=
  match found.find? (fun x => decide (e.base.toNat ≤ x.1.toNat ∧ x.1.toNat < e.base.toNat + n) && !(judgeRead x.1.toNat 64 x.2 {} s).1) with
  | some (a, r) => some (a.toNat, r)
  | none => (failedLine s e.base.toNat n).map (fun b => (b, .ok))

/-- Copy the next `n` bytes of the load in front from the host into its far slot (R303, R319). -/
def loadBytes (p : PartId) (o : UpOp) (n : Nat) (s : State) : State :=
  match versionAt (s.part p) o.variant o.version with
  | none => s
  | some w => match slotRun s p w.slot with
    | none => s
    | some (a, _) => tierWrite (a + (w.bytes - o.left)) (rdBytes s.mem.host (w.src.toNat + (w.bytes - o.left)) n) s

/-- A load that cannot go on ends: its version holds no slot (R319, R339). -/
def dropLoad (p : PartId) (o : UpOp) (s : State) : State :=
  updPart p (fun x => { x with versions := mapIf (fun w => w.variant == o.variant && w.version == o.version) (fun w => { w with loading := false }) x.versions }) s

/-- Action 3 for a partition: the operation at the front. A VLOAD copies what the far budget allows (R319), and fails where its region is offline
(R339; log 188, DEDUCED); a MIGRATE moves one extent, an edit a tick, and with nothing left to move it ends (R201, R205, R303, R345). `found` are
the lines that the window's reads met. -/
def upkeepMigrate (found : List (W64 × AccessResult)) (p : PartId) (s : State) : State :=
  match (s.part p).upops with
  | [] => s
  | o :: rest =>
    let finish (failed : Bool) (s : State) : State :=
      let s := updPart p (fun x => { x with upops := rest }) s
      if o.silent then s else opDoneRec (fid o.func) o.reqid failed s
    if o.vload then
      if slotsOffline s p then finish true (dropLoad p o s)
      else
        let n := Nat.min o.left ((s.part p).budgets[2]).counter
        let s := loadBytes p o n s
        (charge p [(bFAR, n)] (updPart p (fun x => { x with upops := { o with left := o.left - n } :: rest }) s)).2
    else
      match (sessionOf (s.part p) o.session).bind (fun z => xtAt (s.part p) z.xtab) with
      | none => finish true s
      | some t => match nextMove t o.toNear with
        | none => finish false s
        | some (i, e) =>
          if t.editTick = some s.tick.now then s
          else
            let n := e.len.toNat * t.gbytes
            let (ok, s) := charge p [(bNEAR, n), (bFAR, n)] s
            if !ok then s
            else match badSource s e n found with
            | some (a, r) => finish true (judgeRead a 64 r { found := 4, part := p.1 } s).2
            | none => match migrateExtent p t i e o.toNear s with
              | none => finish true s
              | some s => s

/-- The request number of a partition's operation in front. -/
def opSeq (s : State) (p : PartId) : Nat := ((s.part p).upops.head?.map UpOp.seq).getD 0

/-- Insert a partition by the request order of its operation. -/
def insertOp (s : State) (p : PartId) : List PartId → List PartId
  | [] => [p]
  | q :: l => if opSeq s p ≤ opSeq s q then p :: q :: l else q :: insertOp s p l

/-- The partitions in the request order of their operations (R345). -/
def opOrder (s : State) : List PartId :=
  (allParts.filter (fun p => !(s.part p).upops.isEmpty)).foldr (insertOp s) []

/-! ### Owner copies (R343) -/

def memCpgo : Nat := 0xA0118

/-- The address of a copy's module side is in its tier and aligned; a host address only needs its alignment. -/
def copyAddrOk (s : State) (host : Bool) (a len : Nat) : Bool :=
  a % 64 == 0 && (host || (addrValid s a && addrValid s (a + len - 1)))

/-- A run of module addresses meets the Aghorn region (R329). -/
def inAghorn (s : State) (a len : Nat) : Bool := !isFar a && decide (aghornBase s < a + len)

/-- Why a copy is rejected, in the order of the reasons (R343). -/
def copyReason (s : State) (c : Copy) : Option Nat :=
  let side (host : Bool) (a : W64) (t : Nat → Nat → Bool) : Bool := !host && t a.toNat c.len
  if 17 ≤ s.mem.cpQueue.length then some 1
  else if c.srcHost && c.dstHost then some 2
  else if c.len = 0 ∨ c.len % 64 ≠ 0 ∨ !copyAddrOk s c.srcHost c.src.toNat c.len ∨ !copyAddrOk s c.dstHost c.dst.toNat c.len then some 3
  else if side c.srcHost c.src (inAghorn s) || side c.dstHost c.dst (inAghorn s) then some 4
  else if side c.srcHost c.src (fun a n => runOffline s a n || runFailed s a n)
    || side c.dstHost c.dst (fun a n => runOffline s a n || runFailed s a n) then some 5
  else none

def copyError (k : Nat) (s : State) : State := updMem (fun m => { m with cpErr := true, cpReason := k }) s

/-- MEM_CPGO (R343): the copy that the registers give is queued, or rejected with its reason. -/
def execMemCpgo (m : Master) (srcHost dstHost : Bool) (s : State) : Res :=
  .next (if !arrives s m then s
    else if !isOwner s m then copyError 7 (ignoreWrite m memCpgo 1 s)
    else
      let c : Copy := { src := s.mem.cpSrc, dst := s.mem.cpDst, len := s.mem.cpLen.toNat, srcHost, dstHost }
      match copyReason s c with
      | some k => copyError k s
      | none => updMem (fun x => { x with cpQueue := x.cpQueue ++ [{ c with seq := x.opCount }], opCount := x.opCount + 1 }) s)

/-- Move a copy's bytes from `c.moved` to `n`. -/
def copyTo (c : Copy) (n : Nat) (s : State) : State :=
  let k := n - c.moved
  let src := c.src.toNat + c.moved
  let l := if c.srcHost then rdBytes s.mem.host src k else tierRead s src k
  if c.dstHost then hostWrite (c.dst.toNat + c.moved) l s else tierWrite (c.dst.toNat + c.moved) l s

/-- A line that an access meets is bad: uncorrectable, or given up by its CRC (R333, R334). -/
def lineBad (s : State) (a : Nat) (r : AccessResult) : Bool := !(judgeRead a 64 r {} s).1

/-- Lines of a copy before its first bad source line: the one given, or one on a channel that has failed (R343, R352). -/
def goodLines (s : State) (c : Copy) (errLine : Option (W64 × AccessResult)) : Nat :=
  let given := match errLine with
    | some (a, r) => if !c.srcHost ∧ c.src.toNat ≤ a.toNat ∧ a.toNat < c.src.toNat + c.len ∧ lineBad s a.toNat r then (a.toNat - c.src.toNat) / 64 else c.len / 64
    | none => c.len / 64
  if c.srcHost then given
  else ((List.range given).find? (fun i => lineBad s (c.src.toNat + 64 * i) .ok)).getD given

/-- A partition is loading, running or draining (R343). -/
def partsActive (s : State) : Bool := !allPartsIn s (fun x => decide (x = PState.unconfigured ∨ x = PState.halted))

/-- Charge D for a copy's module traffic while a partition is active (R343, R363). -/
def copyCharge (c : Copy) (n : Nat) (s : State) : State :=
  if !partsActive s then s
  else
    let one (host : Bool) (a : W64) : State → State := whenS (!host) (chargeD (if isFar a.toNat then 2 else 1) n)
    one c.dstHost c.dst (one c.srcHost c.src s)

/-- OWNER_COPY_COMPLETE (R343): the copy in front ends, or stops at an uncorrectable source line with the lines before it written;
PF0's vector 2 is signalled. While a partition is active it ends once the upkeep windows have moved it that far. -/
def execOwnerCopyComplete (errLine : Option (W64 × AccessResult)) (s : State) : Res :=
  .next (match s.mem.cpQueue with
    | [] => s
    | c :: rest =>
      let n := 64 * goodLines s c errLine
      if !memOn s || (partsActive s && decide (c.moved < n)) then s
      else
        let s := copyTo c n s
        let s := updMem (fun m => { m with cpQueue := rest }) s
        let s := if n = c.len then updMem (fun m => { m with cpDone := m.cpDone + 1 }) s
          else copyError 6 (judgeRead (c.src.toNat + n) 64 ((errLine.map Prod.snd).getD .ok) { found := 4 } s).2
        vecEvent 0 2 s)

/-! ### Action 3 (R343, R345) -/

/-- A copy touches a memory port (R343). -/
def copyTouches (s : State) (c : Copy) (port : Nat) : Bool :=
  (!c.srcHost && (portsOf s c.src.toNat c.len).contains port) || (!c.dstHost && (portsOf s c.dst.toNat c.len).contains port)

/-- The copy in front goes on in a window: by how many lines the window's remainder lets it is a free value, up to its first bad line (R343, R345;
log 184, DESIGN CHOICE). -/
def upkeepCopy (port : Nat) (found : List (W64 × AccessResult)) (s : State) : State :=
  match s.mem.cpQueue with
  | [] => s
  | c :: rest =>
    if !partsActive s || !copyTouches s c port then s
    else
      let (v, s) := takeFree s
      let bad := found.find? (fun x => !c.srcHost && decide (c.src.toNat ≤ x.1.toNat ∧ x.1.toNat < c.src.toNat + c.len) && lineBad s x.1.toNat x.2)
      let n := 64 * goodLines s c bad
      let n := c.moved + 64 * (v.toNat % ((n - c.moved) / 64 + 1))
      copyCharge c (n - c.moved) (updMem (fun m => { m with cpQueue := { c with moved := n } :: rest }) (copyTo c n s))

/-- Action 3 of a window: migrations, operations and owner copies in request order (R343, R345). -/
def upkeepMoves (port : Nat) (found : List (W64 × AccessResult)) (s : State) : State :=
  let first := (s.mem.cpQueue.head?.map Copy.seq).getD 0
  let (front, back) := (opOrder s).partition (fun p => decide (opSeq s p < first))
  forAll back (upkeepMigrate found) (upkeepCopy port found (forAll front (upkeepMigrate found) s))

/-- UPKEEP_WINDOW (R344, R345): the port's window of the loaded image, once in a tick and within its phases, with its actions in order. Deferred
tests have commands of their own. -/
def execUpkeepWindow (port : Fin 5) (retrainOk : Bool) (scrub : List (W64 × AccessResult)) (s : State) : Res :=
  .next (match s.img.dev.upkeep.find? (fun u => u.1 == port.1) with
    | none => s
    | some (_, start, len, sb, rtp) =>
      if !memOn s || decide (s.tick.phase < start ∨ start + len ≤ s.tick.phase) || s.mem.winTick[port.1]'port.2 == some s.tick.now then s
      else
        let s := updMem (fun m => { m with winTick := m.winTick.set port.1 (some s.tick.now) port.2 }) s
        let s := whenS (port.1 == 0) (upkeepRetrain rtp retrainOk) s
        upkeepMoves port.1 scrub (upkeepScrub port sb scrub s))

/-! ### Reload marks (R349, R479) -/

/-- Regions of a mark register that a write names. -/
def namedMarks (i : BitVec 6) (v : W64) (l : List Nat) : List Nat := l.filter (fun r => r / 64 == i.toNat && v.getLsbD (r % 64))

/-- The named marks clear, but for a region whose line reads back uncorrectable: the read is handled by its owner class, which
marks the region again (R349). -/
def clearMarks (far : Bool) (i : BitVec 6) (v : W64) (again : List Nat) (s : State) : State :=
  let marks := if far then s.mem.freload else s.mem.reload
  let named := namedMarks i v marks
  let left := marks.filter (fun r => !named.contains r)
  let s := updMem (fun m => if far then { m with freload := left } else { m with reload := left }) s
  let bad := again.filter (fun a => isFar a == far && s.mem.regions.any (fun r => inRegion r a && named.contains r.idx))
  forAll bad (fun a s => (judgeRead a 64 (.uncorrectable 1) { found := 2 } s).2) s

/-- MEM_RELOAD (R349, R479): a W1C write of the owner; `again` are the lines that read back uncorrectable. -/
def execMemReload (m : Master) (i : BitVec 6) (bits : W64) (again : List Nat) (s : State) : Res :=
  .next (ownerOnly m (0xA0200 + 8 * i.toNat) (clearMarks false i bits again) s)

/-- MEM_FRELOAD (R349, R479). -/
def execMemFreload (m : Master) (i : BitVec 6) (bits : W64) (again : List Nat) (s : State) : Res :=
  .next (ownerOnly m (0xA0400 + 8 * i.toNat) (clearMarks true i bits again) s)

/-! ### BAR4 (R370, R464) -/

/-- Find an offset in concatenated windows (R370): the address and whether it may be written. -/
def windowAt : List (W64 × Nat × Nat) → Nat → Option (Nat × Bool)
  | [], _ => none
  | (b, n, attr) :: r, o => if o < n then some (b.toNat + o, attr == 2) else windowAt r (o - n)

/-- What a function's BAR4 offset reaches: near memory whole for PF0, its partition's near windows for a VF (R370, R464). -/
def bar4At (s : State) (f : FuncId) (o : Nat) : Option (Nat × Bool) :=
  if f.1 = 0 then (if o < nearCap s then some (o, true) else none)
  else
    let p := pid (f.1 - 1)
    match (s.part p).section_ with
    | none => none
    | some cfg => if (s.part p).state = PState.unconfigured then none
      else windowAt (cfg.windows.filter (fun w => !isFar w.1.toNat)) o

/-- The addresses of an access, none where a byte of it reaches nothing. -/
def bar4Run (s : State) (f : FuncId) (o : Nat) : Nat → Option (List (Nat × Bool))
  | 0 => some []
  | n + 1 => match bar4At s f o, bar4Run s f (o + 1) n with
    | some a, some l => some (a :: l)
    | _, _ => none

/-- Where the log and the trace lie in the Aghorn region is not stated: its bytes are free values (R329; log 46, DESIGN CHOICE). -/
def bar4Byte (s : State) (a : Nat) : Byte :=
  if aghornBase s ≤ a then BitVec.truncate 8 (Config.free (s.freeCtr + a)) else rd8 s.mem.near a

/-- BAR4_READ (R349, R370, R464): data, a poisoned completion, or Unsupported Request. -/
def execBar4Read (f : FuncId) (off : W64) (n : Nat) (r : AccessResult) (s : State) : Res :=
  .next (match bar4Run s f off.toNat n with
    | none => emit (.unsupported f.1) s
    | some l =>
      if !memOn s then emit (.unsupported f.1) s
      else
        let (ok, s) := judgeRead ((l.headD (0, false)).1) n r { found := 3 } (chargeD 1 n s)
        if ok && !l.any (fun a => onFailed s a.1) then emit (.bar4 f.1 (l.map (fun a => bar4Byte s a.1)) false) s
        else emit (.bar4 f.1 [] true) s)

/-- BAR4_WRITE (R334, R370, R464): dropped and counted beyond the space, in an RO window, and from PF0 where PF0 is not the owner. A write
whose burst fails its CRC a fifth time is recorded, and with ECC on its data is lost (log 146, DESIGN CHOICE). -/
def execBar4Write (f : FuncId) (off : W64) (w : HostBytes) (s : State) : Res :=
  let data := w.bytes
  let m : Master := if f.1 = 0 then .pf0 else .vf f
  .next (if f.1 = 0 ∧ !isOwner s .pf0 then ignoreWrite m off.toNat 1 s
    else match bar4Run s f off.toNat data.length with
      | none => ignoreWrite m off.toNat 2 s
      | some l =>
        if !memOn s || !l.all (fun a => a.2) then ignoreWrite m off.toNat 2 s
        else
          let s := chargeD 1 data.length s
          let a := (l.headD (0, false)).1
          let (ok, s) := if crcFails w.access a then judgeRead a data.length w.access { found := 3 } s else (true, s)
          if ok then forAll (l.zip data) (fun x s => tierWrite x.1.1 [x.2] s) s else s)

end Sys2Proof.Machine
end

