-- ==== Sys2Proof/Machine/Images.lean ====
section
/-! DEFINITION. What a configuration image says: fields of its records, and the settings that its sections give (R384-R392). -/

namespace Sys2Proof.Machine

/-! ### Records (R384) -/

/-- A field of a record, by its offset from the start of the record (R384). -/
def ifld (r : ImgRecord) (o n : Nat) : Nat := fieldLE r.bytes (o - 8) n

/-- The bytes of a record from an offset on. -/
def itail (r : ImgRecord) (o : Nat) : List Byte := r.bytes.drop (o - 8)

def recsOf (x : ImgSection) (rt : Nat) : List ImgRecord := x.records.filter (fun r => r.rtype.toNat == rt)
def rec0 (x : ImgSection) (rt : Nat) : ImgRecord := ((recsOf x rt).head?).getD default
def secsOf (i : Image) (st : Nat) : List ImgSection := i.sections.filter (fun x => x.stype.toNat == st)
def sec1 (i : Image) (st : Nat) : ImgSection := ((secsOf i st).head?).getD default
def partSec (i : Image) (p : Nat) : Option ImgSection := (secsOf i 5).find? (fun x => x.sindex.toNat == p)

/-- Digest of a section: of everything its records hold (log 5, DESIGN CHOICE). -/
def secDigest (x : ImgSection) : Nat :=
  Config.sha3 (x.stype.toNat :: x.sindex.toNat :: x.records.flatMap (fun r => r.rtype.toNat :: r.rindex.toNat :: r.rlen.toNat :: r.bytes.map BitVec.toNat))

/-- Set bits of an n-byte core set (R389). -/
def coreSet (v : Nat) : List Nat := (List.range 128).filter (fun i => bit v i)

/-! ### DEVICE, MEMMAP, MODEL, DOMAINS (R385-R388) -/

def devCfgOf (i : Image) : DevCfg :=
  let d := sec1 i 1
  let t := rec0 d 1
  let f := rec0 d 5
  { relay := ifld t 16 1, feclim := ifld t 20 4, autostart := BitVec.ofNat 64 (ifld t 24 8)
    upkeep := (recsOf d 2).map (fun r => (r.rindex.toNat, ifld r 8 2, ifld r 10 2, ifld r 12 4, ifld r 16 2))
    axes := (List.range 3).map (fun a => match (recsOf d 3).find? (fun r => r.rindex.toNat == a) with
      | some r => (ifld r 8 4, decide (ifld r 12 1 = 1), ifld r 14 2)
      | none => (1, false, 0))
    exports := (List.range 2).map (fun e => match (recsOf d 4).find? (fun r => r.rindex.toNat == e) with
      | some r => (ifld r 8 1, ifld r 9 1, ifld r 10 2, ifld r 12 2, ifld r 14 2)
      | none => (0, 0, 0, 0, 0))
    tag := BitVec.ofNat 64 (ifld f 8 8), awsplit := ifld f 16 1
    eth := (recsOf d 6).map (fun r => { port := 6 + r.rindex.toNat, mac := ifld r 8 6, ipver := ifld r 14 1, dscp := ifld r 15 1, ip := (itail r 16).take 16
                                        vlan := ifld r 32 2, pfcPrio := ifld r 34 1, ecn := decide (ifld r 35 1 = 1), factor := ifld r 36 1,
                                        regain := ifld r 37 1, retries := ifld r 38 1, timeout := ifld r 40 4 })
    vslots := (recsOf (sec1 i 2) 3).map (fun r => (r.rindex.toNat, ifld r 8 8, ifld r 16 2, ifld r 18 2)) }

/-- Tick period, trace bytes and ECC setting of the TICK record (R385). -/
def tickRec (i : Image) : ImgRecord := rec0 (sec1 i 1) 1
def eccOf (i : Image) : Bool := decide (ifld (tickRec i) 17 1 = 1)

/-- Budgets of a BUDGET or DBUDGET record, in the order of R363 (R385, R389). -/
def budgetsOf (r : ImgRecord) : List Nat := (List.range 7).map (fun i => ifld r (8 + 8 * i) 8)

def regionsOf (i : Image) : List Region :=
  let m := sec1 i 2
  (recsOf m 1).map (fun r => { idx := r.rindex.toNat, base := ifld r 8 8, size := ifld r 16 8, cls := ifld r 24 1, part := ifld r 25 1, key := ifld r 26 2 })
  ++ (recsOf m 2).map (fun r => { idx := r.rindex.toNat, far := true, base := ifld r 8 8, size := ifld r 16 8, cls := ifld r 29 1, part := ifld r 30 1
                                  key := ifld r 40 2, ports := (List.range (ifld r 24 1)).map (fun k => ifld r (25 + k) 1), pbase := ifld r 32 8 })

/-- 8-byte entries of a record's tail. -/
def words8 (l : List Byte) : List Nat := (List.range (l.length / 8)).map (fun k => fieldLE l (8 * k) 8)

def modelOf (x : ImgSection) : ModelCfg :=
  let m := rec0 x 1
  { idx := x.sindex.toNat, layers := ifld m 8 2, qheads := ifld m 10 2, heads := ifld m 12 2, width := ifld m 14 2
    form := if ifld m 20 1 = 2 then 0x11 else 0x10, layout := ifld m 21 1, axis := ifld m 22 1, group := ifld m 23 1, chunk := ifld m 24 4
    ropeLen := ifld m 28 4, maxLen := ifld m 32 4, meanVar := bit (ifld m 36 1) 0, ropeAt := ifld m 40 8
    attn := (words8 (itail (rec0 x 3) 8)).map (fun v => (bits v 15 0, bits v 20 16, bits v 25 21, bits v 26 26))
    keepers := (let l := itail (rec0 x 4) 8
      (List.range (l.length / 24)).map (fun k => (fieldLE l (24 * k) 2, fieldLE l (24 * k + 2) 2, fieldLE l (24 * k + 4) 2
        , (List.range (fieldLE l (24 * k + 6) 1)).map (fun j => fieldLE l (24 * k + 8 + 2 * j) 2))))
    digest := secDigest x }

/-- Policy entries of a MODEL section: (model, layer, policy, threshold, allowance) (R103, R387). -/
def policiesOf (x : ImgSection) : List (Nat × Nat × Nat × Nat × Nat) :=
  (words8 (itail (rec0 x 2) 8)).map (fun v => (x.sindex.toNat, bits v 15 0, bits v 17 16, bits v 31 18, bits v 40 32))

def domainsOf (i : Image) : List Domain :=
  (recsOf (sec1 i 4) 1).map (fun r => { id := r.rindex.toNat, label := BitVec.ofNat 64 (ifld r 8 8), seed := BitVec.ofNat 64 (ifld r 16 8)
                                        parts := BitVec.ofNat 64 (ifld r 24 8), log2 := ifld r 32 1, pool := ifld r 36 4, region := ifld r 40 2 })

/-! ### PARTITION (R389-R391) -/

def shapeRec (x : ImgSection) (r : ImgRecord) : Shape :=
  let l := (((recsOf x 0x10).find? (fun t => t.rindex == r.rindex)).map (fun t => itail t 8)).getD []
  { idx := r.rindex.toNat, rows := ifld r 8 4, area := ifld r 16 8, dur := ifld r 24 4
    consts := (List.range 54).map (fun k => BitVec.ofNat 64 (ifld r (40 + 8 * k) 8))
    ckpts := (List.range (ifld r 28 4)).map (fun k =>
      let o := 24 * k
      { idx := fieldLE l o 2, kind := fieldLE l (o + 2) 1, earlyOk := bit (fieldLE l (o + 3) 1) 0, onStep := bit (fieldLE l (o + 3) 1) 1
        core := fieldLE l (o + 4) 2, unit := fieldLE l (o + 6) 1, latest := fieldLE l (o + 8) 6, earliest := fieldLE l (o + 14) 6
        aux := fieldLE l (o + 20) 2, step := fieldLE l (o + 22) 2 }) }

/-- A triggered-operation descriptor (R285). -/
def trigOpOf (port : Nat) (l : List Byte) : TrigOp :=
  { op := fieldLE l 0 1, tc := fieldLE l 1 1, cc := fieldLE l 2 1, ccOk := bit (fieldLE l 3 1) 0, held := bit (fieldLE l 3 1) 1
    thresh := fieldLE l 4 4, reps := fieldLE l 8 2, tinc := fieldLE l 10 2, port := if fieldLE l 12 1 < 8 then fieldLE l 12 1 else port
    dlist := fieldLE l 13 1, step := fieldLE l 14 2, loc := fieldLE l 16 4, lnd := fieldLE l 20 4, plen := fieldLE l 24 2, lstr := fieldLE l 26 2
    nstr := fieldLE l 28 2 }

/-- This device's address under a fabric setting (R267). -/
def addrIn (d : DevCfg) : DevAddr :=
  let c (a : Nat) : W16 := BitVec.ofNat 16 (d.axes.getD a (1, false, 0)).2.2
  { x := c 0, y := c 1, z := c 2, level := 0 }

def memberAt (l : List Byte) (k : Nat) : DevAddr :=
  { x := BitVec.ofNat 16 (fieldLE l (8 * k) 2), y := BitVec.ofNat 16 (fieldLE l (8 * k + 2) 2), z := BitVec.ofNat 16 (fieldLE l (8 * k + 4) 2)
    level := BitVec.ofNat 8 (fieldLE l (8 * k + 6) 1) }

/-- A group's declaration (R279, R389); its check is a function of the declaration (R280; log 48, DESIGN CHOICE). -/
def groupRec (d : DevCfg) (r : ImgRecord) : Group :=
  let ms := (List.range (ifld r 8 1)).map (memberAt (itail r 56))
  { gid := r.rindex.toNat, members := ms, self := (ms.findIdx? (fun m => decide (m = addrIn d))).getD 0xFF, axes := ifld r 9 1
    tree := bit (ifld r 10 1) 0, gateway := ifld r 11 1, piece := ifld r 12 4, credit0 := ifld r 16 2
    bufs := (List.range 8).map (fun k => (ifld r (20 + 4 * k) 2, ifld r (22 + 4 * k) 2))
    check := BitVec.ofNat 32 (Config.sha3 (r.bytes.map BitVec.toNat)) }

/-- A partition's configuration from its section (R389-R391). -/
def pcfgOf (d : DevCfg) (x : ImgSection) : PCfg :=
  let c := rec0 x 1
  let cost := rec0 x 0x11
  let sh := rec0 x 7
  { cores := coreSet (ifld c 8 16), ftt := ifld c 24 1, span := ifld c 25 1
    lead := { x := BitVec.ofNat 16 (ifld c 26 2), y := BitVec.ofNat 16 (ifld c 28 2), z := BitVec.ofNat 16 (ifld c 30 2), level := 0 }
    windows := (recsOf x 5).map (fun r => (BitVec.ofNat 64 (ifld r 8 8), ifld r 16 8, ifld r 24 1))
    shares := (ifld sh 8 1, ifld sh 9 1, ifld sh 10 1), seed := BitVec.ofNat 64 (ifld (rec0 x 9) 8 8)
    nests := (recsOf x 0xA).map (fun r => (List.range (ifld r 8 1)).map (fun k => ifld r (9 + k) 1))
    dlists := (recsOf x 0xD).map (fun r => (r.rindex.toNat, coreSet (ifld r 8 16), BitVec.ofNat 64 (ifld r 24 8)))
    exchOff := ifld (rec0 x 0xE) 8 4
    exch := (recsOf x 0xE).map (fun r => (r.rindex.toNat, (List.range (ifld r 12 2)).map (fun k => trigOpOf r.rindex.toNat ((itail r 16).drop (32 * k)))))
    shapes := (recsOf x 0xF).map (shapeRec x)
    wstok := (List.range (ifld cost 22 2)).map (fun k => (ifld cost (24 + 16 * k) 2, ifld cost (28 + 16 * k) 4))
    farlat := ifld cost 16 4, costWidth := ifld cost 20 1, costRate := ifld cost 21 1
    rails := (recsOf x 0xB).map (fun r => resetRail { idx := r.rindex.toNat, producer := ifld r 8 1, consumer := ifld r 9 1
                                                      image := (List.range 16).map (fun k => BitVec.ofNat 64 (ifld r (16 + 8 * k) 8)) })
    groups := (recsOf x 0xC).map (groupRec d)
    simmer := (List.range 8).map (fun g => match (recsOf x 8).find? (fun r => r.rindex.toNat == g) with
      | some r => (ifld r 8 4, ifld r 12 4)
      | none => (0, 0))
    budgets := budgetsOf (rec0 x 6)
    progs := (recsOf x 2).map (fun r => (r.rindex.toNat, ifld r 8 4, itail r 16))
    dstores := (recsOf x 3).map (fun r => (r.rindex.toNat, itail r 8))
    digest := secDigest x }

/-- A parameter of the FIRMWARE section, or its default (R392). -/
def paramOf (i : Image) (id n dflt : Nat) : Nat :=
  match (recsOf (sec1 i 8) 1).find? (fun r => r.rindex.toNat == id) with
  | some r => ifld r 8 n
  | none => dflt

/-! ### Feasibility of budgets (R366, R367) -/

/-- Clock of a code in tenths of a clock per ns: 1.2 + 0.1k GHz (R437). -/
def clock10 (k : Nat) : Nat := 12 + k

/-- Upkeep window length of a port, in phase units. -/
def upkeepLen (d : DevCfg) (port : Nat) : Nat := ((d.upkeep.find? (fun u => u.1 == port)).map (fun u => u.2.2.1)).getD 0

/-- Data bytes that near memory moves in a tick outside its window: 2,409 GB/s (R332, R366). -/
def nearLimit (d : DevCfg) (period : Nat) : Nat := 2409 * period * (65536 - upkeepLen d 0) / 65536

/-- The same for far memory: 121 GB/s on each of four ports, outside its own window (R366; log 49, DEDUCED). -/
def farLimit (d : DevCfg) (period : Nat) : Nat :=
  ((List.range 4).map (fun i => 121 * period * (65536 - upkeepLen d (i + 1)) / 65536)).sum

/-- 3,000 W over a tick, in 1/1,024 uJ (R36, R366). -/
def energyLimit (period : Nat) : Nat := 3 * period * 1024

/-- Engine clocks of a partition in a tick: (L + V) times FTT times the period (R366). -/
def engClocks (disabled : List Nat) (cfg : PCfg) (period : Nat) : Nat :=
  let l := (cfg.cores.map (fun c => (List.range 4).countP (fun e => !disabled.contains (4 * c + e)))).sum
  (l + cfg.cores.length) * clock10 cfg.ftt * period / 10

/-- The upkeep windows that a timetable is built for (R344). -/
def upkeepList (d : DevCfg) : List Nat := d.upkeep.flatMap (fun (port, start, len, _, _) => [port, start, len])

/-- A partition's budgets against its own limits (R344, R354, R366): engine clocks, largest charges, timetable. -/
def ownBudgetsFit (d : DevCfg) (disabled : List Nat) (cfg : PCfg) (p period : Nat) (b : List Nat) : Bool :=
  decide (b.getD 0 0 ≤ engClocks disabled cfg period)
  && (List.range 7).all (fun i => decide (Config.largestCharge cfg.digest i ≤ b.getD i 0))
  && Config.timetableFits cfg.digest p (disabled ++ [period] ++ upkeepList d ++ b)

/-- The sums of several budget sets against the shared limits (R366). -/
def sumsFit (d : DevCfg) (period : Nat) (bs : List (List Nat)) : Bool :=
  let total (i : Nat) : Nat := (bs.map (fun b => b.getD i 0)).sum
  decide (total 1 ≤ nearLimit d period ∧ total 2 ≤ farLimit d period ∧ total 6 ≤ energyLimit period)

/-- Budgets that will be in force: the one that waits for its boundary counts (R366). -/
def dueBudget (b : Budget) : Nat := (b.pending.map Prod.fst).getD b.inForce
def dueBudgets (v : Vector Budget 7) : List Nat := v.toList.map dueBudget

/-- Budgets of D and of every partition that is not unconfigured, but for one (R366). -/
def otherBudgets (s : State) (p : PartId) : List (List Nat) :=
  dueBudgets s.tick.dacct :: (allParts.filter (fun q => decide (q ≠ p) && decide ((s.part q).state ≠ PState.unconfigured))).map (fun q => dueBudgets (s.part q).budgets)

/-- A budget set just taken from a section or D's record. -/
def freshBudgets (l : List Nat) : Vector Budget 7 :=
  Vector.ofFn (fun i => { written := l.getD i.1 0, inForce := l.getD i.1 0, counter := 0 })

end Sys2Proof.Machine
end

