-- ==== Sys2Proof/Machine/Lines.lean ====
section
/-! DEFINITION. The lines of a program store: the command that a tile line or a scalar parcel spells, and the image loader's static check
of a program section (R243, R245, R251, R254, R256-R258, R260). -/

namespace Sys2Proof.Machine

/-- The s register that six bits of a line name. -/
def lineS (v lo : Nat) : SReg := Fin.ofNat 64 (bits v (lo + 5) lo)

/-- The common header, bits [127:96] (R245): none where WAITU is 5 or 6. -/
def lineHdr (v : Nat) : Option TileHdr :=
  let w := bits v 119 117
  let h (u : Option (Fin 5)) : TileHdr :=
    { pred := Fin.ofNat 8 (bits v 123 121), pneg := bit v 120, waitu := u, waits := lineS v 111, ckpt := BitVec.ofNat 15 (bits v 110 96) }
  if w = 7 then some (h none) else if w ≤ 4 then some (h (some (Fin.ofNat 5 w))) else none

/-- The MM and CX body, bits [95:9] (R251). -/
def lineMM (v : Nat) : MMBody :=
  { eng := Fin.ofNat 4 (bits v 95 94), half := bit v 93, acc := bit v 92, af := BitVec.ofNat 5 (bits v 91 87), wf := BitVec.ofNat 5 (bits v 86 82)
    qsrc := BitVec.ofNat 2 (bits v 81 80), mode := BitVec.ofNat 3 (bits v 79 77), sr := bit v 76, whisk := bit v 75, keep := bit v 74
    score := bit v 73, aslot := bit v 72, mrows := BitVec.ofNat 7 (bits v 71 65), npass := BitVec.ofNat 8 (bits v 64 57)
    sa := lineS v 51, sw := lineS v 45, sx := lineS v 39, sch := lineS v 33, tag := BitVec.ofNat 24 (bits v 32 9) }

/-- The VX body, bits [90:34] (R254). -/
def lineVX (v : Nat) : VXBody :=
  { nm1 := BitVec.ofNat 14 (bits v 90 77), slot := Fin.ofNat 16 (bits v 76 73), sd := lineS v 67, sb := lineS v 61, bind := bit v 60
    beng := Fin.ofNat 4 (bits v 59 58), se := lineS v 52, sop := BitVec.ofNat 3 (bits v 51 49), sel := bit v 48, rm1 := BitVec.ofNat 14 (bits v 47 34) }

/-- The TR body, bits [93:78] (R257). -/
def lineTR (v : Nat) : TRBody :=
  { rail := BitVec.ofNat 10 (bits v 93 84), h := Fin.ofNat 16 (bits v 83 80), last := bit v 79, empty := bit v 78 }

/-- The vector command of an OP (R254): the others are illegal. -/
def vxInstr (c : CoreId) (h : TileHdr) (b : VXBody) : Nat → Option Instr
  | 0 => some (.recipe c h b)
  | 1 => some (.scan c h b)
  | 2 => some (.perm c h b)
  | 3 => some (.norm c h b)
  | 4 => some (.reduce c h b)
  | 5 => some (.smerge c h b)
  | 6 => some (.park c h b)
  | 7 => some (.restore c h b)
  | 8 => some (.rload c h b)
  | 9 => some (.tload c h b)
  | _ => none

/-- The scoop command of an OP (R256): 2 and 3 are illegal. -/
def scInstr (c : CoreId) (h : TileHdr) (v : Nat) : Nat → Option Instr
  | 0 => if bits v 68 0 = 0 then some (.arm c h (BitVec.ofNat 3 (bits v 93 91)) (BitVec.ofNat 16 (bits v 90 75)) (lineS v 69)) else none
  | 1 => if bits v 87 0 = 0 then some (.fill c h (lineS v 88)) else none
  | _ => none

/-- The tray command of an OP (R257). -/
def trInstr (c : CoreId) (h : TileHdr) (b : TRBody) : Nat → Option Instr
  | 0 => some (.put c h b)
  | 1 => some (.take c h b)
  | 2 => some (.return_ c h b)
  | _ => some (.free c h b)

/-- The command that a tile line spells (R245, R251, R254, R256-R258): none for a reserved CLASS, OP or WAITU, or where a reserved bit is
set. -/
def tileInstr (c : CoreId) (v : Nat) : Option Instr :=
  match lineHdr v with
  | none => none
  | some h =>
    match bits v 127 124 with
    | 1 => if bits v 8 0 = 0 then some (.mm c h (lineMM v)) else none
    | 2 => if bits v 33 0 = 0 then vxInstr c h (lineVX v) (bits v 95 91) else none
    | 3 => scInstr c h v (bits v 95 94)
    | 4 => if bits v 77 0 = 0 then trInstr c h (lineTR v) (bits v 95 94) else none
    | 5 => if bits v 79 0 = 0 then some (.bl c h (BitVec.ofNat 16 (bits v 95 80))) else none
    | 6 => some (.cx c h (lineMM v) (BitVec.ofNat 9 (bits v 8 0)))
    | _ => none

/-- The command of the one parcel whose word the spec gives: all ones is a NOP (R243; log 1, DESIGN CHOICE). -/
def parcelInstr (c : CoreId) (w : W32) : Option Instr := if w = 0xFFFFFFFF then some (.nop c) else none

/-- A line passes the loader's static checks: a scalar line has none, a tile line spells a well-formed command (R243, R260). -/
def lineOk (v : Nat) : Bool := bit v 127 || (tileInstr 0 v).any Instr.wellFormed

/-- Line `k` of a program section; NOP parcels fill its last one (R243, R389). -/
def lineAt (l : List Byte) (k : Nat) : Nat := leNat ((List.range 16).map (fun i => l.getD (16 * k + i) 0xFF))

/-- A program section passes the loader's static checks (R260). -/
def programOk (l : List Byte) : Bool := (List.range ((l.length + 15) / 16)).all (fun k => lineOk (lineAt l k))

end Sys2Proof.Machine
end

