-- ==== Sys2Proof/Machine/Verify.lean ====
section
/-! DEFINITION. Verification of an image in five ordered steps (R393), with the checks that its chapters name. -/

namespace Sys2Proof.Machine

/-- Why an image is refused: step, section type and index, and the model's number of the check within the step. -/
structure Bad where
  step   : Nat := 0
  stype  : Nat := 0
  sindex : Nat := 0
  check  : Nat := 0
deriving DecidableEq, Repr, Inhabited

/-- The first check that fails, numbered from `n`. -/
def firstBad (step st si : Nat) : Nat → List Bool → Option Bad
  | _, [] => none
  | n, ok :: r => if ok then firstBad step st si (n + 1) r else some { step, stype := st, sindex := si, check := n }

/-- The first that is there. -/
def orBad (a : Option Bad) (b : Option Bad) : Option Bad := match a with
  | some x => some x
  | none => b

/-- The code of a refusal (R393). -/
def badCode (b : Bad) : Byte := if b.step = 2 then 0x41 else if b.step = 4 then 0x43 else if b.step = 5 then 0x44 else 0x42

/-! ### Step 1: container (R382, R393) -/

def disjointFrom (x : ImgSection) (l : List ImgSection) : Bool :=
  l.all (fun y => decide (x.offset.toNat + x.length.toNat ≤ y.offset.toNat ∨ y.offset.toNat + y.length.toNat ≤ x.offset.toNat))

def allDisjoint : List ImgSection → Bool
  | [] => true
  | x :: r => disjointFrom x r && allDisjoint r

/-- A slot's commit record covers the image it holds (R380). -/
def slotFits (o : Option Slot) (i : Image) : Bool := match o with
  | none => true
  | some x => match x.commit with
    | some (_, n) => n == i.len.toNat
    | none => false

def checkContainer (i : Image) (kind : Nat) (slot : Option Slot) : Option Bad :=
  let len := i.len.toNat
  firstBad 1 0 0 1
    [ decide (i.magic = 0x0C901A6E), decide (i.format = 1), decide (i.kind.toNat = kind)
    , decide (4096 ≤ len ∧ len ≤ 67108864), decide (len ≤ i.available), slotFits slot i
    , decide (1 ≤ i.nsec.toNat ∧ i.nsec.toNat ≤ 256 ∧ i.nsec.toNat = i.sections.length)
    , i.sections.all (fun x => decide (x.offset.toNat % 64 = 0 ∧ 256 + 16 * i.nsec.toNat ≤ x.offset.toNat ∧ x.offset.toNat + x.length.toNat + 2420 ≤ len))
    , allDisjoint i.sections ]

/-! ### Step 2: signature (R393, R425) -/

/-- The provisioning record in use: the valid copy with the higher SGEN (R423). -/
def provInUse (s : State) : Option Prov :=
  let a := s.sec.prov0
  let b := s.sec.prov1
  if !s.sec.pufOk then none
  else if a.valid && (!b.valid || decide (b.sgen ≤ a.sgen)) then some a
  else if b.valid then some b else none

/-- Image keys admitted in the security state (R422, R425). -/
def admittedKeys (s : State) : List W32 := if s.sec.state = 0 then [1, 2] else ((provInUse s).map (fun r => r.keys)).getD []

def checkSignature (s : State) (i : Image) : Option Bad :=
  firstBad 2 0 0 1 [i.keyid != 0 && (admittedKeys s).contains i.keyid, i.sigOk]

/-! ### Step 3: record layouts (R384-R392) -/

/-- Named bytes of a record, as (offset, length), and the offset from which a variable tail is named. -/
def layoutOf (st rt : Nat) : Option (List (Nat × Nat) × Option Nat) :=
  match st, rt with
  | 1, 1 => some ([(8, 4), (12, 4), (16, 1), (17, 1), (20, 4), (24, 8)], none)
  | 1, 2 => some ([(8, 2), (10, 2), (12, 4), (16, 2)], none)
  | 1, 3 => some ([(8, 4), (12, 1), (14, 2)], none)
  | 1, 4 => some ([(8, 1), (9, 1), (10, 6)], none)
  | 1, 5 => some ([(8, 8), (16, 1)], none)
  | 1, 6 => some ([(8, 6), (14, 1), (15, 1), (16, 16), (32, 2), (34, 5), (40, 4)], none)
  | 1, 7 => some ([(8, 56)], none)
  | 2, 1 => some ([(8, 8), (16, 8), (24, 1), (25, 1), (26, 2)], none)
  | 2, 2 => some ([(8, 8), (16, 8), (24, 1), (25, 4), (29, 1), (30, 1), (32, 8), (40, 2)], none)
  | 2, 3 => some ([(8, 8), (16, 2), (18, 2)], none)
  | 3, 1 => some ([(8, 16), (24, 4), (28, 4), (32, 4), (36, 1), (40, 8)], none)
  | 3, 2 => some ([], some 8)
  | 3, 3 => some ([], some 8)
  | 3, 4 => some ([], some 8)
  | 4, 1 => some ([(8, 8), (16, 8), (24, 8), (32, 1), (36, 4), (40, 2)], none)
  | 5, 1 => some ([(8, 16), (24, 1), (25, 1), (26, 6)], none)
  | 5, 2 => some ([(8, 4)], some 16)
  | 5, 3 => some ([], some 8)
  | 5, 4 => some ([(8, 2), (10, 2), (12, 4), (16, 2), (18, 2)], some 24)
  | 5, 5 => some ([(8, 8), (16, 8), (24, 1)], none)
  | 5, 6 => some ([(8, 56)], none)
  | 5, 7 => some ([(8, 1), (9, 1), (10, 1)], none)
  | 5, 8 => some ([(8, 4), (12, 4)], none)
  | 5, 9 => some ([(8, 8)], none)
  | 5, 0xA => some ([(8, 1), (9, 8)], none)
  | 5, 0xB => some ([(8, 1), (9, 1)], some 16)
  | 5, 0xC => some ([(8, 1), (9, 1), (10, 1), (11, 1), (12, 4), (16, 2), (20, 32)], some 56)
  | 5, 0xD => some ([(8, 16), (24, 8)], none)
  | 5, 0xE => some ([(8, 4), (12, 2)], some 16)
  | 5, 0xF => some ([(8, 4), (16, 8), (24, 4), (28, 4), (40, 432)], none)
  | 5, 0x10 => some ([], some 8)
  | 5, 0x11 => some ([(8, 4), (12, 4), (16, 4), (20, 1), (21, 1), (22, 2)], some 24)
  | 6, 1 => some ([], some 8)
  | 7, 1 => some ([], some 8)
  | 8, 1 => some ([], some 8)
  | _, _ => none

/-- Highest index of a record type: none where the index is 0 (R385-R392). -/
def maxIndex (st rt : Nat) : Nat :=
  match st, rt with
  | 1, 2 => 4
  | 1, 3 => 2
  | 1, 4 => 1
  | 1, 6 => 1
  | 2, 1 => 4095
  | 2, 2 => 4095
  | 2, 3 => 63
  | 4, 1 => 1023
  | 5, 2 => 127
  | 5, 3 => 127
  | 5, 5 => 15
  | 5, 8 => 7
  | 5, 0xA => 65535
  | 5, 0xB => 1023
  | 5, 0xC => 255
  | 5, 0xD => 255
  | 5, 0xE => 7
  | 5, 0xF => 65535
  | 5, 0x10 => 65535
  | 6, 1 => 15
  | 7, 1 => 3
  | 8, 1 => 3
  | _, _ => 0

/-- RLEN fits the type's layout (R384-R392). -/
def lenFits (x : ImgSection) (r : ImgRecord) : Bool :=
  let n := r.rlen.toNat
  match x.stype.toNat, r.rtype.toNat with
  | 1, 1 => n == 32
  | 1, 2 => n == 24
  | 1, 3 => n == 16
  | 1, 4 => n == 16
  | 1, 5 => n == 24
  | 1, 6 => n == 48
  | 1, 7 => n == 64
  | 2, 1 => n == 32
  | 2, 2 => n == 48
  | 2, 3 => n == 24
  | 3, 1 => n == 48
  | 3, 3 => n == 8 + 8 * ifld (rec0 x 1) 8 2
  | 3, 4 => (n - 8) % 24 == 0
  | 4, 1 => n == 48
  | 5, 1 => n == 32
  | 5, 2 => decide (16 ≤ n ∧ n ≤ 16 + 131072)
  | 5, 3 => decide (n ≤ 8 + 131072)
  | 5, 4 => n == 24 + 8 * (ifld r 16 2 + ifld r 18 2)
  | 5, 5 => n == 32
  | 5, 6 => n == 64
  | 5, 7 => n == 16
  | 5, 8 => n == 16
  | 5, 9 => n == 16
  | 5, 0xA => n == 24
  | 5, 0xB => n == 144
  | 5, 0xC => n == 56 + 8 * ifld r 8 1
  | 5, 0xD => n == 32
  | 5, 0xE => n == 16 + 32 * ifld r 12 2
  | 5, 0xF => n == 472
  | 5, 0x10 => match (recsOf x 0xF).find? (fun h => h.rindex == r.rindex) with
    | some h => n == 8 + 24 * ifld h 28 4
    | none => false
  | 5, 0x11 => n == 24 + 16 * ifld r 22 2
  | 6, 1 => (n - 8) % 16 == 0 && decide (32 ≤ n - 8 ∧ n - 8 ≤ 16 + 64 * 16)
  | 7, 1 => decide (32 ≤ n - 8 ∧ n - 8 ≤ 6176)
  | 8, 1 => n == 16
  | _, _ => true

/-- Every byte that the layout does not name is 0 (R384). -/
def reservedZero (spans : List (Nat × Nat)) (tail : Option Nat) (r : ImgRecord) : Bool :=
  r.bytes.zipIdx.all (fun (b, k) => b == 0 || spans.any (fun (o, n) => decide (o ≤ k + 8 ∧ k + 8 < o + n)) || tail.any (fun t => decide (t ≤ k + 8)))

/-- A record type that the section defines, its index, its length and its reserved bytes (R384). -/
def recordOk (x : ImgSection) (r : ImgRecord) : Bool :=
  match layoutOf x.stype.toNat r.rtype.toNat with
  | none => false
  | some (spans, tail) =>
    decide (8 ≤ r.rlen.toNat ∧ r.rlen.toNat % 8 = 0 ∧ r.bytes.length + 8 = r.rlen.toNat) && lenFits x r
    && decide (r.rindex.toNat ≤ maxIndex x.stype.toNat r.rtype.toNat) && reservedZero spans tail r

/-- No two records of one type with one index (R384). -/
def noTwins (x : ImgSection) : Bool := decide ((x.records.map (fun r => (r.rtype, r.rindex))).Nodup)

/-- Required records, as (type, least count), of a section type (R385-R391). -/
def required (x : ImgSection) : List (Nat × Nat) :=
  match x.stype.toNat with
  | 1 => [(1, 1), (2, 5), (3, 3), (4, 2), (5, 1), (7, 1)]
  | 2 => [(1, 1)]
  | 3 => [(1, 1), (3, 1)]
  | 5 =>
    let n := (coreSet (ifld (rec0 x 1) 8 16)).length
    [(1, 1), (2, n), (3, n), (4, 1), (6, 1), (7, 1), (8, 8), (9, 1), (0xF, 1), (0x10, (recsOf x 0xF).length), (0x11, 1)]
  | _ => []

/-- The layout checks of a section (R384). -/
def sectionForm (x : ImgSection) : List Bool :=
  [ decide (1 ≤ x.stype.toNat ∧ x.stype.toNat ≤ 8), x.rsv0, x.records.all (recordOk x), noTwins x
  , (required x).all (fun (t, n) => decide (n ≤ (recsOf x t).length))
  , decide ((x.records.map (fun r => r.rlen.toNat)).sum = x.length.toNat) ]

/-! ### Step 3: fields -/

def all1 (x : ImgSection) (rt : Nat) (t : ImgRecord → Bool) : Bool := (recsOf x rt).all t

/-- DEVICE (R333, R344, R354, R385). -/
def deviceChecks (s : State) (i : Image) (x : ImgSection) : List Bool :=
  let role (e : Nat) : Nat := ((devCfgOf i).exports.getD e (0, 0, 0, 0, 0)).1
  [ all1 x 1 (fun r => decide (ifld r 8 4 = i.period.toNat ∧ 10000 ≤ ifld r 8 4 ∧ ifld r 8 4 ≤ 10000000 ∧ ifld r 16 1 < 64 ∧ ifld r 17 1 ≤ 1))
  , all1 x 1 (fun r => decide (ifld r 17 1 = 1 ∨ s.sec.state = 0))
  , all1 x 2 (fun r => decide (ifld r 8 2 + ifld r 10 2 ≤ 65536) && (r.rindex == 0 || ifld r 16 2 == 0))
  , all1 x 3 (fun r => decide (1 ≤ ifld r 8 4 ∧ ifld r 8 4 ≤ 65536 ∧ ifld r 12 1 ≤ 1 ∧ ifld r 14 2 < ifld r 8 4))
  , all1 x 4 (fun r => decide (ifld r 8 1 ≤ 4) && decide (ifld r 8 1 = 1 ∨ ifld r 10 6 = 0) && decide (ifld r 8 1 = 3 ∨ ifld r 9 1 = 0))
  , all1 x 5 (fun r => decide (ifld r 16 1 ≤ 16))
  , all1 x 6 (fun r => decide ((ifld r 14 1 = 4 ∨ ifld r 14 1 = 6) ∧ (ifld r 34 1 ≤ 7 ∨ ifld r 34 1 = 0xFF) ∧ ifld r 35 1 ≤ 1
      ∧ 1 ≤ ifld r 38 1 ∧ ifld r 38 1 ≤ 7))
  , (List.range 2).all (fun e => decide (role e = 4) == (recsOf x 6).any (fun r => r.rindex.toNat == e)) ]

/-- Tiers that a region class may lie in (R341, R386). -/
def classTier (cls : Nat) (far : Bool) : Bool :=
  if far then decide (cls = 1 ∨ cls = 5 ∨ cls = 6) else decide (1 ≤ cls ∧ cls ≤ 7 ∧ cls ≠ 6)

/-- Regions of one tier that do not overlap (R386). -/
def regionsApart : List Region → Bool
  | [] => true
  | r :: l => l.all (fun q => r.far != q.far || decide (r.base + r.size ≤ q.base ∨ q.base + q.size ≤ r.base)) && regionsApart l

/-- The least data capacity that an image's addresses may count on: that of the current and of its own ECC setting (R329, R393). -/
def capOf (ecc image : Bool) : Nat := if ecc || image then 0x1E00000000 else 0x2000000000

/-- MEMMAP (R329, R339, R341, R342, R386, R393): within the capacity of the current and of the image's own ECC setting. -/
def memmapChecks (s : State) (i : Image) (x : ImgSection) : List Bool :=
  let rs := regionsOf i
  let cap := capOf s.mem.ecc (eccOf i)
  [ rs.all (fun r => decide (r.base % 4096 = 0 ∧ r.size % (4096 * (if r.far then Nat.max 1 r.ports.length else 1)) = 0))
  , rs.all (fun r => if r.far then decide (r.base + r.size ≤ 2 ^ 42) else decide (r.base + r.size ≤ cap - 0x10000000))
  , rs.all (fun r => classTier r.cls r.far)
  , rs.all (fun r => decide (r.part < 64 ∨ r.part = 0xFF) && (r.cls != 2 || decide (r.part < 64 ∧ r.base % 16384 = 0 ∧ r.size % 16384 = 0)))
  , rs.all (fun r => r.cls == 1 || r.cls == 4 || r.key == 0xFFFF)
  , rs.all (fun r => !r.far || (decide (r.ports.length = 1 ∨ r.ports.length = 2 ∨ r.ports.length = 4) && decide r.ports.Nodup && r.ports.all (fun p => decide (p < 4))))
  , all1 x 2 (fun r => (List.range 4).all (fun k => decide (k < ifld r 24 1) || ifld r (25 + k) 1 == 0xFF))
  , regionsApart rs
  , all1 x 3 (fun r => rs.any (fun q => q.far && q.cls == 6 && q.idx == ifld r 18 2))
  , decide (((recsOf x 3).map (fun r => ifld r 16 2)).sum ≤ 4096) ]

/-- Entries of `n` bytes in a record's tail. -/
def entries (n : Nat) (l : List Byte) : List (List Byte) := (List.range (l.length / n)).map (fun k => (l.drop (n * k)).take n)

/-- MODEL (R103, R163, R189, R196, R387, R412). -/
def modelChecks (x : ImgSection) : List Bool :=
  let m := rec0 x 1
  let layers := ifld m 8 2
  let heads := ifld m 12 2
  let ps := words8 (itail (rec0 x 2) 8)
  let at_ := words8 (itail (rec0 x 3) 8)
  let ks := (modelOf x).keepers
  let enc (v : Nat) : Bool := decide (v = 0x08 ∨ v = 0x0B)
  [ decide (1 ≤ ifld m 20 1 ∧ ifld m 20 1 ≤ 2 ∧ 1 ≤ ifld m 21 1 ∧ ifld m 21 1 ≤ 3 ∧ ifld m 22 1 ≤ 2 ∧ ifld m 36 1 ≤ 1)
  , decide (ifld m 21 1 = 1 ∨ 1 ≤ ifld m 23 1) && decide (ifld m 21 1 ≠ 2 ∨ heads % Nat.max 1 (ifld m 23 1) = 0)
    && decide (ifld m 21 1 ≠ 3 ∨ ifld m 24 4 % 128 = 0)
  , ps.all (fun v => decide (bits v 15 0 < layers ∧ bits v 17 16 ≠ 3 ∧ bits v 40 32 ≤ 256 ∧ bits v 63 41 = 0)), decide ((ps.map (fun v => bits v 15 0)).Nodup)
  , at_.all (fun v => decide (bits v 15 0 < layers ∧ bits v 63 27 = 0) && enc (bits v 20 16) && enc (bits v 25 21))
  , decide ((at_.map (fun v => bits v 15 0)).Nodup)
  , ks.all (fun (l, b, q, hs) => decide (l < layers ∧ 1024 ≤ b ∧ b ≤ 16384 ∧ b % 128 = 0 ∧ q % 128 = 0 ∧ 1 ≤ hs.length ∧ hs.length ≤ 8) && decide hs.Nodup
      && hs.all (fun h => decide (h < heads)))
  , decide ((ks.map (fun k => k.1)).Nodup)
  , (entries 24 (itail (rec0 x 4) 8)).all (fun e => (List.range 8).all (fun j => decide (j < fieldLE e 6 2) || fieldLE e (8 + 2 * j) 2 == 0xFFFF))
  , ks.isEmpty || ifld m 21 1 != 3 ]

/-- The partition's windows cover a region as RO (R206). -/
def roCovers (cfg : PCfg) (r : Region) : Bool :=
  cfg.windows.any (fun (b, n, attr) => attr == 1 && decide (b.toNat ≤ r.base ∧ r.base + r.size ≤ b.toNat + n))

/-- A domain's region lies in an RO window of every partition of the image that may use it (R206). -/
def domainCovered (ds : List Domain) (rs : List Region) (p : Nat) (cfg : PCfg) : Bool :=
  ds.all (fun d => !d.parts.getLsbD p || rs.any (fun r => !r.far && r.idx == d.region && roCovers cfg r))

/-- DOMAINS (R206, R388). -/
def domainChecks (i : Image) (x : ImgSection) : List Bool :=
  let rs := regionsOf i
  [ all1 x 1 (fun r => decide (10 ≤ ifld r 32 1 ∧ ifld r 32 1 ≤ 20))
  , all1 x 1 (fun r => rs.any (fun q => !q.far && q.cls == 4 && q.idx == ifld r 40 2 && q.key == r.rindex.toNat))
  , (secsOf i 5).all (fun y => domainCovered (domainsOf i) rs y.sindex.toNat (pcfgOf (devCfgOf i) y)) ]

/-- The export port of members of other tori: one in role UP, else one in role DOWN (R267, R279, R299; log 50, DEDUCED). -/
def treePort (d : DevCfg) : Option Nat :=
  let at_ (r : Nat) : Option Nat := ([6, 7].find? (fun i => (d.exports.getD (i - 6) (0, 0, 0, 0, 0)).1 == r))
  (at_ 2).orElse (fun _ => at_ 3)

/-- The port through which a member's pieces arrive: that of the last axis they travel (R275, R279). -/
def arrivalPort (d : DevCfg) (m : DevAddr) : Option Nat :=
  let me := addrIn d
  if m.level ≠ 0 then treePort d
  else
    let ax (a : Nat) : Option Nat :=
      let (len, ring, c) := d.axes.getD a (1, false, 0)
      let f := if a = 0 then m.x.toNat else if a = 1 then m.y.toNat else m.z.toNat
      if f = c then none else some (2 * a + b2n (axisStep len ring f c).1)
    (ax 2).orElse (fun _ => (ax 1).orElse (fun _ => if m = me then none else ax 0))

/-- Neighbour on a torus port. -/
def isNeighbour (d : DevCfg) (m : DevAddr) : Bool :=
  let diff (a f : Nat) : Nat :=
    let (len, ring, c) := d.axes.getD a (1, false, 0)
    let k := if f ≤ c then c - f else f - c
    if ring then Nat.min k (len - k) else k
  decide (diff 0 m.x.toNat + diff 1 m.y.toNat + diff 2 m.z.toNat = 1)

/-- Members whose pieces can arrive by a port, under one pattern of the group (R279): a shift's by its distance, a permutation's any, any other pattern's
the neighbour on the port where it is a member, else every member whose route enters there (log 50, DEDUCED). -/
def sendersBy (d : DevCfg) (g : Group) (port : Nat) (e : Option Exch) : List DevAddr :=
  let l := g.members.filter (fun m => decide (m ≠ addrIn d) && arrivalPort d m == some port)
  match e with
  | some e =>
    if e.ctype = 6 then l.filter (fun m => g.members[(((g.self : Int) - twos 16 e.root) % (g.members.length : Int)).toNat]? == some m)
    else if e.ctype = 7 then l
    else if l.any (isNeighbour d) then l.filter (isNeighbour d) else l
  | none => if l.any (isNeighbour d) then l.filter (isNeighbour d) else l

/-- Exchange descriptors of a partition's cores that name a group (R279, R283): 512 in each core's descriptor store. -/
def groupExch (cfg : PCfg) (gid : Nat) : List Exch :=
  if cfg.exch.isEmpty then [] else cfg.dstores.flatMap (fun x =>
    let m := wrBytes [] 0 x.2
    (((List.range 512).map (exchAt m cfg.exchOff)).filter (fun e => e.gid == gid && decide (1 ≤ e.ctype ∧ e.ctype ≤ 7))))

/-- Senders that feed a port's buffer of a group, under every exchange descriptor that names it (R279). -/
def sendersOn (d : DevCfg) (cfg : PCfg) (g : Group) (port : Nat) : Nat :=
  let es := groupExch cfg g.gid
  (if es.isEmpty then sendersBy d g port none else (es.flatMap (fun e => sendersBy d g port (some e))).dedup).length

/-- A group's buffers lie in the 16 MiB of each port's exchange memory and hold two pieces from each sender (R279). -/
def buffersHold (d : DevCfg) (cfg : PCfg) (g : Group) : Bool :=
  (List.range 8).all (fun p =>
    let b := g.bufs.getD p (0, 0)
    decide (b.1 + b.2 ≤ 1024) && decide (2 * g.piece * sendersOn d cfg g p ≤ b.2 * 16384))

/-- Windows that overlap are both RO (R370). -/
def windowsApart (a b : W64 × Nat × Nat) : Bool :=
  decide (a.1.toNat + a.2.1 ≤ b.1.toNat ∨ b.1.toNat + b.2.1 ≤ a.1.toNat) || (a.2.2 == 1 && b.2.2 == 1)

/-- Models that a partition serves: those of its COST record (R311, R391). -/
def servedModels (i : Image) (cfg : PCfg) : List ModelCfg :=
  ((secsOf i 3).map modelOf).filter (fun m => cfg.wstok.any (fun w => w.1 == m.idx))

/-- Fields and reserved bits of a timetable entry (R390). -/
def entryOk (cores : List Nat) (e : List Byte) : Bool :=
  let kind := fieldLE e 2 1
  decide (1 ≤ kind ∧ kind ≤ 8 ∧ fieldLE e 3 1 ≤ 3 ∧ fieldLE e 7 1 = 0) && decide (1 ≤ fieldLE e 0 2 ∧ fieldLE e 0 2 ≤ 32767)
  && (fieldLE e 4 2 == 0xFFFF || cores.contains (fieldLE e 4 2)) && (bit (fieldLE e 3 1) 0 || fieldLE e 14 6 == 0)
  && (decide (kind = 2 ∨ kind = 3 ∨ kind = 4 ∨ kind = 6) || fieldLE e 20 2 == 0) && (decide (kind = 4 ∨ kind = 6) || fieldLE e 22 2 == 0)

/-- Fields and reserved bits of a triggered-operation descriptor (R285). -/
def trigOk (e : List Byte) : Bool :=
  decide (1 ≤ fieldLE e 0 1 ∧ fieldLE e 0 1 ≤ 7 ∧ fieldLE e 3 1 ≤ 3 ∧ 1 ≤ fieldLE e 8 2 ∧ fieldLE e 12 1 ≤ 7 ∧ fieldLE e 30 2 = 0)

/-- Fields and reserved bits of the entries of a requirement record (R261, R389). -/
def requireOk (r : ImgRecord) : Bool :=
  let l := itail r 24
  let n := 8 * ifld r 16 2
  (entries 8 (l.take n)).all (fun e => decide (fieldLE e 2 1 = 1 ∨ fieldLE e 2 1 = 2 ∨ fieldLE e 2 1 = 4) && fieldLE e 3 1 == 0)
  && (entries 8 (l.drop n)).all (fun e => decide (fieldLE e 3 1 ≤ 3) && fieldLE e 6 2 == 0)

/-- Reserved bytes of the entries of a COST record (R391). -/
def costOk (r : ImgRecord) : Bool := (entries 16 (itail r 24)).all (fun e => fieldLE e 2 2 == 0 && fieldLE e 8 8 == 0)

/-- A window's base is a module address, and the window ends within its tier's addresses, below the Aghorn region (R328, R370). -/
def windowFits (cap : Nat) (b n : Nat) : Bool :=
  if isFar b then decide (bits b 62 42 = 0 ∧ tierAddr b + n ≤ 2 ^ 42) else decide (b + n ≤ cap - 0x10000000)

/-- PARTITION (R227, R232, R244, R260, R279, R283, R285, R370, R389-R391, R413): `others` are the partitions whose cores and windows
it must keep clear of, `cap` the data capacity. -/
def partitionChecks (cap : Nat) (d : DevCfg) (models : List ModelCfg) (others : List PCfg) (x : ImgSection) : List Bool :=
  let cfg := pcfgOf d x
  let c := rec0 x 1
  let inSet (v : Nat) : Bool := cfg.cores.contains v
  let offs := (recsOf x 0xE).map (fun r => ifld r 8 4)
  [ decide (x.sindex.toNat < 64), decide (2 ≤ cfg.cores.length), cfg.cores.all (fun v => others.all (fun o => !o.cores.contains v))
  , decide (cfg.ftt ≤ 12 ∧ cfg.span ≤ 2) && decide (cfg.span ≠ 0 ∨ ifld c 26 6 = 0)
  , cfg.progs.all (fun (k, e, _) => inSet k && decide (e < 131072)) && cfg.dstores.all (fun (k, _) => inSet k), cfg.progs.all (fun (_, _, l) => programOk l)
  , all1 x 5 (fun r => decide (ifld r 8 8 % 4096 = 0 ∧ ifld r 16 8 % 4096 = 0 ∧ 1 ≤ ifld r 24 1 ∧ ifld r 24 1 ≤ 2)
      && (isFar (ifld r 8 8) == decide (8 ≤ r.rindex.toNat)))
  , cfg.windows.all (fun (b, n, _) => windowFits cap b.toNat n)
  , cfg.windows.all (fun w => others.all (fun o => o.windows.all (windowsApart w)))
  , decide (cfg.shares.1 + cfg.shares.2.1 + cfg.shares.2.2 = 16)
  , all1 x 0xA (fun r => decide (2 ≤ ifld r 8 1 ∧ ifld r 8 1 ≤ 8)
      && (List.range 8).all (fun k => if k < ifld r 8 1 then inSet (ifld r (9 + k) 1) else ifld r (9 + k) 1 == 0xFF)
      && decide (((List.range (ifld r 8 1)).map (fun k => ifld r (9 + k) 1)).Pairwise (· < ·)))
  , cfg.rails.all (fun r => inSet r.producer && inSet r.consumer)
  , cfg.groups.all (fun g => decide (g.self < g.members.length ∧ g.axes < 8 ∧ 4096 ≤ g.piece ∧ g.piece ≤ 16384 ∧ (g.gateway < g.members.length ∨ g.gateway = 0xFF)))
  , cfg.groups.all (buffersHold d cfg)
  , cfg.dlists.all (fun (_, cs, _) => cs.all inSet)
  , offs.all (fun o => decide (o = cfg.exchOff ∧ o + 512 * 64 ≤ 131072))
  , all1 x 0xE (fun r => decide (ifld r 12 2 ≤ 1024))
  , all1 x 0xE (fun r => (entries 32 (itail r 16)).all trigOk)
  , cfg.shapes.all (fun h => decide (h.ckpts.countP (fun k => k.kind == 7) = 1) && decide ((h.ckpts.map (fun k => k.idx)).Pairwise (· < ·)))
  , all1 x 0x10 (fun r => (entries 24 (itail r 8)).all (entryOk cfg.cores))
  , all1 x 4 requireOk, all1 x 0x11 costOk, all1 x 0xC (fun r => (entries 8 (itail r 56)).all (fun e => fieldLE e 7 1 == 0))
  , decide ((cfg.costWidth = 8 ∨ cfg.costWidth = 16) ∧ (cfg.costRate = 32 ∨ cfg.costRate = 64))
  , (models.filter (fun m => cfg.wstok.any (fun w => w.1 == m.idx))).all (fun m =>
      m.layout == 1 || cfg.groups.any (fun g => decide (m.group ≤ g.members.length) && bit g.axes m.axis)) ]

/-- RECIPES, TABLES and FIRMWARE (R117, R118, R137, R392). -/
def otherChecks (x : ImgSection) : List Bool :=
  match x.stype.toNat with
  | 6 => [decide (x.sindex.toNat < 128), x.records.all (fun r => recipeOk r.bytes && decide (r.bytes.length = 16 + 16 * (r.bytes.getD 0 0).toNat))]
  | 7 => [decide (x.sindex.toNat < 128), x.records.all (fun r => tableOk r.bytes && decide (r.bytes.length = 32 + 12 * 2 ^ (r.bytes.getD 0 0).toNat))]
  | 8 => [x.records.all (fun r => decide (1 ≤ r.rindex.toNat ∧ r.rindex.toNat ≤ 3))]
  | _ => []

/-- Section counts of a FULL or a PART image (R383). -/
def countChecks (i : Image) : List Bool :=
  let n (st : Nat) : Nat := (secsOf i st).length
  let uniq (st : Nat) : Bool := decide (((secsOf i st).map (fun x => x.sindex)).Nodup)
  let full := decide (i.kind = 1)
  [ i.rsv0
  , if full then decide (n 1 = 1 ∧ n 2 = 1 ∧ n 8 = 1 ∧ n 4 ≤ 1 ∧ n 5 ≤ 64 ∧ n 6 ≤ 128 ∧ n 7 ≤ 512)
    else decide (n 1 = 0 ∧ n 2 = 0 ∧ n 3 = 0 ∧ n 4 = 0 ∧ n 8 = 0 ∧ n 5 = 1)
  , uniq 3 && uniq 5 && uniq 6
  , full || ((secsOf i 5).head?.any (fun p => (secsOf i 6 ++ secsOf i 7).all (fun x => (coreSet (ifld (rec0 p 1) 8 16)).contains x.sindex.toNat))) ]

/-- Partition sections before a section of the image. -/
def partsBefore (i : Image) (x : ImgSection) : List ImgSection := (secsOf i 5).takeWhile (fun y => y.sindex != x.sindex)

/-- Step 3 (R393): the counts, then section by section in table order. For a PART image the loaded FULL image is its base. -/
def checkStructure (s : State) (i : Image) (part : Option Nat) : Option Bad :=
  let base := match part with
    | none => i
    | some _ => s.img.loaded.getD i
  let d := devCfgOf base
  let models := (secsOf base 3).map modelOf
  let one (x : ImgSection) : Option Bad :=
    let others := match part with
      | none => (partsBefore i x).map (pcfgOf d)
      | some p => ((secsOf base 5).filter (fun y => y.sindex.toNat != p)).map (pcfgOf d)
    let fields := match x.stype.toNat with
      | 1 => deviceChecks s i x
      | 2 => memmapChecks s i x
      | 3 => modelChecks x
      | 4 => domainChecks i x
      | 5 => partitionChecks (capOf s.mem.ecc (eccOf base)) d models others x ++ [part.all (fun p => x.sindex.toNat == p)
          , part.isNone || domainCovered (domainsOf base) (regionsOf base) x.sindex.toNat (pcfgOf d x)]
      | _ => otherChecks x
    firstBad 3 x.stype.toNat x.sindex.toNat 1 (sectionForm x ++ fields)
  orBad (firstBad 3 0 0 1 (countChecks i)) (i.sections.foldl (fun a x => orBad a (one x)) none)

/-! ### Step 4: fit (R31, R35, R261, R262) -/

/-- Logical arrays enabled: none without a valid certificate (R31). -/
def larrOf (s : State) : Nat := if s.img.certOk then 512 - s.img.disabled.length else 0

/-- The capability table's fixed entries: (offset, width, value) (R261). -/
def capEntries : List (Nat × Nat × Nat) :=
  [ (0, 2, 1), (2, 2, 0), (4, 4, 0x0C90), (12, 2, 128), (14, 1, 4), (15, 1, 0), (16, 2, 128), (18, 2, 128), (20, 2, 128), (22, 2, 1024), (24, 2, 16384)
  , (26, 1, 16), (27, 1, 64), (28, 1, 4), (29, 1, 9), (30, 1, 3), (31, 1, 16), (32, 4, 2097152), (36, 1, 16), (37, 1, 0), (38, 2, 64), (40, 4, 131072)
  , (44, 1, 5), (45, 1, 6), (46, 2, 16), (48, 1, 32), (49, 1, 6), (50, 2, 1024), (52, 1, 16), (53, 1, 8), (54, 1, 64), (55, 1, 8), (56, 1, 64), (57, 1, 8)
  , (58, 1, 16), (59, 1, 32), (60, 4, 131072), (64, 4, 131072), (68, 4, 0x0007FFFF), (72, 2, 2400), (74, 2, 1200), (76, 2, 100), (78, 2, 0), (80, 4, 1200)
  , (86, 2, 128) ]

/-- Element formats of R70, as format codes: FP4 and FP6 stand under their MX codes, the only ones they have, and MXINT8 and the MX forms of
FP8 under their element's (R70, R250). -/
def elemCodes : List Nat := [0x03, 0x04, 0x05, 0x07, 0x08, 0x09, 0x0A, 0x0E, 0x0F, 0x12]

/-- The code that a format counts as in a pair (R70, R261). -/
def pairCode (f : Nat) : Nat := if f = 0x0B then 0x03 else if f = 0x0C then 0x04 else if f = 0x0D then 0x05 else f

/-- A pair entry (R261): AF, WF, row slot, flags with bit 0 complex and bit 1 Gauss (R84), and KPASS. -/
structure PairEntry where
  af    : Nat
  wf    : Nat
  slot  : Nat
  flags : Nat
  kpass : Nat
deriving DecidableEq, Repr

/-- The entry of a pair, where R70 has it (R70, R84, R261). -/
def pairEntry (af wf : Nat) : Option PairEntry :=
  let a := BitVec.ofNat 5 af
  let w := BitVec.ofNat 5 wf
  if pairOk a w then
    let cpx := !decide (fclass w = .t2 ∨ fclass a = .bf16s)
    let float := decide (fclass a = .fp4 ∨ fclass a = .fp68)
    some { af, wf, slot := rowSlot a w, flags := b2n cpx + 2 * b2n (cpx && float), kpass := kPerPass a w }
  else none

/-- The pair entries, in ascending order of AF and then of WF (R261, which gives no order: log 8, DESIGN CHOICE). -/
def capPairs : List PairEntry := elemCodes.flatMap (fun af => elemCodes.filterMap (pairEntry af))

/-- An entry's eight bytes (R261). -/
def PairEntry.bytes (e : PairEntry) : List Byte :=
  leBytes 1 e.af ++ leBytes 1 e.wf ++ leBytes 1 e.slot ++ leBytes 1 e.flags ++ leBytes 2 e.kpass ++ leBytes 2 0

/-- One byte of the capability table (R261). -/
def capByte (s : State) (o : Nat) : Byte :=
  let es := capEntries ++ [(8, 2, if s.img.certOk then s.img.grade else 0), (10, 2, larrOf s), (84, 2, capPairs.length)]
  match es.find? (fun e => decide (e.1 ≤ o ∧ o < e.1 + e.2.1)) with
  | some e => BitVec.ofNat 8 (e.2.2 / 256 ^ (o - e.1))
  | none => if o < 128 then 0 else match capPairs[(o - 128) / 8]? with
    | some e => e.bytes.getD (o % 8) 0
    | none => 0

def capRead (s : State) (o n : Nat) : Nat := leNat ((List.range n).map (fun k => capByte s (o + k)))

/-- A pair that a program section uses against the table (R262): an entry of the same formats, and every other field at most the part's, each
flag one that the part has. -/
def pairMet (e : List Byte) : Bool :=
  capPairs.any (fun x => x.af == pairCode (fieldLE e 0 1) && x.wf == pairCode (fieldLE e 1 1) && decide (fieldLE e 2 1 ≤ x.slot)
    && decide (fieldLE e 3 1 &&& x.flags = fieldLE e 3 1) && decide (fieldLE e 4 2 ≤ x.kpass))

/-- A requirement record against the table (R262). -/
def meets (s : State) (r : ImgRecord) : Bool :=
  let l := itail r 24
  let nreq := ifld r 16 2
  let req (k : Nat) : Bool :=
    let e := l.drop (8 * k)
    let w := fieldLE e 2 1
    decide (w = 1 ∨ w = 2 ∨ w = 4) && decide (fieldLE e 4 4 ≤ capRead s (fieldLE e 0 2) w)
  let pair (k : Nat) : Bool :=
    pairMet (l.drop (8 * (nreq + k)))
  decide (ifld r 8 2 = 1 ∧ ifld r 10 2 ≤ 0 ∧ ifld r 12 4 &&& 0xFFF80000 = 0) && (List.range nreq).all req && (List.range (ifld r 18 2)).all pair

def checkFit (s : State) (i : Image) : Option Bad :=
  let head := firstBad 4 0 0 1 [decide (i.partcode = 0x0C90), s.img.certOk, decide (i.larruse.toNat ≤ larrOf s), decide (i.certdig = 0 ∨ i.certdig = s.img.certDig)]
  orBad head ((secsOf i 5).foldl (fun a x => orBad a (firstBad 4 5 x.sindex.toNat 5 [all1 x 4 (meets s)])) none)

/-! ### Step 5: feasibility (R35, R106, R237, R338, R344, R346, R354, R366) -/

/-- Every port in service reaches what a COST record assumes (R338). -/
def cxlReaches (s : State) (cfg : PCfg) : Bool :=
  s.mem.cxl.toList.all (fun c => !c.up || decide (cfg.costWidth ≤ c.width ∧ cfg.costRate ≤ c.rate ∧ c.latency ≤ cfg.farlat))

/-- The slot layout allows the retrains (R346). -/
def upkeepFits (d : DevCfg) (period : Nat) : Bool :=
  d.upkeep.all (fun (port, _, len, _, rtp) => port != 0 || decide (16 * rtp * period ≤ 200000000 ∧ 1500 * 65536 ≤ len * period))

/-- The timetable of every engine holds the cost of its escalation share in every layer; a share of 0 costs nothing (R106). -/
def sharesFit (policies : List (Nat × Nat × Nat × Nat × Nat)) (cfg : PCfg) : Bool :=
  policies.all (fun (m, layer, _, _, a) => a == 0 || !cfg.wstok.any (fun w => w.1 == m)
    || cfg.shapes.all (fun h => cfg.cores.all (fun c => (List.range 4).all (fun e =>
      let share := a * Config.quantTiles cfg.digest h.idx c e layer / 256
      share == 0 || Config.shareFits cfg.digest h.idx c e layer share))))

/-- A partition's own checks of step 5. -/
def partFits (s : State) (d : DevCfg) (policies : List (Nat × Nat × Nat × Nat × Nat)) (x : ImgSection) (cfg : PCfg) (period : Nat) : List Bool :=
  [ cxlReaches s cfg, sharesFit policies cfg
  , ownBudgetsFit d s.img.disabled cfg x.sindex.toNat period cfg.budgets ]

/-- Step 5 of a FULL image: D and every partition of the image together (R366). -/
def fullFeasible (s : State) (i : Image) : Option Bad :=
  let d := devCfgOf i
  let period := i.period.toNat
  let cfgs := (secsOf i 5).map (fun x => (x, pcfgOf d x))
  let own := cfgs.foldl (fun a x => orBad a (firstBad 5 5 x.1.sindex.toNat 4 (partFits s d ((secsOf i 3).flatMap policiesOf) x.1 x.2 period))) none
  orBad (firstBad 5 1 0 3 [upkeepFits d period])
    (orBad own (firstBad 5 1 0 7 [sumsFit d period (budgetsOf (rec0 (sec1 i 1) 7) :: cfgs.map (fun x => x.2.budgets))]))

/-- Step 5 of a partition's section against what is loaded (R366, R393, R397). -/
def partFeasible (s : State) (p : PartId) (x : ImgSection) : Option Bad :=
  let cfg := pcfgOf s.img.dev x
  firstBad 5 5 p.1 4 (partFits s s.img.dev s.img.policies x cfg s.tick.period ++ [sumsFit s.img.dev s.tick.period (cfg.budgets :: otherBudgets s p)])

/-- Verification (R393): none where every check passes. `part` names the partition of a LOAD from a PART image. -/
def verify (s : State) (i : Image) (part : Option PartId) (slot : Option Slot) : Option Bad :=
  let kind := if part.isSome then 2 else 1
  let feasible := match part with
    | none => fullFeasible s i
    | some p => orBad (firstBad 5 0 0 1 [decide (s.img.loaded.map (fun f => f.digest) = some i.basedig), decide (i.period.toNat = s.tick.period)])
        (match (secsOf i 5).head? with
          | some x => partFeasible s p x
          | none => none)
  orBad (checkContainer i kind slot) (orBad (checkSignature s i) (orBad (checkStructure s i (part.map (fun p => p.1)))
    (orBad (checkFit s i) feasible)))

end Sys2Proof.Machine
end

