-- ==== Sys2Proof/Machine/Clock.lean ====
section
/-! DEFINITION. The tick input and the phase-lock: edges, misses, tick numbers, the period and the energy factor (R353-R362, R365). -/

namespace Sys2Proof.Machine

/-- Code of a time state (R446, R476). -/
def timeCode : TState → Nat
  | .locked => 0
  | .holdover => 1
  | .timelost => 2

/-- A tick record: kind, time state, number received, local count (R446). -/
def tickLog (kind n : Nat) (s : State) : State := logR 0x000D 2 0xFF 0xFFFF 0xFFFF [kind, timeCode s.tick.state, n, s.tick.now] s

/-- The time state changes: its record, PF0's vector 5, and the TIME alarm where a locked device loses time (R358, R361, R446,
R455, R466). Time-lost acquires afresh. -/
def setTime (t : TState) (s : State) : State :=
  if s.tick.state = t then s
  else
    let s := updTick (fun k => { k with
      state := t
      wasLocked := k.wasLocked || t == .locked
      diffs := if t == .timelost then 0 else k.diffs
      good := if t == .timelost then 0 else k.good
      firstOk := if t == .timelost then false else k.firstOk
      slew := if t == .locked then k.slew else 0 }) s
    let s := vecEvent 0 5 (tickLog 3 0 s)
    if t = .timelost ∧ s.tick.wasLocked then alarm 1 s else s

/-- TICK_OUT repeats a boundary of LOCKED, or falls to a steady low level, where it is enabled and the device is not quiet (R356,
R398). -/
def tickPulse (s : State) : State :=
  whenS (s.tick.outEn && !s.img.quiet) (emit (.tickOut (s.tick.state != .locked))) s

/-! ### Edges and misses (R353, R358-R360) -/

/-- An edge lies within 1/256 of a period of its predicted boundary (R359). -/
def edgeGood (period : Nat) (offset : Int) : Bool := decide (offset.natAbs * 256 ≤ period)

/-- The first interval of an acquisition run: within 1,000 ppm of the period (R360). -/
def intervalOk (period interval : Nat) : Bool :=
  decide ((if interval ≤ period then period - interval else interval - period) * 1000 ≤ period)

/-- An edge counts as good at its boundary. -/
def goodEdge (s : State) : State := updTick (fun k => { k with good := Nat.min 0xFFFF (k.good + 1), miss := 0 }) s

/-- An edge in TIMELOST (R360): the first edge begins a run, the second must come after a good first interval, later ones must be
good; one outside every window is ignored (R359). -/
def acquireEdge (offset : Int) (interval : Nat) (s : State) : State :=
  let k := s.tick
  if k.good = 0 then goodEdge (updTick (fun k => { k with firstOk := false }) s)
  else if k.good = 1 then
    if intervalOk k.period interval then goodEdge (updTick (fun k => { k with firstOk := true }) s) else s
  else if edgeGood k.period offset then goodEdge s else s

/-- TICK_EDGE (R353, R356, R358-R360): `offset` is the edge's distance from its predicted boundary and `interval` from the edge
before it, in ns. A second edge in one window is ignored. -/
def execTickEdge (offset : Int) (interval : Nat) (s : State) : Res :=
  let k := s.tick
  .next (if interval * 128 ≤ k.period then s
    else match k.state with
      | .timelost => acquireEdge offset interval s
      | .locked => if edgeGood k.period offset then tickPulse (goodEdge s) else s
      | .holdover =>
        if !edgeGood k.period offset then s
        else
          let s := goodEdge s
          if 4 ≤ s.tick.good then
            tickPulse (setTime .locked (updTick (fun t => { t with slew := offset.natAbs * 65536 / Nat.max 1 t.period }) s))
          else s)

/-- TICK_MISS (R356, R358, R359, R361): a window closes with no edge. -/
def execTickMiss (s : State) : Res :=
  let s := updTick (fun k => { k with good := 0, firstOk := false, miss := Nat.min 0xFFFF (k.miss + 1), tickmiss := satAdd 64 k.tickmiss 1 }) s
  .next (match s.tick.state with
    | .locked => tickPulse (setTime .holdover s)
    | .holdover => if 256 ≤ s.tick.miss then setTime .timelost s else s
    | .timelost => s)

/-! ### Tick numbers (R355, R362) -/

/-- A number received in the interval before the coming boundary: the first is held, further ones are discarded and counted
(R355); in LOCKED and HOLDOVER it is compared with the count that the boundary will carry (R362). -/
def takeNumber (n : W64) (s : State) : State :=
  if s.tick.held.isSome then tickLog 1 n.toNat (updTick (fun k => { k with tickdisc := satAdd 64 k.tickdisc 1 }) s)
  else
    let s := updTick (fun k => { k with held := some n.toNat }) s
    let diff : Int := (n.toNat : Int) - ((s.tick.now + 1) % 2 ^ 64 : Nat)
    if s.tick.state = .timelost then s
    else if diff = 0 then updTick (fun k => { k with diffs := 0 }) s
    else
      tickLog 2 n.toNat (updTick (fun k => { k with
        offset := diff
        diffs := if 0 < k.diffs ∧ k.offset = diff then k.diffs + 1 else 1 }) s)

def tikNext : Nat := 0x30010
def tikPeriod : Nat := 0x30000

/-- TIK_NEXT (R355, R476): the owner's number, with TIK_SRC 0 only. -/
def execTikNext (m : Master) (n : W64) (s : State) : Res :=
  .next (ownerOnly m tikNext (fun s => if s.tick.srcM then ignoreWrite m tikNext 2 s else takeNumber n s) s)

/-- Relay a tick message on the ports that the image names, charged to D (R355, R363). -/
def relayTick (n : W64) (s : State) : State :=
  forAll (allPorts.filter (fun i => i.1 < 6 && bit s.img.dev.relay i.1 && decide ((s.port i).state = LState.up))) (fun i s =>
    match (s.port i).farId with
    | some (d, _) => sendMOn (some (i, wrapVc s i.1)) 0x17 d [n.toNat] s
    | none => s) s

/-- TICK_MESSAGE (R355, R362): a class M number, with TIK_SRC CLASSM, on a port in service; one that is used is relayed. -/
def execTickMessage (port : PortId) (n : W64) (s : State) : Res :=
  .next (if !s.tick.srcM || decide ((s.port port).state ≠ LState.up) then s
    else if s.tick.held.isSome then takeNumber n s else relayTick n (takeNumber n s))

/-! ### Period and energy factor (R354, R365) -/

/-- A new declared period puts the phase-lock into time-lost (R354). -/
def newPeriod (v : Nat) (s : State) : State :=
  let s := updTick (fun k => { k with period := v, good := 0, firstOk := false }) s
  setTime .timelost s

/-- TIK_PERIOD (R354): the owner, every partition unconfigured, 10,000 to 10,000,000 ns; else ignored and counted. -/
def execTikPeriod (m : Master) (v : W64) (s : State) : Res :=
  let v := v.toNat % 2 ^ 32
  .next (ownerOnly m tikPeriod (fun s =>
    if allPartsIn s (fun x => decide (x = PState.unconfigured)) && decide (10000 ≤ v ∧ v ≤ 10000000) then newPeriod v s
    else ignoreWrite m tikPeriod 2 s) s)

/-- KAPPA_UPDATE (R365): every 1,024 ticks the factor is measured over charged input energy, clamped to 0.90-1.10, in 1/1,000; it acts
from the next boundary. With nothing charged its value is not stated: a free value in that range. -/
def execKappaUpdate (num den : Nat) (s : State) : Res :=
  .next (if s.tick.sinceStart = 0 ∨ s.tick.sinceStart % 1024 ≠ 0 then s
    else if den = 0 then
      let (v, s) := takeFree s
      updTick (fun k => { k with kappaNext := some (900 + v.toNat % 201) }) s
    else updTick (fun k => { k with kappaNext := some (Nat.max 900 (Nat.min 1100 (1000 * num / den))) }) s)

end Sys2Proof.Machine
end

