-- ==== Sys2Proof/Machine/Partitions.lean ====
section
/-! DEFINITION. Budgets and their writes, the partition operations, loading, and the end of an image load (R210, R280, R326,
R363-R372, R394-R399, R412, R416, R417). -/

namespace Sys2Proof.Machine

/-- Offset of a partition's window register (R369, R477). -/
def prtOff (p : PartId) (o : Nat) : Nat := 0x40000 + 0x400 * p.1 + o

/-! ### Budget writes (R366, R367) -/

/-- BUDGET_WRITE (R367, R477): checked against R366 with the new value, it takes effect at the boundary after the one that follows
the write; a value that fails sets BREJ. -/
def execBudgetWrite (m : Master) (p : PartId) (i : Fin 7) (v : W64) (s : State) : Res :=
  .next (ownerOnly m (prtOff p (0x80 + 8 * i.1)) (fun s =>
    let x := s.part p
    let reject := prtError p (fun y => { y with brej := true }) s
    match x.section_ with
    | none => reject
    | some cfg =>
      let b := x.budgets[i.1]'i.2
      let x' := x.budgets.set i.1 { b with written := v.toNat, pending := some (v.toNat, 2) } i.2
      let new := dueBudgets x'
      if x.state = .unconfigured then reject
      else if ownBudgetsFit s.img.dev s.img.disabled cfg p.1 s.tick.period new && sumsFit s.img.dev s.tick.period (new :: otherBudgets s p) then
        updPart p (fun y => { y with budgets := x' }) s
      else reject) s)

/-! ### Aborts by a reset or a halt (R324) -/

/-- The code of an abort by a reset or a recovery halt is not stated: a free value of 0x21-0x26, for it is no mismatch (R295, R324; log 51,
DESIGN CHOICE). -/
def resetAbort (p : PartId) (s : State) : State :=
  match (s.part p).task with
  | none => s
  | some _ =>
    let (v, s) := takeFree s
    closeWindow p (abortTask p { code := BitVec.ofNat 8 (0x21 + v.toNat % 6), src := 0xFFFF } true s)

/-- Everything an attempt still holds is free again, and so is every freed extent: nothing of the partition's task
runs, so no snapshot is held (R202, R326). -/
def settleFree (p : PartId) (s : State) : State :=
  let s := forAll (s.part p).reqs (fun r s => endAttempt p (reqNow s p r) s) s
  updPart p (fun x => { x with
    freed := []
    freeNear := x.freeNear + ((x.freed.filter (fun e => !isFar e.ext.base.toNat)).map (fun e => e.bytes)).sum }) s

/-! ### Entering unconfigured (R203, R210, R412) -/

/-- Take a partition's nodes out of every prefix tree (R210, R397): they give no further hit. -/
def dropOwnNodes (p : PartId) (s : State) : State :=
  updNodes (mapIf (fun n => n.owner == p.1) (fun n => { n with inUse := false })) s

/-- Release every retained session of a partition (R203, R412). -/
def releaseSessions (p : PartId) (s : State) : State := forAll (s.part p).sessions (releaseSession p) s

/-- A partition enters unconfigured (R371, R412). -/
def unconfigure (p : PartId) (s : State) : State :=
  let s := sweepAll (dropOwnNodes p (releaseSessions p s))
  let s := updPart p (fun x => { x with section_ := none, loadCores := [], xtabs := [], freed := [], freeNear := 0, versions := [], variants := [], upops := []
                                        queue := [], doneTasks := [], rails := [], groups := [], acks := [], ops := [], ctrs := [], xmem := []
                                        ratios := [], measured := 0, reports := [], partDig := 0, back := .running
                                        reqs := x.reqs.filter (fun r => !r.delivered), budgets := Vector.replicate 7 {}, simmer := Vector.replicate 8 {} }) s
  setPState p .unconfigured s

/-! ### Loading (R280, R326, R397) -/

/-- A core takes its stores from the section; with `tabs`, its tables and recipes too (R141, R397). -/
def loadCore (i : Image) (cfg : PCfg) (tabs : Bool) (c : CoreId) (x : Core) : Core :=
  let prog := cfg.progs.find? (fun e => e.1 == c.1)
  let dst := ((cfg.dstores.find? (fun e => e.1 == c.1)).map Prod.snd).getD []
  let bytes := (prog.map (fun e => e.2.2)).getD []
  let recs (st : Nat) : List ImgRecord := (((secsOf i st).filter (fun y => y.sindex.toNat == c.1)).flatMap (fun y => recsOf y 1))
  let slot (k : Nat) : Option (List Byte) := ((recs 6).find? (fun r => r.rindex.toNat == k)).map (fun r => r.bytes)
  let table (k : Nat) : TabSlot := { bank0 := ((recs 7).find? (fun r => r.rindex.toNat == k)).map (fun r => r.bytes) }
  let ve := if tabs then { x.ve with recipes := Vector.ofFn (fun k => slot k.1), tables := Vector.ofFn (fun k => table k.1) } else x.ve
  { stopCore x with
    pstore := wrBytes [] 0 bytes, progLen := bytes.length, entry := (prog.map (fun e => e.2.1)).getD 0
    dstoreImg := wrBytes [] 0 dst, ve := { ve with temps := [], queue := [] } }

/-- Each member sends the check of its declaration and its security state to every other member (R280, R414). -/
def sendGroupChecks (p : PartId) (s : State) : State :=
  forAll (s.part p).groups (fun g s =>
    forAll (g.members.zipIdx.filter (fun m => m.2 != g.self)) (fun m s => sendM 0x14 m.1 [p.1, g.gid, g.check.toNat, s.sec.state] s) s) s

/-- The groups of a section that starts, each unusable where a check that came early differs (R280, R414). -/
def startGroups (x : Part) (sstate : Nat) (gs : List Group) : List Group :=
  gs.map (fun g => { g with usable := !x.checks.any (fun c => c.1 == g.gid && g.members.contains c.2.1 && (decide (c.2.2.1 ≠ g.check) || c.2.2.2 != sstate)) })

/-- Load a partition's section (R397): empty and fill the banks and recipe slots with `tabs`, take out its nodes, run the group
checks, replay the journal. `fresh` is an entry from unconfigured or by RESET: its near pool is whole again (R311). The partition
stays in loading; `back` is what its end leads to. -/
def beginLoading (p : PartId) (i : Image) (x : ImgSection) (tabs fresh : Bool) (back : PState) (s : State) : State :=
  let cfg := pcfgOf s.img.dev x
  let s := forAll (cfg.cores.map cid) (fun c s => updCore c (loadCore i cfg tabs c) s) s
  let s := dropOwnNodes p s
  let s := settleFree p s
  let s := whenS fresh (releaseSessions p) s
  let s := sweepAll s
  let held := ((s.mem.nodes.filter (fun n => n.owner == p.1)).map (fun n => n.bytes)).sum
  let pool := nearPool s p - held
  let slots := ((s.img.dev.vslots.find? (fun v => v.1 == p.1)).map (fun v => v.2.2.1)).getD 0
  let s := updPart p (fun y => { y with
    back, section_ := some cfg, loadCores := [], budgets := freshBudgets cfg.budgets
    simmer := Vector.ofFn (fun g => let (r, d) := cfg.simmer.getD g.1 (0, 0); { rate := r, depth := d, level := d })
    rails := cfg.rails, groups := startGroups y s.sec.state cfg.groups, checks := [], acks := [], mesh := [], meshSent := 0, mcast := [], tiles := [], ops := [], ctrs := [], queue := [], doneTasks := [], task := none
    freed := if fresh then [] else y.freed, xtabs := if fresh then [] else y.xtabs, freeNear := if fresh then pool else y.freeNear
    ratios := [], measured := 0, admTick := none, reports := [], vslots := slots, partDig := cfg.digest, jbad := (false, false) }) s
  replayJournal p (sendGroupChecks p (setPState p .loading s))

/-! ### The partition operations (R371, R372, R416, R417) -/

/-- LOAD, START and RESET are rejected in P3; in P4 nothing arrives (R416). -/
def asleep (s : State) : Bool := decide (s.pwr.state = PowState.p3 ∨ s.pwr.state = PowState.p4)

/-- The cores of the section that a partition loads, which its loading powers (R28). -/
def powerFor (p : PartId) (i : Image) (s : State) : State :=
  updPart p (fun x => { x with loadCores := ((partSec i p.1).map (fun y => coreSet (ifld (rec0 y 1) 8 16))).getD [] }) s

/-- LOAD (R371, R395, R397, R416, R417): the partition's section of the loaded FULL image, or a PART image of PF0's. In D3 every
partition stays unconfigured (R440). -/
def execLoad (m : Master) (p : PartId) (fromPart : Option Image) (s : State) : Res :=
  .next (ownerOnly m (prtOff p 8) (fun s =>
    if (s.part p).state ≠ .unconfigured ∨ asleep s ∨ s.sec.state = 2 ∨ s.sec.d3 then opReject p s
    else match fromPart with
      | some i =>
        if m ≠ .pf0 then ignoreWrite m (prtOff p 8) 2 s
        else updImg (fun g => { g with loads := g.loads ++ [{ image := i, src := bits g.src.toNat 1 0, part := some p.1 }] }) (setPState p .loading (powerFor p i s))
      | none => match s.img.loaded with
        | none => opReject p s
        | some i =>
          if (partSec i p.1).isNone then opReject p s
          else updImg (fun g => { g with loads := g.loads ++ [{ image := i, src := g.lsrc, part := some p.1, fromFull := true }] }) (setPState p .loading (powerFor p i s))) s)

/-- START (R371, R313, R416, R417): from halted, to running with no history. -/
def execStart (m : Master) (p : PartId) (s : State) : Res :=
  .next (ownerOnly m (prtOff p 8) (fun s =>
    if (s.part p).state ≠ .halted ∨ asleep s ∨ s.sec.state = 2 then opReject p s
    else setPState p .running (updPart p (fun x => { x with ratios := [], measured := 0 }) s)) s)

/-- DRAIN (R371). -/
def execDrain (m : Master) (p : PartId) (s : State) : Res :=
  .next (ownerOnly m (prtOff p 8) (fun s => if (s.part p).state ≠ .running then opReject p s else setPState p .draining s) s)

/-- RESET (R203, R371, R372, R416, R417): the running task is aborted uncounted and the partition passes through loading with the same
section; it ends in halted from draining or halted, and in S2. -/
def execReset (m : Master) (p : PartId) (s : State) : Res :=
  .next (ownerOnly m (prtOff p 8) (fun s =>
    let st := (s.part p).state
    if st = .unconfigured ∨ st = .loading ∨ asleep s then opReject p s
    else match s.img.loaded.bind (fun i => (partSec i p.1).map (fun x => (i, x))) with
      | none => opReject p s
      | some (i, x) => beginLoading p i x true true (if st = .running ∧ s.sec.state ≠ 2 then .running else .halted) (resetAbort p s)) s)

/-- UNLOAD (R371, R412): from halted, once every accepted request has its final code. -/
def execUnload (m : Master) (p : PartId) (s : State) : Res :=
  .next (ownerOnly m (prtOff p 8) (fun s =>
    let x := s.part p
    if x.state ≠ .halted ∨ x.reqs.any (fun r => accepted r && !r.finalJ) then opReject p s else unconfigure p s) s)

/-- Every link port that a partition's groups use is in service (R268, R397). -/
def portsServe (s : State) (cfg : PCfg) : Bool :=
  allPorts.all (fun i => cfg.groups.all (fun g => decide ((g.bufs.getD i.1 (0, 0)).2 = 0))
    || decide ((s.port i).state = LState.up ∨ (s.port i).state = LState.retraining))

/-- Loading can end: the section is loaded and its ports serve (R397). -/
def loadingDone (s : State) (p : PartId) : Bool :=
  let x := s.part p
  decide (x.state = PState.loading) && !s.img.loads.any (fun l => l.part == some p.1)
  && (match x.section_ with
    | some cfg => portsServe s cfg
    | none => false)

/-- Loading ends (R371); in S2, which drains every running partition and bars START, it ends in halted (R409, R417; log 148, DEDUCED). -/
def endLoading (p : PartId) (s : State) : State :=
  if loadingDone s p then setPState p (if (s.part p).back = .running ∧ s.sec.state ≠ 2 then .running else .halted) s else s

/-- LOADING_COMPLETE (R371, R397). -/
def execLoadingComplete (p : PartId) (s : State) : Res := .next (endLoading p s)

/-! ### The end of an image load (R394, R396-R398, R428) -/

/-- Extend a measurement register (R428). -/
def extendM (k : Fin 8) (d : Nat) (s : State) : State :=
  updSec (fun x => { x with m := x.m.set k.1 (Config.sha3 [x.m[k.1]'k.2, d]) k.2 }) s

/-- Write an outcome record (R394, R475); a refusal raises the IMAGE alarm (R455), and PF0's vector 2 is signalled (R466). The numbers
of the checks are not stated (log 47, DESIGN CHOICE). -/
def writeOutcome (l : Loading) (bad : Option Bad) (s : State) : State :=
  let early := bad.any (fun b => b.step == 1 && b.check < 3)
  let digested := bad.all (fun b => decide (3 ≤ b.step) || (b.step == 2 && b.check == 2))
  let o : Outcome :=
    { tick := s.tick.now, code := (bad.map badCode).getD 0, step := (bad.map Bad.step).getD 0, src := l.src, kind := if early then 0 else l.image.kind.toNat
      stype := (bad.map Bad.stype).getD 0, sindex := (bad.map Bad.sindex).getD 0
      check := (bad.map (fun b => Config.checkNumber b.step b.check)).getD 0
      seq := s.img.outSeq, digest := if digested then l.image.digest else 0 }
  let s := updImg (fun g => { g with outs := (o :: g.outs).take 8, outSeq := g.outSeq + 1 }) s
  vecEvent 0 2 (whenS bad.isSome (alarm 0) s)

/-- The role of each port under a device section: a torus port works where its axis is longer than 1 (R266, R267). -/
def roleIn (d : DevCfg) (i : Nat) : Nat :=
  if i < 6 then (if (d.axes.getD (i / 2) (1, false, 0)).1 = 1 then 0 else 5) else (d.exports.getD (i - 6) (0, 0, 0, 0, 0)).1

/-- A port whose role changes takes it at a training; one that is turned off is idle (R266, R267, R396). -/
def setRole (d : DevCfg) (i : PortId) (s : State) : State :=
  let r := roleIn d i.1
  if (s.port i).role = r then s
  else
    let s := updPort i (fun x => { x with role := r, farId := none, qps := [] }) s
    if r = 0 then updPort i (fun x => { x with state := .off, replay := [], transit := [], mq := [] }) s else startTraining i s

/-- What an accepted image sets in the device, at a load and at every start: models, memory map, domains, ports, D's budgets, trace
parameters, and the FAR alarm where a region is offline (R206, R363, R385-R388, R392, R455). -/
def applyDevice (i : Image) (s : State) : State :=
  let d := devCfgOf i
  let ms := secsOf i 3
  let s := updImg (fun g => { g with loaded := some i, dev := d, models := ms.map modelOf, policies := ms.flatMap policiesOf }) s
  let s := updMem (fun m => { m with regions := regionsOf i, domains := domainsOf i, eccNext := eccOf i }) s
  let s := updTick (fun k => { k with dacct := freshBudgets (budgetsOf (rec0 (sec1 i 1) 7)) }) s
  let s := updFlt (fun f => { f with trcbw := ifld (tickRec i) 12 4, trcSrc := BitVec.ofNat 32 (paramOf i 1 4 0x1D), trcClass := BitVec.ofNat 8 (paramOf i 2 1 0)
                                     trcPart := BitVec.ofNat 64 (paramOf i 3 8 0xFFFFFFFFFFFFFFFF) }) s
  forAll allPorts (setRole d) (whenS (s.mem.regions.any (regionOffline s)) (alarm 4) s)

/-- READY is asserted and the quiet state ends (R398, R401). -/
def leaveQuiet (s : State) : State := updPwr (fun w => { w with ready := true }) (updImg (fun g => { g with quiet := false }) s)

/-- Partitions of the AUTOSTART mask enter loading (R396, R403); none does in D3 (R440). -/
def autostart (i : Image) (s : State) : State :=
  if s.sec.d3 then s
  else forAll (allParts.filter (fun p => s.img.dev.autostart.getLsbD p.1)) (fun p s =>
    match partSec i p.1 with
    | some x => if (s.part p).state = .unconfigured then beginLoading p i x true true .running s else s
    | none => s) s

/-- A FULL image is accepted (R396, R397, R398, R428). -/
def installFull (l : Loading) (s : State) : State :=
  let i := l.image
  let s := applyDevice i s
  let s := updImg (fun g => { g with lsrc := l.src, parts := [] }) s
  let s := updMem (fun m => { m with reload := [], freload := [], nodes := [] }) s
  let s := whenS (i.period.toNat != s.tick.period) (newPeriod i.period.toNat) s
  autostart i (extendM 3 i.digest (leaveQuiet s))

/-- Sections of a PART image take the place of the partition's, recipes and tables of its old and its new cores included (R397). -/
def mergePart (base i : Image) (p : Nat) : Image :=
  let coresIn (j : Image) : List Nat := ((partSec j p).map (fun x => coreSet (ifld (rec0 x 1) 8 16))).getD []
  let taken := coresIn base ++ coresIn i
  let keep := base.sections.filter (fun x => !(x.stype == 5 && x.sindex.toNat == p) && !((x.stype == 6 || x.stype == 7) && taken.contains x.sindex.toNat))
  { base with sections := keep ++ i.sections }

/-- The flash slot that a SEL code names (R475). -/
def flashSlot (s : State) (sel : Nat) : Option Slot := if sel = 0 then some s.img.slotA else if sel = 1 then some s.img.slotB else none

/-- The end of the load in front: verification, the outcome record, and what acceptance or refusal does (R371, R393, R394, R396, R397). -/
def endImageLoad (l : Loading) (s : State) : State :=
  match l.part with
  | none =>
    let slot := flashSlot s l.src
    let l : Loading := { l with image := (slot.bind Slot.image).getD l.image }
    let bad := verify s l.image none slot
    let s := writeOutcome l bad s
    if bad.isSome then s else installFull l s
  | some n =>
    let p := pid n
    if (s.part p).state ≠ .loading then s
    else if l.fromFull then
      match partSec l.image n with
      | none => unconfigure p s
      | some x =>
        let bad := partFeasible s p x
        let s := writeOutcome l bad s
        if bad.isSome then unconfigure p s else beginLoading p l.image x true true .running s
    else
      let bad := verify s l.image (some p) none
      let s := writeOutcome l bad s
      match bad, s.img.loaded, partSec l.image n with
      | none, some base, some x =>
        let m := mergePart base l.image n
        let s := updImg (fun g => { g with loaded := some m, parts := g.parts.filter (fun q => q.1 != n) ++ [(n, l.image)] }) s
        beginLoading p m x true true .running (extendM 4 l.image.digest s)
      | _, _, _ => unconfigure p s

/-- The load measures the read latency of every expander in service: what it finds is a free value (R338; log 202, DESIGN CHOICE). -/
def measureFar (s : State) : State :=
  forAll (List.finRange 4) (fun i s =>
    if (s.mem.cxl[i.1]'i.2).up then
      let (v, s) := takeFree s
      updCxl i (fun c => { c with latency := v.toNat }) s
    else s) s

/-- IMAGE_LOAD_COMPLETE (R338, R393-R397): loads run one at a time. The copy of the image that Aghorn keeps lies in near memory (R399),
so none ends while that is off. -/
def execImageLoadComplete (s : State) : Res :=
  .next (match s.img.loads with
    | [] => s
    | l :: rest => if !memOn s then s else endImageLoad l (measureFar (updImg (fun g => { g with loads := rest }) s)))

end Sys2Proof.Machine
end

