-- ==== Sys2Proof/Machine/Ownership.lean ====
section
/-! DEFINITION. The election of an owner: claims, the claim window, leases, releases and handovers (R373-R378, R426, R474). -/

namespace Sys2Proof.Machine

/-- Lexicographic order of two remote coordinates. -/
def coordLess : Master → Master → Bool
  | .rm a b c, .rm x y z => decide (a.toNat < x.toNat ∨ (a = x ∧ (b.toNat < y.toNat ∨ (b = y ∧ c.toNat < z.toNat))))
  | _, _ => false

/-- The first claim beats the second (R375): priority, nonce, kind SB before PF0 before RM, lowest coordinates. -/
def beats (a b : Claim) : Bool :=
  if a.prio ≠ b.prio then decide (b.prio < a.prio)
  else if a.nonce ≠ b.nonce then decide (b.nonce < a.nonce)
  else if masterKind a.m ≠ masterKind b.m then decide (masterKind a.m < masterKind b.m)
  else coordLess a.m b.m

/-- The claim that leads a window (R375). -/
def leading : List Claim → Option Claim
  | [] => none
  | c :: r => match leading r with
    | none => some c
    | some d => if beats d c then some d else some c

/-- Code of an ownership state (R474). -/
def ownCode : OState → Nat
  | .unowned => 0
  | .owned => 1
  | .handover => 2
  | .window => 3

/-- STATE, KIND, NONCE, PRIO of OWN_STATUS (R474): the owner's, or the leading claim's nonce and priority while a window is open. -/
def ownView (o : Own) : Nat × Nat × Nat × Nat :=
  match o.state with
  | .owned => match o.owner with
    | some c => (1, masterKind c.m, c.nonce, c.prio)
    | none => (1, 0, 0, 0)
  | .window => match leading o.claims with
    | some c => (3, 0, c.nonce, c.prio)
    | none => (3, 0, 0, 0)
  | x => (ownCode x, 0, 0, 0)

/-- Change the election; a change of what OWN_STATUS shows beside LEASE signals PF0's vector 1 (R466). -/
def ownChange (f : Own → Own) (s : State) : State :=
  let t := updOwn f s
  whenS (ownView t.own != ownView s.own) (vecEvent 0 1) t

/-- Each master's latest claim counts (R375, R376). -/
def latest (c : Claim) (l : List Claim) : List Claim := l.filter (fun d => d.m != c.m) ++ [c]

/-- The device becomes unowned; standing claims open a window at once (R376). -/
def toUnowned (o : Own) : Own :=
  if o.standing = [] then { o with state := .unowned, owner := none, lease := 0, succ := none, taking := none, claims := [] }
  else { o with state := .window, owner := none, lease := 0, succ := none, taking := none, claims := o.standing, standing := [], windowAge := 0 }

/-- A claim wins: its master owns with a lease count of 0 (R375). -/
def toOwned (c : Claim) (o : Own) : Own :=
  { o with state := .owned, owner := some c, lease := 0, claims := [], succ := none, taking := none }

/-- What a claim does (R375-R377): it opens or joins a window, stands, or is the successor's. -/
def placeClaim (c : Claim) (o : Own) : Own :=
  match o.state with
  | .unowned => { o with state := .window, claims := [c], windowAge := 0 }
  | .window => { o with claims := latest c o.claims }
  | .owned => { o with standing := latest c o.standing }
  | .handover => if o.succ = some c.m ∧ o.taking = none then { o with taking := some c } else { o with standing := latest c o.standing }

/-- Index of a master kind in OWN_CLAIMTICK and OWN_SIGBUF (R474). -/
def kindIdx (m : Master) : Fin 3 := if masterKind m = 2 then 1 else if masterKind m = 3 then 2 else 0

/-- A tick number lies within 16 of the current one (R424, R426). -/
def within16 (now t : Nat) : Bool := decide (t ≤ now + 16 ∧ now ≤ t + 16)

/-- A claim carries the authorisation it needs (R373, R426): none in S0 and from SB, else an admin-key signature. -/
def claimOk (s : State) (m : Master) (sigOk : Bool) : Bool :=
  decide (s.sec.state = 0) || decide (m = Master.sb)
  || (sigOk && within16 s.tick.now (s.own.claimTick[(kindIdx m).1]'(kindIdx m).2).toNat)

/-- OWN_CLAIM (R373-R377, R426, R474): `sigOk` is the outcome of the check of the signature in OWN_SIGBUF. A VF never owns. -/
def execOwnClaim (m : Master) (prio : Byte) (nonce : W32) (sigOk : Bool) (s : State) : Res :=
  .next (if !arrives s m then s
    else match m with
      | .vf _ => ignoreWrite m 0x10018 1 s
      | _ => if claimOk s m sigOk then ownChange (placeClaim { m, prio := prio.toNat, nonce := nonce.toNat }) s else ignoreWrite m 0x10018 3 s)

/-- OWN_RENEW (R376): the owner's nonce sets the lease count to 0; any other is ignored. -/
def execOwnRenew (m : Master) (nonce : W32) (s : State) : Res :=
  .next (ownerOnly m 0x10020 (fun s =>
    if s.own.owner.map Claim.nonce = some nonce.toNat then updOwn (fun o => { o with lease := 0 }) s else s) s)

/-- OWN_RELEASE (R377): the device is unowned, or in handover to the named successor. -/
def execOwnRelease (m : Master) (succ : Option Master) (s : State) : Res :=
  .next (ownerOnly m 0x10028 (fun s => ownChange (fun o =>
    match succ with
    | none => toUnowned o
    | some (.vf _) => toUnowned o
    | some x => { o with state := .handover, owner := none, lease := 0, succ := some x, taking := none, handAge := 0, handTick := s.tick.now }) s) s)

/-- The window closes at the 16th boundary after the claim that opened it (R375). -/
def closeClaims (s : State) : State :=
  if s.own.state = .window ∧ 16 ≤ s.own.windowAge then
    match leading s.own.claims with
    | some c => ownChange (toOwned c) s
    | none => ownChange toUnowned s
  else s

/-- The lease lapses when its count reaches 1,024 (R376). -/
def lapse (s : State) : State := if s.own.state = .owned ∧ 1024 ≤ s.own.lease then ownChange toUnowned s else s

/-- The successor owns from the boundary after its claim; with none within 16 ticks the device is unowned (R377). -/
def endHandover (s : State) : State :=
  if s.own.state = .handover ∧ 16 ≤ s.own.handAge ∧ s.own.taking = none then ownChange toUnowned s else s

def takeOver (s : State) : State :=
  if s.own.state = .handover then
    match s.own.taking with
    | some c => ownChange (toOwned c) s
    | none => s
  else s

/-- CLAIM_WINDOW_CLOSE (R375), due at a boundary. -/
def execClaimWindowClose (s : State) : Res := .next (closeClaims s)

/-- LEASE_LAPSE (R376), due at a boundary. -/
def execLeaseLapse (s : State) : Res := .next (lapse s)

/-- HANDOVER_EXPIRY (R377), due at a boundary. -/
def execHandoverExpiry (s : State) : Res := .next (endHandover s)

/-- The boundary's count of the lease, the window and the handover (R375-R377). -/
def countOwn (s : State) : State :=
  updOwn (fun o => match o.state with
    | .owned => { o with lease := o.lease + 1 }
    | .window => { o with windowAge := o.windowAge + 1 }
    | .handover => { o with handAge := o.handAge + 1 }
    | .unowned => o) s

/-- Ownership at a boundary (R408, step 2). -/
def boundaryOwn (s : State) : State :=
  let s := countOwn s
  match s.own.state with
  | .window => closeClaims s
  | .owned => lapse s
  | .handover => endHandover (takeOver s)
  | .unowned => s

end Sys2Proof.Machine
end

