-- ==== Sys2Proof/Machine/Flash.lean ====
section
/-! DEFINITION. Loads and flash writes that IMG_CTRL starts, grade certificates and saved trims (R31-R34, R379-R381, R395, R396,
R425, R475). -/

namespace Sys2Proof.Machine

def imgCtrl : Nat := 0x20000

/-- An IMG operation is rejected: ERR with its reason (R475). -/
def imgReject (why : Nat) (s : State) : State := updImg (fun g => { g with err := true, errWhy := why }) s

/-- SEL of IMG_SRC (R475). -/
def srcSel (s : State) : Nat := bits s.img.src.toNat 1 0

/-- The image that IMG_SRC and IMG_LEN name in host or near memory: the source holds IMG_LEN bytes of it (R393, R475). -/
def sourceImage (s : State) (i : Image) : Image := { i with available := Nat.min i.available s.img.len.toNat }

def allUnconfigured (s : State) : Bool := allPartsIn s (fun x => decide (x = PState.unconfigured))

/-- FULL_LOAD (R395, R396, R425, R475): of the source that IMG_SRC selects; `img` is what host or near memory holds there. -/
def execFullLoad (m : Master) (img : Image) (s : State) : Res :=
  .next (ownerOnly m imgCtrl (fun s =>
    if 2 ≤ srcSel s ∧ m ≠ .pf0 then ignoreWrite m imgCtrl 2 s
    else if !allUnconfigured s then imgReject 1 s
    else if s.sec.state = 2 then imgReject 6 s
    else updImg (fun g => { g with loads := g.loads ++ [{ image := sourceImage s img, src := srcSel s }] }) s) s)

/-! ### Slots (R379, R380) -/

/-- The load in progress reads a slot (R380). -/
def slotRead (s : State) (b : Bool) : Bool := (s.img.loads.head?).any (fun l => l.part.isNone && l.src == b2n b)

def updSlot (b : Bool) (f : Slot → Slot) (s : State) : State :=
  updImg (fun g => if b then { g with slotB := f g.slotB } else { g with slotA := f g.slotA }) s

/-- A slot write begins by erasing the commit record, so that the slot stays uncommitted until the write ends (R380). -/
def writeSlot (b : Bool) (img : Image) (s : State) : State :=
  let i := sourceImage s img
  updImg (fun g => { g with jobs := g.jobs ++ [.slot b g.len.toNat] })
    (updSlot b (fun x => { image := some i, gen := x.gen + 1, commit := none }) s)

/-- A flash write of a slot, or its rejection (R380, R425, R475). -/
def trySlot (b : Bool) (img : Image) (s : State) : State :=
  if srcSel s < 2 then imgReject 5 s
  else if s.pwr.flashWp then imgReject 3 s
  else if s.sec.state = 2 then imgReject 6 s
  else if slotRead s b then imgReject 2 s
  else if 67108864 < s.img.len.toNat then imgReject 4 s
  else writeSlot b img s

/-- WRITE_SLOT_A (R380, R475). -/
def execWriteSlotA (m : Master) (img : Image) (s : State) : Res := .next (ownerOnly m imgCtrl (trySlot false img) s)

/-- WRITE_SLOT_B (R380, R475). -/
def execWriteSlotB (m : Master) (img : Image) (s : State) : Res := .next (ownerOnly m imgCtrl (trySlot true img) s)

/-- SET_BOOT_SLOT (R379, R425, R475): the boot control word's preferred slot. -/
def execSetBootSlot (m : Master) (slotB : Bool) (s : State) : Res :=
  .next (ownerOnly m imgCtrl (fun s =>
    if s.pwr.flashWp then imgReject 3 s
    else if s.sec.state = 2 then imgReject 6 s
    else vecEvent 0 2 (updImg (fun g => { g with boot := slotB }) s)) s)

/-- The write in front has ended: PF0's vector 2 (R466). -/
def jobDone (f : Img → Img) (rest : List FlashJob) (s : State) : State :=
  vecEvent 0 2 (updImg (fun g => f { g with jobs := rest }) s)

/-- FLASH_WRITE_COMPLETE (R380): the new commit record is written. -/
def execFlashWriteComplete (s : State) : Res :=
  .next (match s.img.jobs with
    | .slot b len :: rest => updSlot b (fun x => { x with commit := some (x.gen, len) }) (jobDone id rest s)
    | _ => s)

/-! ### Saved trims (R381) -/

/-- The older trim copy: an invalid one, else the lower generation. -/
def olderTrim (g : Img) : Bool := g.trim0.valid && (!g.trim1.valid || decide (g.trim1.gen < g.trim0.gen))

/-- The valid copy with the higher generation exists. -/
def haveTrims (g : Img) : Bool := g.trim0.valid || g.trim1.valid

def putTrim (copy : Bool) (x : Trim) (g : Img) : Img := if copy then { g with trim1 := x } else { g with trim0 := x }

/-- The next generation of the saved trims. -/
def nextTrim (g : Img) : Trim := { gen := Nat.max g.trim0.gen g.trim1.gen + 1, valid := true }

/-- SAVETRIM (R381, R425, R475): the older copy is written; FLASH_WP_N does not block it. -/
def execSavetrim (m : Master) (s : State) : Res :=
  .next (ownerOnly m imgCtrl (fun s =>
    if s.sec.state = 2 then imgReject 6 s
    else
      let c := olderTrim s.img
      updImg (fun g => { g with jobs := g.jobs ++ [.trim c] }) (updImg (putTrim c {}) s)) s)

/-- SAVETRIM_COMPLETE (R381): the older copy holds its new generation and digest. -/
def execSavetrimComplete (s : State) : Res :=
  .next (match s.img.jobs with
    | .trim c :: rest => jobDone (fun g => putTrim c (nextTrim g) g) rest s
    | _ => s)

/-! ### Grade certificates (R31-R34) -/

/-- The first `n` entries are below 512 and strictly ascending. -/
def strictUp : List Nat → Bool
  | [] => true
  | [x] => decide (x < 512)
  | x :: y :: r => decide (x < y) && strictUp (y :: r)

/-- Fields of a certificate (R32): GRADE, NDIS, CSEQ, the 64 entries of DIS, and the digest that images carry as CERTDIG. -/
def certGrade (c : Cert) : Nat := fieldLE c.bytes 6 2
def certNdis (c : Cert) : Nat := fieldLE c.bytes 8 2
def certSeq (c : Cert) : Nat := fieldLE c.bytes 12 4
def certDis (c : Cert) : List Nat := (List.range 64).map (fun i => fieldLE c.bytes (64 + 2 * i) 2)
def certDigest (c : Cert) : Nat := Config.sha3 (c.bytes.map BitVec.toNat)

/-- Every reserved byte is 0 (R32). -/
def certRsv0 (c : Cert) : Bool :=
  decide (fieldLE c.bytes 10 2 = 0 ∧ fieldLE c.bytes 56 8 = 0) && ((c.bytes.drop 192).take 64).all (· == 0)

/-- A certificate is valid on this device (R31, R32). -/
def certValid (s : State) (c : Cert) : Bool :=
  let n := certNdis c
  let g := certGrade c
  s.sec.pufOk && decide (c.bytes.length = 2676 ∧ fieldLE c.bytes 0 4 = 0x0C90CE27 ∧ fieldLE c.bytes 4 2 = 1)
  && decide (g = 512 ∨ g = 480 ∨ g = 448) && decide (n = 512 - g) && strictUp ((certDis c).take n) && ((certDis c).drop n).all (fun x => x == 0xFFFF)
  && certRsv0 c && c.sigOk && decide (fieldLE c.bytes 16 32 = s.sec.iddig)

def certCopy (g : Img) (copy : Bool) : Option Cert := if copy then g.cert1 else g.cert0
def putCert (copy : Bool) (c : Option Cert) (g : Img) : Img := if copy then { g with cert1 := c } else { g with cert0 := c }

/-- CSEQ of the certificate in use. -/
def cseqInUse (s : State) : Option Nat := s.img.certUse.bind (fun c => (certCopy s.img c).map certSeq)

/-- The copy that a certificate write takes: the one not in use. With none in use the spec does not name it: a free choice. -/
def certTarget (s : State) : Bool × State :=
  match s.img.certUse with
  | some c => (!c, s)
  | none =>
    let (v, s) := takeFree s
    (v.getLsbD 0, s)

/-- WRITE_GRADE_CERTIFICATE (R33, R425, R475): `cert` is what the source holds. In every security state; a certificate that fails is
rejected and nothing is written; the copy not in use is erased first. -/
def execWriteGradeCertificate (m : Master) (cert : Cert) (s : State) : Res :=
  .next (ownerOnly m imgCtrl (fun s =>
    if srcSel s < 2 then imgReject 5 s
    else if s.pwr.flashWp then imgReject 3 s
    else if s.img.len.toNat < 2676 ∨ 32768 < s.img.len.toNat ∨ !certValid s cert ∨ (cseqInUse s).any (fun n => decide (certSeq cert ≤ n)) then imgReject 7 s
    else
      let (c, s) := certTarget s
      updImg (fun g => { g with jobs := g.jobs ++ [.cert c cert] }) (updImg (putCert c none) s)) s)

/-- CERTIFICATE_WRITE_COMPLETE (R33): the copy is written; the copy in use stays so until the next cold start. -/
def execCertificateWriteComplete (s : State) : Res :=
  .next (match s.img.jobs with
    | .cert c x :: rest => jobDone (putCert c (some x)) rest s
    | _ => s)

/-- Start step 4 of a cold start (R33): the valid copy with the higher CSEQ, or the only valid copy; of two valid copies with one CSEQ,
which R33 does not order, copy 0 (log 165, DESIGN CHOICE). -/
def chooseCert (s : State) : Option (Bool × Cert) :=
  let a := s.img.cert0.filter (certValid s)
  let b := s.img.cert1.filter (certValid s)
  match a, b with
  | some x, some y => if certSeq x < certSeq y then some (true, y) else some (false, x)
  | some x, none => some (false, x)
  | none, some y => some (true, y)
  | none, none => none

/-- The map in force (R31, R34): with no valid certificate every array counts as disabled. -/
def applyCert (c : Option (Bool × Cert)) (s : State) : State :=
  updImg (fun g => match c with
    | none => { g with certUse := none, certOk := false, disabled := List.range 512, grade := 0, certDig := 0 }
    | some (k, x) => { g with certUse := some k, certOk := true, disabled := (certDis x).take (certNdis x), grade := certGrade x, certDig := certDigest x }) s

end Sys2Proof.Machine
end

