-- ==== Sys2Proof/Machine/Security.lean ====
section
/-! DEFINITION. Security states and commands, debug levels, the wipe, and attestation (R420-R434, R440). -/

namespace Sys2Proof.Machine

def secMbgo : Nat := 0x120040

/-- The result of a command is set: RES, and PF0's vector 3 (R424, R466). -/
def secRes (r : Nat) (s : State) : State := vecEvent 0 3 (updSec (fun x => { x with res := r }) s)

/-- DSTATE (R430). -/
def dstate (x : Sec) : Nat := if x.d3 then 3 else if x.d2.isSome then 2 else if x.d1 then 1 else 0

/-- Extend M5 with a change: one byte for the axis, then its new value (R428). Their codes are not stated (log 5, DESIGN CHOICE). -/
def measure5 (axis v : Nat) (s : State) : State := extendM 5 (Config.sha3 [axis, v]) s

/-! ### The provisioning record (R423) -/

/-- A new record in the older copy, with its extension of M2 (R423, R428). -/
def putRecord (r : Prov) (s : State) : State :=
  let older := s.sec.prov0.valid && (!s.sec.prov1.valid || decide (s.sec.prov1.sgen < s.sec.prov0.sgen))
  extendM 2 r.digest (updSec (fun x => if older then { x with prov1 := r } else { x with prov0 := r }) s)

/-- The record in use with the S2 flag set or cleared, as a new record (R423, R424). -/
def flagRecord (s2 : Bool) (s : State) : State :=
  match provInUse s with
  | none => s
  | some r => putRecord { r with sgen := r.sgen + 1, s2, digest := Config.sha3 [r.digest, r.sgen + 1, b2n s2] } s

/-- The security state that the record gives at a start (R420, R423). -/
def provState (s : State) : Nat :=
  if s.sec.pufOk then (match provInUse s with
    | none => 0
    | some r => if r.s2 then 2 else 1)
  else if s.sec.prov0.erased && s.sec.prov1.erased then 0 else 2

/-! ### The checks of a command (R424) -/

/-- The command's layout, tick, state, signature and remaining conditions, in order; the first that fails sets RES. -/
def secCmd (m : Master) (h : SecHdr) (cmd len : Nat) (signed : Bool) (stateOk condOk : State → Bool) (unsigned effect : State → State)
    (s : State) : State :=
  ownerOnly m secMbgo (fun s =>
    if h.cmd.toNat ≠ cmd ∨ !h.rsv0 ∨ h.len.toNat ≠ 16 + len + (if signed then 2420 else 0) then secRes 4 s
    else if !within16 s.tick.now h.tick.toNat then secRes 4 s
    else if !stateOk s then secRes 2 s
    else if signed && !(h.sigOk && s.sec.pufOk) then secRes 3 (unsigned s)
    else if !condOk s then secRes 4 s
    else effect s) s

/-- The payload of PROVISION and ROTATE is within range (R424). -/
def keysOk (k : KeyPayload) : Bool :=
  decide (k.nkey.toNat ≤ 4 ∧ k.keyids.length = k.nkey.toNat) && k.keyids.all (fun x => decide (0x10000 ≤ x.toNat)) && decide k.keyids.Nodup && k.rsv0

/-- Flash takes no record while FLASH_WP_N is low (R380). -/
def recordFree (s : State) : Bool := !s.pwr.flashWp

def inState (l : List Nat) (s : State) : Bool := l.contains s.sec.state

/-- PROVISION (R424): the record is written, then S1. The generation of a first record is not stated: a free value. -/
def execProvision (m : Master) (h : SecHdr) (k : KeyPayload) (s : State) : Res :=
  .next (secCmd m h 1 (1320 + 1316 * k.nkey.toNat) true (inState [0]) (fun s => s.mem.ecc && keysOk k && recordFree s) id
    (fun s =>
      let (v, s) := takeFree s
      secRes 1 (updSec (fun x => { x with stateNext := some 1 })
        (putRecord { sgen := v.toNat % 2 ^ 32, s2 := false, keys := k.keyids, digest := k.digest, valid := true, erased := false } s))) s)

/-- ROTATE (R424): new keys, SGEN + 1. -/
def execRotate (m : Master) (h : SecHdr) (k : KeyPayload) (s : State) : Res :=
  .next (secCmd m h 2 (1320 + 1316 * k.nkey.toNat) true (inState [1]) (fun s => keysOk k && recordFree s) id
    (fun s => secRes 1 (match provInUse s with
      | none => s
      | some r => putRecord { r with sgen := r.sgen + 1, keys := k.keyids, digest := k.digest } s)) s)

/-- LOCKDOWN (R424, R433): the S2 flag, then S2; an outstanding challenge is void. -/
def execLockdown (m : Master) (h : SecHdr) (s : State) : Res :=
  .next (secCmd m h 3 0 false (fun s => inState [1] s && !s.sec.d3) recordFree id
    (fun s => secRes 1 (updSec (fun x => { x with stateNext := some 2, chal := none }) (flagRecord true s))) s)

/-- RELEASE (R424): the S2 flag is cleared, then S1. -/
def execSecRelease (m : Master) (h : SecHdr) (s : State) : Res :=
  .next (secCmd m h 4 0 true (inState [2]) recordFree id
    (fun s => secRes 1 (updSec (fun x => { x with stateNext := some 1 }) (flagRecord false s))) s)

/-- DEPROVISION (R424, R434): the wipe, then both copies are erased and S0. -/
def execDeprovision (m : Master) (h : SecHdr) (s : State) : Res :=
  .next (secCmd m h 5 0 true (inState [1, 2]) (fun s => allUnconfigured s && recordFree s && s.sec.wipe.isNone) id
    (fun s => secRes 5 (updSec (fun x => { x with wipe := some .deprovision }) s)) s)

/-! ### Debug levels (R430-R433) -/

/-- The owner's DEBUG0 and DEBUG1 are due at the next boundary; D3 ends only by a cold start (R430). -/
def debugCmd (m : Master) (h : SecHdr) (one : Bool) (s : State) : State :=
  secCmd m h (if one then 0x11 else 0x10) 0 false (fun s => !s.sec.d3) (fun _ => true) id
    (fun s => secRes 1 (updSec (fun x => { x with dbgNext := x.dbgNext ++ [one] }) s)) s

/-- DEBUG0 (R430, R431). -/
def execDebug0 (m : Master) (h : SecHdr) (s : State) : Res := .next (debugCmd m h false s)

/-- DEBUG1 (R430). -/
def execDebug1 (m : Master) (h : SecHdr) (s : State) : Res := .next (debugCmd m h true s)

/-- A partition may be debugged (R430). -/
def debuggable (s : State) (p : PartId) : Bool :=
  decide ((s.part p).state = PState.running ∨ (s.part p).state = PState.draining ∨ (s.part p).state = PState.halted)

/-- Security, power and partition allow D2 (R417, R430, R433). -/
def d2Allowed (s : State) (p : PartId) : Bool := decide (s.sec.state ≠ 2) && memOn s && !s.sec.d3 && debuggable s p

/-- DEBUG2 (R424, R430, R431): pending until VF p consents; its vector 3 is signalled. -/
def execDebug2 (m : Master) (h : SecHdr) (p : Byte) (rsv0 : Bool) (s : State) : Res :=
  .next (secCmd m h 0x12 8 false (fun s => decide (64 ≤ p.toNat) || d2Allowed s (pid p.toNat)) (fun _ => decide (p.toNat < 64) && rsv0) id
    (fun s => vecEvent (vfOf (pid p.toNat)) 3
      (secRes 5 (updSec (fun x => { x with d2req := some (p.toNat, h.nonce.toNat, false, s.tick.now) }) s))) s)

/-- The ticks that a challenge and a DEBUG2 request last (R431, R432). -/
def secTicks : Nat := 1024

/-- A challenge is outstanding (R432). -/
def chalLive (s : State) : Bool := s.sec.chal.any (fun c => decide (s.tick.now < c.2 + secTicks))

/-- CHALLENGE (R424, R427, R432): 32 random bytes. Where they are read is not stated. -/
def execChallenge (m : Master) (h : SecHdr) (s : State) : Res :=
  .next (secCmd m h 0x13 0 false (inState [0, 1]) (fun s => !s.sec.barred) id
    (fun s =>
      let v := Config.random256 s.freeCtr
      let s := { s with freeCtr := s.freeCtr + 1 }
      secRes 1 (emit (.report 0 [v]) (updSec (fun x => { x with chal := some (v, s.tick.now) }) s))) s)

/-- A failed UNLOCK response (R427, R455): counted, the SECURITY alarm; the third puts an S1 device into S2 and bars CHALLENGE in S0. -/
def unlockFailed (s : State) : State :=
  let s := alarm 11 (updSec (fun x => { x with fails := x.fails + 1 }) s)
  if s.sec.fails < 3 then s
  else if s.sec.state = 1 then updSec (fun x => { x with stateNext := some 2, chal := none }) (flagRecord true s)
  else if s.sec.state = 0 then updSec (fun x => { x with barred := true }) s
  else s

/-- UNLOCK (R424, R430, R432-R434): a response that passes starts the wipe. S2 that is due bars it (R433). -/
def execUnlock (m : Master) (h : SecHdr) (s : State) : Res :=
  .next (secCmd m h 0x14 0 true (fun s => inState [0, 1] s && decide (s.sec.stateNext ≠ some 2))
    (fun s => chalLive s && s.pwr.dbgEn && memOn s && allUnconfigured s && s.sec.wipe.isNone) unlockFailed
    (fun s => secRes 5 (updSec (fun x => { x with chal := none, wipe := some .d3 }) s)) s)

/-- CHALLENGE_EXPIRY (R432): a challenge that has stood 1,024 ticks is void. -/
def execChallengeExpiry (s : State) : Res :=
  .next (if s.sec.chal.isSome && !chalLive s then updSec (fun x => { x with chal := none }) s else s)

/-- A DEBUG2 request without consent after 1,024 ticks lapses (R431). -/
def lapseConsent (s : State) : State :=
  match s.sec.d2req with
  | some (_, _, false, t) => if t + secTicks ≤ s.tick.now then secRes 4 (updSec (fun x => { x with d2req := none }) s) else s
  | _ => s

/-- CONSENT_LAPSE (R431). -/
def execConsentLapse (s : State) : Res := .next (lapseConsent s)

/-- Consent of VF p: the command's nonce gives it, at any time it may be withdrawn, and D2 then ends at the next boundary (R431). -/
def giveConsent (p : PartId) (nonce : W32) (yes : Bool) (s : State) : State :=
  updSec (fun x => match x.d2req with
    | some (q, n, c, t) =>
      if q = p.1 then { x with d2req := some (q, n, if yes then c || n == nonce.toNat else false, t), d2end := x.d2end || (!yes && x.d2 == some p.1) }
      else { x with d2end := x.d2end || (!yes && x.d2 == some p.1) }
    | none => { x with d2end := x.d2end || (!yes && x.d2 == some p.1) }) s

/-- PRT_CONSENT (R431, R477): the partition's own VF alone. -/
def execPrtConsent (m : Master) (p : PartId) (nonce : W32) (consent : Bool) (s : State) : Res :=
  .next (if !arrives s m then s else if m = .vf (vfOf p) then giveConsent p nonce consent s else ignoreWrite m (prtOff p 0x18) 1 s)

/-! ### The wipe (R434) -/

/-- A core's on-die stores after the wipe (R434). -/
def wipeCore (c : Core) : Core :=
  { c with ws := [], eng := c.eng.map (fun e => { e with accA := some [], accB := some [] })
           ve := { c.ve with temps := [], recipes := Vector.replicate 16 none, tables := Vector.replicate 4 {} } }

/-- A far address lies on an expander in service (R337, R434). -/
def farInService (s : State) (a : Nat) : Bool :=
  s.mem.regions.any (fun r => r.far && decide (r.base ≤ a ∧ a < r.base + r.size)) && !offline s (0x8000000000000000 + a)

/-- Zeros in near memory, the far regions in service and the on-die stores (R434). -/
def wipeAll (s : State) : State :=
  let keep := s.mem.far.filter (fun x => !farInService s x.1)
  let s := updMem (fun m => { m with near := [], far := keep }) s
  { s with cores := s.cores.map wipeCore, parts := s.parts.map (fun x => { x with xmem := [] }) }

/-- WIPE_COMPLETE (R424, R432, R434): D3, or S0 with both copies erased, holds from the next boundary. -/
def execWipeComplete (s : State) : Res :=
  .next (match s.sec.wipe with
    | none => s
    | some .d3 => updSec (fun x => { x with wipe := none, d3Next := true }) (wipeAll s)
    | some .deprovision => secRes 1 (updSec (fun x => { x with wipe := none, prov0 := {}, prov1 := {}, stateNext := some 0 }) (wipeAll s)))

/-! ### The boundary (R408, steps 3 and 4) -/

/-- Every running partition is drained (R417). -/
def drainRunning (s : State) : State :=
  forAll (allParts.filter (fun p => decide ((s.part p).state = PState.running))) (fun p s => setPState p .draining s) s

/-- The security state that is due holds (R408, R417, R424, R428, R433, R455). S2 entry ends D2 (R430). S2 is never held beside D3
(R440): while D3 holds, an S2 that is due waits for the cold start that ends D3, which takes it from the record. -/
def boundarySec (s : State) : State :=
  match s.sec.stateNext with
  | none => s
  | some n =>
    if n = 2 ∧ s.sec.d3 then updSec (fun x => { x with stateNext := none }) s
    else
      let old := s.sec.state
      let s := updSec (fun x => { x with stateNext := none, state := n.1, d2 := if n = 2 then none else x.d2 }) s
      if n.1 = old then s
      else
        let s := measure5 0 n.1 s
        if n = 2 then drainRunning (alarm 11 (updSec (fun x => { x with chal := none }) s)) else s

/-- The debug commands that are due, oldest first (R430): DEBUG0 ends D1 and D2 together. -/
def dueDebug (x : Sec) : Sec :=
  x.dbgNext.foldl (fun x one => if one then { x with d1 := true } else { x with d1 := false, d2 := none, d2req := none }) { x with dbgNext := [] }

/-- D2 ends on withdrawn consent, in S2, and where its partition may no longer be debugged (R430, R431). -/
def endD2 (s : State) : State :=
  let over_ := s.sec.d2end || s.sec.d2.any (fun p => decide (s.sec.state = 2) || !debuggable s (pid p))
  updSec (fun x => { x with d2end := false, d2 := if over_ then none else x.d2 }) s

/-- D2 begins once consented; a request that its conditions no longer allow is rejected (R430, R431). -/
def beginD2 (s : State) : State :=
  match s.sec.d2req with
  | none => s
  | some (p, n, yes, _) =>
    if !d2Allowed s (pid p) then secRes 2 (updSec (fun x => { x with d2req := none }) s)
    else if yes then secRes 1 (updSec (fun x => { x with d2req := none, d2 := some p, d2nonce := n }) s)
    else lapseConsent s

/-- D3 begins, unless S2, the power state or a partition bars it (R417, R430, R433). -/
def beginD3 (s : State) : State :=
  if !s.sec.d3Next then s
  else
    let s := updSec (fun x => { x with d3Next := false }) s
    if s.sec.state = 2 ∨ !memOn s ∨ !allUnconfigured s then secRes 2 s
    else secRes 1 (updSec (fun x => { x with d3 := true, d2 := none, d2req := none }) s)

/-- Debug at a boundary (R408, R430); P4 holds D0 (R433). -/
def boundaryDebug (s : State) : State :=
  if s.pwr.state = .p4 then s else beginD3 (beginD2 (endD2 (updSec dueDebug s)))

/-- Security and debug at a boundary (R408, steps 3 and 4): a change of the level shown is measured (R428). -/
def boundarySecurity (s : State) : State :=
  let old := dstate s.sec
  let s := boundaryDebug (boundarySec s)
  if dstate s.sec = old then s else measure5 1 (dstate s.sec) s

/-! ### Attestation (R428, R429) -/

/-- A report request: at most four are held, and none without an identity or off P0-P3 (R420, R429). -/
def requestReport (f : FuncId) (nonce : Nat) (addr : W64) (reject : State → State) (s : State) : State :=
  if !s.sec.pufOk ∨ 4 ≤ (s.func f).atts.length then reject s
  else updFunc f (fun x => { x with atts := x.atts ++ [{ nonce, addr := addr &&& 0xFFFFFFFFFFFFFFC0 }] }) s

/-- SEC_ATTGO (R429, R479): PF0's, with the nonce and address of the SEC block. -/
def execSecAttgo (m : Master) (s : State) : Res :=
  .next (if !arrives s m then s
    else if m = .pf0 then requestReport 0 s.sec.attNonce s.sec.attAddr (updSec (fun x => { x with attRej := true })) s
    else ignoreWrite m 0x120038 1 s)

/-- PRT_ATTGO (R429, R477): the partition's VF, with the nonce and address of its window. -/
def execPrtAttgo (m : Master) (p : PartId) (s : State) : Res :=
  .next (if !arrives s m then s
    else if m = .vf (vfOf p) then requestReport (vfOf p) (s.part p).attNonce (s.part p).attAddr (prtError p (fun x => { x with attrej := true })) s
    else ignoreWrite m (prtOff p 0x48) 1 s)

def pstateCode : PowState → Nat
  | .p0 => 0
  | .p1 => 1
  | .p2 => 2
  | .p3 => 3
  | .p4 => 4

/-- Bytes of a report that only the security engine can make: keys and signatures, free values. -/
def freeBytes (c : Nat) : Nat → List Byte
  | 0 => []
  | n + 1 => BitVec.truncate 8 (Config.free (c + n)) :: freeBytes c n

/-- Bytes 0-511 of a report (R429). -/
def reportFields (s : State) (f : FuncId) (r : AttReq) : List Byte :=
  let part := if f.1 = 0 then 0xFFFF else f.1 - 1
  leBytes 4 0x0C90A77E ++ leBytes 2 1
  ++ leBytes 5 (s.sec.state + 256 * dstate s.sec + 65536 * pstateCode s.pwr.state + 16777216 * timeCode s.tick.state + 4294967296 * b2n s.flt.limited)
  ++ leBytes 1 (b2n s.mem.ecc + 2 * b2n s.pwr.dbgEn) ++ leBytes 2 s.img.grade ++ leBytes 2 part ++ leBytes 32 r.nonce ++ leBytes 32 s.sec.iddig
  ++ leBytes 8 s.tick.now ++ leBytes 8 ((s.img.loaded.map (fun i => i.imgver.toNat)).getD 0) ++ s.sec.m.toList.flatMap (leBytes 32)
  ++ leBytes 32 (if f.1 = 0 then 0 else (s.part (pid (f.1 - 1))).partDig) ++ leBytes 4 ((s.img.loaded.map (fun i => i.keyid.toNat)).getD 0)
  ++ leBytes 4 ((provInUse s).map Prov.sgen |>.getD 0) ++ List.replicate 120 0

/-- ATTESTATION_REPORT (R429, R466): the oldest request is served in host memory and signalled. -/
def execAttestationReport (f : FuncId) (s : State) : Res :=
  .next (match (s.func f).atts with
    | [] => s
    | r :: rest =>
      if s.pwr.state = .p4 then s
      else
        let data := reportFields s f r ++ freeBytes s.freeCtr 6152
        let s := hostWrite r.addr.toNat data { s with freeCtr := s.freeCtr + 6152 }
        vecEvent f (if f.1 = 0 then 4 else 1) (updFunc f (fun x => { x with atts := rest }) s))

end Sys2Proof.Machine
end

