-- ==== Sys2Proof/Machine/SelfTest.lean ====
section
/-! DEFINITION. Requested self-tests: request, start, end (R402, R410, R457-R461). -/

namespace Sys2Proof.Machine

def fltTestreq : Nat := 0xE0048

/-- Test kinds (R457). -/
def tFULL : Nat := 1
def tSHORT : Nat := 2
def tCORE : Nat := 3
def tCHANNEL : Nat := 4
def tPORTEQ : Nat := 5
def tCXLMEAS : Nat := 6

/-- STATUS of a test record (R457). -/
def statCode : TStat → Nat
  | .queued => 1
  | .deferred => 2
  | .running => 3
  | .passed => 4
  | .failed => 5
  | .refused => 6
  | .discarded => 7

/-- RESID in range for the kind: a core, channel or port (R457). -/
def resOk (kind res : Nat) : Bool :=
  if kind = tCORE then decide (res < 128)
  else if kind = tCHANNEL then decide (res < 16)
  else if kind = tPORTEQ then decide (res < 8)
  else if kind = tCXLMEAS then decide (res < 4)
  else decide (kind = tFULL ∨ kind = tSHORT)

/-- A test record (R446, R457, R466): each change of status writes one and signals PF0's vector 6. A failure is logged at priority 1,
in class 3 where only arrays failed, else in class 5 (R441, R459). -/
def testRecord (t : Test) (failmap detail : Nat) (arraysOnly : Bool) (s : State) : State :=
  let bad := decide (t.stat = TStat.failed)
  vecEvent 0 6 (logR 0x0008 (if bad then 1 else 3) (if bad then (if arraysOnly then 3 else 5) else 0xFF)
    (if t.kind = tCORE then t.res else if t.kind = tCHANNEL then 0x200 + t.res else if t.kind = tPORTEQ then 0x100 + t.res
      else if t.kind = tCXLMEAS then 0x300 + t.res else 0xFFFF) 0xFFFF
    [t.num, t.kind, statCode t.stat, t.res, failmap, detail] s)

/-- Give a test its status, with the record. -/
def setStat (n : Nat) (st : TStat) (failmap detail : Nat) (arraysOnly : Bool) (s : State) : State :=
  match s.flt.tests.find? (fun t => t.num == n) with
  | none => s
  | some t => testRecord { t with stat := st } failmap detail arraysOnly
      (updFlt (fun f => { f with tests := mapIf (fun t => t.num == n) (fun t => { t with stat := st }) f.tests }) s)

/-- A group of the partition uses a link port (R279). -/
def usesPort (x : Part) (port : Nat) : Bool := x.groups.any (fun g => decide (0 < (g.bufs.getD port (0, 0)).2))

/-- Partitions that a test's resource belongs to: every configured one for the array tests, the holder of a core, those with a group
on a port (R457, R458). -/
def testParts (s : State) (kind res : Nat) : List PartId :=
  if kind = tFULL ∨ kind = tSHORT then allParts.filter (fun p => decide ((s.part p).state ≠ PState.unconfigured))
  else if kind = tCORE then (partOfCore s res).toList
  else if kind = tPORTEQ then allParts.filter (fun p => usesPort (s.part p) res)
  else []

def busyPart (s : State) (p : PartId) : Bool :=
  decide ((s.part p).state = PState.loading ∨ (s.part p).state = PState.running ∨ (s.part p).state = PState.draining)

/-- A CORE or PORTEQ test that waits or runs keeps new tasks off its partitions (R458). -/
def holdTests (s : State) : State :=
  let held (p : PartId) : Bool := s.flt.tests.any (fun t => (t.kind == tCORE || t.kind == tPORTEQ) && decide (t.stat = TStat.deferred ∨ t.stat = TStat.running)
    && (testParts s t.kind t.res).contains p)
  forAll allParts (fun p s => updPart p (fun x => { x with testHold := held p }) s) s

/-- The status a new test gets (R458). -/
def firstStat (s : State) (kind res : Nat) : TStat :=
  if !memOn s ∨ (testParts s kind res).any (fun p => (s.part p).tlock) then .refused
  else if (testParts s kind res).any (busyPart s) then .deferred
  else .queued

/-- FLT_TESTREQ (R457, R458, R478): a new test, or the number of the one of its kind and resource that waits. -/
def execFltTestreq (m : Master) (kind : Byte) (res : W16) (s : State) : Res :=
  .next (ownerOnly m fltTestreq (fun s =>
    let k := kind.toNat
    let r := res.toNat
    if !resOk k r then ignoreWrite m fltTestreq 2 s
    else match s.flt.tests.find? (fun t => t.kind == k && (t.res == r || k == tFULL || k == tSHORT) && decide (t.stat = TStat.queued ∨ t.stat = TStat.deferred)) with
      | some t => updFlt (fun f => { f with testLast := t.num }) s
      | none =>
        let t : Test := { num := s.flt.testNext, kind := k, res := r, stat := firstStat s k r }
        let s := updFlt (fun f => { f with testLast := t.num, testNext := t.num + 1, tests := f.tests ++ [t] }) s
        holdTests (testRecord t 0 0 false s)) s)

/-- A partition has no task in flight: none runs, and none that has been formed will start (R458). -/
def noTask (x : Part) : Bool := x.task.isNone && (x.queue.isEmpty || decide (x.state ≠ PState.running))

/-- The test's opportunity has come (R457, R458). -/
def testDue (s : State) (t : Test) : Bool :=
  decide (t.stat = TStat.queued ∨ t.stat = TStat.deferred) && memOn s
  && (if t.kind = tFULL ∨ t.kind = tSHORT then allPartsIn s (fun x => decide (x = PState.unconfigured ∨ x = PState.halted))
      else if t.kind = tCORE ∨ t.kind = tPORTEQ then (testParts s t.kind t.res).all (fun p => noTask (s.part p))
      else s.img.dev.upkeep.any (fun u => decide (u.1 = (if t.kind = tCHANNEL then 0 else t.res + 1) ∧ 0 < u.2.2.1)))

/-- SELF_TEST_START (R410, R457, R458): a FULL test puts the device into limited service; PORTEQ equalises its port. -/
def execSelfTestStart (n : Nat) (s : State) : Res :=
  .next (match s.flt.tests.find? (fun t => t.num == n) with
    | none => s
    | some t =>
      if !testDue s t then s
      else
        let s := setStat n .running 0 0 false s
        let s := whenS (t.kind == tFULL) (updFlt (fun f => { f with limited := true, normalDue := false })) s
        let i := portid t.res
        let s := whenS (t.kind == tPORTEQ && (s.port i).role != 0) (startTraining i) s
        holdTests s)

/-- Arrays that a failed test names (R459, R460): a CORE test condemns an array that has failed before; any other failure is a first. -/
def failArrays (kind : Nat) (l : List (Fin 512)) (s : State) : State :=
  forAll l.eraseDups (fun a s =>
    if s.flt.failedOnce.contains a.1 then (if kind = tCORE then condemn a.1 s else s)
    else updFlt (fun f => { f with failedOnce := f.failedOnce ++ [a.1] }) s) s

/-- A qualifying test has passed (R402, R410): a FULL test, or the SHORT test of a warm start whose last full test passed. -/
def qualifies (s : State) (kind : Nat) : Bool := kind == tFULL || (kind == tSHORT && s.img.lastStart == 2 && s.flt.fullPassed)

/-- What a test's end does to numeric service (R402, R410, R455, R459). -/
def serviceAfter (kind : Nat) (ok : Bool) (s : State) : State :=
  if ok then
    let s := whenS (kind == tFULL) (updFlt (fun f => { f with fullPassed := true })) s
    whenS (qualifies s kind && s.flt.limited) (updFlt (fun f => { f with normalDue := true })) s
  else if kind = tFULL ∨ kind = tSHORT then
    updFlt (fun f => { f with limited := true, normalDue := false, testFailed := true, fullPassed := f.fullPassed && kind != tFULL }) s
  else s

/-- SELF_TEST_COMPLETE (R410, R455, R457-R460): `failmap` is 0 where it passed; `arrays` are the failing physical arrays. -/
def execSelfTestComplete (n : Nat) (failmap : W64) (detail : W32) (arrays : List (Fin 512)) (s : State) : Res :=
  .next (match s.flt.tests.find? (fun t => t.num == n) with
    | none => s
    | some t =>
      if t.stat ≠ .running then s
      else
        let ok := failmap == 0
        let arraysOnly := decide (failmap.toNat < 16 ∧ (t.kind = tFULL ∨ t.kind = tSHORT ∨ t.kind = tCORE))
        let s := setStat n (if ok then .passed else .failed) failmap.toNat (if ok then 0 else detail.toNat) arraysOnly s
        let s := whenS (!ok) (fun s => failArrays t.kind arrays (alarm 8 s)) s
        holdTests (serviceAfter t.kind ok s))

/-- A cold start discards every waiting and running test; its record follows once the log runs (R457). -/
def discardTests (old : List Test) (s : State) : State :=
  forAll (old.filter (fun t => decide (t.stat = TStat.queued ∨ t.stat = TStat.deferred ∨ t.stat = TStat.running)))
    (fun t s => testRecord { t with stat := .discarded } 0 0 false s) s

end Sys2Proof.Machine
end

