-- ==== Sys2Proof/Machine/Starts.lean ====
section
/-! DEFINITION. Cold and warm starts, what a loss of power leaves, and recoveries (R326, R340, R398-R405, R420, R428, R462, R485, R486). -/

namespace Sys2Proof.Machine

/-! ### What survives (R401, R423, R454, R485, R486) -/

/-- Flash with its boot control word, trims, certificates and slots survives every loss of power; a write in progress is cut (R33,
R380). -/
def flashOnly (g : Img) : Img :=
  { slotA := g.slotA, slotB := g.slotB, boot := g.boot, trim0 := g.trim0, trim1 := g.trim1, cert0 := g.cert0, cert1 := g.cert1 }

/-- What AON holds of the FLT block (R454, R457, R460, R462). -/
def aonOnly (f : Flt) : Flt :=
  { sticky := f.sticky, counts := f.counts, tests := f.tests, mism := f.mism, failedOnce := f.failedOnce, condemned := f.condemned
    recCause := f.recCause }

/-- The pins and input monitors, which AON holds (R486, R490, R492). -/
def pinsOnly (w : Pwr) : Pwr :=
  { vout := w.vout, aon := w.aon, pwrEn := w.pwrEn, perst := w.perst, refclk := w.refclk, flashWp := w.flashWp, dbgEn := w.dbgEn, brdId := w.brdId }

/-- Every domain but AON without power (R485, R486): near memory, journals, registers and ownership are lost. The ECC setting that the
boot control word gave stands until the next start takes it again (R396, R401). -/
def unpowered (s : State) : State :=
  { State.reset with
    pending := s.pending, out := s.out, freeCtr := s.freeCtr
    mem := { host := s.mem.host, ecc := s.mem.ecc, eccNext := s.mem.eccNext }
    img := { flashOnly s.img with starts := s.img.starts }
    sec := { prov0 := s.sec.prov0, prov1 := s.sec.prov1 }
    pwr := { pinsOnly s.pwr with pwrGood := false }
    flt := aonOnly s.flt }

/-- P4 (R435, R436, R486): PWR_GOOD is deasserted. -/
def powerOff (s : State) : State := updPwr (fun w => { w with state := .p4 }) (unpowered s)

/-! ### Start steps -/

/-- Codes of ID_START (R473). -/
def kCOLD : Nat := 1
def kWARM : Nat := 2
def kCFW : Nat := 3

/-- A device fault record (R446): class 5, priority 0. -/
def deviceFault (kind block : Nat) (s : State) : State := logR 0x000F 0 5 0xFFFF 0xFFFF [kind, block, s.flt.recover] s

/-- Records that AON has held since a recovery (R462). -/
def queueCauses (s : State) : State :=
  let l := s.flt.recCause
  forAll l (fun k s => deviceFault (k % 16) (k / 16) s) (updFlt (fun f => { f with recCause := [] }) s)

/-- Step 2 (R401, R422, R428): none where both Aghorn copies fail. -/
def stepFirmware (e : StartEnv) (s : State) : Option State :=
  if e.fw0Ok || e.fw1Ok then
    some (queueCauses (extendM 0 e.fwDigest (updImg (fun g => { g with fwCopy := if e.fw0Ok then 0 else 1 }) s)))
  else none

/-- Both Aghorn copies are bad: the FIRMWARE alarm; only the I3C target answers (R422, R455). -/
def noFirmware (s : State) : State := alarmBit 10 (updFlt (fun f => { f with fwAlarm := true }) (updImg (fun g => { g with fwCopy := 2 }) s))

/-- Step 3 (R401, R420, R455): the identity. -/
def stepPuf (e : StartEnv) (s : State) : State :=
  let s := updSec (fun x => { x with pufOk := e.pufOk, iddig := if e.pufOk then e.iddig else 0 }) s
  if e.pufOk then s else deviceFault 3 0 (alarm 9 s)

/-- Counts of newly disabled arrays are cleared (R461). -/
def clearDisabled (s : State) : State :=
  let d := s.img.disabled
  updFlt (fun f => { f with mism := f.mism.filter (fun x => !d.contains x.1), failedOnce := f.failedOnce.filter (fun x => !d.contains x) }) s

/-- The certificate of a warm start: the copy that the last cold start chose; with no identity none is valid (R33, R401, R420). -/
def keepCert (s : State) : State :=
  let c := s.img.certUse.bind (fun k => ((certCopy s.img k).filter (certValid s)).map (fun x => (k, x)))
  updImg (fun g => { g with certUse := s.img.certUse }) (applyCert c s)

/-- Step 4 (R33, R34, R401, R428, R460): a cold start chooses the certificate and ends every condemnation, whose counts stay in AON; a warm
start keeps the certificate in use. -/
def stepCert (cold : Bool) (s : State) : State :=
  let s := if cold then
      (let s := updFlt (fun f => { f with condemned := [] }) (applyCert (chooseCert s) s)
       whenS s.img.certOk clearDisabled s)
    else keepCert s
  let s := whenS s.img.certOk (extendM 1 s.img.certDig) s
  extendM 2 ((provInUse s).map Prov.digest |>.getD 0) s

/-- The security state of this start (R420, R423, R455). S2 entry ends D2 (R430), and while D3 holds an S2 that the record gives waits
(R440). -/
def stepState (cold : Bool) (s : State) : State :=
  let old := s.sec.state
  let shown := dstate s.sec
  let n := if provState s = 2 ∧ s.sec.d3 then old else provState s
  let s := updSec (fun x => { x with state := n, stateNext := none, d2 := if n = 2 then none else x.d2 }) s
  if !cold ∧ n ≠ old then
    let s := whenS (n == 2) (alarm 11) (measure5 0 n s)
    if dstate s.sec = shown then s else measure5 1 (dstate s.sec) s
  else s

/-- A warm start that becomes a cold one ends every debug level and the bar on CHALLENGE, and takes an S2 that waited for D3 to end (R404,
R427, R430, R440). -/
def endDebug (s : State) : State :=
  let shown := dstate s.sec
  let s := updSec (fun x => { x with d1 := false, d2 := none, d3 := false, dbgNext := [], d2req := none, d2end := false, d3Next := false, barred := false }) s
  let s := if dstate s.sec = shown then s else measure5 1 (dstate s.sec) s
  stepState false s

/-- Step 8 (R402, R410, R455): the self-test, full when cold, short when warm. -/
def stepSelfTest (cold ok : Bool) (s : State) : State :=
  let s := updFlt (fun f => { f with limited := true, normalDue := false, fullPassed := if cold then ok else f.fullPassed }) s
  if ok then updFlt (fun f => { f with normalDue := f.fullPassed, testFailed := false }) s
  else alarm 8 (updFlt (fun f => { f with testFailed := true }) s)

/-- What a scan gives a CXL port (R337): an expander that fails any step is out of service. -/
def scanPort (x : Cxl) (e : Option ExpanderScan) : Cxl :=
  match e with
  | some e => if e.ok then { x with up := true, serial := e.serial, cap := Nat.min e.cap 0x10000000000, width := e.width, rate := e.rate, latency := e.latency }
              else { x with up := false, cap := 0 }
  | none => { x with up := false, cap := 0 }

/-- A port's expander differs from before a warm start (R340). -/
def portChanged (a b : Cxl) : Bool := a.up && !(b.up && a.serial == b.serial && a.cap == b.cap)

/-- A far run meets a region that lies on a port, alone or interleaved (R339, R340). -/
def runOnPort (s : State) (i a n : Nat) : Bool :=
  isFar a && s.mem.regions.any (fun r => r.far && r.ports.contains i && decide (r.base < tierAddr a + n ∧ tierAddr a < r.base + r.size))

/-- What lay in the regions of a changed port is lost (R340): bytes, variant versions, retained sessions and prefix regions. -/
def loseFar (i : Nat) (s : State) : State :=
  let onPort (idx : Nat) : Bool := s.mem.regions.any (fun r => r.far && r.idx == idx && r.ports.contains i)
  let s := updNodes (mapIf (fun n => runOnPort s i n.base n.bytes) (fun n => { n with inUse := false }))
    (updMem (fun m => { m with far := m.far.filter (fun x => !runOnPort s i (0x8000000000000000 + x.1) 1) }) s)
  forAll allParts (fun p s =>
    let slots := s.img.dev.vslots.any (fun v => v.1 == p.1 && onPort v.2.2.2)
    let s := whenS slots (updPart p (fun x => { x with versions := x.versions.map (fun v => { v with resident := false }) })) s
    let lost := (s.part p).sessions.filter (fun z => match xtAt (s.part p) z.xtab with
      | some t => t.current.any (fun e => runOnPort s i e.base.toNat (e.len.toNat * t.gbytes))
      | none => false)
    forAll lost (releaseSession p) s) s

/-- Step 9 (R337, R340, R401, R455): each port in order; a port out of service and a changed expander raise the FAR alarm. -/
def stepCxl (cold : Bool) (e : StartEnv) (s : State) : State :=
  forAll (List.finRange 4) (fun i s =>
    let old := s.mem.cxl[i.1]'i.2
    let now := scanPort old (e.expanders[i.1]?)
    let changed := !cold && portChanged old now
    let s := whenS changed (loseFar i.1) s
    whenS (changed || !now.up) (alarm 4) (updCxl i (fun _ => now) s)) s

/-- The quiet state (R398): every partition is unconfigured, READY is deasserted, the links are idle. -/
def enterQuiet (s : State) : State :=
  let s := forAll allParts (fun p s => whenS (decide ((s.part p).state ≠ PState.unconfigured)) (unconfigure p) s) s
  let s := updMem (fun m => { m with regions := [], domains := [] }) s
  let s := updPwr (fun w => { w with ready := false }) (updImg (fun g => { g with quiet := true, loaded := none, models := [], policies := [], dev := {}, parts := [] }) s)
  forAll allPorts (fun i s => updPort i (fun x => { x with role := 0, state := .off, replay := [], transit := [] }) s) s

/-- Step 10 of a cold start, for one slot (R393, R399): its outcome record, and the device configured where it is accepted. -/
def trySlotBoot (b : Bool) (s : State) : State × Bool :=
  let slot := if b then s.img.slotB else s.img.slotA
  let l : Loading := { image := slot.image.getD default, src := b2n b }
  let bad := verify s l.image none (some slot)
  let s := writeOutcome l bad s
  if bad.isSome then (s, false) else (installFull l s, true)

/-- Steps 10 to 15 of a cold start (R399, R401): the preferred slot, then the other once, else the quiet state. -/
def bootImage (s : State) : State :=
  let first := s.img.boot
  match trySlotBoot first s with
  | (s, true) => s
  | (s, false) => match trySlotBoot (!first) s with
    | (s, true) => s
    | (s, false) => enterQuiet s

/-- Trims are saved after a cold start whose training completes (R381). -/
def saveTrims (ok : Bool) (s : State) : State := whenS ok (updImg (fun g => putTrim (olderTrim g) (nextTrim g) g)) s

/-- Steps 5 to 15 of a cold start; `e` says what the world answers (R401). -/
def coldRest (e : StartEnv) (s : State) : State := bootImage (saveTrims e.trainOk (stepCxl true e s))

/-- A cold start from `s` (R400, R401): everything but flash, AON, the pins and the world begins afresh, with the ECC setting of the
boot control word, whose change since the last start is measured (R396, R428). -/
def coldStart (e : StartEnv) (s : State) : State :=
  let tests := s.flt.tests
  let old := if s.img.starts = 0 then s.mem.eccNext else s.mem.ecc
  let s := unpowered s
  let s := updMem (fun m => { m with ecc := m.eccNext }) s
  let s := updFlt (fun f => { f with tests := [] }) (updPwr (fun w => { w with pwrGood := true }) s)
  let s := updImg (fun g => { g with lastStart := kCOLD, starts := g.starts + 1 }) s
  match stepFirmware e s with
  | none => noFirmware (updFlt (fun f => { f with tests := tests }) s)
  | some s =>
    let s := stepState true (stepCert true (stepPuf e (discardTests tests s)))
    let s := whenS (s.mem.ecc != old) (measure5 2 (b2n s.mem.ecc)) s
    coldRest e (stepSelfTest true e.selfTest s)

/-! ### Warm starts (R326, R340, R400-R404) -/

/-- The state that a partition returns to (R403). -/
def backState (x : Part) : PState :=
  match x.state with
  | .running => .running
  | .loading => x.back
  | _ => .halted

/-- A link port at a start: its telemetry stays, its role is taken anew (R266, R401, R456). -/
def freshPort (x : Port) : Port :=
  { fecsym := x.fecsym, naks := x.naks, retrains := x.retrains, nclamp := x.nclamp, npoison := x.npoison, foreign := x.foreign }

/-- What a warm start resets (R358, R375, R402, R405, R427, R428, R432, R447, R462, R474): the phase-lock, ownership, loads and flash
writes in progress, the log queue and the trace sampling, the measurements, the links. Running tasks are aborted, uncounted. -/
def warmBase (s : State) : State :=
  let s := forAll allParts (fun p s => resetAbort p s) s
  let s := updTick (fun k => { k with
    state := .timelost, held := none, good := 0, miss := 0, firstOk := false, slew := 0, diffs := 0, wasLocked := false
    sinceStart := 0, kappa := 1100, kappaNext := none }) s
  let s := updOwn (fun o => { ignwr := o.ignwr, ignwrVf := o.ignwrVf }) s
  let s := updImg (fun g => { g with loads := [], jobs := [], outs := [], outSeq := 0, err := false, errWhy := 0, lastStart := kWARM, starts := g.starts + 1 }) s
  let s := updSec (fun x => { x with m := Vector.replicate 8 0, fails := 0, chal := none, res := 0 }) s
  let s := updFlt (fun f => { f with
    queue := [], samp := Vector.replicate 5 0, made := Vector.replicate 5 0, trcBytes := 0, trcRef := false
    suspects := f.suspects.map (fun q => q.filter (fun x => x.rep.count != 0)) }) s
  let s := updMem (fun m => { m with cpQueue := [], cpDone := 0, winTick := Vector.replicate 5 none }) s
  let s := updPwr (fun w => { w with state := .p0, phiC := 256, ready := false, wakeDue := false, pwrGood := true }) s
  { s with ports := s.ports.map freshPort }

/-- The retained copy is verified again, but for its container (R393, R399). -/
def verifyRetained (s : State) (i : Image) : Option Bad :=
  orBad (checkSignature s i) (orBad (checkStructure s i none) (orBad (checkFit s i) (fullFeasible s i)))

/-- Cancels recorded in P3 act after the replay, in arrival order (R416). -/
def lateCancels (s : State) : State :=
  forAll allFuncs (fun f s =>
    let l := (s.func f).p3cancels
    forAll l (cancelEvent f) (updFunc f (fun g => { g with p3cancels := [] }) s)) s

/-- Steps 13 and 14 (R403): each partition back through loading; one whose LOAD was still verified is loaded from the image as it
stood, its tables and recipes entering as at any first load (R141), or is unconfigured where that holds no section of it. -/
def warmPart (i : Image) (p : PartId) (s : State) : State :=
  let x := s.part p
  if x.state = .unconfigured then s
  else match partSec i p.1 with
    | none => unconfigure p s
    | some y => beginLoading p i y x.section_.isNone false (backState x) s

/-- Steps 10 to 15 of a warm start (R399, R401, R428). -/
def warmImage (s : State) : State :=
  match s.img.loaded with
  | none => enterQuiet s
  | some i =>
    let l : Loading := { image := i, src := s.img.lsrc }
    let bad := verifyRetained s i
    let s := writeOutcome l bad s
    if bad.isSome then enterQuiet s
    else
      let parts := s.img.parts
      let s := applyDevice i s
      let s := extendM 3 i.digest s
      let s := forAll parts (fun q s => extendM 4 q.2.digest s) s
      let s := forAll allParts (warmPart i) s
      leaveQuiet (lateCancels s)

/-- What a warm start that becomes a cold one has done before step 5 stays (R404): the clock and near memory begin afresh. -/
def coldKeep (s : State) : State :=
  { unpowered s with
    sec := s.sec, pwr := { s.pwr with pwrGood := true }
    flt := { aonOnly s.flt with
              tests := [], limited := true, fullPassed := s.flt.fullPassed, testFailed := s.flt.testFailed, normalDue := s.flt.normalDue
              recTicks := s.flt.recTicks, queue := s.flt.queue }
    img := { flashOnly s.img with starts := s.img.starts, lastStart := kCFW, fwCopy := s.img.fwCopy, certUse := s.img.certUse, certOk := s.img.certOk
                                  disabled := s.img.disabled, grade := s.img.grade, certDig := s.img.certDig } }

/-- A failed retention check makes the start a cold start from step 5: near memory and its journals are lost (R326, R404). -/
def coldFromWarm (e : StartEnv) (s : State) : State :=
  let tests := s.flt.tests
  let s := updMem (fun m => { m with ecc := m.eccNext }) (coldKeep s)
  coldRest e (endDebug (discardTests tests s))

/-- A warm start from `s` (R400, R401). -/
def warmStart (e : StartEnv) (s : State) : State :=
  match stepFirmware e (warmBase s) with
  | none => noFirmware (enterQuiet (warmBase s))
  | some s =>
    let s := stepState false (stepCert false (stepPuf e s))
    let s := stepSelfTest false e.selfTest s
    if e.retention then warmImage (stepCxl false e s) else coldFromWarm e s

/-! ### The commands (R400, R401, R436, R478) -/

def fltStart : Nat := 0xE0030

/-- A power event calls for a cold start (R400, R486): AON and PWR_EN on, and the device off or never started. -/
def coldDue (s : State) : Bool :=
  s.pwr.aon && s.pwr.pwrEn && !s.pwr.offHeld && (decide (s.pwr.state = PowState.p4) || s.img.starts == 0)

/-- COLD_START (R400, R401, R478): the owner's COLD command, or a power event. -/
def execColdStart (m : Option Master) (env : StartEnv) (s : State) : Res :=
  .next (match m with
    | some x => ownerOnly x fltStart (coldStart env) s
    | none => if coldDue s then coldStart env s else s)

/-- A recorded doorbell wakes the device from P3 (R436). -/
def autowakeDue (s : State) : Bool := decide (s.pwr.state = PowState.p3) && s.pwr.autowake && s.pwr.wakeDue

/-- WARM_START (R400, R401, R436): the owner's WARM command, or the wake that a recorded doorbell calls for. Recoveries are commands of
their own. -/
def execWarmStart (m : Option Master) (env : StartEnv) (s : State) : Res :=
  .next (match m with
    | some x => ownerOnly x fltStart (warmStart env) s
    | none => if autowakeDue s then warmStart env s else s)

/-! ### Recoveries (R462) -/

/-- Recoveries within the last 1,000,000 ticks. -/
def recentRec (s : State) : List Nat := s.flt.recTicks.filter (fun t => decide (s.tick.now < t + 1000000))

/-- The limit is reached: FIRMWARE, and every partition halts; a running task is aborted uncounted (R324, R462). -/
def haltAll (s : State) : State :=
  forAll (allParts.filter (fun p => decide ((s.part p).state ≠ PState.unconfigured))) (fun p s => setPState p .halted (resetAbort p s)) s

/-- A recovery (R441, R462): a warm start whose cause AON holds; the fourth within 1,000,000 ticks is not started, and with RECOVER_EN
clear none is. `kind` is 1 for a hub error, 2 for the watchdog. -/
def recover (kind block : Nat) (e : StartEnv) (s : State) : State :=
  if !s.flt.recoverEn then deviceFault kind block s
  else if 3 ≤ (recentRec s).length then
    deviceFault 4 block (haltAll (alarm 10 (updFlt (fun f => { f with fwAlarm := true }) s)))
  else
    warmStart e (updFlt (fun f => { f with
      recover := satAdd 64 f.recover 1, recTicks := recentRec s ++ [s.tick.now], recCause := f.recCause ++ [kind + 16 * block] }) s)

/-- Aghorn runs, so its watchdog and the hub report. -/
def aghornOn (s : State) : Bool := decide (s.pwr.state ≠ PowState.p4) && s.img.fwCopy != 2

/-- WATCHDOG_EXPIRY (R462). -/
def execWatchdogExpiry (env : StartEnv) (s : State) : Res := .next (if aghornOn s then recover 2 0 env s else s)

/-- HUB_ERROR (R441, R462). -/
def execHubError (block : Byte) (env : StartEnv) (s : State) : Res := .next (if aghornOn s then recover 1 block.toNat env s else s)

end Sys2Proof.Machine
end

