-- ==== Sys2Proof/Machine/Power.lean ====
section
/-! DEFINITION. Power requests, PWR_EN, PERST_N, the input and temperature, and the resets of functions (R23, R416, R433-R439,
R471, R484-R488). -/

namespace Sys2Proof.Machine

def pwrCtrl : Nat := 0x100000

/-- A REQ is rejected (R416, R433). -/
def reqReject (s : State) : State := updPwr (fun w => { w with rej := true }) s

/-- P3 (R27, R435, R436): the cores, near and far memory and the links are off; near memory keeps its contents. -/
def enterP3 (s : State) : State :=
  let s := updPwr (fun w => { w with state := .p3, groups := [], wakeDue := false }) s
  forAll allPorts (fun i s => updPort i (fun x => { x with state := .off, replay := [], transit := [], mq := [], seeking := false, naksRun := 0 }) s) s

/-- Every partition is in a state that P3 allows (R416). -/
def restPart (x : PState) : Bool := decide (x = PState.unconfigured ∨ x = PState.halted)

/-- REQ = 1 (R416, R433, R436): from P0 to P2, and neither in D2 nor in D3. -/
def standby (s : State) : State :=
  if s.pwr.state = .p3 then s
  else if allPartsIn s restPart && s.sec.d2.isNone && !s.sec.d3 then enterP3 s
  else reqReject s

/-- REQ_STANDBY (R436). -/
def execReqStandby (m : Master) (s : State) : Res := .next (ownerOnly m pwrCtrl standby s)

/-- REQ = 2 (R416, R433, R436, R486): every partition unconfigured and no D2; PWR_EN must fall and rise before the next start. -/
def requestOff (s : State) : State :=
  if allUnconfigured s && s.sec.d2.isNone then updPwr (fun w => { w with offHeld := true }) (powerOff s) else reqReject s

/-- REQ_OFF (R436). -/
def execReqOff (m : Master) (s : State) : Res := .next (ownerOnly m pwrCtrl requestOff s)

/-- REQ = 3 (R436): a warm start from P3; elsewhere it has no effect. -/
def wake (env : StartEnv) (s : State) : State := if s.pwr.state = .p3 then warmStart env s else s

/-- REQ_WAKE (R436). -/
def execReqWake (m : Master) (env : StartEnv) (s : State) : Res := .next (ownerOnly m pwrCtrl (wake env) s)

/-- PWR_EN_ASSERT (R486): `ms` is how long the level lasts; a pulse under 1 ms is ignored, and an assertion before AON is powered is
held. -/
def execPwrEnAssert (ms : Nat) (env : StartEnv) (s : State) : Res :=
  .next (if ms < 1 ∨ s.pwr.pwrEn then s
    else
      let s := updPwr (fun w => { w with pwrEn := true }) s
      if s.pwr.aon then coldStart env s else s)

/-- PWR_EN_DEASSERT (R486, R488): every domain but AON loses power. -/
def execPwrEnDeassert (ms : Nat) (s : State) : Res :=
  .next (if ms < 1 ∨ !s.pwr.pwrEn then s
    else powerOff (updPwr (fun w => { w with pwrEn := false }) s))

/-- A function level reset of one function (R471): EN and its MSI-X state are cleared, and nothing else changes. -/
def resetFunc (f : FuncId) (s : State) : State := updFunc f (fun g => { g with en := false, vectors := Vector.replicate 128 {} }) s

/-- FUNCTION_LEVEL_RESET (R471): a reset of PF0 resets every VF as well. -/
def flr (f : FuncId) (s : State) : State :=
  if f.1 = 0 then updPwr (fun w => { w with d3hot := false }) (forAll allFuncs resetFunc s) else resetFunc f s

def execFunctionLevelReset (f : FuncId) (s : State) : Res := .next (flr f s)

/-- PERST_ASSERT (R400, R471, R488): a function level reset of every function; no work stops. -/
def execPerstAssert (s : State) : Res := .next (updPwr (fun w => { w with perst := true }) (flr 0 s))

/-- PERST_DEASSERT (R23): the HOST domain's clock is chosen, and the choice holds until the next. -/
def execPerstDeassert (refclk : Bool) (s : State) : Res :=
  .next (if s.pwr.perst then updPwr (fun w => { w with perst := false, refclk }) s else s)

/-- INPUT_IN_RANGE (R485, R486, R492): AON is powered and samples BRD_ID; a PWR_EN held asserted begins a cold start. -/
def execInputInRange (brdId : BitVec 4) (env : StartEnv) (s : State) : Res :=
  .next (if s.pwr.aon then s
    else
      let s := updImg (fun g => { g with starts := 0 }) (updPwr (fun w => { w with aon := true, brdId }) s)
      if s.pwr.pwrEn then coldStart env s else s)

/-- INPUT_LOSS (R454, R485): every domain loses power, AON with its alarms and counts included. -/
def execInputLoss (s : State) : Res :=
  .next (updPwr (fun w => { w with aon := false, vout := false })
    (updImg (fun g => { g with starts := 0 }) (updFlt (fun _ => {}) (powerOff s))))

/-- Raise an alarm; its record is queued only where Aghorn runs (R454, R455). -/
def raise (c : Fin 16) (s : State) : State := if aghornOn s then alarm c s else alarmBit c s

/-- VOLTAGE_OUT_OF_RANGE (R455, R484): the input leaves 44-58 V, or returns. -/
def execVoltageOutOfRange (out : Bool) (s : State) : Res :=
  .next (if !s.pwr.aon then s
    else whenS (out && !s.pwr.vout) (raise 15) (updPwr (fun w => { w with vout := out }) s))

/-- ENERGY is barred in every partition (R364, R439). -/
def barEnergy (s : State) : State :=
  forAll allParts (fun p s => updPart p (fun x => { x with budgets := x.budgets.set 6 { x.budgets[6] with counter := 0 } }) s) s

/-- THERMAL_CRITICAL (R439, R455): at 110 degrees, at once. -/
def execThermalCritical (tempC : Int) (s : State) : Res :=
  .next (if tempC < 110 ∨ !s.pwr.aon then s
    else
      let phi := Nat.min s.pwr.phiC s.pwr.phiT
      let s := whenS (!s.pwr.throt) (raise 2) s
      let s := whenS (decide (128 < phi)) (raise 15) s
      barEnergy (updPwr (fun w => { w with crit := true, throt := true, phiT := 0 }) s))

/-! ### Power at a boundary (R408, step 5) -/

/-- The applied factor (R439). -/
def phi (w : Pwr) : Nat := Nat.min w.phiC w.phiT

/-- The thermal limit at a boundary (R439). -/
def thermalStep (t : Int) (w : Pwr) : Pwr :=
  let a := phi w
  if 110 ≤ t then { w with crit := true, throt := true, phiT := 0 }
  else if 100 ≤ t then { w with throt := true, phiT := (if w.throtPrev then w.phiT else a) - 16 }
  else if 95 ≤ t then w
  else if w.throt then { w with throt := false, crit := false, phiC := a, phiT := 256 }
  else w

/-- The capping loop (R438): energy in uJ, the cap in 10 W times a period in ns. -/
def capStep (e period : Nat) (w : Pwr) : Pwr :=
  let cap := w.capw * 10 * period
  if cap < e * 1000 then { w with phiC := if w.phiC ≤ 128 then w.phiC else Nat.max 128 (w.phiC - 4) }
  else if e * 100000 < cap * 95 then { w with phiC := Nat.min 256 (w.phiC + 1) }
  else w

/-- A tile's running clock (R24, R437): the owner's target, or the largest FTT of the partitions that work on it. -/
def tileClock (s : State) (t : Nat) : Nat :=
  allParts.foldl (fun a p => match (s.part p).section_ with
    | some cfg => if busyPart s p && cfg.cores.any (fun c => c / 32 == t) then Nat.max a cfg.ftt else a
    | none => a) (s.pwr.ft.toList.getD t 12)

/-- A task runs or waits for its start (R416, R436). -/
def inFlight (s : State) : Bool :=
  allParts.any (fun p => (s.part p).task.isSome || (decide ((s.part p).state = PState.running) && !(s.part p).queue.isEmpty))

/-- The power state at a boundary (R436, R438): P2 with no task in flight where IDLE_EN is set, P1 while the factor is below 256. -/
def runState (s : State) : PowState :=
  if s.pwr.state = .p3 then .p3
  else if s.pwr.state = .p4 then .p4
  else if s.pwr.idleEn && !inFlight s then .p2
  else if phi s.pwr < 256 then .p1 else .p0

/-- Power at a boundary (R24, R408, R436-R439, R455): temperature, capping, clocks, state. -/
def boundaryPower (env : BoundaryEnv) (s : State) : State :=
  let old := s.pwr
  let w := capStep env.energy s.tick.period (thermalStep env.tempC old)
  let s := updPwr (fun _ => { w with throtPrev := w.throt }) s
  let s := whenS (w.throt && !old.throt) (raise 2) s
  let s := whenS (decide (phi w ≤ 128 ∧ 128 < phi old)) (raise 15) s
  let s := updPwr (fun x => { x with
    cyc := Vector.ofFn (fun t => (x.cyc[t.1]'t.2) + 1200 + 100 * (x.run[t.1]'t.2)), run := Vector.ofFn (fun t => tileClock s t.1) }) s
  updPwr (fun x => { x with state := runState s }) s

/-- Admission placed a task: P2 is left (R416, R436). -/
def leaveP2 (s : State) : State :=
  if s.pwr.state = .p2 ∧ inFlight s then updPwr (fun w => { w with state := if phi w < 256 then .p1 else .p0 }) s else s

end Sys2Proof.Machine
end

