-- ==== Sys2Proof/Machine/Boundary.lean ====
section
/-! DEFINITION. The tick boundary: what falls due, in the order of R408, with the refill, the log and the traces (R201, R313, R320,
R360-R365, R408, R414, R438, R446-R453). -/

namespace Sys2Proof.Machine

/-- The state that a command which always goes on leaves. -/
def after (f : State → Res) (s : State) : State := match f s with
  | .next t => t
  | _ => s

/-! ### Step 1: time (R355, R360, R362) -/

/-- A task runs in some partition (R360). -/
def taskRuns (s : State) : Bool := allParts.any (fun p => (s.part p).task.any (fun t => t.started && !t.ended))

/-- The count of the boundary: the number held for it in TIMELOST, else the next (R360). -/
def nextNow (k : Tick) : Nat := if k.state = .timelost then (k.held.getD (k.now + 1)) % 2 ^ 64 else (k.now + 1) % 2 ^ 64

/-- Acquisition completes at the boundary (R360). -/
def acquired (s : State) : Bool :=
  decide (s.tick.state = TState.timelost ∧ 8 ≤ s.tick.good) && s.tick.firstOk && s.tick.held.isSome && !taskRuns s

/-- Time at a boundary: the count, three equal differences, acquisition, the slew (R360, R362). -/
def boundaryTime (s : State) : State :=
  let old := s.tick
  let got := acquired s
  let s := updTick (fun k => { k with now := nextNow k, phase := 0, sinceStart := k.sinceStart + 1, held := none, slew := k.slew - 16 }) s
  if got then tickPulse (setTime .locked s)
  else if old.state ≠ .timelost ∧ 3 ≤ old.diffs then setTime .timelost s
  else s

/-! ### Steps 6 and 7 (R371, R410) -/

/-- Normal service begins at the first boundary after a qualifying test (R410), and a tick on the Ethernet ports (R385). -/
def boundaryService (s : State) : State :=
  let s := qpTick s
  if s.flt.normalDue then updFlt (fun f => { f with limited := false, normalDue := false, testFailed := false }) s else s

/-- Loading ends, and draining ends where no task runs (R371). -/
def boundaryParts (s : State) : State :=
  forAll allParts (fun p s =>
    let s := endLoading p s
    if (s.part p).state = .draining ∧ (s.part p).task.isNone then setPState p .halted s else s) s

/-! ### Step 8: budgets (R364, R365, R367, R438) -/

/-- A written value waits for its boundary (R367). -/
def ageBudget (b : Budget) : Budget :=
  match b.pending with
  | none => b
  | some (v, n) => if n ≤ 1 then { b with inForce := v, pending := none } else { b with pending := some (v, n - 1) }

/-- Static energy of a number of powered core groups, times κ (R365). -/
def staticCharge (kappa groups : Nat) : Nat := Config.staticEnergy groups * kappa / 1000

/-- Powered core groups that hold a core of the partition. -/
def groupCount (s : State) (p : PartId) : Nat :=
  ((s.pwr.groups).filter (fun g => (coresOf s p).any (fun c => groupOf c.1 == g))).length

/-- A refill (R364, R438): ENERGY is scaled by the factor, and its static charge is taken first. -/
def refillAll (phi static : Nat) (v : Vector Budget 7) : Vector Budget 7 :=
  let w := v.map (fun b => let b := ageBudget b; { b with counter := b.inForce })
  w.set 6 { w[6] with counter := w[6].inForce * phi / 256 - static }

/-- Budgets at a boundary (R363-R365, R367, R438): D is not scaled and takes the static power of no partition. -/
def boundaryBudgets (s : State) : State :=
  let s := updTick (fun k => { k with kappa := k.kappaNext.getD k.kappa, kappaNext := none }) s
  let f := phi s.pwr
  let s := forAll allParts (fun p s =>
    if (s.part p).state = .unconfigured then s
    else updPart p (fun x => { x with budgets := refillAll f (staticCharge s.tick.kappa (groupCount s p)) x.budgets }) s) s
  updTick (fun k => { k with dacct := refillAll 256 (staticCharge k.kappa (16 - s.pwr.groups.length)) k.dacct }) s

/-! ### What else a boundary does -/

/-- A version that became resident is current from the next boundary (R320). -/
def makeCurrent (x : Part) : Part :=
  let due := x.versions.filter (fun v => v.curDue)
  { x with versions := x.versions.map (fun v =>
      if v.curDue then { v with curDue := false, current := true }
      else if due.any (fun w => w.variant == v.variant) then { v with current := false } else v) }

/-- The partition's lost sessions, its merged edits, its current versions and its ticks of measurement (R201, R313, R320, R349). -/
def agePart (p : PartId) (s : State) : State :=
  let s := updPart p (fun x => { makeCurrent x with measured := if x.state = .running then x.measured + 1 else x.measured }) s
  flushEdits p (releaseLost p s)

def pstateOf : PState → Nat
  | .unconfigured => 0
  | .loading => 1
  | .running => 2
  | .draining => 3
  | .halted => 4

/-- A follower reports to its lead at every boundary; a lead notes a follower whose report is stale (R414, R450). -/
def reportStates (p : PartId) (s : State) : State :=
  match (s.part p).section_ with
  | none => s
  | some cfg =>
    if cfg.span = 2 then
      sendM 0x12 cfg.lead [p.1, timeCode s.tick.state, pstateOf (s.part p).state, b2n s.flt.limited, s.sec.state] s
    else if cfg.span = 1 then
      forAll ((s.part p).reports.filter (fun r => decide (r.tick + 4 < s.tick.now))) (fun r s => detect r.src 0 0x06 p.1 s) s
    else s

/-- The sampling exponent of every trace source after the tick just ended (R449). -/
def ageTraces (s : State) : State :=
  updFlt (fun f =>
    let step (k : Nat) : Nat := if f.trcRef then Nat.min 15 (k + 1) else if f.trcBytes * 2 < f.trcbw then k - 1 else k
    { f with samp := f.samp.map step, made := Vector.ofFn (fun i => if step f.samp[i] = f.samp[i] then f.made[i] else 0)
             trcBytes := 0, trcRef := false }) s

/-- A loss summary enters the queue ahead of every record there, at a tick number that is a multiple of 16 and with records dropped since
the last one (R447). -/
def lossSummary (s : State) : State :=
  if s.tick.now % 16 ≠ 0 ∨ s.flt.dropsNew.toList.all (fun n => n == 0) then s
  else
    let r : LogRec := { tick := s.tick.now, phase := s.tick.phase, prio := 0, type := 0x000E, body := s.flt.dropsNew.toList }
    let s := updFlt (fun f => { f with dropsNew := Vector.replicate 4 0 }) s
    let s := if s.flt.queue.length < 4096 then s
      else
        let worst := s.flt.queue.foldl (fun a x => Nat.max a x.prio) 0
        countDrop worst (updFlt (fun f => { f with queue := dropNewest worst f.queue }) s)
    updFlt (fun f => { f with queue := r :: f.queue }) s

/-- LOSS_SUMMARY (R447). -/
def execLossSummary (s : State) : Res := .next (lossSummary s)

/-- Records that the log area holds (R446). -/
def logArea : Nat := 262144

/-- Aghorn moves up to 2,048 records, oldest first, to the log area, and charges the writes to D (R446, R447). -/
def drainLog (s : State) : State :=
  let l := s.flt.queue.take 2048
  let n := s.flt.logPtr + l.length
  chargeD 1 (64 * l.length) (updFlt (fun f => { f with
    queue := f.queue.drop 2048, area := (l.reverse ++ f.area).take logArea, logPtr := n % logArea, logWrap := satAdd 64 f.logWrap (n / logArea) }) s)

/-- The log, the traces and the suspect table at a boundary (R447, R449, R451, R453). -/
def boundaryLog (s : State) : State :=
  let s := forAll (List.finRange 64) (fun e s => after (execSuspectExpiry e) (after (execSuspectForward e) s)) s
  let s := lossSummary (ageTraces s)
  if memOn s then drainLog s else s

/-- Admission in every running partition (R309, R408, R416). -/
def boundaryAdmission (s : State) : State := leaveP2 (forAll allParts (fun p s => after (execAdmission p) s) s)

/-- TICK_BOUNDARY (R408): what falls due, in order, each step on what the steps before it left. -/
def boundary (env : BoundaryEnv) (s : State) : State :=
  let s := sweepAll (forAll allParts agePart (boundaryTime s))
  let s := boundaryService (boundaryPower env (boundarySecurity (boundaryOwn s)))
  let s := boundaryBudgets (boundaryParts s)
  boundaryLog (whenS (memOn s) (forAll allParts reportStates) (boundaryAdmission s))

/-- TICK_BOUNDARY (R408); without CTLD or Aghorn nothing counts boundaries (R422, R435). -/
def execTickBoundary (env : BoundaryEnv) (s : State) : Res := .next (if aghornOn s then boundary env s else s)

end Sys2Proof.Machine
end

