-- ==== Sys2Proof/Machine/RegRead.lean ====
section
/-! DEFINITION. What the registers of BAR0 read as, the alarms that are active, and the sideband outputs (R7-R9, R356, R454-R456, R463-R479,
R486, R490, R491). -/

namespace Sys2Proof.Machine

/-- Pack fields, each with its lowest bit and its width. -/
def pack : List (Nat × Nat × Nat) → Nat
  | [] => 0
  | (lo, n, v) :: r => v % 2 ^ n * 2 ^ lo + pack r

/-- 64-bit word k of a byte string held as a number, byte 0 lowest. -/
def word64 (v k : Nat) : Nat := v / 2 ^ (64 * k) % 2 ^ 64

/-! ### Alarms and pins -/

/-- A port of the fabric section is down (R455). -/
def portDownNow (s : State) : Bool := allPorts.any (fun i => (s.port i).role != 0 && decide ((s.port i).state = LState.down))

/-- A class is active (R455). -/
def alarmActive (s : State) (c : Nat) : Bool :=
  match c with
  | 0 => !s.pwr.ready || s.img.quiet
  | 1 => decide (s.tick.state = TState.timelost) && s.tick.wasLocked
  | 2 => s.pwr.throt || s.pwr.crit
  | 3 => s.mem.chans.any (fun x => x.failed)
  | 4 => s.mem.regions.any (regionOffline s)
  | 5 => portDownNow s
  | 7 => !s.flt.condemned.isEmpty
  | 8 => s.flt.limited && s.flt.testFailed
  | 9 => !s.sec.pufOk
  | 10 => s.flt.fwAlarm
  | 11 => decide (s.sec.state = 2)
  | 15 => s.pwr.vout || decide (phi s.pwr ≤ 128)
  | _ => false

/-- The sideband outputs follow the state: AON is powered and PWR_EN asserted (R490). -/
def pinsDriven (s : State) : Bool := s.pwr.aon && s.pwr.pwrEn

/-- A class is active or sticky (R455). -/
def alarmShown (s : State) (c : Nat) : Bool := alarmActive s c || s.flt.sticky.getLsbD c

/-- FAULT_N asserted (R455). -/
def faultN (s : State) : Bool := pinsDriven s && [3, 6, 8, 9, 10].any (alarmShown s)

/-- ALERT_N asserted (R398, R455). -/
def alertN (s : State) : Bool := pinsDriven s && [0, 1, 2, 4, 5, 7, 11, 12, 13, 15].any (alarmShown s)

/-- THERM_N asserted (R439). -/
def thermN (s : State) : Bool := pinsDriven s && s.pwr.throt

/-- READY asserted (R398, R401). -/
def readyPin (s : State) : Bool := pinsDriven s && s.pwr.ready

/-- PWR_GOOD asserted (R486). -/
def pwrGoodPin (s : State) : Bool := pinsDriven s && s.pwr.pwrGood

/-- WAKE_N asserted (R491): PF0 in D3hot and a PF0 vector holds a pending message. -/
def wakeN (s : State) : Bool := pinsDriven s && s.pwr.d3hot && (s.func 0).vectors.any (fun v => v.pend || v.due)

/-- PRSNT_N is low whenever the module is fitted (R491). -/
def prsntN (_ : State) : Bool := true

/-! ### The blocks -/

/-- ID (R261, R473). -/
def readId (s : State) (o : Nat) : Option Nat :=
  let g := s.img
  if 0x1000 ≤ o ∧ o < 0x1400 then some (capRead s (o - 0x1000) 8)
  else if 0x10 ≤ o ∧ o < 0x30 then some (word64 s.sec.iddig ((o - 0x10) / 8))
  else if 0x30 ≤ o ∧ o < 0x50 then some (word64 g.certDig ((o - 0x30) / 8))
  else match o with
    | 0x00 => some (pack [(0, 16, 0x0C90), (16, 16, 1)])
    | 0x08 => some (if g.certOk then pack [(0, 16, g.grade), (16, 16, larrOf s), (32, 16, g.disabled.length), (48, 1, 1)] else 0)
    | 0x50 => some (pack [(0, 1, g.fwCopy), (32, 32, (Config.aghornVersion g.fwCopy).toNat)])
    | 0x58 => some (pack [(0, 2, g.lastStart), (32, 32, g.starts)])
    | _ => some 0

/-- Coordinates of a remote master, x lowest (R474). -/
def coordBits : Master → Nat
  | .rm x y z => pack [(0, 16, x.toNat), (16, 16, y.toNat), (32, 16, z.toNat)]
  | _ => 0

/-- OWN (R474). -/
def readOwn (s : State) (m : Master) (o : Nat) : Option Nat :=
  let w := s.own
  let (st, kind, nonce, prio) := ownView w
  match o with
  | 0x00 => some (pack [(10, 10, if w.state = .owned then w.lease else 0), (20, 2, kind), (22, 2, st), (24, 8, prio), (32, 32, nonce)])
  | 0x08 => some (if w.state = .owned then (w.owner.map (fun c => coordBits c.m)).getD 0 else 0)
  | 0x10 => some (w.claimTick[(kindIdx m).1]'(kindIdx m).2).toNat
  | 0x30 => some (match w.state, w.succ with
    | .handover, some x => pack [(0, 2, masterKind x), (2, 48, coordBits x), (50, 14, w.handTick + 16)]
    | _, _ => 0)
  | 0x38 => some (pack ([1, 2, 3].map (fun k => (k - 1, 1, b2n (w.standing.any (fun c => masterKind c.m == k))))))
  | _ => some 0

/-- The bytes of an outcome record (R475). -/
def outBytes (x : Outcome) : List Byte :=
  leBytes 8 x.tick ++ [x.code] ++ leBytes 1 x.step ++ leBytes 1 x.src ++ leBytes 1 x.kind ++ leBytes 2 x.stype ++ leBytes 2 x.sindex
  ++ leBytes 4 x.check ++ leBytes 4 x.seq ++ leBytes 8 0 ++ leBytes 32 x.digest

/-- IMG (R475). -/
def readImg (s : State) (o : Nat) : Option Nat :=
  let g := s.img
  if 0x40 ≤ o ∧ o < 0x60 then some (word64 ((g.loaded.map (fun i => i.digest)).getD 0) ((o - 0x40) / 8))
  else if 0x100 ≤ o ∧ o < 0x300 then
    some (match g.outs.find? (fun x => x.seq % 8 == (o - 0x100) / 64) with
      | some x => fieldLE (outBytes x) ((o - 0x100) % 64) 8
      | none => 0)
  else match o with
    | 0x08 => some g.src.toNat
    | 0x10 => some g.len.toNat
    | 0x18 => some (pack [(0, 1, b2n g.slotB.commit.isSome), (1, 1, b2n g.slotA.commit.isSome), (5, 1, b2n g.boot), (6, 2, g.lsrc)
        , (8, 1, b2n g.loaded.isSome), (9, 1, b2n (!g.jobs.isEmpty)), (10, 1, b2n (!g.loads.isEmpty)), (11, 1, b2n g.quiet), (15, 1, b2n g.err)
        , (16, 4, g.errWhy), (32, 32, g.outSeq)])
    | 0x60 => some ((g.loaded.map (fun i => i.keyid.toNat)).getD 0)
    | 0x68 => some ((g.loaded.map (fun i => i.imgver.toNat)).getD 0)
    | _ => some 0

/-- TIK (R476). -/
def readTik (s : State) (o : Nat) : Option Nat :=
  let k := s.tick
  match o with
  | 0x00 => some k.period
  | 0x08 => some (b2n k.srcM)
  | 0x18 => some (b2n k.outEn)
  | 0x20 => some (pack [(0, 2, timeCode k.state), (2, 1, b2n k.held.isSome), (16, 16, k.good), (32, 16, k.miss)])
  | 0x28 => some k.now
  | 0x30 => some k.phase
  | 0x38 => some (BitVec.ofInt 64 k.offset).toNat
  | 0x40 => some (pack [(0, 16, k.phase), (16, 48, k.now)])
  | _ => some 0

/-- A window entry (R477): base, then size and attribute, 0 for an unused one. -/
def windowWord (l : List (W64 × Nat × Nat)) (k : Nat) : Nat :=
  match l[k / 2]? with
  | some (b, n, attr) => if k % 2 = 0 then b.toNat else n / 4096 * 4096 + attr % 4
  | none => 0

/-- A partition's window (R477). -/
def readPrt (s : State) (p : PartId) (o : Nat) : Option Nat :=
  let x := s.part p
  let wins (far : Bool) : List (W64 × Nat × Nat) := ((x.section_.map (fun c => c.windows)).getD []).filter (fun w => isFar w.1.toNat == far)
  if 0x20 ≤ o ∧ o < 0x40 then some (word64 x.attNonce ((o - 0x20) / 8))
  else if 0x80 ≤ o ∧ o < 0xB8 then some ((x.budgets.toList.getD ((o - 0x80) / 8) {}).written)
  else if 0xC0 ≤ o ∧ o < 0xF8 then some ((x.budgets.toList.getD ((o - 0xC0) / 8) {}).inForce)
  else if 0x100 ≤ o ∧ o < 0x180 then some (windowWord (wins false) ((o - 0x100) / 8))
  else if 0x180 ≤ o ∧ o < 0x200 then some (windowWord (wins true) ((o - 0x180) / 8))
  else if 0x200 ≤ o ∧ o < 0x238 then some ((x.budgets.toList.getD ((o - 0x200) / 8) {}).holds)
  else if 0x240 ≤ o ∧ o < 0x278 then some (x.aborts.toList.getD ((o - 0x240) / 8) 0)
  else match o with
    | 0x000 => some (pack [(0, 3, pstateOf x.state), (4, 1, b2n (s.sec.d2 == some p.1)), (16, 1, b2n x.oprej), (17, 1, b2n x.brej), (18, 1, b2n x.attrej)
        , (19, 1, b2n (x.budgets.any (fun b => b.pending.isSome))), (32, 32, (x.task.map Task.num).getD x.lastTask)])
    | 0x010 => some (b2n x.tlock)
    | 0x040 => some x.attAddr.toNat
    | 0x280 => some x.esc
    | 0x288 => some x.deny
    | 0x290 => some x.tskip
    | 0x298 => some x.ovwtot
    | 0x2A0 => some x.wenc
    | _ => some 0

/-- TKT_RINGCFG (R468). -/
def ringCfg (f : FuncId) (g : Func) : Nat :=
  pack [(0, 5, g.jqLog), (8, 5, g.cqLog), (16, 5, g.sqLog), (24, 6, if f.1 = 0 then g.part else 0), (62, 1, b2n g.err), (63, 1, b2n g.en)]

/-- A function's TKT entry (R468). -/
def readTkt (s : State) (f : FuncId) (o : Nat) : Option Nat :=
  let g := s.func f
  match o with
  | 0x00 => some g.sqBase.toNat
  | 0x08 => some g.cqBase.toNat
  | 0x10 => some g.jqBase.toNat
  | 0x18 => some (ringCfg f g)
  | 0x20 => some g.sqHead
  | 0x28 => some g.cqTail
  | 0x30 => some (g.jqCount % 2 ^ g.jqLog)
  | 0x38 => some g.igndb
  | _ => some 0

/-- Reload marks of regions 64i to 64i + 63 (R479). -/
def markWord (l : List Nat) (i : Nat) : Nat := pack ((List.range 64).map (fun r => (r, 1, b2n (l.contains (64 * i + r)))))

/-- MEM (R343, R479); the other registers of the block have no layout in the spec. -/
def readMem (s : State) (o : Nat) : Option Nat :=
  let m := s.mem
  if 0x200 ≤ o ∧ o < 0x400 then some (markWord m.reload ((o - 0x200) / 8))
  else if 0x400 ≤ o ∧ o < 0x600 then some (markWord m.freload ((o - 0x400) / 8))
  else match o with
    | 0x100 => some m.cpSrc.toNat
    | 0x108 => some m.cpDst.toNat
    | 0x110 => some m.cpLen.toNat
    | 0x118 => some 0
    | 0x120 => some (pack [(0, 5, m.cpQueue.length - 1), (18, 1, b2n (!m.cpQueue.isEmpty)), (19, 1, b2n m.cpErr), (20, 4, m.cpReason), (32, 32, m.cpDone)])
    | _ => none

/-- Device counters (R456, R478). -/
def readCounter (s : State) (o : Nat) : Nat :=
  let f := s.flt
  let chan (t : Channel → Nat) (base : Nat) : Nat := (s.mem.chans.toList.map t).getD ((o - base) / 8) 0
  let cxl (t : Cxl → Nat) (base : Nat) : Nat := (s.mem.cxl.toList.map t).getD ((o - base) / 8) 0
  let port (t : Port → Nat) (base : Nat) : Nat := (s.ports.toList.map t).getD ((o - base) / 8) 0
  if o < 0x1080 then chan (fun c => c.ecccor) 0x1000
  else if o < 0x1100 then chan (fun c => c.eccunc) 0x1080
  else if o < 0x1180 then chan (fun c => c.crcrep) 0x1100
  else if o < 0x11A0 then cxl (fun c => c.ecccor) 0x1180
  else if o < 0x11C0 then cxl (fun c => c.eccunc) 0x11A0
  else if o < 0x1200 then 0
  else if o < 0x1240 then port (fun c => c.fecsym) 0x1200
  else if o < 0x1280 then port (fun c => c.naks) 0x1240
  else if o < 0x12C0 then port (fun c => c.retrains) 0x1280
  else if o < 0x1300 then port (fun c => c.nclamp) 0x12C0
  else if o < 0x1340 then port (fun c => c.npoison) 0x1300
  else match o with
    | 0x1340 => f.addrflt
    | 0x1348 => s.tick.tickdisc
    | 0x1350 => s.tick.tickmiss
    | 0x1358 => s.own.ignwr[0]
    | 0x1360 => s.own.ignwr[1]
    | 0x1368 => s.own.ignwr[2]
    | 0x1370 => f.accused
    | 0x1378 => f.suspovf
    | 0x1380 => f.drops[0]
    | 0x1388 => f.drops[1]
    | 0x1390 => f.drops[2]
    | 0x1398 => f.drops[3]
    | 0x13A0 => f.logWrap
    | 0x13A8 => f.trcWrap
    | 0x13B0 => f.recover
    | _ => 0

/-- A suspect report's 32 bytes (R450). -/
def suspectBytes (r : SuspectRep) : List Byte :=
  leBytes 2 r.suspect.x.toNat ++ leBytes 2 r.suspect.y.toNat ++ leBytes 2 r.suspect.z.toNat ++ [r.suspect.level, r.res, r.reason, r.rflags]
  ++ leBytes 2 r.rx.toNat ++ leBytes 2 r.ry.toNat ++ leBytes 2 r.rz.toNat ++ leBytes 4 r.count.toNat ++ leBytes 4 r.total.toNat ++ leBytes 8 r.first.toNat

/-- FLT (R456, R478): device counters, the suspect window and the log pointers read as 0 in D0. -/
def readFlt (s : State) (o : Nat) : Option Nat :=
  let f := s.flt
  let open_ (v : Nat) : Option Nat := some (if dstate s.sec = 0 then 0 else v)
  if 0x1000 ≤ o ∧ o < 0x13B8 then open_ (readCounter s o)
  else if 0x2000 ≤ o ∧ o < 0x2800 then open_ (f.discard.toList.getD ((o - 0x2000) / 8) 0)
  else if 0x4000 ≤ o ∧ o < 0x4800 then
    open_ (match f.suspects.toList.getD ((o - 0x4000) / 32) none with
      | some q => fieldLE (suspectBytes q.rep) ((o - 0x4000) % 32) 8
      | none => 0)
  else match o with
    | 0x00 => some (pack ((0, 16, f.sticky.toNat) :: (List.range 16).map (fun c => (16 + c, 1, b2n (alarmActive s c)))))
    | 0x08 => some (pack ((List.range 4).map (fun j => (16 * j, 16, f.counts.toList.getD j 0))))
    | 0x10 => some (pack ((List.range 4).map (fun j => (16 * j, 16, f.counts.toList.getD (4 + j) 0))))
    | 0x18 => some (pack ((List.range 4).map (fun j => (16 * j, 16, f.counts.toList.getD (8 + j) 0))))
    | 0x20 => some (pack ((List.range 4).map (fun j => (16 * j, 16, f.counts.toList.getD (12 + j) 0))))
    | 0x28 => some (b2n f.recoverEn)
    | 0x38 => open_ (pack [(0, 32, f.logPtr), (32, 32, f.logWrap)])
    | 0x40 => open_ (pack [(0, 32, 32 * f.trcPtr), (32, 32, f.trcWrap)])
    | 0x50 => some f.testLast
    | _ => some 0

/-- PWR_CTRL (R439). -/
def pwrCtrlWord (w : Pwr) : Nat :=
  pack [(3, 1, b2n w.autowake), (4, 1, b2n w.idleEn), (5, 9, w.capw), (14, 4, w.ft[0]), (18, 4, w.ft[1]), (22, 4, w.ft[2]), (26, 4, w.ft[3])]

/-- PWR_STATUS (R439). -/
def pwrStatusWord (w : Pwr) : Nat :=
  pack [(0, 4, w.run[0]), (4, 4, w.run[1]), (8, 4, w.run[2]), (12, 4, w.run[3]), (16, 3, pstateCode w.state), (20, 1, b2n w.crit), (21, 1, b2n w.throt)
       , (22, 1, b2n w.rej), (23, 9, phi w)]

/-- SEC_STATUS (R439). -/
def secStatusWord (s : State) : Nat :=
  let x := s.sec
  pack [(0, 4, x.state), (4, 4, dstate x), (17, 1, b2n s.mem.ecc), (18, 1, b2n x.pufOk), (19, 1, b2n s.pwr.dbgEn), (20, 2, Nat.min 3 x.fails)
       , (22, 6, x.d2.getD 0), (28, 4, x.res)]

/-- SEC (R424, R439, R479). -/
def readSec (s : State) (o : Nat) : Option Nat :=
  let x := s.sec
  if 0x10 ≤ o ∧ o < 0x30 then some (word64 x.attNonce ((o - 0x10) / 8))
  else if 0x1000 ≤ o ∧ o < 0x4000 then some (rdLE x.mbox (o - 0x1000) 8)
  else match o with
    | 0x00 => some (secStatusWord s)
    | 0x30 => some x.attAddr.toNat
    | _ => some 0

/-- A table entry's two words (R466, R467). -/
def msixWord (f : Func) (n k : Nat) : Nat :=
  if n ≤ k / 2 then 0
  else
    let v := f.vectors.toList.getD (k / 2) {}
    if k % 2 = 0 then v.addr.toNat else pack [(0, 32, v.data.toNat), (32, 1, b2n v.masked)]

/-- Pending bits of vectors 64k to 64k + 63 (R466, R467). -/
def pendWord (f : Func) (n k : Nat) : Nat :=
  pack ((List.range 64).map (fun i => (i, 1, b2n (decide (64 * k + i < n) && (f.vectors.toList.getD (64 * k + i) {}).pend))))

/-- CORE_SCSTATn (R223). -/
def scstat (u : Scoop) : Nat :=
  pack [(2, 1, b2n u.active.isSome), (3, 1, b2n u.shadow.isSome), (4, 1, b2n u.ovw), (5, 3, u.landing.length), (16, 16, u.ovwcnt), (32, 32, u.landed)]

/-- A core's window (R223, R479): readable in D1 and above; the other registers have no layout in the spec. -/
def readCore (s : State) (c : CoreId) (o : Nat) : Option Nat :=
  if dstate s.sec = 0 then some 0
  else if 0x400 ≤ o ∧ o < 0x428 then some (((s.core c).su.toList.map scstat).getD ((o - 0x400) / 8) 0)
  else none

/-- The 64-bit word of BAR0 at an offset that is a multiple of 8, as a master reads it: none where the spec gives the block no layout
(R8, R9, R472, R479). -/
def regWord (s : State) (m : Master) (o : Nat) : Option Nat :=
  if o < 0x10000 then readId s o
  else if o < 0x20000 then readOwn s m (o - 0x10000)
  else if o < 0x30000 then readImg s (o - 0x20000)
  else if o < 0x40000 then readTik s (o - 0x30000)
  else if o < 0x50000 then readPrt s (pid ((o - 0x40000) / 0x400)) (o % 0x400)
  else if o < 0x60000 then some 0
  else if o < 0x80000 then (if (o - 0x60000) / 0x40 ≤ 64 then readTkt s (fid ((o - 0x60000) / 0x40)) (o % 0x40) else some 0)
  else if o < 0xA0000 then none
  else if o < 0xC0000 then readMem s (o - 0xA0000)
  else if o < 0xE0000 then none
  else if o < 0x100000 then readFlt s (o - 0xE0000)
  else if o < 0x120000 then (if o = 0x100000 then some (pwrCtrlWord s.pwr + 2 ^ 32 * pwrStatusWord s.pwr) else none)
  else if o < 0x140000 then readSec s (o - 0x120000)
  else if o < 0x141000 then some (msixWord (s.func 0) 128 ((o - 0x140000) / 8))
  else if o < 0x142000 then some (pendWord (s.func 0) 128 ((o - 0x141000) / 8))
  else if o < 0x200000 then some 0
  else if o < 0x400000 then readCore s (cid ((o - 0x200000) / 0x4000)) (o % 0x4000)
  else some 0

/-- The BAR0 offset that a VF's offset names (R464, R468, R477): its PRT window and its TKT entry. -/
def vfOffset (f : FuncId) (o : Nat) : Option Nat :=
  if o < 0x400 then some (0x40000 + 0x400 * (f.1 - 1) + o)
  else if o < 0x440 then some (0x60000 + 0x40 * f.1 + (o - 0x400))
  else none

/-- What a master reads at a multiple of 8 of its own BAR0 (R464, R465). -/
def readWord (s : State) (m : Master) (o : Nat) : Option Nat :=
  match m with
  | .vf f => match vfOffset f o with
    | some g => regWord s m g
    | none => if 0x800 ≤ o ∧ o < 0xC00 then some (msixWord (s.func f) 30 ((o - 0x800) / 8))
      else if 0xC00 ≤ o ∧ o < 0x1000 then some (pendWord (s.func f) 30 ((o - 0xC00) / 8))
      else some 0
  | _ => regWord s m o

/-- An access of 2^size bytes is naturally aligned (R7). -/
def alignedAt (o : Nat) (size : Fin 4) : Bool := o % 2 ^ size.1 == 0

/-- The `n` bytes of a word from byte `k` on (R7). -/
def wordBytes (k n v : Nat) : Nat := v / 2 ^ (8 * k) % 2 ^ (8 * n)

/-- A word with other bytes in place of `n` of its own from byte `k` on (R7). -/
def putBytes (k n x old : Nat) : Nat := old - wordBytes k n old * 2 ^ (8 * k) + x % 2 ^ (8 * n) * 2 ^ (8 * k)

/-- The addressed bytes of a word (R7). -/
def pickBytes (o : Nat) (size : Fin 4) (v : Nat) : Nat := wordBytes (o % 8) (2 ^ size.1) v

/-- Answer a read: an open or a misaligned one gives a free value (R7, R479). -/
def answerRead (m : Master) (o : Nat) (size : Fin 4) (s : State) : State :=
  match (if alignedAt o size then readWord s m (o / 8 * 8) else none) with
  | some v => emit (.readData m o (BitVec.ofNat 64 (pickBytes o size v))) s
  | none =>
    let (v, s) := takeFree s
    emit (.readData m o (BitVec.ofNat 64 (pickBytes o size v.toNat))) s

/-! ### RC fields (R8) -/

/-- The BAR0 offset that a master's access reaches. -/
def globalOffset (m : Master) (o : Nat) : Option Nat := match m with
  | .vf f => vfOffset f o
  | _ => some o

/-- Clear the RC fields among the bytes read: TKT_IGNDB and OVWCNT of CORE_SCSTATn (R8, R223, R468). A narrow read of a field clears the
bytes it read and no others: R8 clears `the field`, R7 reads only the addressed bytes, and neither says more (log 117, DESIGN CHOICE). -/
def clearRead (o : Nat) (size : Fin 4) (s : State) : State :=
  let w := o / 8 * 8
  let cleared (v : Nat) : Nat := putBytes (o % 8) (2 ^ size.1) 0 v
  if 0x60000 ≤ w ∧ w < 0x61040 ∧ w % 0x40 = 0x38 then
    updFunc (fid ((w - 0x60000) / 0x40)) (fun g => { g with igndb := cleared g.igndb }) s
  else if 0x200000 ≤ w ∧ 0x400 ≤ w % 0x4000 ∧ w % 0x4000 < 0x428 ∧ dstate s.sec ≠ 0 then
    updCore (cid ((w - 0x200000) / 0x4000)) (fun c => { c with
      su := Vector.ofFn (fun i => if i.1 = (w % 0x4000 - 0x400) / 8 then { c.su[i] with ovwcnt := cleared (c.su[i].ovwcnt * 65536) / 65536 } else c.su[i]) }) s
  else s

/-- A read of BAR0: its answer, then the RC fields are cleared (R8, R465). -/
def readReg (m : Master) (o : Nat) (size : Fin 4) (s : State) : State :=
  let t := answerRead m o size s
  match globalOffset m o with
  | some g => if alignedAt o size then clearRead g size t else t
  | none => t

/-- READ_CLEAR (R8). -/
def execReadClear (m : Master) (off : BitVec 22) (size : Fin 4) (s : State) : Res :=
  .next (if arrives s m then readReg m off.toNat size s else s)

end Sys2Proof.Machine
end

