-- ==== Sys2Proof/Machine/RegWrite.lean ====
section
/-! DEFINITION. What a write to a register of BAR0 does, the ring configuration, MSI-X messages, and the accesses of the sideband and
of remote masters (R7-R9, R223, R343, R349, R356, R439, R462, R465-R469, R473-R479, R492). -/

namespace Sys2Proof.Machine

/-- A write as it reaches a 64-bit word: the master, the word's offset in its block, the first byte it names and how many, and the value
(R7). -/
structure BusWrite where
  m    : Master
  o    : Nat
  first : Nat
  count : Nat
  v    : Nat
deriving DecidableEq, Repr

/-- The write names a byte of the low half. -/
def BusWrite.low (w : BusWrite) : Bool := decide (w.first < 4)

/-- The write names a byte of the high half. -/
def BusWrite.high (w : BusWrite) : Bool := decide (4 < w.first + w.count)

/-- The word after the write, where it held `old`: only the addressed bytes change (R7). A WO or W1C field takes `old` 0. -/
def BusWrite.put (w : BusWrite) (old : Nat) : Nat := putBytes w.first w.count w.v (old % 2 ^ 64)

/-- The value that a WO or W1C register sees. -/
def BusWrite.act (w : BusWrite) : Nat := w.put 0

/-- The bytes written, in a byte buffer that starts at `base`. -/
def BusWrite.bytes (w : BusWrite) (base : Nat) : Nat × List Byte := (w.o - base + w.first, leBytes w.count w.v)

/-- The model's counter that picks a world's answer, spent (log 54, DESIGN CHOICE). -/
def spend (s : State) : State := { s with freeCtr := s.freeCtr + 1 }

/-- Replace word `k` of a 256-bit register (R477, R479). -/
def setWord64 (v k x : Nat) : Nat := v - word64 v k * 2 ^ (64 * k) + x % 2 ^ 64 * 2 ^ (64 * k)

/-! ### OWN (R374-R377, R426, R474) -/

/-- The signature in the master's OWN_SIGBUF is the admin key's, over identity, kind, priority, nonce and tick (R426). -/
def claimSig (s : State) (m : Master) (prio nonce : Nat) : Bool :=
  let k := kindIdx m
  Config.mldsa ((provInUse s).map Prov.digest |>.getD 0)
    [s.sec.iddig, masterKind m, prio, nonce, (s.own.claimTick[k.1]'k.2).toNat] (rdBytes (s.own.sigBuf[k.1]'k.2) 0 2420)

/-- The successor that OWN_RELEASE names (R474). -/
def successor (v : Nat) : Option Master :=
  match bits v 1 0 with
  | 1 => some .sb
  | 2 => some .pf0
  | 3 => some (.rm (BitVec.ofNat 16 (bits v 17 2)) (BitVec.ofNat 16 (bits v 33 18)) (BitVec.ofNat 16 (bits v 49 34)))
  | _ => none

/-- Bytes of OWN_SIGBUF beyond its 2,420 do not exist. -/
def sigWrite (at_ : Nat) (l : List Byte) (b : SMap Byte) : SMap Byte := wrBytes b at_ (l.take (2420 - at_))

def writeOwn (w : BusWrite) (s : State) : State :=
  let m := w.m
  let k := kindIdx m
  if 0x1000 ≤ w.o ∧ w.o < 0x1974 then
    let (a, l) := w.bytes 0x1000
    updOwn (fun x => { x with sigBuf := x.sigBuf.set k.1 (sigWrite a l (x.sigBuf[k.1]'k.2)) k.2 }) s
  else match w.o with
    | 0x10 => updOwn (fun x => { x with claimTick := x.claimTick.set k.1 (BitVec.ofNat 64 (w.put (x.claimTick[k.1]'k.2).toNat)) k.2 }) s
    | 0x18 =>
      let prio := bits w.act 31 24
      let nonce := bits w.act 63 32
      after (execOwnClaim m (BitVec.ofNat 8 prio) (BitVec.ofNat 32 nonce) (claimSig s m prio nonce)) s
    | 0x20 => after (execOwnRenew m (BitVec.ofNat 32 (bits w.act 63 32))) s
    | 0x28 => after (execOwnRelease m (successor w.act)) s
    | _ => s

/-! ### IMG and TIK (R475, R476) -/

/-- IMG_CTRL: the operation that OP names, on what the world holds at the source (log 54, DESIGN CHOICE). -/
def imgOp (m : Master) (v : Nat) (s : State) : State :=
  let n := s.freeCtr
  match bits v 3 0 with
  | 1 => after (execFullLoad m (Config.worldImage n)) (spend s)
  | 2 => after (execWriteSlotA m (Config.worldImage n)) (spend s)
  | 3 => after (execWriteSlotB m (Config.worldImage n)) (spend s)
  | 4 => after (execSetBootSlot m (bit v 4)) s
  | 5 => after (execSavetrim m) s
  | 6 => after (execWriteGradeCertificate m (Config.worldCert n)) (spend s)
  | _ => ownerOnly m imgCtrl id s

def writeImg (w : BusWrite) (s : State) : State :=
  let off := 0x20000 + w.o
  match w.o with
  | 0x00 => imgOp w.m w.act s
  | 0x08 => ownerOnly w.m off (updImg (fun g => { g with src := BitVec.ofNat 64 (w.put g.src.toNat) &&& 0xFFFFFFFFFFFFF003 })) s
  | 0x10 => ownerOnly w.m off (updImg (fun g => { g with len := BitVec.ofNat 32 (w.put g.len.toNat) })) s
  | 0x18 => whenS (bit w.act 15) (updImg (fun g => { g with err := false })) s
  | _ => s

def writeTik (w : BusWrite) (s : State) : State :=
  let off := 0x30000 + w.o
  match w.o with
  | 0x00 => if w.low then after (execTikPeriod w.m (BitVec.ofNat 64 (bits (w.put s.tick.period) 31 0))) s else ownerOnly w.m off id s
  | 0x08 => ownerOnly w.m off (updTick (fun k => { k with srcM := bit (w.put (b2n k.srcM)) 0 })) s
  | 0x10 => after (execTikNext w.m (BitVec.ofNat 64 w.act)) s
  | 0x18 => ownerOnly w.m off (updTick (fun k => { k with outEn := bit (w.put (b2n k.outEn)) 0 })) s
  | _ => s

/-! ### PRT (R429, R431, R458, R477) -/

/-- PRT_OP: the operation that [2:0] names. -/
def prtOp (m : Master) (p : PartId) (v : Nat) (s : State) : State :=
  match bits v 2 0 with
  | 1 => after (execLoad m p (if bit v 3 then some (sourceImage s (Config.worldImage s.freeCtr)) else none)) (spend s)
  | 2 => after (execStart m p) s
  | 3 => after (execDrain m p) s
  | 4 => after (execReset m p) s
  | 5 => after (execUnload m p) s
  | _ => ownerOnly m (prtOff p 8) id s

/-- The partition's own VF alone writes its attestation registers. -/
def vfOnly (m : Master) (p : PartId) (off : Nat) (f : Part → Part) (s : State) : State :=
  if m = .vf (vfOf p) then updPart p f s else ignoreWrite m off 1 s

def writePrt (p : PartId) (w : BusWrite) (s : State) : State :=
  let off := prtOff p w.o
  let v := w.act
  if 0x20 ≤ w.o ∧ w.o < 0x40 then
    let k := (w.o - 0x20) / 8
    vfOnly w.m p off (fun x => { x with attNonce := setWord64 x.attNonce k (w.put (word64 x.attNonce k)) }) s
  else if 0x80 ≤ w.o ∧ w.o < 0xB8 then
    let i : Fin 7 := Fin.ofNat 7 ((w.o - 0x80) / 8)
    after (execBudgetWrite w.m p i (BitVec.ofNat 64 (w.put ((s.part p).budgets[i.1]'i.2).written))) s
  else match w.o with
    | 0x00 => ownerOnly w.m off (updPart p (fun x => { x with
        oprej := x.oprej && !bit v 16, brej := x.brej && !bit v 17, attrej := x.attrej && !bit v 18 })) s
    | 0x08 => prtOp w.m p v s
    | 0x10 => ownerOnly w.m off (updPart p (fun x => { x with tlock := bit (w.put (b2n x.tlock)) 0 })) s
    | 0x18 => after (execPrtConsent w.m p (BitVec.ofNat 32 (bits v 31 0)) (bit v 32)) s
    | 0x40 => vfOnly w.m p off (fun x => { x with attAddr := BitVec.ofNat 64 (w.put x.attAddr.toNat) &&& 0xFFFFFFFFFFFFFFC0 }) s
    | 0x48 => if bit v 0 then after (execPrtAttgo w.m p) s else vfOnly w.m p off id s
    | _ => ownerOnly w.m off id s

/-! ### TKT (R468, R469) -/

/-- The master that a function is. -/
def masterOf (f : FuncId) : Master := if f.1 = 0 then .pf0 else .vf f

/-- Every accepted request of a function has its FINAL completion record written and no record waits (R469). -/
def ringsIdle (s : State) (f : FuncId) : Bool :=
  (s.func f).waiting.isEmpty && allParts.all (fun p => (s.part p).reqs.all (fun r => r.func != f.1 || !accepted r || r.delivered))

/-- A ring size that EN may be set with (R469). -/
def sizeOk (n : Nat) : Bool := decide (6 ≤ n ∧ n ≤ 16)

/-- PART, SQLOG2, CQLOG2 and JQLOG2 of a written TKT_RINGCFG; PART is PF0's only (R468). -/
def ringFields (f : FuncId) (v : Nat) : Nat × Nat × Nat × Nat :=
  (if f.1 = 0 then bits v 29 24 else 0, bits v 20 16, bits v 12 8, bits v 4 0)

/-- A write of TKT_RINGCFG keeps the rules of R469. -/
def ringcfgOk (s : State) (f : FuncId) (v : Nat) : Bool :=
  let g := s.func f
  let x := ringFields f v
  if g.en then decide (x = (if f.1 = 0 then g.part else 0, g.sqLog, g.cqLog, g.jqLog)) && (bit v 63 || ringsIdle s f)
  else !bit v 63 || (sizeOk x.2.1 && sizeOk x.2.2.1 && sizeOk x.2.2.2)

/-- The fields take the written values; ERR is W1C. -/
def setRings (f : FuncId) (v : Nat) (g : Func) : Func :=
  let x := ringFields f v
  { g with en := bit v 63, err := g.err && !bit v 62, part := x.1, sqLog := x.2.1, cqLog := x.2.2.1, jqLog := x.2.2.2 }

/-- A rejected write sets ERR and changes nothing (R469). -/
def ringError (f : FuncId) (s : State) : State := updFunc f (fun g => { g with err := true }) s

/-- The configuration is written; once EN is set the records that wait are written (R305, R471). -/
def ringWriteCfg (f : FuncId) (v : Nat) (s : State) : State :=
  if ringcfgOk s f v then flushJournal f (updFunc f (setRings f v) s) else ringError f s

/-- TKT_RINGCFG (R468, R469): written by its own function. -/
def execTktRingcfg (f : FuncId) (v : W64) (s : State) : Res := .next (if arrives s (masterOf f) then ringWriteCfg f v.toNat s else s)

/-- A ring base, [63:12]: written only while EN is 0 (R468, R469). -/
def ringBase (f : FuncId) (upd : W64 → Func → Func) (v : Nat) (s : State) : State :=
  if (s.func f).en then ringError f s else updFunc f (upd (BitVec.ofNat 64 v &&& 0xFFFFFFFFFFFFF000)) s

def writeTkt (f : FuncId) (w : BusWrite) (s : State) : State :=
  let g := s.func f
  if w.m ≠ masterOf f then ignoreWrite w.m (0x60000 + 0x40 * f.1 + w.o) 1 s
  else match w.o with
    | 0x00 => ringBase f (fun b g => { g with sqBase := b }) (w.put g.sqBase.toNat) s
    | 0x08 => ringBase f (fun b g => { g with cqBase := b }) (w.put g.cqBase.toNat) s
    | 0x10 => ringBase f (fun b g => { g with jqBase := b }) (w.put g.jqBase.toNat) s
    | 0x18 => ringWriteCfg f (w.put (ringCfg f { g with err := false })) s
    | _ => s

/-! ### MEM, FLT, PWR (R343, R349, R439, R462, R478, R479) -/

def writeMem (w : BusWrite) (s : State) : State :=
  let off := 0xA0000 + w.o
  let n := s.freeCtr
  let idx (base : Nat) : BitVec 6 := BitVec.ofNat 6 ((w.o - base) / 8)
  if 0x200 ≤ w.o ∧ w.o < 0x400 then after (execMemReload w.m (idx 0x200) (BitVec.ofNat 64 w.act) (Config.worldLines n)) (spend s)
  else if 0x400 ≤ w.o ∧ w.o < 0x600 then after (execMemFreload w.m (idx 0x400) (BitVec.ofNat 64 w.act) (Config.worldLines n)) (spend s)
  else match w.o with
    | 0x100 => ownerOnly w.m off (updMem (fun x => { x with cpSrc := BitVec.ofNat 64 (w.put x.cpSrc.toNat) })) s
    | 0x108 => ownerOnly w.m off (updMem (fun x => { x with cpDst := BitVec.ofNat 64 (w.put x.cpDst.toNat) })) s
    | 0x110 => ownerOnly w.m off (updMem (fun x => { x with cpLen := BitVec.ofNat 40 (w.put x.cpLen.toNat) })) s
    | 0x118 => after (execMemCpgo w.m (!bit w.act 0) (bit w.act 1)) s
    | 0x120 => ownerOnly w.m off (updMem (fun x => { x with cpErr := x.cpErr && !bit w.act 19 })) s
    | _ => s

def writeFlt (w : BusWrite) (s : State) : State :=
  let off := 0xE0000 + w.o
  let env := Config.worldStart s.freeCtr
  match w.o with
  | 0x00 => ownerOnly w.m off (updFlt (fun x => { x with sticky := x.sticky &&& ~~~(BitVec.ofNat 16 w.act) })) s
  | 0x28 => ownerOnly w.m off (updFlt (fun x => { x with recoverEn := bit (w.put (b2n x.recoverEn)) 0 })) s
  | 0x30 =>
    match bits w.act 1 0 with
    | 1 => after (execColdStart (some w.m) env) (spend s)
    | 2 => after (execWarmStart (some w.m) env) (spend s)
    | _ => ownerOnly w.m off id s
  | 0x48 => after (execFltTestreq w.m (BitVec.ofNat 8 (bits w.act 7 0)) (BitVec.ofNat 16 (bits w.act 23 8))) s
  | _ => s

/-- A target clock code: 13-15 are ignored (R439). -/
def clockCode (old v : Nat) : Nat := if v ≤ 12 then v else old

/-- The RW fields of PWR_CTRL (R439). -/
def setPwr (v : Nat) (x : Pwr) : Pwr :=
  { x with
    ft := Vector.ofFn (fun t => clockCode (x.ft[t]) (bits v (17 + 4 * t.1) (14 + 4 * t.1)))
    capw := if 100 ≤ bits v 13 5 ∧ bits v 13 5 ≤ 300 then bits v 13 5 else x.capw
    idleEn := bit v 4, autowake := bit v 3 }

/-- REQ of PWR_CTRL (R436, R439). -/
def pwrReq (m : Master) (v : Nat) (s : State) : State :=
  match bits v 2 0 with
  | 1 => after (execReqStandby m) s
  | 2 => after (execReqOff m) s
  | 3 => after (execReqWake m (Config.worldStart s.freeCtr)) (spend s)
  | _ => s

/-- The PWR block: PWR_CTRL in the low half and PWR_STATUS, whose REJ is W1C, in the high half (R439, R479). -/
def writePwr (w : BusWrite) (s : State) : State :=
  if w.o ≠ 0 then s
  else
    let s := whenS (bit w.act 54) (updPwr (fun x => { x with rej := false })) s
    if w.low then ownerOnly w.m pwrCtrl (fun s => pwrReq w.m w.act (updPwr (setPwr (w.put ((regWord s w.m pwrCtrl).getD 0))) s)) s else s

/-! ### SEC (R424, R426, R432, R479) -/

/-- A field of the command in the mailbox. -/
def mboxField (s : State) (a n : Nat) : Nat := rdLE s.sec.mbox a n

/-- Payload bytes that the mailbox's command has (R424). -/
def payloadLen (s : State) : Nat :=
  match mboxField s 0 1 with
  | 1 => 1320 + 1316 * mboxField s 16 1
  | 2 => 1320 + 1316 * mboxField s 16 1
  | 0x12 => 8
  | _ => 0

/-- The signature of the mailbox's command verifies (R424, R432): UNLOCK's under the debug key over the challenge, PROVISION's under the
admin key of its own payload, any other under the admin key of the record in use. -/
def mboxSigOk (s : State) : Bool :=
  let n := payloadLen s
  let sig := rdBytes s.sec.mbox (16 + n) 2420
  let body := (rdBytes s.sec.mbox 0 (16 + n)).map BitVec.toNat
  match mboxField s 0 1 with
  | 0x14 => Config.mldsa 0 [(s.sec.chal.map Prod.fst).getD 0, s.sec.iddig, 0x4433] sig
  | 1 => Config.mldsa (Config.sha3 ((rdBytes s.sec.mbox 24 1312).map BitVec.toNat)) (s.sec.iddig :: body) sig
  | _ => Config.mldsa ((provInUse s).map Prov.digest |>.getD 0) (s.sec.iddig :: body) sig

/-- The header of the mailbox's command with the length that SEC_MBGO gives (R424). -/
def mboxHdr (s : State) (len : Nat) : SecHdr :=
  { cmd := BitVec.ofNat 8 (mboxField s 0 1), rsv0 := mboxField s 1 3 == 0, nonce := BitVec.ofNat 32 (mboxField s 4 4)
    tick := BitVec.ofNat 64 (mboxField s 8 8), len := BitVec.ofNat 16 len, sigOk := mboxSigOk s }

/-- The keys of the mailbox's PROVISION or ROTATE (R424); the digest of the record they make is not stated (log 5, DESIGN CHOICE). -/
def mboxKeys (s : State) : KeyPayload :=
  let n := mboxField s 16 1
  { nkey := BitVec.ofNat 8 n, keyids := (List.range n).map (fun k => BitVec.ofNat 32 (mboxField s (1336 + 1316 * k) 4))
    digest := Config.sha3 ((rdBytes s.sec.mbox 16 (payloadLen s)).map BitVec.toNat), rsv0 := mboxField s 17 7 == 0 }

/-- SEC_MBGO: the command in the mailbox (R424). -/
def mailbox (m : Master) (len : Nat) (s : State) : State :=
  let h := mboxHdr s len
  match mboxField s 0 1 with
  | 0x01 => after (execProvision m h (mboxKeys s)) s
  | 0x02 => after (execRotate m h (mboxKeys s)) s
  | 0x03 => after (execLockdown m h) s
  | 0x04 => after (execSecRelease m h) s
  | 0x05 => after (execDeprovision m h) s
  | 0x10 => after (execDebug0 m h) s
  | 0x11 => after (execDebug1 m h) s
  | 0x12 => after (execDebug2 m h (BitVec.ofNat 8 (mboxField s 16 1)) (mboxField s 17 7 == 0)) s
  | 0x13 => after (execChallenge m h) s
  | 0x14 => after (execUnlock m h) s
  | _ => ownerOnly m secMbgo (secRes 4) s

/-- PF0 alone writes the attestation registers of the SEC block (R429, R479). -/
def pf0Only (m : Master) (off : Nat) (f : State → State) (s : State) : State := if m = .pf0 then f s else ignoreWrite m off 1 s

def writeSec (w : BusWrite) (s : State) : State :=
  let off := 0x120000 + w.o
  if 0x10 ≤ w.o ∧ w.o < 0x30 then
    let k := (w.o - 0x10) / 8
    pf0Only w.m off (updSec (fun x => { x with attNonce := setWord64 x.attNonce k (w.put (word64 x.attNonce k)) })) s
  else if 0x1000 ≤ w.o ∧ w.o < 0x4000 then
    let (a, l) := w.bytes 0x1000
    ownerOnly w.m off (updSec (fun x => { x with mbox := wrBytes x.mbox a l })) s
  else match w.o with
    | 0x30 => pf0Only w.m off (updSec (fun x => { x with attAddr := BitVec.ofNat 64 (w.put x.attAddr.toNat) &&& 0xFFFFFFFFFFFFFFC0 })) s
    | 0x38 => if bit w.act 0 then after (execSecAttgo w.m) s else pf0Only w.m off id s
    | 0x40 => mailbox w.m (bits w.act 15 0) s
    | _ => s

/-! ### MSI-X (R466, R467) -/

/-- A table entry takes its address, or its data and mask; an unmasked vector owes the message that its pending bit holds (R467). -/
def setVector (w : BusWrite) (k : Nat) (x : Msix) : Msix :=
  if k % 2 = 0 then { x with addr := BitVec.ofNat 64 (w.put x.addr.toNat) }
  else
    let v := w.put (x.data.toNat + 2 ^ 32 * b2n x.masked)
    let masked := bit v 32
    { x with data := BitVec.ofNat 32 v, masked, pend := x.pend && masked, due := x.due || (x.pend && !masked) }

/-- A write of the table of a function with `n` vectors, at word `k`. -/
def writeTable (f : FuncId) (n k : Nat) (w : BusWrite) (s : State) : State :=
  if n ≤ k / 2 then s
  else updFunc f (fun g => { g with vectors := Vector.ofFn (fun i => if i.1 = k / 2 then setVector w k (g.vectors[i]) else g.vectors[i]) }) s

/-- The least time between two messages of a vector, in ns (R467). -/
def msixGap : Nat := 4000

/-- A vector may send: it owes a message, is not masked, and has sent none within 4 us (R467). -/
def msixDue (s : State) (x : Msix) : Bool :=
  x.due && !x.masked && (match x.lastNs with
    | none => true
    | some t => decide (t + msixGap ≤ nowNs s ∨ nowNs s < t))

/-- MSIX_MESSAGE (R466, R467): the message of a vector that owes one. -/
def execMsixMessage (f : FuncId) (v : Fin 128) (s : State) : Res :=
  .next (if msixDue s ((s.func f).vectors[v]) then
      emit (.msix f.1 v.1) (updFunc f (fun g => { g with
        vectors := g.vectors.set v.1 { g.vectors[v] with due := false, lastNs := some (nowNs s) } v.2 }) s)
    else s)

/-! ### CORE (R223, R430, R479) -/

/-- A core's window may be written: in D3, and in D2 for the named partition's cores while it is halted (R430, R479). -/
def coreWritable (s : State) (c : CoreId) : Bool :=
  dstate s.sec == 3 || (dstate s.sec == 2 && (match partOfCore s c.1 with
    | some p => s.sec.d2 == some p.1 && decide ((s.part p).state = PState.halted)
    | none => false))

/-- OVW of CORE_SCSTATn is W1C (R223); the other registers of the window have no layout in the spec. -/
def writeCore (c : CoreId) (w : BusWrite) (s : State) : State :=
  if coreWritable s c ∧ 0x400 ≤ w.o ∧ w.o < 0x428 ∧ bit w.act 4 then
    updCore c (fun x => { x with su := Vector.ofFn (fun i => if i.1 = (w.o - 0x400) / 8 then { x.su[i] with ovw := false } else x.su[i]) }) s
  else s

/-! ### The map (R464, R472) -/

/-- A write to PF0's BAR0 map (R472): a block's own offsets start at its base; one that no block defines ignores writes (R9). ID and the
pending bits are RO, and LNK and NUM name no register that a write changes (R473, R479). -/
def writeMap (w : BusWrite) (s : State) : State :=
  let sub (base : Nat) : BusWrite := { w with o := w.o - base }
  let o := w.o
  if o < 0x10000 then s
  else if o < 0x20000 then writeOwn (sub 0x10000) s
  else if o < 0x30000 then writeImg (sub 0x20000) s
  else if o < 0x40000 then writeTik (sub 0x30000) s
  else if o < 0x50000 then writePrt (pid ((o - 0x40000) / 0x400)) { w with o := o % 0x400 } s
  else if o < 0x60000 then s
  else if o < 0x61040 then writeTkt (fid ((o - 0x60000) / 0x40)) { w with o := o % 0x40 } s
  else if o < 0xA0000 then s
  else if o < 0xC0000 then writeMem (sub 0xA0000) s
  else if o < 0xE0000 then s
  else if o < 0x100000 then writeFlt (sub 0xE0000) s
  else if o < 0x120000 then writePwr (sub 0x100000) s
  else if o < 0x140000 then writeSec (sub 0x120000) s
  else if o < 0x141000 then writeTable 0 128 ((o - 0x140000) / 8) w s
  else if o < 0x200000 then s
  else if o < 0x400000 then writeCore (cid ((o - 0x200000) / 0x4000)) { w with o := o % 0x4000 } s
  else s

/-- A write at a multiple of 8 of the master's own BAR0 (R464, R465). -/
def writeWord (w : BusWrite) (s : State) : State :=
  match w.m with
  | .vf f => match vfOffset f w.o with
    | some g => writeMap { w with o := g } s
    | none => if 0x800 ≤ w.o ∧ w.o < 0xC00 then writeTable f 30 ((w.o - 0x800) / 8) w s else s
  | _ => writeMap w s

/-- A write of BAR0: a misaligned one is ignored (R7). -/
def writeReg (m : Master) (o : Nat) (size : Fin 4) (v : Nat) (s : State) : State :=
  if alignedAt o size then writeWord { m, o := o / 8 * 8, first := o % 8, count := 2 ^ size.1, v } s else s

/-- REGISTER_WRITE (R8). -/
def execRegisterWrite (m : Master) (off : BitVec 22) (size : Fin 4) (v : W64) (s : State) : Res :=
  .next (if arrives s m then writeReg m off.toNat size v.toNat s else s)

/-! ### The sideband and remote masters (R465, R492) -/

/-- One register access of a master that reaches BAR0 only (R465). -/
def barAccess (m : Master) (wr : Bool) (off : Nat) (size : Fin 4) (v : Nat) (s : State) : State :=
  if wr then writeReg m off size v s else readReg m off size s

/-- The I3C target's static address (R492). -/
def i3cAddr (s : State) : BitVec 7 := BitVec.ofNat 7 (0x50 + s.pwr.brdId.toNat)

/-- I3C_ACCESS (R465, R492): a private transfer to the module's own address; a write of other than 4 or 8 bytes is no transfer of R465 and is
ignored (log 169, DEDUCED). -/
def execI3cAccess (addr : BitVec 7) (wr : Bool) (off : BitVec 22) (size : Fin 4) (data : W64) (s : State) : Res :=
  .next (if addr = i3cAddr s ∧ arrives s .sb ∧ (wr = false ∨ 2 ≤ size.1) then barAccess .sb wr off.toNat size data.toNat s else s)

/-- RM_ACCESS (R278, R363, R465): a MGMT packet of a remote master; a read is answered by one, charged to D. -/
def execRmAccess (x y z : W16) (wr : Bool) (off : BitVec 22) (size : Fin 4) (data : W64) (s : State) : Res :=
  let m : Master := .rm x y z
  .next (if arrives s m then whenS (!wr) (chargeD 5 256) (barAccess m wr off.toNat size data.toNat s) else s)

end Sys2Proof.Machine
end

