-- ==== Sys2Proof/Machine/Dispatch.lean ====
section
/-! DEFINITION. One arm per command: each calls the meaning of its own row. -/

namespace Sys2Proof.Machine

/-- The effect of a command on everything but the queue. -/
def exec (i : Instr) (s : State) : Host.Outcome State Fault Refusal :=
  match i with
  | .nop c => Sys2Proof.Machine.execNop c s
  | .add c rd ra rb => Sys2Proof.Machine.execAdd c rd ra rb s
  | .sub c rd ra rb => Sys2Proof.Machine.execSub c rd ra rb s
  | .mul c rd ra rb => Sys2Proof.Machine.execMul c rd ra rb s
  | .and c rd ra rb => Sys2Proof.Machine.execAnd c rd ra rb s
  | .or c rd ra rb => Sys2Proof.Machine.execOr c rd ra rb s
  | .xor c rd ra rb => Sys2Proof.Machine.execXor c rd ra rb s
  | .shl c rd ra rb => Sys2Proof.Machine.execShl c rd ra rb s
  | .shr c rd ra rb => Sys2Proof.Machine.execShr c rd ra rb s
  | .sra c rd ra rb => Sys2Proof.Machine.execSra c rd ra rb s
  | .min c rd ra rb => Sys2Proof.Machine.execMin c rd ra rb s
  | .max c rd ra rb => Sys2Proof.Machine.execMax c rd ra rb s
  | .addi c rd ra imm => Sys2Proof.Machine.execAddi c rd ra imm s
  | .ori c rd ra imm => Sys2Proof.Machine.execOri c rd ra imm s
  | .shli c rd ra imm => Sys2Proof.Machine.execShli c rd ra imm s
  | .lui c rd imm => Sys2Proof.Machine.execLui c rd imm s
  | .ceq c pd ra rb => Sys2Proof.Machine.execCeq c pd ra rb s
  | .clt c pd ra rb => Sys2Proof.Machine.execClt c pd ra rb s
  | .cltu c pd ra rb => Sys2Proof.Machine.execCltu c pd ra rb s
  | .cle c pd ra rb => Sys2Proof.Machine.execCle c pd ra rb s
  | .b c target => Sys2Proof.Machine.execB c target s
  | .bp c pa target => Sys2Proof.Machine.execBp c pa target s
  | .bnp c pa target => Sys2Proof.Machine.execBnp c pa target s
  | .call c target => Sys2Proof.Machine.execCall c target s
  | .ret c => Sys2Proof.Machine.execRet c s
  | .end_ c => Sys2Proof.Machine.execEnd c s
  | .ldD c rd ra imm => Sys2Proof.Machine.execLdD c rd ra imm s
  | .stD c rs ra imm => Sys2Proof.Machine.execStD c rs ra imm s
  | .movHS c rd h => Sys2Proof.Machine.execMovHS c rd h s
  | .movSH c h ra => Sys2Proof.Machine.execMovSH c h ra s
  | .csrr c rd idx => Sys2Proof.Machine.execCsrr c rd idx s
  | .twait c mask => Sys2Proof.Machine.execTwait c mask s
  | .mm c h b => Sys2Proof.Machine.execMm c h b s
  | .cx c h b xd => Sys2Proof.Machine.execCx c h b xd s
  | .recipe c h b => Sys2Proof.Machine.execRecipe c h b s
  | .scan c h b => Sys2Proof.Machine.execScan c h b s
  | .perm c h b => Sys2Proof.Machine.execPerm c h b s
  | .norm c h b => Sys2Proof.Machine.execNorm c h b s
  | .reduce c h b => Sys2Proof.Machine.execReduce c h b s
  | .smerge c h b => Sys2Proof.Machine.execSmerge c h b s
  | .park c h b => Sys2Proof.Machine.execPark c h b s
  | .restore c h b => Sys2Proof.Machine.execRestore c h b s
  | .rload c h b => Sys2Proof.Machine.execRload c h b s
  | .tload c h b => Sys2Proof.Machine.execTload c h b s
  | .arm c h unit doff sovr => Sys2Proof.Machine.execArm c h unit doff sovr s
  | .fill c h sf => Sys2Proof.Machine.execFill c h sf s
  | .put c h b => Sys2Proof.Machine.execPut c h b s
  | .take c h b => Sys2Proof.Machine.execTake c h b s
  | .return_ c h b => Sys2Proof.Machine.execReturn c h b s
  | .free c h b => Sys2Proof.Machine.execFree c h b s
  | .bl c h mark => Sys2Proof.Machine.execBl c h mark s
  | .tileComplete c q => Sys2Proof.Machine.execTileComplete c q s
  | .matrixPass c e upset => Sys2Proof.Machine.execMatrixPass c e upset s
  | .scoopTransferIssue c u => Sys2Proof.Machine.execScoopTransferIssue c u s
  | .transferLanded c u r => Sys2Proof.Machine.execTransferLanded c u r s
  | .simmerRefill p => Sys2Proof.Machine.execSimmerRefill p s
  | .fillPhase c => Sys2Proof.Machine.execFillPhase c s
  | .multicastBlockSend p mcid data => Sys2Proof.Machine.execMulticastBlockSend p mcid data s
  | .multicastLagAbort p mcid => Sys2Proof.Machine.execMulticastLagAbort p mcid s
  | .bellRelease p => Sys2Proof.Machine.execBellRelease p s
  | .lateData p ckpt => Sys2Proof.Machine.execLateData p ckpt s
  | .abortWindowClose p => Sys2Proof.Machine.execAbortWindowClose p s
  | .flitReceive port fl => Sys2Proof.Machine.execFlitReceive port fl s
  | .retrain port cause => Sys2Proof.Machine.execRetrain port cause s
  | .retrainComplete port => Sys2Proof.Machine.execRetrainComplete port s
  | .portDown port => Sys2Proof.Machine.execPortDown port s
  | .portTrain m port => Sys2Proof.Machine.execPortTrain m port s
  | .trainingComplete port far farPort tag => Sys2Proof.Machine.execTrainingComplete port far farPort tag s
  | .write h data => Sys2Proof.Machine.execWrite h data s
  | .piece port h data => Sys2Proof.Machine.execPiece port h data s
  | .segment h data => Sys2Proof.Machine.execSegment h data s
  | .ack port h => Sys2Proof.Machine.execAck port h s
  | .notice h => Sys2Proof.Machine.execNotice h s
  | .tickMessage port n => Sys2Proof.Machine.execTickMessage port n s
  | .taskStartMessage p task startTick entries epochs => Sys2Proof.Machine.execTaskStartMessage p task startTick entries epochs s
  | .stateReport p src tstate pstate service sstate => Sys2Proof.Machine.execStateReport p src tstate pstate service sstate s
  | .taskPrepared p src task => Sys2Proof.Machine.execTaskPrepared p src task s
  | .groupCheck p gid src check sstate => Sys2Proof.Machine.execGroupCheck p gid src check sstate s
  | .suspectReport r => Sys2Proof.Machine.execSuspectReport r s
  | .peerAccused r => Sys2Proof.Machine.execPeerAccused r s
  | .rmAccess x y z wr off size data => Sys2Proof.Machine.execRmAccess x y z wr off size data s
  | .cancelFlagMessage p task entry => Sys2Proof.Machine.execCancelFlagMessage p task entry s
  | .localTileLand p port c xd tile => Sys2Proof.Machine.execLocalTileLand p port c xd tile s
  | .triggeredOpFire p port slot => Sys2Proof.Machine.execTriggeredOpFire p port slot s
  | .collectiveDeadline p ckpt => Sys2Proof.Machine.execCollectiveDeadline p ckpt s
  | .roceAck port qp upto => Sys2Proof.Machine.execRoceAck port qp upto s
  | .congestionNotification port qp => Sys2Proof.Machine.execCongestionNotification port qp s
  | .roceRetryTimeout port qp => Sys2Proof.Machine.execRoceRetryTimeout port qp s
  | .foreignRequestDrop port => Sys2Proof.Machine.execForeignRequestDrop port s
  | .segmentHandOff p reqid payload => Sys2Proof.Machine.execSegmentHandOff p reqid payload s
  | .cancelledSegment p reqid => Sys2Proof.Machine.execCancelledSegment p reqid s
  | .sqTail f v atomic => Sys2Proof.Machine.execSqTail f v atomic s
  | .cqHead f v atomic => Sys2Proof.Machine.execCqHead f v atomic s
  | .jqHead f v atomic => Sys2Proof.Machine.execJqHead f v atomic s
  | .cancel f reqid atomic => Sys2Proof.Machine.execCancel f reqid atomic s
  | .prefill f d tokens qrOk => Sys2Proof.Machine.execPrefill f d tokens qrOk s
  | .extend f d tokens qrOk => Sys2Proof.Machine.execExtend f d tokens qrOk s
  | .release f d => Sys2Proof.Machine.execRelease f d s
  | .migrate f d => Sys2Proof.Machine.execMigrate f d s
  | .vload f d srcOk => Sys2Proof.Machine.execVload f d srcOk s
  | .acceptance f reqid => Sys2Proof.Machine.execAcceptance f reqid s
  | .cancelHoldExpiry f reqid => Sys2Proof.Machine.execCancelHoldExpiry f reqid s
  | .admission p => Sys2Proof.Machine.execAdmission p s
  | .taskStart p => Sys2Proof.Machine.execTaskStart p s
  | .taskEnd p logits => Sys2Proof.Machine.execTaskEnd p logits s
  | .commit p reqid => Sys2Proof.Machine.execCommit p reqid s
  | .completionRecordWrite f => Sys2Proof.Machine.execCompletionRecordWrite f s
  | .extentEdit p xtab e => Sys2Proof.Machine.execExtentEdit p xtab e s
  | .extentReclaim p idx => Sys2Proof.Machine.execExtentReclaim p idx s
  | .vloadComplete p => Sys2Proof.Machine.execVloadComplete p s
  | .upkeepWindow port retrainOk scrub => Sys2Proof.Machine.execUpkeepWindow port retrainOk scrub s
  | .memCpgo m srcHost dstHost => Sys2Proof.Machine.execMemCpgo m srcHost dstHost s
  | .ownerCopyComplete errLine => Sys2Proof.Machine.execOwnerCopyComplete errLine s
  | .memReload m ix bits again => Sys2Proof.Machine.execMemReload m ix bits again s
  | .memFreload m ix bits again => Sys2Proof.Machine.execMemFreload m ix bits again s
  | .bar4Read f off n r => Sys2Proof.Machine.execBar4Read f off n r s
  | .bar4Write f off data => Sys2Proof.Machine.execBar4Write f off data s
  | .tickEdge offset interval => Sys2Proof.Machine.execTickEdge offset interval s
  | .tickMiss => Sys2Proof.Machine.execTickMiss s
  | .tickBoundary env => Sys2Proof.Machine.execTickBoundary env s
  | .tikNext m n => Sys2Proof.Machine.execTikNext m n s
  | .tikPeriod m v => Sys2Proof.Machine.execTikPeriod m v s
  | .kappaUpdate num den => Sys2Proof.Machine.execKappaUpdate num den s
  | .budgetWrite m p ix v => Sys2Proof.Machine.execBudgetWrite m p ix v s
  | .load m p fromPart => Sys2Proof.Machine.execLoad m p fromPart s
  | .start m p => Sys2Proof.Machine.execStart m p s
  | .drain m p => Sys2Proof.Machine.execDrain m p s
  | .reset m p => Sys2Proof.Machine.execReset m p s
  | .unload m p => Sys2Proof.Machine.execUnload m p s
  | .loadingComplete p => Sys2Proof.Machine.execLoadingComplete p s
  | .ownClaim m prio nonce sigOk => Sys2Proof.Machine.execOwnClaim m prio nonce sigOk s
  | .ownRenew m nonce => Sys2Proof.Machine.execOwnRenew m nonce s
  | .ownRelease m succ => Sys2Proof.Machine.execOwnRelease m succ s
  | .claimWindowClose => Sys2Proof.Machine.execClaimWindowClose s
  | .leaseLapse => Sys2Proof.Machine.execLeaseLapse s
  | .handoverExpiry => Sys2Proof.Machine.execHandoverExpiry s
  | .i3cAccess addr wr off size data => Sys2Proof.Machine.execI3cAccess addr wr off size data s
  | .fullLoad m img => Sys2Proof.Machine.execFullLoad m img s
  | .writeSlotA m img => Sys2Proof.Machine.execWriteSlotA m img s
  | .writeSlotB m img => Sys2Proof.Machine.execWriteSlotB m img s
  | .setBootSlot m slotB => Sys2Proof.Machine.execSetBootSlot m slotB s
  | .savetrim m => Sys2Proof.Machine.execSavetrim m s
  | .writeGradeCertificate m cert => Sys2Proof.Machine.execWriteGradeCertificate m cert s
  | .imageLoadComplete => Sys2Proof.Machine.execImageLoadComplete s
  | .flashWriteComplete => Sys2Proof.Machine.execFlashWriteComplete s
  | .certificateWriteComplete => Sys2Proof.Machine.execCertificateWriteComplete s
  | .coldStart m env => Sys2Proof.Machine.execColdStart m env s
  | .warmStart m env => Sys2Proof.Machine.execWarmStart m env s
  | .reqStandby m => Sys2Proof.Machine.execReqStandby m s
  | .reqOff m => Sys2Proof.Machine.execReqOff m s
  | .reqWake m env => Sys2Proof.Machine.execReqWake m env s
  | .pwrEnAssert ms env => Sys2Proof.Machine.execPwrEnAssert ms env s
  | .pwrEnDeassert ms => Sys2Proof.Machine.execPwrEnDeassert ms s
  | .perstAssert => Sys2Proof.Machine.execPerstAssert s
  | .perstDeassert refclk => Sys2Proof.Machine.execPerstDeassert refclk s
  | .inputInRange brdId env => Sys2Proof.Machine.execInputInRange brdId env s
  | .inputLoss => Sys2Proof.Machine.execInputLoss s
  | .voltageOutOfRange out => Sys2Proof.Machine.execVoltageOutOfRange out s
  | .thermalCritical tempC => Sys2Proof.Machine.execThermalCritical tempC s
  | .provision m h k => Sys2Proof.Machine.execProvision m h k s
  | .rotate m h k => Sys2Proof.Machine.execRotate m h k s
  | .lockdown m h => Sys2Proof.Machine.execLockdown m h s
  | .secRelease m h => Sys2Proof.Machine.execSecRelease m h s
  | .deprovision m h => Sys2Proof.Machine.execDeprovision m h s
  | .debug0 m h => Sys2Proof.Machine.execDebug0 m h s
  | .debug1 m h => Sys2Proof.Machine.execDebug1 m h s
  | .debug2 m h p rsv0 => Sys2Proof.Machine.execDebug2 m h p rsv0 s
  | .challenge m h => Sys2Proof.Machine.execChallenge m h s
  | .unlock m h => Sys2Proof.Machine.execUnlock m h s
  | .wipeComplete => Sys2Proof.Machine.execWipeComplete s
  | .challengeExpiry => Sys2Proof.Machine.execChallengeExpiry s
  | .consentLapse => Sys2Proof.Machine.execConsentLapse s
  | .prtConsent m p nonce consent => Sys2Proof.Machine.execPrtConsent m p nonce consent s
  | .secAttgo m => Sys2Proof.Machine.execSecAttgo m s
  | .prtAttgo m p => Sys2Proof.Machine.execPrtAttgo m p s
  | .attestationReport f => Sys2Proof.Machine.execAttestationReport f s
  | .lossSummary => Sys2Proof.Machine.execLossSummary s
  | .suspectForward e => Sys2Proof.Machine.execSuspectForward e s
  | .suspectExpiry e => Sys2Proof.Machine.execSuspectExpiry e s
  | .fltTestreq m kind res => Sys2Proof.Machine.execFltTestreq m kind res s
  | .selfTestStart n => Sys2Proof.Machine.execSelfTestStart n s
  | .selfTestComplete n failmap detail arrays => Sys2Proof.Machine.execSelfTestComplete n failmap detail arrays s
  | .watchdogExpiry env => Sys2Proof.Machine.execWatchdogExpiry env s
  | .hubError block env => Sys2Proof.Machine.execHubError block env s
  | .functionLevelReset f => Sys2Proof.Machine.execFunctionLevelReset f s
  | .tktRingcfg f v => Sys2Proof.Machine.execTktRingcfg f v s
  | .msixMessage f v => Sys2Proof.Machine.execMsixMessage f v s
  | .readClear m off size => Sys2Proof.Machine.execReadClear m off size s
  | .registerWrite m off size v => Sys2Proof.Machine.execRegisterWrite m off size v s
  | .priorityFlowControl port prio pause => Sys2Proof.Machine.execPriorityFlowControl port prio pause s
  | .savetrimComplete => Sys2Proof.Machine.execSavetrimComplete s

end Sys2Proof.Machine
end

