-- ==== Sys2Proof/Safety.lean ====
section
/-! DEFINITION. What counts as a safe run, and the properties of a state that the statements use: canonical byte stores, legal modes. -/

namespace Sys2Proof.Machine

/-- The command completes: it answers a next state. -/
def Completes (i : Instr) (s : State) : Prop := ∃ t, exec i s = .next t

/-- A step that neither faults nor refuses. -/
def StepsOn (s : State) : Prop := ∃ t, step s = .next t

/-! ### Frames: what a step may have changed -/

/-- Nothing outside core c differs. -/
def OnlyCore (c : CoreId) (s t : State) : Prop := t = { s with cores := t.cores } ∧ ∀ d, d ≠ c → t.core d = s.core d

/-- Nothing outside partition p differs. -/
def OnlyPart (p : PartId) (s t : State) : Prop := t = { s with parts := t.parts } ∧ ∀ q, q ≠ p → t.part q = s.part q

/-- Nothing outside function f differs. -/
def OnlyFunc (f : FuncId) (s t : State) : Prop := t = { s with funcs := t.funcs } ∧ ∀ g, g ≠ f → t.func g = s.func g

/-- Nothing outside link port i differs. -/
def OnlyPort (i : PortId) (s t : State) : Prop := t = { s with ports := t.ports } ∧ ∀ j, j ≠ i → t.port j = s.port j

/-- Nothing outside core c and partition p differs. -/
def OnlyCorePart (c : CoreId) (p : PartId) (s t : State) : Prop :=
  t = { s with cores := t.cores, parts := t.parts } ∧ (∀ d, d ≠ c → t.core d = s.core d) ∧ ∀ q, q ≠ p → t.part q = s.part q

/-! ### The log -/

/-- The queue of records has room (R447). -/
def LogRoom (s : State) : Prop := s.flt.queue.length < 4096

/-- A record made now (R446). -/
def recordNow (s : State) (type prio eclass src part : Nat) (body : List Nat) : LogRec :=
  { tick := s.tick.now, phase := s.tick.phase, prio, eclass, type, src, part, body }

/-- The state with one more record at the end of the queue. -/
def logged (r : LogRec) (s : State) : State := updFlt (fun f => { f with queue := f.queue ++ [r] }) s

/-! ### The sequencer -/

/-- The sequencer of core c takes a parcel that does not end at the end of the program store (R243, R249). -/
def TakesParcel (c : CoreId) (s : State) : Prop := (s.core c).steps = true ∧ (s.core c).pc + 4 < pcEnd

/-- The parcel i gives s[rd] the value v, and the PC moves to the next parcel; nothing else differs. -/
def SetsReg (i : Instr) (c : CoreId) (rd : SReg) (v : W64) (s : State) : Prop :=
  exec i s = .next (updCore c (fun x => { x.setS rd v with pc := x.pc + 4 }) s)

/-- The parcel i gives p[pd] the value b, and the PC moves to the next parcel; nothing else differs. -/
def SetsPred (i : Instr) (c : CoreId) (pd : PReg) (b : Bool) (s : State) : Prop :=
  exec i s = .next (updCore c (fun x => { x.setP pd b with pc := x.pc + 4 }) s)

/-- The parcel i gives s[rd] a value that the spec does not state, and uses that value up. -/
def SetsFree (i : Instr) (c : CoreId) (rd : SReg) (s : State) : Prop :=
  exec i s = .next { updCore c (fun x => { x.setS rd (Config.free s.freeCtr) with pc := x.pc + 4 }) s with freeCtr := s.freeCtr + 1 }

/-- The parcel i moves the PC to a; nothing else differs. -/
def JumpsTo (i : Instr) (c : CoreId) (a : Nat) (s : State) : Prop := exec i s = .next (updCore c (fun x => { x with pc := a }) s)

/-- A partition with one of its rails changed (R227). -/
def withRail (k : Nat) (f : Rail → Rail) (x : Part) : Part := { x with rails := mapIf (fun r => r.idx == k) f x.rails }

/-- The core and the header of a tile instruction (R245). -/
def tileHeader (i : Instr) : Option (CoreId × TileHdr) :=
  match i with
  | .mm c h _ => some (c, h)
  | .cx c h _ _ => some (c, h)
  | .recipe c h _ => some (c, h)
  | .scan c h _ => some (c, h)
  | .perm c h _ => some (c, h)
  | .norm c h _ => some (c, h)
  | .reduce c h _ => some (c, h)
  | .smerge c h _ => some (c, h)
  | .park c h _ => some (c, h)
  | .restore c h _ => some (c, h)
  | .rload c h _ => some (c, h)
  | .tload c h _ => some (c, h)
  | .arm c h _ _ _ => some (c, h)
  | .fill c h _ => some (c, h)
  | .put c h _ => some (c, h)
  | .take c h _ => some (c, h)
  | .return_ c h _ => some (c, h)
  | .free c h _ => some (c, h)
  | .bl c h _ => some (c, h)
  | _ => none

/-- Core c takes a tile instruction: it may try, nothing in the header holds it back, and a line follows (R246, R249). -/
def TakesLine (c : CoreId) (h : TileHdr) (s : State) : Prop :=
  (s.core c).tries = true ∧ predHolds (s.core c) h = true ∧ landingReached (s.core c) h = true
  ∧ earliestReached s c h.ckpt.toNat = true ∧ (s.core c).pc + 16 < pcEnd

/-! ### Masters -/

/-- The master m holds owner rights and its access reaches the block (R373). -/
def OwnerActs (m : Master) (s : State) : Prop := arrives s m = true ∧ isOwner s m = true

/-- The master of a command that only the owner gives, and the register that it goes through (R373). -/
def ownerCommand (i : Instr) : Option (Master × Nat) :=
  match i with
  | .portTrain m port => some (m, lnkTrain port)
  | .memReload m k _ _ => some (m, 0xA0200 + 8 * k.toNat)
  | .memFreload m k _ _ => some (m, 0xA0400 + 8 * k.toNat)
  | .tikNext m _ => some (m, tikNext)
  | .tikPeriod m _ => some (m, tikPeriod)
  | .budgetWrite m p k _ => some (m, prtOff p (0x80 + 8 * k.1))
  | .load m p _ => some (m, prtOff p 8)
  | .start m p => some (m, prtOff p 8)
  | .drain m p => some (m, prtOff p 8)
  | .reset m p => some (m, prtOff p 8)
  | .unload m p => some (m, prtOff p 8)
  | .ownRenew m _ => some (m, 0x10020)
  | .ownRelease m _ => some (m, 0x10028)
  | .fullLoad m _ => some (m, imgCtrl)
  | .writeSlotA m _ => some (m, imgCtrl)
  | .writeSlotB m _ => some (m, imgCtrl)
  | .setBootSlot m _ => some (m, imgCtrl)
  | .savetrim m => some (m, imgCtrl)
  | .writeGradeCertificate m _ => some (m, imgCtrl)
  | .coldStart m _ => m.map (fun m => (m, fltStart))
  | .warmStart m _ => m.map (fun m => (m, fltStart))
  | .reqStandby m => some (m, pwrCtrl)
  | .reqOff m => some (m, pwrCtrl)
  | .reqWake m _ => some (m, pwrCtrl)
  | .provision m _ _ => some (m, secMbgo)
  | .rotate m _ _ => some (m, secMbgo)
  | .lockdown m _ => some (m, secMbgo)
  | .secRelease m _ => some (m, secMbgo)
  | .deprovision m _ => some (m, secMbgo)
  | .debug0 m _ => some (m, secMbgo)
  | .debug1 m _ => some (m, secMbgo)
  | .debug2 m _ _ _ => some (m, secMbgo)
  | .challenge m _ => some (m, secMbgo)
  | .unlock m _ => some (m, secMbgo)
  | .fltTestreq m _ _ => some (m, fltTestreq)
  | _ => none

/-- The owner m's security command h passes its layout, its tick and, where it needs one, its signature (R424). -/
def SecCmdOk (m : Master) (h : SecHdr) (cmd len : Nat) (signed : Bool) (s : State) : Prop :=
  OwnerActs m s ∧ h.cmd.toNat = cmd ∧ h.rsv0 = true ∧ h.len.toNat = 16 + len + (if signed then 2420 else 0)
  ∧ within16 s.tick.now h.tick.toNat = true ∧ (signed = true → h.sigOk = true ∧ s.sec.pufOk = true)

/-- The layout that a security command must have: the master and the header that it carries, its CMD, its payload's length, and whether it is
signed (R424). -/
def secForm (i : Instr) : Option (Master × SecHdr × Nat × Nat × Bool) :=
  match i with
  | .provision m h k => some (m, h, 1, 1320 + 1316 * k.nkey.toNat, true)
  | .rotate m h k => some (m, h, 2, 1320 + 1316 * k.nkey.toNat, true)
  | .lockdown m h => some (m, h, 3, 0, false)
  | .secRelease m h => some (m, h, 4, 0, true)
  | .deprovision m h => some (m, h, 5, 0, true)
  | .debug0 m h => some (m, h, 0x10, 0, false)
  | .debug1 m h => some (m, h, 0x11, 0, false)
  | .debug2 m h _ _ => some (m, h, 0x12, 8, false)
  | .challenge m h => some (m, h, 0x13, 0, false)
  | .unlock m h => some (m, h, 0x14, 0, true)
  | _ => none

/-- The state lets the security command run (R424, R430, R433). -/
def secState (i : Instr) (s : State) : Prop :=
  match i with
  | .provision _ _ _ => s.sec.state = 0
  | .rotate _ _ _ => s.sec.state = 1
  | .lockdown _ _ => s.sec.state = 1 ∧ s.sec.d3 = false
  | .secRelease _ _ => s.sec.state = 2
  | .deprovision _ _ => s.sec.state = 1 ∨ s.sec.state = 2
  | .debug0 _ _ => s.sec.d3 = false
  | .debug1 _ _ => s.sec.d3 = false
  | .debug2 _ _ p _ => 64 ≤ p.toNat ∨ d2Allowed s (pid p.toNat) = true
  | .challenge _ _ => s.sec.state ≤ 1
  | .unlock _ _ => s.sec.state ≤ 1 ∧ s.sec.stateNext ≠ some 2
  | _ => True

/-- The further conditions of the security command hold (R424, R430-R434). -/
def secCond (i : Instr) (s : State) : Prop :=
  match i with
  | .provision _ _ k => s.mem.ecc = true ∧ keysOk k = true ∧ s.pwr.flashWp = false
  | .rotate _ _ k => keysOk k = true ∧ s.pwr.flashWp = false
  | .lockdown _ _ => s.pwr.flashWp = false
  | .secRelease _ _ => s.pwr.flashWp = false
  | .deprovision _ _ => allUnconfigured s = true ∧ s.pwr.flashWp = false ∧ s.sec.wipe = none
  | .debug2 _ _ p ok => p.toNat < 64 ∧ ok = true
  | .challenge _ _ => s.sec.barred = false
  | .unlock _ _ => (∃ v t, s.sec.chal = some (v, t) ∧ s.tick.now < t + 1024) ∧ s.pwr.dbgEn = true ∧ memOn s = true ∧ allUnconfigured s = true
    ∧ s.sec.wipe = none
  | _ => True

/-- What a loss of power leaves: the host's memory, flash and what AON holds; every other register is as at reset (R485, R486). -/
def PoweredOff (s t : State) : Prop :=
  t.pwr.state = .p4 ∧ t.pwr.pwrGood = false ∧ t.mem.near = [] ∧ t.mem.far = [] ∧ t.mem.host = s.mem.host
  ∧ t.img.slotA = s.img.slotA ∧ t.img.slotB = s.img.slotB ∧ t.img.boot = s.img.boot ∧ t.img.cert0 = s.img.cert0 ∧ t.img.cert1 = s.img.cert1
  ∧ t.sec.prov0 = s.sec.prov0 ∧ t.sec.prov1 = s.sec.prov1 ∧ t.own = State.reset.own ∧ t.tick = State.reset.tick
  ∧ (∀ c, t.core c = State.reset.core c) ∧ ∀ p, t.part p = State.reset.part p

/-! ### Products of a block (R61, R62) -/

/-- An element of the product is NaN. -/
def hasNan (x : Elem × Elem) : Prop := x.1 = .nan ∨ x.2 = .nan

/-- The product is Inf times 0. -/
def infTimesZero (x : Elem × Elem) : Prop :=
  (∃ s, x.1 = .inf s ∧ x.2 = .fin 0) ∨ ∃ s, x.1 = .fin 0 ∧ x.2 = .inf s

/-- The product is an infinity, negative where `neg`. -/
def infProduct (x : Elem × Elem) (neg : Bool) : Prop :=
  (∃ s t, x.1 = .inf s ∧ x.2 = .inf t ∧ (s != t) = neg)
  ∨ (∃ s v, x.1 = .inf s ∧ x.2 = .fin v ∧ v ≠ 0 ∧ (s != decide (v < 0)) = neg)
  ∨ ∃ s v, x.1 = .fin v ∧ x.2 = .inf s ∧ v ≠ 0 ∧ (s != decide (v < 0)) = neg

/-- The product of two finite elements, in units of 2 ^ -36. -/
def exactProduct (x : Elem × Elem) : Int := match x.1, x.2 with
  | .fin v, .fin u => v * u
  | _, _ => 0

/-! ### Byte stores -/

/-- Near, far and host memory are canonical (R328, R329). -/
abbrev MemOk (m : Mem) : Prop := Memory.wf m.near ∧ Memory.wf m.far ∧ Memory.wf m.host

/-- A core's program, descriptor and working stores are canonical (R20, R241). -/
abbrev CoreOk (x : Core) : Prop := Memory.wf x.ws ∧ Memory.wf x.pstore ∧ Memory.wf x.dstore ∧ Memory.wf x.dstoreImg

/-- Every byte store of the machine is canonical: the memories, the claim signature buffers, the mailbox, the cores' stores and the
exchange memories. -/
abbrev StoresOk (s : State) : Prop :=
  MemOk s.mem ∧ ((∀ k : Fin 3, Memory.wf (s.own.sigBuf[k])) ∧ Memory.wf s.sec.mbox)
  ∧ (∀ c, CoreOk (s.core c)) ∧ ∀ p, Memory.wf (s.part p).xmem

/-! ### Modes -/

/-- The security state and the debug levels held. -/
def modesOf (x : Sec) : Nat × Bool × Option Nat × Bool := (x.state, x.d1, x.d2, x.d3)

/-- The modes of R440: security, debug and power. -/
def State.modes (s : State) : (Nat × Bool × Option Nat × Bool) × PowState := (modesOf s.sec, s.pwr.state)

/-- The combinations that R440 allows: no debug level in P4, neither D2 nor D3 in P3, neither in S2; S0-S2 are the states. -/
def LegalModes (s : State) : Prop :=
  s.sec.state ≤ 2
  ∧ (s.pwr.state = .p4 → s.sec.d1 = false ∧ s.sec.d2 = none ∧ s.sec.d3 = false)
  ∧ (s.pwr.state = .p3 → s.sec.d2 = none ∧ s.sec.d3 = false)
  ∧ (s.sec.state = 2 → s.sec.d2 = none ∧ s.sec.d3 = false)

end Sys2Proof.Machine
end

