-- ==== Sys2Proof/Certificates/Slice0/Obligations.lean ====
section
/-! DEFINITION. The statements for the provers. Each one's docstring cites the rules of spec/ that it formalises, or says that it is the
model's own choice. -/

open Sys2Proof Sys2Proof.Machine

/-! ### The block -/

/-- A step takes the command at the front of the queue and runs it on the state with the queue's rest. The queue is the model's own form
(log 1, DESIGN CHOICE). -/
def Obligations.StepRunsFront : Prop :=
  ∀ (i : Instr) (r : List Instr) (s : State), step { s with pending := i :: r } = exec i { s with pending := r }

/-- An empty queue: one phase unit passes and nothing else changes. This is the model's choice (log 35, DESIGN CHOICE), no rule of the spec. -/
def Obligations.IdleStep : Prop :=
  ∀ s : State, s.pending = [] → ∃ t, step s = .next t ∧ t = { s with tick := t.tick } ∧ t.tick = { s.tick with phase := Nat.min 65535 (s.tick.phase + 1) }

/-- No command touches the commands that wait behind it. This is the model's form of a queue, no rule of the spec. (log 1, DESIGN CHOICE.) -/
def Obligations.QueueUntouched : Prop := ∀ (i : Instr) (s t : State), exec i s = .next t → t.pending = s.pending

/-- R440 (its cells N1-N3): a step from a legal combination of security state, debug level and power state leads to a legal one. -/
def Obligations.StepKeepsLegalModes : Prop := ∀ s t : State, LegalModes s → step s = .next t → LegalModes t

/-- Every byte store keeps its canonical form over every step. The stores' form is the model's; the bytes are those of R328, R217, R244 and
R279. -/
def Obligations.StepKeepsStores : Prop := ∀ s t : State, StoresOk s → step s = .next t → StoresOk t

/-- The machine right after reset is in a legal combination of R440, and its byte stores are canonical. -/
def Obligations.ResetInvariants : Prop := LegalModes State.reset ∧ StoresOk State.reset

/-! ### Scalar parcels (R241-R244, R249, R259) -/

/-- R241: s0 reads as 0 and p0 as 1, and writes to them are discarded; any other register reads as last written, and a write leaves
every other register alone. -/
def Obligations.RegisterFile : Prop :=
  (∀ (x : Core) (v : W64) (b : Bool), x.getS 0 = 0 ∧ x.getP 0 = true ∧ x.setS 0 v = x ∧ x.setP 0 b = x)
  ∧ (∀ (x : Core) (r q : SReg) (v : W64), r ≠ 0 → (x.setS r v).getS q = if q = r then v else x.getS q)
  ∧ (∀ (x : Core) (r q : PReg) (b : Bool), r ≠ 0 → (x.setP r b).getP q = if q = r then b else x.getP q)
  ∧ ∀ (x : Core) (r q : HReg) (v : W64), (x.setH r v).getH q = if q = r then v else x.getH q

/-- R244: the two-source and immediate parcels, lui, nop and the handle moves. min and max are signed by the model's reading (log 14, DEDUCED).
The compares set a predicate; ceq compares for equality, clt and cle as signed numbers, cltu as unsigned ones. -/
def Obligations.ArithmeticParcels : Prop :=
  ∀ (c : CoreId) (s : State) (rd ra rb : SReg) (pd : PReg) (h : HReg) (i13 : BitVec 13) (i19 : BitVec 19), TakesParcel c s →
    let a := (s.core c).getS ra
    let b := (s.core c).getS rb
    SetsReg (.add c rd ra rb) c rd (a + b) s
    ∧ SetsReg (.sub c rd ra rb) c rd (a - b) s
    ∧ SetsReg (.mul c rd ra rb) c rd (a * b) s
    ∧ SetsReg (.and c rd ra rb) c rd (a &&& b) s
    ∧ SetsReg (.or c rd ra rb) c rd (a ||| b) s
    ∧ SetsReg (.xor c rd ra rb) c rd (a ^^^ b) s
    ∧ SetsReg (.min c rd ra rb) c rd (if a.toInt < b.toInt then a else b) s
    ∧ SetsReg (.max c rd ra rb) c rd (if a.toInt < b.toInt then b else a) s
    ∧ SetsReg (.addi c rd ra i13) c rd (a + i13.signExtend 64) s
    ∧ SetsReg (.ori c rd ra i13) c rd (a ||| i13.setWidth 64) s
    ∧ SetsReg (.lui c rd i19) c rd (BitVec.ofNat 64 (i19.toNat * 8192)) s
    ∧ SetsReg (.movHS c rd h) c rd ((s.core c).getH h) s
    ∧ exec (.movSH c h ra) s = .next (updCore c (fun x => { x.setH h a with pc := x.pc + 4 }) s)
    ∧ JumpsTo (.nop c) c ((s.core c).pc + 4) s
    ∧ SetsPred (.ceq c pd ra rb) c pd (decide (a = b)) s
    ∧ SetsPred (.clt c pd ra rb) c pd (decide (a.toInt < b.toInt)) s
    ∧ SetsPred (.cltu c pd ra rb) c pd (decide (a.toNat < b.toNat)) s
    ∧ SetsPred (.cle c pd ra rb) c pd (decide (a.toInt ≤ b.toInt)) s

/-- R244: the shifts. By less than 64 the result is the shifted value; for a shift of 64 or more the spec states no result, and the
register takes a free value (log 12, DESIGN CHOICE). -/
def Obligations.ShiftParcels : Prop :=
  ∀ (c : CoreId) (s : State) (rd ra rb : SReg) (imm : BitVec 13), TakesParcel c s →
    let a := (s.core c).getS ra
    let n := ((s.core c).getS rb).toNat
    (n < 64 →
      SetsReg (.shl c rd ra rb) c rd (BitVec.ofNat 64 (a.toNat * 2 ^ n)) s
      ∧ SetsReg (.shr c rd ra rb) c rd (BitVec.ofNat 64 (a.toNat / 2 ^ n)) s
      ∧ SetsReg (.sra c rd ra rb) c rd (BitVec.ofInt 64 (a.toInt / 2 ^ n)) s)
    ∧ (64 ≤ n → SetsFree (.shl c rd ra rb) c rd s ∧ SetsFree (.shr c rd ra rb) c rd s ∧ SetsFree (.sra c rd ra rb) c rd s)
    ∧ (imm.toNat < 64 → SetsReg (.shli c rd ra imm) c rd (BitVec.ofNat 64 (a.toNat * 2 ^ imm.toNat)) s)
    ∧ (64 ≤ imm.toNat → SetsFree (.shli c rd ra imm) c rd s)

/-- R243, R244: the branches. A target is a parcel's address or the start of a tile line; bp branches where its predicate holds and bnp
where it does not; call saves PC + 4 in s63, and ret branches there. That an operand is the absolute byte address is the model's reading
(log 135, DEDUCED), as are the checks of ret (log 15, DEDUCED). -/
def Obligations.BranchParcels : Prop :=
  ∀ (c : CoreId) (s : State) (pa : PReg) (target : BitVec 17), TakesParcel c s →
    let x := s.core c
    (targetOk x target.toNat = true →
      JumpsTo (.b c target) c target.toNat s
      ∧ JumpsTo (.bp c pa target) c (if x.getP pa then target.toNat else x.pc + 4) s
      ∧ JumpsTo (.bnp c pa target) c (if x.getP pa then x.pc + 4 else target.toNat) s
      ∧ exec (.call c target) s = .next (updCore c (fun x => { x.setS 63 (BitVec.ofNat 64 (x.pc + 4)) with pc := target.toNat }) s))
    ∧ (targetOk x (x.getS 63).toNat = true → (x.getS 63).toNat < pcEnd → JumpsTo (.ret c) c (x.getS 63).toNat s)

/-- R243, R249, R260, R446: a branch to an address that is neither a parcel nor the start of a tile line is an illegal instruction 0x01, and a PC
that reaches the end of the program store is an illegal instruction 0x0C. An illegal instruction writes the core's fault record (reason,
PC, task) and queues one log record of type 4 that names the reason, the core, the PC and the 16 bytes of its line; on a core that no
partition holds nothing else changes. -/
def Obligations.IllegalInstructions : Prop :=
  ∀ (c : CoreId) (target : BitVec 17) (reason pc : Nat) (s : State),
    ((s.core c).steps = true →
      (targetOk (s.core c) target.toNat = false → exec (.b c target) s = .next (illegal c 0x01 (s.core c).pc s))
      ∧ ((s.core c).pc + 4 = pcEnd → exec (.nop c) s = .next (illegal c 0x0C pcEnd (updCore c (fun x => { x with pc := pcEnd }) s))))
    ∧ (partOfCore s c.1 = none → LogRoom s →
      let line := (List.range 16).map (fun k => (progByte (s.core c) (pc / 16 * 16 + k)).toNat)
      illegal c reason pc s = logged (recordNow s 4 1 1 c.1 0xFFFF ([reason, 1, c.1, pc] ++ line))
        (updCore c (fun x => { x with faultRec := some { reason, pc, task := 0 } }) s))

/-- R244: ld.d reads, and st.d writes, 8 bytes of the descriptor store, least significant byte first, at s[ra] + 8 imm, which is a multiple
of 8 below 128 KiB; every byte outside those 8 is as before. -/
def Obligations.DescriptorStore : Prop :=
  ∀ (c : CoreId) (s : State) (rd ra rs : SReg) (imm : BitVec 13), TakesParcel c s →
    let o := ((s.core c).getS ra + imm.signExtend 64 * 8).toNat
    o % 8 = 0 → o + 8 ≤ 0x20000 →
      SetsReg (.ldD c rd ra imm) c rd (BitVec.ofNat 64 (leNat ((List.range 8).map (fun k => rd8 (s.core c).dstore (o + k))))) s
      ∧ ∃ t, exec (.stD c rs ra imm) s = .next t ∧ OnlyCore c s t
        ∧ t.core c = { s.core c with pc := (s.core c).pc + 4, dstore := (t.core c).dstore }
        ∧ (Memory.wf (s.core c).dstore → ∀ a, rd8 (t.core c).dstore a =
            if o ≤ a ∧ a < o + 8 then (((s.core c).getS rs).extractLsb' (8 * (a - o)) 8) else rd8 (s.core c).dstore a)

/-- R244, R249, R259: csrr gives a status register's value to s[rd] and clears the sticky status that it read; CYCLE counts the clocks
of the core's tile since the task started, where it lies within the phase unit being a free value, and for an index outside the table the
register takes a free value (log 13, DESIGN CHOICE). twait lets the core go on once the queues that it names are empty; end,
once every queue is empty and every transfer done, ends the program, and the core issues nothing more. A wait leaves the PC and is noted in
`hold` (log 55, DEDUCED). -/
def Obligations.StatusAndWaits : Prop :=
  ∀ (c : CoreId) (s : State) (rd : SReg) (idx : BitVec 13) (mask : BitVec 5),
    (TakesParcel c s →
      (∀ v f, csr s c idx.toNat = (some v, f) →
        exec (.csrr c rd idx) s = .next (updCore c (fun x => { (f x).setS rd (BitVec.ofNat 64 v) with pc := x.pc + 4 }) s))
      ∧ (∀ p k, partOfCore s c.1 = some p → (s.part p).task = some k →
        let tile : Fin 4 := Fin.ofNat 4 (c.1 / 32)
        let mhz := 1200 + 100 * s.pwr.run[tile]
        let units := (s.pwr.cyc[tile] - k.cyc0.getD tile.1 0) * 65536 + mhz * s.tick.phase
        ∃ v, exec (.csrr c rd 0) s = .next { updCore c (fun x => { x.setS rd (BitVec.ofNat 64 v) with pc := x.pc + 4 }) s with
            freeCtr := s.freeCtr + 1 }
          ∧ units * s.tick.period / 65536000 ≤ v ∧ v < units * s.tick.period / 65536000 + mhz * s.tick.period / 65536000 + 2)
      ∧ (∀ f, idx ≠ 0 → csr s c idx.toNat = (none, f) → SetsFree (.csrr c rd idx) c rd s)
      ∧ (csr s c 0x0C).1 = some (s.core c).ve.sticky.toNat
      ∧ ((csr s c 0x0C).2 (s.core c)).ve.sticky = 0
      ∧ (maskIdle (s.core c) mask = true → JumpsTo (.twait c mask) c ((s.core c).pc + 4) s))
    ∧ ((s.core c).steps = true →
      (maskIdle (s.core c) mask = false → exec (.twait c mask) s = .next (updCore c (fun x => { x with hold := .twait }) s))
      ∧ (endReady (s.core c) = true → exec (.end_ c) s = .next (updCore c (fun x => { x with running := false, ended := true, hold := .none }) s))
      ∧ (endReady (s.core c) = false → exec (.end_ c) s = .next (updCore c (fun x => { x with hold := .ending }) s)))

/-! ### Tile instructions (R245-R258) -/

/-- R260: a tile line that the loader's static checks refuse is in no program, so it stops by name; every other command, in every state,
completes: it answers a next state, which keeps the queue, a legal combination of modes (R440) and canonical stores. -/
def Obligations.IllFormedLinesStop : Prop :=
  ∀ (i : Instr) (s : State), (i.wellFormed = false ↔ ∃ n, exec i s = .fault (.staticallyIllegal n))
    ∧ (i.wellFormed = true → ∃ t, exec i s = .next t ∧ t.pending = s.pending ∧ (LegalModes s → LegalModes t) ∧ (StoresOk s → StoresOk t))

/-- R246: a tile instruction whose predicate does not hold counts its checkpoint as met and is passed over: the PC moves to the next line,
and nothing else is done. Stated of MM, CX, the VX instructions, ARM, FILL, the four TR instructions and BL. -/
def Obligations.PredicatedOff : Prop :=
  ∀ (i : Instr) (c : CoreId) (h : TileHdr) (s : State), i.wellFormed = true → tileHeader i = some (c, h) → (s.core c).tries = true →
    predHolds (s.core c) h = false → exec i s = .next (nextLine c (meetCkptOf c h.ckpt.toNat s))

/-- R80, R176, R246, R247, R251-R253, R283: an MM or CX that nothing holds back is issued with the descriptors it named, and the PC moves on;
the CX opens its exchange first. Outside a sweep it enters the queue of its engine; in one, a score tile or a PV enters the queue too, and
the sweep moves on, unless every row of its tile is masked. The queue entry holds the descriptors' values at issue. An MM that
names no chain and no lengths table changes nothing else but that the walk snapshot of its engine's scoop unit counts as used (R200). -/
def Obligations.MatrixIssue : Prop :=
  ∀ (c : CoreId) (h : TileHdr) (b : MMBody) (xd : BitVec 9) (s : State), TakesLine c h s →
    ((s.core c).eng[b.eng]).queue.length < 8 → mmReject s c b = none →
    let s1 := (takeId c s).2
    let e (k : Option Nat) := mmEntry s1 c h b k (epiOf (s.core c) b) (s.core c).issued
    let g := (s.core c).eng[b.eng]
    (∀ k, k = none ∨ k = some xd.toNat → ((e k).body.score && namesTable (e k)) = false → (e k).pv = false →
        admitMM c (e k) s1 = enqueueMM c (e k) s1)
    ∧ (∀ k, k = none ∨ k = some xd.toNat → ((e k).body.score && namesTable (e k)) = true → whollyMasked (e k) = false →
        admitMM c (e k) s1 = enqueueMM c (e k) (updEngine c b.eng (afterScore s1 c (tableOf s1 c (e k)) (e k) false) s1))
    ∧ (∀ k, k = none ∨ k = some xd.toNat → (e k).pv = true → b.score = false → (e k).skipped = false →
        admitMM c (e k) s1 = enqueueMM c (e k) (updEngine c b.eng (afterPV (e k)) s1))
    ∧ (MMBody.wellFormed b = true → (namesTable (e none) = true → segsAscend (tableOf s1 c (e none)) = true) →
        exec (.mm c h b) s = .next (nextLine c (admitMM c (e none) s1)))
    ∧ (MMBody.wellFormed b = true → b.sch = 0 → sLen ((s.core c).getS b.sx).toNat = false →
      ∃ t, exec (.mm c h b) s = .next t ∧ OnlyCore c s t
        ∧ t.core c = { s.core c with
            pc := (s.core c).pc + 16, hold := .none, issued := (s.core c).issued + 1, eng := (t.core c).eng, su := ((useSnap c b.eng s).core c).su }
        ∧ (∀ k : Fin 4, k ≠ b.eng → (t.core c).eng[k] = (s.core c).eng[k])
        ∧ ((t.core c).eng[b.eng]).queue = g.queue ++ [e none])
    ∧ (MMBody.wellFormed b = true → (namesTable (e (some xd.toNat)) = true → segsAscend (tableOf s1 c (e (some xd.toNat))) = true) →
      groupUsable c xd.toNat s1 = true → exec (.cx c h b xd) s = .next (nextLine c (admitMM c (e (some xd.toNat)) (openExchange c xd.toNat s1))))
    ∧ (e none).body = b ∧ (e none).rowD = (s.core c).getS b.sa ∧ (e none).wD = (s.core c).getS b.sw ∧ (e none).sideD = (s.core c).getS b.sx
    ∧ (e none).pc = (s.core c).pc ∧ (e none).ckpt = h.ckpt.toNat

/-- R246, R247, R254: a VX that nothing holds back, and whose stream descriptor lies in the descriptor store, enters the VE queue, the PC
moves on, and the engine starts what it can (`vePump`). A BIND takes the engine's waiting MM or CX with it; only RECIPE may bind. A PARK takes
its engine's sweep along, and a RESTORE brings one back. -/
def Obligations.VectorIssue : Prop :=
  ∀ (c : CoreId) (h : TileHdr) (b : VXBody) (s : State), TakesLine c h s → (s.core c).ve.queue.length < 8 →
    let x := s.core c
    let e (op : VOp) : VXEntry := { vxEntry op x h b x.issued with empty := parksEmpty (vxEntry op x h b x.issued) x }
    let queued (op : VOp) : State :=
      updCore c (fun y => { moveSweep (e op) y with pc := y.pc + 16, hold := .none, issued := y.issued + 1
                                                    ve := { y.ve with queue := y.ve.queue ++ [e op] } }) s
    (b.bind = false → ((s.core c).getS b.sd).toNat + 48 ≤ 0x20000 →
      ((Instr.recipe c h b).wellFormed = true → exec (.recipe c h b) s = .next (vePump c 8 (queued .recipe)))
      ∧ ((Instr.scan c h b).wellFormed = true → exec (.scan c h b) s = .next (vePump c 8 (queued .scan)))
      ∧ ((Instr.perm c h b).wellFormed = true → exec (.perm c h b) s = .next (vePump c 8 (queued .perm)))
      ∧ ((Instr.norm c h b).wellFormed = true → exec (.norm c h b) s = .next (vePump c 8 (queued .norm)))
      ∧ ((Instr.reduce c h b).wellFormed = true → exec (.reduce c h b) s = .next (vePump c 8 (queued .reduce)))
      ∧ ((Instr.smerge c h b).wellFormed = true → exec (.smerge c h b) s = .next (vePump c 8 (queued .smerge)))
      ∧ ((Instr.park c h b).wellFormed = true → exec (.park c h b) s = .next (vePump c 8 (queued .park)))
      ∧ ((Instr.restore c h b).wellFormed = true → exec (.restore c h b) s = .next (vePump c 8 (queued .restore)))
      ∧ ((Instr.rload c h b).wellFormed = true → exec (.rload c h b) s = .next (vePump c 8 (queued .rload)))
      ∧ ((Instr.tload c h b).wellFormed = true → exec (.tload c h b) s = .next (vePump c 8 (queued .tload))))
    ∧ (b.bind = true → ((s.core c).eng[b.beng]).skipVX = false → ((s.core c).eng[b.beng]).toBind.isSome = true → (Instr.recipe c h b).wellFormed = true →
      exec (.recipe c h b) s = .next (vePump c 8 (updEngine c b.beng (fun g => { g with toBind := none }) (queued .recipe))))

/-- R247, R254: a VX behind a fill point that has not run does not start: with the VE queue empty and such a fill point in the SC queue, the
VX stays queued, and nothing outside the core changes. -/
def Obligations.FencedVectorWaits : Prop :=
  ∀ (c : CoreId) (h : TileHdr) (b : VXBody) (s : State), TakesLine c h s → (s.core c).ve.queue = [] →
    b.bind = false → ((s.core c).getS b.sd).toNat + 48 ≤ 0x20000 → (Instr.recipe c h b).wellFormed = true →
    (∃ f ∈ (s.core c).scq, f.arm = none ∧ f.ran = false ∧ f.id < (s.core c).issued) →
    ∃ t, exec (.recipe c h b) s = .next t ∧ OnlyCore c s t
      ∧ (t.core c).ve.queue = [vxEntry .recipe (s.core c) h b (s.core c).issued] ∧ (t.core c).pc = (s.core c).pc + 16

/-- R223, R247, R256: an ARM that nothing holds back enters the SC queue with its scoop descriptor and the overrides it names, and one
behind another that has not run waits there; a FILL enters with the five landing counts it names. -/
def Obligations.ScoopIssue : Prop :=
  ∀ (c : CoreId) (h : TileHdr) (u : BitVec 3) (doff : W16) (sovr sf : SReg) (s : State), TakesLine c h s → (s.core c).scq.length < 8 →
    let x := s.core c
    let run : ScoopRun := { bytes := scBytes x.dstore (doff.toNat * 16)
                            ovr := if sovr = 0 then none else some (x.getS sovr, x.getS (Fin.ofNat 64 (sovr.1 + 1))) }
    let put (e : SCEntry) : State :=
      updCore c (fun x => { x with pc := x.pc + 16, hold := .none, issued := x.issued + 1, scq := x.scq ++ [e] }) s
    ((Instr.arm c h u doff sovr).wellFormed = true → doff.toNat * 16 + (scBytes x.dstore (doff.toNat * 16)).length ≤ 0x20000 →
      let e : SCEntry := { id := x.issued, ckpt := h.ckpt.toNat, pc := x.pc, arm := some (u.toNat, run) }
      exec (.arm c h u doff sovr) s = .next (scqPump c (put e))
      ∧ ((∃ f r, x.scq = f :: r ∧ (f.ran = true ∨ f.arm = none)) → scqPump c (put e) = put e))
    ∧ ((Instr.fill c h sf).wellFormed = true →
      exec (.fill c h sf) s = .next (put { id := x.issued, ckpt := h.ckpt.toNat, pc := x.pc
                                           fill := (List.range 5).map (fun j => (x.getS (Fin.ofNat 64 (sf.1 + j))).setWidth 32) }))

/-- R227, R228, R257: on a partition whose TR queues are empty, PUT appends its handle, with the rail's next SEQ and its flags, to the
rail; TAKE gives the oldest takeable handle to its h register; RETURN appends the handle that it names to the return rail; FREE gives the
oldest returned handle. Each is in the TR queue as done, and nothing outside the core and the partition's rail changes. -/
def Obligations.RailInstructions : Prop :=
  ∀ (c : CoreId) (p : PartId) (h : TileHdr) (b : TRBody) (r : Rail) (s : State), TakesLine c h s → partOfCore s c.1 = some p →
    (∀ d, (s.core d).trq = []) → railOf (s.part p) b.rail.toNat = some r →
    let line (op : TOp) (x : Core) : Core :=
      { x with pc := x.pc + 16, hold := .none, trq := [{ ckpt := h.ckpt.toNat, pc := x.pc, op, body := b, ran := true }] }
    let v := (s.core c).getH b.h
    (r.producer = c.1 → r.fwd.length < 16 →
      let g := withSeq ((v &&& 0xFFFFFFFFFFFFFFF0) ||| (if b.last then 8 else 0) ||| (if b.empty then 4 else 0)) r.seq
      ∃ t, exec (.put c h b) s = .next t ∧ OnlyCorePart c p s t ∧ t.core c = line .put (s.core c)
        ∧ t.part p = withRail b.rail.toNat (fun q => { q with
            fwd := q.fwd ++ [g], seq := (q.seq + 1) % 65536
            ready := q.ready ++ [b.empty || r.producer == r.consumer || !trayInFlight s p r.producer (s.part p).meshSent g]
            upto := q.upto ++ [(s.part p).meshSent] }) (s.part p))
    ∧ (∀ g gs rs, r.consumer = c.1 → r.fwd = g :: gs → r.ready = true :: rs → hSeq g = (r.lastSeq + 1) % 65536 → hCore g = r.consumer →
      ∃ t, exec (.take c h b) s = .next t ∧ OnlyCorePart c p s t ∧ t.core c = (line .take (s.core c)).setH b.h g
        ∧ t.part p = withRail b.rail.toNat (fun q => { q with fwd := gs, ready := rs, upto := q.upto.tail, lastSeq := hSeq g }) (s.part p))
    ∧ (r.consumer = c.1 → r.back.length < 16 →
      ∃ t, exec (.return_ c h b) s = .next t ∧ OnlyCorePart c p s t ∧ t.core c = line .ret (s.core c)
        ∧ t.part p = withRail b.rail.toNat (fun q => { q with back := q.back ++ [withSeq v r.backNext], backNext := (q.backNext + 1) % 65536 }) (s.part p))
    ∧ (∀ g gs, r.producer = c.1 → r.back = g :: gs → hSeq g = (r.backSeq + 1) % 65536 → hCore g = r.consumer →
      ∃ t, exec (.free c h b) s = .next t ∧ OnlyCorePart c p s t ∧ t.core c = (line .free (s.core c)).setH b.h g
        ∧ t.part p = withRail b.rail.toNat (fun q => { q with back := gs, backSeq := hSeq g }) (s.part p))

/-! ### Completion and streams (R67, R219-R239, R248) -/

/-- R248: TILE_COMPLETE takes a done instruction from the front of its queue. Of an instruction without a checkpoint, with its class not
traced, on a core whose VE holds no instruction that waits, a CX once its sends are with the network interface: its sticky status is kept, the
other queues and everything outside the core are as before. A VX's completion uses up a free value (log 161, DESIGN CHOICE). -/
def Obligations.QueueCompletion : Prop :=
  ∀ (c : CoreId) (s : State), (∀ k, s.flt.trcClass.getLsbD k = false) → (∀ v ∈ (s.core c).ve.queue, v.flags.isSome) →
    (∀ (k : Fin 4) (e : MMEntry) (r : List MMEntry), ((s.core c).eng[k]).queue = e :: r → e.done = true → handedOver s c e = true →
        e.ckpt = 0 → e.sat = false → e.wenc = 0 →
      exec (.tileComplete c (.me k)) s = .next (updEngine c k (fun g => { g with queue := r, sticky := orStatus g.sticky e.status }) s))
    ∧ (∀ (e : VXEntry) (r : List VXEntry) (f : VF), (s.core c).ve.queue = e :: r → e.flags = some f → e.ckpt = 0 → e.op ≠ .tload →
      exec (.tileComplete c .ve) s = .next { updCore c (fun x => { x with ve := { x.ve with queue := r, sticky := x.ve.sticky ||| f } }) s with
          freeCtr := s.freeCtr + 1 })
    ∧ (∀ (e : SCEntry), (s.core c).scq = [e] → e.ran = true → e.ckpt = 0 →
      exec (.tileComplete c .scq) s = .next (updCore c (fun x => { x with scq := [] }) s))
    ∧ (∀ (e : TREntry), (s.core c).trq = [e] → e.ran = true → e.ckpt = 0 → (∀ d, d ≠ c → (s.core d).trq = []) →
      exec (.tileComplete c .trq) s = .next (updCore c (fun x => { x with trq := [] }) s))

/-- R20, R217-R224, R226, R231, R344: the next transfer of a unit that sends or reads: rows of zeros land at once; a read or a write that its range,
its bucket, its budgets and its port's upkeep window allow takes a landing slot and is counted as issued. A read's bytes reach its slot (R224), in
order, those of another core once a fill phase of that core has read them; an acknowledged write is stored in near or exchange memory, or has
reached the other core through the mesh, and counts as landed. An upkeep window of the port, or the packet's wait in the mesh, holds the landing. -/
def Obligations.ScoopTransfers : Prop :=
  ∀ (c : CoreId) (u : UnitId) (p : PartId) (cfg : PCfg) (r : ScoopRun) (s : State), cfgOf s c = some (p, cfg) → (scoopOf s c u).active = some r →
    (∀ g, r.issued < r.total → (scoopOf s c u).landing.length < 6 → (scOut r.bytes = true ∨ scFlags r.bytes = 0) → xferAt (s.core c).ws r r.issued = some g → g.bad = false →
      (g.zero = true → exec (.scoopTransferIssue c u) s
        = .next (rotateUnit c u (takeSlot c u { dst := g.x.ws, len := g.x.len, data := List.replicate g.x.len 0, landed := true } s)))
      ∧ (g.zero = false → farOk s p cfg r.bytes g.x.far g.x.len = true → windowHolds s (xferSpace r.bytes g.x.far) g.x.far g.x.len = false →
        (charge p (xferCost s r.bytes g.x.far g.x.len) s).1 = true →
        let charged := (charge p (xferCost s r.bytes g.x.far g.x.len) s).2
        let k := scGroup r.bytes
        let level := ((s.part p).simmer[k]).level
        let landing : Landing :=
          if scOut r.bytes then { out := true, src := g.x.ws, dst := g.x.far, len := g.x.len, mcid := scMcid r.bytes, block := xferSpace r.bytes g.x.far }
          else { src := g.x.far, dst := g.x.ws, len := g.x.len, block := xferSpace r.bytes g.x.far }
        (throttled r.bytes = false → exec (.scoopTransferIssue c u) s = .next (takeSlot c u landing charged))
        ∧ (throttled r.bytes = true → earlierWaits s p c u k = false → g.x.len / 64 ≤ level →
          exec (.scoopTransferIssue c u) s = .next (takeSlot c u landing (updPart p (fun x => { x with
            simmer := x.simmer.set k.1 { x.simmer[k] with level := level - g.x.len / 64 } k.2 }) charged)))))
    ∧ (∀ l a, (scoopOf s c u).landing.find? awaits = some l → windowHolds s l.block (if l.out then l.dst else l.src) l.len = true ∨ inMesh s c l = true →
      exec (.transferLanded c u a) s = .next s)
    ∧ (∀ l, (scoopOf s c u).landing.find? awaits = some l → windowHolds s l.block (if l.out then l.dst else l.src) l.len = false → inMesh s c l = false →
      (l.out = false → l.block = 2 →
        (l.fetched = true → exec (.transferLanded c u .ok) s
          = .next (unitMoved c u (updScoop c u (fun su => { su with landing := mapFirst awaits (fun q => { q with data := l.data, landed := true }) su.landing }) s)))
        ∧ (l.fetched = false → exec (.transferLanded c u .ok) s = .next s))
      ∧ (l.out = false → l.block = 3 → exec (.transferLanded c u .ok) s
        = .next (unitMoved c u (updScoop c u (fun su => { su with landing := mapFirst awaits (fun q => { q with data := rdBytes (s.part p).xmem l.src l.len, landed := true }) su.landing }) s)))
      ∧ (l.out = false → l.block ≤ 1 → failedLine s l.src l.len = none → exec (.transferLanded c u .ok) s
        = .next (unitMoved c u (updScoop c u (fun su => { su with landing := mapFirst awaits (fun q => { q with data := tierRead s l.src l.len, landed := true }) su.landing }) s)))
      ∧ (l.out = true → l.block = 3 → exec (.transferLanded c u .ok) s
        = .next (unitMoved c u (updScoop c u (fun su => { su with landing := su.landing.eraseP awaits, landed := (su.landed + 1) % 2 ^ 32 })
            (updPart p (fun x => { x with xmem := wrBytes x.xmem l.dst l.data }) s))))
      ∧ (l.out = true → l.block = 2 → exec (.transferLanded c u .ok) s
        = .next (unitMoved c u (updScoop c u (fun su => { su with landing := su.landing.eraseP awaits, landed := (su.landed + 1) % 2 ^ 32 }) s)))
      ∧ (l.out = true → l.block = 0 → exec (.transferLanded c u .ok) s
        = .next (unitMoved c u (updScoop c u (fun su => { su with landing := su.landing.eraseP awaits, landed := (su.landed + 1) % 2 ^ 32 })
            (tierWrite l.dst l.data s)))))

/-- R225, R228, R231: a refill adds RATE to every bucket of the partition, up to DEPTH, and changes nothing else. The fill point at the front
of the SC queue drains the five units in order (`fillWork`), and once the landing counts that it names are reached it has run; handles whose
trays it wrote become takeable, and VX that waited for the store may launch. -/
def Obligations.SimmerAndFillPhases : Prop :=
  (∀ (p : PartId) (s : State), ∃ t, exec (.simmerRefill p) s = .next t ∧ OnlyPart p s t ∧ t.part p = { s.part p with simmer := (t.part p).simmer }
    ∧ ∀ k : Fin 8, (t.part p).simmer[k] = { (s.part p).simmer[k] with
        level := if (s.part p).simmer[k].level + (s.part p).simmer[k].rate ≤ (s.part p).simmer[k].depth
          then (s.part p).simmer[k].level + (s.part p).simmer[k].rate else (s.part p).simmer[k].depth })
  ∧ ∀ (c : CoreId) (p : PartId) (e : SCEntry) (r : List SCEntry) (s : State), (s.core c).scq = e :: r → e.arm = none → e.ran = false →
    beforeDone (s.core c) e.id = true →
    let drained := fillWork c s
    partOfCore drained c.1 = some p → (drained.core c).scq ≠ [] →
      let ended : State := railPump p (meshPump p (readyRails p c (updCore c (fun x => { x with scq := { e with ran := true } :: r }) drained)))
      (countsReached (drained.core c) e.fill = true → exec (.fillPhase c) s = .next (forAll (coresOf drained p) (fun d => vePump d 8) ended))
      ∧ (countsReached (drained.core c) e.fill = false → exec (.fillPhase c) s = .next (meshPump p drained))

/-- R18, R233, R234: a block of a multicast, the first of its stream or a later one, enters the mesh once for every receiver where none holds
it back, and its checkpoint, if it has one, is met; where a receiver holds block b past its latest send phase, the task is aborted with 0x23
and the report names the receiver's core and unit. -/
def Obligations.Multicast : Prop :=
  ∀ (p : PartId) (mcid : W64) (data : List Byte) (t : Task) (s : State), (s.part p).task = some t → t.live = true →
    let m := (streamOf (s.part p) mcid).getD { mcid, recv := destsOf s p mcid, acked := (destsOf s p mcid).map (fun _ => 0) }
    let sent : State := updPart p (fun x => { x with mcast := { m with sent := m.sent + 1 } :: x.mcast.filter (fun z => z.mcid != mcid) }) s
    let packets : List Packet := m.recv.map (fun r => { dst := r.1, mc := true, mcid, block := m.sent, data })
    (data ≠ [] → data.length ≤ 16384 → m.recv ≠ [] → holders m m.sent = [] → (∀ q ∈ m.recv, coreReachable s p q.1 = true) →
      (blockCkpt (s.part p) t mcid m.sent = none → exec (.multicastBlockSend p mcid data) s = .next (toMesh p packets sent))
      ∧ ∀ k, blockCkpt (s.part p) t mcid m.sent = some k →
        exec (.multicastBlockSend p mcid data) s = .next (toMesh p packets (meetCkpt p k.idx sent)))
    ∧ (∀ m k q, streamOf (s.part p) mcid = some m → blockCkpt (s.part p) t mcid m.sent = some k → k.latest < taskPhase s t → holders m m.sent = [q] →
      let u := ((streamUnit s mcid (cid q.1)).map (·.1)).getD q.2
      exec (.multicastLagAbort p mcid) s
        = .next (abortTask p { code := 0x23, src := q.1, unit := u, ckpt := k.idx, held := [(q.1, u)] } false s))

/-- R235, R236, R258: BL stops the core at its bell, whose mark and checkpoint it names, and changes nothing else. The bell rings once every
core of the partition has arrived and none is held by its earliest phase; every core then goes on at its next line, its checkpoint met. -/
def Obligations.BellRings : Prop :=
  (∀ (c : CoreId) (h : TileHdr) (mark : W16) (s : State), TakesLine c h s →
    exec (.bl c h mark) s = .next (updCore c (fun x => { x with hold := .bell mark.toNat h.ckpt.toNat }) s))
  ∧ ∀ (p : PartId) (s : State), coresOf s p ≠ [] →
    (∀ c ∈ coresOf s p, (s.core c).running = true ∧ atBell (s.core c) = true ∧ earliestReached s c (bellMark (s.core c)).2 = true) →
    exec (.bellRelease p) s = .next (forAll (coresOf s p) (fun c s =>
      nextLine c (meetCkpt p (bellMark (s.core c)).2 (trace 0 p.1 [(bellMark (s.core c)).1, c.1, s.tick.now, s.tick.phase] s))) s)

/-- R234, R238, R293, R294, R324, R444: a checkpoint not met by its latest phase aborts its task with 0x21, and the report names it, its core
and its scoop unit, unless a receiver holds its multicast block; a step, or a checkpoint that waits on one, aborts it with 0x24 131,072 phase
units later. When the window of an abort closes, the highest cause of the window is counted and recorded, the requests of the task fail or
wait again by it, and the partition runs no task. -/
def Obligations.LateWork : Prop :=
  ∀ (p : PartId) (n : BitVec 15) (t : Task) (s : State), (s.part p).task = some t →
    (∀ k, ckptOf (s.part p) t n.toNat = some k → t.live = true → t.met.contains k.idx = false →
      (k.kind ≠ 6 → k.onStep = false → blockHeld (s.part p) k = false → k.latest < taskPhase s t →
        exec (.lateData p n) s = .next (abortTask p { code := 0x21, src := k.core, unit := k.unit, ckpt := k.idx } false s))
      ∧ (k.kind ≠ 6 → k.onStep = true → k.latest + 131072 < taskPhase s t →
        exec (.collectiveDeadline p n) s = .next (abortTask p { code := 0x24, src := 0xFFFF } false s))
      ∧ (k.kind = 6 → stepComplete (s.part p) k.aux k.step = false → groupOfGid (s.part p) k.aux = none → k.latest + 131072 < taskPhase s t →
        exec (.collectiveDeadline p n) s = .next (abortTask p { code := 0x24, src := 0xFFFF } false s))
      ∧ ∀ g, k.kind = 6 → stepComplete (s.part p) k.aux k.step = false → groupOfGid (s.part p) k.aux = some g → k.latest + 131072 < taskPhase s t →
        (∀ i ∈ stepPorts (s.part p) g k.step, stepLanded g k.step i = true ∨ starvedBy s g i.1 = none) →
        exec (.collectiveDeadline p n) s = .next (abortTask p { code := 0x24, src := 0xFFFF } false s))
    ∧ ∀ w, t.window = some w →
      let code := (topCause w.causes).code
      exec (.abortWindowClose p) s = .next (trace 4 p.1 [6, t.num, code.toNat] (releaseDue p (failRequests p t code w.causes w.uncounted
        (updPart p (fun x => { x with task := none, lastAbort := w.causes }) (countAbort p code (abortRecord p t code w s))))))

/-! ### Links (R266-R302) -/

/-- R270, R271: a link that is up refuses a damaged flit, whose NAK names the last good one; takes the acknowledgement and the credits of a
control flit; and takes a good flit that is the next in sequence, acknowledging it. That a NAK answers the first bad flit of a run alone is
the model's reading (log 69, DEDUCED). -/
def Obligations.FlitsReceived : Prop :=
  ∀ (port : PortId) (fl : Flit) (s : State), isLink (s.port port) = true → (s.port port).state = .up →
    (flitGood fl = false → exec (.flitReceive port fl) s = .next (emit (.nak port.1 (lastGood (s.port port)))
      (updPort port (fun x => { x with seeking := true, naks := satAdd 64 x.naks 1 }) s)))
    ∧ (flitGood fl = true → fl.cls = 3 → exec (.flitReceive port fl) s = .next (takeAck port fl s))
    ∧ (flitGood fl = true → fl.cls ≠ 3 → fl.fseq.toNat = (s.port port).rxSeq → fl.head = true → forMe s port (headDst fl) = true →
      ∃ t, exec (.flitReceive port fl) s = .next t
        ∧ t = emit (.credit port.1 fl.cls.toNat fl.vc 1) (emit (.flitAck port.1 fl.fseq.toNat) (takeAck port fl
          (updPort port (fun x => { x with rxSeq := (x.rxSeq + 1) % 4096, seeking := false }) s))))
    ∧ (flitGood fl = true → fl.cls ≠ 3 → fl.fseq.toNat ≠ (s.port port).rxSeq → (s.port port).seeking = true → exec (.flitReceive port fl) s = .next s)

/-- R267, R268, R272, R446: 16 NAKs without progress, or more FEC symbol errors than the image's limit, retrain a link that is up, and fewer
do not; a retrain that ends within 1 ms brings it up again, and its held flits go on; one that has not ended after 1 ms takes the port
down: its packets are discarded, an alarm and a record name it, the far device is a suspect, and every task with a packet on it aborts with
0x22. The owner's TRAIN trains a port that has a role; a link port then sends its coordinates, its name and the tag. A trained port that passes the identity check, and any Ethernet port, is up with
empty buffers and full credits; one that fails it carries no traffic, with an alarm and a record of both identities. -/
def Obligations.LinkStates : Prop :=
  ∀ (port : PortId) (m : Master) (far : DevAddr) (farPort : PortId) (tag : W64) (n : Nat) (s : State),
    let x := s.port port
    let retrained (s : State) : State := portEvent port 2 0 (updPort port (fun x => { x with
      state := .retraining, retrainNs := nowNs s, retrains := satAdd 64 x.retrains 1 }) s)
    let counted : State := updPort port (fun x => { x with fecsym := satAdd 64 x.fecsym n }) s
    let up : State := updPort port (fun x => { x with state := .up, naksRun := 0 }) s
    let down : State := alarm 5 (portEvent port 3 3 (dropTransit port (updPort port (fun x => { x with
      state := .down, replay := [], mq := [], seeking := false, naksRun := 0, routes := [none, none, none, none, none, none] }) s)))
    let held := heldTasks s port
    let aborted (s : State) : State := forAll held (fun p => abortTask (pid p) { code := 0x22, src := 0x100 + port.1 } false) s
    let met : State := updPort port (fun x => { x with farId := some (far, farPort.1) }) s
    (isLink x = true → x.state = .up →
      (16 ≤ x.naksRun → exec (.retrain port .naks) s = .next (retrained s))
      ∧ (x.naksRun < 16 → exec (.retrain port .naks) s = .next s)
      ∧ (s.img.dev.feclim < n → exec (.retrain port (.fec n)) s = .next (retrained counted))
      ∧ (n ≤ s.img.dev.feclim → exec (.retrain port (.fec n)) s = .next counted))
    ∧ (x.state = .retraining →
      (nowNs s ≤ x.retrainNs + 1000000 → exec (.retrainComplete port) s
        = .next (portPump port (resend port up)))
      ∧ (nowNs s ≤ x.retrainNs + 1000000 → x.replay = [] → x.mq = [] → (∀ i, (s.port i).transit = []) → exec (.retrainComplete port) s = .next up)
      ∧ (x.retrainNs + 1000000 < nowNs s → exec (.retrainComplete port) s = .next s)
      ∧ (nowNs s < x.retrainNs + 1000000 → exec (.portDown port) s = .next s)
      ∧ (x.retrainNs + 1000000 ≤ nowNs s →
        (x.farId = none → exec (.portDown port) s = .next (aborted down))
        ∧ ∀ d q, x.farId = some (d, q) → exec (.portDown port) s = .next (aborted (detect d (BitVec.ofNat 8 (q + 1)) 0x02 0xFFFF down))))
    ∧ (x.state ≠ .retraining → exec (.retrainComplete port) s = .next s ∧ exec (.portDown port) s = .next s)
    ∧ (OwnerActs m s →
      (x.role ≠ 0 → exec (.portTrain m port) s = .next (whenS (isLink x) (emit (.training port.1 (selfAddr s) s.img.dev.tag)) (updPort port (fun x => { x with
        state := .training, replay := [], transit := [], mq := [], seeking := false, naksRun := 0 }) s)))
      ∧ (x.role = 0 → exec (.portTrain m port) s = .next s))
    ∧ (x.state = .training →
      (isEth x = true ∨ trainOk s port far farPort tag = true → exec (.trainingComplete port far farPort tag) s
        = .next (portEvent port 4 0xFF (updPort port (fun x => { x with
            state := .up, txSeq := 0, rxSeq := 0, replay := [], credits := [1024, 1024, 512, 512, 64, 64], naksRun := 0 }) met)))
      ∧ (isEth x = false → trainOk s port far farPort tag = false → exec (.trainingComplete port far farPort tag) s
        = .next (detect far (BitVec.ofNat 8 (farPort.1 + 1)) 0x01 0xFFFF (alarm 5
          (logR 0x0005 1 3 (0x100 + port.1) 0xFFFF [port.1, 1, far.x.toNat, far.y.toNat, far.z.toNat, farPort.1,
              (selfAddr s).x.toNat, (selfAddr s).y.toNat, (selfAddr s).z.toNat]
            (updPort port (fun x => { x with state := .refused }) met))))))
    ∧ (x.state ≠ .training → exec (.trainingComplete port far farPort tag) s = .next s)
    ∧ (∀ k e, LogRoom s →
      (x.farId = none → portEvent port k e s = logged (recordNow s 5 1 e (0x100 + port.1) 0xFFFF [port.1, k, 0, 0, 0, 0]) s)
      ∧ ∀ d q, x.farId = some (d, q) → portEvent port k e s
        = logged (recordNow s 5 1 e (0x100 + port.1) 0xFFFF [port.1, k, d.x.toNat, d.y.toNat, d.z.toNat, q]) s)

/-- R301, R302: on an Ethernet port, the writes up to an acknowledged sequence leave the queue pair, each DATA segment among them counts
for the attempt that sent it, and the timer starts again; a congestion notice under ECN cuts the rate by the image's factor, and each tick the rate
regains; once the image's timeout has passed, and not before, a timeout retransmits, counted, while retries are left, and otherwise aborts with 0x22
the tasks whose attempts the unacknowledged writes carry; a foreign request is dropped and counted; PFC on the image's priority pauses and resumes sending. A port that is not Ethernet, another
priority, ECN off or an unknown queue pair changes nothing. -/
def Obligations.EthernetPorts : Prop :=
  (∀ (port : PortId) (qp : BitVec 12) (upto : Nat) (q : QPair) (s : State), isEth (s.port port) = true → qpOf (s.port port) qp.toNat = some q →
    let cfg := ethCfg s port
    let done := q.unacked.filter (fun u => decide (u.seq ≤ upto))
    let left := q.unacked.filter (fun u => decide (upto < u.seq))
    (done ≠ [] → exec (.roceAck port qp upto) s
      = .next (segsAcked done (updQp port qp.toNat (fun q => { q with unacked := left, retries := 0, sentNs := nowNs s }) s)))
    ∧ (done = [] → exec (.roceAck port qp upto) s = .next (updQp port qp.toNat (fun x => { x with unacked := q.unacked }) s))
    ∧ (cfg.ecn = true → exec (.congestionNotification port qp) s = .next (updQp port qp.toNat (fun q => { q with rate := q.rate * cfg.factor / 256 }) s))
    ∧ (nowNs s < q.sentNs + 1000 * cfg.timeout → exec (.roceRetryTimeout port qp) s = .next s)
    ∧ (q.unacked ≠ [] → q.sentNs + 1000 * cfg.timeout ≤ nowNs s → q.retries < cfg.retries → exec (.roceRetryTimeout port qp) s
      = .next (emit (.retransmit port.1 qp.toNat) (updQp port qp.toNat (fun q => { q with retries := q.retries + 1, sentNs := nowNs s }) s)))
    ∧ (q.unacked ≠ [] → q.sentNs + 1000 * cfg.timeout ≤ nowNs s → cfg.retries ≤ q.retries → exec (.roceRetryTimeout port qp) s
      = .next (forAll (failedParts s q.unacked) (fun p s => abortTask (pid p) { code := 0x22, src := 0x100 + port.1 } false s)
          (updQp port qp.toNat (fun q => { q with retries := 0, unacked := [] }) s)))
    ∧ (q.unacked = [] → exec (.roceRetryTimeout port qp) s = .next s))
  ∧ (∀ (port : PortId) (qp : BitVec 12) (upto : Nat) (prio : Byte) (pause : Bool) (s : State),
    (isEth (s.port port) = true →
      exec (.foreignRequestDrop port) s = .next (updPort port (fun x => { x with foreign := x.foreign + 1 }) s)
      ∧ ((ethCfg s port).pfcPrio = prio.toNat → prio.toNat < 8 →
        exec (.priorityFlowControl port prio pause) s = .next (updPort port (fun x => { x with paused := pause }) s))
      ∧ ((ethCfg s port).pfcPrio ≠ prio.toNat ∨ 8 ≤ prio.toNat → exec (.priorityFlowControl port prio pause) s = .next s))
    ∧ ((ethCfg s port).ecn = false → exec (.congestionNotification port qp) s = .next s)
    ∧ (qpOf (s.port port) qp.toNat = none → exec (.roceAck port qp upto) s = .next s ∧ exec (.roceRetryTimeout port qp) s = .next s)
    ∧ (isEth (s.port port) = false → ∀ c ∈ ([.roceAck port qp upto, .congestionNotification port qp, .roceRetryTimeout port qp, .foreignRequestDrop port,
        .priorityFlowControl port prio pause] : List Instr), exec c s = .next s))
  ∧ (∀ (port : PortId) (s : State), ((boundaryService s).port port).qps
      = (s.port port).qps.map (fun q => { q with rate := Nat.min 256 (q.rate + (ethCfg s port).regain), used := 0 }))
  ∧ ∀ (u : QWrite) (l : List QWrite) (s : State), segsAcked [] s = s
    ∧ segsAcked (u :: l) s = segsAcked l (if u.data then updPart (pid u.part) (fun x => { x with
        reqs := mapIf (fun r => r.rid == u.rid && r.epoch == u.epoch) (fun r => { r with segAcked := r.segAcked + 1 }) x.reqs }) s else s)

/-- R278, R328, R339, R352, R370, R386, R435: in P0 to P2, a WRITE stores its payload at its address where its partition may write all of it, and nothing
elsewhere; a SEGMENT stores its payload where an export receive region holds all of it, and nothing elsewhere. What is stored is the
payload, byte for byte from the address on, in the tier that the address names, but for near bytes on a failed channel; every other byte
of memory, and everything else, is as before. -/
def Obligations.PacketWrites : Prop :=
  (∀ (h : PktHdr) (data : List Byte) (s : State),
    let p := pid h.dpart.toNat
    let a := h.addr.toNat
    (linksOn s = false → exec (.write h data) s = .next s ∧ exec (.segment h data) s = .next s)
    ∧ (linksOn s = true → (∀ cfg, h.dpart.toNat < 64 → (s.part p).section_ = some cfg →
      let ok := inWindow cfg a data.length true && runValid s a data.length && !runOffline s a data.length
      (ok = true → exec (.write h data) s = .next (tierWrite a data s)) ∧ (ok = false → exec (.write h data) s = .next s))
    ∧ (64 ≤ h.dpart.toNat ∨ (s.part p).section_ = none → exec (.write h data) s = .next s)
    ∧ ((∃ r ∈ s.mem.regions, r.cls = 7 ∧ inRegion r a = true ∧ inRegion r (a + (data.length - 1)) = true) →
      exec (.segment h data) s = .next (tierWrite a data s))
    ∧ ((∀ r ∈ s.mem.regions, ¬(r.cls = 7 ∧ inRegion r a = true ∧ inRegion r (a + (data.length - 1)) = true)) → exec (.segment h data) s = .next s)))
  ∧ ∀ (a : Nat) (data : List Byte) (s : State),
    let t := tierWrite a data s
    let stored (b : Nat) : Bool := decide (tierAddr a ≤ b ∧ b < tierAddr a + data.length)
    let byte (b : Nat) : Byte := data.getD (b - tierAddr a) 0
    (isFar a = true → t = { s with mem := { s.mem with far := t.mem.far } }
      ∧ (Memory.wf s.mem.far → ∀ b, rd8 t.mem.far b = if stored b then byte b else rd8 s.mem.far b))
    ∧ (isFar a = false → t = { s with mem := { s.mem with near := t.mem.near } }
      ∧ (Memory.wf s.mem.near → ∀ b, rd8 t.mem.near b = if stored b && !onFailed s b then byte b else rd8 s.mem.near b))

/-- R281-R286, R296, R435: in P0 to P2, a piece of the running task from a member of its group lands where its instance is open and agrees with it, and waits
where none is open; one that disagrees aborts the task with 0x27; a piece of another task, or from a device outside the group, is
discarded. An ACK of the running task returns group credit and completes the oldest repetition that waits for it. -/
def Obligations.Pieces : Prop :=
  ∀ (port : PortId) (h : PktHdr) (data : List Byte) (g : Group) (s : State), h.dpart.toNat < 64 →
    let p := pid h.dpart.toNat
    (linksOn s = false → exec (.piece port h data) s = .next s ∧ exec (.ack port h) s = .next s)
    ∧ (linksOn s = true → groupOfGid (s.part p) h.group.toNat = some g →
    (∀ t, (s.part p).task = some t →
      (h.task.toNat = t.num → t.live = true →
        (h.src ∈ g.members →
          (∀ e, instOf g h.gseq.toNat = some e → pieceMatches e h = true → exec (.piece port h data) s = .next (landPiece p port.1 g h data s))
          ∧ (∀ e, instOf g h.gseq.toNat = some e → pieceMatches e h = false →
            exec (.piece port h data) s = .next (detect h.src 0 0x04 p.1 (abortTask p { code := 0x27, src := 0x100 + port.1 } false s)))
          ∧ (instOf g h.gseq.toNat = none →
            exec (.piece port h data) s = .next (updGroup p g.gid (fun g => { g with waiting := g.waiting ++ [(port.1, h, data)] }) s)))
        ∧ (h.src ∉ g.members → exec (.piece port h data) s = .next (discardPiece p 2 h s)))
      ∧ (h.task.toNat ≠ t.num ∨ t.live = false → exec (.piece port h data) s = .next (discardPiece p 1 h s))
      ∧ (h.task.toNat = t.num →
        let credited : State := updGroup p g.gid (setCredit h.src (creditOf g h.src + 1)) s
        (ackedOp s p g h = none → exec (.ack port h) s = .next credited)
        ∧ ∀ i k o, ackedOp s p g h = some (i, k, o) → exec (.ack port h) s = .next (meetStep p g.gid h.step.toNat (opDone p i k o credited)))
      ∧ (h.task.toNat ≠ t.num → exec (.ack port h) s = .next s))
    ∧ ((s.part p).task = none → exec (.piece port h data) s = .next (discardPiece p 1 h s) ∧ exec (.ack port h) s = .next s))

/-- R283-R287: a local tile lands at BOFF plus its index times its bytes in the group's buffer, byte for byte, advances the tile counter, and
closes the instance once TOTAL bytes have landed; every other byte of the buffers is as before. Of a port's operations whose trigger has
come, the lowest slot fires, and its step's checkpoint is met once the step is complete. A repetition is due once its trigger counter has
reached THRESH + k × TINC: SEND sends the local piece, REDSEND the reduction of the landed with the local piece, REDKEEP writes that
reduction over the local piece and completes, DELIVER delivers a piece: its packets enter the mesh, and it completes at once where no core of
its list can be reached. Whether a DELIVER takes the local or the landed piece is the free value Config.deliversLanded (log 36, DESIGN
CHOICE), and how many repetitions of a slot an instance has is one too (log 193, DESIGN CHOICE). -/
def Obligations.TilesAndTriggers : Prop :=
  (∀ (p : PartId) (port : PortId) (c : CoreId) (xd : BitVec 9) (tile : Nat) (s : State),
    (∀ (data : List Byte) (rest : List (Nat × Nat × Nat × List Byte)) (cfg : PCfg) (g : Group),
      takeTile (c.1, port.1, xd.toNat) (s.part p).tiles = some (data, rest) → (s.part p).section_ = some cfg →
      let e := exchAt (s.core c).dstore cfg.exchOff xd.toNat
      let at_ := bufAddr g port.1 (e.boff + tile * data.length)
      groupOfGid (s.part p) e.gid = some g →
      ∃ t, exec (.localTileLand p port c xd tile) s = .next t ∧ OnlyPart p s t ∧ (t.part p).tiles = rest
        ∧ (t.part p).groups = mapIf (fun q => q.gid == e.gid) (fun q => { q with opens := openTiles xd.toNat data.length e.total q.opens }) (s.part p).groups
        ∧ ctrOf (t.part p) port.1 e.tctr = (ctrOf (s.part p) port.1 e.tctr + 1) % 2 ^ 32
        ∧ (Memory.wf (s.part p).xmem → ∀ b, rd8 (t.part p).xmem b
          = if at_ ≤ b ∧ b < at_ + data.length then data.getD (b - at_) 0 else rd8 (s.part p).xmem b))
    ∧ (takeTile (c.1, port.1, xd.toNat) (s.part p).tiles = none ∨ (s.part p).section_ = none → exec (.localTileLand p port c xd tile) s = .next s))
  ∧ (∀ (p : PartId) (port : PortId) (slot : Fin 1024) (s : State),
    ((∀ q ∈ (s.part p).ops, ¬(q.1 = port.1 ∧ q.2.1 = slot.1)) → exec (.triggeredOpFire p port slot) s = .next s)
    ∧ ∀ o, (s.part p).ops.find? (fun q => q.1 == port.1 && q.2.1 == slot.1) = some (port.1, slot.1, o) →
      ((∃ r ∈ (s.part p).ops, r.1 = port.1 ∧ r.2.1 < slot.1 ∧ (tryFire p port.1 r.2.1 r.2.2 s).isSome = true) → exec (.triggeredOpFire p port slot) s = .next s)
      ∧ ((∀ r ∈ (s.part p).ops, r.1 = port.1 → r.2.1 < slot.1 → tryFire p port.1 r.2.1 r.2.2 s = none) →
        (∀ u, tryFire p port.1 slot.1 o s = some u → exec (.triggeredOpFire p port slot) s = .next (meetStep p o.gid (opStep o o.fired) u))
        ∧ (tryFire p port.1 slot.1 o s = none → exec (.triggeredOpFire p port slot) s = .next s)))
  ∧ ∀ (p : PartId) (port slot : Nat) (o : TrigOp) (g : Group) (i : Nat × Exch) (t : Task) (s : State), (s.part p).task = some t → t.live = true →
    groupOfGid (s.part p) o.gid = some g → opInst g port slot o o.fired = some i →
    let due := o.fired < o.reps ∧ o.thresh + o.fired * o.tinc ≤ ctrOf (s.part p) port o.tc
    let at_ := bufAddr g port (o.loc + o.fired * o.lstr * 64)
    let loc := rdBytes (s.part p).xmem at_ (o.plen * 64)
    let landed := rdBytes (s.part p).xmem (bufAddr g port (o.lnd + o.fired * o.nstr * 64)) (o.plen * 64)
    let stored (l : List Byte) := updPart p (fun x => { x with xmem := wrBytes x.xmem at_ l }) s
    let fired (u : State) := updOp p port slot (fun o => { o with fired := o.fired + 1 }) u
    (¬due → tryFire p port slot o s = none)
    ∧ (due →
      (o.op = 3 → unackedOf g port slot o.fired o = none →
        tryFire p port slot o s = some (opDone p port slot o (fired (stored (reducePiece i.2 landed loc)))))
      ∧ (o.op = 5 →
        tryFire p port slot o s = some (startDeliver p port slot o (if Config.deliversLanded port slot then landed else loc) (fired s)))
      ∧ (∀ cfg d, (s.part p).section_ = some cfg → cfg.dlists.find? (fun d => d.1 == o.dlist) = some d → ∀ u : State, u.part p = s.part p →
        ((∃ q ∈ d.2.1, coreReachable (deliverPiece p port slot o loc u) p q = true) → startDeliver p port slot o loc u = deliverPiece p port slot o loc u)
        ∧ ((∀ q ∈ d.2.1, coreReachable (deliverPiece p port slot o loc u) p q = false) →
          startDeliver p port slot o loc u = deliverDone p port slot o.fired (deliverPiece p port slot o loc u)))
      ∧ (o.op = 1 → tryFire p port slot o s
        = (sendOp p port slot g i o (pieceHdr s p g i o (o.loc + o.fired * o.lstr * 64 - i.2.boff)) loc s).map fired)
      ∧ (o.op = 2 → unackedOf g port slot o.fired o = none → tryFire p port slot o s
        = (sendOp p port slot g i o (pieceHdr s p g i o (o.loc + o.fired * o.lstr * 64 - i.2.boff)) (reducePiece i.2 landed loc) s).map fired))

/-- R280, R295, R297, R317, R323, R414, R435: in P0 to P2, what members of a partition tell each other. A state report replaces the source's last one; a
prepared task is noted once per source, whether it runs or has ended; a check or security state of a member that differs makes the group
unusable, one that agrees changes nothing, and one for a group that is not there yet is kept; the lead's task start queues the task on a
follower with the entries as this device holds them, a new table in a fresh run of the pool for each that has none and finds room (log 44,
DESIGN CHOICE), unless its start tick has passed; a NOTICE of code 0x24 or 0x27 for the running task is a cause of its abort, one for a task
that has ended fails the attempts of its requests that have not committed (log 45, DEDUCED), and any other NOTICE is only recorded. -/
def Obligations.MemberMessages : Prop :=
  ∀ (p : PartId) (src : DevAddr) (a b c d gid : Byte) (task check : W32) (start : W64) (entries : List LenEntry) (epochs : List W16) (s : State),
    let note (t : Task) : Task := if t.num = task.toNat ∧ t.prepared.contains src = false then { t with prepared := src :: t.prepared } else t
    (linksOn s = false → ∀ i ∈ ([.stateReport p src a b c d, .taskPrepared p src task, .groupCheck p gid src check d, .taskStartMessage p task start entries epochs]
      : List Instr), exec i s = .next s)
    ∧ (linksOn s = false → ∀ h, exec (.notice h) s = .next s)
    ∧ (linksOn s = true → exec (.stateReport p src a b c d) s = .next (updPart p (fun x => { x with reports := x.reports.filter (fun r => !sameDev r.src src)
      ++ [{ src, tstate := a.toNat, pstate := b.toNat, service := c.toNat, sstate := d.toNat, tick := s.tick.now }] }) s)
    ∧ exec (.taskPrepared p src task) s = .next (updPart p (fun x => { x with task := x.task.map note, doneTasks := x.doneTasks.map note }) s)
    ∧ (groupOfGid (s.part p) gid.toNat = none → exec (.groupCheck p gid src check d) s = .next (updPart p (fun x => { x with
      checks := (gid.toNat, src, check, d.toNat) :: x.checks.filter (fun c => !(c.1 == gid.toNat && sameDev c.2.1 src)) }) s))
    ∧ (∀ g, groupOfGid (s.part p) gid.toNat = some g →
      (src ∈ g.members → g.check ≠ check ∨ d.toNat ≠ s.sec.state →
        exec (.groupCheck p gid src check d) s = .next (updGroup p gid.toNat (fun g => { g with usable := false }) s))
      ∧ (src ∉ g.members ∨ g.check = check ∧ d.toNat = s.sec.state → exec (.groupCheck p gid src check d) s = .next s))
    ∧ (∀ cfg, (s.part p).section_ = some cfg → cfg.span = 2 →
      let m := (cfg.wstok.head?.bind (fun w => s.img.models.find? (fun m => m.idx == w.1))).getD {}
      (s.tick.now ≤ start.toNat → ∃ u, exec (.taskStartMessage p task start entries epochs) s = .next u
        ∧ u = { s with parts := u.parts, mem := { s.mem with near := u.mem.near }, freeCtr := u.freeCtr }
        ∧ (∀ q, q ≠ p → u.part q = s.part q) ∧ (u.part p).lastTask = task.toNat
        ∧ (∀ x ∈ (s.part p).xtabs, x ∈ (u.part p).xtabs)
        ∧ (∀ x ∈ (u.part p).xtabs, x ∈ (s.part p).xtabs ∨ ∃ e ∈ entries, x.idx = e.xtab.toNat ∧ x.length = (localEntry s m e).qpos.toNat)
        ∧ (∀ e base at_, entries = [e] → (∀ x ∈ (s.part p).xtabs, x.idx ≠ e.xtab.toNat) →
          let len := ((localEntry s m e).qpos.toNat + (localEntry s m e).qlen.toNat + 63) / 64
          (allocRuns p [len * groupBytes s m false, 4288] [] s).1 = some [base, at_] →
          (u.part p).xtabs = (s.part p).xtabs ++ [{
            idx := e.xtab.toNat, addr := at_, length := (localEntry s m e).qpos.toNat, gbytes := groupBytes s m false
            copyA := [{ base, len := BitVec.ofNat 16 len, fmt := extFmt m.form, flags := 0, gen := 0, region := 0xFFFFFFFF }] }])
        ∧ ∃ t, (u.part p).queue = (s.part p).queue ++ [t] ∧ t.num = task.toNat ∧ t.start = start.toNat ∧ t.follower = true
          ∧ t.entries.map TEntry.len = entries.map (localEntry s m))
      ∧ (start.toNat < s.tick.now → exec (.taskStartMessage p task start entries epochs) s = .next s))
    ∧ (∀ h : PktHdr, h.dpart.toNat < 64 →
      let p := pid h.dpart.toNat
      let code : Byte := BitVec.ofNat 8 h.addr.toNat
      let recorded : State := logR 2 2 1 0xFFFF p.1 [h.task.toNat, h.addr.toNat % 256] s
      (h.addr = 0x24 ∨ h.addr = 0x27 →
        (∀ t, (s.part p).task = some t → t.num = h.task.toNat → t.live = true ∨ t.window.isSome = true →
          exec (.notice h) s = .next (abortTask p { code, src := 0xFFFF } false s))
        ∧ (∀ t, (s.part p).task = some t → t.num = h.task.toNat → t.live = false → t.window = none → exec (.notice h) s = .next recorded)
        ∧ ((∀ t, (s.part p).task = some t → t.num ≠ h.task.toNat) →
          (∀ t, (s.part p).doneTasks.find? (fun t => t.num == h.task.toNat) = some t → exec (.notice h) s
            = .next (failRequests p { t with noticed := true } code [] false
                (updPart p (fun x => { x with doneTasks := x.doneTasks.filter (fun q => q.num != t.num) }) recorded)))
          ∧ ((∀ t ∈ (s.part p).doneTasks, t.num ≠ h.task.toNat) → exec (.notice h) s = .next recorded)))
      ∧ (h.addr ≠ 0x24 → h.addr ≠ 0x27 → exec (.notice h) s = .next recorded)
      ∧ (LogRoom s → recorded = logged (recordNow s 2 2 1 0xFFFF p.1 [h.task.toNat, h.addr.toNat % 256]) s)))

/-- R435, R450-R453: in P0 to P2, a report of a suspect that the table holds adds to its counts; one of a new suspect enters it in the slot that is free, or
that has gone longest without a report, 16 ticks at least, after that entry's pending forward, and forwards the new entry; with no such
slot it is counted and raises SUSPECT. At the 16th boundary after its last forward, an entry with a count is forwarded, which writes its
record, sets its count to 0 and, where it includes local detections, tells the lead, the remote owner and the suspect; an entry without a
report for 1,024 ticks goes, after its pending forward. An accusation is counted and raises PEER, and is recorded once per accuser in 16
ticks. -/
def Obligations.Suspects : Prop :=
  (∀ (r : SuspectRep) (s : State),
    let holds (e : Fin 64) : Bool := (s.flt.suspects[e]).any (fun q => sameDev q.rep.suspect r.suspect && q.rep.res == r.res)
    (linksOn s = false → exec (.suspectReport r) s = .next s ∧ exec (.peerAccused r) s = .next s)
    ∧ (linksOn s = true → (∀ e q, (List.finRange 64).find? holds = some e → s.flt.suspects[e] = some q → exec (.suspectReport r) s = .next (setSuspect e (some { q with
        rep := { q.rep with count := sat32 q.rep.count r.count.toNat, total := sat32 q.rep.total r.count.toNat, reason := r.reason }
        lastRep := s.tick.now }) s))
    ∧ (∀ e, (∀ k, holds k = false) → suspectSlot s = some e →
      let s1 := if (s.flt.suspects[e]).any (fun q => decide (q.rep.count ≠ 0)) then forwardEntry e s else s
      let q : Suspect := {
        rep := { suspect := r.suspect, res := r.res, reason := r.reason, rflags := 1, rx := 0, ry := 0, rz := 0, count := r.count, total := r.count
                 first := BitVec.ofNat 64 s.tick.now }
        local_ := false, lastFwd := s.tick.now, lastRep := s.tick.now, part := 0xFFFF }
      exec (.suspectReport r) s = .next (forwardEntry e (setSuspect e (some q) s1)))
    ∧ ((∀ k, holds k = false) → suspectSlot s = none →
      exec (.suspectReport r) s = .next (alarm 13 (updFlt (fun f => { f with suspovf := satAdd 64 f.suspovf 1 }) s)))
    ∧ (let who : DevAddr := ⟨r.rx, r.ry, r.rz, 0⟩
      let counted : State := updFlt (fun f => { f with accused := satAdd 64 f.accused 1 }) s
      let recent := s.flt.accLog.any (fun a => sameDev a.1 who && decide (s.tick.now < a.2 + 16))
      (recent = true → exec (.peerAccused r) s = .next (alarm 12 counted))
      ∧ (recent = false → exec (.peerAccused r) s = .next (alarm 12 (logR 7 0 6 0xFFFF 0xFFFF (repBody r)
          (updFlt (fun f => { f with accLog := (who, s.tick.now) :: f.accLog.filter (fun a => !sameDev a.1 who) }) counted)))))))
  ∧ (∀ (e : Fin 64) (q : Suspect) (s : State), s.flt.suspects[e] = some q →
    (q.lastFwd + 16 ≤ s.tick.now → q.rep.count ≠ 0 → exec (.suspectForward e) s = .next (forwardEntry e s))
    ∧ (s.tick.now < q.lastFwd + 16 ∨ q.rep.count = 0 → exec (.suspectForward e) s = .next s)
    ∧ (q.lastRep + 1024 ≤ s.tick.now → q.rep.count = 0 → exec (.suspectExpiry e) s = .next (setSuspect e none s))
    ∧ (q.lastRep + 1024 ≤ s.tick.now → q.rep.count ≠ 0 → exec (.suspectExpiry e) s = .next (setSuspect e none (forwardEntry e s)))
    ∧ (s.tick.now < q.lastRep + 1024 → exec (.suspectExpiry e) s = .next s)
    ∧ (let r : SuspectRep := { q.rep with rx := (selfAddr s).x, ry := (selfAddr s).y, rz := (selfAddr s).z }
      let sent (s : State) : State := setSuspect e (some { q with rep := { q.rep with count := 0 }, local_ := false, lastFwd := s.tick.now }) s
      let rec_ : State := logR 6 1 6 (if r.res == 0 then 0xFFFF else 0x100 + (r.res.toNat - 1)) q.part (repBody r) s
      (q.local_ = false → forwardEntry e s = sent rec_)
      ∧ (q.local_ = true → ∃ l : List DevAddr, l = forwardTo rec_ q.part ∧ forwardEntry e s
          = sent (sendM 0x11 r.suspect (repBody { r with rflags := r.rflags ||| 2 }) (forAll l (fun d => sendM 0x10 d (repBody r)) rec_)))))
  ∧ ∀ (e : Fin 64) (s : State), s.flt.suspects[e] = none → exec (.suspectForward e) s = .next s ∧ exec (.suspectExpiry e) s = .next s

/-! ### Numbers (R37-R63, R102) -/

/-- R40: an E8M0 scale byte below 0xFF stands for 2 ^ (byte - 127), from 2 ^ -127 to 2 ^ 127, exactly and without a sign; 0xFF is NaN. -/
def Obligations.ScaleBytes : Prop :=
  ∀ b : Byte, (b = 0xFF → dec32 (e8m0 b.toNat) = .nan)
    ∧ (b ≠ 0xFF → ∃ m e, dec32 (e8m0 b.toNat) = .fin false m e
      ∧ dyNum m e * pow2Den ((b.toNat : Int) - 127) = pow2Num ((b.toNat : Int) - 127) * dyDen e)

/-- R102: of a block form, whether a value clamps depends on its magnitude over the block scale alone: not on its sign, not on the
rounding mode, not on the draw. So every count of a block and of a quantiser tile, and the encoding and the flags that are decided
from them, are the same with round to nearest even (no draw) and with stochastic rounding under any draws. -/
def Obligations.ClampsWhateverRounding : Prop :=
  (∀ (f : Nat) (u v : Option Nat) (neg ngf : Bool) (n d n' d' : Nat), isMX f = true → 0 < d → 0 < d' → n * d' = n' * d →
    (encNarrow f u neg n d).2 = (encNarrow f v ngf n' d').2)
  ∧ (∀ (f : Nat) (us vs : Nat → Option Nat) (xs : List W32),
    (mxBlock f us xs).scale = (mxBlock f vs xs).scale ∧ (mxBlock f us xs).clamps = (mxBlock f vs xs).clamps
    ∧ (mxBlock f us xs).poisoned = (mxBlock f vs xs).poisoned)
  ∧ ∀ (pol : Policy) (af wf : BitVec 5) (wh room : Bool) (rows : List (List W32)) (us vs : Nat → Nat → Option Nat),
    let q := quantTile pol af wf wh room rows us
    let r := quantTile pol af wf wh room rows vs
    q.fmt = r.fmt ∧ q.flags = r.flags ∧ q.clamps = r.clamps ∧ q.tclamp = r.tclamp ∧ q.clamp8 = r.clamp8 ∧ q.nanblk = r.nanblk

/-- R60-R63: the value b of a block of products, by the order of precedence of R62: a NaN element or scale, Inf times 0 and infinite
products of both signs give NaN; infinite products of one sign give NaN against a zero scale and else Inf with the sign of the
products and the scales; an infinite scale makes NaN of a zero sum and Inf of any other; a zero sum or a zero scale gives +0; and any
other sum is rounded once, with both scales. A zero scale against an infinite one is no pair that the formats hold, and is left out. -/
def Obligations.BlockSums : Prop :=
  ∀ (as ws : List Elem) (sa sw : W32),
    let l := List.zip as ws
    let b := (blockB (bsum as ws) sa sw).1
    let zeroScale := isZero32 sa = true ∨ isZero32 sw = true
    let infScale := isInf32 sa = true ∨ isInf32 sw = true
    let neg := sa.msb != sw.msb
    let sum := (l.map exactProduct).sum
    (((∃ x ∈ l, hasNan x) ∨ isNan32 sa = true ∨ isNan32 sw = true) → b = 0x7FC00000)
    ∧ ((∀ x ∈ l, ¬hasNan x) → isNan32 sa = false → isNan32 sw = false →
      ((∃ x ∈ l, infTimesZero x) → b = 0x7FC00000)
      ∧ ((∀ x ∈ l, ¬infTimesZero x) →
        ((∃ x ∈ l, infProduct x true) → (∃ x ∈ l, infProduct x false) → b = 0x7FC00000)
        ∧ (∀ sg : Bool, (∃ x ∈ l, infProduct x sg) → (∀ x ∈ l, ¬infProduct x (!sg)) →
          (zeroScale → b = 0x7FC00000) ∧ (¬zeroScale → b = inf32 (sg != neg)))
        ∧ ((∀ x ∈ l, ∀ sg, ¬infProduct x sg) →
          (infScale → sum = 0 → b = 0x7FC00000)
          ∧ (infScale → sum ≠ 0 → ¬zeroScale → b = inf32 (decide (sum < 0) != neg))
          ∧ (¬infScale → sum = 0 ∨ zeroScale → b = 0)
          ∧ (∀ s1 s2 m n e f, dec32 sa = .fin s1 m e → dec32 sw = .fin s2 n f → sum ≠ 0 → ¬zeroScale →
            b = rnd32 (decide (sum < 0) != neg) (sum.natAbs * m * n * pow2Num (e + f - 36)) (pow2Den (e + f - 36))))))

/-! ### Passes of an engine (R60-R94) -/

/-- R67, R69, R80, R91, R94, R155, R248, R364: MATRIX_PASS works on the oldest unfinished instruction of the engine; one that is not ready
waits, and nothing changes. A keep-form slice writes its records and runs no pass; a skipped tile marks its side entries and is done; a
first pass that accumulates into a half that nothing wrote is an illegal instruction 0x02. Any other pass, the first of a slice, which
stages its tiles, or a later one, runs once its charge is taken: it commits its weights, adds into its halves, counts its skipped blocks and
advances the instruction, to the next pass of the slice, the next slice, or its end; a taster mismatch is reported and aborts the task with
0x25 instead. A pass whose charge a budget refuses is held: only the holds are counted. An engine with no unfinished instruction has no
effect, but for the check of a pass that an abort stopped (R91, R445). How a report numbers a pass is the model's choice (log 183). -/
def Obligations.MatrixPasses : Prop :=
  ∀ (c : CoreId) (e : Fin 4) (up : Option Upset) (q : MMEntry) (p : PartId) (s : State),
    ((s.core c).eng[e]).queue.find? (fun q => !q.done) = some q → partOfCore s c.1 = some p →
    (passReady s c e q = false → exec (.matrixPass c e up) s = .next s)
    ∧ (passReady s c e q = true →
      (q.skip = true → exec (.matrixPass c e up) s = .next (skipDo c q s))
      ∧ (q.skip = false → q.body.keep = true → exec (.matrixPass c e up) s = .next (keepSlice c q s))
      ∧ (q.skip = false → q.body.keep = false →
        (q.slice = 0 → q.sub = 0 → halfUndefined ((s.core c).eng[e]) q = true → exec (.matrixPass c e up) s = .next (illegal c 0x02 q.pc s))
        ∧ (¬(q.slice = 0 ∧ q.sub = 0 ∧ halfUndefined ((s.core c).eng[e]) q = true) →
          let q1 := (passStart c e q s).1
          let tiles := (passStart c e q s).2.1
          let s1 := (passStart c e q s).2.2
          let n := (planOf q1.body (splitsWide q1.body tiles)).length
          let u := (charge p (passCost s q1 tiles) s1).2
          let w := passWeights u c e q1 tiles
          let r := passEval u.freeCtr (u.core c) e q1 tiles w up
          let done := countSkips c r.skip (passCommit c e tiles w r u)
          ((charge p (passCost s q1 tiles) s1).1 = true →
            (r.bad = none → exec (.matrixPass c e up) s = .next (afterPass c r.e n done))
            ∧ ∀ kb m, r.bad = some (kb, m) → exec (.matrixPass c e up) s = .next (updEngine c e (fun g => { g with stopped := none })
                (abortOf c { code := 0x25, src := c.1 }
                  (tasterMismatch c e (taskNumOf done c) r.e.pc (passNumber r.e n) kb m (setEntry c r.e done)))))
          ∧ ((charge p (passCost s q1 tiles) s1).1 = false → ∃ t, exec (.matrixPass c e up) s = .next t
            ∧ t = { s with parts := t.parts, flt := t.flt, tick := t.tick }
            ∧ ∀ k : Fin 7, (t.part p).budgets[k].counter = (s.part p).budgets[k].counter))))
    ∧ (∀ (q : MMEntry) (n : Nat) (u : State), q.body.keep = false →
      (q.sub + 1 < n → q.slice ≤ q.body.npass.toNat → afterPass c q n u = setEntry c { q with sub := q.sub + 1 } u)
      ∧ (n ≤ q.sub + 1 → q.slice + 1 ≤ q.body.npass.toNat →
        afterPass c q n u = setEntry c { q with slice := q.slice + 1, sub := 0 } (updEngine c q.body.eng (countK q) u))
      ∧ (n ≤ q.sub + 1 → q.body.npass.toNat ≤ q.slice → q.chain = none → afterPass c q n u
        = vePump c 8 (setEntry c { q with slice := q.slice + 1, sub := 0, done := true, sat := false }
            (capture c q (updEngine c q.body.eng (countK q) u)))))
    ∧ ∀ (c : CoreId) (e : Fin 4) (up : Option Upset) (s : State), ((s.core c).eng[e]).queue.find? (fun q => !q.done) = none →
      (((s.core c).eng[e]).stopped = none → exec (.matrixPass c e up) s = .next s)
      ∧ ∀ k, ((s.core c).eng[e]).stopped = some k → exec (.matrixPass c e up) s = .next (lateCheck c e up s)

/-! ### Serving (R201-R215, R303-R325, R470) -/

/-- R303, R305, R306, R321, R322, R416, R470: SQ_TAIL, CQ_HEAD, JQ_HEAD and CANCEL complete for every value in every state; without effect in
P4, and in P0 to P3 they take one 64-bit access; any other is ignored and counted. The submission tail is taken modulo the ring, a head releases
the slots up to it, one beyond what was written is ignored and counted, and a doorbell in P3 is recorded. A cancel of a REQID that is not
known, or that waits for its acceptance, is held; one of a request that has committed or has its code is answered as lost; one of a request
that waits ends it at once with CANCELLED, behind the opening of a retried attempt, and 0x31; one of a running request takes its rows out of
the task and gives it 0x31. A tail modulo the ring is the model's reading (log 79, DEDUCED). -/
def Obligations.Doorbells : Prop :=
  ∀ (f : FuncId) (v reqid : W64) (s : State),
    (∀ b, (∃ t, exec (.sqTail f v b) s = .next t) ∧ (∃ t, exec (.cqHead f v b) s = .next t) ∧ (∃ t, exec (.jqHead f v b) s = .next t)
      ∧ ∃ t, exec (.cancel f reqid b) s = .next t)
    ∧ (∀ b i, i = .sqTail f v b ∨ i = .cqHead f v b ∨ i = .jqHead f v b ∨ i = .cancel f reqid b → s.pwr.state = .p4 → exec i s = .next s)
    ∧ (s.pwr.state ≠ .p4 →
    let g := s.func f
    let p := partOfFunc s f
    let ignored : State := updFunc f (fun g => { g with igndb := g.igndb + 1 }) s
    let held : State := if g.heldCancels.any (fun h => h.reqid == reqid) then s
      else updFunc f (fun g => { g with heldCancels := g.heldCancels ++ [{ reqid, tick := s.tick.now }] }) s
    (g.en = true → (s.part p).state ≠ .unconfigured → (f = 0 → isOwner s .pf0 = true) →
      (s.pwr.state ≠ .p3 → exec (.sqTail f v true) s = .next (updFunc f (fun g => { g with sqTail := v.toNat % 2 ^ g.sqLog }) s))
      ∧ (s.pwr.state = .p3 → exec (.sqTail f v true) s
        = .next (updPwr (fun w => { w with wakeDue := true }) (updFunc f (fun g => { g with sqTail := v.toNat % 2 ^ g.sqLog }) s))))
    ∧ (g.en = false ∨ (s.part p).state = .unconfigured ∨ f = 0 ∧ isOwner s .pf0 = false → exec (.sqTail f v true) s = .next ignored)
    ∧ (∀ d, v.toNat = (g.cqRel + d) % 2 ^ g.cqLog → d < 2 ^ g.cqLog →
      (g.cqRel + d ≤ g.cqTail → exec (.cqHead f v true) s = .next (updFunc f (fun g => { g with cqRel := g.cqRel + d }) s))
      ∧ (g.cqTail < g.cqRel + d → exec (.cqHead f v true) s = .next ignored))
    ∧ (2 ^ g.cqLog ≤ v.toNat → exec (.cqHead f v true) s = .next ignored)
    ∧ (∀ d, v.toNat = (g.jqRel + d) % 2 ^ g.jqLog → d < 2 ^ g.jqLog →
      (g.jqRel + d ≤ g.jqCount → exec (.jqHead f v true) s = .next (updFunc f (fun g => { g with jqRel := g.jqRel + d }) s))
      ∧ (g.jqCount < g.jqRel + d → exec (.jqHead f v true) s = .next ignored))
    ∧ (2 ^ g.jqLog ≤ v.toNat → exec (.jqHead f v true) s = .next ignored)
    ∧ (s.pwr.state = .p3 → exec (.cancel f reqid true) s
      = .next (updPwr (fun w => { w with wakeDue := true }) (updFunc f (fun g => { g with p3cancels := g.p3cancels ++ [reqid] }) s)))
    ∧ (s.pwr.state ≠ .p3 →
      (findReq (s.part p) f.1 reqid = none → exec (.cancel f reqid true) s = .next held)
      ∧ ∀ r, findReq (s.part p) f.1 reqid = some r →
        (r.code ≠ none ∨ r.state = .committed ∨ r.state = .final → exec (.cancel f reqid true) s = .next (cancelAns f reqid false s))
        ∧ (r.code = none → r.state = .reading → exec (.cancel f reqid true) s = .next held)
        ∧ (r.code = none → r.state = .pending ∨ r.state = .admitted →
          let s1 := openAttempt p r (if r.state = .admitted then flagTask p r s else s)
          let q := reqNow s1 p r
          let u := updReq p q (fun q => { q with cancelled := true, cancelSent := true }) (controlSeg p q 4 q.epoch [q.segSent] s1)
          exec (.cancel f reqid true) s = .next (decideCode p (reqNow u p q) 0x31 u))
        ∧ (r.code = none → r.state = .running →
          let u := updReq p r (fun q => { q with cancelled := true }) (flagTask p r s)
          let w := giveCode p (reqNow u p r) 0x31 u
          exec (.cancel f reqid true) s = .next (if r.desc.path = 3 then freeReq p (reqNow w p r) w else w)))
    ∧ ∀ i, i = .sqTail f v false ∨ i = .cqHead f v false ∨ i = .jqHead f v false ∨ i = .cancel f v false → exec i s = .next ignored)

/-- R203, R205, R303-R305, R319: a descriptor that the ticket rail reads advances TKT_SQHEAD. One that fails validation is answered by a
REJECT record with its reason and the next CSEQ. A request that passes reserves nine journal slots and waits for its acceptance; RELEASE
frees the session's table at once, or at the final code of a request in flight; MIGRATE queues a move; VLOAD takes a free slot, dropping a
version that nothing needs where none is free, and starts, or ends failed where it can take none, or the version is resident, is larger than a
slot, or has its slots in a region that is offline. That a descriptor is read only where the rings can hold its answer is the model's reading
(log 86, DEDUCED), and so is which load fails for its size (log 188, DEDUCED). -/
def Obligations.Submissions : Prop :=
  ∀ (f : FuncId) (d : SubDesc) (toks : Option (List W32)) (qrOk : Bool) (s : State), canRead s f = true →
    let p := partOfFunc s f
    let head : State := updFunc f (fun g => { g with sqHead := (g.sqHead + 1) % 2 ^ g.sqLog }) s
    let entered : State := updPart p (fun x => { x with
      nextRid := x.nextRid + 1
      reqs := x.reqs ++ [{ rid := x.nextRid, func := f.1, desc := d, tokens := (toks.getD []).take d.ntok.toNat, epoch := d.epoch0.toNat }] })
      (updFunc f (fun g => { g with jqResv := g.jqResv + 9 }) head)
    let rejected (k : Nat) : State := updFunc f (fun g => { g with
      cseq := g.cseq + 1, waiting := g.waiting ++ [{ reqid := d.reqid, kind := 3, reason := k, cseq := g.cseq + 1 }] }) head
    let failed : State := opDoneRec f d.reqid true head
    let asked (o : UpOp) (u : State) : State := updMem (fun m => { m with opCount := m.opCount + 1 }) (updPart p (fun x => { x with upops := x.upops ++ [o] }) u)
    let resident := (s.part p).versions.any (fun w => w.variant == d.variant.toNat && w.version == d.version.toNat && (w.resident || w.loading))
    let noSlot : Prop := slotsOffline head p = true ∨ ∀ a n, slotRun head p 0 = some (a, n) → n < d.ntok.toNat * 4
    (requestReason s f d 1 toks.isSome qrOk = none → exec (.prefill f d toks qrOk) s = .next entered)
    ∧ (requestReason s f d 2 toks.isSome qrOk = none → exec (.extend f d toks qrOk) s = .next entered)
    ∧ (∀ k, requestReason s f d 1 toks.isSome qrOk = some k → exec (.prefill f d toks qrOk) s = .next (rejected k))
    ∧ (∀ k, requestReason s f d 2 toks.isSome qrOk = some k → exec (.extend f d toks qrOk) s = .next (rejected k))
    ∧ (∀ k, sessReason s f d 3 = some k → exec (.release f d) s = .next (rejected k))
    ∧ (∀ k, sessReason s f d 4 = some k → exec (.migrate f d) s = .next (rejected k))
    ∧ (∀ z, sessReason s f d 3 = none → sessionOf (s.part p) d.session = some z →
      (z.busy = false → exec (.release f d) s = .next (opDoneRec f d.reqid false (releaseSession p z head)))
      ∧ (z.busy = true → exec (.release f d) s = .next (opDoneRec f d.reqid false (updPart p (fun x => { x with
          sessions := mapIf (fun y => y.handle == z.handle) (fun y => { y with relDue := true }) x.sessions }) head))))
    ∧ (sessReason s f d 4 = none → exec (.migrate f d) s = .next (asked
        { func := f.1, reqid := d.reqid, session := d.session, toNear := d.flags.getLsbD 0, seq := head.mem.opCount } head))
    ∧ (∀ k, formReason s f d 5 = some k → exec (.vload f d qrOk) s = .next (rejected k))
    ∧ (formReason s f d 5 = none →
      (d.ntok = 0 → exec (.vload f d qrOk) s = .next (rejected 3))
      ∧ (d.ntok ≠ 0 → exec (.vload f d false) s = .next (rejected 8))
      ∧ (d.ntok ≠ 0 → d.variant = 0 ∨ resident = true ∨ noSlot → exec (.vload f d true) s = .next failed)
      ∧ (d.ntok ≠ 0 → d.variant ≠ 0 → resident = false → ¬noSlot →
        (takeSlotFor p head = none → exec (.vload f d true) s = .next failed)
        ∧ ∀ k u, takeSlotFor p head = some (k, u) → exec (.vload f d true) s = .next (asked
          { vload := true, func := f.1, reqid := d.reqid, variant := d.variant.toNat, version := d.version.toNat, left := d.ntok.toNat * 4, seq := u.mem.opCount }
          (updPart p (fun x => { x with
            versions := x.versions.filter (fun v => !(v.variant == d.variant.toNat && v.version == d.version.toNat)) ++ [{
              variant := d.variant.toNat, version := d.version.toNat, slot := k, src := d.tokaddr, bytes := d.ntok.toNat * 4, loading := true }] }) u))))
    ∧ (∀ k, k < (s.part p).vslots → (∀ w ∈ (s.part p).versions, w.resident = true ∨ w.loading = true → w.slot ≠ k) →
      ∃ j, j ≤ k ∧ takeSlotFor p s = some (j, s) ∧ ∀ w ∈ (s.part p).versions, w.resident = true ∨ w.loading = true → w.slot ≠ j)

/-- R29, R167, R305, R306, R321, R322, R326: an accepted request is journaled in the partition's journal and its function's ring and is
PENDING, and a cancel held for it acts at once; with EN clear it waits; the next completion record goes to its slot of the host's ring once that slot is
released, waits until then, and is not written again where a replay's slot was released; a held cancel is answered after 1,024 ticks, unless a
request of its REQID waits for its acceptance; a cancelled attempt whose DATA is all acknowledged sends CANCELLED once, behind its opening, and
frees what it holds; a follower marks a cancelled entry of the
running task, in every powered core's table, or of a waiting one. -/
def Obligations.RequestRecords : Prop :=
  ∀ (f : FuncId) (p : PartId) (s : State),
    (∀ r, (s.part (partOfFunc s f)).reqs.find? (fun r => r.func == f.1 && r.state == .reading) = some r → s.pwr.state ≠ .p3 → s.pwr.state ≠ .p4 →
      let o := partOfFunc s f
      let id := r.desc.reqid
      let j : JRec := { rid := r.rid, func := f.1, reqid := id, type := 1, tick := s.tick.now }
      let s1 := journalRing f j (journalNear o j s)
      let n := (s1.part o).accSeq + 1
      let t : State := trace 4 o.1 [1, id.toNat] (updPart o (fun x => { x with reqs := mapIf (fun q => q.rid == r.rid) (fun q => { q with
          state := .pending, accTick := s1.tick.now, accSeq := n, jslots := q.jslots - 1 }) x.reqs }) (updPart o (fun x => { x with accSeq := n }) s1))
      ((s.func f).en = false → exec (.acceptance f id) s = .next s)
      ∧ ((s.func f).en = true → (∀ h ∈ (t.func f).heldCancels, h.reqid ≠ id) → exec (.acceptance f id) s = .next t)
      ∧ ((s.func f).en = true → (∃ h ∈ (t.func f).heldCancels, h.reqid = id) → exec (.acceptance f id) s
        = .next (cancelEvent f id (updFunc f (fun g => { g with heldCancels := g.heldCancels.filter (fun h => h.reqid != id) }) t))))
    ∧ (∀ j, (journalNear p j s).part p = { s.part p with journal := (s.part p).journal ++ [j] })
    ∧ (∀ r rest, (s.func f).en = true → s.pwr.state ≠ .p4 → (s.func f).waiting = r :: rest →
      let a := (s.func f).cqBase.toNat + (r.cseq - 1) % 2 ^ (s.func f).cqLog * 64
      (r.cseq ≤ (s.func f).cqRel → exec (.completionRecordWrite f) s = .next (updFunc f (fun g => { g with waiting := rest }) s))
      ∧ ((s.func f).cqRel + 2 ^ (s.func f).cqLog < r.cseq → exec (.completionRecordWrite f) s = .next s)
      ∧ ((s.func f).cqRel < r.cseq → r.cseq ≤ (s.func f).cqRel + 2 ^ (s.func f).cqLog →
        exec (.completionRecordWrite f) s = .next (vecEvent f (if f.1 = 0 then 7 else 0) (updFunc f (fun g => { g with
          waiting := rest, cqTail := Nat.max g.cqTail r.cseq }) (updMem (fun m => { m with host := wrBytes m.host a (crecBytes r) }) s)))
        ∧ (Memory.wf s.mem.host → ∀ b, b < a ∨ a + 64 ≤ b → rd8 (wrBytes s.mem.host a (crecBytes r)) b = rd8 s.mem.host b)))
    ∧ (∀ h ∈ (s.func f).heldCancels,
      let read := (s.part (partOfFunc s f)).reqs.any (fun r => r.func == f.1 && r.desc.reqid == h.reqid && r.state == .reading)
      (read = true → exec (.cancelHoldExpiry f h.reqid) s = .next s)
      ∧ (read = false → h.tick + 1024 ≤ s.tick.now → exec (.cancelHoldExpiry f h.reqid) s
        = .next (cancelAns f h.reqid true (updFunc f (fun g => { g with heldCancels := g.heldCancels.filter (fun q => q.reqid != h.reqid) }) s)))
      ∧ ((∀ q ∈ (s.func f).heldCancels, q.reqid = h.reqid → s.tick.now < q.tick + 1024) → exec (.cancelHoldExpiry f h.reqid) s = .next s))
    ∧ (∀ id r, reqFor (s.part p) cancelDue id = some r →
      let s1 := openAttempt p r s
      let q := reqNow s1 p r
      let s2 := updReq p q (fun q => { q with cancelSent := true }) (controlSeg p q 4 q.epoch [q.segSent] s1)
      exec (.cancelledSegment p id) s = .next (freeReq p (reqNow s2 p q) s2))
    ∧ (∀ r, cancelDue r = true ↔ r.cancelled = true ∧ r.cancelSent = false ∧ r.segAcked = r.segSent ∧ r.desc.path ≠ 3)
    ∧ (linksOn s = false → ∀ (n : W32) (i : Nat), exec (.cancelFlagMessage p n i) s = .next s)
    ∧ (linksOn s = true → ∀ (n : W32) (i : Nat),
      (∀ t, (s.part p).task = some t → t.num = n.toNat →
        let a := (t.ltab + 16 * i + 2) % 2 ^ 21
        ∃ u, exec (.cancelFlagMessage p n i) s = .next u ∧ (u.part p).task = some { t with entries := t.entries.modify i flagEntry }
          ∧ (∀ q, q ≠ p → u.part q = s.part q) ∧ u.mem = s.mem
          ∧ (∀ c, c ∉ coresOf s p ∨ groupOf c.1 ∉ groupsPowered s → u.core c = s.core c)
          ∧ ∀ c ∈ coresOf s p, groupOf c.1 ∈ groupsPowered s → Memory.wf (s.core c).ws →
            rd8 (u.core c).ws a = (rd8 (s.core c).ws a ||| 1) ∧ ∀ b, b ≠ a → rd8 (u.core c).ws b = rd8 (s.core c).ws b)
      ∧ ((∀ t, (s.part p).task = some t → t.num ≠ n.toNat) → exec (.cancelFlagMessage p n i) s = .next (updPart p (fun x => { x with
          queue := (mapIf (fun t => t.num == n.toNat) (fun t => { t with entries := t.entries.modify i flagEntry }) x.queue).filter
            (fun t => !t.entries.all (fun e => e.len.flags.getLsbD 0)) }) s)))

/-- R193, R249, R309, R312, R314-R316, R318, R323: admission forms the next task of the requests that pass; a task starts at its tick with every
core of its partition at its entry, its registers as the task-start record gives them; its end, which waits for its cores, its operations
and its segments, updates the keeper stores and draws each live request's first token, its logits going to LOGADDR; the next DATA
segment of an attempt goes out in order, behind the attempt's opening; and a request whose attempt has ended well, with its segments all
acknowledged, commits in one event with its COMMITTED record and then its FINAL. Where a task's lengths table, its arrays and its key staging
lie are free values (log 41, DESIGN CHOICE); one task at an admission tick is the model's reading (log 82, DEDUCED). -/
def Obligations.TaskLife : Prop :=
  ∀ (p : PartId) (cfg : PCfg) (s : State), (s.part p).section_ = some cfg →
    ((s.part p).state = .running → cfg.span ≠ 2 → (s.part p).admTick ≠ some s.tick.now → s.pwr.state ≠ .p3 → s.pwr.state ≠ .p4 →
      let s1 := updPart p (fun x => { x with admTick := some s.tick.now }) s
      let num := ((s1.part p).lastTask + 1) % 2 ^ 32
      let r := evalAll p cfg (nextStart s1 (s1.part p)) num (sortReqs ((s1.part p).reqs.filter (fun r => decide (r.state = .pending) && r.code.isNone))) s1
      (r.1.entries = [] → exec (.admission p) s = .next r.2)
      ∧ ∀ h, r.1.entries ≠ [] → fitShape cfg r.1.rows r.1.area = some h →
        exec (.admission p) s = .next (trace 4 p.1 [2, num] (sendTaskStart p
          { num, start := nextStart s1 (s1.part p), shape := h.idx, entries := r.1.entries, isolate := r.1.iso }
          (wakeIdle (updPart p (fun x => { x with lastTask := num, queue := x.queue ++
            [{ num, start := nextStart s1 (s1.part p), shape := h.idx, entries := r.1.entries, isolate := r.1.iso }] }) r.2)))))
    ∧ (∀ t ts, (s.part p).queue = t :: ts → (s.part p).task = none → (s.part p).state = .running → t.start ≤ s.tick.now →
      s.pwr.state = .p0 ∨ s.pwr.state = .p1 →
      ∃ u, exec (.taskStart p) s = .next u
        ∧ (let ltab := (Config.free s.freeCtr).toNat % 2 ^ 14 * 64
          let xtabs := ltab + 16 * t.entries.length
          ∃ at_, (u.part p).task = some { t with
              start := s.tick.now, started := true, ltab, cyc0 := s.pwr.cyc.toList, stage := (at_, stageBytes s p t), exports := t.entries.map (exportOf (s.part p)) }
            ∧ (∀ c ∈ coresOf s p, (u.core c).running = true ∧ (u.core c).hold = .none ∧ (u.core c).pc = (s.core c).entry
              ∧ (u.core c).getS 1 = BitVec.ofNat 64 t.num ∧ (u.core c).getS 2 = BitVec.ofNat 64 ltab
              ∧ (u.core c).getS 3 = BitVec.ofNat 64 t.entries.length ∧ (u.core c).getS 5 = BitVec.ofNat 64 xtabs ∧ (u.core c).getS 6 = at_
              ∧ (u.core c).getS 7 = BitVec.ofNat 64 (xtabs + 8 * t.entries.length)
              ∧ (u.core c).getS 8 = BitVec.ofNat 64 s.tick.now ∧ (u.core c).dstore = (s.core c).dstoreImg))
        ∧ ∀ c, c ∉ coresOf s p → u.core c = s.core c)
    ∧ (∀ t logits, (s.part p).task = some t →
      (taskOver s p t = true →
        let s1 := skimTask p t (meetCkpt p (endCkpt (s.part p) t) s)
        let t1 := ((s1.part p).task).getD t
        let live := (taskReqs (s1.part p) t1).filter (fun r => !r.cancelled && r.code.isNone)
        let dur := ((shapeOf (s.part p) t).map (fun h => h.dur)).getD 0
        let s2 := updPart p (fun x => { x with
          task := none, ratios := (ratio256 (taskPhase s1 t) (dur * 65536) :: x.ratios).take 64
          doneTasks := if live.isEmpty then x.doneTasks else x.doneTasks ++ [{ t1 with ended := true }] }) s1
        let s3 := forAll live (drawToken p logits) s2
        let lead := ((s1.part p).section_.map (fun cfg => cfg.lead)).getD default
        exec (.taskEnd p logits) s = .next (trace 4 p.1 [5, t1.num] (if t1.follower then sendM 0x13 lead [t1.num] (releaseDue p s3) else releaseDue p s3)))
      ∧ (taskOver s p t = false → exec (.taskEnd p logits) s = .next s))
    ∧ (∀ logits r s, let l := ((logits.find? (fun g => g.1 == r.func && g.2.1 == r.desc.reqid)).map (fun g => g.2.2)).getD []
      (r.desc.logaddr = 0 → drawToken p logits r s = updReq p r (fun q => { q with firstTok := some (firstToken l), endOk := true }) s)
      ∧ (r.desc.logaddr ≠ 0 → drawToken p logits r s = updReq p r (fun q => { q with firstTok := some (firstToken l), endOk := true })
          (updMem (fun m => { m with host := wrBytes m.host r.desc.logaddr.toNat (l.flatMap (fun w => leBytes 4 w.toNat)) }) s)))
    ∧ (∀ r m layer head tile half u id data t, reqFor (s.part p) (sendsMore s) id = some r → s.img.models.find? (fun m => m.idx == r.desc.model.toNat) = some m →
      (s.part p).task = some t → t.live = true →
      let s1 := openAttempt p r (pumpAll p s)
      let q := reqNow s1 p r
      segAt m q q.segDone = (layer, head, tile, half) →
      let pay := segPayload s1 p m q layer head tile half data
      let pos0 := Nat.max (deliveredOf m q layer head).1 (128 * tile)
      let sg : Seg := { type := 1, fmt := if (keeperHeads m layer).contains head then 3 else (extFmt m.form).toNat, part := half, seq := q.seq
                        reqid := q.desc.reqid, epoch := q.epoch, layer, head0 := head, headn := 1, pos0
                        posn := Nat.min (deliveredOf m q layer head).2 (128 * tile + 128) - pos0, paylen := pay.length
                        pcrc := if pay.isEmpty then 0 else crc32c pay }
      (sendSegment p q sg pay s1 = (true, u) → exec (.segmentHandOff p id data) s = .next (updReq p q (fun q => { q with
        segDone := q.segDone + 1, segSent := q.segSent + 1, seq := q.seq + 1, offset := q.offset + 64 + pay.length }) u))
      ∧ (sendSegment p q sg pay s1 = (false, u) → exec (.segmentHandOff p id data) s = .next u))
    ∧ (∀ r m id, reqFor (s.part p) (commitReady s p) id = some r → s.img.models.find? (fun m => m.idx == r.desc.model.toNat) = some m →
      let s1 := settleMemory p m r s
      let s2 := attemptRecord p (reqNow s1 p r) s1
      let q := reqNow s2 p r
      let s3 := journalNear p { rid := q.rid, func := q.func, reqid := q.desc.reqid, type := 4, epoch := q.epoch, ftok := q.firstTok.getD 0, tick := s2.tick.now } s2
      let s4 := controlSeg p q 2 q.epoch [(q.firstTok.getD 0).toNat, segTotal m r, q.length] s3
      let s5 := updReq p q (fun q => { q with state := .committed, code := some 0, finTick := s4.tick.now }) s4
      exec (.commit p id) s = .next (pruneDone p (releaseAll p q.func (journalFinal p (reqNow s5 p q) s5))))
    ∧ (∀ r m, s.img.models.find? (fun m => m.idx == r.desc.model.toNat) = some m → (commitReady s p r = true ↔
      r.state = .running ∧ r.cancelled = false ∧ r.code = none ∧ r.endOk = true ∧ spanReady s p r = true ∧ tableQuiet s p r = true
      ∧ r.segSent = segTotal m r ∧ (r.desc.path = 3 ∨ segTotal m r ≤ r.segAcked)))

/-- R197, R201, R202, R211, R319: an edit of a table not yet edited in the tick writes the other copy, of at most 64 entries, flips CUR and raises
GEN by 1; a later one in the same tick waits. A freed private extent's memory is reclaimed once every snapshot held is past its
generation, and not before; that of a prefix region once no node, table or snapshot refers to it. A version loaded in upkeep is resident,
becomes current from the next tick, and its operation is answered. -/
def Obligations.ExtentWork : Prop :=
  ∀ (p : PartId) (xt : W32) (e : Edit) (s : State),
    (∀ t, xtAt (s.part p) xt.toNat = some t → t.editTick ≠ some s.tick.now →
      ∃ u t', exec (.extentEdit p xt e) s = .next u ∧ xtAt (u.part p) xt.toNat = some t'
      ∧ t'.cur = !t.cur ∧ t'.gen = (t.gen + 1) % 2 ^ 32 ∧ t'.editTick = some s.tick.now
      ∧ t'.current = ((editList t.current e).map (fun x => if t.current.contains x then x
          else { x with gen := BitVec.ofNat 32 ((t.gen + 1) % 2 ^ 32) })).take 64
      ∧ (if t.cur then t'.copyB = t.copyB else t'.copyA = t.copyA))
    ∧ (∀ t, xtAt (s.part p) xt.toNat = some t → t.editTick = some s.tick.now →
      exec (.extentEdit p xt e) s = .next (updTable p xt.toNat (fun q => { q with queued := q.queued ++ [e] }) s))
    ∧ (∀ i x, (s.part p).freed[i]? = some x →
      (mayReclaim s p x = true → exec (.extentReclaim p i) s = .next (updPart p (fun y => { y with
        freed := y.freed.eraseIdx i, freeNear := if isFar x.ext.base.toNat then y.freeNear else y.freeNear + x.bytes }) s))
      ∧ (mayReclaim s p x = false → exec (.extentReclaim p i) s = .next s)
      ∧ (bit x.ext.flags.toNat 0 = false → mayReclaim s p x = snapsPast s p x.xtab x.freegen)
      ∧ (bit x.ext.flags.toNat 0 = true → mayReclaim s p x = regionFree s x.ext.region.toNat))
    ∧ (∀ o rest, (s.part p).upops = o :: rest → o.vload = true →
      let loaded : State := updPart p (fun x => { x with
        upops := rest
        variants := if x.variants.contains o.variant then x.variants else x.variants ++ [o.variant]
        versions := mapIf (fun w => w.variant == o.variant && w.version == o.version) (fun w => { w with
          resident := true, loading := false, curDue := !o.silent }) x.versions }) s
      (o.left = 0 → o.silent = false → exec (.vloadComplete p) s = .next (opDoneRec (fid o.func) o.reqid false loaded))
      ∧ (o.left = 0 → o.silent = true → exec (.vloadComplete p) s = .next loaded)
      ∧ (0 < o.left → exec (.vloadComplete p) s = .next s))

/-! ### Memory tiers (R343-R349, R370, R464) -/

/-- R334, R343-R349, R370, R464: an upkeep window acts once in a tick and within its phases; it runs its actions in order, and with nothing to
retrain, nothing to move and nothing found it only moves the port's scrub pointer; an owner's copy is queued or rejected with the first
reason, and another master's with reason 7; the copy in front ends with all its bytes written, or at its first bad line, with the lines before
it written and reason 6, and while a partition is active not before the windows have moved it that far; a reload mark clears where its bit is
written, and a line that reads back bad is handled anew; BAR4 reads and writes what the function's space holds, answers a bad read with poison
and one beyond the space as unsupported, drops and counts a write that may not be made, and loses one that its CRC gives up. The order of the
rejection reasons is the model's reading (log 87, DEDUCED). -/
def Obligations.MemoryWork : Prop :=
  ∀ (m : Master) (f : FuncId) (off bits : W64) (i : BitVec 6) (n len sb rtp : Nat) (data : List Byte) (s : State),
    (∀ (port : Fin 5) (start : Nat) (ok : Bool) (found : List (W64 × AccessResult)), s.img.dev.upkeep.find? (fun u => u.1 == port.1) = some (port.1, start, len, sb, rtp) →
      let due : Prop := memOn s = true ∧ start ≤ s.tick.phase ∧ s.tick.phase < start + len ∧ s.mem.winTick[port] ≠ some s.tick.now
      let u := updMem (fun x => { x with winTick := x.winTick.set port.1 (some s.tick.now) port.2 }) s
      (due → exec (.upkeepWindow port ok found) s
        = .next (upkeepMoves port.1 found (upkeepScrub port sb found (if port = 0 then upkeepRetrain rtp ok u else u))))
      ∧ (due → (∀ p, (s.part p).upops = []) → s.mem.cpQueue = [] → rtp = 0 → exec (.upkeepWindow port ok []) s = .next (if port = 0
          then updMem (fun x => { x with scrub := (x.scrub + sb) % Nat.max 1 (nearCap s) }) u
          else updCxl (Fin.ofNat 4 (port.1 - 1)) (fun x => { x with scrub := (x.scrub + sb) % Nat.max 1 x.cap }) u))
      ∧ (¬due → exec (.upkeepWindow port ok found) s = .next s))
    ∧ (∀ c rest port, s.mem.cpQueue = c :: rest → partsActive s = true → copyTouches s c port = true → ∃ n, c.moved ≤ n ∧ n ≤ Nat.max c.moved (64 * goodLines s c none)
      ∧ (n - c.moved) % 64 = 0 ∧ (upkeepCopy port [] s).mem.cpQueue = { c with moved := n } :: rest)
    ∧ (∀ sh dh,
      let c : Copy := { src := s.mem.cpSrc, dst := s.mem.cpDst, len := s.mem.cpLen.toNat, srcHost := sh, dstHost := dh }
      (OwnerActs m s → copyReason s c = none → exec (.memCpgo m sh dh) s = .next (updMem (fun x => { x with
        cpQueue := x.cpQueue ++ [{ c with seq := x.opCount }], opCount := x.opCount + 1 }) s))
      ∧ (∀ k, OwnerActs m s → copyReason s c = some k → exec (.memCpgo m sh dh) s = .next (updMem (fun x => { x with cpErr := true, cpReason := k }) s))
      ∧ (arrives s m = true → isOwner s m = false → exec (.memCpgo m sh dh) s
        = .next (updMem (fun x => { x with cpErr := true, cpReason := 7 }) (ignoreWrite m 0xA0118 1 s))))
    ∧ (∀ c rest bad, s.mem.cpQueue = c :: rest → memOn s = true →
      let k := 64 * goodLines s c bad
      let u := updMem (fun x => { x with cpQueue := rest }) (copyTo c k s)
      let free : Prop := partsActive s = false ∨ k ≤ c.moved
      (free → k = c.len → exec (.ownerCopyComplete bad) s = .next (vecEvent 0 2 (updMem (fun x => { x with cpDone := x.cpDone + 1 }) u)))
      ∧ (free → k ≠ c.len → exec (.ownerCopyComplete bad) s = .next (vecEvent 0 2 (updMem (fun x => { x with cpErr := true, cpReason := 6 })
          (judgeRead (c.src.toNat + k) 64 ((bad.map Prod.snd).getD .ok) { found := 4 } u).2)))
      ∧ (¬free → exec (.ownerCopyComplete bad) s = .next s))
    ∧ (OwnerActs m s → ∀ (far : Bool) (again : List Nat),
      let marks := if far then s.mem.freload else s.mem.reload
      let named (r : Nat) : Bool := r / 64 == i.toNat && bits.getLsbD (r % 64)
      let left := marks.filter (fun r => !named r)
      let cleared := updMem (fun x => { x with reload := if far then x.reload else left, freload := if far then left else x.freload }) s
      let bad := again.filter (fun a => isFar a == far && s.mem.regions.any (fun r => inRegion r a && marks.contains r.idx && named r.idx))
      exec (if far then .memFreload m i bits again else .memReload m i bits again) s
        = .next (forAll bad (fun a s => (judgeRead a 64 (.uncorrectable 1) { found := 2 } s).2) cleared)
      ∧ exec (if far then .memFreload m i bits [] else .memReload m i bits []) s = .next cleared)
    ∧ (∀ l r, bar4Run s f off.toNat n = some l → memOn s = true →
      let read := judgeRead (l.headD (0, false)).1 n r { found := 3 } (chargeD 1 n s)
      (read.1 = true → (∀ a ∈ l, onFailed read.2 a.1 = false) →
        exec (.bar4Read f off n r) s = .next (emit (.bar4 f.1 (l.map (fun a => bar4Byte read.2 a.1)) false) read.2))
      ∧ (read.1 = false ∨ (∃ a ∈ l, onFailed read.2 a.1 = true) → exec (.bar4Read f off n r) s = .next (emit (.bar4 f.1 [] true) read.2))
      ∧ (r = .ok → runFailed s (l.headD (0, false)).1 n = false → read = (true, chargeD 1 n s)))
    ∧ (∀ r, bar4Run s f off.toNat n = none ∨ memOn s = false → exec (.bar4Read f off n r) s = .next (emit (.unsupported f.1) s))
    ∧ (f ≠ 0 ∨ isOwner s .pf0 = true →
      ∀ r, (∀ l, bar4Run s f off.toNat data.length = some l → memOn s = true → (∀ a ∈ l, a.2 = true) →
        let a := (l.headD (0, false)).1
        (crcFails r a = false → exec (.bar4Write f off ⟨data, r⟩) s = .next (forAll (l.zip data) (fun x => tierWrite x.1.1 [x.2]) (chargeD 1 data.length s)))
        ∧ (crcFails r a = true → exec (.bar4Write f off ⟨data, r⟩) s = .next (
          let j := judgeRead a data.length r { found := 3 } (chargeD 1 data.length s)
          if j.1 then forAll (l.zip data) (fun x => tierWrite x.1.1 [x.2]) j.2 else j.2)))
      ∧ (bar4Run s f off.toNat data.length = none ∨ memOn s = false ∨ (∃ l, bar4Run s f off.toNat data.length = some l ∧ ∃ a ∈ l, a.2 = false) →
        exec (.bar4Write f off ⟨data, r⟩) s = .next (ignoreWrite (masterOf f) off.toNat 2 s)))
    ∧ (isOwner s .pf0 = false → ∀ r, exec (.bar4Write 0 off ⟨data, r⟩) s = .next (ignoreWrite .pf0 off.toNat 1 s))

/-! ### The tick (R353-R367, R408) -/

/-- R355, R356, R358-R362: an edge in its window counts as good and, in LOCKED, is repeated on TICK_OUT where that is enabled; the fourth
good edge ends HOLDOVER; in TIMELOST a first edge begins a run, which a second one after a good interval and good ones after it lengthen; an
edge outside its window, or a second one in a window, is ignored. A missed edge is counted and ends the run; it puts LOCKED into HOLDOVER,
and the 256th one HOLDOVER into TIMELOST. A number from the selected source, the owner or a tick message on a port in service, is held for
the coming boundary and a message's is relayed; a further one is discarded and counted, and one from the other source has no effect. Outside
TIMELOST a held number is compared with the count that the boundary will carry. Whether two edges fall in one window is told by the
interval operand (log 91, DEDUCED). -/
def Obligations.TickInput : Prop :=
  ∀ (m : Master) (port : PortId) (n : W64) (off : Int) (iv : Nat) (s : State),
    let k := s.tick
    let near : Prop := off.natAbs * 256 ≤ k.period
    let good (s : State) : State := updTick (fun k => { k with good := Nat.min 65535 (k.good + 1), miss := 0 }) s
    let missed : State := updTick (fun k => { k with
      good := 0, firstOk := false, miss := Nat.min 65535 (k.miss + 1), tickmiss := satAdd 64 k.tickmiss 1 }) s
    (k.period < iv * 128 →
      (k.state = .locked → near → exec (.tickEdge off iv) s = .next (if k.outEn && !s.img.quiet then emit (.tickOut false) (good s) else good s))
      ∧ (k.state = .holdover → near → k.good < 3 → exec (.tickEdge off iv) s = .next (good s))
      ∧ (k.state = .holdover → near → 3 ≤ k.good → ∃ t, exec (.tickEdge off iv) s = .next t ∧ t.tick.state = .locked
        ∧ t.tick.slew = off.natAbs * 65536 / Nat.max 1 k.period)
      ∧ (k.state ≠ .timelost → ¬near → exec (.tickEdge off iv) s = .next s)
      ∧ (k.state = .timelost →
        let interval : Prop := (if iv ≤ k.period then k.period - iv else iv - k.period) * 1000 ≤ k.period
        (k.good = 0 → exec (.tickEdge off iv) s = .next (good (updTick (fun k => { k with firstOk := false }) s)))
        ∧ (k.good = 1 → interval → exec (.tickEdge off iv) s = .next (good (updTick (fun k => { k with firstOk := true }) s)))
        ∧ (k.good = 1 → ¬interval → exec (.tickEdge off iv) s = .next s)
        ∧ (2 ≤ k.good → near → exec (.tickEdge off iv) s = .next (good s))
        ∧ (2 ≤ k.good → ¬near → exec (.tickEdge off iv) s = .next s)))
    ∧ (iv * 128 ≤ k.period → exec (.tickEdge off iv) s = .next s)
    ∧ (k.state = .locked → ∃ t, exec .tickMiss s = .next t ∧ t.tick.state = .holdover ∧ t.tick.good = 0)
    ∧ (k.state = .holdover → 255 ≤ k.miss → ∃ t, exec .tickMiss s = .next t ∧ t.tick.state = .timelost)
    ∧ (k.state = .holdover → k.miss < 255 → exec .tickMiss s = .next missed)
    ∧ (k.state = .timelost → exec .tickMiss s = .next missed)
    ∧ (OwnerActs m s → k.srcM = false → exec (.tikNext m n) s = .next (takeNumber n s))
    ∧ (OwnerActs m s → k.srcM = true → exec (.tikNext m n) s = .next (ignoreWrite m 0x30010 2 s))
    ∧ (k.srcM = true → (s.port port).state = .up → k.held = none → exec (.tickMessage port n) s = .next (relayTick n (takeNumber n s)))
    ∧ (∀ h, k.srcM = true → (s.port port).state = .up → k.held = some h → exec (.tickMessage port n) s = .next (takeNumber n s))
    ∧ (k.srcM = false ∨ (s.port port).state ≠ .up → exec (.tickMessage port n) s = .next s)
    ∧ (∀ h, k.held = some h → LogRoom s → takeNumber n s
        = logged (recordNow s 13 2 0xFF 0xFFFF 0xFFFF [1, timeCode k.state, n.toNat, k.now])
            (updTick (fun k => { k with tickdisc := satAdd 64 k.tickdisc 1 }) s))
    ∧ (k.held = none →
      let diff : Int := (n.toNat : Int) - ((k.now + 1) % 2 ^ 64 : Nat)
      (takeNumber n s).tick.held = some n.toNat
      ∧ (k.state = .timelost → takeNumber n s = updTick (fun k => { k with held := some n.toNat }) s)
      ∧ (k.state ≠ .timelost → diff = 0 → takeNumber n s = updTick (fun k => { k with held := some n.toNat, diffs := 0 }) s)
      ∧ (k.state ≠ .timelost → diff ≠ 0 → LogRoom s → takeNumber n s
        = logged (recordNow s 13 2 0xFF 0xFFFF 0xFFFF [2, timeCode k.state, n.toNat, k.now]) (updTick (fun k => { k with
            held := some n.toNat, offset := diff, diffs := if 0 < k.diffs ∧ k.offset = diff then k.diffs + 1 else 1 }) s)))

/-- R354, R365, R367: the owner sets the period, within its range and while every partition is unconfigured, and time is lost; any other value
or time is ignored and counted. κ, measured every 1,024 ticks, is clamped to 0.900-1.100 and acts from the next boundary; where nothing was
charged it is a free value of that range (log 92, DESIGN CHOICE, which also keeps it in 1/1,000). A budget value that passes the checks waits
for the boundary after next, and one that fails sets BREJ, as does one for a partition without a section. -/
def Obligations.TickSettings : Prop :=
  ∀ (m : Master) (p : PartId) (i : Fin 7) (v : W64) (num den : Nat) (s : State),
    (OwnerActs m s → allPartsIn s (fun x => decide (x = .unconfigured)) = true → 10000 ≤ v.toNat % 2 ^ 32 → v.toNat % 2 ^ 32 ≤ 10000000 →
      ∃ t, exec (.tikPeriod m v) s = .next t ∧ t.tick.period = v.toNat % 2 ^ 32 ∧ t.tick.state = .timelost ∧ t.tick.now = s.tick.now)
    ∧ (OwnerActs m s → allPartsIn s (fun x => decide (x = .unconfigured)) = false ∨ v.toNat % 2 ^ 32 < 10000 ∨ 10000000 < v.toNat % 2 ^ 32 →
      exec (.tikPeriod m v) s = .next (ignoreWrite m 0x30000 2 s))
    ∧ (s.tick.sinceStart ≠ 0 → s.tick.sinceStart % 1024 = 0 → den ≠ 0 → exec (.kappaUpdate num den) s
      = .next (updTick (fun k => { k with kappaNext := some (Nat.max 900 (Nat.min 1100 (1000 * num / den))) }) s))
    ∧ (s.tick.sinceStart ≠ 0 → s.tick.sinceStart % 1024 = 0 → ∃ k, 900 ≤ k ∧ k ≤ 1100 ∧ exec (.kappaUpdate num 0) s
      = .next (updTick (fun q => { q with kappaNext := some k }) { s with freeCtr := s.freeCtr + 1 }))
    ∧ (s.tick.sinceStart = 0 ∨ s.tick.sinceStart % 1024 ≠ 0 → exec (.kappaUpdate num den) s = .next s)
    ∧ (∀ cfg, OwnerActs m s → (s.part p).section_ = some cfg → (s.part p).state ≠ .unconfigured →
      let w := (s.part p).budgets.set i.1 { (s.part p).budgets[i] with written := v.toNat, pending := some (v.toNat, 2) } i.2
      let fits := ownBudgetsFit s.img.dev s.img.disabled cfg p.1 s.tick.period (dueBudgets w) && sumsFit s.img.dev s.tick.period (dueBudgets w :: otherBudgets s p)
      exec (.budgetWrite m p i v) s = .next (if fits then updPart p (fun x => { x with budgets := w }) s else prtError p (fun x => { x with brej := true }) s))
    ∧ (OwnerActs m s → (s.part p).section_ = none ∨ (s.part p).state = .unconfigured →
      exec (.budgetWrite m p i v) s = .next (prtError p (fun x => { x with brej := true }) s))

/-- R360, R364, R367, R408: what a boundary does, in order. It first sets the tick number (the next one, or in TIMELOST the one held for it)
and the phase 0; its refill sets every budget of a configured partition to the value in force, ENERGY scaled by φ less its static charge. -/
def Obligations.TickBoundaryOrder : Prop :=
  ∀ (env : BoundaryEnv) (s : State),
    (aghornOn s = true →
      let s1 := sweepAll (forAll allParts agePart (boundaryTime s))
      let s2 := boundaryPower env (boundarySecurity (boundaryOwn s1))
      let s3 := boundaryBudgets (boundaryParts (boundaryService s2))
      exec (.tickBoundary env) s = .next (boundaryLog (whenS (memOn s3) (forAll allParts reportStates) (boundaryAdmission s3))))
    ∧ (aghornOn s = false → exec (.tickBoundary env) s = .next s)
    ∧ (boundaryTime s).tick.phase = 0 ∧ (boundaryTime s).tick.held = none
    ∧ (s.tick.state ≠ .timelost ∨ s.tick.held = none → (boundaryTime s).tick.now = (s.tick.now + 1) % 2 ^ 64)
    ∧ (∀ n, s.tick.state = .timelost → s.tick.held = some n → (boundaryTime s).tick.now = n % 2 ^ 64)
    ∧ (∀ (p : PartId) (k : Fin 7), (s.part p).state ≠ .unconfigured →
      let b := (s.part p).budgets[k]
      let force := match b.pending with
        | some (v, n) => if n ≤ 1 then v else b.inForce
        | none => b.inForce
      (((boundaryBudgets s).part p).budgets[k]).inForce = force
      ∧ (k ≠ 6 → (((boundaryBudgets s).part p).budgets[k]).counter = force)
      ∧ (k = 6 → (((boundaryBudgets s).part p).budgets[k]).counter
          = force * phi s.pwr / 256 - staticCharge (s.tick.kappaNext.getD s.tick.kappa) (groupCount s p)))

/-! ### Partitions and ownership (R369-R378, R408) -/

/-- R28, R371, R372, R412, R416, R417: the operations of a partition, each in the states that allow it, done by the owner. A load, of the
loaded FULL image's section or of a PART image of PF0's, powers the section's cores; START runs a halted partition; DRAIN drains a running
one; RESET aborts the running task uncounted and loads the section again, to the state that R372 gives; UNLOAD leaves a halted partition
unconfigured. In any other state, in P3, P4, S2 or D3 where that bars it, or with no section to load, the operation is rejected and sets
OPREJ. A loading that has its section and its ports ends in running or halted, and any other waits. That S2 ends a loading in halted is log
148 (DEDUCED), and a load from the FULL image checks feasibility alone (log 94, DEDUCED). -/
def Obligations.PartitionOperations : Prop :=
  ∀ (m : Master) (p : PartId) (s : State),
    let x := s.part p
    let off := prtOff p 8
    let awake : Prop := s.pwr.state ≠ .p3 ∧ s.pwr.state ≠ .p4
    let mayLoad : Prop := x.state = .unconfigured ∧ awake ∧ s.sec.state ≠ 2 ∧ s.sec.d3 = false
    let loading (im : Image) (l : Loading) : State := updImg (fun g => { g with loads := g.loads ++ [l] }) (setPState p .loading
      (updPart p (fun x => { x with loadCores := ((partSec im p.1).map (fun y => coreSet (ifld (rec0 y 1) 8 16))).getD [] }) s))
    (OwnerActs m s →
      (mayLoad →
        (∀ im sec, s.img.loaded = some im → partSec im p.1 = some sec →
          exec (.load m p none) s = .next (loading im { image := im, src := s.img.lsrc, part := some p.1, fromFull := true }))
        ∧ (s.img.loaded = none ∨ (∃ im, s.img.loaded = some im ∧ partSec im p.1 = none) → exec (.load m p none) s = .next (opReject p s))
        ∧ (∀ im, m = .pf0 → exec (.load m p (some im)) s = .next (loading im { image := im, src := bits s.img.src.toNat 1 0, part := some p.1 }))
        ∧ (∀ im, m ≠ .pf0 → exec (.load m p (some im)) s = .next (ignoreWrite m off 2 s)))
      ∧ (¬mayLoad → ∀ im, exec (.load m p im) s = .next (opReject p s))
      ∧ (x.state = .halted → awake → s.sec.state ≠ 2 →
        exec (.start m p) s = .next (setPState p .running (updPart p (fun x => { x with ratios := [], measured := 0 }) s)))
      ∧ (x.state ≠ .halted ∨ ¬awake ∨ s.sec.state = 2 → exec (.start m p) s = .next (opReject p s))
      ∧ (x.state = .running → exec (.drain m p) s = .next (setPState p .draining s))
      ∧ (x.state ≠ .running → exec (.drain m p) s = .next (opReject p s))
      ∧ (∀ im sec, x.state ≠ .unconfigured → x.state ≠ .loading → awake → s.img.loaded = some im → partSec im p.1 = some sec →
        let back : PState := if x.state = .running ∧ s.sec.state ≠ 2 then .running else .halted
        exec (.reset m p) s = .next (beginLoading p im sec true true back (resetAbort p s))
        ∧ (x.task = none → exec (.reset m p) s = .next (beginLoading p im sec true true back s)))
      ∧ (x.state = .unconfigured ∨ x.state = .loading ∨ ¬awake ∨ s.img.loaded = none ∨ (∃ im, s.img.loaded = some im ∧ partSec im p.1 = none) →
        exec (.reset m p) s = .next (opReject p s))
      ∧ (x.state = .halted → (∀ r ∈ x.reqs, accepted r = true → r.finalJ = true) → exec (.unload m p) s = .next (unconfigure p s))
      ∧ (x.state ≠ .halted ∨ (∃ r ∈ x.reqs, accepted r = true ∧ r.finalJ = false) → exec (.unload m p) s = .next (opReject p s)))
    ∧ (let loaded : Prop := x.state = .loading ∧ (∀ l ∈ s.img.loads, l.part ≠ some p.1) ∧ ∃ cfg, x.section_ = some cfg ∧ portsServe s cfg = true
      (loaded → exec (.loadingComplete p) s = .next (setPState p (if x.back = .running ∧ s.sec.state ≠ 2 then .running else .halted) s))
      ∧ (¬loaded → exec (.loadingComplete p) s = .next s))

/-- R373-R377, R426: a claim with the authorisation it needs opens a window where the device is unowned, joins an open one, stands where it is
owned, and in a handover is the named successor's first or stands; one without is ignored and counted, as is a VF's. The window's close
gives the device to the leading claim; the owner's nonce renews the lease; a release leaves the device unowned, or in handover to the
successor it names; a lapsed lease or a handover that nobody takes leaves it unowned, and a standing claim then opens a window at once.
What is not due changes nothing. What happens in the cases that R373-R377 leave out is log 100 (DEDUCED). -/
def Obligations.OwnershipProtocol : Prop :=
  ∀ (m : Master) (prio : Byte) (nonce : W32) (sigOk : Bool) (s : State),
    let c : Claim := { m, prio := prio.toNat, nonce := nonce.toNat }
    let last (l : List Claim) : List Claim := l.filter (fun d => d.m != m) ++ [c]
    let o := s.own
    (arrives s m = true → (∀ f, m ≠ .vf f) →
      (claimOk s m sigOk = true → ∃ t, exec (.ownClaim m prio nonce sigOk) s = .next t ∧ t = { s with own := t.own, funcs := t.funcs }
        ∧ (o.state = .unowned → t.own = { o with state := .window, claims := [c], windowAge := 0 })
        ∧ (o.state = .window → t.own = { o with claims := last o.claims })
        ∧ (o.state = .owned → t.own = { o with standing := last o.standing })
        ∧ (o.state = .handover → o.succ = some m → o.taking = none → t.own = { o with taking := some c })
        ∧ (o.state = .handover → o.succ ≠ some m ∨ o.taking ≠ none → t.own = { o with standing := last o.standing }))
      ∧ (claimOk s m sigOk = false → exec (.ownClaim m prio nonce sigOk) s = .next (ignoreWrite m 0x10018 3 s)))
    ∧ (∀ f, arrives s (.vf f) = true → exec (.ownClaim (.vf f) prio nonce sigOk) s = .next (ignoreWrite (.vf f) 0x10018 1 s))
    ∧ (∀ w, o.state = .window → 16 ≤ o.windowAge → leading o.claims = some w →
      ∃ t, exec .claimWindowClose s = .next t ∧ t = { s with own := t.own, funcs := t.funcs }
        ∧ t.own = { o with state := .owned, owner := some w, lease := 0, claims := [], succ := none, taking := none })
    ∧ (OwnerActs m s → o.owner.map Claim.nonce = some nonce.toNat → exec (.ownRenew m nonce) s = .next (updOwn (fun o => { o with lease := 0 }) s))
    ∧ (OwnerActs m s → o.owner.map Claim.nonce ≠ some nonce.toNat → exec (.ownRenew m nonce) s = .next s)
    ∧ (OwnerActs m s → ∀ x, (∀ f, x ≠ .vf f) → ∃ t, exec (.ownRelease m (some x)) s = .next t ∧ t = { s with own := t.own, funcs := t.funcs }
        ∧ t.own = { o with state := .handover, owner := none, lease := 0, succ := some x, taking := none, handAge := 0, handTick := s.tick.now })
    ∧ (∀ i, (i = .ownRelease m none ∨ ∃ f, i = .ownRelease m (some (.vf f))) ∧ OwnerActs m s ∨ i = .leaseLapse ∧ o.state = .owned ∧ 1024 ≤ o.lease
        ∨ i = .handoverExpiry ∧ o.state = .handover ∧ 16 ≤ o.handAge ∧ o.taking = none
        ∨ i = .claimWindowClose ∧ o.state = .window ∧ 16 ≤ o.windowAge ∧ leading o.claims = none →
      ∃ t, exec i s = .next t ∧ t = { s with own := t.own, funcs := t.funcs }
        ∧ (o.standing = [] → t.own = { o with state := .unowned, owner := none, lease := 0, succ := none, taking := none, claims := [] })
        ∧ (o.standing ≠ [] → t.own = { o with
            state := .window, owner := none, lease := 0, succ := none, taking := none, claims := o.standing, standing := [], windowAge := 0 }))
    ∧ (o.state ≠ .window ∨ o.windowAge < 16 → exec .claimWindowClose s = .next s)
    ∧ (o.state ≠ .owned ∨ o.lease < 1024 → exec .leaseLapse s = .next s)
    ∧ (o.state ≠ .handover ∨ o.handAge < 16 ∨ o.taking ≠ none → exec .handoverExpiry s = .next s)

/-- R373: an operation of the owner that any other master asks for is ignored and counted for that master's kind, whatever it asks for. -/
def Obligations.OthersIgnored : Prop :=
  ∀ (i : Instr) (m : Master) (off : Nat) (s : State), ownerCommand i = some (m, off) → arrives s m = true → isOwner s m = false →
    exec i s = .next (ignoreWrite m off 1 s)

/-- R375: the claim that leads a window is one of its claims, and no other claim of the window beats it. -/
def Obligations.ClaimElection : Prop :=
  ∀ (l : List Claim) (c : Claim), leading l = some c → c ∈ l ∧ ∀ d ∈ l, beats d c = false

/-! ### Images, flash and certificates (R33, R379-R381, R393-R397, R475) -/

/-- R31-R33, R379-R381, R393-R397, R425: the owner's image operations, each with the rejections that bar it, in order. A load is queued;
verified at its end, it is installed or leaves its outcome record alone, and a partition's load begins its loading or leaves it
unconfigured. A slot write first makes the slot uncommitted and ends with the new commit record; the boot slot and the trims are set. A
valid certificate with a higher CSEQ is written to the copy that is not in use, which is erased first; with none in use the copy is a free
choice; one that fails a check is rejected and nothing is written. Which states and pins bar which operation is partly the model's reading
(log 102, DEDUCED), and images are operands (log 52, DESIGN CHOICE). -/
def Obligations.ImageOperations : Prop :=
  ∀ (m : Master) (im : Image) (x : Cert) (b : Bool) (s : State),
    let i : Image := { im with available := Nat.min im.available s.img.len.toNat }
    let write (b : Bool) : Instr := if b then .writeSlotB m im else .writeSlotA m im
    let bad : Prop := s.img.len.toNat < 2676 ∨ 32768 < s.img.len.toNat ∨ certValid s x = false
      ∨ ∃ c u, s.img.certUse = some c ∧ certCopy s.img c = some u ∧ certSeq x ≤ certSeq u
    let written (c : Bool) (s : State) : State := updImg (fun g => { g with
      cert0 := if c then g.cert0 else none, cert1 := if c then none else g.cert1, jobs := g.jobs ++ [.cert c x] }) s
    (OwnerActs m s →
      (2 ≤ srcSel s → m ≠ .pf0 → exec (.fullLoad m im) s = .next (ignoreWrite m 0x20000 2 s))
      ∧ (srcSel s < 2 ∨ m = .pf0 →
        (allUnconfigured s = false → exec (.fullLoad m im) s = .next (imgReject 1 s))
        ∧ (allUnconfigured s = true → s.sec.state = 2 → exec (.fullLoad m im) s = .next (imgReject 6 s))
        ∧ (allUnconfigured s = true → s.sec.state ≠ 2 → exec (.fullLoad m im) s = .next (updImg (fun g => { g with
            loads := g.loads ++ [{ image := i, src := srcSel s }] }) s)))
      ∧ (srcSel s < 2 → exec (write b) s = .next (imgReject 5 s) ∧ exec (.writeGradeCertificate m x) s = .next (imgReject 5 s))
      ∧ (2 ≤ srcSel s → s.pwr.flashWp = true → exec (write b) s = .next (imgReject 3 s) ∧ exec (.writeGradeCertificate m x) s = .next (imgReject 3 s))
      ∧ (2 ≤ srcSel s → s.pwr.flashWp = false →
        (s.sec.state = 2 → exec (write b) s = .next (imgReject 6 s))
        ∧ (s.sec.state ≠ 2 → slotRead s b = true → exec (write b) s = .next (imgReject 2 s))
        ∧ (s.sec.state ≠ 2 → slotRead s b = false → 67108864 < s.img.len.toNat → exec (write b) s = .next (imgReject 4 s))
        ∧ (s.sec.state ≠ 2 → slotRead s b = false → s.img.len.toNat ≤ 67108864 → exec (write b) s = .next (updImg (fun g => { g with
            slotA := if b then g.slotA else { image := some i, gen := g.slotA.gen + 1, commit := none }
            slotB := if b then { image := some i, gen := g.slotB.gen + 1, commit := none } else g.slotB
            jobs := g.jobs ++ [.slot b s.img.len.toNat] }) s))
        ∧ (bad → exec (.writeGradeCertificate m x) s = .next (imgReject 7 s))
        ∧ (∀ c, ¬bad → s.img.certUse = some c → exec (.writeGradeCertificate m x) s = .next (written (!c) s))
        ∧ (¬bad → s.img.certUse = none → ∃ c, exec (.writeGradeCertificate m x) s = .next (written c { s with freeCtr := s.freeCtr + 1 })))
      ∧ (s.pwr.flashWp = true → exec (.setBootSlot m b) s = .next (imgReject 3 s))
      ∧ (s.pwr.flashWp = false → s.sec.state = 2 → exec (.setBootSlot m b) s = .next (imgReject 6 s))
      ∧ (s.pwr.flashWp = false → s.sec.state ≠ 2 → exec (.setBootSlot m b) s = .next (vecEvent 0 2 (updImg (fun g => { g with boot := b }) s)))
      ∧ (s.sec.state = 2 → exec (.savetrim m) s = .next (imgReject 6 s))
      ∧ (s.sec.state ≠ 2 → exec (.savetrim m) s = .next (updImg (fun g => { putTrim (olderTrim s.img) {} g with
          jobs := g.jobs ++ [.trim (olderTrim s.img)] }) s)))
    ∧ (∀ len rest, s.img.jobs = .slot b len :: rest → exec .flashWriteComplete s = .next (vecEvent 0 2 (updImg (fun g => { g with
        slotA := if b then g.slotA else { g.slotA with commit := some (g.slotA.gen, len) }
        slotB := if b then { g.slotB with commit := some (g.slotB.gen, len) } else g.slotB
        jobs := rest }) s)))
    ∧ (∀ c rest, s.img.jobs = .trim c :: rest → exec .savetrimComplete s = .next (vecEvent 0 2 (updImg (fun g =>
        putTrim c { gen := Nat.max g.trim0.gen g.trim1.gen + 1, valid := true } { g with jobs := rest }) s)))
    ∧ (∀ c rest, s.img.jobs = .cert c x :: rest → exec .certificateWriteComplete s = .next (vecEvent 0 2 (updImg (fun g => { g with
        cert0 := if c then g.cert0 else some x, cert1 := if c then some x else g.cert1, jobs := rest }) s)))
    ∧ (s.img.jobs = [] → exec .flashWriteComplete s = .next s ∧ exec .savetrimComplete s = .next s ∧ exec .certificateWriteComplete s = .next s)
    ∧ (s.img.loads = [] ∨ memOn s = false → exec .imageLoadComplete s = .next s)
    ∧ (∀ l rest, s.img.loads = l :: rest → memOn s = true →
      let s1 := measureFar (updImg (fun g => { g with loads := rest }) s)
      (l.part = none →
        let slot := flashSlot s1 l.src
        let q : Loading := { l with image := (slot.bind Slot.image).getD l.image }
        exec .imageLoadComplete s = .next (match verify s1 q.image none slot with
          | none => installFull q (writeOutcome q none s1)
          | some bad => writeOutcome q (some bad) s1))
      ∧ ∀ n, l.part = some n →
        let p := pid n
        ((s.part p).state ≠ .loading → exec .imageLoadComplete s = .next s1)
        ∧ ((s.part p).state = .loading →
          (l.fromFull = true → ∀ y, partSec l.image n = some y → exec .imageLoadComplete s = .next (match partFeasible s1 p y with
            | none => beginLoading p l.image y true true .running (writeOutcome l none s1)
            | some bad => unconfigure p (writeOutcome l (some bad) s1)))
          ∧ (l.fromFull = false →
            (∀ bad, verify s1 l.image (some p) none = some bad → exec .imageLoadComplete s = .next (unconfigure p (writeOutcome l (some bad) s1)))
            ∧ ∀ base y, verify s1 l.image (some p) none = none → s.img.loaded = some base → partSec l.image n = some y →
              exec .imageLoadComplete s = .next (beginLoading p (mergePart base l.image n) y true true .running (extendM 4 l.image.digest
                (updImg (fun g => { g with loaded := some (mergePart base l.image n), parts := g.parts.filter (fun q => q.1 != n) ++ [(n, l.image)] })
                  (writeOutcome l none s1)))))))

/-! ### Starts and power (R23, R400-R404, R416, R435-R439, R471, R484-R492) -/

/-- R400, R401, R416, R435, R436, R486: the owner's COLD and WARM commands and the power events start the device; REQ enters P3 where every
partition is at rest and no D2 or D3 holds, P4 where every partition is unconfigured and no D2 holds, and leaves P3 by a warm start. P3
keeps near memory and turns the links off; P4 leaves what `PoweredOff` says. What is not due, and a pulse of PWR_EN under 1 ms, has no
effect. That REQ acts when its command is taken is the model's reading (log 111, DEDUCED). -/
def Obligations.StartsAndRequests : Prop :=
  ∀ (m : Master) (env : StartEnv) (ms : Nat) (s : State),
    (OwnerActs m s →
      exec (.coldStart (some m) env) s = .next (coldStart env s) ∧ exec (.warmStart (some m) env) s = .next (warmStart env s)
      ∧ (s.pwr.state = .p3 → exec (.reqWake m env) s = .next (warmStart env s)) ∧ (s.pwr.state ≠ .p3 → exec (.reqWake m env) s = .next s)
      ∧ (s.pwr.state ≠ .p3 → allPartsIn s (fun x => decide (x = .unconfigured ∨ x = .halted)) = true → s.sec.d2 = none → s.sec.d3 = false →
        ∃ t, exec (.reqStandby m) s = .next t ∧ t = { s with pwr := t.pwr, ports := t.ports }
          ∧ t.pwr = { s.pwr with state := .p3, groups := [], wakeDue := false }
          ∧ ∀ i, t.port i = { s.port i with state := .off, replay := [], transit := [], mq := [], seeking := false, naksRun := 0 })
      ∧ (s.pwr.state = .p3 → exec (.reqStandby m) s = .next s)
      ∧ (s.pwr.state ≠ .p3 → allPartsIn s (fun x => decide (x = .unconfigured ∨ x = .halted)) = false ∨ s.sec.d2 ≠ none ∨ s.sec.d3 = true →
        exec (.reqStandby m) s = .next (updPwr (fun w => { w with rej := true }) s))
      ∧ (allUnconfigured s = true → s.sec.d2 = none → ∃ t, exec (.reqOff m) s = .next t ∧ PoweredOff s t ∧ t.pwr.offHeld = true)
      ∧ (allUnconfigured s = false ∨ s.sec.d2 ≠ none → exec (.reqOff m) s = .next (updPwr (fun w => { w with rej := true }) s)))
    ∧ (coldDue s = true → exec (.coldStart none env) s = .next (coldStart env s))
    ∧ (coldDue s = false → exec (.coldStart none env) s = .next s)
    ∧ (autowakeDue s = true → exec (.warmStart none env) s = .next (warmStart env s))
    ∧ (autowakeDue s = false → exec (.warmStart none env) s = .next s)
    ∧ (coldDue s = true ↔ s.pwr.aon = true ∧ s.pwr.pwrEn = true ∧ s.pwr.offHeld = false ∧ (s.pwr.state = .p4 ∨ s.img.starts = 0))
    ∧ (autowakeDue s = true ↔ s.pwr.state = .p3 ∧ s.pwr.autowake = true ∧ s.pwr.wakeDue = true)
    ∧ (1 ≤ ms → s.pwr.pwrEn = false → exec (.pwrEnAssert ms env) s
      = .next (if s.pwr.aon then coldStart env (updPwr (fun w => { w with pwrEn := true }) s) else updPwr (fun w => { w with pwrEn := true }) s))
    ∧ (1 ≤ ms → s.pwr.pwrEn = true → ∃ t, exec (.pwrEnDeassert ms) s = .next t ∧ PoweredOff s t ∧ t.pwr.pwrEn = false ∧ t.flt.sticky = s.flt.sticky)
    ∧ (ms = 0 ∨ s.pwr.pwrEn = true → exec (.pwrEnAssert ms env) s = .next s)
    ∧ (ms = 0 ∨ s.pwr.pwrEn = false → exec (.pwrEnDeassert ms) s = .next s)
    ∧ (env.fw0Ok = false → env.fw1Ok = false → (coldStart env s).img.fwCopy = 2 ∧ (coldStart env s).flt.sticky = s.flt.sticky ||| 1024)

/-- R23, R439, R454, R455, R471, R484, R485, R492: the pins and the input. PERST_N resets every function and stops no work, and its release
chooses the HOST clock; the input in range powers AON, which samples BRD_ID; its loss clears every alarm and count; a voltage that leaves
the range raises POWER; at 110 degrees the thermal limit is 0 at once and every ENERGY counter is 0. Without AON, or where the pin or the
range does not change, nothing happens. That D3hot is cleared by both resets is the model's choice (log 118, DESIGN CHOICE); the thermal step
comes before the capping (log 114, DEDUCED). -/
def Obligations.PinsAndInput : Prop :=
  ∀ (env : StartEnv) (brd : BitVec 4) (tempC : Int) (refclk out : Bool) (s : State),
    (∃ t, exec .perstAssert s = .next t ∧ t = { s with pwr := t.pwr, funcs := t.funcs } ∧ t.pwr = { s.pwr with perst := true, d3hot := false }
      ∧ ∀ f, t.func f = { s.func f with en := false, vectors := Vector.replicate 128 {} })
    ∧ (s.pwr.perst = true → exec (.perstDeassert refclk) s = .next (updPwr (fun w => { w with perst := false, refclk := refclk }) s))
    ∧ (s.pwr.perst = false → exec (.perstDeassert refclk) s = .next s)
    ∧ (s.pwr.aon = false →
      let t : State := { s with pwr := { s.pwr with aon := true, brdId := brd }, img := { s.img with starts := 0 } }
      exec (.inputInRange brd env) s = .next (if s.pwr.pwrEn then coldStart env t else t))
    ∧ (s.pwr.aon = true → exec (.inputInRange brd env) s = .next s)
    ∧ (∃ t, exec .inputLoss s = .next t ∧ PoweredOff s t ∧ t.pwr.aon = false ∧ t.flt.sticky = 0 ∧ ∀ k : Fin 16, t.flt.counts[k] = 0)
    ∧ (s.pwr.aon = true → out = false ∨ s.pwr.vout = true → exec (.voltageOutOfRange out) s = .next (updPwr (fun w => { w with vout := out }) s))
    ∧ (s.pwr.aon = true → s.pwr.vout = false → exec (.voltageOutOfRange true) s = .next (raise 15 (updPwr (fun w => { w with vout := true }) s)))
    ∧ (110 ≤ tempC → s.pwr.aon = true → ∃ t, exec (.thermalCritical tempC) s = .next t ∧ t.pwr = { s.pwr with crit := true, throt := true, phiT := 0 }
      ∧ ∀ p, ((t.part p).budgets[6]).counter = 0)
    ∧ (tempC < 110 → exec (.thermalCritical tempC) s = .next s)
    ∧ (s.pwr.aon = false → exec (.voltageOutOfRange out) s = .next s ∧ exec (.thermalCritical tempC) s = .next s)

/-! ### Security and debug (R420-R434, R440) -/

/-- R423, R424, R433, R434: the security commands. The first check that fails sets RES and, but for a failed UNLOCK response, nothing else: 4
for the layout or the tick, 2 for the state, 3 for the signature, 4 for a further condition. One that passes every check has its effect: a
new record, the new state being due at the next boundary, or the wipe, whose contents go at its completion. The first record's SGEN is a
free value and a later one's is one higher (log 104, DEDUCED); when a wipe's contents go is log 108 (DEDUCED), the code for a further
condition log 105 (DEDUCED). -/
def Obligations.SecurityCommands : Prop :=
  (∀ (i : Instr) (m : Master) (h : SecHdr) (cmd len : Nat) (signed : Bool) (s : State), secForm i = some (m, h, cmd, len, signed) → OwnerActs m s →
    let layout : Prop := h.cmd.toNat = cmd ∧ h.rsv0 = true ∧ h.len.toNat = 16 + len + (if signed then 2420 else 0)
    let tick : Prop := within16 s.tick.now h.tick.toNat = true
    let sig : Prop := signed = true → h.sigOk = true ∧ s.sec.pufOk = true
    (¬layout ∨ ¬tick → exec i s = .next (secRes 4 s))
    ∧ (layout → tick → ¬secState i s → exec i s = .next (secRes 2 s))
    ∧ (layout → tick → secState i s → ¬sig → exec i s = .next (secRes 3 (match i with
        | .unlock _ _ => unlockFailed s
        | _ => s)))
    ∧ (layout → tick → secState i s → sig → ¬secCond i s → exec i s = .next (secRes 4 s)))
  ∧ ∀ (m : Master) (h : SecHdr) (k : KeyPayload) (s : State),
    let due (n : Fin 3) (t : State) : State := secRes 1 (updSec (fun x => { x with stateNext := some n }) t)
    let runs (i : Instr) (cmd len : Nat) (signed : Bool) : Prop := SecCmdOk m h cmd len signed s ∧ secState i s ∧ secCond i s
    (runs (.provision m h k) 1 (1320 + 1316 * k.nkey.toNat) true → exec (.provision m h k) s = .next (due 1 (putRecord
      { sgen := (Config.free s.freeCtr).toNat % 2 ^ 32, s2 := false, keys := k.keyids, digest := k.digest, valid := true, erased := false }
      { s with freeCtr := s.freeCtr + 1 })))
    ∧ (runs (.rotate m h k) 2 (1320 + 1316 * k.nkey.toNat) true →
      (∀ r, provInUse s = some r → exec (.rotate m h k) s = .next (secRes 1 (putRecord { r with sgen := r.sgen + 1, keys := k.keyids, digest := k.digest } s)))
      ∧ (provInUse s = none → exec (.rotate m h k) s = .next (secRes 1 s)))
    ∧ (runs (.lockdown m h) 3 0 false →
      exec (.lockdown m h) s = .next (secRes 1 (updSec (fun x => { x with stateNext := some 2, chal := none }) (flagRecord true s))))
    ∧ (runs (.secRelease m h) 4 0 true → exec (.secRelease m h) s = .next (due 1 (flagRecord false s)))
    ∧ (runs (.deprovision m h) 5 0 true → exec (.deprovision m h) s = .next (secRes 5 (updSec (fun x => { x with wipe := some .deprovision }) s)))
    ∧ (∀ r, provInUse s = some r → ∀ b, flagRecord b s
      = putRecord { r with sgen := r.sgen + 1, s2 := b, digest := Config.sha3 [r.digest, r.sgen + 1, if b then 1 else 0] } s)
    ∧ (∀ w, s.sec.wipe = some w → ∃ t, exec .wipeComplete s = .next t ∧ t.sec.wipe = none ∧ t.mem.near = []
      ∧ t.mem.far = s.mem.far.filter (fun x => !farInService s x.1) ∧ (∀ c, (t.core c).ws = []) ∧ (∀ p, (t.part p).xmem = [])
      ∧ (w = .deprovision → t.sec.stateNext = some 0 ∧ t.sec.prov0.valid = false ∧ t.sec.prov1.valid = false ∧ t.sec.res = 1)
      ∧ (w = .d3 → t.sec = { s.sec with wipe := none, d3Next := true }))
    ∧ (s.sec.wipe = none → exec .wipeComplete s = .next s)

/-- R424, R427, R430-R433: the debug commands. DEBUG0 and DEBUG1 are due at the next boundary; DEBUG2 waits for its partition's consent, which
the command's nonce gives, which may be withdrawn, and which lapses after 1,024 ticks; a challenge lasts 1,024 ticks; an UNLOCK whose
response passes starts the wipe, and one that fails is counted and raises SECURITY, the third putting an S1 device into S2 and barring
CHALLENGE in S0. The 32 random bytes go out as a report (log 106, DESIGN CHOICE) and are a free value (log 2, DESIGN CHOICE). -/
def Obligations.DebugCommands : Prop :=
  ∀ (m : Master) (h : SecHdr) (p : PartId) (b : Byte) (nonce : W32) (yes : Bool) (s : State),
    let runs (i : Instr) (cmd len : Nat) (signed : Bool) : Prop := SecCmdOk m h cmd len signed s ∧ secState i s ∧ secCond i s
    (runs (.debug0 m h) 0x10 0 false → exec (.debug0 m h) s = .next (secRes 1 (updSec (fun x => { x with dbgNext := x.dbgNext ++ [false] }) s)))
    ∧ (runs (.debug1 m h) 0x11 0 false → exec (.debug1 m h) s = .next (secRes 1 (updSec (fun x => { x with dbgNext := x.dbgNext ++ [true] }) s)))
    ∧ (runs (.debug2 m h b true) 0x12 8 false → exec (.debug2 m h b true) s = .next (vecEvent (vfOf (pid b.toNat)) 3 (secRes 5 (updSec (fun x => { x with
        d2req := some (b.toNat, h.nonce.toNat, false, s.tick.now) }) s))))
    ∧ (arrives s (.vf (vfOf p)) = true →
      let ends : Bool := s.sec.d2end || (!yes && s.sec.d2 == some p.1)
      (∀ n c t, s.sec.d2req = some (p.1, n, c, t) → exec (.prtConsent (.vf (vfOf p)) p nonce yes) s = .next (updSec (fun x => { x with
        d2req := some (p.1, n, if yes then c || n == nonce.toNat else false, t), d2end := ends }) s))
      ∧ ((∀ n c t, s.sec.d2req ≠ some (p.1, n, c, t)) → exec (.prtConsent (.vf (vfOf p)) p nonce yes) s = .next (updSec (fun x => { x with d2end := ends }) s)))
    ∧ (arrives s m = true → m ≠ .vf (vfOf p) → exec (.prtConsent m p nonce yes) s = .next (ignoreWrite m (prtOff p 0x18) 1 s))
    ∧ (∀ q n t, s.sec.d2req = some (q, n, false, t) →
      (t + 1024 ≤ s.tick.now → exec .consentLapse s = .next (secRes 4 (updSec (fun x => { x with d2req := none }) s)))
      ∧ (s.tick.now < t + 1024 → exec .consentLapse s = .next s))
    ∧ (s.sec.d2req = none ∨ (∃ q n t, s.sec.d2req = some (q, n, true, t)) → exec .consentLapse s = .next s)
    ∧ (runs (.challenge m h) 0x13 0 false →
      let v := Config.random256 s.freeCtr
      exec (.challenge m h) s = .next (secRes 1 (emit (.report 0 [v]) (updSec (fun x => { x with chal := some (v, s.tick.now) }) { s with freeCtr := s.freeCtr + 1 }))))
    ∧ (∀ v t, s.sec.chal = some (v, t) → t + 1024 ≤ s.tick.now → exec .challengeExpiry s = .next (updSec (fun x => { x with chal := none }) s))
    ∧ (s.sec.chal = none ∨ (∃ v t, s.sec.chal = some (v, t) ∧ s.tick.now < t + 1024) → exec .challengeExpiry s = .next s)
    ∧ (runs (.unlock m h) 0x14 0 true → exec (.unlock m h) s = .next (secRes 5 (updSec (fun x => { x with chal := none, wipe := some .d3 }) s)))
    ∧ (let counted := alarm 11 (updSec (fun x => { x with fails := x.fails + 1 }) s)
      (s.sec.fails < 2 → unlockFailed s = counted)
      ∧ (2 ≤ s.sec.fails → s.sec.state = 1 → unlockFailed s = updSec (fun x => { x with stateNext := some 2, chal := none }) (flagRecord true counted))
      ∧ (2 ≤ s.sec.fails → s.sec.state = 0 → unlockFailed s = updSec (fun x => { x with barred := true }) counted))

/-- R428, R429: a report request of PF0, or of a partition's VF, is held with its nonce and 64 B-aligned address, at most four and none without
an identity; one more is rejected, and another master's write is ignored and counted. The oldest is served in host memory at its address,
its first word 0x0C90A77E, and leaves the queue. The measurements beyond the fields and the signature are free bytes (log 2 and 5, DESIGN
CHOICE); the flag of PF0's fifth request is log 107 (DESIGN CHOICE). -/
def Obligations.Attestation : Prop :=
  ∀ (p : PartId) (f : FuncId) (m : Master) (r : AttReq) (rest : List AttReq) (s : State),
    let full (f : FuncId) : Prop := s.sec.pufOk = false ∨ 4 ≤ (s.func f).atts.length
    (arrives s .pf0 = true →
      (¬full 0 → exec (.secAttgo .pf0) s
        = .next (updFunc 0 (fun x => { x with atts := x.atts ++ [{ nonce := s.sec.attNonce, addr := s.sec.attAddr &&& 0xFFFFFFFFFFFFFFC0 }] }) s))
      ∧ (full 0 → exec (.secAttgo .pf0) s = .next (updSec (fun x => { x with attRej := true }) s)))
    ∧ (arrives s (.vf (vfOf p)) = true →
      (¬full (vfOf p) → exec (.prtAttgo (.vf (vfOf p)) p) s = .next (updFunc (vfOf p) (fun x => { x with
        atts := x.atts ++ [{ nonce := (s.part p).attNonce, addr := (s.part p).attAddr &&& 0xFFFFFFFFFFFFFFC0 }] }) s))
      ∧ (full (vfOf p) → exec (.prtAttgo (.vf (vfOf p)) p) s = .next (prtError p (fun x => { x with attrej := true }) s)))
    ∧ (arrives s m = true → m ≠ .pf0 → exec (.secAttgo m) s = .next (ignoreWrite m 0x120038 1 s))
    ∧ (arrives s m = true → m ≠ .vf (vfOf p) → exec (.prtAttgo m p) s = .next (ignoreWrite m (prtOff p 0x48) 1 s))
    ∧ ((s.func f).atts = r :: rest → s.pwr.state ≠ .p4 → ∃ t, exec (.attestationReport f) s = .next t ∧ (t.func f).atts = rest
      ∧ t = { s with funcs := t.funcs, freeCtr := s.freeCtr + 6152, mem := { s.mem with host := t.mem.host } }
      ∧ t.mem.host = wrBytes s.mem.host r.addr.toNat (reportFields s f r ++ freeBytes s.freeCtr 6152)
      ∧ (reportFields s f r).take 4 = [0x7E, 0xA7, 0x90, 0x0C])
    ∧ ((s.func f).atts = [] ∨ s.pwr.state = .p4 → exec (.attestationReport f) s = .next s)

/-! ### Faults, tests and recoveries (R402, R410, R447, R457-R462) -/

/-- R402, R410, R441, R447, R457-R459, R462: a requested test gets a number, a status and a record, and one that waits already its number
again; it starts when its opportunity has come, a FULL test putting the device into limited service; its end sets its status and, where it
failed, raises SELFTEST. The watchdog and a hub error recover the device by a warm start, the fourth within 1,000,000 ticks not, and none
where RECOVER_EN is clear. Dropped records are summarised at every 16th tick, in front of the queue. What is not due changes nothing. The
treatment of waiting duplicates and of an invalid kind is log 109 (DEDUCED), and of a loss summary at a full queue log 119 (DEDUCED). -/
def Obligations.TestsAndRecoveries : Prop :=
  ∀ (m : Master) (kind : Byte) (res : W16) (n : Nat) (fm : W64) (detail : W32) (ls : List (Fin 512)) (env : StartEnv) (block : Byte) (s : State),
    let waits : Option Test := s.flt.tests.find? (fun t => t.kind == kind.toNat && (t.res == res.toNat || kind.toNat == 1 || kind.toNat == 2)
      && decide (t.stat = .queued ∨ t.stat = .deferred))
    (OwnerActs m s → resOk kind.toNat res.toNat = true → waits = none →
      let t : Test := { num := s.flt.testNext, kind := kind.toNat, res := res.toNat, stat := firstStat s kind.toNat res.toNat }
      exec (.fltTestreq m kind res) s = .next (holdTests (testRecord t 0 0 false (updFlt (fun f => { f with
        testLast := f.testNext, testNext := f.testNext + 1, tests := f.tests ++ [t] }) s))))
    ∧ (∀ t, OwnerActs m s → resOk kind.toNat res.toNat = true → waits = some t →
      exec (.fltTestreq m kind res) s = .next (updFlt (fun f => { f with testLast := t.num }) s))
    ∧ (OwnerActs m s → resOk kind.toNat res.toNat = false → exec (.fltTestreq m kind res) s = .next (ignoreWrite m 0xE0048 2 s))
    ∧ (∀ t, s.flt.tests.find? (fun t => t.num == n) = some t →
      (testDue s t = true → t.kind = 1 → exec (.selfTestStart n) s
        = .next (holdTests (updFlt (fun f => { f with limited := true, normalDue := false }) (setStat n .running 0 0 false s))))
      ∧ (testDue s t = true → t.kind ≠ 1 → t.kind ≠ 5 → exec (.selfTestStart n) s = .next (holdTests (setStat n .running 0 0 false s)))
      ∧ (testDue s t = true → t.kind = 5 → exec (.selfTestStart n) s = .next (holdTests (let u := setStat n .running 0 0 false s
          if (u.port (portid t.res)).role = 0 then u else startTraining (portid t.res) u)))
      ∧ (testDue s t = false → exec (.selfTestStart n) s = .next s)
      ∧ (t.stat ≠ .running → exec (.selfTestComplete n fm detail ls) s = .next s)
      ∧ (t.stat = .running → fm = 0 → exec (.selfTestComplete n fm detail ls) s
        = .next (holdTests (serviceAfter t.kind true (setStat n .passed 0 0 (decide (t.kind = 1 ∨ t.kind = 2 ∨ t.kind = 3)) s))))
      ∧ (t.stat = .running → fm ≠ 0 → exec (.selfTestComplete n fm detail ls) s
        = .next (holdTests (serviceAfter t.kind false (failArrays t.kind ls (alarm 8 (setStat n .failed fm.toNat detail.toNat
            (decide (fm.toNat < 16 ∧ (t.kind = 1 ∨ t.kind = 2 ∨ t.kind = 3))) s)))))))
    ∧ (aghornOn s = true → s.flt.recoverEn = true →
      let recent := s.flt.recTicks.filter (fun t => decide (s.tick.now < t + 1000000))
      let from_ (k : Nat) : State := updFlt (fun f => { f with
        recover := satAdd 64 f.recover 1, recTicks := recent ++ [s.tick.now], recCause := f.recCause ++ [k] }) s
      (recent.length < 3 → exec (.watchdogExpiry env) s = .next (warmStart env (from_ 2))
        ∧ exec (.hubError block env) s = .next (warmStart env (from_ (1 + 16 * block.toNat))))
      ∧ (3 ≤ recent.length →
        let halted := haltAll (alarm 10 (updFlt (fun f => { f with fwAlarm := true }) s))
        exec (.watchdogExpiry env) s = .next (deviceFault 4 0 halted) ∧ exec (.hubError block env) s = .next (deviceFault 4 block.toNat halted)))
    ∧ (aghornOn s = true → s.flt.recoverEn = false →
      exec (.watchdogExpiry env) s = .next (deviceFault 2 0 s) ∧ exec (.hubError block env) s = .next (deviceFault 1 block.toNat s))
    ∧ (aghornOn s = false → exec (.watchdogExpiry env) s = .next s ∧ exec (.hubError block env) s = .next s)
    ∧ ((∀ t ∈ s.flt.tests, t.num ≠ n) → exec (.selfTestStart n) s = .next s ∧ exec (.selfTestComplete n fm detail ls) s = .next s)
    ∧ (s.tick.now % 16 = 0 → (∃ k : Fin 4, s.flt.dropsNew[k] ≠ 0) →
      let summary : LogRec := { tick := s.tick.now, phase := s.tick.phase, prio := 0, type := 14, body := s.flt.dropsNew.toList }
      let zeroed : State := updFlt (fun f => { f with dropsNew := Vector.replicate 4 0 }) s
      (LogRoom s → exec .lossSummary s = .next (updFlt (fun f => { f with queue := summary :: f.queue }) zeroed))
      ∧ (¬LogRoom s →
        let worst := s.flt.queue.foldl (fun a x => Nat.max a x.prio) 0
        exec .lossSummary s = .next (updFlt (fun f => { f with queue := summary :: f.queue })
          (countDrop worst (updFlt (fun f => { f with queue := dropNewest worst f.queue }) zeroed)))))
    ∧ (s.tick.now % 16 ≠ 0 ∨ (∀ k : Fin 4, s.flt.dropsNew[k] = 0) → exec .lossSummary s = .next s)

/-! ### The host interface (R7, R8, R305, R463-R471) -/

/-- R467: a vector that owes a message sends it, at most one in 4 us; an event marks the vector: an unmasked one owes a message, a masked one
has its pending bit set, sends nothing, and owes one message once it is unmasked. -/
def Obligations.MessageVectors : Prop :=
  ∀ (f : FuncId) (k : Fin 128) (w : BusWrite) (s : State),
    let q := (s.func f).vectors[k]
    (q.due = true → q.masked = false → (∀ t, q.lastNs = some t → t + 4000 ≤ nowNs s) →
      exec (.msixMessage f k) s = .next (emit (.msix f.1 k.1) (updFunc f (fun g => { g with
        vectors := g.vectors.set k.1 { q with due := false, lastNs := some (nowNs s) } k.2 }) s)))
    ∧ (∀ t, q.lastNs = some t → t ≤ nowNs s → nowNs s < t + 4000 → exec (.msixMessage f k) s = .next s)
    ∧ (q.due = false ∨ q.masked = true → exec (.msixMessage f k) s = .next s)
    ∧ (q.masked = false → ((vecEvent f k s).func f).vectors[k] = { q with due := true })
    ∧ (q.masked = true → ((vecEvent f k s).func f).vectors[k] = { q with pend := true })
    ∧ (∀ j : Fin 128, j ≠ k → ((vecEvent f k s).func f).vectors[j] = (s.func f).vectors[j])
    ∧ (q.masked = true → q.pend = true → bit (w.put (q.data.toNat + 2 ^ 32)) 32 = false →
      (setVector w 1 q).due = true ∧ (setVector w 1 q).pend = false ∧ (setVector w 1 q).masked = false)

/-- R7, R8, R305, R465, R466, R468, R469, R471: a function level reset of a VF clears its EN and its MSI-X state alone; a ring configuration
that keeps the rules is written by its own function, and any other sets ERR and changes nothing else; the register accesses of PF0, of the
sideband and of a remote master read and write one map, an aligned access reaching its own bytes alone. A misaligned write changes nothing
by the model's choice (log 117, DEDUCED), and so does a sideband write of fewer than 4 bytes (log 169, DEDUCED). -/
def Obligations.HostInterface : Prop :=
  ∀ (f : FuncId) (v : W64) (m : Master) (off : BitVec 22) (size : Fin 4) (x y z : W16) (s : State),
    (f ≠ 0 → exec (.functionLevelReset f) s = .next (updFunc f (fun g => { g with en := false, vectors := Vector.replicate 128 {} }) s))
    ∧ (∃ t, exec (.functionLevelReset 0) s = .next t ∧ t = { s with pwr := { s.pwr with d3hot := false }, funcs := t.funcs }
      ∧ ∀ g, t.func g = { s.func g with en := false, vectors := Vector.replicate 128 {} })
    ∧ (arrives s (masterOf f) = true →
      (ringcfgOk s f v.toNat = true → exec (.tktRingcfg f v) s = .next (flushJournal f (updFunc f (setRings f v.toNat) s))
        ∧ (v.toNat < 2 ^ 63 ∨ (s.func f).jwait = [] → exec (.tktRingcfg f v) s = .next (updFunc f (setRings f v.toNat) s)))
      ∧ (ringcfgOk s f v.toNat = false → exec (.tktRingcfg f v) s = .next (updFunc f (fun g => { g with err := true }) s)))
    ∧ (arrives s .pf0 = true → off.toNat / 8 * 8 = 0x30028 → off.toNat % 2 ^ size.1 = 0 → exec (.readClear .pf0 off size) s
      = .next (emit (.readData .pf0 off.toNat (BitVec.ofNat 64 (s.tick.now / 2 ^ (8 * (off.toNat % 8)) % 2 ^ (8 * 2 ^ size.1)))) s))
    ∧ (arrives s .pf0 = true → off.toNat = 0x60038 → exec (.readClear .pf0 off 3) s
      = .next (updFunc 0 (fun g => { g with igndb := 0 }) (emit (.readData .pf0 0x60038 (BitVec.ofNat 64 (s.func 0).igndb)) s)))
    ∧ (OwnerActs m s → (∀ g, m ≠ .vf g) → off.toNat / 8 * 8 = 0xA0100 → off.toNat % 2 ^ size.1 = 0 →
      ∃ t, exec (.registerWrite m off size v) s = .next t ∧ t = updMem (fun q => { q with cpSrc := t.mem.cpSrc }) s
        ∧ ∀ b, b < 8 → t.mem.cpSrc.extractLsb' (8 * b) 8 = if off.toNat % 8 ≤ b ∧ b < off.toNat % 8 + 2 ^ size.1
            then v.extractLsb' (8 * (b - off.toNat % 8)) 8 else s.mem.cpSrc.extractLsb' (8 * b) 8)
    ∧ (arrives s m = true → exec (.readClear m off size) s = .next (readReg m off.toNat size s)
      ∧ exec (.registerWrite m off size v) s = .next (writeReg m off.toNat size v.toNat s))
    ∧ (arrives s m = true → off.toNat % 2 ^ size.1 ≠ 0 → exec (.registerWrite m off size v) s = .next s)
    ∧ (arrives s .sb = true → (2 ≤ size.1 → exec (.i3cAccess (i3cAddr s) true off size v) s = exec (.registerWrite .sb off size v) s)
      ∧ (size.1 < 2 → exec (.i3cAccess (i3cAddr s) true off size v) s = .next s)
      ∧ exec (.i3cAccess (i3cAddr s) false off size v) s = exec (.readClear .sb off size) s)
    ∧ (arrives s (.rm x y z) = true → exec (.rmAccess x y z true off size v) s = exec (.registerWrite (.rm x y z) off size v) s)
    ∧ (arrives s (.rm x y z) = true → exec (.rmAccess x y z false off size v) s
      = .next (chargeD 5 256 (readReg (.rm x y z) off.toNat size s)))
end

