-- ==== Sys2Proof/Laws/Memory.lean ====
section
/-! SUPPORT. The byte stores: every operation keeps the canonical form, a read after a write gives the value written, and a write leaves
every other byte alone. -/

namespace Sys2Proof.Machine

theorem mapFind_lt {α : Type} (m : SMap α) (a : Nat) (h : ∀ x ∈ m, a < x.1) : mapFind m a = none := by
  cases m with
  | nil => rfl
  | cons x r =>
    have := h x (by simp)
    simp [mapFind, Nat.ne_of_lt this, this]

theorem mem_mapInsert {α : Type} (m : SMap α) (a : Nat) (v : α) (y : Nat × α) (h : y ∈ mapInsert m a v) : y = (a, v) ∨ y ∈ m := by
  induction m with
  | nil => exact Or.inl (by simpa [mapInsert] using h)
  | cons x r ih =>
    simp only [mapInsert] at h
    split at h
    · simpa using h
    · split at h
      · rcases List.mem_cons.1 h with h | h
        · exact Or.inl h
        · exact Or.inr (List.mem_cons_of_mem _ h)
      · rcases List.mem_cons.1 h with h | h
        · exact Or.inr (by simp [h])
        · rcases ih h with h | h
          · exact Or.inl h
          · exact Or.inr (List.mem_cons_of_mem _ h)

theorem mem_mapErase {α : Type} (m : SMap α) (a : Nat) (y : Nat × α) (h : y ∈ mapErase m a) : y ∈ m := by
  induction m with
  | nil => simp [mapErase] at h
  | cons x r ih =>
    simp only [mapErase] at h
    split at h
    · exact List.mem_cons_of_mem _ h
    · split at h
      · exact h
      · rcases List.mem_cons.1 h with h | h
        · simp [h]
        · exact List.mem_cons_of_mem _ (ih h)

theorem sorted_mapInsert {α : Type} (m : SMap α) (a : Nat) (v : α) (h : m.Pairwise (fun x y => x.1 < y.1)) :
    (mapInsert m a v).Pairwise (fun x y => x.1 < y.1) := by
  induction m with
  | nil => simp [mapInsert]
  | cons x r ih =>
    obtain ⟨hx, hr⟩ := List.pairwise_cons.1 h
    simp only [mapInsert]
    split
    · rename_i ha
      refine List.pairwise_cons.2 ⟨fun y hy => ?_, h⟩
      rcases List.mem_cons.1 hy with rfl | hy
      · exact ha
      · exact Nat.lt_trans ha (hx y hy)
    · split
      · rename_i ha
        exact List.pairwise_cons.2 ⟨fun y hy => ha ▸ hx y hy, hr⟩
      · refine List.pairwise_cons.2 ⟨fun y hy => ?_, ih hr⟩
        rcases mem_mapInsert r a v y hy with rfl | hy
        · show x.1 < a
          omega
        · exact hx y hy

theorem sorted_mapErase {α : Type} (m : SMap α) (a : Nat) (h : m.Pairwise (fun x y => x.1 < y.1)) :
    (mapErase m a).Pairwise (fun x y => x.1 < y.1) := by
  induction m with
  | nil => simp [mapErase]
  | cons x r ih =>
    obtain ⟨hx, hr⟩ := List.pairwise_cons.1 h
    simp only [mapErase]
    split
    · exact hr
    · split
      · exact h
      · exact List.pairwise_cons.2 ⟨fun y hy => hx y (mem_mapErase r a y hy), ih hr⟩

/-- A write keeps the canonical form. -/
theorem wr8_wf (m : SMap Byte) (a : Nat) (x : Byte) (h : Memory.wf m) : Memory.wf (wr8 m a x) := by
  unfold wr8 mapWrite
  split
  · exact ⟨sorted_mapErase m a h.1, fun y hy => h.2 y (mem_mapErase m a y hy)⟩
  · rename_i hx
    refine ⟨sorted_mapInsert m a x h.1, fun y hy => ?_⟩
    rcases mem_mapInsert m a x y hy with rfl | hy
    · exact hx
    · exact h.2 y hy

/-- A run of writes keeps the canonical form. -/
theorem wrBytes_wf (m : SMap Byte) (a : Nat) (l : List Byte) (h : Memory.wf m) : Memory.wf (wrBytes m a l) := by
  induction l generalizing m a with
  | nil => exact h
  | cons x r ih => exact ih _ _ (wr8_wf m a x h)

/-- A field write keeps the canonical form. -/
theorem wrLE_wf (m : SMap Byte) (a n v : Nat) (h : Memory.wf m) : Memory.wf (wrLE m a n v) := wrBytes_wf m a _ h

theorem emptyStore_wf : Memory.wf [] := by simp [Memory.wf]

theorem filter_wf (p : Nat × Byte → Bool) (m : SMap Byte) (h : Memory.wf m) : Memory.wf (m.filter p) :=
  ⟨h.1.filter p, fun x hx => h.2 x (List.mem_of_mem_filter hx)⟩

theorem mapFind_mapInsert {α : Type} (m : SMap α) (a b : Nat) (v : α) (h : m.Pairwise (fun x y => x.1 < y.1)) :
    mapFind (mapInsert m a v) b = if b = a then some v else mapFind m b := by
  induction m with
  | nil => by_cases hb : b = a <;> simp [mapInsert, mapFind, hb]
  | cons x r ih =>
    obtain ⟨hx, hr⟩ := List.pairwise_cons.1 h
    simp only [mapInsert]
    split
    · by_cases hb : b = a
      · simp [mapFind, hb]
      · by_cases hlt : b < a
        · have : b < x.1 := by omega
          have hne : b ≠ x.1 := by omega
          simp [mapFind, hb, hlt, this, hne]
        · simp [mapFind, hb, hlt]
    · split
      · rename_i ha
        subst ha
        by_cases hb : b = x.1 <;> simp [mapFind, hb]
      · simp only [mapFind, ih hr]
        by_cases hb : b = a
        · have h1 : b ≠ x.1 := by omega
          have h2 : ¬ b < x.1 := by omega
          simp [hb] at *
          simp [h1, h2]
        · simp [hb]

theorem mapFind_mapErase {α : Type} (m : SMap α) (a b : Nat) (h : m.Pairwise (fun x y => x.1 < y.1)) :
    mapFind (mapErase m a) b = if b = a then none else mapFind m b := by
  induction m with
  | nil => simp [mapErase, mapFind]
  | cons x r ih =>
    obtain ⟨hx, hr⟩ := List.pairwise_cons.1 h
    simp only [mapErase]
    split
    · rename_i ha
      subst ha
      by_cases hb : b = x.1
      · subst hb
        simpa using mapFind_lt r x.1 hx
      · by_cases hlt : b < x.1
        · have : mapFind r b = none := mapFind_lt r b (fun y hy => Nat.lt_trans hlt (hx y hy))
          simp [mapFind, hb, hlt, this]
        · simp [mapFind, hb, hlt]
    · split
      · rename_i h1 h2
        by_cases hb : b = a
        · subst hb
          simp [mapFind, h1, h2]
        · simp [hb]
      · rename_i h1 h2
        simp only [mapFind, ih hr]
        by_cases hb : b = a
        · subst hb
          simp [h1, h2]
        · simp [hb]

/-- A read after a write: the byte written, and every other byte as before. -/
theorem rd8_wr8 (m : SMap Byte) (a b : Nat) (x : Byte) (h : Memory.wf m) : rd8 (wr8 m a x) b = if b = a then x else rd8 m b := by
  unfold rd8 wr8 mapRead mapWrite
  split
  · rename_i hx
    rw [mapFind_mapErase m a b h.1]
    by_cases hb : b = a <;> simp [hb, hx]
  · rw [mapFind_mapInsert m a b x h.1]
    by_cases hb : b = a <;> simp [hb]

/-- A byte outside a run of writes reads as before. -/
theorem rd8_wrBytes_outside (m : SMap Byte) (a b : Nat) (l : List Byte) (h : Memory.wf m) (hb : b < a ∨ a + l.length ≤ b) :
    rd8 (wrBytes m a l) b = rd8 m b := by
  induction l generalizing m a with
  | nil => rfl
  | cons x r ih =>
    simp only [List.length_cons] at hb
    simp only [wrBytes]
    rw [ih (wr8 m a x) (a + 1) (wr8_wf m a x h) (by omega), rd8_wr8 m a b x h]
    have : b ≠ a := by omega
    simp [this]

end Sys2Proof.Machine
end

