-- ==== Sys2Proof/Laws/State.lean ====
section
/-! SUPPORT. What each update of one part of the state leaves in every field, and the accessors of the indexed parts. -/

namespace Sys2Proof.Machine

/-! ### updCore -/

@[simp] theorem updCore_pending (c : CoreId) (f : Core → Core) (s : State) : (updCore c f s).pending = s.pending := rfl
@[simp] theorem updCore_parts (c : CoreId) (f : Core → Core) (s : State) : (updCore c f s).parts = s.parts := rfl
@[simp] theorem updCore_funcs (c : CoreId) (f : Core → Core) (s : State) : (updCore c f s).funcs = s.funcs := rfl
@[simp] theorem updCore_ports (c : CoreId) (f : Core → Core) (s : State) : (updCore c f s).ports = s.ports := rfl
@[simp] theorem updCore_mem (c : CoreId) (f : Core → Core) (s : State) : (updCore c f s).mem = s.mem := rfl
@[simp] theorem updCore_tick (c : CoreId) (f : Core → Core) (s : State) : (updCore c f s).tick = s.tick := rfl
@[simp] theorem updCore_own (c : CoreId) (f : Core → Core) (s : State) : (updCore c f s).own = s.own := rfl
@[simp] theorem updCore_img (c : CoreId) (f : Core → Core) (s : State) : (updCore c f s).img = s.img := rfl
@[simp] theorem updCore_sec (c : CoreId) (f : Core → Core) (s : State) : (updCore c f s).sec = s.sec := rfl
@[simp] theorem updCore_pwr (c : CoreId) (f : Core → Core) (s : State) : (updCore c f s).pwr = s.pwr := rfl
@[simp] theorem updCore_flt (c : CoreId) (f : Core → Core) (s : State) : (updCore c f s).flt = s.flt := rfl
@[simp] theorem updCore_out (c : CoreId) (f : Core → Core) (s : State) : (updCore c f s).out = s.out := rfl
@[simp] theorem updCore_freeCtr (c : CoreId) (f : Core → Core) (s : State) : (updCore c f s).freeCtr = s.freeCtr := rfl
@[simp] theorem updCore_core_self (c : CoreId) (f : Core → Core) (s : State) : (updCore c f s).core c = f (s.core c) := by simp [updCore, State.core]
theorem updCore_core (c : CoreId) (f : Core → Core) (s : State) (j : CoreId) : (updCore c f s).core j = if j = c then f (s.core c) else s.core j := by
  by_cases h : j = c
  · subst h; simp [updCore, State.core]
  · have h2 : c.1 ≠ j.1 := fun e => h (Fin.ext e.symm)
    simp [updCore, State.core, h, h2]
@[simp] theorem updCore_part (c : CoreId) (f : Core → Core) (s : State) (j : PartId) : (updCore c f s).part j = s.part j := rfl
@[simp] theorem updCore_func (c : CoreId) (f : Core → Core) (s : State) (j : FuncId) : (updCore c f s).func j = s.func j := rfl
@[simp] theorem updCore_port (c : CoreId) (f : Core → Core) (s : State) (j : PortId) : (updCore c f s).port j = s.port j := rfl

/-! ### updPart -/

@[simp] theorem updPart_pending (p : PartId) (f : Part → Part) (s : State) : (updPart p f s).pending = s.pending := rfl
@[simp] theorem updPart_cores (p : PartId) (f : Part → Part) (s : State) : (updPart p f s).cores = s.cores := rfl
@[simp] theorem updPart_funcs (p : PartId) (f : Part → Part) (s : State) : (updPart p f s).funcs = s.funcs := rfl
@[simp] theorem updPart_ports (p : PartId) (f : Part → Part) (s : State) : (updPart p f s).ports = s.ports := rfl
@[simp] theorem updPart_mem (p : PartId) (f : Part → Part) (s : State) : (updPart p f s).mem = s.mem := rfl
@[simp] theorem updPart_tick (p : PartId) (f : Part → Part) (s : State) : (updPart p f s).tick = s.tick := rfl
@[simp] theorem updPart_own (p : PartId) (f : Part → Part) (s : State) : (updPart p f s).own = s.own := rfl
@[simp] theorem updPart_img (p : PartId) (f : Part → Part) (s : State) : (updPart p f s).img = s.img := rfl
@[simp] theorem updPart_sec (p : PartId) (f : Part → Part) (s : State) : (updPart p f s).sec = s.sec := rfl
@[simp] theorem updPart_pwr (p : PartId) (f : Part → Part) (s : State) : (updPart p f s).pwr = s.pwr := rfl
@[simp] theorem updPart_flt (p : PartId) (f : Part → Part) (s : State) : (updPart p f s).flt = s.flt := rfl
@[simp] theorem updPart_out (p : PartId) (f : Part → Part) (s : State) : (updPart p f s).out = s.out := rfl
@[simp] theorem updPart_freeCtr (p : PartId) (f : Part → Part) (s : State) : (updPart p f s).freeCtr = s.freeCtr := rfl
@[simp] theorem updPart_core (p : PartId) (f : Part → Part) (s : State) (j : CoreId) : (updPart p f s).core j = s.core j := rfl
@[simp] theorem updPart_part_self (p : PartId) (f : Part → Part) (s : State) : (updPart p f s).part p = f (s.part p) := by simp [updPart, State.part]
theorem updPart_part (p : PartId) (f : Part → Part) (s : State) (j : PartId) : (updPart p f s).part j = if j = p then f (s.part p) else s.part j := by
  by_cases h : j = p
  · subst h; simp [updPart, State.part]
  · have h2 : p.1 ≠ j.1 := fun e => h (Fin.ext e.symm)
    simp [updPart, State.part, h, h2]
@[simp] theorem updPart_func (p : PartId) (f : Part → Part) (s : State) (j : FuncId) : (updPart p f s).func j = s.func j := rfl
@[simp] theorem updPart_port (p : PartId) (f : Part → Part) (s : State) (j : PortId) : (updPart p f s).port j = s.port j := rfl

/-! ### updFunc -/

@[simp] theorem updFunc_pending (i : FuncId) (f : Func → Func) (s : State) : (updFunc i f s).pending = s.pending := rfl
@[simp] theorem updFunc_cores (i : FuncId) (f : Func → Func) (s : State) : (updFunc i f s).cores = s.cores := rfl
@[simp] theorem updFunc_parts (i : FuncId) (f : Func → Func) (s : State) : (updFunc i f s).parts = s.parts := rfl
@[simp] theorem updFunc_ports (i : FuncId) (f : Func → Func) (s : State) : (updFunc i f s).ports = s.ports := rfl
@[simp] theorem updFunc_mem (i : FuncId) (f : Func → Func) (s : State) : (updFunc i f s).mem = s.mem := rfl
@[simp] theorem updFunc_tick (i : FuncId) (f : Func → Func) (s : State) : (updFunc i f s).tick = s.tick := rfl
@[simp] theorem updFunc_own (i : FuncId) (f : Func → Func) (s : State) : (updFunc i f s).own = s.own := rfl
@[simp] theorem updFunc_img (i : FuncId) (f : Func → Func) (s : State) : (updFunc i f s).img = s.img := rfl
@[simp] theorem updFunc_sec (i : FuncId) (f : Func → Func) (s : State) : (updFunc i f s).sec = s.sec := rfl
@[simp] theorem updFunc_pwr (i : FuncId) (f : Func → Func) (s : State) : (updFunc i f s).pwr = s.pwr := rfl
@[simp] theorem updFunc_flt (i : FuncId) (f : Func → Func) (s : State) : (updFunc i f s).flt = s.flt := rfl
@[simp] theorem updFunc_out (i : FuncId) (f : Func → Func) (s : State) : (updFunc i f s).out = s.out := rfl
@[simp] theorem updFunc_freeCtr (i : FuncId) (f : Func → Func) (s : State) : (updFunc i f s).freeCtr = s.freeCtr := rfl
@[simp] theorem updFunc_core (i : FuncId) (f : Func → Func) (s : State) (j : CoreId) : (updFunc i f s).core j = s.core j := rfl
@[simp] theorem updFunc_part (i : FuncId) (f : Func → Func) (s : State) (j : PartId) : (updFunc i f s).part j = s.part j := rfl
@[simp] theorem updFunc_func_self (i : FuncId) (f : Func → Func) (s : State) : (updFunc i f s).func i = f (s.func i) := by simp [updFunc, State.func]
theorem updFunc_func (i : FuncId) (f : Func → Func) (s : State) (j : FuncId) : (updFunc i f s).func j = if j = i then f (s.func i) else s.func j := by
  by_cases h : j = i
  · subst h; simp [updFunc, State.func]
  · have h2 : i.1 ≠ j.1 := fun e => h (Fin.ext e.symm)
    simp [updFunc, State.func, h, h2]
@[simp] theorem updFunc_port (i : FuncId) (f : Func → Func) (s : State) (j : PortId) : (updFunc i f s).port j = s.port j := rfl

/-! ### updPort -/

@[simp] theorem updPort_pending (i : PortId) (f : Port → Port) (s : State) : (updPort i f s).pending = s.pending := rfl
@[simp] theorem updPort_cores (i : PortId) (f : Port → Port) (s : State) : (updPort i f s).cores = s.cores := rfl
@[simp] theorem updPort_parts (i : PortId) (f : Port → Port) (s : State) : (updPort i f s).parts = s.parts := rfl
@[simp] theorem updPort_funcs (i : PortId) (f : Port → Port) (s : State) : (updPort i f s).funcs = s.funcs := rfl
@[simp] theorem updPort_mem (i : PortId) (f : Port → Port) (s : State) : (updPort i f s).mem = s.mem := rfl
@[simp] theorem updPort_tick (i : PortId) (f : Port → Port) (s : State) : (updPort i f s).tick = s.tick := rfl
@[simp] theorem updPort_own (i : PortId) (f : Port → Port) (s : State) : (updPort i f s).own = s.own := rfl
@[simp] theorem updPort_img (i : PortId) (f : Port → Port) (s : State) : (updPort i f s).img = s.img := rfl
@[simp] theorem updPort_sec (i : PortId) (f : Port → Port) (s : State) : (updPort i f s).sec = s.sec := rfl
@[simp] theorem updPort_pwr (i : PortId) (f : Port → Port) (s : State) : (updPort i f s).pwr = s.pwr := rfl
@[simp] theorem updPort_flt (i : PortId) (f : Port → Port) (s : State) : (updPort i f s).flt = s.flt := rfl
@[simp] theorem updPort_out (i : PortId) (f : Port → Port) (s : State) : (updPort i f s).out = s.out := rfl
@[simp] theorem updPort_freeCtr (i : PortId) (f : Port → Port) (s : State) : (updPort i f s).freeCtr = s.freeCtr := rfl
@[simp] theorem updPort_core (i : PortId) (f : Port → Port) (s : State) (j : CoreId) : (updPort i f s).core j = s.core j := rfl
@[simp] theorem updPort_part (i : PortId) (f : Port → Port) (s : State) (j : PartId) : (updPort i f s).part j = s.part j := rfl
@[simp] theorem updPort_func (i : PortId) (f : Port → Port) (s : State) (j : FuncId) : (updPort i f s).func j = s.func j := rfl
@[simp] theorem updPort_port_self (i : PortId) (f : Port → Port) (s : State) : (updPort i f s).port i = f (s.port i) := by simp [updPort, State.port]
theorem updPort_port (i : PortId) (f : Port → Port) (s : State) (j : PortId) : (updPort i f s).port j = if j = i then f (s.port i) else s.port j := by
  by_cases h : j = i
  · subst h; simp [updPort, State.port]
  · have h2 : i.1 ≠ j.1 := fun e => h (Fin.ext e.symm)
    simp [updPort, State.port, h, h2]

/-! ### updMem -/

@[simp] theorem updMem_pending (f : Mem → Mem) (s : State) : (updMem f s).pending = s.pending := rfl
@[simp] theorem updMem_cores (f : Mem → Mem) (s : State) : (updMem f s).cores = s.cores := rfl
@[simp] theorem updMem_parts (f : Mem → Mem) (s : State) : (updMem f s).parts = s.parts := rfl
@[simp] theorem updMem_funcs (f : Mem → Mem) (s : State) : (updMem f s).funcs = s.funcs := rfl
@[simp] theorem updMem_ports (f : Mem → Mem) (s : State) : (updMem f s).ports = s.ports := rfl
@[simp] theorem updMem_mem (f : Mem → Mem) (s : State) : (updMem f s).mem = f s.mem := rfl
@[simp] theorem updMem_tick (f : Mem → Mem) (s : State) : (updMem f s).tick = s.tick := rfl
@[simp] theorem updMem_own (f : Mem → Mem) (s : State) : (updMem f s).own = s.own := rfl
@[simp] theorem updMem_img (f : Mem → Mem) (s : State) : (updMem f s).img = s.img := rfl
@[simp] theorem updMem_sec (f : Mem → Mem) (s : State) : (updMem f s).sec = s.sec := rfl
@[simp] theorem updMem_pwr (f : Mem → Mem) (s : State) : (updMem f s).pwr = s.pwr := rfl
@[simp] theorem updMem_flt (f : Mem → Mem) (s : State) : (updMem f s).flt = s.flt := rfl
@[simp] theorem updMem_out (f : Mem → Mem) (s : State) : (updMem f s).out = s.out := rfl
@[simp] theorem updMem_freeCtr (f : Mem → Mem) (s : State) : (updMem f s).freeCtr = s.freeCtr := rfl
@[simp] theorem updMem_core (f : Mem → Mem) (s : State) (j : CoreId) : (updMem f s).core j = s.core j := rfl
@[simp] theorem updMem_part (f : Mem → Mem) (s : State) (j : PartId) : (updMem f s).part j = s.part j := rfl
@[simp] theorem updMem_func (f : Mem → Mem) (s : State) (j : FuncId) : (updMem f s).func j = s.func j := rfl
@[simp] theorem updMem_port (f : Mem → Mem) (s : State) (j : PortId) : (updMem f s).port j = s.port j := rfl

/-! ### updTick -/

@[simp] theorem updTick_pending (f : Tick → Tick) (s : State) : (updTick f s).pending = s.pending := rfl
@[simp] theorem updTick_cores (f : Tick → Tick) (s : State) : (updTick f s).cores = s.cores := rfl
@[simp] theorem updTick_parts (f : Tick → Tick) (s : State) : (updTick f s).parts = s.parts := rfl
@[simp] theorem updTick_funcs (f : Tick → Tick) (s : State) : (updTick f s).funcs = s.funcs := rfl
@[simp] theorem updTick_ports (f : Tick → Tick) (s : State) : (updTick f s).ports = s.ports := rfl
@[simp] theorem updTick_mem (f : Tick → Tick) (s : State) : (updTick f s).mem = s.mem := rfl
@[simp] theorem updTick_tick (f : Tick → Tick) (s : State) : (updTick f s).tick = f s.tick := rfl
@[simp] theorem updTick_own (f : Tick → Tick) (s : State) : (updTick f s).own = s.own := rfl
@[simp] theorem updTick_img (f : Tick → Tick) (s : State) : (updTick f s).img = s.img := rfl
@[simp] theorem updTick_sec (f : Tick → Tick) (s : State) : (updTick f s).sec = s.sec := rfl
@[simp] theorem updTick_pwr (f : Tick → Tick) (s : State) : (updTick f s).pwr = s.pwr := rfl
@[simp] theorem updTick_flt (f : Tick → Tick) (s : State) : (updTick f s).flt = s.flt := rfl
@[simp] theorem updTick_out (f : Tick → Tick) (s : State) : (updTick f s).out = s.out := rfl
@[simp] theorem updTick_freeCtr (f : Tick → Tick) (s : State) : (updTick f s).freeCtr = s.freeCtr := rfl
@[simp] theorem updTick_core (f : Tick → Tick) (s : State) (j : CoreId) : (updTick f s).core j = s.core j := rfl
@[simp] theorem updTick_part (f : Tick → Tick) (s : State) (j : PartId) : (updTick f s).part j = s.part j := rfl
@[simp] theorem updTick_func (f : Tick → Tick) (s : State) (j : FuncId) : (updTick f s).func j = s.func j := rfl
@[simp] theorem updTick_port (f : Tick → Tick) (s : State) (j : PortId) : (updTick f s).port j = s.port j := rfl

/-! ### updOwn -/

@[simp] theorem updOwn_pending (f : Own → Own) (s : State) : (updOwn f s).pending = s.pending := rfl
@[simp] theorem updOwn_cores (f : Own → Own) (s : State) : (updOwn f s).cores = s.cores := rfl
@[simp] theorem updOwn_parts (f : Own → Own) (s : State) : (updOwn f s).parts = s.parts := rfl
@[simp] theorem updOwn_funcs (f : Own → Own) (s : State) : (updOwn f s).funcs = s.funcs := rfl
@[simp] theorem updOwn_ports (f : Own → Own) (s : State) : (updOwn f s).ports = s.ports := rfl
@[simp] theorem updOwn_mem (f : Own → Own) (s : State) : (updOwn f s).mem = s.mem := rfl
@[simp] theorem updOwn_tick (f : Own → Own) (s : State) : (updOwn f s).tick = s.tick := rfl
@[simp] theorem updOwn_own (f : Own → Own) (s : State) : (updOwn f s).own = f s.own := rfl
@[simp] theorem updOwn_img (f : Own → Own) (s : State) : (updOwn f s).img = s.img := rfl
@[simp] theorem updOwn_sec (f : Own → Own) (s : State) : (updOwn f s).sec = s.sec := rfl
@[simp] theorem updOwn_pwr (f : Own → Own) (s : State) : (updOwn f s).pwr = s.pwr := rfl
@[simp] theorem updOwn_flt (f : Own → Own) (s : State) : (updOwn f s).flt = s.flt := rfl
@[simp] theorem updOwn_out (f : Own → Own) (s : State) : (updOwn f s).out = s.out := rfl
@[simp] theorem updOwn_freeCtr (f : Own → Own) (s : State) : (updOwn f s).freeCtr = s.freeCtr := rfl
@[simp] theorem updOwn_core (f : Own → Own) (s : State) (j : CoreId) : (updOwn f s).core j = s.core j := rfl
@[simp] theorem updOwn_part (f : Own → Own) (s : State) (j : PartId) : (updOwn f s).part j = s.part j := rfl
@[simp] theorem updOwn_func (f : Own → Own) (s : State) (j : FuncId) : (updOwn f s).func j = s.func j := rfl
@[simp] theorem updOwn_port (f : Own → Own) (s : State) (j : PortId) : (updOwn f s).port j = s.port j := rfl

/-! ### updImg -/

@[simp] theorem updImg_pending (f : Img → Img) (s : State) : (updImg f s).pending = s.pending := rfl
@[simp] theorem updImg_cores (f : Img → Img) (s : State) : (updImg f s).cores = s.cores := rfl
@[simp] theorem updImg_parts (f : Img → Img) (s : State) : (updImg f s).parts = s.parts := rfl
@[simp] theorem updImg_funcs (f : Img → Img) (s : State) : (updImg f s).funcs = s.funcs := rfl
@[simp] theorem updImg_ports (f : Img → Img) (s : State) : (updImg f s).ports = s.ports := rfl
@[simp] theorem updImg_mem (f : Img → Img) (s : State) : (updImg f s).mem = s.mem := rfl
@[simp] theorem updImg_tick (f : Img → Img) (s : State) : (updImg f s).tick = s.tick := rfl
@[simp] theorem updImg_own (f : Img → Img) (s : State) : (updImg f s).own = s.own := rfl
@[simp] theorem updImg_img (f : Img → Img) (s : State) : (updImg f s).img = f s.img := rfl
@[simp] theorem updImg_sec (f : Img → Img) (s : State) : (updImg f s).sec = s.sec := rfl
@[simp] theorem updImg_pwr (f : Img → Img) (s : State) : (updImg f s).pwr = s.pwr := rfl
@[simp] theorem updImg_flt (f : Img → Img) (s : State) : (updImg f s).flt = s.flt := rfl
@[simp] theorem updImg_out (f : Img → Img) (s : State) : (updImg f s).out = s.out := rfl
@[simp] theorem updImg_freeCtr (f : Img → Img) (s : State) : (updImg f s).freeCtr = s.freeCtr := rfl
@[simp] theorem updImg_core (f : Img → Img) (s : State) (j : CoreId) : (updImg f s).core j = s.core j := rfl
@[simp] theorem updImg_part (f : Img → Img) (s : State) (j : PartId) : (updImg f s).part j = s.part j := rfl
@[simp] theorem updImg_func (f : Img → Img) (s : State) (j : FuncId) : (updImg f s).func j = s.func j := rfl
@[simp] theorem updImg_port (f : Img → Img) (s : State) (j : PortId) : (updImg f s).port j = s.port j := rfl

/-! ### updSec -/

@[simp] theorem updSec_pending (f : Sec → Sec) (s : State) : (updSec f s).pending = s.pending := rfl
@[simp] theorem updSec_cores (f : Sec → Sec) (s : State) : (updSec f s).cores = s.cores := rfl
@[simp] theorem updSec_parts (f : Sec → Sec) (s : State) : (updSec f s).parts = s.parts := rfl
@[simp] theorem updSec_funcs (f : Sec → Sec) (s : State) : (updSec f s).funcs = s.funcs := rfl
@[simp] theorem updSec_ports (f : Sec → Sec) (s : State) : (updSec f s).ports = s.ports := rfl
@[simp] theorem updSec_mem (f : Sec → Sec) (s : State) : (updSec f s).mem = s.mem := rfl
@[simp] theorem updSec_tick (f : Sec → Sec) (s : State) : (updSec f s).tick = s.tick := rfl
@[simp] theorem updSec_own (f : Sec → Sec) (s : State) : (updSec f s).own = s.own := rfl
@[simp] theorem updSec_img (f : Sec → Sec) (s : State) : (updSec f s).img = s.img := rfl
@[simp] theorem updSec_sec (f : Sec → Sec) (s : State) : (updSec f s).sec = f s.sec := rfl
@[simp] theorem updSec_pwr (f : Sec → Sec) (s : State) : (updSec f s).pwr = s.pwr := rfl
@[simp] theorem updSec_flt (f : Sec → Sec) (s : State) : (updSec f s).flt = s.flt := rfl
@[simp] theorem updSec_out (f : Sec → Sec) (s : State) : (updSec f s).out = s.out := rfl
@[simp] theorem updSec_freeCtr (f : Sec → Sec) (s : State) : (updSec f s).freeCtr = s.freeCtr := rfl
@[simp] theorem updSec_core (f : Sec → Sec) (s : State) (j : CoreId) : (updSec f s).core j = s.core j := rfl
@[simp] theorem updSec_part (f : Sec → Sec) (s : State) (j : PartId) : (updSec f s).part j = s.part j := rfl
@[simp] theorem updSec_func (f : Sec → Sec) (s : State) (j : FuncId) : (updSec f s).func j = s.func j := rfl
@[simp] theorem updSec_port (f : Sec → Sec) (s : State) (j : PortId) : (updSec f s).port j = s.port j := rfl

/-! ### updPwr -/

@[simp] theorem updPwr_pending (f : Pwr → Pwr) (s : State) : (updPwr f s).pending = s.pending := rfl
@[simp] theorem updPwr_cores (f : Pwr → Pwr) (s : State) : (updPwr f s).cores = s.cores := rfl
@[simp] theorem updPwr_parts (f : Pwr → Pwr) (s : State) : (updPwr f s).parts = s.parts := rfl
@[simp] theorem updPwr_funcs (f : Pwr → Pwr) (s : State) : (updPwr f s).funcs = s.funcs := rfl
@[simp] theorem updPwr_ports (f : Pwr → Pwr) (s : State) : (updPwr f s).ports = s.ports := rfl
@[simp] theorem updPwr_mem (f : Pwr → Pwr) (s : State) : (updPwr f s).mem = s.mem := rfl
@[simp] theorem updPwr_tick (f : Pwr → Pwr) (s : State) : (updPwr f s).tick = s.tick := rfl
@[simp] theorem updPwr_own (f : Pwr → Pwr) (s : State) : (updPwr f s).own = s.own := rfl
@[simp] theorem updPwr_img (f : Pwr → Pwr) (s : State) : (updPwr f s).img = s.img := rfl
@[simp] theorem updPwr_sec (f : Pwr → Pwr) (s : State) : (updPwr f s).sec = s.sec := rfl
@[simp] theorem updPwr_pwr (f : Pwr → Pwr) (s : State) : (updPwr f s).pwr = f s.pwr := rfl
@[simp] theorem updPwr_flt (f : Pwr → Pwr) (s : State) : (updPwr f s).flt = s.flt := rfl
@[simp] theorem updPwr_out (f : Pwr → Pwr) (s : State) : (updPwr f s).out = s.out := rfl
@[simp] theorem updPwr_freeCtr (f : Pwr → Pwr) (s : State) : (updPwr f s).freeCtr = s.freeCtr := rfl
@[simp] theorem updPwr_core (f : Pwr → Pwr) (s : State) (j : CoreId) : (updPwr f s).core j = s.core j := rfl
@[simp] theorem updPwr_part (f : Pwr → Pwr) (s : State) (j : PartId) : (updPwr f s).part j = s.part j := rfl
@[simp] theorem updPwr_func (f : Pwr → Pwr) (s : State) (j : FuncId) : (updPwr f s).func j = s.func j := rfl
@[simp] theorem updPwr_port (f : Pwr → Pwr) (s : State) (j : PortId) : (updPwr f s).port j = s.port j := rfl

/-! ### updFlt -/

@[simp] theorem updFlt_pending (f : Flt → Flt) (s : State) : (updFlt f s).pending = s.pending := rfl
@[simp] theorem updFlt_cores (f : Flt → Flt) (s : State) : (updFlt f s).cores = s.cores := rfl
@[simp] theorem updFlt_parts (f : Flt → Flt) (s : State) : (updFlt f s).parts = s.parts := rfl
@[simp] theorem updFlt_funcs (f : Flt → Flt) (s : State) : (updFlt f s).funcs = s.funcs := rfl
@[simp] theorem updFlt_ports (f : Flt → Flt) (s : State) : (updFlt f s).ports = s.ports := rfl
@[simp] theorem updFlt_mem (f : Flt → Flt) (s : State) : (updFlt f s).mem = s.mem := rfl
@[simp] theorem updFlt_tick (f : Flt → Flt) (s : State) : (updFlt f s).tick = s.tick := rfl
@[simp] theorem updFlt_own (f : Flt → Flt) (s : State) : (updFlt f s).own = s.own := rfl
@[simp] theorem updFlt_img (f : Flt → Flt) (s : State) : (updFlt f s).img = s.img := rfl
@[simp] theorem updFlt_sec (f : Flt → Flt) (s : State) : (updFlt f s).sec = s.sec := rfl
@[simp] theorem updFlt_pwr (f : Flt → Flt) (s : State) : (updFlt f s).pwr = s.pwr := rfl
@[simp] theorem updFlt_flt (f : Flt → Flt) (s : State) : (updFlt f s).flt = f s.flt := rfl
@[simp] theorem updFlt_out (f : Flt → Flt) (s : State) : (updFlt f s).out = s.out := rfl
@[simp] theorem updFlt_freeCtr (f : Flt → Flt) (s : State) : (updFlt f s).freeCtr = s.freeCtr := rfl
@[simp] theorem updFlt_core (f : Flt → Flt) (s : State) (j : CoreId) : (updFlt f s).core j = s.core j := rfl
@[simp] theorem updFlt_part (f : Flt → Flt) (s : State) (j : PartId) : (updFlt f s).part j = s.part j := rfl
@[simp] theorem updFlt_func (f : Flt → Flt) (s : State) (j : FuncId) : (updFlt f s).func j = s.func j := rfl
@[simp] theorem updFlt_port (f : Flt → Flt) (s : State) (j : PortId) : (updFlt f s).port j = s.port j := rfl

/-! ### emit -/

@[simp] theorem emit_pending (o : Out) (s : State) : (emit o s).pending = s.pending := rfl
@[simp] theorem emit_cores (o : Out) (s : State) : (emit o s).cores = s.cores := rfl
@[simp] theorem emit_parts (o : Out) (s : State) : (emit o s).parts = s.parts := rfl
@[simp] theorem emit_funcs (o : Out) (s : State) : (emit o s).funcs = s.funcs := rfl
@[simp] theorem emit_ports (o : Out) (s : State) : (emit o s).ports = s.ports := rfl
@[simp] theorem emit_mem (o : Out) (s : State) : (emit o s).mem = s.mem := rfl
@[simp] theorem emit_tick (o : Out) (s : State) : (emit o s).tick = s.tick := rfl
@[simp] theorem emit_own (o : Out) (s : State) : (emit o s).own = s.own := rfl
@[simp] theorem emit_img (o : Out) (s : State) : (emit o s).img = s.img := rfl
@[simp] theorem emit_sec (o : Out) (s : State) : (emit o s).sec = s.sec := rfl
@[simp] theorem emit_pwr (o : Out) (s : State) : (emit o s).pwr = s.pwr := rfl
@[simp] theorem emit_flt (o : Out) (s : State) : (emit o s).flt = s.flt := rfl
@[simp] theorem emit_out (o : Out) (s : State) : (emit o s).out = o :: s.out := rfl
@[simp] theorem emit_freeCtr (o : Out) (s : State) : (emit o s).freeCtr = s.freeCtr := rfl
@[simp] theorem emit_core (o : Out) (s : State) (j : CoreId) : (emit o s).core j = s.core j := rfl
@[simp] theorem emit_part (o : Out) (s : State) (j : PartId) : (emit o s).part j = s.part j := rfl
@[simp] theorem emit_func (o : Out) (s : State) (j : FuncId) : (emit o s).func j = s.func j := rfl
@[simp] theorem emit_port (o : Out) (s : State) (j : PortId) : (emit o s).port j = s.port j := rfl

end Sys2Proof.Machine
end

