-- ==== Sys2Proof/Laws/Keeps.lean ====
section
/-! SUPPORT. The relation of a state to one that a command's work leads to: the queue of commands is untouched, the security, debug and
power modes stand, and every byte store keeps its canonical form. Each operation has one lemma that says so. -/

namespace Sys2Proof.Machine

/-- What every operation keeps. -/
structure Keeps (s t : State) : Prop where
  pending : t.pending = s.pending
  modes   : LegalModes s → LegalModes t
  stores  : StoresOk s → StoresOk t

theorem CoreOk.withWs {x : Core} {m : SMap Byte} (h : CoreOk x) (hm : Memory.wf m) : CoreOk { x with ws := m } := ⟨hm, h.2⟩

theorem LegalModes.of_modes {s t : State} (e : t.modes = s.modes) (h : LegalModes s) : LegalModes t := by
  simp only [State.modes, modesOf, Prod.mk.injEq] at e
  obtain ⟨⟨e1, e2, e3, e4⟩, e5⟩ := e
  unfold LegalModes
  rw [e1, e2, e3, e4, e5]
  exact h

namespace Keeps

theorem refl (s : State) : Keeps s s := ⟨rfl, id, id⟩

theorem trans {s t u : State} (h : Keeps s t) (k : Keeps t u) : Keeps s u :=
  ⟨k.pending.trans h.pending, fun x => k.modes (h.modes x), fun x => k.stores (h.stores x)⟩

/-- A state written out. -/
theorem lit {s t : State} {pending : List Instr} {cores : Vector Core 128} {parts : Vector Part 64} {funcs : Vector Func 65} {ports : Vector Port 8}
    {mem : Mem} {tick : Tick} {own : Own} {img : Img} {sec : Sec} {pwr : Pwr} {flt : Flt} {out : List Out} {freeCtr : Nat} (h : Keeps s t)
    (e1 : pending = t.pending) (e2 : State.modes ⟨pending, cores, parts, funcs, ports, mem, tick, own, img, sec, pwr, flt, out, freeCtr⟩ = t.modes)
    (e3 : MemOk t.mem → MemOk mem) (e4 : (∀ k : Fin 3, Memory.wf (t.own.sigBuf[k])) → ∀ k : Fin 3, Memory.wf (own.sigBuf[k]))
    (e5 : Memory.wf t.sec.mbox → Memory.wf sec.mbox) (e6 : (∀ c : CoreId, CoreOk t.cores[c.1]) → ∀ c : CoreId, CoreOk cores[c.1])
    (e7 : (∀ p : PartId, Memory.wf t.parts[p.1].xmem) → ∀ p : PartId, Memory.wf parts[p.1].xmem) :
    Keeps s ⟨pending, cores, parts, funcs, ports, mem, tick, own, img, sec, pwr, flt, out, freeCtr⟩ :=
  ⟨e1.trans h.pending, fun x => LegalModes.of_modes e2 (h.modes x), fun x => let k := h.stores x; ⟨e3 k.1, ⟨e4 k.2.1.1, e5 k.2.1.2⟩, e6 k.2.2.1, e7 k.2.2.2⟩⟩

/-- A change of fields that are neither queue, mode nor store. -/
theorem same {s t u : State} (h : Keeps s t) (e1 : u.pending = t.pending) (e2 : u.modes = t.modes) (e3 : StoresOk t → StoresOk u) : Keeps s u :=
  ⟨e1.trans h.pending, fun x => LegalModes.of_modes e2 (h.modes x), fun x => e3 (h.stores x)⟩

theorem letS {s : State} {v : State} {b : State → State} (h0 : Keeps s v) (h : ∀ x, Keeps s x → Keeps s (b x)) : Keeps s (let x := v; b x) :=
  h v h0

theorem letV {α : Type} {s : State} {v : α} {b : α → State} (h : ∀ x, Keeps s (b x)) : Keeps s (let x := v; b x) := h v

theorem ite_ {s a b : State} {c : Prop} [Decidable c] (ha : Keeps s a) (hb : Keeps s b) : Keeps s (if c then a else b) := by
  split <;> assumption

theorem updCore {s t : State} {c : CoreId} {f : Core → Core} (h : Keeps s t) (hf : ∀ x, CoreOk x → CoreOk (f x)) : Keeps s (updCore c f t) :=
  same h rfl rfl (fun k => ⟨k.1, k.2.1, fun d => by
    rw [updCore_core]
    split
    · exact hf _ (k.2.2.1 c)
    · exact k.2.2.1 d, k.2.2.2⟩)

theorem putCore {s t : State} {c : CoreId} {x : Core} (h : Keeps s t) (hx : CoreOk (t.core c) → CoreOk x) : Keeps s (Sys2Proof.Machine.updCore c (fun _ => x) t) :=
  same h rfl rfl (fun k => ⟨k.1, k.2.1, fun d => by
    rw [updCore_core]
    split
    · exact hx (k.2.2.1 c)
    · exact k.2.2.1 d, k.2.2.2⟩)

theorem putWs {s t : State} {c : CoreId} {m : SMap Byte} (h : Keeps s t) (hm : Memory.wf (t.core c).ws → Memory.wf m) :
    Keeps s (Sys2Proof.Machine.updCore c (fun x => { x with ws := m }) t) :=
  same h rfl rfl (fun k => ⟨k.1, k.2.1, fun d => by
    rw [updCore_core]
    split
    · exact CoreOk.withWs (k.2.2.1 c) (hm (k.2.2.1 c).1)
    · exact k.2.2.1 d, k.2.2.2⟩)

theorem free {s t : State} {n : Nat} (h : Keeps s t) : Keeps s { t with freeCtr := n } := same h rfl rfl id

theorem updPart {s t : State} {p : PartId} {f : Part → Part} (h : Keeps s t) (hf : ∀ x, Memory.wf x.xmem → Memory.wf (f x).xmem) :
    Keeps s (updPart p f t) :=
  same h rfl rfl (fun k => ⟨k.1, k.2.1, k.2.2.1, fun d => by
    rw [updPart_part]
    split
    · exact hf _ (k.2.2.2 p)
    · exact k.2.2.2 d⟩)

theorem updFunc {s t : State} {i : FuncId} {f : Func → Func} (h : Keeps s t) : Keeps s (updFunc i f t) := same h rfl rfl id
theorem updPort {s t : State} {i : PortId} {f : Port → Port} (h : Keeps s t) : Keeps s (updPort i f t) := same h rfl rfl id
theorem updTick {s t : State} {f : Tick → Tick} (h : Keeps s t) : Keeps s (updTick f t) := same h rfl rfl id
theorem updImg {s t : State} {f : Img → Img} (h : Keeps s t) : Keeps s (updImg f t) := same h rfl rfl id
theorem updFlt {s t : State} {f : Flt → Flt} (h : Keeps s t) : Keeps s (updFlt f t) := same h rfl rfl id
theorem emit {s t : State} {o : Out} (h : Keeps s t) : Keeps s (emit o t) := same h rfl rfl id

theorem updMem {s t : State} {f : Mem → Mem} (h : Keeps s t) (hf : ∀ m, MemOk m → MemOk (f m)) : Keeps s (updMem f t) :=
  same h rfl rfl (fun k => ⟨hf _ k.1, k.2⟩)

theorem updOwn {s t : State} {f : Own → Own} (h : Keeps s t)
    (hf : ∀ o : Own, (∀ k : Fin 3, Memory.wf (o.sigBuf[k])) → ∀ k : Fin 3, Memory.wf ((f o).sigBuf[k])) : Keeps s (updOwn f t) :=
  same h rfl rfl (fun k => ⟨k.1, ⟨hf _ k.2.1.1, k.2.1.2⟩, k.2.2⟩)

theorem updSec {s t : State} {f : Sec → Sec} (h : Keeps s t) (hm : ∀ x, modesOf (f x) = modesOf x)
    (hf : ∀ x, Memory.wf x.mbox → Memory.wf (f x).mbox) : Keeps s (updSec f t) :=
  same h rfl (by simp [State.modes, hm]) (fun k => ⟨k.1, ⟨k.2.1.1, hf _ k.2.1.2⟩, k.2.2⟩)

theorem updPwr {s t : State} {f : Pwr → Pwr} (h : Keeps s t) (hm : ∀ w, (f w).state = w.state) : Keeps s (updPwr f t) :=
  same h rfl (by simp [State.modes, hm]) id

/-- A change of security state or debug level that stays legal. -/
theorem setSec {s t : State} {f : Sec → Sec} (h : Keeps s t) (hl : LegalModes t → LegalModes (Sys2Proof.Machine.updSec f t))
    (hf : Memory.wf t.sec.mbox → Memory.wf (f t.sec).mbox) : Keeps s (Sys2Proof.Machine.updSec f t) :=
  ⟨h.pending, fun k => hl (h.modes k), fun k => let k := h.stores k; ⟨k.1, ⟨k.2.1.1, hf k.2.1.2⟩, k.2.2⟩⟩

/-- A change of power state that stays legal. -/
theorem setPwr {s t : State} {f : Pwr → Pwr} (h : Keeps s t) (hl : LegalModes t → LegalModes (Sys2Proof.Machine.updPwr f t)) :
    Keeps s (Sys2Proof.Machine.updPwr f t) := ⟨h.pending, fun k => hl (h.modes k), h.stores⟩

/-- P0, P1 or P2 bar no debug level. -/
theorem setRun {s t : State} {f : Pwr → Pwr} (h : Keeps s t) (hm : ∀ w, (f w).state ≠ .p3 ∧ (f w).state ≠ .p4) : Keeps s (Sys2Proof.Machine.updPwr f t) :=
  ⟨h.pending, fun k => ⟨(h.modes k).1, fun e => absurd e (hm _).2, fun e => absurd e (hm _).1, (h.modes k).2.2.2⟩, h.stores⟩

theorem forAll {α : Type} {s : State} {l : List α} {f : α → State → State} {t : State}
    (hf : ∀ x u, Keeps s u → Keeps s (f x u)) (h : Keeps s t) : Keeps s (forAll l f t) := by
  unfold Sys2Proof.Machine.forAll
  induction l generalizing t with
  | nil => exact h
  | cons x r ih => exact ih (hf x t h)

theorem whenS {s t : State} {b : Bool} {f : State → State} (hf : ∀ u, Keeps s u → Keeps s (f u)) (h : Keeps s t) : Keeps s (whenS b f t) := by
  unfold Sys2Proof.Machine.whenS
  split
  · exact hf t h
  · exact h

/-- What every outcome of an operation that may hold keeps. -/
def Opt (s : State) (o : Option State) : Prop := ∀ t, o = some t → Keeps s t

theorem Opt.none_ {s : State} : Opt s none := fun _ h => nomatch h
theorem Opt.some_ {s t : State} (h : Keeps s t) : Opt s (some t) := fun _ e => by cases e; exact h
theorem Opt.ite_ {s : State} {c : Prop} [Decidable c] {a b : Option State} (ha : Opt s a) (hb : Opt s b) : Opt s (if c then a else b) := by
  split <;> assumption
theorem Opt.map_ {s : State} {o : Option State} {f : State → State} (h : Opt s o) (hf : ∀ u, Keeps s u → Keeps s (f u)) : Opt s (o.map f) := by
  intro t e
  obtain ⟨u, hu, rfl⟩ := Option.map_eq_some_iff.mp e
  exact hf u (h u hu)
theorem Opt.bind_ {s : State} {o : Option State} {f : State → Option State} (h : Opt s o) (hf : ∀ u, Keeps s u → Opt s (f u)) : Opt s (o.bind f) := by
  intro t e
  obtain ⟨u, hu, e⟩ := Option.bind_eq_some_iff.mp e
  exact hf u (h u hu) t e

end Keeps

end Sys2Proof.Machine
end

