-- ==== Sys2Proof/Laws/Stores.lean ====
section
/-! SUPPORT. The functions that write tiles, records, streams and partials into a byte store keep its canonical form. -/

namespace Sys2Proof.Machine

theorem foldl_wf {α : Type} (l : List α) (f : SMap Byte → α → SMap Byte) (hf : ∀ m x, Memory.wf m → Memory.wf (f m x)) (m : SMap Byte)
    (h : Memory.wf m) : Memory.wf (l.foldl f m) := by
  induction l generalizing m with
  | nil => exact h
  | cons x r ih => exact ih _ (hf m x h)

theorem foldl_fst_wf {α β : Type} (l : List α) (f : SMap Byte × β → α → SMap Byte × β) (hf : ∀ a x, Memory.wf a.1 → Memory.wf (f a x).1)
    (a : SMap Byte × β) (h : Memory.wf a.1) : Memory.wf (l.foldl f a).1 := by
  induction l generalizing a with
  | nil => exact h
  | cons x r ih => exact ih _ (hf a x h)

theorem foldl_core {α β : Type} (l : List α) (f : Core × β → α → Core × β) (hf : ∀ a x, CoreOk a.1 → CoreOk (f a x).1)
    (a : Core × β) (h : CoreOk a.1) : CoreOk (l.foldl f a).1 := by
  induction l generalizing a with
  | nil => exact h
  | cons x r ih => exact ih _ (hf a x h)

theorem wrElem_wf (m : SMap Byte) (a w i c : Nat) (h : Memory.wf m) : Memory.wf (wrElem m a w i c) := wrLE_wf _ _ _ _ h

theorem wsWr_wf (m : SMap Byte) (a : Nat) (l : List Byte) (h : Memory.wf m) : Memory.wf (wsWr m a l) := wrBytes_wf _ _ _ h

theorem writeRecord_wf (ws : SMap Byte) (a tag pol : Nat) (q : QTile) (live : Nat → Bool) (h : Memory.wf ws) :
    Memory.wf (writeRecord ws a tag pol q live) := by
  unfold writeRecord
  dsimp only
  refine foldl_wf _ _ (fun m x hm => ?_) _ (foldl_wf _ _ (fun m x hm => ?_) _ (wsWr_wf _ _ _ h))
  · split
    · exact foldl_wf _ _ (fun m x hm => wrElem_wf _ _ _ _ _ hm) _ hm
    · exact hm
  · split
    · exact wsWr_wf _ _ _ hm
    · exact hm

theorem storeTile_wf (ws : SMap Byte) (a sa : Nat) (t : ETile) (live : Nat → Bool) (h : Memory.wf ws) : Memory.wf (storeTile ws a sa t live) := by
  unfold storeTile
  dsimp only
  refine foldl_wf _ _ (fun m x hm => ?_) _ (foldl_wf _ _ (fun m x hm => ?_) _ h)
  · split
    · exact wsWr_wf _ _ _ hm
    · exact hm
  · split
    · exact foldl_wf _ _ (fun m x hm => wrElem_wf _ _ _ _ _ hm) _ hm
    · exact hm

theorem writePartial_wf (ws : SMap Byte) (a : Nat) (x y z : W32) (st : Nat) (h : Memory.wf ws) : Memory.wf (writePartial ws a x y z st) :=
  wsWr_wf _ _ _ h

theorem clearSide_wf (ws : SMap Byte) (l : List Byte) (n : Nat) (h : Memory.wf ws) : Memory.wf (clearSide ws l n) :=
  foldl_wf _ _ (fun _ _ hm => writePartial_wf _ _ _ _ _ _ hm) _ h

theorem emptySide_wf (ws : SMap Byte) (l : List Byte) (n j : Nat) (h : Memory.wf ws) : Memory.wf (emptySide ws l n j) :=
  foldl_wf _ _ (fun _ _ hm => foldl_wf _ _ (fun _ _ hm => writePartial_wf _ _ _ _ _ _ hm) _ hm) _ h

theorem statPartials_wf (ws : SMap Byte) (l : List Byte) (n j : Nat) (vals : List (List W32)) (h : Memory.wf ws) :
    Memory.wf (statPartials ws l n j vals).1 := by
  unfold statPartials
  refine foldl_fst_wf _ _ (fun a x ha => ?_) _ h
  dsimp only
  split <;> exact writePartial_wf _ _ _ _ _ _ ha

theorem redPartials_wf (ws : SMap Byte) (l : List Byte) (n j r : Nat) (vals : List (List W32)) (h : Memory.wf ws) :
    Memory.wf (redPartials ws l n j r vals).1 :=
  foldl_fst_wf _ _ (fun _ _ ha => writePartial_wf _ _ _ _ _ _ ha) _ h

theorem sidePartials_wf (ws : SMap Byte) (l : List Byte) (n j r : Nat) (vals : List (List W32)) (h : Memory.wf ws) :
    Memory.wf (sidePartials ws l n j r vals).1 := by
  unfold sidePartials
  have h1 : Memory.wf (if chEpi l 9 then redPartials ws l n j r vals else (ws, 0)).1 := by
    split
    · exact redPartials_wf _ _ _ _ _ _ h
    · exact h
  generalize (if chEpi l 9 then redPartials ws l n j r vals else (ws, 0)) = z at h1
  obtain ⟨w, f⟩ := z
  dsimp only
  split
  · exact statPartials_wf _ _ _ _ _ h1
  · exact h1

theorem lastFold_wf (ws : SMap Byte) (l : List Byte) (tiles rows : Nat) (eps : W32) (r : SMap Byte × VF) (e : lastFold ws l tiles rows eps = some r)
    (h : Memory.wf ws) : Memory.wf r.1 := by
  unfold lastFold at e
  extract_lets red stat ws' o at e
  split at e
  · cases e
  · cases e
    exact foldl_wf _ _ (fun _ _ hm => wsWr_wf _ _ _ hm) _ (foldl_wf _ _ (fun _ _ hm => wsWr_wf _ _ _ hm) _ h)

theorem outBlocks_wf (tails : List Nat) (ws : SMap Byte) (e : StreamE) (i0 : Nat) (vals : List (Option W32)) (h : Memory.wf ws) :
    Memory.wf (outBlocks tails ws e i0 vals).1 := by
  unfold outBlocks
  generalize (if isKC e.fmt then 64 else 32) = k
  refine foldl_fst_wf _ _ (fun a x ha => ?_) _ h
  dsimp only
  split
  · refine foldl_fst_wf _ _ (fun b y hb => ?_) _ ha
    obtain ⟨v, i⟩ := y
    cases v with
    | none => exact hb
    | some w => exact wrElem_wf _ _ _ _ _ hb
  · exact wsWr_wf _ _ _ (foldl_wf _ _ (fun _ _ hm => wrElem_wf _ _ _ _ _ hm) _ ha)

theorem streamOut_wf (tails : List Nat) (int : Bool) (ws : SMap Byte) (e : StreamE) (i0 : Nat) (vals : List (Option W32)) (h : Memory.wf ws) :
    Memory.wf (streamOut tails int ws e i0 vals).1 := by
  unfold streamOut
  split
  · exact h
  · split
    · exact outBlocks_wf _ _ _ _ _ h
    · refine foldl_fst_wf _ _ (fun b y hb => ?_) _ h
      obtain ⟨v, i⟩ := y
      cases v with
      | none => exact hb
      | some w => exact wrElem_wf _ _ _ _ _ hb

theorem putBeat_ok (tails : List Nat) (int : Bool) (e : StreamE) (i0 : Nat) (vals : List (Option W32)) (x : Core) (h : CoreOk x) :
    CoreOk (putBeat tails int e i0 vals x).1 := by
  unfold putBeat
  split
  · exact h
  · exact ⟨streamOut_wf _ _ _ _ _ _ h.1, h.2⟩

theorem putChain_ok (e : StreamE) (vals : List (Option W32)) (x : Core) (h : CoreOk x) : CoreOk (putChain e vals x).1 := by
  unfold putChain
  split <;> exact h

theorem putOut_ok (e : StreamE) (vals : List (Option W32)) (x : Core) (h : CoreOk x) : CoreOk (putOut e vals x).1 :=
  putChain_ok _ _ _ (putBeat_ok _ _ _ _ _ _ h)

theorem recipeBeat_ok (tails : List Nat) (ctr : Nat) (e : VXEntry) (bs : List Nat) (cs : List W32) (a : RecipeSt) (b : List Nat) (h : CoreOk a.x) :
    CoreOk (recipeBeat tails ctr e bs cs a b).x := by
  unfold recipeBeat
  exact putBeat_ok _ _ _ _ _ _ (putBeat_ok _ _ _ _ _ _ h)

theorem recipeBeats_ok (tails : List Nat) (ctr : Nat) (e : VXEntry) (bs : List Nat) (cs : List W32) (bl : List (List Nat)) (a : RecipeSt)
    (h : CoreOk a.x) : CoreOk (bl.foldl (recipeBeat tails ctr e bs cs) a).x := by
  induction bl generalizing a with
  | nil => exact h
  | cons b r ih => exact ih _ (recipeBeat_ok _ _ _ _ _ _ _ h)

theorem vxRecipe_ok (tails : List Nat) (ctr : Nat) (e : VXEntry) (l : List Byte) (x : Core) (h : CoreOk x) : CoreOk (vxRecipe tails ctr e l x).1 := by
  unfold vxRecipe
  exact putChain_ok _ _ _ (putChain_ok _ _ _ (recipeBeats_ok _ _ _ _ _ _ _ h))

theorem scanDo_ok (ctr : Nat) (e : VXEntry) (a : ScanSt) (b : List Nat) (h : CoreOk a.x) : CoreOk (scanDo ctr e a b).x := by
  unfold scanDo
  extract_lets src vs segs op
  generalize scanBeat op (vs.zip segs) a.carry = r
  exact putBeat_ok _ _ _ _ _ _ h

theorem scanDos_ok (ctr : Nat) (e : VXEntry) (bl : List (List Nat)) (a : ScanSt) (h : CoreOk a.x) :
    CoreOk (bl.foldl (scanDo ctr e) a).x := by
  induction bl generalizing a with
  | nil => exact h
  | cons b r ih => exact ih _ (scanDo_ok _ _ _ _ h)

theorem vxScan_ok (ctr : Nat) (e : VXEntry) (x : Core) (h : CoreOk x) : CoreOk (vxScan ctr e x).1 := by
  unfold vxScan
  exact putChain_ok _ _ _ (scanDos_ok _ _ _ _ h)

theorem vxPerm_ok (ctr : Nat) (e : VXEntry) (x : Core) (h : CoreOk x) : CoreOk (vxPerm ctr e x).1 := by
  unfold vxPerm
  refine putChain_ok _ _ _ (CoreOk.withWs h (foldl_fst_wf _ _ (fun a _ ha => ?_) _ h.1))
  dsimp only
  split
  · exact ha
  · exact foldl_wf _ _ (fun _ _ hm => wrElem_wf _ _ _ _ _ hm) _ ha

theorem vxNorm_ok (ctr : Nat) (e : VXEntry) (x : Core) (h : CoreOk x) : CoreOk (vxNorm ctr e x).1 := by
  unfold vxNorm
  exact CoreOk.withWs h (foldl_fst_wf _ _ (fun _ _ ha => wsWr_wf _ _ _ ha) _ h.1)

theorem vxReduce_ok (ctr : Nat) (e : VXEntry) (x : Core) (h : CoreOk x) : CoreOk (vxReduce ctr e x).1 := by
  unfold vxReduce
  exact putOut_ok _ _ _ h

theorem vxPark_ok (ctr : Nat) (e : VXEntry) (x : Core) (h : CoreOk x) : CoreOk (vxPark ctr e x).1 := by
  unfold vxPark
  refine CoreOk.withWs h (foldl_wf _ _ (fun _ _ hm => ?_) _ h.1)
  split <;> exact wsWr_wf _ _ _ hm

theorem vxRestore_ok (e : VXEntry) (x : Core) (h : CoreOk x) : CoreOk (vxRestore e x).1 := h

theorem vxMerge_ok (ctr : Nat) (e : VXEntry) (x : Core) (h : CoreOk x) : CoreOk (vxMerge ctr e x).1 := by
  unfold vxMerge
  extract_lets v b i g step
  refine foldl_core _ _ (fun a m ha => ?_) _ h
  unfold step
  extract_lets am al bm bl mm g2 src put
  have hput : ∀ l o f, CoreOk (put l o f).1 := fun l o f => ⟨wsWr_wf _ _ _ ha.1, ha.2⟩
  split
  · exact hput _ _ _
  · generalize fSub am mm = q1
    obtain ⟨d1, f1⟩ := q1
    dsimp only
    generalize fSub bm mm = q2
    obtain ⟨d2, f2⟩ := q2
    dsimp only
    generalize sExp2 false d1 = q3
    obtain ⟨aa, f3⟩ := q3
    dsimp only
    generalize sExp2 false d2 = q4
    obtain ⟨ab, f4⟩ := q4
    exact hput _ _ _

theorem activation_ok (ctr : Nat) (l : List Byte) (cs : List W32) (x : Core) (t : List (List W32)) (h : CoreOk x) :
    CoreOk (activation ctr l cs x t).2.1 := h

theorem boundValues_ok (ctr core : Nat) (e : MMEntry) (l : List Byte) (cs : List W32) (x : Core) (h : CoreOk x) :
    CoreOk (boundValues ctr core e l cs x).2.1 := by
  unfold boundValues
  extract_lets i g t c
  split
  · generalize skimTile e (c.getD 0x3F800000) g t = r
    exact h
  · split
    · generalize scoreTile e (c.getD 0x3F800000) g t = r
      exact h
    · generalize (if e.pv = true then _ else _ : List (List W32) × VF) = r0
      obtain ⟨t0, f0⟩ := r0
      dsimp only
      generalize (if chEpi l 1 = true then _ else _ : List (List W32) × VF) = r1
      obtain ⟨t1, f1⟩ := r1
      dsimp only
      generalize stResid x.ws l _ = r5
      obtain ⟨t5, f5⟩ := r5
      dsimp only
      split
      · exact activation_ok _ _ _ _ _ h
      · exact h

theorem spoil_wf (ctr : Nat) (runs : List (Nat × Nat)) (ws : SMap Byte) (h : Memory.wf ws) : Memory.wf (spoil ctr runs ws) :=
  foldl_wf _ _ (fun _ _ hm => wsWr_wf _ _ _ hm) _ h

theorem scoreSums_ok (e : MMEntry) (vals : List (List W32)) (x : Core) (h : CoreOk x) : CoreOk (scoreSums e vals x).1 := h

end Sys2Proof.Machine
end

