-- ==== Sys2Proof/Laws/KeepsOps.lean ====
section
/-! SUPPORT. What the operations of Machine/Ops.lean keep: the queue, the modes and the canonical stores. -/

set_option linter.unusedTactic false
set_option linter.unreachableTactic false

namespace Sys2Proof.Machine

theorem Keeps.takeFree_get  {s0 s : State} (hK : Keeps s0 s) : Keeps s0 (takeFree s).2 := by
  unfold Sys2Proof.Machine.takeFree
  try dsimp only
  repeat' (first
    | with_reducible assumption
    | exact fun _ hx => hx
    | exact fun _ => rfl
    | with_reducible apply Keeps.ite_
    | split
    | (refine Keeps.lit ?_ rfl rfl id id id id id; first | with_reducible assumption | with_reducible apply Keeps.ite_ | split)
    | assumption
    | intro _
    | dsimp only)

theorem Keeps.takeFree_eq  {s0 s tK : State} {aK : W64} (eK : takeFree s = (aK, tK)) (hK : Keeps s0 s) : Keeps s0 tK := by
  have hR := Keeps.takeFree_get  hK
  rw [eK] at hR
  exact hR

theorem Keeps.vecEvent {f : FuncId} {v : Fin 128} {s0 s : State}  (hK : Keeps s0 s) : Keeps s0 (vecEvent f v s) := by
  unfold Sys2Proof.Machine.vecEvent
  repeat' (first
    | with_reducible assumption
    | exact fun _ hx => hx
    | exact fun _ => rfl
    | with_reducible apply Keeps.updFunc
    | with_reducible apply Keeps.ite_
    | split
    | (refine Keeps.lit ?_ rfl rfl id id id id id; first | with_reducible assumption | with_reducible apply Keeps.updFunc | with_reducible apply Keeps.ite_ | split)
    | assumption
    | intro _
    | dsimp only)

theorem Keeps.alarmBit {c : Fin 16} {s0 s : State}  (hK : Keeps s0 s) : Keeps s0 (alarmBit c s) := by
  unfold Sys2Proof.Machine.alarmBit
  repeat' (first
    | with_reducible assumption
    | exact fun _ hx => hx
    | exact fun _ => rfl
    | with_reducible apply Keeps.vecEvent
    | with_reducible apply Keeps.updFlt
    | with_reducible apply Keeps.ite_
    | split
    | (refine Keeps.lit ?_ rfl rfl id id id id id; first | with_reducible assumption | with_reducible apply Keeps.vecEvent | with_reducible apply Keeps.updFlt | with_reducible apply Keeps.ite_ | split)
    | assumption
    | intro _
    | dsimp only)

theorem Keeps.countDrop {prio : Nat} {s0 s : State}  (hK : Keeps s0 s) : Keeps s0 (countDrop prio s) := by
  unfold Sys2Proof.Machine.countDrop
  repeat' (first
    | with_reducible assumption
    | exact fun _ hx => hx
    | exact fun _ => rfl
    | with_reducible apply Keeps.alarmBit
    | with_reducible apply Keeps.updFlt
    | with_reducible apply Keeps.ite_
    | split
    | (refine Keeps.lit ?_ rfl rfl id id id id id; first | with_reducible assumption | with_reducible apply Keeps.alarmBit | with_reducible apply Keeps.updFlt | with_reducible apply Keeps.ite_ | split)
    | assumption
    | intro _
    | dsimp only)

theorem Keeps.logPush {r : LogRec} {s0 s : State}  (hK : Keeps s0 s) : Keeps s0 (logPush r s) := by
  unfold Sys2Proof.Machine.logPush
  repeat' (first
    | with_reducible assumption
    | exact fun _ hx => hx
    | exact fun _ => rfl
    | with_reducible apply Keeps.updFlt
    | with_reducible apply Keeps.countDrop
    | with_reducible apply Keeps.ite_
    | split
    | (refine Keeps.lit ?_ rfl rfl id id id id id; first | with_reducible assumption | with_reducible apply Keeps.updFlt | with_reducible apply Keeps.countDrop | with_reducible apply Keeps.ite_ | split)
    | assumption
    | intro _
    | dsimp only)

theorem Keeps.logR {type prio eclass src part : Nat} {body : List Nat} {s0 s : State}  (hK : Keeps s0 s) : Keeps s0 (logR type prio eclass src part body s) := by
  unfold Sys2Proof.Machine.logR
  repeat' (first
    | with_reducible assumption
    | exact fun _ hx => hx
    | exact fun _ => rfl
    | with_reducible apply Keeps.logPush
    | with_reducible apply Keeps.ite_
    | split
    | (refine Keeps.lit ?_ rfl rfl id id id id id; first | with_reducible assumption | with_reducible apply Keeps.logPush | with_reducible apply Keeps.ite_ | split)
    | assumption
    | intro _
    | dsimp only)

theorem Keeps.chargeD {i : Fin 7} {n : Nat} {s0 s : State}  (hK : Keeps s0 s) : Keeps s0 (chargeD i n s) := by
  unfold Sys2Proof.Machine.chargeD
  repeat' (first
    | with_reducible assumption
    | exact fun _ hx => hx
    | exact fun _ => rfl
    | with_reducible apply Keeps.ite_
    | split
    | (refine Keeps.lit ?_ rfl rfl id id id id id; first | with_reducible assumption | with_reducible apply Keeps.ite_ | split)
    | assumption
    | intro _
    | dsimp only)

theorem Keeps.trace {src : Fin 5} {part : Nat} {data : List Nat} {s0 s : State}  (hK : Keeps s0 s) : Keeps s0 (trace src part data s) := by
  unfold Sys2Proof.Machine.trace
  repeat' (first
    | with_reducible assumption
    | exact fun _ hx => hx
    | exact fun _ => rfl
    | with_reducible apply Keeps.chargeD
    | with_reducible apply Keeps.ite_
    | split
    | (refine Keeps.lit ?_ rfl rfl id id id id id; first | with_reducible assumption | with_reducible apply Keeps.chargeD | with_reducible apply Keeps.ite_ | split)
    | assumption
    | intro _
    | dsimp only)

theorem Keeps.alarm {c : Fin 16} {s0 s : State}  (hK : Keeps s0 s) : Keeps s0 (alarm c s) := by
  unfold Sys2Proof.Machine.alarm
  repeat' (first
    | with_reducible assumption
    | exact fun _ hx => hx
    | exact fun _ => rfl
    | with_reducible apply Keeps.alarmBit
    | with_reducible apply Keeps.logR
    | with_reducible apply Keeps.ite_
    | split
    | (refine Keeps.lit ?_ rfl rfl id id id id id; first | with_reducible assumption | with_reducible apply Keeps.alarmBit | with_reducible apply Keeps.logR | with_reducible apply Keeps.ite_ | split)
    | assumption
    | intro _
    | dsimp only)

theorem Keeps.ignoreWrite {m : Master} {off reason : Nat} {s0 s : State} (hK : Keeps s0 s) : Keeps s0 (ignoreWrite m off reason s) := by
  unfold Sys2Proof.Machine.ignoreWrite
  refine Keeps.logR (Keeps.updOwn hK (fun o h => ?_))
  split <;> exact h

theorem Keeps.ownerOnly {m : Master} {off : Nat} {f : State → State} {s0 s : State} (hf : ∀ u, Keeps s0 u → Keeps s0 (f u)) (hK : Keeps s0 s) :
    Keeps s0 (ownerOnly m off f s) := by
  unfold Sys2Proof.Machine.ownerOnly
  repeat' (first
    | with_reducible assumption
    | exact hf _ hK
    | with_reducible apply Keeps.ignoreWrite
    | split)

theorem Keeps.setPState {p : PartId} {st : PState} {s0 s : State}  (hK : Keeps s0 s) : Keeps s0 (setPState p st s) := by
  unfold Sys2Proof.Machine.setPState
  repeat' (first
    | with_reducible assumption
    | exact fun _ hx => hx
    | exact fun _ => rfl
    | with_reducible apply Keeps.updPart
    | with_reducible apply Keeps.vecEvent
    | with_reducible apply Keeps.ite_
    | split
    | (refine Keeps.lit ?_ rfl rfl id id id id id; first | with_reducible assumption | with_reducible apply Keeps.updPart | with_reducible apply Keeps.vecEvent | with_reducible apply Keeps.ite_ | split)
    | assumption
    | intro _
    | dsimp only)

theorem Keeps.prtError {p : PartId} {f : Part → Part} {s0 s : State} (hf : ∀ x, Memory.wf x.xmem → Memory.wf (f x).xmem) (hK : Keeps s0 s) :
    Keeps s0 (prtError p f s) := Keeps.vecEvent (Keeps.vecEvent (Keeps.updPart hK hf))

theorem Keeps.opReject {p : PartId} {s0 s : State} (hK : Keeps s0 s) : Keeps s0 (opReject p s) :=
  Keeps.prtError (fun _ h => h) hK

theorem Keeps.idle  {s0 s : State}  (hK : Keeps s0 s) : Keeps s0 (idle s) := by
  unfold Sys2Proof.Machine.idle
  repeat' (first
    | with_reducible assumption
    | exact fun _ hx => hx
    | exact fun _ => rfl
    | with_reducible apply Keeps.updTick
    | with_reducible apply Keeps.ite_
    | split
    | (refine Keeps.lit ?_ rfl rfl id id id id id; first | with_reducible assumption | with_reducible apply Keeps.updTick | with_reducible apply Keeps.ite_ | split)
    | assumption
    | intro _
    | dsimp only)

end Sys2Proof.Machine
end

