-- ==== Sys2Proof/Laws/KeepsWires.lean ====
section
/-! SUPPORT. What the operations of Machine/Wires.lean keep: the queue, the modes and the canonical stores. -/

set_option linter.unusedTactic false
set_option linter.unreachableTactic false

namespace Sys2Proof.Machine

theorem Keeps.sendFlits {i : PortId} {cls : Nat} {vc : Bool} {own : Option (Nat × Nat)} {l : List Flit} {s0 s : State}  (hK : Keeps s0 s) : Keeps s0 (sendFlits i cls vc own l s) := by
  unfold Sys2Proof.Machine.sendFlits
  repeat' (first
    | with_reducible assumption
    | exact fun _ hx => hx
    | exact fun _ => rfl
    | with_reducible refine Keeps.forAll (fun _ _ _ => ?_) ?_
    | with_reducible apply Keeps.emit
    | with_reducible apply Keeps.updPort
    | with_reducible apply Keeps.ite_
    | split
    | (refine Keeps.lit ?_ rfl rfl id id id id id; first | with_reducible assumption | with_reducible refine Keeps.forAll (fun _ _ _ => ?_) ?_ | with_reducible apply Keeps.emit | with_reducible apply Keeps.updPort | with_reducible apply Keeps.ite_ | split)
    | assumption
    | intro _
    | dsimp only)

theorem Keeps.sendPacket {i : PortId} {cls : Nat} {vc : Bool} {own : Option (Nat × Nat)} {h : PktHdr} {data : List Byte} {s0 s : State}  (hK : Keeps s0 s) : Keeps s0 (sendPacket i cls vc own h data s) := by
  unfold Sys2Proof.Machine.sendPacket
  repeat' (first
    | with_reducible assumption
    | exact fun _ hx => hx
    | exact fun _ => rfl
    | with_reducible apply Keeps.sendFlits
    | with_reducible apply Keeps.emit
    | with_reducible apply Keeps.ite_
    | split
    | (refine Keeps.lit ?_ rfl rfl id id id id id; first | with_reducible assumption | with_reducible apply Keeps.sendFlits | with_reducible apply Keeps.emit | with_reducible apply Keeps.ite_ | split)
    | assumption
    | intro _
    | dsimp only)

theorem Keeps.resend {i : PortId} {s0 s : State}  (hK : Keeps s0 s) : Keeps s0 (resend i s) := by
  unfold Sys2Proof.Machine.resend
  repeat' (first
    | with_reducible assumption
    | exact fun _ hx => hx
    | exact fun _ => rfl
    | with_reducible refine Keeps.forAll (fun _ _ _ => ?_) ?_
    | with_reducible apply Keeps.emit
    | with_reducible apply Keeps.ite_
    | split
    | (refine Keeps.lit ?_ rfl rfl id id id id id; first | with_reducible assumption | with_reducible refine Keeps.forAll (fun _ _ _ => ?_) ?_ | with_reducible apply Keeps.emit | with_reducible apply Keeps.ite_ | split)
    | assumption
    | intro _
    | dsimp only)

theorem Keeps.mPump {n : Nat} {o : PortId} {s0 s : State} (hK : Keeps s0 s) : Keeps s0 (mPump n o s) := by
  induction n generalizing s with
  | zero => exact hK
  | succ k ih =>
    unfold Sys2Proof.Machine.mPump
    split
    · exact hK
    · split
      · exact ih (Keeps.sendPacket (Keeps.updPort hK))
      · exact hK

theorem Keeps.queueM {i : PortId} {vc : Bool} {h : PktHdr} {data : List Byte} {s0 s : State}  (hK : Keeps s0 s) : Keeps s0 (queueM i vc h data s) := by
  unfold Sys2Proof.Machine.queueM
  repeat' (first
    | with_reducible assumption
    | exact fun _ hx => hx
    | exact fun _ => rfl
    | with_reducible apply Keeps.mPump
    | with_reducible apply Keeps.updPort
    | with_reducible apply Keeps.ite_
    | split
    | (refine Keeps.lit ?_ rfl rfl id id id id id; first | with_reducible assumption | with_reducible apply Keeps.mPump | with_reducible apply Keeps.updPort | with_reducible apply Keeps.ite_ | split)
    | assumption
    | intro _
    | dsimp only)

theorem Keeps.sendMOn {r : Option (PortId × Bool)} {kind : Nat} {d : DevAddr} {body : List Nat} {s0 s : State}  (hK : Keeps s0 s) : Keeps s0 (sendMOn r kind d body s) := by
  unfold Sys2Proof.Machine.sendMOn
  repeat' (first
    | with_reducible assumption
    | exact fun _ hx => hx
    | exact fun _ => rfl
    | with_reducible apply Keeps.emit
    | with_reducible apply Keeps.chargeD
    | with_reducible apply Keeps.queueM
    | with_reducible apply Keeps.ite_
    | split
    | (refine Keeps.lit ?_ rfl rfl id id id id id; first | with_reducible assumption | with_reducible apply Keeps.emit | with_reducible apply Keeps.chargeD | with_reducible apply Keeps.queueM | with_reducible apply Keeps.ite_ | split)
    | assumption
    | intro _
    | dsimp only)

theorem Keeps.sendM {kind : Nat} {d : DevAddr} {body : List Nat} {s0 s : State}  (hK : Keeps s0 s) : Keeps s0 (sendM kind d body s) := by
  unfold Sys2Proof.Machine.sendM
  repeat' (first
    | with_reducible assumption
    | exact fun _ hx => hx
    | exact fun _ => rfl
    | with_reducible apply Keeps.sendMOn
    | with_reducible apply Keeps.ite_
    | split
    | (refine Keeps.lit ?_ rfl rfl id id id id id; first | with_reducible assumption | with_reducible apply Keeps.sendMOn | with_reducible apply Keeps.ite_ | split)
    | assumption
    | intro _
    | dsimp only)

end Sys2Proof.Machine
end

