-- ==== Sys2Proof/Laws/KeepsTasks.lean ====
section
/-! SUPPORT. What the operations of Machine/Tasks.lean keep: the queue, the modes and the canonical stores. -/

set_option linter.unusedTactic false
set_option linter.unreachableTactic false

namespace Sys2Proof.Machine

theorem Keeps.charge_get {p : PartId} {cs : List (Fin 7 × Nat)} {s0 s : State} (hK : Keeps s0 s) : Keeps s0 (charge p cs s).2 := by
  unfold Sys2Proof.Machine.charge
  try dsimp only
  repeat' (first
    | with_reducible assumption
    | exact fun _ hx => hx
    | exact fun _ => rfl
    | with_reducible apply Keeps.updPart
    | with_reducible apply Keeps.trace
    | with_reducible apply Keeps.ite_
    | split
    | (refine Keeps.lit ?_ rfl rfl id id id id id; first | with_reducible assumption | with_reducible apply Keeps.updPart | with_reducible apply Keeps.trace | with_reducible apply Keeps.ite_ | split)
    | assumption
    | intro _
    | dsimp only)

theorem Keeps.charge_eq {p : PartId} {cs : List (Fin 7 × Nat)} {s0 s tK : State} {aK : Bool} (eK : charge p cs s = (aK, tK)) (hK : Keeps s0 s) : Keeps s0 tK := by
  have hR := Keeps.charge_get (p := p) (cs := cs) hK
  rw [eK] at hR
  exact hR

theorem Keeps.meetCkpt {p : PartId} {k : Nat} {s0 s : State}  (hK : Keeps s0 s) : Keeps s0 (meetCkpt p k s) := by
  unfold Sys2Proof.Machine.meetCkpt
  repeat' (first
    | with_reducible assumption
    | exact fun _ hx => hx
    | exact fun _ => rfl
    | with_reducible apply Keeps.trace
    | with_reducible apply Keeps.updPart
    | with_reducible apply Keeps.ite_
    | split
    | (refine Keeps.lit ?_ rfl rfl id id id id id; first | with_reducible assumption | with_reducible apply Keeps.trace | with_reducible apply Keeps.updPart | with_reducible apply Keeps.ite_ | split)
    | assumption
    | intro _
    | dsimp only)

theorem Keeps.meetCkptOf {c : CoreId} {k : Nat} {s0 s : State}  (hK : Keeps s0 s) : Keeps s0 (meetCkptOf c k s) := by
  unfold Sys2Proof.Machine.meetCkptOf
  repeat' (first
    | with_reducible assumption
    | exact fun _ hx => hx
    | exact fun _ => rfl
    | with_reducible apply Keeps.meetCkpt
    | with_reducible apply Keeps.ite_
    | split
    | (refine Keeps.lit ?_ rfl rfl id id id id id; first | with_reducible assumption | with_reducible apply Keeps.meetCkpt | with_reducible apply Keeps.ite_ | split)
    | assumption
    | intro _
    | dsimp only)

theorem Keeps.sendNotices {p : PartId} {task : Nat} {code : Byte} {s0 s : State}  (hK : Keeps s0 s) : Keeps s0 (sendNotices p task code s) := by
  unfold Sys2Proof.Machine.sendNotices
  repeat' (first
    | with_reducible assumption
    | exact fun _ hx => hx
    | exact fun _ => rfl
    | with_reducible refine Keeps.forAll (fun _ _ _ => ?_) ?_
    | with_reducible apply Keeps.sendM
    | with_reducible apply Keeps.ite_
    | split
    | (refine Keeps.lit ?_ rfl rfl id id id id id; first | with_reducible assumption | with_reducible refine Keeps.forAll (fun _ _ _ => ?_) ?_ | with_reducible apply Keeps.sendM | with_reducible apply Keeps.ite_ | split)
    | assumption
    | intro _
    | dsimp only)

theorem Keeps.weightErrors {c : CoreId} {e : MMEntry} {s0 s : State}  (hK : Keeps s0 s) : Keeps s0 (weightErrors c e s) := by
  unfold Sys2Proof.Machine.weightErrors
  repeat' (first
    | with_reducible assumption
    | exact fun _ hx => hx
    | exact fun _ => rfl
    | with_reducible apply Keeps.logR
    | with_reducible apply Keeps.updPart
    | with_reducible apply Keeps.ite_
    | split
    | (refine Keeps.lit ?_ rfl rfl id id id id id; first | with_reducible assumption | with_reducible apply Keeps.logR | with_reducible apply Keeps.updPart | with_reducible apply Keeps.ite_ | split)
    | assumption
    | intro _
    | dsimp only)

theorem Keeps.stoppedErrors {c : CoreId} {s0 s : State}  (hK : Keeps s0 s) : Keeps s0 (stoppedErrors c s) := by
  unfold Sys2Proof.Machine.stoppedErrors
  repeat' (first
    | with_reducible assumption
    | exact fun _ hx => hx
    | exact fun _ => rfl
    | with_reducible refine Keeps.forAll (fun _ _ _ => ?_) ?_
    | with_reducible apply Keeps.weightErrors
    | with_reducible apply Keeps.ite_
    | split
    | (refine Keeps.lit ?_ rfl rfl id id id id id; first | with_reducible assumption | with_reducible refine Keeps.forAll (fun _ _ _ => ?_) ?_ | with_reducible apply Keeps.weightErrors | with_reducible apply Keeps.ite_ | split)
    | assumption
    | intro _
    | dsimp only)

theorem Keeps.stopTask {p : PartId} {s0 s : State}  (hK : Keeps s0 s) : Keeps s0 (stopTask p s) := by
  unfold Sys2Proof.Machine.stopTask
  repeat' (first
    | with_reducible assumption
    | exact fun _ hx => hx
    | exact fun _ => rfl
    | with_reducible refine Keeps.forAll (fun _ _ _ => ?_) ?_
    | with_reducible apply Keeps.stoppedErrors
    | with_reducible apply Keeps.updCore
    | with_reducible apply Keeps.updPart
    | with_reducible apply Keeps.ite_
    | split
    | (refine Keeps.lit ?_ rfl rfl id id id id id; first | with_reducible assumption | with_reducible refine Keeps.forAll (fun _ _ _ => ?_) ?_ | with_reducible apply Keeps.stoppedErrors | with_reducible apply Keeps.updCore | with_reducible apply Keeps.updPart | with_reducible apply Keeps.ite_ | split)
    | assumption
    | intro _
    | dsimp only)

theorem Keeps.abortTask {p : PartId} {c : Cause} {uncounted : Bool} {s0 s : State}  (hK : Keeps s0 s) : Keeps s0 (abortTask p c uncounted s) := by
  unfold Sys2Proof.Machine.abortTask
  repeat' (first
    | with_reducible assumption
    | exact fun _ hx => hx
    | exact fun _ => rfl
    | with_reducible apply Keeps.logR
    | with_reducible apply Keeps.updPart
    | with_reducible apply Keeps.sendNotices
    | with_reducible apply Keeps.stopTask
    | with_reducible apply Keeps.ite_
    | split
    | (refine Keeps.lit ?_ rfl rfl id id id id id; first | with_reducible assumption | with_reducible apply Keeps.logR | with_reducible apply Keeps.updPart | with_reducible apply Keeps.sendNotices | with_reducible apply Keeps.stopTask | with_reducible apply Keeps.ite_ | split)
    | assumption
    | intro _
    | dsimp only)

theorem Keeps.abortOf {c : CoreId} {k : Cause} {s0 s : State}  (hK : Keeps s0 s) : Keeps s0 (abortOf c k s) := by
  unfold Sys2Proof.Machine.abortOf
  repeat' (first
    | with_reducible assumption
    | exact fun _ hx => hx
    | exact fun _ => rfl
    | with_reducible apply Keeps.abortTask
    | with_reducible apply Keeps.ite_
    | split
    | (refine Keeps.lit ?_ rfl rfl id id id id id; first | with_reducible assumption | with_reducible apply Keeps.abortTask | with_reducible apply Keeps.ite_ | split)
    | assumption
    | intro _
    | dsimp only)

theorem Keeps.transferFault {c : CoreId} {s0 s : State}  (hK : Keeps s0 s) : Keeps s0 (transferFault c s) := by
  unfold Sys2Proof.Machine.transferFault
  repeat' (first
    | with_reducible assumption
    | exact fun _ hx => hx
    | exact fun _ => rfl
    | with_reducible apply Keeps.abortOf
    | with_reducible apply Keeps.ite_
    | split
    | (refine Keeps.lit ?_ rfl rfl id id id id id; first | with_reducible assumption | with_reducible apply Keeps.abortOf | with_reducible apply Keeps.ite_ | split)
    | assumption
    | intro _
    | dsimp only)

theorem Keeps.scoopFault {c : CoreId} {u : UnitId} {tag : Nat} {s0 s : State}  (hK : Keeps s0 s) : Keeps s0 (scoopFault c u tag s) := by
  unfold Sys2Proof.Machine.scoopFault
  repeat' (first
    | with_reducible assumption
    | exact fun _ hx => hx
    | exact fun _ => rfl
    | with_reducible apply Keeps.abortOf
    | with_reducible apply Keeps.ite_
    | split
    | (refine Keeps.lit ?_ rfl rfl id id id id id; first | with_reducible assumption | with_reducible apply Keeps.abortOf | with_reducible apply Keeps.ite_ | split)
    | assumption
    | intro _
    | dsimp only)

theorem Keeps.illegalOf {c : CoreId} {reason pc tag : Nat} {s0 s : State}  (hK : Keeps s0 s) : Keeps s0 (illegalOf c reason pc tag s) := by
  unfold Sys2Proof.Machine.illegalOf
  repeat' (first
    | with_reducible assumption
    | exact fun _ hx => hx
    | exact fun _ => rfl
    | with_reducible apply Keeps.updCore
    | with_reducible apply Keeps.logR
    | with_reducible apply Keeps.abortOf
    | with_reducible apply Keeps.ite_
    | split
    | (refine Keeps.lit ?_ rfl rfl id id id id id; first | with_reducible assumption | with_reducible apply Keeps.updCore | with_reducible apply Keeps.logR | with_reducible apply Keeps.abortOf | with_reducible apply Keeps.ite_ | split)
    | assumption
    | intro _
    | dsimp only)

theorem Keeps.illegal {c : CoreId} {reason pc : Nat} {s0 s : State}  (hK : Keeps s0 s) : Keeps s0 (illegal c reason pc s) := by
  unfold Sys2Proof.Machine.illegal
  repeat' (first
    | with_reducible assumption
    | exact fun _ hx => hx
    | exact fun _ => rfl
    | with_reducible apply Keeps.illegalOf
    | with_reducible apply Keeps.ite_
    | split
    | (refine Keeps.lit ?_ rfl rfl id id id id id; first | with_reducible assumption | with_reducible apply Keeps.illegalOf | with_reducible apply Keeps.ite_ | split)
    | assumption
    | intro _
    | dsimp only)

end Sys2Proof.Machine
end

