-- ==== Sys2Proof/Laws/KeepsHub.lean ====
section
/-! SUPPORT. What the operations of Machine/Hub.lean keep: the queue, the modes and the canonical stores. -/

set_option linter.unusedTactic false
set_option linter.unreachableTactic false

namespace Sys2Proof.Machine

theorem Keeps.sendTransit {o : PortId} {vc : Bool} {l : List Flit} {s0 s : State}  (hK : Keeps s0 s) : Keeps s0 (sendTransit o vc l s) := by
  unfold Sys2Proof.Machine.sendTransit
  repeat' (first
    | with_reducible assumption
    | exact fun _ hx => hx
    | exact fun _ => rfl
    | with_reducible refine Keeps.whenS (fun _ _ => ?_) ?_
    | with_reducible apply Keeps.updPort
    | with_reducible apply Keeps.sendFlits
    | with_reducible apply Keeps.ite_
    | split
    | (refine Keeps.lit ?_ rfl rfl id id id id id; first | with_reducible assumption | with_reducible refine Keeps.whenS (fun _ _ => ?_) ?_ | with_reducible apply Keeps.updPort | with_reducible apply Keeps.sendFlits | with_reducible apply Keeps.ite_ | split)
    | assumption
    | intro _
    | dsimp only)

theorem Keeps.transitPump {n : Nat} {o : PortId} {s0 s : State} (hK : Keeps s0 s) : Keeps s0 (transitPump n o s) := by
  induction n generalizing s with
  | zero => exact hK
  | succ k ih =>
    unfold Sys2Proof.Machine.transitPump
    split
    · exact hK
    · exact ih (Keeps.emit (Keeps.updPort (Keeps.sendTransit hK)))

theorem Keeps.portPump {o : PortId} {s0 s : State}  (hK : Keeps s0 s) : Keeps s0 (portPump o s) := by
  unfold Sys2Proof.Machine.portPump
  repeat' (first
    | with_reducible assumption
    | exact fun _ hx => hx
    | exact fun _ => rfl
    | with_reducible apply Keeps.transitPump
    | with_reducible apply Keeps.mPump
    | with_reducible apply Keeps.ite_
    | split
    | (refine Keeps.lit ?_ rfl rfl id id id id id; first | with_reducible assumption | with_reducible apply Keeps.transitPump | with_reducible apply Keeps.mPump | with_reducible apply Keeps.ite_ | split)
    | assumption
    | intro _
    | dsimp only)

theorem Keeps.injectAll_get {p : PartId} {i : PortId} {cls : Nat} {vc : Bool} {l : List (PktHdr × List Byte)} {s0 s : State} (hK : Keeps s0 s) : Keeps s0 (injectAll p i cls vc l s).2 := by
  unfold Sys2Proof.Machine.injectAll
  try dsimp only
  repeat' (first
    | with_reducible assumption
    | exact fun _ hx => hx
    | exact fun _ => rfl
    | with_reducible refine Keeps.forAll (fun _ _ _ => ?_) ?_
    | with_reducible apply Keeps.sendPacket
    | with_reducible apply Keeps.ite_
    | with_reducible apply Keeps.charge_get
    | refine Keeps.charge_eq (by with_reducible assumption) ?_
    | split
    | (refine Keeps.lit ?_ rfl rfl id id id id id; first | with_reducible assumption | with_reducible refine Keeps.forAll (fun _ _ _ => ?_) ?_ | with_reducible apply Keeps.sendPacket | with_reducible apply Keeps.ite_ | with_reducible apply Keeps.charge_get | refine Keeps.charge_eq (by with_reducible assumption) ?_ | split)
    | assumption
    | intro _
    | dsimp only)

theorem Keeps.injectAll_eq {p : PartId} {i : PortId} {cls : Nat} {vc : Bool} {l : List (PktHdr × List Byte)} {s0 s tK : State} {aK : Bool} (eK : injectAll p i cls vc l s = (aK, tK)) (hK : Keeps s0 s) : Keeps s0 tK := by
  have hR := Keeps.injectAll_get (p := p) (i := i) (cls := cls) (vc := vc) (l := l) hK
  rw [eK] at hR
  exact hR

theorem Keeps.inject_get {p : PartId} {i : PortId} {cls : Nat} {vc : Bool} {h : PktHdr} {data : List Byte} {s0 s : State} (hK : Keeps s0 s) : Keeps s0 (inject p i cls vc h data s).2 := by
  unfold Sys2Proof.Machine.inject
  try dsimp only
  repeat' (first
    | with_reducible assumption
    | exact fun _ hx => hx
    | exact fun _ => rfl
    | with_reducible apply Keeps.ite_
    | with_reducible apply Keeps.injectAll_get
    | refine Keeps.injectAll_eq (by with_reducible assumption) ?_
    | split
    | (refine Keeps.lit ?_ rfl rfl id id id id id; first | with_reducible assumption | with_reducible apply Keeps.ite_ | with_reducible apply Keeps.injectAll_get | refine Keeps.injectAll_eq (by with_reducible assumption) ?_ | split)
    | assumption
    | intro _
    | dsimp only)

theorem Keeps.inject_eq {p : PartId} {i : PortId} {cls : Nat} {vc : Bool} {h : PktHdr} {data : List Byte} {s0 s tK : State} {aK : Bool} (eK : inject p i cls vc h data s = (aK, tK)) (hK : Keeps s0 s) : Keeps s0 tK := by
  have hR := Keeps.inject_get (p := p) (i := i) (cls := cls) (vc := vc) (h := h) (data := data) hK
  rw [eK] at hR
  exact hR

theorem Keeps.updGroup {p : PartId} {gid : Nat} {f : Group → Group} {s0 s : State}  (hK : Keeps s0 s) : Keeps s0 (updGroup p gid f s) := by
  unfold Sys2Proof.Machine.updGroup
  repeat' (first
    | with_reducible assumption
    | exact fun _ hx => hx
    | exact fun _ => rfl
    | with_reducible apply Keeps.updPart
    | with_reducible apply Keeps.ite_
    | split
    | (refine Keeps.lit ?_ rfl rfl id id id id id; first | with_reducible assumption | with_reducible apply Keeps.updPart | with_reducible apply Keeps.ite_ | split)
    | assumption
    | intro _
    | dsimp only)

theorem Keeps.updOp {p : PartId} {port slot : Nat} {f : TrigOp → TrigOp} {s0 s : State}  (hK : Keeps s0 s) : Keeps s0 (updOp p port slot f s) := by
  unfold Sys2Proof.Machine.updOp
  repeat' (first
    | with_reducible assumption
    | exact fun _ hx => hx
    | exact fun _ => rfl
    | with_reducible apply Keeps.updPart
    | with_reducible apply Keeps.ite_
    | split
    | (refine Keeps.lit ?_ rfl rfl id id id id id; first | with_reducible assumption | with_reducible apply Keeps.updPart | with_reducible apply Keeps.ite_ | split)
    | assumption
    | intro _
    | dsimp only)

theorem Keeps.meetStep {p : PartId} {gid step : Nat} {s0 s : State}  (hK : Keeps s0 s) : Keeps s0 (meetStep p gid step s) := by
  unfold Sys2Proof.Machine.meetStep
  repeat' (first
    | with_reducible assumption
    | exact fun _ hx => hx
    | exact fun _ => rfl
    | with_reducible apply Keeps.meetCkpt
    | with_reducible apply Keeps.ite_
    | split
    | (refine Keeps.lit ?_ rfl rfl id id id id id; first | with_reducible assumption | with_reducible apply Keeps.meetCkpt | with_reducible apply Keeps.ite_ | split)
    | assumption
    | intro _
    | dsimp only)

theorem Keeps.opDone {p : PartId} {port slot : Nat} {o : TrigOp} {s0 s : State}  (hK : Keeps s0 s) : Keeps s0 (opDone p port slot o s) := by
  unfold Sys2Proof.Machine.opDone
  repeat' (first
    | with_reducible assumption
    | exact fun _ hx => hx
    | exact fun _ => rfl
    | with_reducible apply Keeps.updOp
    | with_reducible apply Keeps.updPart
    | with_reducible apply Keeps.ite_
    | split
    | (refine Keeps.lit ?_ rfl rfl id id id id id; first | with_reducible assumption | with_reducible apply Keeps.updOp | with_reducible apply Keeps.updPart | with_reducible apply Keeps.ite_ | split)
    | assumption
    | intro _
    | dsimp only)

theorem Keeps.sendAck_get {p : PartId} {u : Nat × PktHdr} {s0 s : State} (hK : Keeps s0 s) : Keeps s0 (sendAck p u s).2 := by
  unfold Sys2Proof.Machine.sendAck
  try dsimp only
  repeat' (first
    | with_reducible assumption
    | exact fun _ hx => hx
    | exact fun _ => rfl
    | with_reducible apply Keeps.ite_
    | with_reducible apply Keeps.inject_get
    | refine Keeps.inject_eq (by with_reducible assumption) ?_
    | split
    | (refine Keeps.lit ?_ rfl rfl id id id id id; first | with_reducible assumption | with_reducible apply Keeps.ite_ | with_reducible apply Keeps.inject_get | refine Keeps.inject_eq (by with_reducible assumption) ?_ | split)
    | assumption
    | intro _
    | dsimp only)

theorem Keeps.sendAck_eq {p : PartId} {u : Nat × PktHdr} {s0 s tK : State} {aK : Bool} (eK : sendAck p u s = (aK, tK)) (hK : Keeps s0 s) : Keeps s0 tK := by
  have hR := Keeps.sendAck_get (p := p) (u := u) hK
  rw [eK] at hR
  exact hR

theorem Keeps.pumpAcks {p : PartId} {s0 s : State} (hK : Keeps s0 s) : Keeps s0 (pumpAcks p s) := by
  unfold Sys2Proof.Machine.pumpAcks
  refine Keeps.forAll (fun a u hu => ?_) hK
  dsimp only
  split
  · exact Keeps.updPart (Keeps.sendAck_get hu) (fun _ h => h)
  · exact hu

theorem Keeps.consumePiece {p : PartId} {gid port slot k : Nat} {u : Nat × PktHdr × List (Nat × Nat)} {s0 s : State}  (hK : Keeps s0 s) : Keeps s0 (consumePiece p gid port slot k u s) := by
  unfold Sys2Proof.Machine.consumePiece
  repeat' (first
    | with_reducible assumption
    | exact fun _ hx => hx
    | exact fun _ => rfl
    | with_reducible apply Keeps.pumpAcks
    | with_reducible apply Keeps.updPart
    | with_reducible apply Keeps.updGroup
    | with_reducible apply Keeps.ite_
    | split
    | (refine Keeps.lit ?_ rfl rfl id id id id id; first | with_reducible assumption | with_reducible apply Keeps.pumpAcks | with_reducible apply Keeps.updPart | with_reducible apply Keeps.updGroup | with_reducible apply Keeps.ite_ | split)
    | assumption
    | intro _
    | dsimp only)

theorem Keeps.deliverDone {p : PartId} {port slot k : Nat} {s0 s : State}  (hK : Keeps s0 s) : Keeps s0 (deliverDone p port slot k s) := by
  unfold Sys2Proof.Machine.deliverDone
  repeat' (first
    | with_reducible assumption
    | exact fun _ hx => hx
    | exact fun _ => rfl
    | with_reducible apply Keeps.consumePiece
    | with_reducible apply Keeps.meetStep
    | with_reducible apply Keeps.opDone
    | with_reducible apply Keeps.ite_
    | split
    | (refine Keeps.lit ?_ rfl rfl id id id id id; first | with_reducible assumption | with_reducible apply Keeps.consumePiece | with_reducible apply Keeps.meetStep | with_reducible apply Keeps.opDone | with_reducible apply Keeps.ite_ | split)
    | assumption
    | intro _
    | dsimp only)

end Sys2Proof.Machine
end

