-- ==== Sys2Proof/Laws/KeepsScalar.lean ====
section
/-! SUPPORT. What the operations of Machine/Scalar.lean keep: the queue, the modes and the canonical stores. -/

set_option linter.unusedTactic false
set_option linter.unreachableTactic false

namespace Sys2Proof.Machine

theorem CoreOk.setS {x : Core} {r : SReg} {v : W64} (h : CoreOk x) : CoreOk (x.setS r v) := by
  unfold Core.setS
  split <;> exact h

theorem CoreOk.setP {x : Core} {r : PReg} {v : Bool} (h : CoreOk x) : CoreOk (x.setP r v) := by
  unfold Core.setP
  split <;> exact h

theorem CoreOk.setH {x : Core} {r : HReg} {v : W64} (h : CoreOk x) : CoreOk (x.setH r v) := h

theorem Keeps.setPc {c : CoreId} {n : Nat} {s0 s : State}  (hK : Keeps s0 s) : Keeps s0 (setPc c n s) := by
  unfold Sys2Proof.Machine.setPc
  repeat' (first
    | with_reducible assumption
    | exact fun _ hx => hx
    | exact fun _ => rfl
    | with_reducible apply Keeps.updCore
    | with_reducible apply Keeps.illegal
    | with_reducible apply Keeps.ite_
    | split
    | (refine Keeps.lit ?_ rfl rfl id id id id id; first | with_reducible assumption | with_reducible apply Keeps.updCore | with_reducible apply Keeps.illegal | with_reducible apply Keeps.ite_ | split)
    | assumption
    | intro _
    | dsimp only)

theorem Keeps.parcel {c : CoreId} {f : Core → Core} {s0 s : State} (hf : ∀ x, CoreOk x → CoreOk (f x)) (hK : Keeps s0 s) : Keeps s0 (parcel c f s) := by
  unfold Sys2Proof.Machine.parcel
  repeat' (first
    | with_reducible assumption
    | exact hf
    | exact fun _ hx => hx
    | exact fun _ => rfl
    | with_reducible apply Keeps.setPc
    | with_reducible apply Keeps.updCore
    | with_reducible apply Keeps.ite_
    | split
    | (refine Keeps.lit ?_ rfl rfl id id id id id; first | with_reducible assumption | exact hf | with_reducible apply Keeps.setPc | with_reducible apply Keeps.updCore | with_reducible apply Keeps.ite_ | split)
    | assumption
    | intro _
    | dsimp only)

theorem Keeps.arith {c : CoreId} {rd ra rb : SReg} {f : W64 → W64 → W64} {s0 s : State}  (hK : Keeps s0 s) : Keeps s0 (arith c rd ra rb f s) := by
  unfold Sys2Proof.Machine.arith
  repeat' (first
    | with_reducible assumption
    | exact fun _ hx => hx
    | exact fun _ => rfl
    | with_reducible apply Keeps.parcel
    | with_reducible apply Keeps.ite_
    | with_reducible apply CoreOk.setS
    | split
    | (refine Keeps.lit ?_ rfl rfl id id id id id; first | with_reducible assumption | with_reducible apply Keeps.parcel | with_reducible apply Keeps.ite_ | with_reducible apply CoreOk.setS | split)
    | assumption
    | intro _
    | dsimp only)

theorem Keeps.compare {c : CoreId} {pd : PReg} {ra rb : SReg} {f : W64 → W64 → Bool} {s0 s : State}  (hK : Keeps s0 s) : Keeps s0 (compare c pd ra rb f s) := by
  unfold Sys2Proof.Machine.compare
  repeat' (first
    | with_reducible assumption
    | exact fun _ hx => hx
    | exact fun _ => rfl
    | with_reducible apply Keeps.parcel
    | with_reducible apply Keeps.ite_
    | with_reducible apply CoreOk.setP
    | split
    | (refine Keeps.lit ?_ rfl rfl id id id id id; first | with_reducible assumption | with_reducible apply Keeps.parcel | with_reducible apply Keeps.ite_ | with_reducible apply CoreOk.setP | split)
    | assumption
    | intro _
    | dsimp only)

theorem Keeps.shiftBy {c : CoreId} {rd ra : SReg} {amount : Nat} {f : W64 → Nat → W64} {s0 s : State}  (hK : Keeps s0 s) : Keeps s0 (shiftBy c rd ra amount f s) := by
  unfold Sys2Proof.Machine.shiftBy
  repeat' (first
    | with_reducible assumption
    | exact fun _ hx => hx
    | exact fun _ => rfl
    | with_reducible apply Keeps.parcel
    | with_reducible apply Keeps.ite_
    | with_reducible apply CoreOk.setS
    | with_reducible apply Keeps.takeFree_get
    | refine Keeps.takeFree_eq (by with_reducible assumption) ?_
    | split
    | (refine Keeps.lit ?_ rfl rfl id id id id id; first | with_reducible assumption | with_reducible apply Keeps.parcel | with_reducible apply Keeps.ite_ | with_reducible apply CoreOk.setS | with_reducible apply Keeps.takeFree_get | refine Keeps.takeFree_eq (by with_reducible assumption) ?_ | split)
    | assumption
    | intro _
    | dsimp only)

theorem Keeps.branchTo {c : CoreId} {a : Nat} {s0 s : State}  (hK : Keeps s0 s) : Keeps s0 (branchTo c a s) := by
  unfold Sys2Proof.Machine.branchTo
  repeat' (first
    | with_reducible assumption
    | exact fun _ hx => hx
    | exact fun _ => rfl
    | with_reducible apply Keeps.setPc
    | with_reducible apply Keeps.illegal
    | with_reducible apply Keeps.ite_
    | split
    | (refine Keeps.lit ?_ rfl rfl id id id id id; first | with_reducible assumption | with_reducible apply Keeps.setPc | with_reducible apply Keeps.illegal | with_reducible apply Keeps.ite_ | split)
    | assumption
    | intro _
    | dsimp only)

theorem Keeps.branch {c : CoreId} {t : Core → Bool} {a : Nat} {s0 s : State}  (hK : Keeps s0 s) : Keeps s0 (branch c t a s) := by
  unfold Sys2Proof.Machine.branch
  repeat' (first
    | with_reducible assumption
    | exact fun _ hx => hx
    | exact fun _ => rfl
    | with_reducible apply Keeps.branchTo
    | with_reducible apply Keeps.setPc
    | with_reducible apply Keeps.ite_
    | split
    | (refine Keeps.lit ?_ rfl rfl id id id id id; first | with_reducible assumption | with_reducible apply Keeps.branchTo | with_reducible apply Keeps.setPc | with_reducible apply Keeps.ite_ | split)
    | assumption
    | intro _
    | dsimp only)

theorem Keeps.execNop {c : CoreId} {s0 s tK : State} (eK : execNop c s = .next tK) (hK : Keeps s0 s) : Keeps s0 tK := by
  unfold Sys2Proof.Machine.execNop at eK
  cases eK
  repeat' (first
    | with_reducible assumption
    | exact fun _ hx => hx
    | exact fun _ => rfl
    | with_reducible apply Keeps.parcel
    | with_reducible apply Keeps.ite_
    | split
    | (refine Keeps.lit ?_ rfl rfl id id id id id; first | with_reducible assumption | with_reducible apply Keeps.parcel | with_reducible apply Keeps.ite_ | split)
    | assumption
    | intro _
    | dsimp only)

theorem Keeps.execAdd {c : CoreId} {rd ra rb : SReg} {s0 s tK : State} (eK : execAdd c rd ra rb s = .next tK) (hK : Keeps s0 s) : Keeps s0 tK := by
  unfold Sys2Proof.Machine.execAdd at eK
  cases eK
  repeat' (first
    | with_reducible assumption
    | exact fun _ hx => hx
    | exact fun _ => rfl
    | with_reducible apply Keeps.arith
    | with_reducible apply Keeps.ite_
    | split
    | (refine Keeps.lit ?_ rfl rfl id id id id id; first | with_reducible assumption | with_reducible apply Keeps.arith | with_reducible apply Keeps.ite_ | split)
    | assumption
    | intro _
    | dsimp only)

theorem Keeps.execSub {c : CoreId} {rd ra rb : SReg} {s0 s tK : State} (eK : execSub c rd ra rb s = .next tK) (hK : Keeps s0 s) : Keeps s0 tK := by
  unfold Sys2Proof.Machine.execSub at eK
  cases eK
  repeat' (first
    | with_reducible assumption
    | exact fun _ hx => hx
    | exact fun _ => rfl
    | with_reducible apply Keeps.arith
    | with_reducible apply Keeps.ite_
    | split
    | (refine Keeps.lit ?_ rfl rfl id id id id id; first | with_reducible assumption | with_reducible apply Keeps.arith | with_reducible apply Keeps.ite_ | split)
    | assumption
    | intro _
    | dsimp only)

theorem Keeps.execMul {c : CoreId} {rd ra rb : SReg} {s0 s tK : State} (eK : execMul c rd ra rb s = .next tK) (hK : Keeps s0 s) : Keeps s0 tK := by
  unfold Sys2Proof.Machine.execMul at eK
  cases eK
  repeat' (first
    | with_reducible assumption
    | exact fun _ hx => hx
    | exact fun _ => rfl
    | with_reducible apply Keeps.arith
    | with_reducible apply Keeps.ite_
    | split
    | (refine Keeps.lit ?_ rfl rfl id id id id id; first | with_reducible assumption | with_reducible apply Keeps.arith | with_reducible apply Keeps.ite_ | split)
    | assumption
    | intro _
    | dsimp only)

theorem Keeps.execAnd {c : CoreId} {rd ra rb : SReg} {s0 s tK : State} (eK : execAnd c rd ra rb s = .next tK) (hK : Keeps s0 s) : Keeps s0 tK := by
  unfold Sys2Proof.Machine.execAnd at eK
  cases eK
  repeat' (first
    | with_reducible assumption
    | exact fun _ hx => hx
    | exact fun _ => rfl
    | with_reducible apply Keeps.arith
    | with_reducible apply Keeps.ite_
    | split
    | (refine Keeps.lit ?_ rfl rfl id id id id id; first | with_reducible assumption | with_reducible apply Keeps.arith | with_reducible apply Keeps.ite_ | split)
    | assumption
    | intro _
    | dsimp only)

theorem Keeps.execOr {c : CoreId} {rd ra rb : SReg} {s0 s tK : State} (eK : execOr c rd ra rb s = .next tK) (hK : Keeps s0 s) : Keeps s0 tK := by
  unfold Sys2Proof.Machine.execOr at eK
  cases eK
  repeat' (first
    | with_reducible assumption
    | exact fun _ hx => hx
    | exact fun _ => rfl
    | with_reducible apply Keeps.arith
    | with_reducible apply Keeps.ite_
    | split
    | (refine Keeps.lit ?_ rfl rfl id id id id id; first | with_reducible assumption | with_reducible apply Keeps.arith | with_reducible apply Keeps.ite_ | split)
    | assumption
    | intro _
    | dsimp only)

theorem Keeps.execXor {c : CoreId} {rd ra rb : SReg} {s0 s tK : State} (eK : execXor c rd ra rb s = .next tK) (hK : Keeps s0 s) : Keeps s0 tK := by
  unfold Sys2Proof.Machine.execXor at eK
  cases eK
  repeat' (first
    | with_reducible assumption
    | exact fun _ hx => hx
    | exact fun _ => rfl
    | with_reducible apply Keeps.arith
    | with_reducible apply Keeps.ite_
    | split
    | (refine Keeps.lit ?_ rfl rfl id id id id id; first | with_reducible assumption | with_reducible apply Keeps.arith | with_reducible apply Keeps.ite_ | split)
    | assumption
    | intro _
    | dsimp only)

theorem Keeps.execShl {c : CoreId} {rd ra rb : SReg} {s0 s tK : State} (eK : execShl c rd ra rb s = .next tK) (hK : Keeps s0 s) : Keeps s0 tK := by
  unfold Sys2Proof.Machine.execShl at eK
  cases eK
  repeat' (first
    | with_reducible assumption
    | exact fun _ hx => hx
    | exact fun _ => rfl
    | with_reducible apply Keeps.shiftBy
    | with_reducible apply Keeps.ite_
    | split
    | (refine Keeps.lit ?_ rfl rfl id id id id id; first | with_reducible assumption | with_reducible apply Keeps.shiftBy | with_reducible apply Keeps.ite_ | split)
    | assumption
    | intro _
    | dsimp only)

theorem Keeps.execShr {c : CoreId} {rd ra rb : SReg} {s0 s tK : State} (eK : execShr c rd ra rb s = .next tK) (hK : Keeps s0 s) : Keeps s0 tK := by
  unfold Sys2Proof.Machine.execShr at eK
  cases eK
  repeat' (first
    | with_reducible assumption
    | exact fun _ hx => hx
    | exact fun _ => rfl
    | with_reducible apply Keeps.shiftBy
    | with_reducible apply Keeps.ite_
    | split
    | (refine Keeps.lit ?_ rfl rfl id id id id id; first | with_reducible assumption | with_reducible apply Keeps.shiftBy | with_reducible apply Keeps.ite_ | split)
    | assumption
    | intro _
    | dsimp only)

theorem Keeps.execSra {c : CoreId} {rd ra rb : SReg} {s0 s tK : State} (eK : execSra c rd ra rb s = .next tK) (hK : Keeps s0 s) : Keeps s0 tK := by
  unfold Sys2Proof.Machine.execSra at eK
  cases eK
  repeat' (first
    | with_reducible assumption
    | exact fun _ hx => hx
    | exact fun _ => rfl
    | with_reducible apply Keeps.shiftBy
    | with_reducible apply Keeps.ite_
    | split
    | (refine Keeps.lit ?_ rfl rfl id id id id id; first | with_reducible assumption | with_reducible apply Keeps.shiftBy | with_reducible apply Keeps.ite_ | split)
    | assumption
    | intro _
    | dsimp only)

theorem Keeps.execMin {c : CoreId} {rd ra rb : SReg} {s0 s tK : State} (eK : execMin c rd ra rb s = .next tK) (hK : Keeps s0 s) : Keeps s0 tK := by
  unfold Sys2Proof.Machine.execMin at eK
  cases eK
  repeat' (first
    | with_reducible assumption
    | exact fun _ hx => hx
    | exact fun _ => rfl
    | with_reducible apply Keeps.arith
    | with_reducible apply Keeps.ite_
    | split
    | (refine Keeps.lit ?_ rfl rfl id id id id id; first | with_reducible assumption | with_reducible apply Keeps.arith | with_reducible apply Keeps.ite_ | split)
    | assumption
    | intro _
    | dsimp only)

theorem Keeps.execMax {c : CoreId} {rd ra rb : SReg} {s0 s tK : State} (eK : execMax c rd ra rb s = .next tK) (hK : Keeps s0 s) : Keeps s0 tK := by
  unfold Sys2Proof.Machine.execMax at eK
  cases eK
  repeat' (first
    | with_reducible assumption
    | exact fun _ hx => hx
    | exact fun _ => rfl
    | with_reducible apply Keeps.arith
    | with_reducible apply Keeps.ite_
    | split
    | (refine Keeps.lit ?_ rfl rfl id id id id id; first | with_reducible assumption | with_reducible apply Keeps.arith | with_reducible apply Keeps.ite_ | split)
    | assumption
    | intro _
    | dsimp only)

theorem Keeps.execAddi {c : CoreId} {rd ra : SReg} {imm : BitVec 13} {s0 s tK : State} (eK : execAddi c rd ra imm s = .next tK) (hK : Keeps s0 s) : Keeps s0 tK := by
  unfold Sys2Proof.Machine.execAddi at eK
  cases eK
  repeat' (first
    | with_reducible assumption
    | exact fun _ hx => hx
    | exact fun _ => rfl
    | with_reducible apply Keeps.parcel
    | with_reducible apply Keeps.ite_
    | with_reducible apply CoreOk.setS
    | split
    | (refine Keeps.lit ?_ rfl rfl id id id id id; first | with_reducible assumption | with_reducible apply Keeps.parcel | with_reducible apply Keeps.ite_ | with_reducible apply CoreOk.setS | split)
    | assumption
    | intro _
    | dsimp only)

theorem Keeps.execOri {c : CoreId} {rd ra : SReg} {imm : BitVec 13} {s0 s tK : State} (eK : execOri c rd ra imm s = .next tK) (hK : Keeps s0 s) : Keeps s0 tK := by
  unfold Sys2Proof.Machine.execOri at eK
  cases eK
  repeat' (first
    | with_reducible assumption
    | exact fun _ hx => hx
    | exact fun _ => rfl
    | with_reducible apply Keeps.parcel
    | with_reducible apply Keeps.ite_
    | with_reducible apply CoreOk.setS
    | split
    | (refine Keeps.lit ?_ rfl rfl id id id id id; first | with_reducible assumption | with_reducible apply Keeps.parcel | with_reducible apply Keeps.ite_ | with_reducible apply CoreOk.setS | split)
    | assumption
    | intro _
    | dsimp only)

theorem Keeps.execShli {c : CoreId} {rd ra : SReg} {imm : BitVec 13} {s0 s tK : State} (eK : execShli c rd ra imm s = .next tK) (hK : Keeps s0 s) : Keeps s0 tK := by
  unfold Sys2Proof.Machine.execShli at eK
  cases eK
  repeat' (first
    | with_reducible assumption
    | exact fun _ hx => hx
    | exact fun _ => rfl
    | with_reducible apply Keeps.shiftBy
    | with_reducible apply Keeps.ite_
    | split
    | (refine Keeps.lit ?_ rfl rfl id id id id id; first | with_reducible assumption | with_reducible apply Keeps.shiftBy | with_reducible apply Keeps.ite_ | split)
    | assumption
    | intro _
    | dsimp only)

theorem Keeps.execLui {c : CoreId} {rd : SReg} {imm : BitVec 19} {s0 s tK : State} (eK : execLui c rd imm s = .next tK) (hK : Keeps s0 s) : Keeps s0 tK := by
  unfold Sys2Proof.Machine.execLui at eK
  cases eK
  repeat' (first
    | with_reducible assumption
    | exact fun _ hx => hx
    | exact fun _ => rfl
    | with_reducible apply Keeps.parcel
    | with_reducible apply Keeps.ite_
    | with_reducible apply CoreOk.setS
    | split
    | (refine Keeps.lit ?_ rfl rfl id id id id id; first | with_reducible assumption | with_reducible apply Keeps.parcel | with_reducible apply Keeps.ite_ | with_reducible apply CoreOk.setS | split)
    | assumption
    | intro _
    | dsimp only)

theorem Keeps.execCeq {c : CoreId} {pd : PReg} {ra rb : SReg} {s0 s tK : State} (eK : execCeq c pd ra rb s = .next tK) (hK : Keeps s0 s) : Keeps s0 tK := by
  unfold Sys2Proof.Machine.execCeq at eK
  cases eK
  repeat' (first
    | with_reducible assumption
    | exact fun _ hx => hx
    | exact fun _ => rfl
    | with_reducible apply Keeps.compare
    | with_reducible apply Keeps.ite_
    | split
    | (refine Keeps.lit ?_ rfl rfl id id id id id; first | with_reducible assumption | with_reducible apply Keeps.compare | with_reducible apply Keeps.ite_ | split)
    | assumption
    | intro _
    | dsimp only)

theorem Keeps.execClt {c : CoreId} {pd : PReg} {ra rb : SReg} {s0 s tK : State} (eK : execClt c pd ra rb s = .next tK) (hK : Keeps s0 s) : Keeps s0 tK := by
  unfold Sys2Proof.Machine.execClt at eK
  cases eK
  repeat' (first
    | with_reducible assumption
    | exact fun _ hx => hx
    | exact fun _ => rfl
    | with_reducible apply Keeps.compare
    | with_reducible apply Keeps.ite_
    | split
    | (refine Keeps.lit ?_ rfl rfl id id id id id; first | with_reducible assumption | with_reducible apply Keeps.compare | with_reducible apply Keeps.ite_ | split)
    | assumption
    | intro _
    | dsimp only)

theorem Keeps.execCltu {c : CoreId} {pd : PReg} {ra rb : SReg} {s0 s tK : State} (eK : execCltu c pd ra rb s = .next tK) (hK : Keeps s0 s) : Keeps s0 tK := by
  unfold Sys2Proof.Machine.execCltu at eK
  cases eK
  repeat' (first
    | with_reducible assumption
    | exact fun _ hx => hx
    | exact fun _ => rfl
    | with_reducible apply Keeps.compare
    | with_reducible apply Keeps.ite_
    | split
    | (refine Keeps.lit ?_ rfl rfl id id id id id; first | with_reducible assumption | with_reducible apply Keeps.compare | with_reducible apply Keeps.ite_ | split)
    | assumption
    | intro _
    | dsimp only)

theorem Keeps.execCle {c : CoreId} {pd : PReg} {ra rb : SReg} {s0 s tK : State} (eK : execCle c pd ra rb s = .next tK) (hK : Keeps s0 s) : Keeps s0 tK := by
  unfold Sys2Proof.Machine.execCle at eK
  cases eK
  repeat' (first
    | with_reducible assumption
    | exact fun _ hx => hx
    | exact fun _ => rfl
    | with_reducible apply Keeps.compare
    | with_reducible apply Keeps.ite_
    | split
    | (refine Keeps.lit ?_ rfl rfl id id id id id; first | with_reducible assumption | with_reducible apply Keeps.compare | with_reducible apply Keeps.ite_ | split)
    | assumption
    | intro _
    | dsimp only)

theorem Keeps.execB {c : CoreId} {target : BitVec 17} {s0 s tK : State} (eK : execB c target s = .next tK) (hK : Keeps s0 s) : Keeps s0 tK := by
  unfold Sys2Proof.Machine.execB at eK
  cases eK
  repeat' (first
    | with_reducible assumption
    | exact fun _ hx => hx
    | exact fun _ => rfl
    | with_reducible apply Keeps.branch
    | with_reducible apply Keeps.ite_
    | split
    | (refine Keeps.lit ?_ rfl rfl id id id id id; first | with_reducible assumption | with_reducible apply Keeps.branch | with_reducible apply Keeps.ite_ | split)
    | assumption
    | intro _
    | dsimp only)

theorem Keeps.execBp {c : CoreId} {pa : PReg} {target : BitVec 17} {s0 s tK : State} (eK : execBp c pa target s = .next tK) (hK : Keeps s0 s) : Keeps s0 tK := by
  unfold Sys2Proof.Machine.execBp at eK
  cases eK
  repeat' (first
    | with_reducible assumption
    | exact fun _ hx => hx
    | exact fun _ => rfl
    | with_reducible apply Keeps.branch
    | with_reducible apply Keeps.ite_
    | split
    | (refine Keeps.lit ?_ rfl rfl id id id id id; first | with_reducible assumption | with_reducible apply Keeps.branch | with_reducible apply Keeps.ite_ | split)
    | assumption
    | intro _
    | dsimp only)

theorem Keeps.execBnp {c : CoreId} {pa : PReg} {target : BitVec 17} {s0 s tK : State} (eK : execBnp c pa target s = .next tK) (hK : Keeps s0 s) : Keeps s0 tK := by
  unfold Sys2Proof.Machine.execBnp at eK
  cases eK
  repeat' (first
    | with_reducible assumption
    | exact fun _ hx => hx
    | exact fun _ => rfl
    | with_reducible apply Keeps.branch
    | with_reducible apply Keeps.ite_
    | split
    | (refine Keeps.lit ?_ rfl rfl id id id id id; first | with_reducible assumption | with_reducible apply Keeps.branch | with_reducible apply Keeps.ite_ | split)
    | assumption
    | intro _
    | dsimp only)

theorem Keeps.execCall {c : CoreId} {target : BitVec 17} {s0 s tK : State} (eK : execCall c target s = .next tK) (hK : Keeps s0 s) : Keeps s0 tK := by
  unfold Sys2Proof.Machine.execCall at eK
  cases eK
  repeat' (first
    | with_reducible assumption
    | exact fun _ hx => hx
    | exact fun _ => rfl
    | with_reducible apply Keeps.branchTo
    | with_reducible apply Keeps.updCore
    | with_reducible apply Keeps.ite_
    | with_reducible apply CoreOk.setS
    | split
    | (refine Keeps.lit ?_ rfl rfl id id id id id; first | with_reducible assumption | with_reducible apply Keeps.branchTo | with_reducible apply Keeps.updCore | with_reducible apply Keeps.ite_ | with_reducible apply CoreOk.setS | split)
    | assumption
    | intro _
    | dsimp only)

theorem Keeps.execRet {c : CoreId} {s0 s tK : State} (eK : execRet c s = .next tK) (hK : Keeps s0 s) : Keeps s0 tK := by
  unfold Sys2Proof.Machine.execRet at eK
  cases eK
  repeat' (first
    | with_reducible assumption
    | exact fun _ hx => hx
    | exact fun _ => rfl
    | with_reducible apply Keeps.branch
    | with_reducible apply Keeps.ite_
    | split
    | (refine Keeps.lit ?_ rfl rfl id id id id id; first | with_reducible assumption | with_reducible apply Keeps.branch | with_reducible apply Keeps.ite_ | split)
    | assumption
    | intro _
    | dsimp only)

theorem Keeps.execEnd {c : CoreId} {s0 s tK : State} (eK : execEnd c s = .next tK) (hK : Keeps s0 s) : Keeps s0 tK := by
  unfold Sys2Proof.Machine.execEnd at eK
  cases eK
  repeat' (first
    | with_reducible assumption
    | exact fun _ hx => hx
    | exact fun _ => rfl
    | with_reducible apply Keeps.updCore
    | with_reducible apply Keeps.ite_
    | split
    | (refine Keeps.lit ?_ rfl rfl id id id id id; first | with_reducible assumption | with_reducible apply Keeps.updCore | with_reducible apply Keeps.ite_ | split)
    | assumption
    | intro _
    | dsimp only)

theorem Keeps.execLdD {c : CoreId} {rd ra : SReg} {imm : BitVec 13} {s0 s tK : State} (eK : execLdD c rd ra imm s = .next tK) (hK : Keeps s0 s) : Keeps s0 tK := by
  unfold Sys2Proof.Machine.execLdD at eK
  cases eK
  repeat' (first
    | with_reducible assumption
    | exact fun _ hx => hx
    | exact fun _ => rfl
    | with_reducible apply Keeps.parcel
    | with_reducible apply Keeps.ite_
    | with_reducible apply CoreOk.setS
    | with_reducible apply Keeps.takeFree_get
    | refine Keeps.takeFree_eq (by with_reducible assumption) ?_
    | split
    | (refine Keeps.lit ?_ rfl rfl id id id id id; first | with_reducible assumption | with_reducible apply Keeps.parcel | with_reducible apply Keeps.ite_ | with_reducible apply CoreOk.setS | with_reducible apply Keeps.takeFree_get | refine Keeps.takeFree_eq (by with_reducible assumption) ?_ | split)
    | assumption
    | intro _
    | dsimp only)

theorem Keeps.execStD {c : CoreId} {rs ra : SReg} {imm : BitVec 13} {s0 s tK : State} (eK : execStD c rs ra imm s = .next tK) (hK : Keeps s0 s) :
    Keeps s0 tK := by
  cases eK
  refine Keeps.parcel (fun x hx => ?_) hK
  split
  · exact ⟨hx.1, hx.2.1, wrLE_wf _ _ _ _ hx.2.2.1, hx.2.2.2⟩
  · exact hx

theorem Keeps.execMovHS {c : CoreId} {rd : SReg} {h : HReg} {s0 s tK : State} (eK : execMovHS c rd h s = .next tK) (hK : Keeps s0 s) : Keeps s0 tK := by
  unfold Sys2Proof.Machine.execMovHS at eK
  cases eK
  repeat' (first
    | with_reducible assumption
    | exact fun _ hx => hx
    | exact fun _ => rfl
    | with_reducible apply Keeps.parcel
    | with_reducible apply Keeps.ite_
    | with_reducible apply CoreOk.setS
    | split
    | (refine Keeps.lit ?_ rfl rfl id id id id id; first | with_reducible assumption | with_reducible apply Keeps.parcel | with_reducible apply Keeps.ite_ | with_reducible apply CoreOk.setS | split)
    | assumption
    | intro _
    | dsimp only)

theorem Keeps.execMovSH {c : CoreId} {h : HReg} {ra : SReg} {s0 s tK : State} (eK : execMovSH c h ra s = .next tK) (hK : Keeps s0 s) : Keeps s0 tK := by
  unfold Sys2Proof.Machine.execMovSH at eK
  cases eK
  repeat' (first
    | with_reducible assumption
    | exact fun _ hx => hx
    | exact fun _ => rfl
    | with_reducible apply Keeps.parcel
    | with_reducible apply Keeps.ite_
    | with_reducible apply CoreOk.setH
    | split
    | (refine Keeps.lit ?_ rfl rfl id id id id id; first | with_reducible assumption | with_reducible apply Keeps.parcel | with_reducible apply Keeps.ite_ | with_reducible apply CoreOk.setH | split)
    | assumption
    | intro _
    | dsimp only)

theorem CoreOk.csr {s : State} {c : CoreId} {i : Nat} {a : Option Nat} {f : Core → Core} (e : csr s c i = (a, f)) {x : Core} (h : CoreOk x) : CoreOk (f x) := by
  unfold Sys2Proof.Machine.csr at e
  dsimp only at e
  split at e <;> (injection e with e1 e2; subst e2; exact h)

theorem Keeps.execCsrr {c : CoreId} {rd : SReg} {idx : BitVec 13} {s0 s tK : State} (eK : execCsrr c rd idx s = .next tK) (hK : Keeps s0 s) : Keeps s0 tK := by
  unfold Sys2Proof.Machine.execCsrr at eK
  cases eK
  repeat' (first
    | with_reducible assumption
    | exact CoreOk.csr (by assumption) (by assumption)
    | exact fun _ hx => hx
    | exact fun _ => rfl
    | with_reducible apply Keeps.parcel
    | with_reducible apply Keeps.ite_
    | with_reducible apply CoreOk.setS
    | with_reducible apply Keeps.takeFree_get
    | refine Keeps.takeFree_eq (by with_reducible assumption) ?_
    | split
    | (refine Keeps.lit ?_ rfl rfl id id id id id; first | with_reducible assumption | exact CoreOk.csr (by assumption) (by assumption) | with_reducible apply Keeps.parcel | with_reducible apply Keeps.ite_ | with_reducible apply CoreOk.setS | with_reducible apply Keeps.takeFree_get | refine Keeps.takeFree_eq (by with_reducible assumption) ?_ | split)
    | assumption
    | intro _
    | dsimp only)

theorem Keeps.execTwait {c : CoreId} {mask : BitVec 5} {s0 s tK : State} (eK : execTwait c mask s = .next tK) (hK : Keeps s0 s) : Keeps s0 tK := by
  unfold Sys2Proof.Machine.execTwait at eK
  cases eK
  repeat' (first
    | with_reducible assumption
    | exact fun _ hx => hx
    | exact fun _ => rfl
    | with_reducible apply Keeps.setPc
    | with_reducible apply Keeps.updCore
    | with_reducible apply Keeps.ite_
    | split
    | (refine Keeps.lit ?_ rfl rfl id id id id id; first | with_reducible assumption | with_reducible apply Keeps.setPc | with_reducible apply Keeps.updCore | with_reducible apply Keeps.ite_ | split)
    | assumption
    | intro _
    | dsimp only)

end Sys2Proof.Machine
end

