-- ==== Sys2Proof/Laws/KeepsArrays.lean ====
section
/-! SUPPORT. What the operations of Machine/Arrays.lean keep: the queue, the modes and the canonical stores. -/

set_option linter.unusedTactic false
set_option linter.unreachableTactic false

namespace Sys2Proof.Machine

theorem Keeps.regrade  {s0 s : State}  (hK : Keeps s0 s) : Keeps s0 (regrade s) := by
  unfold Sys2Proof.Machine.regrade
  repeat' (first
    | with_reducible assumption
    | exact fun _ hx => hx
    | exact fun _ => rfl
    | with_reducible apply Keeps.updSec
    | with_reducible apply Keeps.alarm
    | with_reducible apply Keeps.updFlt
    | with_reducible apply Keeps.ite_
    | split
    | (refine Keeps.lit ?_ rfl rfl id id id id id; first | with_reducible assumption | with_reducible apply Keeps.updSec | with_reducible apply Keeps.alarm | with_reducible apply Keeps.updFlt | with_reducible apply Keeps.ite_ | split)
    | assumption
    | intro _
    | dsimp only)

theorem Keeps.condemn {p : Nat} {s0 s : State}  (hK : Keeps s0 s) : Keeps s0 (condemn p s) := by
  unfold Sys2Proof.Machine.condemn
  repeat' (first
    | with_reducible assumption
    | exact fun _ hx => hx
    | exact fun _ => rfl
    | with_reducible apply Keeps.regrade
    | with_reducible apply Keeps.updFlt
    | with_reducible apply Keeps.ite_
    | split
    | (refine Keeps.lit ?_ rfl rfl id id id id id; first | with_reducible assumption | with_reducible apply Keeps.regrade | with_reducible apply Keeps.updFlt | with_reducible apply Keeps.ite_ | split)
    | assumption
    | intro _
    | dsimp only)

theorem Keeps.tasterMismatch {c : CoreId} {e : Fin 4} {task pc pass kb row : Nat} {s0 s : State}  (hK : Keeps s0 s) : Keeps s0 (tasterMismatch c e task pc pass kb row s) := by
  unfold Sys2Proof.Machine.tasterMismatch
  repeat' (first
    | with_reducible assumption
    | exact fun _ hx => hx
    | exact fun _ => rfl
    | with_reducible apply Keeps.updFlt
    | with_reducible apply Keeps.logR
    | with_reducible apply Keeps.alarm
    | with_reducible apply Keeps.condemn
    | with_reducible apply Keeps.ite_
    | split
    | (refine Keeps.lit ?_ rfl rfl id id id id id; first | with_reducible assumption | with_reducible apply Keeps.updFlt | with_reducible apply Keeps.logR | with_reducible apply Keeps.alarm | with_reducible apply Keeps.condemn | with_reducible apply Keeps.ite_ | split)
    | assumption
    | intro _
    | dsimp only)

end Sys2Proof.Machine
end

