-- ==== Sys2Proof/Laws/KeepsMemOps.lean ====
section
/-! SUPPORT. What the operations of Machine/MemOps.lean keep: the queue, the modes and the canonical stores. -/

set_option linter.unusedTactic false
set_option linter.unreachableTactic false

namespace Sys2Proof.Machine

theorem Keeps.memRecord {a kind owner : Nat} {f : Finder} {s0 s : State}  (hK : Keeps s0 s) : Keeps s0 (memRecord a kind owner f s) := by
  unfold Sys2Proof.Machine.memRecord
  repeat' (first
    | with_reducible assumption
    | exact fun _ hx => hx
    | exact fun _ => rfl
    | with_reducible apply Keeps.logR
    | with_reducible apply Keeps.ite_
    | split
    | (refine Keeps.lit ?_ rfl rfl id id id id id; first | with_reducible assumption | with_reducible apply Keeps.logR | with_reducible apply Keeps.ite_ | split)
    | assumption
    | intro _
    | dsimp only)

theorem Keeps.updChan {c : Fin 16} {f : Channel → Channel} {s0 s : State}  (hK : Keeps s0 s) : Keeps s0 (updChan c f s) := by
  unfold Sys2Proof.Machine.updChan
  repeat' (first
    | with_reducible assumption
    | exact fun _ hx => hx
    | exact fun _ => rfl
    | with_reducible apply Keeps.updMem
    | with_reducible apply Keeps.ite_
    | split
    | (refine Keeps.lit ?_ rfl rfl id id id id id; first | with_reducible assumption | with_reducible apply Keeps.updMem | with_reducible apply Keeps.ite_ | split)
    | assumption
    | intro _
    | dsimp only)

theorem Keeps.updCxl {c : Fin 4} {f : Cxl → Cxl} {s0 s : State}  (hK : Keeps s0 s) : Keeps s0 (updCxl c f s) := by
  unfold Sys2Proof.Machine.updCxl
  repeat' (first
    | with_reducible assumption
    | exact fun _ hx => hx
    | exact fun _ => rfl
    | with_reducible apply Keeps.updMem
    | with_reducible apply Keeps.ite_
    | split
    | (refine Keeps.lit ?_ rfl rfl id id id id id; first | with_reducible assumption | with_reducible apply Keeps.updMem | with_reducible apply Keeps.ite_ | split)
    | assumption
    | intro _
    | dsimp only)

theorem Keeps.failChannel {c : Fin 16} {a : Nat} {f : Finder} {s0 s : State}  (hK : Keeps s0 s) : Keeps s0 (failChannel c a f s) := by
  unfold Sys2Proof.Machine.failChannel
  repeat' (first
    | with_reducible assumption
    | exact fun _ hx => hx
    | exact fun _ => rfl
    | with_reducible apply Keeps.alarm
    | with_reducible apply Keeps.memRecord
    | with_reducible apply Keeps.updChan
    | with_reducible apply Keeps.ite_
    | split
    | (refine Keeps.lit ?_ rfl rfl id id id id id; first | with_reducible assumption | with_reducible apply Keeps.alarm | with_reducible apply Keeps.memRecord | with_reducible apply Keeps.updChan | with_reducible apply Keeps.ite_ | split)
    | assumption
    | intro _
    | dsimp only)

theorem Keeps.uncEvent {a : Nat} {f : Finder} {s0 s : State}  (hK : Keeps s0 s) : Keeps s0 (uncEvent a f s) := by
  unfold Sys2Proof.Machine.uncEvent
  repeat' (first
    | with_reducible assumption
    | exact fun _ hx => hx
    | exact fun _ => rfl
    | with_reducible apply Keeps.updChan
    | with_reducible apply Keeps.failChannel
    | with_reducible apply Keeps.ite_
    | split
    | (refine Keeps.lit ?_ rfl rfl id id id id id; first | with_reducible assumption | with_reducible apply Keeps.updChan | with_reducible apply Keeps.failChannel | with_reducible apply Keeps.ite_ | split)
    | assumption
    | intro _
    | dsimp only)

theorem Keeps.crcEvent {a : Nat} {f : Finder} {s0 s : State}  (hK : Keeps s0 s) : Keeps s0 (crcEvent a f s) := by
  unfold Sys2Proof.Machine.crcEvent
  repeat' (first
    | with_reducible assumption
    | exact fun _ hx => hx
    | exact fun _ => rfl
    | with_reducible apply Keeps.updChan
    | with_reducible apply Keeps.uncEvent
    | with_reducible apply Keeps.failChannel
    | with_reducible apply Keeps.ite_
    | split
    | (refine Keeps.lit ?_ rfl rfl id id id id id; first | with_reducible assumption | with_reducible apply Keeps.updChan | with_reducible apply Keeps.uncEvent | with_reducible apply Keeps.failChannel | with_reducible apply Keeps.ite_ | split)
    | assumption
    | intro _
    | dsimp only)

theorem Keeps.corEvent {a : Nat} {s0 s : State}  (hK : Keeps s0 s) : Keeps s0 (corEvent a s) := by
  unfold Sys2Proof.Machine.corEvent
  repeat' (first
    | with_reducible assumption
    | exact fun _ hx => hx
    | exact fun _ => rfl
    | with_reducible apply Keeps.updCxl
    | with_reducible apply Keeps.updChan
    | with_reducible apply Keeps.ite_
    | split
    | (refine Keeps.lit ?_ rfl rfl id id id id id; first | with_reducible assumption | with_reducible apply Keeps.updCxl | with_reducible apply Keeps.updChan | with_reducible apply Keeps.ite_ | split)
    | assumption
    | intro _
    | dsimp only)

theorem nearWrite_wf (s : State) (a : Nat) (l : List Byte) (h : Memory.wf s.mem.near) : Memory.wf (nearWrite s a l) := by
  refine foldl_wf _ _ (fun m x hm => ?_) _ h
  dsimp only
  split
  · exact hm
  · exact wr8_wf _ _ _ hm

theorem Keeps.tierWrite {a : Nat} {l : List Byte} {s0 s : State} (hK : Keeps s0 s) : Keeps s0 (tierWrite a l s) := by
  unfold Sys2Proof.Machine.tierWrite
  split
  · exact Keeps.updMem hK (fun m h => ⟨h.1, wrBytes_wf _ _ _ h.2.1, h.2.2⟩)
  · exact Keeps.same hK rfl rfl (fun k => ⟨⟨nearWrite_wf _ _ _ k.1.1, k.1.2⟩, k.2⟩)

theorem Keeps.clearRun {a n : Nat} {s0 s : State} (hK : Keeps s0 s) : Keeps s0 (clearRun a n s) :=
  Keeps.updMem hK (fun _ hm => ⟨filter_wf _ _ hm.1, hm.2.1, hm.2.2⟩)

theorem Keeps.updNodes {f : List PNode → List PNode} {s0 s : State}  (hK : Keeps s0 s) : Keeps s0 (updNodes f s) := by
  unfold Sys2Proof.Machine.updNodes
  repeat' (first
    | with_reducible assumption
    | exact fun _ hx => hx
    | exact fun _ => rfl
    | with_reducible apply Keeps.updMem
    | with_reducible refine Keeps.forAll (fun _ _ _ => ?_) ?_
    | with_reducible apply Keeps.tierWrite
    | with_reducible apply Keeps.ite_
    | split
    | (refine Keeps.lit ?_ rfl rfl id id id id id; first | with_reducible assumption | with_reducible apply Keeps.updMem | with_reducible refine Keeps.forAll (fun _ _ _ => ?_) ?_ | with_reducible apply Keeps.tierWrite | with_reducible apply Keeps.ite_ | split)
    | assumption
    | intro _
    | dsimp only)

theorem Keeps.losePage {a : Nat} {s0 s : State}  (hK : Keeps s0 s) : Keeps s0 (losePage a s) := by
  unfold Sys2Proof.Machine.losePage
  repeat' (first
    | with_reducible assumption
    | exact fun _ hx => hx
    | exact fun _ => rfl
    | with_reducible apply Keeps.updPart
    | with_reducible apply Keeps.ite_
    | split
    | (refine Keeps.lit ?_ rfl rfl id id id id id; first | with_reducible assumption | with_reducible apply Keeps.updPart | with_reducible apply Keeps.ite_ | split)
    | assumption
    | intro _
    | dsimp only)

theorem Keeps.retirePage {a : Nat} {s0 s : State}  (hK : Keeps s0 s) : Keeps s0 (retirePage a s) := by
  unfold Sys2Proof.Machine.retirePage
  repeat' (first
    | with_reducible assumption
    | exact fun _ hx => hx
    | exact fun _ => rfl
    | with_reducible apply Keeps.losePage
    | with_reducible apply Keeps.updMem
    | with_reducible apply Keeps.alarm
    | with_reducible apply Keeps.ite_
    | split
    | (refine Keeps.lit ?_ rfl rfl id id id id id; first | with_reducible assumption | with_reducible apply Keeps.losePage | with_reducible apply Keeps.updMem | with_reducible apply Keeps.alarm | with_reducible apply Keeps.ite_ | split)
    | assumption
    | intro _
    | dsimp only)

theorem Keeps.markReload {a : Nat} {s0 s : State}  (hK : Keeps s0 s) : Keeps s0 (markReload a s) := by
  unfold Sys2Proof.Machine.markReload
  repeat' (first
    | with_reducible assumption
    | exact fun _ hx => hx
    | exact fun _ => rfl
    | with_reducible apply Keeps.updMem
    | with_reducible apply Keeps.ite_
    | split
    | (refine Keeps.lit ?_ rfl rfl id id id id id; first | with_reducible assumption | with_reducible apply Keeps.updMem | with_reducible apply Keeps.ite_ | split)
    | assumption
    | intro _
    | dsimp only)

theorem Keeps.dropNodes {a : Nat} {s0 s : State}  (hK : Keeps s0 s) : Keeps s0 (dropNodes a s) := by
  unfold Sys2Proof.Machine.dropNodes
  repeat' (first
    | with_reducible assumption
    | exact fun _ hx => hx
    | exact fun _ => rfl
    | with_reducible apply Keeps.updNodes
    | with_reducible apply Keeps.ite_
    | split
    | (refine Keeps.lit ?_ rfl rfl id id id id id; first | with_reducible assumption | with_reducible apply Keeps.updNodes | with_reducible apply Keeps.ite_ | split)
    | assumption
    | intro _
    | dsimp only)

theorem Keeps.loseSessions {a : Nat} {s0 s : State}  (hK : Keeps s0 s) : Keeps s0 (loseSessions a s) := by
  unfold Sys2Proof.Machine.loseSessions
  repeat' (first
    | with_reducible assumption
    | exact fun _ hx => hx
    | exact fun _ => rfl
    | with_reducible refine Keeps.forAll (fun _ _ _ => ?_) ?_
    | with_reducible apply Keeps.updPart
    | with_reducible apply Keeps.ite_
    | split
    | (refine Keeps.lit ?_ rfl rfl id id id id id; first | with_reducible assumption | with_reducible refine Keeps.forAll (fun _ _ _ => ?_) ?_ | with_reducible apply Keeps.updPart | with_reducible apply Keeps.ite_ | split)
    | assumption
    | intro _
    | dsimp only)

theorem Keeps.badJournal {a : Nat} {s0 s : State}  (hK : Keeps s0 s) : Keeps s0 (badJournal a s) := by
  unfold Sys2Proof.Machine.badJournal
  repeat' (first
    | with_reducible assumption
    | exact fun _ hx => hx
    | exact fun _ => rfl
    | with_reducible apply Keeps.updPart
    | with_reducible apply Keeps.alarm
    | with_reducible apply Keeps.setPState
    | with_reducible apply Keeps.abortTask
    | with_reducible apply Keeps.ite_
    | split
    | (refine Keeps.lit ?_ rfl rfl id id id id id; first | with_reducible assumption | with_reducible apply Keeps.updPart | with_reducible apply Keeps.alarm | with_reducible apply Keeps.setPState | with_reducible apply Keeps.abortTask | with_reducible apply Keeps.ite_ | split)
    | assumption
    | intro _
    | dsimp only)

theorem Keeps.retireLine {a : Nat} {s0 s : State}  (hK : Keeps s0 s) : Keeps s0 (retireLine a s) := by
  unfold Sys2Proof.Machine.retireLine
  repeat' (first
    | with_reducible assumption
    | exact fun _ hx => hx
    | exact fun _ => rfl
    | with_reducible apply Keeps.markReload
    | with_reducible apply Keeps.retirePage
    | with_reducible apply Keeps.ite_
    | split
    | (refine Keeps.lit ?_ rfl rfl id id id id id; first | with_reducible assumption | with_reducible apply Keeps.markReload | with_reducible apply Keeps.retirePage | with_reducible apply Keeps.ite_ | split)
    | assumption
    | intro _
    | dsimp only)

theorem Keeps.ownerAction {owner : Fin 8} {a : Nat} {s0 s : State}  (hK : Keeps s0 s) : Keeps s0 (ownerAction owner a s) := by
  unfold Sys2Proof.Machine.ownerAction
  repeat' (first
    | with_reducible assumption
    | exact fun _ hx => hx
    | exact fun _ => rfl
    | with_reducible apply Keeps.markReload
    | with_reducible apply Keeps.retireLine
    | with_reducible apply Keeps.dropNodes
    | with_reducible apply Keeps.loseSessions
    | with_reducible apply Keeps.badJournal
    | with_reducible apply Keeps.countDrop
    | with_reducible apply Keeps.ite_
    | split
    | (refine Keeps.lit ?_ rfl rfl id id id id id; first | with_reducible assumption | with_reducible apply Keeps.markReload | with_reducible apply Keeps.retireLine | with_reducible apply Keeps.dropNodes | with_reducible apply Keeps.loseSessions | with_reducible apply Keeps.badJournal | with_reducible apply Keeps.countDrop | with_reducible apply Keeps.ite_ | split)
    | assumption
    | intro _
    | dsimp only)

theorem Keeps.badLine_get {o : Fin 8} {b : Nat} {s0 s : State} (hK : Keeps s0 s) : Keeps s0 (badLine o b s).2 := by
  unfold Sys2Proof.Machine.badLine
  try dsimp only
  repeat' (first
    | with_reducible assumption
    | exact fun _ hx => hx
    | exact fun _ => rfl
    | with_reducible apply Keeps.ownerAction
    | with_reducible apply Keeps.ite_
    | split
    | (refine Keeps.lit ?_ rfl rfl id id id id id; first | with_reducible assumption | with_reducible apply Keeps.ownerAction | with_reducible apply Keeps.ite_ | split)
    | assumption
    | intro _
    | dsimp only)

theorem Keeps.badLine_eq {o : Fin 8} {b : Nat} {s0 s tK : State} {aK : Bool} (eK : badLine o b s = (aK, tK)) (hK : Keeps s0 s) : Keeps s0 tK := by
  have hR := Keeps.badLine_get (o := o) (b := b) hK
  rw [eK] at hR
  exact hR

theorem Keeps.judgeRead_get {a len : Nat} {r : AccessResult} {f : Finder} {s0 s : State} (hK : Keeps s0 s) : Keeps s0 (judgeRead a len r f s).2 := by
  unfold Sys2Proof.Machine.judgeRead
  try dsimp only
  repeat' (first
    | with_reducible assumption
    | exact fun _ hx => hx
    | exact fun _ => rfl
    | with_reducible apply Keeps.uncEvent
    | with_reducible apply Keeps.memRecord
    | with_reducible apply Keeps.corEvent
    | with_reducible apply Keeps.updCxl
    | with_reducible apply Keeps.crcEvent
    | with_reducible apply Keeps.updChan
    | with_reducible apply Keeps.ite_
    | with_reducible apply Keeps.badLine_get
    | refine Keeps.badLine_eq (by with_reducible assumption) ?_
    | split
    | (refine Keeps.lit ?_ rfl rfl id id id id id; first | with_reducible assumption | with_reducible apply Keeps.uncEvent | with_reducible apply Keeps.memRecord | with_reducible apply Keeps.corEvent | with_reducible apply Keeps.updCxl | with_reducible apply Keeps.crcEvent | with_reducible apply Keeps.updChan | with_reducible apply Keeps.ite_ | with_reducible apply Keeps.badLine_get | refine Keeps.badLine_eq (by with_reducible assumption) ?_ | split)
    | assumption
    | intro _
    | dsimp only)

theorem Keeps.judgeRead_eq {a len : Nat} {r : AccessResult} {f : Finder} {s0 s tK : State} {aK : Bool} (eK : judgeRead a len r f s = (aK, tK)) (hK : Keeps s0 s) : Keeps s0 tK := by
  have hR := Keeps.judgeRead_get (a := a) (len := len) (r := r) (f := f) hK
  rw [eK] at hR
  exact hR

end Sys2Proof.Machine
end

