-- ==== Sys2Proof/Laws/KeepsScoops.lean ====
section
/-! SUPPORT. What the operations of Machine/Scoops.lean keep: the queue, the modes and the canonical stores. -/

set_option linter.unusedTactic false
set_option linter.unreachableTactic false

namespace Sys2Proof.Machine

theorem Keeps.updScoop {c : CoreId} {u : UnitId} {f : Scoop → Scoop} {s0 s : State}  (hK : Keeps s0 s) : Keeps s0 (updScoop c u f s) := by
  unfold Sys2Proof.Machine.updScoop
  repeat' (first
    | with_reducible assumption
    | exact fun _ hx => hx
    | exact fun _ => rfl
    | with_reducible apply Keeps.updCore
    | with_reducible apply Keeps.ite_
    | split
    | (refine Keeps.lit ?_ rfl rfl id id id id id; first | with_reducible assumption | with_reducible apply Keeps.updCore | with_reducible apply Keeps.ite_ | split)
    | assumption
    | intro _
    | dsimp only)

theorem Keeps.rotateUnit {c : CoreId} {u : UnitId} {s0 s : State}  (hK : Keeps s0 s) : Keeps s0 (rotateUnit c u s) := by
  unfold Sys2Proof.Machine.rotateUnit
  repeat' (first
    | with_reducible assumption
    | exact fun _ hx => hx
    | exact fun _ => rfl
    | with_reducible apply Keeps.scoopFault
    | with_reducible apply Keeps.illegalOf
    | with_reducible apply Keeps.updScoop
    | with_reducible apply Keeps.ite_
    | split
    | (refine Keeps.lit ?_ rfl rfl id id id id id; first | with_reducible assumption | with_reducible apply Keeps.scoopFault | with_reducible apply Keeps.illegalOf | with_reducible apply Keeps.updScoop | with_reducible apply Keeps.ite_ | split)
    | assumption
    | intro _
    | dsimp only)

theorem Keeps.landPacket {k : Packet} {u : UnitId} {s0 s : State}  (hK : Keeps s0 s) : Keeps s0 (landPacket k u s) := by
  unfold Sys2Proof.Machine.landPacket
  repeat' (first
    | with_reducible assumption
    | exact fun _ hx => hx
    | exact fun _ => rfl
    | with_reducible apply Keeps.updScoop
    | with_reducible apply Keeps.ite_
    | split
    | (refine Keeps.lit ?_ rfl rfl id id id id id; first | with_reducible assumption | with_reducible apply Keeps.updScoop | with_reducible apply Keeps.ite_ | split)
    | assumption
    | intro _
    | dsimp only)

theorem Keeps.arrive {k : Packet} {u : Option UnitId} {s0 s : State}  (hK : Keeps s0 s) : Keeps s0 (arrive k u s) := by
  unfold Sys2Proof.Machine.arrive
  repeat' (first
    | with_reducible assumption
    | exact fun _ hx => hx
    | exact fun _ => rfl
    | with_reducible apply Keeps.rotateUnit
    | with_reducible apply Keeps.landPacket
    | with_reducible apply Keeps.updCore
    | with_reducible apply Keeps.ite_
    | split
    | (refine Keeps.lit ?_ rfl rfl id id id id id; first | with_reducible assumption | with_reducible apply Keeps.rotateUnit | with_reducible apply Keeps.landPacket | with_reducible apply Keeps.updCore | with_reducible apply Keeps.ite_ | split)
    | assumption
    | intro _
    | dsimp only)

theorem Keeps.settleDeliver {p : PartId} {k : Packet} {s0 s : State}  (hK : Keeps s0 s) : Keeps s0 (settleDeliver p k s) := by
  unfold Sys2Proof.Machine.settleDeliver
  repeat' (first
    | with_reducible assumption
    | exact fun _ hx => hx
    | exact fun _ => rfl
    | with_reducible apply Keeps.deliverDone
    | with_reducible apply Keeps.ite_
    | split
    | (refine Keeps.lit ?_ rfl rfl id id id id id; first | with_reducible assumption | with_reducible apply Keeps.deliverDone | with_reducible apply Keeps.ite_ | split)
    | assumption
    | intro _
    | dsimp only)

theorem Keeps.deliver {p : PartId} {s0 s : State}  (hK : Keeps s0 s) : Keeps s0 (deliver p s) := by
  unfold Sys2Proof.Machine.deliver
  repeat' (first
    | with_reducible assumption
    | exact fun _ hx => hx
    | exact fun _ => rfl
    | with_reducible apply Keeps.settleDeliver
    | with_reducible apply Keeps.arrive
    | with_reducible apply Keeps.updPart
    | with_reducible apply Keeps.ite_
    | split
    | (refine Keeps.lit ?_ rfl rfl id id id id id; first | with_reducible assumption | with_reducible apply Keeps.settleDeliver | with_reducible apply Keeps.arrive | with_reducible apply Keeps.updPart | with_reducible apply Keeps.ite_ | split)
    | assumption
    | intro _
    | dsimp only)

theorem Keeps.meshPump {p : PartId} {s0 s : State}  (hK : Keeps s0 s) : Keeps s0 (meshPump p s) := by
  unfold Sys2Proof.Machine.meshPump
  repeat' (first
    | with_reducible assumption
    | exact fun _ hx => hx
    | exact fun _ => rfl
    | with_reducible refine Keeps.forAll (fun _ _ _ => ?_) ?_
    | with_reducible apply Keeps.deliver
    | with_reducible apply Keeps.ite_
    | split
    | (refine Keeps.lit ?_ rfl rfl id id id id id; first | with_reducible assumption | with_reducible refine Keeps.forAll (fun _ _ _ => ?_) ?_ | with_reducible apply Keeps.deliver | with_reducible apply Keeps.ite_ | split)
    | assumption
    | intro _
    | dsimp only)

theorem Keeps.toMesh {p : PartId} {ks : List Packet} {s0 s : State}  (hK : Keeps s0 s) : Keeps s0 (toMesh p ks s) := by
  unfold Sys2Proof.Machine.toMesh
  repeat' (first
    | with_reducible assumption
    | exact fun _ hx => hx
    | exact fun _ => rfl
    | with_reducible apply Keeps.meshPump
    | with_reducible apply Keeps.updPart
    | with_reducible apply Keeps.ite_
    | split
    | (refine Keeps.lit ?_ rfl rfl id id id id id; first | with_reducible assumption | with_reducible apply Keeps.meshPump | with_reducible apply Keeps.updPart | with_reducible apply Keeps.ite_ | split)
    | assumption
    | intro _
    | dsimp only)

theorem Keeps.meshSend {p : PartId} {src : CoreId} {cores : List Nat} {mc : Bool} {id : W64} {block : Nat} {data : List Byte} {s0 s : State}  (hK : Keeps s0 s) : Keeps s0 (meshSend p src cores mc id block data s) := by
  unfold Sys2Proof.Machine.meshSend
  repeat' (first
    | with_reducible assumption
    | exact fun _ hx => hx
    | exact fun _ => rfl
    | with_reducible apply Keeps.transferFault
    | with_reducible apply Keeps.toMesh
    | with_reducible apply Keeps.ite_
    | split
    | (refine Keeps.lit ?_ rfl rfl id id id id id; first | with_reducible assumption | with_reducible apply Keeps.transferFault | with_reducible apply Keeps.toMesh | with_reducible apply Keeps.ite_ | split)
    | assumption
    | intro _
    | dsimp only)

theorem Keeps.placeProgram {c : CoreId} {u : UnitId} {p : PartId} {r : ScoopRun} {k : Option WalkSnap} {s0 s : State}  (hK : Keeps s0 s) : Keeps s0 (placeProgram c u p r k s) := by
  unfold Sys2Proof.Machine.placeProgram
  repeat' (first
    | with_reducible assumption
    | exact fun _ hx => hx
    | exact fun _ => rfl
    | with_reducible apply Keeps.meshPump
    | with_reducible refine Keeps.whenS (fun _ _ => ?_) ?_
    | with_reducible apply Keeps.updPart
    | with_reducible apply Keeps.updScoop
    | with_reducible apply Keeps.ite_
    | split
    | (refine Keeps.lit ?_ rfl rfl id id id id id; first | with_reducible assumption | with_reducible apply Keeps.meshPump | with_reducible refine Keeps.whenS (fun _ _ => ?_) ?_ | with_reducible apply Keeps.updPart | with_reducible apply Keeps.updScoop | with_reducible apply Keeps.ite_ | split)
    | assumption
    | intro _
    | dsimp only)

theorem Keeps.armUnit {c : CoreId} {u : UnitId} {r : ScoopRun} {pc : Nat} {s0 s : State}  (hK : Keeps s0 s) : Keeps s0 (armUnit c u r pc s) := by
  unfold Sys2Proof.Machine.armUnit
  repeat' (first
    | with_reducible assumption
    | exact fun _ hx => hx
    | exact fun _ => rfl
    | with_reducible apply Keeps.illegalOf
    | with_reducible apply Keeps.rotateUnit
    | with_reducible apply Keeps.scoopFault
    | with_reducible apply Keeps.placeProgram
    | with_reducible apply Keeps.ite_
    | split
    | (refine Keeps.lit ?_ rfl rfl id id id id id; first | with_reducible assumption | with_reducible apply Keeps.illegalOf | with_reducible apply Keeps.rotateUnit | with_reducible apply Keeps.scoopFault | with_reducible apply Keeps.placeProgram | with_reducible apply Keeps.ite_ | split)
    | assumption
    | intro _
    | dsimp only)

end Sys2Proof.Machine
end

