-- ==== Sys2Proof/Laws/KeepsKeeper.lean ====
section
/-! SUPPORT. What the operations of Machine/Keeper.lean keep: the queue, the modes and the canonical stores. -/

set_option linter.unusedTactic false
set_option linter.unreachableTactic false

namespace Sys2Proof.Machine

theorem Keeps.foldl {α : Type} {l : List α} {f : State → α → State} {s0 s : State} (hf : ∀ u x, Keeps s0 u → Keeps s0 (f u x)) (hK : Keeps s0 s) :
    Keeps s0 (l.foldl f s) := by
  induction l generalizing s with
  | nil => exact hK
  | cons x r ih => exact ih (hf _ x hK)

theorem Keeps.putSlots {m : ModelCfg} {layer store : Nat} {l : List KSlot} {s0 s : State} (hK : Keeps s0 s) : Keeps s0 (putSlots m layer store l s) :=
  Keeps.foldl (fun _ _ h => Keeps.tierWrite (Keeps.tierWrite (Keeps.tierWrite h))) hK

theorem Keeps.setSlots {p : PartId} {m : ModelCfg} {t : XTable} {layer head : Nat} {l : List KSlot} {s0 s : State}  (hK : Keeps s0 s) : Keeps s0 (setSlots p m t layer head l s) := by
  unfold Sys2Proof.Machine.setSlots
  repeat' (first
    | with_reducible assumption
    | exact fun _ hx => hx
    | exact fun _ => rfl
    | with_reducible apply Keeps.updPart
    | with_reducible apply Keeps.putSlots
    | with_reducible apply Keeps.ite_
    | split
    | (refine Keeps.lit ?_ rfl rfl id id id id id; first | with_reducible assumption | with_reducible apply Keeps.updPart | with_reducible apply Keeps.putSlots | with_reducible apply Keeps.ite_ | split)
    | assumption
    | intro _
    | dsimp only)

theorem Keeps.skimStore {p : PartId} {m : ModelCfg} {entry : Nat} {t : XTable} {e : LenEntry} {layer head : Nat} {s0 s : State}  (hK : Keeps s0 s) : Keeps s0 (skimStore p m entry t e layer head s) := by
  unfold Sys2Proof.Machine.skimStore
  repeat' (first
    | with_reducible assumption
    | exact fun _ hx => hx
    | exact fun _ => rfl
    | with_reducible apply Keeps.setSlots
    | with_reducible apply Keeps.ite_
    | split
    | (refine Keeps.lit ?_ rfl rfl id id id id id; first | with_reducible assumption | with_reducible apply Keeps.setSlots | with_reducible apply Keeps.ite_ | split)
    | assumption
    | intro _
    | dsimp only)

theorem Keeps.compactKeepers {p : PartId} {m : ModelCfg} {t : XTable} {shared : Nat} {s0 s : State}  (hK : Keeps s0 s) : Keeps s0 (compactKeepers p m t shared s) := by
  unfold Sys2Proof.Machine.compactKeepers
  repeat' (first
    | with_reducible assumption
    | exact fun _ hx => hx
    | exact fun _ => rfl
    | with_reducible refine Keeps.forAll (fun _ _ _ => ?_) ?_
    | with_reducible apply Keeps.setSlots
    | with_reducible apply Keeps.ite_
    | split
    | (refine Keeps.lit ?_ rfl rfl id id id id id; first | with_reducible assumption | with_reducible refine Keeps.forAll (fun _ _ _ => ?_) ?_ | with_reducible apply Keeps.setSlots | with_reducible apply Keeps.ite_ | split)
    | assumption
    | intro _
    | dsimp only)

theorem Keeps.skimTask {p : PartId} {t : Task} {s0 s : State}  (hK : Keeps s0 s) : Keeps s0 (skimTask p t s) := by
  unfold Sys2Proof.Machine.skimTask
  repeat' (first
    | with_reducible assumption
    | exact fun _ hx => hx
    | exact fun _ => rfl
    | with_reducible refine Keeps.forAll (fun _ _ _ => ?_) ?_
    | with_reducible apply Keeps.skimStore
    | with_reducible apply Keeps.ite_
    | split
    | (refine Keeps.lit ?_ rfl rfl id id id id id; first | with_reducible assumption | with_reducible refine Keeps.forAll (fun _ _ _ => ?_) ?_ | with_reducible apply Keeps.skimStore | with_reducible apply Keeps.ite_ | split)
    | assumption
    | intro _
    | dsimp only)

end Sys2Proof.Machine
end

