-- ==== Sys2Proof/Laws/KeepsEpilogue.lean ====
section
/-! SUPPORT. What the operations of Machine/Epilogue.lean keep: the queue, the modes and the canonical stores. -/

set_option linter.unusedTactic false
set_option linter.unreachableTactic false

namespace Sys2Proof.Machine

theorem Keeps.updEngine {c : CoreId} {e : Fin 4} {f : Engine → Engine} {s0 s : State}  (hK : Keeps s0 s) : Keeps s0 (updEngine c e f s) := by
  unfold Sys2Proof.Machine.updEngine
  repeat' (first
    | with_reducible assumption
    | exact fun _ hx => hx
    | exact fun _ => rfl
    | with_reducible apply Keeps.updCore
    | with_reducible apply Keeps.ite_
    | split
    | (refine Keeps.lit ?_ rfl rfl id id id id id; first | with_reducible assumption | with_reducible apply Keeps.updCore | with_reducible apply Keeps.ite_ | split)
    | assumption
    | intro _
    | dsimp only)

theorem Keeps.sendTile {c : CoreId} {l : List Byte} {xd : Option Nat} {tag pol : Nat} {e : Fin 4} {half : Bool} {vals : List (List W32)} {t : ETile} {live : Nat → Bool} {src : List (Nat × Nat)} {s0 s : State}  (hK : Keeps s0 s) : Keeps s0 (sendTile c l xd tag pol e half vals t live src s) := by
  unfold Sys2Proof.Machine.sendTile
  repeat' (first
    | with_reducible assumption
    | exact fun x hx => CoreOk.withWs hx (by with_reducible first | exact wsWr_wf _ _ _ hx.1 | exact writeRecord_wf _ _ _ _ _ _ hx.1 | exact storeTile_wf _ _ _ _ _ hx.1 | exact emptySide_wf _ _ _ _ hx.1 | exact clearSide_wf _ _ _ hx.1 | exact wr8_wf _ _ _ hx.1 | exact foldl_wf _ _ (fun m y hm => writeRecord_wf _ _ _ _ _ _ hm) _ hx.1 | exact foldl_wf _ _ (fun m y hm => wsWr_wf _ _ _ hm) _ hx.1)
    | exact fun _ hx => hx
    | exact fun _ => rfl
    | with_reducible apply Keeps.updEngine
    | with_reducible apply Keeps.updCore
    | with_reducible apply Keeps.transferFault
    | with_reducible apply Keeps.meshSend
    | with_reducible apply Keeps.updPart
    | with_reducible apply Keeps.emit
    | with_reducible apply Keeps.ite_
    | split
    | (refine Keeps.lit ?_ rfl rfl id id id id id; first | with_reducible assumption | with_reducible apply Keeps.updEngine | with_reducible apply Keeps.updCore | with_reducible apply Keeps.transferFault | with_reducible apply Keeps.meshSend | with_reducible apply Keeps.updPart | with_reducible apply Keeps.emit | with_reducible apply Keeps.ite_ | split)
    | assumption
    | intro _
    | dsimp only)

end Sys2Proof.Machine
end

