-- ==== Sys2Proof/Laws/KeepsIssue.lean ====
section
/-! SUPPORT. What the operations of Machine/Issue.lean keep: the queue, the modes and the canonical stores. -/

set_option linter.unusedTactic false
set_option linter.unreachableTactic false

namespace Sys2Proof.Machine

theorem Keeps.nextLine {c : CoreId} {s0 s : State}  (hK : Keeps s0 s) : Keeps s0 (nextLine c s) := by
  unfold Sys2Proof.Machine.nextLine
  repeat' (first
    | with_reducible assumption
    | exact fun _ hx => hx
    | exact fun _ => rfl
    | with_reducible apply Keeps.setPc
    | with_reducible apply Keeps.ite_
    | split
    | (refine Keeps.lit ?_ rfl rfl id id id id id; first | with_reducible assumption | with_reducible apply Keeps.setPc | with_reducible apply Keeps.ite_ | split)
    | assumption
    | intro _
    | dsimp only)

theorem Keeps.holdAt {c : CoreId} {h : Hold} {s0 s : State}  (hK : Keeps s0 s) : Keeps s0 (holdAt c h s) := by
  unfold Sys2Proof.Machine.holdAt
  repeat' (first
    | with_reducible assumption
    | exact fun _ hx => hx
    | exact fun _ => rfl
    | with_reducible apply Keeps.updCore
    | with_reducible apply Keeps.ite_
    | split
    | (refine Keeps.lit ?_ rfl rfl id id id id id; first | with_reducible assumption | with_reducible apply Keeps.updCore | with_reducible apply Keeps.ite_ | split)
    | assumption
    | intro _
    | dsimp only)

theorem Keeps.issue {c : CoreId} {h : TileHdr} {full : Core → Bool} {go : State → State} {s0 s : State} (hgo : ∀ u, Keeps s0 u → Keeps s0 (go u)) (hK : Keeps s0 s) : Keeps s0 (issue c h full go s) := by
  unfold Sys2Proof.Machine.issue
  repeat' (first
    | with_reducible assumption
    | exact hgo _ hK
    | exact fun _ hx => hx
    | exact fun _ => rfl
    | with_reducible apply Keeps.nextLine
    | with_reducible apply Keeps.meetCkptOf
    | with_reducible apply Keeps.holdAt
    | with_reducible apply Keeps.ite_
    | split
    | (refine Keeps.lit ?_ rfl rfl id id id id id; first | with_reducible assumption | exact hgo _ hK | with_reducible apply Keeps.nextLine | with_reducible apply Keeps.meetCkptOf | with_reducible apply Keeps.holdAt | with_reducible apply Keeps.ite_ | split)
    | assumption
    | intro _
    | dsimp only)

theorem Keeps.takeId_get {c : CoreId} {s0 s : State} (hK : Keeps s0 s) : Keeps s0 (takeId c s).2 := by
  unfold Sys2Proof.Machine.takeId
  try dsimp only
  repeat' (first
    | with_reducible assumption
    | exact fun _ hx => hx
    | exact fun _ => rfl
    | with_reducible apply Keeps.updCore
    | with_reducible apply Keeps.ite_
    | split
    | (refine Keeps.lit ?_ rfl rfl id id id id id; first | with_reducible assumption | with_reducible apply Keeps.updCore | with_reducible apply Keeps.ite_ | split)
    | assumption
    | intro _
    | dsimp only)

theorem Keeps.takeId_eq {c : CoreId} {s0 s tK : State} {aK : Nat} (eK : takeId c s = (aK, tK)) (hK : Keeps s0 s) : Keeps s0 tK := by
  have hR := Keeps.takeId_get (c := c) hK
  rw [eK] at hR
  exact hR

theorem Keeps.scqPump {c : CoreId} {s0 s : State}  (hK : Keeps s0 s) : Keeps s0 (scqPump c s) := by
  unfold Sys2Proof.Machine.scqPump
  repeat' (first
    | with_reducible assumption
    | exact fun _ hx => hx
    | exact fun _ => rfl
    | with_reducible apply Keeps.armUnit
    | with_reducible apply Keeps.updCore
    | with_reducible apply Keeps.ite_
    | split
    | (refine Keeps.lit ?_ rfl rfl id id id id id; first | with_reducible assumption | with_reducible apply Keeps.armUnit | with_reducible apply Keeps.updCore | with_reducible apply Keeps.ite_ | split)
    | assumption
    | intro _
    | dsimp only)

theorem Keeps.updRail {p : PartId} {k : Nat} {f : Rail → Rail} {s0 s : State}  (hK : Keeps s0 s) : Keeps s0 (updRail p k f s) := by
  unfold Sys2Proof.Machine.updRail
  repeat' (first
    | with_reducible assumption
    | exact fun _ hx => hx
    | exact fun _ => rfl
    | with_reducible apply Keeps.updPart
    | with_reducible apply Keeps.ite_
    | split
    | (refine Keeps.lit ?_ rfl rfl id id id id id; first | with_reducible assumption | with_reducible apply Keeps.updPart | with_reducible apply Keeps.ite_ | split)
    | assumption
    | intro _
    | dsimp only)

theorem Keeps.readyRails {p : PartId} {c : CoreId} {s0 s : State}  (hK : Keeps s0 s) : Keeps s0 (readyRails p c s) := by
  unfold Sys2Proof.Machine.readyRails
  repeat' (first
    | with_reducible assumption
    | exact fun _ hx => hx
    | exact fun _ => rfl
    | with_reducible apply Keeps.updPart
    | with_reducible apply Keeps.ite_
    | split
    | (refine Keeps.lit ?_ rfl rfl id id id id id; first | with_reducible assumption | with_reducible apply Keeps.updPart | with_reducible apply Keeps.ite_ | split)
    | assumption
    | intro _
    | dsimp only)

theorem Keeps.trqPump {c : CoreId} {s0 s : State}  (hK : Keeps s0 s) : Keeps s0 (trqPump c s) := by
  unfold Sys2Proof.Machine.trqPump
  repeat' (first
    | with_reducible assumption
    | exact fun _ hx => hx
    | exact fun _ => rfl
    | with_reducible apply Keeps.updCore
    | with_reducible apply Keeps.illegal
    | with_reducible apply Keeps.updRail
    | with_reducible apply Keeps.transferFault
    | with_reducible apply Keeps.ite_
    | with_reducible apply CoreOk.setH
    | split
    | (refine Keeps.lit ?_ rfl rfl id id id id id; first | with_reducible assumption | with_reducible apply Keeps.updCore | with_reducible apply Keeps.illegal | with_reducible apply Keeps.updRail | with_reducible apply Keeps.transferFault | with_reducible apply Keeps.ite_ | with_reducible apply CoreOk.setH | split)
    | assumption
    | intro _
    | dsimp only)

theorem Keeps.railPump {p : PartId} {s0 s : State}  (hK : Keeps s0 s) : Keeps s0 (railPump p s) := by
  unfold Sys2Proof.Machine.railPump
  repeat' (first
    | with_reducible assumption
    | exact fun _ hx => hx
    | exact fun _ => rfl
    | with_reducible refine Keeps.forAll (fun _ _ _ => ?_) ?_
    | with_reducible apply Keeps.trqPump
    | with_reducible apply Keeps.ite_
    | split
    | (refine Keeps.lit ?_ rfl rfl id id id id id; first | with_reducible assumption | with_reducible refine Keeps.forAll (fun _ _ _ => ?_) ?_ | with_reducible apply Keeps.trqPump | with_reducible apply Keeps.ite_ | split)
    | assumption
    | intro _
    | dsimp only)

end Sys2Proof.Machine
end

