-- ==== Sys2Proof/Laws/KeepsVector.lean ====
section
/-! SUPPORT. What the operations of Machine/Vector.lean keep: the queue, the modes and the canonical stores. -/

set_option linter.unusedTactic false
set_option linter.unreachableTactic false

namespace Sys2Proof.Machine

theorem Keeps.boundCompute_get {c : CoreId} {v : VXEntry} {e : MMEntry} {l : List Byte} {s0 s : State} (hK : Keeps s0 s) :
    Keeps s0 (boundCompute c v e l s).2 :=
  Keeps.free (Keeps.putCore hK (boundValues_ok s.freeCtr c.1 e l (scalars (s.core c) v.body.sb) (s.core c)))

theorem Keeps.boundScores_get {c : CoreId} {e : MMEntry} {stored : List (List W32)} {s0 s : State} (hK : Keeps s0 s) :
    Keeps s0 (boundScores c e stored s).2 := by
  unfold Sys2Proof.Machine.boundScores
  split
  · exact hK
  · exact Keeps.putCore hK (fun h => scoreSums_ok _ _ _ h)

theorem Keeps.boundSide_get {c : CoreId} {e : MMEntry} {l : List Byte} {stored : List (List W32)} {s0 s : State} (hK : Keeps s0 s) :
    Keeps s0 (boundSide c e l stored s).2 :=
  Keeps.putWs hK (fun h => sidePartials_wf _ _ _ _ _ _ h)

theorem Keeps.boundLast_eq {c : CoreId} {e : MMEntry} {l : List Byte} {r : VF × State} {s0 s : State} (eK : boundLast c e l s = some r)
    (hK : Keeps s0 s) : Keeps s0 r.2 := by
  unfold Sys2Proof.Machine.boundLast at eK
  split at eK
  · dsimp only at eK
    split at eK
    · cases eK
      exact Keeps.free (Keeps.updCore hK (fun _ h => ⟨spoil_wf _ _ _ h.1, h.2⟩))
    · obtain ⟨q, hq, rfl⟩ := Option.map_eq_some_iff.mp eK
      have hw := lastFold_wf _ _ _ _ _ _ hq
      refine Keeps.same hK rfl rfl (fun k => ⟨k.1, k.2.1, fun d => ?_, k.2.2.2⟩)
      rw [updCore_core]
      split
      · exact ⟨hw (k.2.2.1 _).1, (k.2.2.1 _).2⟩
      · exact k.2.2.1 d
  · cases eK
    exact hK

theorem Keeps.boundSkim {c : CoreId} {e : MMEntry} {stored : List (List W32)} {s0 s : State}  (hK : Keeps s0 s) : Keeps s0 (boundSkim c e stored s) := by
  unfold Sys2Proof.Machine.boundSkim
  repeat' (first
    | with_reducible assumption
    | exact fun _ hx => hx
    | exact fun _ => rfl
    | with_reducible apply Keeps.updCore
    | with_reducible apply Keeps.ite_
    | split
    | (refine Keeps.lit ?_ rfl rfl id id id id id; first | with_reducible assumption | with_reducible apply Keeps.updCore | with_reducible apply Keeps.ite_ | split)
    | assumption
    | intro _
    | dsimp only)

theorem Keeps.deliverTile {c : CoreId} {e : MMEntry} {l : List Byte} {pol : Policy} {vals : List (List W32)} {t : ETile} {live : Nat → Bool}
    {s0 s : State} (hK : Keeps s0 s) : Keeps s0 (deliverTile c e l pol vals t live s) := by
  unfold Sys2Proof.Machine.deliverTile
  dsimp only
  split
  · exact Keeps.free (Keeps.updCore (Keeps.updCore (Keeps.sendTile hK) (fun _ h => h)) (fun _ h => CoreOk.withWs h (spoil_wf _ _ _ h.1)))
  · exact Keeps.updCore (Keeps.sendTile hK) (fun _ h => h)

theorem Keeps.runBound_get {c : CoreId} {v : VXEntry} {e : MMEntry} {l : List Byte} {s0 s : State} (hK : Keeps s0 s) :
    Keeps s0 (runBound c v e l s).1 := by
  have h1 := Keeps.boundCompute_get (c := c) (v := v) (e := e) (l := l) hK
  unfold Sys2Proof.Machine.runBound
  dsimp only
  generalize hs : Machine.boundSide c e l _ _ = q
  have h3 : Keeps s0 q.2 := hs ▸ Keeps.boundSide_get (Keeps.boundSkim (Keeps.boundScores_get h1))
  split
  · exact Keeps.abortOf h3
  · exact Keeps.deliverTile (Keeps.boundLast_eq (by assumption) h3)

theorem Keeps.vxRun_get {c : CoreId} {e : VXEntry} {s0 s : State} (hK : Keeps s0 s) : Keeps s0 (vxRun c e s).1 := by
    unfold Sys2Proof.Machine.vxRun
    extract_lets ctr on x
    have hon : ∀ r : Core × VF, (CoreOk (s.core c) → CoreOk r.1) → Keeps s0 (on r).1 := fun r hr => Keeps.free (Keeps.putCore hK hr)
    split
    · split
      · exact Keeps.runBound_get hK
      · exact hK
    · exact hon _ (fun h => vxRecipe_ok _ _ _ _ _ h)
    · exact hon _ (fun h => vxScan_ok _ _ _ h)
    · exact hon _ (fun h => vxPerm_ok _ _ _ h)
    · exact hon _ (fun h => vxNorm_ok _ _ _ h)
    · exact hon _ (fun h => vxReduce_ok _ _ _ h)
    · exact hon _ (fun h => vxMerge_ok _ _ _ h)
    · exact hon _ (fun h => vxPark_ok _ _ _ h)
    · exact hon _ (fun h => vxRestore_ok _ _ h)
    · exact hon _ (fun h => h)
    · exact hon _ (fun h => h)

theorem Keeps.vxRun_eq {c : CoreId} {e : VXEntry} {s0 s tK : State} {aK : VF} (eK : vxRun c e s = (tK, aK)) (hK : Keeps s0 s) : Keeps s0 tK := by
  have hR := Keeps.vxRun_get (c := c) (e := e) hK
  rw [eK] at hR
  exact hR

theorem Keeps.startVX {c : CoreId} {e : VXEntry} {s0 s : State}  (hK : Keeps s0 s) : Keeps s0 (startVX c e s) := by
  unfold Sys2Proof.Machine.startVX
  repeat' (first
    | with_reducible assumption
    | exact fun _ hx => hx
    | exact fun _ => rfl
    | with_reducible apply Keeps.illegalOf
    | with_reducible apply Keeps.updCore
    | with_reducible apply Keeps.ite_
    | with_reducible apply Keeps.vxRun_get
    | refine Keeps.vxRun_eq (by with_reducible assumption) ?_
    | split
    | (refine Keeps.lit ?_ rfl rfl id id id id id; first | with_reducible assumption | with_reducible apply Keeps.illegalOf | with_reducible apply Keeps.updCore | with_reducible apply Keeps.ite_ | with_reducible apply Keeps.vxRun_get | refine Keeps.vxRun_eq (by with_reducible assumption) ?_ | split)
    | assumption
    | intro _
    | dsimp only)

theorem Keeps.chargeVX_get {c : CoreId} {e : VXEntry} {s0 s : State} (hK : Keeps s0 s) : Keeps s0 (chargeVX c e s).2 := by
  unfold Sys2Proof.Machine.chargeVX
  try dsimp only
  repeat' (first
    | with_reducible assumption
    | exact fun _ hx => hx
    | exact fun _ => rfl
    | with_reducible apply Keeps.ite_
    | with_reducible apply Keeps.charge_get
    | refine Keeps.charge_eq (by with_reducible assumption) ?_
    | split
    | (refine Keeps.lit ?_ rfl rfl id id id id id; first | with_reducible assumption | with_reducible apply Keeps.ite_ | with_reducible apply Keeps.charge_get | refine Keeps.charge_eq (by with_reducible assumption) ?_ | split)
    | assumption
    | intro _
    | dsimp only)

theorem Keeps.chargeVX_eq {c : CoreId} {e : VXEntry} {s0 s tK : State} {aK : Bool} (eK : chargeVX c e s = (aK, tK)) (hK : Keeps s0 s) : Keeps s0 tK := by
  have hR := Keeps.chargeVX_get (c := c) (e := e) hK
  rw [eK] at hR
  exact hR

theorem Keeps.launch {c : CoreId} {e : VXEntry} {s0 s tK : State} (eK : launch c e s = some tK) (hK : Keeps s0 s) : Keeps s0 tK := by
  unfold Sys2Proof.Machine.launch at eK
  split at eK
  · cases eK
  · dsimp only at eK
    split at eK <;> cases eK
    exact Keeps.startVX (Keeps.chargeVX_get hK)

theorem Keeps.holdCharge {c : CoreId} {e : VXEntry} {s0 s : State} (hK : Keeps s0 s) : Keeps s0 (vePump.holdCharge c e s) := by
  unfold vePump.holdCharge
  split
  · exact hK
  · exact Keeps.chargeVX_get hK

theorem Keeps.vePump {c : CoreId} {n : Nat} {s0 s : State} (hK : Keeps s0 s) : Keeps s0 (vePump c n s) := by
  induction n generalizing s with
  | zero => exact hK
  | succ k ih =>
    unfold Sys2Proof.Machine.vePump
    split
    · exact hK
    · split
      · exact Keeps.holdCharge hK
      · exact ih (Keeps.launch (by assumption) hK)

theorem moveSweep_ok (e : VXEntry) (x : Core) (h : CoreOk x) : CoreOk (moveSweep e x) := by
  unfold moveSweep
  split
  · dsimp only
    split <;> exact h
  · dsimp only
    split <;> exact h
  · exact h

theorem Keeps.vxIssue {op : VOp} {c : CoreId} {h : TileHdr} {b : VXBody} {s0 s : State}  (hK : Keeps s0 s) : Keeps s0 (vxIssue op c h b s) := by
  unfold Sys2Proof.Machine.vxIssue
  repeat' (first
    | with_reducible assumption
    | exact fun x hx => moveSweep_ok _ _ hx
    | exact moveSweep_ok _ _ (by assumption)
    | exact fun _ hx => hx
    | exact fun _ => rfl
    | with_reducible apply Keeps.issue
    | with_reducible apply Keeps.nextLine
    | with_reducible apply Keeps.meetCkptOf
    | with_reducible apply Keeps.updEngine
    | with_reducible apply Keeps.illegal
    | with_reducible apply Keeps.updCore
    | with_reducible apply Keeps.vePump
    | with_reducible apply Keeps.ite_
    | with_reducible apply Keeps.takeId_get
    | refine Keeps.takeId_eq (by with_reducible assumption) ?_
    | split
    | (refine Keeps.lit ?_ rfl rfl id id id id id; first | with_reducible assumption | exact moveSweep_ok _ _ (by assumption) | with_reducible apply Keeps.issue | with_reducible apply Keeps.nextLine | with_reducible apply Keeps.meetCkptOf | with_reducible apply Keeps.updEngine | with_reducible apply Keeps.illegal | with_reducible apply Keeps.updCore | with_reducible apply Keeps.vePump | with_reducible apply Keeps.ite_ | with_reducible apply Keeps.takeId_get | refine Keeps.takeId_eq (by with_reducible assumption) ?_ | split)
    | assumption
    | intro _
    | dsimp only)

theorem Keeps.staticCheck {ok : Bool} {m : String} {s0 u tK : State} (eK : staticCheck ok m u = .next tK) (h : Keeps s0 u) : Keeps s0 tK := by
  unfold Sys2Proof.Machine.staticCheck at eK
  split at eK <;> cases eK
  exact h

theorem Keeps.execRecipe {c : CoreId} {h : TileHdr} {b : VXBody} {s0 s tK : State} (eK : execRecipe c h b s = .next tK) (hK : Keeps s0 s) : Keeps s0 tK :=
  Keeps.staticCheck eK (Keeps.vxIssue hK)

theorem Keeps.execScan {c : CoreId} {h : TileHdr} {b : VXBody} {s0 s tK : State} (eK : execScan c h b s = .next tK) (hK : Keeps s0 s) : Keeps s0 tK :=
  Keeps.staticCheck eK (Keeps.vxIssue hK)

theorem Keeps.execPerm {c : CoreId} {h : TileHdr} {b : VXBody} {s0 s tK : State} (eK : execPerm c h b s = .next tK) (hK : Keeps s0 s) : Keeps s0 tK :=
  Keeps.staticCheck eK (Keeps.vxIssue hK)

theorem Keeps.execNorm {c : CoreId} {h : TileHdr} {b : VXBody} {s0 s tK : State} (eK : execNorm c h b s = .next tK) (hK : Keeps s0 s) : Keeps s0 tK :=
  Keeps.staticCheck eK (Keeps.vxIssue hK)

theorem Keeps.execReduce {c : CoreId} {h : TileHdr} {b : VXBody} {s0 s tK : State} (eK : execReduce c h b s = .next tK) (hK : Keeps s0 s) : Keeps s0 tK :=
  Keeps.staticCheck eK (Keeps.vxIssue hK)

theorem Keeps.execSmerge {c : CoreId} {h : TileHdr} {b : VXBody} {s0 s tK : State} (eK : execSmerge c h b s = .next tK) (hK : Keeps s0 s) : Keeps s0 tK :=
  Keeps.staticCheck eK (Keeps.vxIssue hK)

theorem Keeps.execPark {c : CoreId} {h : TileHdr} {b : VXBody} {s0 s tK : State} (eK : execPark c h b s = .next tK) (hK : Keeps s0 s) : Keeps s0 tK :=
  Keeps.staticCheck eK (Keeps.vxIssue hK)

theorem Keeps.execRestore {c : CoreId} {h : TileHdr} {b : VXBody} {s0 s tK : State} (eK : execRestore c h b s = .next tK) (hK : Keeps s0 s) : Keeps s0 tK :=
  Keeps.staticCheck eK (Keeps.vxIssue hK)

theorem Keeps.execRload {c : CoreId} {h : TileHdr} {b : VXBody} {s0 s tK : State} (eK : execRload c h b s = .next tK) (hK : Keeps s0 s) : Keeps s0 tK :=
  Keeps.staticCheck eK (Keeps.vxIssue hK)

theorem Keeps.execTload {c : CoreId} {h : TileHdr} {b : VXBody} {s0 s tK : State} (eK : execTload c h b s = .next tK) (hK : Keeps s0 s) : Keeps s0 tK :=
  Keeps.staticCheck eK (Keeps.vxIssue hK)

end Sys2Proof.Machine
end

