-- ==== Sys2Proof/Laws/KeepsExchange.lean ====
section
/-! SUPPORT. What the operations of Machine/Exchange.lean keep: the queue, the modes and the canonical stores. -/

set_option linter.unusedTactic false
set_option linter.unreachableTactic false

namespace Sys2Proof.Machine

theorem bumpCtrs_xmem {port : Nat} {l : List Nat} {x : Part} : (l.foldl (fun x k => bumpCtr port k x) x).xmem = x.xmem := by
  induction l generalizing x with
  | nil => rfl
  | cons k r ih => exact (ih (x := bumpCtr port k x))

theorem Keeps.landPiece {p : PartId} {port : Nat} {g : Group} {h : PktHdr} {data : List Byte} {s0 s : State}  (hK : Keeps s0 s) : Keeps s0 (landPiece p port g h data s) := by
  unfold Sys2Proof.Machine.landPiece
  repeat' (first
    | with_reducible assumption
    | exact fun x hx => by rw [bumpCtrs_xmem]; exact foldl_wf _ _ (fun _ _ hm => wrBytes_wf _ _ _ hm) _ hx
    | exact wrBytes_wf _ _ _ (by assumption)
    | exact fun _ hx => hx
    | exact fun _ => rfl
    | with_reducible apply Keeps.updPart
    | with_reducible apply Keeps.updGroup
    | with_reducible apply Keeps.ite_
    | split
    | (refine Keeps.lit ?_ rfl rfl id id id id id; first | with_reducible assumption | exact wrBytes_wf _ _ _ (by assumption) | with_reducible apply Keeps.updPart | with_reducible apply Keeps.updGroup | with_reducible apply Keeps.ite_ | split)
    | assumption
    | intro _
    | dsimp only)

theorem Keeps.landWaiting {p : PartId} {gid : Nat} {s0 s : State}  (hK : Keeps s0 s) : Keeps s0 (landWaiting p gid s) := by
  unfold Sys2Proof.Machine.landWaiting
  repeat' (first
    | with_reducible assumption
    | exact fun _ hx => hx
    | exact fun _ => rfl
    | with_reducible apply Keeps.updGroup
    | with_reducible refine Keeps.forAll (fun _ _ _ => ?_) ?_
    | with_reducible apply Keeps.abortTask
    | with_reducible apply Keeps.landPiece
    | with_reducible apply Keeps.ite_
    | split
    | (refine Keeps.lit ?_ rfl rfl id id id id id; first | with_reducible assumption | with_reducible apply Keeps.updGroup | with_reducible refine Keeps.forAll (fun _ _ _ => ?_) ?_ | with_reducible apply Keeps.abortTask | with_reducible apply Keeps.landPiece | with_reducible apply Keeps.ite_ | split)
    | assumption
    | intro _
    | dsimp only)

theorem Keeps.openExchange {c : CoreId} {xd : Nat} {s0 s : State}  (hK : Keeps s0 s) : Keeps s0 (openExchange c xd s) := by
  unfold Sys2Proof.Machine.openExchange
  repeat' (first
    | with_reducible assumption
    | exact fun _ hx => hx
    | exact fun _ => rfl
    | with_reducible apply Keeps.abortOf
    | with_reducible apply Keeps.landWaiting
    | with_reducible apply Keeps.updGroup
    | with_reducible apply Keeps.ite_
    | split
    | (refine Keeps.lit ?_ rfl rfl id id id id id; first | with_reducible assumption | with_reducible apply Keeps.abortOf | with_reducible apply Keeps.landWaiting | with_reducible apply Keeps.updGroup | with_reducible apply Keeps.ite_ | split)
    | assumption
    | intro _
    | dsimp only)

end Sys2Proof.Machine
end

