-- ==== Sys2Proof/Laws/KeepsMatrix.lean ====
section
/-! SUPPORT. What the operations of Machine/Matrix.lean keep: the queue, the modes and the canonical stores. -/

set_option linter.unusedTactic false
set_option linter.unreachableTactic false

namespace Sys2Proof.Machine

theorem Keeps.skipTile {c : CoreId} {e : MMEntry} {s0 s : State}  (hK : Keeps s0 s) : Keeps s0 (skipTile c e s) := by
  unfold Sys2Proof.Machine.skipTile
  repeat' (first
    | with_reducible assumption
    | exact fun _ hx => hx
    | exact fun _ => rfl
    | with_reducible apply Keeps.updEngine
    | with_reducible apply Keeps.meetCkptOf
    | with_reducible apply Keeps.ite_
    | split
    | (refine Keeps.lit ?_ rfl rfl id id id id id; first | with_reducible assumption | with_reducible apply Keeps.updEngine | with_reducible apply Keeps.meetCkptOf | with_reducible apply Keeps.ite_ | split)
    | assumption
    | intro _
    | dsimp only)

theorem Keeps.skipPVTile {c : CoreId} {e : MMEntry} {s0 s : State}  (hK : Keeps s0 s) : Keeps s0 (skipPVTile c e s) := by
  unfold Sys2Proof.Machine.skipPVTile
  repeat' (first
    | with_reducible assumption
    | exact fun _ hx => hx
    | exact fun _ => rfl
    | with_reducible apply Keeps.updEngine
    | with_reducible apply Keeps.meetCkptOf
    | with_reducible apply Keeps.ite_
    | split
    | (refine Keeps.lit ?_ rfl rfl id id id id id; first | with_reducible assumption | with_reducible apply Keeps.updEngine | with_reducible apply Keeps.meetCkptOf | with_reducible apply Keeps.ite_ | split)
    | assumption
    | intro _
    | dsimp only)

theorem Keeps.useSnap {c : CoreId} {i : Fin 4} {s0 s : State}  (hK : Keeps s0 s) : Keeps s0 (useSnap c i s) := by
  unfold Sys2Proof.Machine.useSnap
  repeat' (first
    | with_reducible assumption
    | exact fun _ hx => hx
    | exact fun _ => rfl
    | with_reducible apply Keeps.updScoop
    | with_reducible apply Keeps.ite_
    | split
    | (refine Keeps.lit ?_ rfl rfl id id id id id; first | with_reducible assumption | with_reducible apply Keeps.updScoop | with_reducible apply Keeps.ite_ | split)
    | assumption
    | intro _
    | dsimp only)

theorem Keeps.enqueueMM {c : CoreId} {e : MMEntry} {s0 s : State}  (hK : Keeps s0 s) : Keeps s0 (enqueueMM c e s) := by
  unfold Sys2Proof.Machine.enqueueMM
  repeat' (first
    | with_reducible assumption
    | exact fun _ hx => hx
    | exact fun _ => rfl
    | with_reducible apply Keeps.useSnap
    | with_reducible apply Keeps.updEngine
    | with_reducible apply Keeps.ite_
    | split
    | (refine Keeps.lit ?_ rfl rfl id id id id id; first | with_reducible assumption | with_reducible apply Keeps.useSnap | with_reducible apply Keeps.updEngine | with_reducible apply Keeps.ite_ | split)
    | assumption
    | intro _
    | dsimp only)

theorem Keeps.admitMM {c : CoreId} {e : MMEntry} {s0 s : State}  (hK : Keeps s0 s) : Keeps s0 (admitMM c e s) := by
  unfold Sys2Proof.Machine.admitMM
  repeat' (first
    | with_reducible assumption
    | exact fun _ hx => hx
    | exact fun _ => rfl
    | with_reducible apply Keeps.updEngine
    | with_reducible apply Keeps.skipTile
    | with_reducible apply Keeps.enqueueMM
    | with_reducible apply Keeps.skipPVTile
    | with_reducible apply Keeps.ite_
    | split
    | (refine Keeps.lit ?_ rfl rfl id id id id id; first | with_reducible assumption | with_reducible apply Keeps.updEngine | with_reducible apply Keeps.skipTile | with_reducible apply Keeps.enqueueMM | with_reducible apply Keeps.skipPVTile | with_reducible apply Keeps.ite_ | split)
    | assumption
    | intro _
    | dsimp only)

theorem Keeps.mmIssue {c : CoreId} {h : TileHdr} {b : MMBody} {xd : Option Nat} {s0 s : State}  (hK : Keeps s0 s) : Keeps s0 (mmIssue c h b xd s) := by
  unfold Sys2Proof.Machine.mmIssue
  repeat' (first
    | with_reducible assumption
    | exact fun _ hx => hx
    | exact fun _ => rfl
    | with_reducible apply Keeps.issue
    | with_reducible apply Keeps.illegal
    | with_reducible apply Keeps.transferFault
    | with_reducible apply Keeps.abortOf
    | with_reducible apply Keeps.openExchange
    | with_reducible apply Keeps.nextLine
    | with_reducible apply Keeps.admitMM
    | with_reducible apply Keeps.ite_
    | with_reducible apply Keeps.takeId_get
    | refine Keeps.takeId_eq (by with_reducible assumption) ?_
    | split
    | (refine Keeps.lit ?_ rfl rfl id id id id id; first | with_reducible assumption | with_reducible apply Keeps.issue | with_reducible apply Keeps.illegal | with_reducible apply Keeps.transferFault | with_reducible apply Keeps.abortOf | with_reducible apply Keeps.openExchange | with_reducible apply Keeps.nextLine | with_reducible apply Keeps.admitMM | with_reducible apply Keeps.ite_ | with_reducible apply Keeps.takeId_get | refine Keeps.takeId_eq (by with_reducible assumption) ?_ | split)
    | assumption
    | intro _
    | dsimp only)

theorem Keeps.execMm {c : CoreId} {h : TileHdr} {b : MMBody} {s0 s tK : State} (eK : execMm c h b s = .next tK) (hK : Keeps s0 s) : Keeps s0 tK :=
  Keeps.staticCheck eK (Keeps.mmIssue hK)

theorem Keeps.execCx {c : CoreId} {h : TileHdr} {b : MMBody} {xd : BitVec 9} {s0 s tK : State} (eK : execCx c h b xd s = .next tK) (hK : Keeps s0 s) : Keeps s0 tK :=
  Keeps.staticCheck eK (Keeps.mmIssue hK)

theorem Keeps.countTile {c : CoreId} {e : MMEntry} {pol : Policy} {t : QTile} {s0 s : State}  (hK : Keeps s0 s) : Keeps s0 (countTile c e pol t s) := by
  unfold Sys2Proof.Machine.countTile
  repeat' (first
    | with_reducible assumption
    | exact fun _ hx => hx
    | exact fun _ => rfl
    | with_reducible apply Keeps.updPart
    | with_reducible apply Keeps.ite_
    | split
    | (refine Keeps.lit ?_ rfl rfl id id id id id; first | with_reducible assumption | with_reducible apply Keeps.updPart | with_reducible apply Keeps.ite_ | split)
    | assumption
    | intro _
    | dsimp only)

theorem Keeps.quantSlice_get {c : CoreId} {e : MMEntry} {ea k0 : Nat} {s0 s : State} (hK : Keeps s0 s) : Keeps s0 (quantSlice c e ea k0 s).2 := by
  unfold Sys2Proof.Machine.quantSlice
  try dsimp only
  repeat' (first
    | with_reducible assumption
    | exact fun x hx => CoreOk.withWs hx (by with_reducible first | exact wsWr_wf _ _ _ hx.1 | exact writeRecord_wf _ _ _ _ _ _ hx.1 | exact storeTile_wf _ _ _ _ _ hx.1 | exact emptySide_wf _ _ _ _ hx.1 | exact clearSide_wf _ _ _ hx.1 | exact wr8_wf _ _ _ hx.1 | exact foldl_wf _ _ (fun m y hm => writeRecord_wf _ _ _ _ _ _ hm) _ hx.1 | exact foldl_wf _ _ (fun m y hm => wsWr_wf _ _ _ hm) _ hx.1)
    | exact fun _ hx => hx
    | exact fun _ => rfl
    | with_reducible apply Keeps.updEngine
    | with_reducible apply Keeps.countTile
    | with_reducible apply Keeps.ite_
    | split
    | (refine Keeps.lit ?_ rfl rfl id id id id id; first | with_reducible assumption | with_reducible apply Keeps.updEngine | with_reducible apply Keeps.countTile | with_reducible apply Keeps.ite_ | split)
    | assumption
    | intro _
    | dsimp only)

theorem Keeps.quantSlice_eq {c : CoreId} {e : MMEntry} {ea k0 : Nat} {s0 s tK : State} {aK : QTile} (eK : quantSlice c e ea k0 s = (aK, tK)) (hK : Keeps s0 s) : Keeps s0 tK := by
  have hR := Keeps.quantSlice_get (c := c) (e := e) (ea := ea) (k0 := k0) hK
  rw [eK] at hR
  exact hR

theorem Keeps.withGauss_get {c : CoreId} {e : MMEntry} {r i : QTile} {s0 s : State} (hK : Keeps s0 s) : Keeps s0 (withGauss c e r i s).2 := by
  unfold Sys2Proof.Machine.withGauss
  try dsimp only
  repeat' (first
    | with_reducible assumption
    | exact fun _ hx => hx
    | exact fun _ => rfl
    | with_reducible apply Keeps.countTile
    | with_reducible apply Keeps.ite_
    | split
    | (refine Keeps.lit ?_ rfl rfl id id id id id; first | with_reducible assumption | with_reducible apply Keeps.countTile | with_reducible apply Keeps.ite_ | split)
    | assumption
    | intro _
    | dsimp only)

theorem Keeps.withGauss_eq {c : CoreId} {e : MMEntry} {r i : QTile} {s0 s tK : State} {aK : List QTile} (eK : withGauss c e r i s = (aK, tK)) (hK : Keeps s0 s) : Keeps s0 tK := by
  have hR := Keeps.withGauss_get (c := c) (e := e) (r := r) (i := i) hK
  rw [eK] at hR
  exact hR

theorem Keeps.stageChain_get {c : CoreId} {e : MMEntry} {s0 s : State} (hK : Keeps s0 s) : Keeps s0 (stageChain c e s).2 := by
  unfold Sys2Proof.Machine.stageChain
  try dsimp only
  repeat' (first
    | with_reducible assumption
    | exact fun x hx => CoreOk.withWs hx (by with_reducible first | exact wsWr_wf _ _ _ hx.1 | exact writeRecord_wf _ _ _ _ _ _ hx.1 | exact storeTile_wf _ _ _ _ _ hx.1 | exact emptySide_wf _ _ _ _ hx.1 | exact clearSide_wf _ _ _ hx.1 | exact wr8_wf _ _ _ hx.1 | exact foldl_wf _ _ (fun m y hm => writeRecord_wf _ _ _ _ _ _ hm) _ hx.1 | exact foldl_wf _ _ (fun m y hm => wsWr_wf _ _ _ hm) _ hx.1)
    | exact fun _ hx => hx
    | exact fun _ => rfl
    | with_reducible apply Keeps.updEngine
    | with_reducible apply Keeps.ite_
    | with_reducible apply Keeps.withGauss_get
    | refine Keeps.withGauss_eq (by with_reducible assumption) ?_
    | split
    | (refine Keeps.lit ?_ rfl rfl id id id id id; first | with_reducible assumption | with_reducible apply Keeps.updEngine | with_reducible apply Keeps.ite_ | with_reducible apply Keeps.withGauss_get | refine Keeps.withGauss_eq (by with_reducible assumption) ?_ | split)
    | assumption
    | intro _
    | dsimp only)

theorem Keeps.stageChain_eq {c : CoreId} {e : MMEntry} {s0 s tK : State} {aK : List QTile} (eK : stageChain c e s = (aK, tK)) (hK : Keeps s0 s) : Keeps s0 tK := by
  have hR := Keeps.stageChain_get (c := c) (e := e) hK
  rw [eK] at hR
  exact hR

theorem Keeps.stage_get {c : CoreId} {e : MMEntry} {s0 s : State} (hK : Keeps s0 s) : Keeps s0 (stage c e s).2 := by
  unfold Sys2Proof.Machine.stage
  try dsimp only
  repeat' (first
    | with_reducible assumption
    | exact fun x hx => CoreOk.withWs hx (by with_reducible first | exact wsWr_wf _ _ _ hx.1 | exact writeRecord_wf _ _ _ _ _ _ hx.1 | exact storeTile_wf _ _ _ _ _ hx.1 | exact emptySide_wf _ _ _ _ hx.1 | exact clearSide_wf _ _ _ hx.1 | exact wr8_wf _ _ _ hx.1 | exact foldl_wf _ _ (fun m y hm => writeRecord_wf _ _ _ _ _ _ hm) _ hx.1 | exact foldl_wf _ _ (fun m y hm => wsWr_wf _ _ _ hm) _ hx.1)
    | exact fun _ hx => hx
    | exact fun _ => rfl
    | with_reducible apply Keeps.ite_
    | with_reducible apply Keeps.quantSlice_get
    | refine Keeps.quantSlice_eq (by with_reducible assumption) ?_
    | with_reducible apply Keeps.stageChain_get
    | refine Keeps.stageChain_eq (by with_reducible assumption) ?_
    | with_reducible apply Keeps.withGauss_get
    | refine Keeps.withGauss_eq (by with_reducible assumption) ?_
    | split
    | (refine Keeps.lit ?_ rfl rfl id id id id id; first | with_reducible assumption | with_reducible apply Keeps.ite_ | with_reducible apply Keeps.quantSlice_get | refine Keeps.quantSlice_eq (by with_reducible assumption) ?_ | with_reducible apply Keeps.stageChain_get | refine Keeps.stageChain_eq (by with_reducible assumption) ?_ | with_reducible apply Keeps.withGauss_get | refine Keeps.withGauss_eq (by with_reducible assumption) ?_ | split)
    | assumption
    | intro _
    | dsimp only)

theorem Keeps.stage_eq {c : CoreId} {e : MMEntry} {s0 s tK : State} {aK : List QTile} (eK : stage c e s = (aK, tK)) (hK : Keeps s0 s) : Keeps s0 tK := by
  have hR := Keeps.stage_get (c := c) (e := e) hK
  rw [eK] at hR
  exact hR

theorem Keeps.outputPath_get {c : CoreId} {e : MMEntry} {l : List Byte} {s0 s : State} (hK : Keeps s0 s) : Keeps s0 (outputPath c e l s).1 := by
  unfold Sys2Proof.Machine.outputPath
  try dsimp only
  repeat' (first
    | with_reducible assumption
    | exact fun _ hx => hx
    | exact fun _ => rfl
    | with_reducible apply Keeps.deliverTile
    | with_reducible apply Keeps.ite_
    | split
    | (refine Keeps.lit ?_ rfl rfl id id id id id; first | with_reducible assumption | with_reducible apply Keeps.deliverTile | with_reducible apply Keeps.ite_ | split)
    | assumption
    | intro _
    | dsimp only)

theorem Keeps.outputPath_eq {c : CoreId} {e : MMEntry} {l : List Byte} {s0 s tK : State} {aK : Bool} (eK : outputPath c e l s = (tK, aK)) (hK : Keeps s0 s) : Keeps s0 tK := by
  have hR := Keeps.outputPath_get (c := c) (e := e) (l := l) hK
  rw [eK] at hR
  exact hR

theorem Keeps.setEntry {c : CoreId} {e : MMEntry} {s0 s : State}  (hK : Keeps s0 s) : Keeps s0 (setEntry c e s) := by
  unfold Sys2Proof.Machine.setEntry
  repeat' (first
    | with_reducible assumption
    | exact fun _ hx => hx
    | exact fun _ => rfl
    | with_reducible apply Keeps.updEngine
    | with_reducible apply Keeps.ite_
    | split
    | (refine Keeps.lit ?_ rfl rfl id id id id id; first | with_reducible assumption | with_reducible apply Keeps.updEngine | with_reducible apply Keeps.ite_ | split)
    | assumption
    | intro _
    | dsimp only)

theorem Keeps.capture {c : CoreId} {e : MMEntry} {s0 s : State}  (hK : Keeps s0 s) : Keeps s0 (capture c e s) := by
  unfold Sys2Proof.Machine.capture
  repeat' (first
    | with_reducible assumption
    | exact fun _ hx => hx
    | exact fun _ => rfl
    | with_reducible apply Keeps.updEngine
    | with_reducible apply Keeps.ite_
    | split
    | (refine Keeps.lit ?_ rfl rfl id id id id id; first | with_reducible assumption | with_reducible apply Keeps.updEngine | with_reducible apply Keeps.ite_ | split)
    | assumption
    | intro _
    | dsimp only)

theorem Keeps.bindDone {c : CoreId} {e : MMEntry} {s0 s : State}  (hK : Keeps s0 s) : Keeps s0 (bindDone c e s) := by
  unfold Sys2Proof.Machine.bindDone
  repeat' (first
    | with_reducible assumption
    | exact fun _ hx => hx
    | exact fun _ => rfl
    | with_reducible apply Keeps.updCore
    | with_reducible apply Keeps.ite_
    | split
    | (refine Keeps.lit ?_ rfl rfl id id id id id; first | with_reducible assumption | with_reducible apply Keeps.updCore | with_reducible apply Keeps.ite_ | split)
    | assumption
    | intro _
    | dsimp only)

theorem Keeps.afterPass {c : CoreId} {e : MMEntry} {nsub : Nat} {s0 s : State}  (hK : Keeps s0 s) : Keeps s0 (afterPass c e nsub s) := by
  unfold Sys2Proof.Machine.afterPass
  repeat' (first
    | with_reducible assumption
    | exact fun _ hx => hx
    | exact fun _ => rfl
    | with_reducible apply Keeps.updEngine
    | with_reducible apply Keeps.setEntry
    | with_reducible apply Keeps.capture
    | with_reducible apply Keeps.bindDone
    | with_reducible apply Keeps.vePump
    | with_reducible apply Keeps.ite_
    | with_reducible apply Keeps.outputPath_get
    | refine Keeps.outputPath_eq (by with_reducible assumption) ?_
    | split
    | (refine Keeps.lit ?_ rfl rfl id id id id id; first | with_reducible assumption | with_reducible apply Keeps.updEngine | with_reducible apply Keeps.setEntry | with_reducible apply Keeps.capture | with_reducible apply Keeps.bindDone | with_reducible apply Keeps.vePump | with_reducible apply Keeps.ite_ | with_reducible apply Keeps.outputPath_get | refine Keeps.outputPath_eq (by with_reducible assumption) ?_ | split)
    | assumption
    | intro _
    | dsimp only)

theorem Keeps.openSide {c : CoreId} {e : MMEntry} {s0 s : State}  (hK : Keeps s0 s) : Keeps s0 (openSide c e s) := by
  unfold Sys2Proof.Machine.openSide
  repeat' (first
    | with_reducible assumption
    | exact fun x hx => CoreOk.withWs hx (by with_reducible first | exact wsWr_wf _ _ _ hx.1 | exact writeRecord_wf _ _ _ _ _ _ hx.1 | exact storeTile_wf _ _ _ _ _ hx.1 | exact emptySide_wf _ _ _ _ hx.1 | exact clearSide_wf _ _ _ hx.1 | exact wr8_wf _ _ _ hx.1 | exact foldl_wf _ _ (fun m y hm => writeRecord_wf _ _ _ _ _ _ hm) _ hx.1 | exact foldl_wf _ _ (fun m y hm => wsWr_wf _ _ _ hm) _ hx.1)
    | exact fun _ hx => hx
    | exact fun _ => rfl
    | with_reducible apply Keeps.updCore
    | with_reducible apply Keeps.ite_
    | split
    | (refine Keeps.lit ?_ rfl rfl id id id id id; first | with_reducible assumption | with_reducible apply Keeps.updCore | with_reducible apply Keeps.ite_ | split)
    | assumption
    | intro _
    | dsimp only)

theorem Keeps.skipDo {c : CoreId} {e : MMEntry} {s0 s : State}  (hK : Keeps s0 s) : Keeps s0 (skipDo c e s) := by
  unfold Sys2Proof.Machine.skipDo
  repeat' (first
    | with_reducible assumption
    | exact fun _ hx => hx
    | exact fun _ => rfl
    | with_reducible apply Keeps.vePump
    | with_reducible apply Keeps.setEntry
    | with_reducible apply Keeps.openSide
    | with_reducible apply Keeps.ite_
    | split
    | (refine Keeps.lit ?_ rfl rfl id id id id id; first | with_reducible assumption | with_reducible apply Keeps.vePump | with_reducible apply Keeps.setEntry | with_reducible apply Keeps.openSide | with_reducible apply Keeps.ite_ | split)
    | assumption
    | intro _
    | dsimp only)

theorem Keeps.keepSlice {c : CoreId} {e : MMEntry} {s0 s : State}  (hK : Keeps s0 s) : Keeps s0 (keepSlice c e s) := by
  unfold Sys2Proof.Machine.keepSlice
  repeat' (first
    | with_reducible assumption
    | exact fun x hx => CoreOk.withWs hx (by with_reducible first | exact wsWr_wf _ _ _ hx.1 | exact writeRecord_wf _ _ _ _ _ _ hx.1 | exact storeTile_wf _ _ _ _ _ hx.1 | exact emptySide_wf _ _ _ _ hx.1 | exact clearSide_wf _ _ _ hx.1 | exact wr8_wf _ _ _ hx.1 | exact foldl_wf _ _ (fun m y hm => writeRecord_wf _ _ _ _ _ _ hm) _ hx.1 | exact foldl_wf _ _ (fun m y hm => wsWr_wf _ _ _ hm) _ hx.1)
    | exact fun _ hx => hx
    | exact fun _ => rfl
    | with_reducible apply Keeps.updCore
    | with_reducible apply Keeps.afterPass
    | with_reducible apply Keeps.ite_
    | with_reducible apply Keeps.stage_get
    | refine Keeps.stage_eq (by with_reducible assumption) ?_
    | split
    | (refine Keeps.lit ?_ rfl rfl id id id id id; first | with_reducible assumption | with_reducible apply Keeps.updCore | with_reducible apply Keeps.afterPass | with_reducible apply Keeps.ite_ | with_reducible apply Keeps.stage_get | refine Keeps.stage_eq (by with_reducible assumption) ?_ | split)
    | assumption
    | intro _
    | dsimp only)

theorem Keeps.passCommit {c : CoreId} {en : Fin 4} {tiles : List QTile} {w : WTile} {r : PassOut} {s0 s : State}  (hK : Keeps s0 s) : Keeps s0 (passCommit c en tiles w r s) := by
  unfold Sys2Proof.Machine.passCommit
  repeat' (first
    | with_reducible assumption
    | exact fun _ hx => hx
    | exact fun _ => rfl
    | with_reducible apply Keeps.updEngine
    | with_reducible apply Keeps.ite_
    | split
    | (refine Keeps.lit ?_ rfl rfl id id id id id; first | with_reducible assumption | with_reducible apply Keeps.updEngine | with_reducible apply Keeps.ite_ | split)
    | assumption
    | intro _
    | dsimp only)

theorem Keeps.countSkips {c : CoreId} {n : Nat} {s0 s : State}  (hK : Keeps s0 s) : Keeps s0 (countSkips c n s) := by
  unfold Sys2Proof.Machine.countSkips
  repeat' (first
    | with_reducible assumption
    | exact fun _ hx => hx
    | exact fun _ => rfl
    | with_reducible apply Keeps.updPart
    | with_reducible apply Keeps.ite_
    | split
    | (refine Keeps.lit ?_ rfl rfl id id id id id; first | with_reducible assumption | with_reducible apply Keeps.updPart | with_reducible apply Keeps.ite_ | split)
    | assumption
    | intro _
    | dsimp only)

theorem Keeps.reportMismatch {c : CoreId} {en : Fin 4} {e : MMEntry} {subs kb m : Nat} {s0 s : State}  (hK : Keeps s0 s) : Keeps s0 (reportMismatch c en e subs kb m s) := by
  unfold Sys2Proof.Machine.reportMismatch
  repeat' (first
    | with_reducible assumption
    | exact fun _ hx => hx
    | exact fun _ => rfl
    | with_reducible apply Keeps.abortOf
    | with_reducible apply Keeps.tasterMismatch
    | with_reducible apply Keeps.ite_
    | split
    | (refine Keeps.lit ?_ rfl rfl id id id id id; first | with_reducible assumption | with_reducible apply Keeps.abortOf | with_reducible apply Keeps.tasterMismatch | with_reducible apply Keeps.ite_ | split)
    | assumption
    | intro _
    | dsimp only)

theorem Keeps.passDo {c : CoreId} {en : Fin 4} {e : MMEntry} {tiles : List QTile} {up : Option Upset} {s0 s : State}  (hK : Keeps s0 s) : Keeps s0 (passDo c en e tiles up s) := by
  unfold Sys2Proof.Machine.passDo
  repeat' (first
    | with_reducible assumption
    | exact fun _ hx => hx
    | exact fun _ => rfl
    | with_reducible apply Keeps.countSkips
    | with_reducible apply Keeps.passCommit
    | with_reducible apply Keeps.updEngine
    | with_reducible apply Keeps.reportMismatch
    | with_reducible apply Keeps.setEntry
    | with_reducible apply Keeps.afterPass
    | with_reducible apply Keeps.ite_
    | split
    | (refine Keeps.lit ?_ rfl rfl id id id id id; first | with_reducible assumption | with_reducible apply Keeps.countSkips | with_reducible apply Keeps.passCommit | with_reducible apply Keeps.updEngine | with_reducible apply Keeps.reportMismatch | with_reducible apply Keeps.setEntry | with_reducible apply Keeps.afterPass | with_reducible apply Keeps.ite_ | split)
    | assumption
    | intro _
    | dsimp only)

theorem Keeps.passStart_get {c : CoreId} {en : Fin 4} {e : MMEntry} {s0 s : State} (hK : Keeps s0 s) : Keeps s0 (passStart c en e s).2.2 := by
  unfold Sys2Proof.Machine.passStart
  dsimp only
  have h1 : Keeps s0 (if (withSource ((s.core c).eng[en.1]'en.2) (withK ((s.core c).eng[en.1]'en.2) e)).sub = 0 then Machine.stage c (withSource ((s.core c).eng[en.1]'en.2) (withK ((s.core c).eng[en.1]'en.2) e)) s
      else (((s.core c).eng[en.1]'en.2).staging, s)).2 := by
    split
    · exact Keeps.stage_get hK
    · exact hK
  split
  · exact Keeps.openSide h1
  · exact h1

theorem Keeps.passRun {c : CoreId} {en : Fin 4} {e : MMEntry} {up : Option Upset} {s0 s : State} (hK : Keeps s0 s) :
    Keeps s0 (passRun c en e up s) := by
  have h1 := Keeps.passStart_get (c := c) (en := en) (e := e) hK
  unfold Sys2Proof.Machine.passRun
  generalize Machine.passStart c en e s = r at h1 ⊢
  obtain ⟨e1, tiles, s1⟩ := r
  dsimp only
  split
  · exact Keeps.passDo h1
  · split
    · exact Keeps.passDo (Keeps.charge_get h1)
    · exact Keeps.charge_get hK

theorem Keeps.lateCheck {c : CoreId} {en : Fin 4} {up : Option Upset} {s0 s : State}  (hK : Keeps s0 s) : Keeps s0 (lateCheck c en up s) := by
  unfold Sys2Proof.Machine.lateCheck
  repeat' (first
    | with_reducible assumption
    | exact fun _ hx => hx
    | exact fun _ => rfl
    | with_reducible apply Keeps.updEngine
    | with_reducible apply Keeps.reportMismatch
    | with_reducible apply Keeps.ite_
    | with_reducible apply Keeps.stage_get
    | refine Keeps.stage_eq (by with_reducible assumption) ?_
    | split
    | (refine Keeps.lit ?_ rfl rfl id id id id id; first | with_reducible assumption | with_reducible apply Keeps.updEngine | with_reducible apply Keeps.reportMismatch | with_reducible apply Keeps.ite_ | with_reducible apply Keeps.stage_get | refine Keeps.stage_eq (by with_reducible assumption) ?_ | split)
    | assumption
    | intro _
    | dsimp only)

theorem Keeps.execMatrixPass {c : CoreId} {e : Fin 4} {upset : Option Upset} {s0 s tK : State} (eK : execMatrixPass c e upset s = .next tK) (hK : Keeps s0 s) : Keeps s0 tK := by
  unfold Sys2Proof.Machine.execMatrixPass at eK
  cases eK
  repeat' (first
    | with_reducible assumption
    | exact fun _ hx => hx
    | exact fun _ => rfl
    | with_reducible apply Keeps.lateCheck
    | with_reducible apply Keeps.skipDo
    | with_reducible apply Keeps.keepSlice
    | with_reducible apply Keeps.illegal
    | with_reducible apply Keeps.passRun
    | with_reducible apply Keeps.ite_
    | split
    | (refine Keeps.lit ?_ rfl rfl id id id id id; first | with_reducible assumption | with_reducible apply Keeps.lateCheck | with_reducible apply Keeps.skipDo | with_reducible apply Keeps.keepSlice | with_reducible apply Keeps.illegal | with_reducible apply Keeps.passRun | with_reducible apply Keeps.ite_ | split)
    | assumption
    | intro _
    | dsimp only)

end Sys2Proof.Machine
end

