-- ==== Sys2Proof/Laws/KeepsStreams.lean ====
section
/-! SUPPORT. What the operations of Machine/Streams.lean keep: the queue, the modes and the canonical stores. -/

set_option linter.unusedTactic false
set_option linter.unreachableTactic false

namespace Sys2Proof.Machine

theorem Keeps.armIssue {c : CoreId} {h : TileHdr} {u : BitVec 3} {doff : W16} {sovr : SReg} {s0 s : State}  (hK : Keeps s0 s) : Keeps s0 (armIssue c h u doff sovr s) := by
  unfold Sys2Proof.Machine.armIssue
  repeat' (first
    | with_reducible assumption
    | exact fun _ hx => hx
    | exact fun _ => rfl
    | with_reducible apply Keeps.issue
    | with_reducible apply Keeps.illegal
    | with_reducible apply Keeps.scqPump
    | with_reducible apply Keeps.nextLine
    | with_reducible apply Keeps.updCore
    | with_reducible apply Keeps.ite_
    | with_reducible apply Keeps.takeId_get
    | refine Keeps.takeId_eq (by with_reducible assumption) ?_
    | split
    | (refine Keeps.lit ?_ rfl rfl id id id id id; first | with_reducible assumption | with_reducible apply Keeps.issue | with_reducible apply Keeps.illegal | with_reducible apply Keeps.scqPump | with_reducible apply Keeps.nextLine | with_reducible apply Keeps.updCore | with_reducible apply Keeps.ite_ | with_reducible apply Keeps.takeId_get | refine Keeps.takeId_eq (by with_reducible assumption) ?_ | split)
    | assumption
    | intro _
    | dsimp only)

theorem Keeps.execArm {c : CoreId} {h : TileHdr} {u : BitVec 3} {doff : W16} {sovr : SReg} {s0 s tK : State} (eK : execArm c h u doff sovr s = .next tK) (hK : Keeps s0 s) : Keeps s0 tK :=
  Keeps.staticCheck eK (Keeps.armIssue hK)

theorem Keeps.fillIssue {c : CoreId} {h : TileHdr} {sf : SReg} {s0 s : State}  (hK : Keeps s0 s) : Keeps s0 (fillIssue c h sf s) := by
  unfold Sys2Proof.Machine.fillIssue
  repeat' (first
    | with_reducible assumption
    | exact fun _ hx => hx
    | exact fun _ => rfl
    | with_reducible apply Keeps.issue
    | with_reducible apply Keeps.nextLine
    | with_reducible apply Keeps.updCore
    | with_reducible apply Keeps.ite_
    | with_reducible apply Keeps.takeId_get
    | refine Keeps.takeId_eq (by with_reducible assumption) ?_
    | split
    | (refine Keeps.lit ?_ rfl rfl id id id id id; first | with_reducible assumption | with_reducible apply Keeps.issue | with_reducible apply Keeps.nextLine | with_reducible apply Keeps.updCore | with_reducible apply Keeps.ite_ | with_reducible apply Keeps.takeId_get | refine Keeps.takeId_eq (by with_reducible assumption) ?_ | split)
    | assumption
    | intro _
    | dsimp only)

theorem Keeps.execFill {c : CoreId} {h : TileHdr} {sf : SReg} {s0 s tK : State} (eK : execFill c h sf s = .next tK) (hK : Keeps s0 s) : Keeps s0 tK :=
  Keeps.staticCheck eK (Keeps.fillIssue hK)

theorem Keeps.trIssue {op : TOp} {c : CoreId} {h : TileHdr} {b : TRBody} {s0 s : State}  (hK : Keeps s0 s) : Keeps s0 (trIssue op c h b s) := by
  unfold Sys2Proof.Machine.trIssue
  repeat' (first
    | with_reducible assumption
    | exact fun _ hx => hx
    | exact fun _ => rfl
    | with_reducible apply Keeps.issue
    | with_reducible apply Keeps.nextLine
    | with_reducible apply Keeps.updCore
    | with_reducible apply Keeps.railPump
    | with_reducible apply Keeps.ite_
    | split
    | (refine Keeps.lit ?_ rfl rfl id id id id id; first | with_reducible assumption | with_reducible apply Keeps.issue | with_reducible apply Keeps.nextLine | with_reducible apply Keeps.updCore | with_reducible apply Keeps.railPump | with_reducible apply Keeps.ite_ | split)
    | assumption
    | intro _
    | dsimp only)

theorem Keeps.execPut {c : CoreId} {h : TileHdr} {b : TRBody} {s0 s tK : State} (eK : execPut c h b s = .next tK) (hK : Keeps s0 s) : Keeps s0 tK := by
  unfold Sys2Proof.Machine.execPut at eK
  cases eK
  repeat' (first
    | with_reducible assumption
    | exact fun _ hx => hx
    | exact fun _ => rfl
    | with_reducible apply Keeps.trIssue
    | with_reducible apply Keeps.ite_
    | split
    | (refine Keeps.lit ?_ rfl rfl id id id id id; first | with_reducible assumption | with_reducible apply Keeps.trIssue | with_reducible apply Keeps.ite_ | split)
    | assumption
    | intro _
    | dsimp only)

theorem Keeps.execTake {c : CoreId} {h : TileHdr} {b : TRBody} {s0 s tK : State} (eK : execTake c h b s = .next tK) (hK : Keeps s0 s) : Keeps s0 tK := by
  unfold Sys2Proof.Machine.execTake at eK
  cases eK
  repeat' (first
    | with_reducible assumption
    | exact fun _ hx => hx
    | exact fun _ => rfl
    | with_reducible apply Keeps.trIssue
    | with_reducible apply Keeps.ite_
    | split
    | (refine Keeps.lit ?_ rfl rfl id id id id id; first | with_reducible assumption | with_reducible apply Keeps.trIssue | with_reducible apply Keeps.ite_ | split)
    | assumption
    | intro _
    | dsimp only)

theorem Keeps.execReturn {c : CoreId} {h : TileHdr} {b : TRBody} {s0 s tK : State} (eK : execReturn c h b s = .next tK) (hK : Keeps s0 s) : Keeps s0 tK := by
  unfold Sys2Proof.Machine.execReturn at eK
  cases eK
  repeat' (first
    | with_reducible assumption
    | exact fun _ hx => hx
    | exact fun _ => rfl
    | with_reducible apply Keeps.trIssue
    | with_reducible apply Keeps.ite_
    | split
    | (refine Keeps.lit ?_ rfl rfl id id id id id; first | with_reducible assumption | with_reducible apply Keeps.trIssue | with_reducible apply Keeps.ite_ | split)
    | assumption
    | intro _
    | dsimp only)

theorem Keeps.execFree {c : CoreId} {h : TileHdr} {b : TRBody} {s0 s tK : State} (eK : execFree c h b s = .next tK) (hK : Keeps s0 s) : Keeps s0 tK := by
  unfold Sys2Proof.Machine.execFree at eK
  cases eK
  repeat' (first
    | with_reducible assumption
    | exact fun _ hx => hx
    | exact fun _ => rfl
    | with_reducible apply Keeps.trIssue
    | with_reducible apply Keeps.ite_
    | split
    | (refine Keeps.lit ?_ rfl rfl id id id id id; first | with_reducible assumption | with_reducible apply Keeps.trIssue | with_reducible apply Keeps.ite_ | split)
    | assumption
    | intro _
    | dsimp only)

theorem Keeps.execBl {c : CoreId} {h : TileHdr} {mark : W16} {s0 s tK : State} (eK : execBl c h mark s = .next tK) (hK : Keeps s0 s) : Keeps s0 tK := by
  unfold Sys2Proof.Machine.execBl at eK
  cases eK
  repeat' (first
    | with_reducible assumption
    | exact fun _ hx => hx
    | exact fun _ => rfl
    | with_reducible apply Keeps.issue
    | with_reducible apply Keeps.holdAt
    | with_reducible apply Keeps.ite_
    | split
    | (refine Keeps.lit ?_ rfl rfl id id id id id; first | with_reducible assumption | with_reducible apply Keeps.issue | with_reducible apply Keeps.holdAt | with_reducible apply Keeps.ite_ | split)
    | assumption
    | intro _
    | dsimp only)

theorem Keeps.traceDone {c : CoreId} {cls ckpt pc : Nat} {s0 s : State}  (hK : Keeps s0 s) : Keeps s0 (traceDone c cls ckpt pc s) := by
  unfold Sys2Proof.Machine.traceDone
  repeat' (first
    | with_reducible assumption
    | exact fun _ hx => hx
    | exact fun _ => rfl
    | with_reducible apply Keeps.trace
    | with_reducible apply Keeps.ite_
    | split
    | (refine Keeps.lit ?_ rfl rfl id id id id id; first | with_reducible assumption | with_reducible apply Keeps.trace | with_reducible apply Keeps.ite_ | split)
    | assumption
    | intro _
    | dsimp only)

theorem Keeps.completeMM {c : CoreId} {i : Fin 4} {s0 s : State}  (hK : Keeps s0 s) : Keeps s0 (completeMM c i s) := by
  unfold Sys2Proof.Machine.completeMM
  repeat' (first
    | with_reducible assumption
    | exact fun _ hx => hx
    | exact fun _ => rfl
    | with_reducible apply Keeps.updEngine
    | with_reducible refine Keeps.whenS (fun _ _ => ?_) ?_
    | with_reducible apply Keeps.updCore
    | with_reducible apply Keeps.vePump
    | with_reducible apply Keeps.weightErrors
    | with_reducible apply Keeps.traceDone
    | with_reducible apply Keeps.meetCkptOf
    | with_reducible apply Keeps.ite_
    | split
    | (refine Keeps.lit ?_ rfl rfl id id id id id; first | with_reducible assumption | with_reducible apply Keeps.updEngine | with_reducible refine Keeps.whenS (fun _ _ => ?_) ?_ | with_reducible apply Keeps.updCore | with_reducible apply Keeps.vePump | with_reducible apply Keeps.weightErrors | with_reducible apply Keeps.traceDone | with_reducible apply Keeps.meetCkptOf | with_reducible apply Keeps.ite_ | split)
    | assumption
    | intro _
    | dsimp only)

theorem Keeps.completeVX {c : CoreId} {s0 s : State}  (hK : Keeps s0 s) : Keeps s0 (completeVX c s) := by
  unfold Sys2Proof.Machine.completeVX
  repeat' (first
    | with_reducible assumption
    | exact fun _ hx => hx
    | exact fun _ => rfl
    | with_reducible apply Keeps.updCore
    | with_reducible apply Keeps.vePump
    | with_reducible apply Keeps.traceDone
    | with_reducible apply Keeps.meetCkptOf
    | with_reducible apply Keeps.ite_
    | split
    | (refine Keeps.lit ?_ rfl rfl id id id id id; first | with_reducible assumption | with_reducible apply Keeps.updCore | with_reducible apply Keeps.vePump | with_reducible apply Keeps.traceDone | with_reducible apply Keeps.meetCkptOf | with_reducible apply Keeps.ite_ | split)
    | assumption
    | intro _
    | dsimp only)

theorem Keeps.completeSC {c : CoreId} {s0 s : State}  (hK : Keeps s0 s) : Keeps s0 (completeSC c s) := by
  unfold Sys2Proof.Machine.completeSC
  repeat' (first
    | with_reducible assumption
    | exact fun _ hx => hx
    | exact fun _ => rfl
    | with_reducible apply Keeps.vePump
    | with_reducible apply Keeps.scqPump
    | with_reducible apply Keeps.traceDone
    | with_reducible apply Keeps.meetCkptOf
    | with_reducible apply Keeps.updCore
    | with_reducible apply Keeps.ite_
    | split
    | (refine Keeps.lit ?_ rfl rfl id id id id id; first | with_reducible assumption | with_reducible apply Keeps.vePump | with_reducible apply Keeps.scqPump | with_reducible apply Keeps.traceDone | with_reducible apply Keeps.meetCkptOf | with_reducible apply Keeps.updCore | with_reducible apply Keeps.ite_ | split)
    | assumption
    | intro _
    | dsimp only)

theorem Keeps.completeTR {c : CoreId} {s0 s : State}  (hK : Keeps s0 s) : Keeps s0 (completeTR c s) := by
  unfold Sys2Proof.Machine.completeTR
  repeat' (first
    | with_reducible assumption
    | exact fun _ hx => hx
    | exact fun _ => rfl
    | with_reducible apply Keeps.traceDone
    | with_reducible apply Keeps.meetCkptOf
    | with_reducible apply Keeps.updCore
    | with_reducible apply Keeps.railPump
    | with_reducible apply Keeps.ite_
    | split
    | (refine Keeps.lit ?_ rfl rfl id id id id id; first | with_reducible assumption | with_reducible apply Keeps.traceDone | with_reducible apply Keeps.meetCkptOf | with_reducible apply Keeps.updCore | with_reducible apply Keeps.railPump | with_reducible apply Keeps.ite_ | split)
    | assumption
    | intro _
    | dsimp only)

theorem Keeps.execTileComplete {c : CoreId} {q : QName} {s0 s tK : State} (eK : execTileComplete c q s = .next tK) (hK : Keeps s0 s) : Keeps s0 tK := by
  unfold Sys2Proof.Machine.execTileComplete at eK
  cases eK
  repeat' (first
    | with_reducible assumption
    | exact fun _ hx => hx
    | exact fun _ => rfl
    | with_reducible apply Keeps.completeMM
    | with_reducible apply Keeps.completeVX
    | with_reducible apply Keeps.completeSC
    | with_reducible apply Keeps.completeTR
    | with_reducible apply Keeps.ite_
    | split
    | (refine Keeps.lit ?_ rfl rfl id id id id id; first | with_reducible assumption | with_reducible apply Keeps.completeMM | with_reducible apply Keeps.completeVX | with_reducible apply Keeps.completeSC | with_reducible apply Keeps.completeTR | with_reducible apply Keeps.ite_ | split)
    | assumption
    | intro _
    | dsimp only)

theorem Keeps.takeSlot {c : CoreId} {u : UnitId} {l : Landing} {s0 s : State}  (hK : Keeps s0 s) : Keeps s0 (takeSlot c u l s) := by
  unfold Sys2Proof.Machine.takeSlot
  repeat' (first
    | with_reducible assumption
    | exact fun _ hx => hx
    | exact fun _ => rfl
    | with_reducible apply Keeps.updScoop
    | with_reducible apply Keeps.ite_
    | split
    | (refine Keeps.lit ?_ rfl rfl id id id id id; first | with_reducible assumption | with_reducible apply Keeps.updScoop | with_reducible apply Keeps.ite_ | split)
    | assumption
    | intro _
    | dsimp only)

theorem Keeps.xferIssue {c : CoreId} {u : UnitId} {p : PartId} {cfg : PCfg} {r : ScoopRun} {s0 s : State}  (hK : Keeps s0 s) : Keeps s0 (xferIssue c u p cfg r s) := by
  unfold Sys2Proof.Machine.xferIssue
  repeat' (first
    | with_reducible assumption
    | exact fun _ hx => hx
    | exact fun _ => rfl
    | with_reducible apply Keeps.scoopFault
    | with_reducible apply Keeps.rotateUnit
    | with_reducible apply Keeps.takeSlot
    | with_reducible refine Keeps.whenS (fun _ _ => ?_) ?_
    | with_reducible apply Keeps.updPart
    | with_reducible apply Keeps.ite_
    | with_reducible apply Keeps.charge_get
    | refine Keeps.charge_eq (by with_reducible assumption) ?_
    | split
    | (refine Keeps.lit ?_ rfl rfl id id id id id; first | with_reducible assumption | with_reducible apply Keeps.scoopFault | with_reducible apply Keeps.rotateUnit | with_reducible apply Keeps.takeSlot | with_reducible refine Keeps.whenS (fun _ _ => ?_) ?_ | with_reducible apply Keeps.updPart | with_reducible apply Keeps.ite_ | with_reducible apply Keeps.charge_get | refine Keeps.charge_eq (by with_reducible assumption) ?_ | split)
    | assumption
    | intro _
    | dsimp only)

theorem Keeps.execScoopTransferIssue {c : CoreId} {u : UnitId} {s0 s tK : State} (eK : execScoopTransferIssue c u s = .next tK) (hK : Keeps s0 s) : Keeps s0 tK := by
  unfold Sys2Proof.Machine.execScoopTransferIssue at eK
  cases eK
  repeat' (first
    | with_reducible assumption
    | exact fun _ hx => hx
    | exact fun _ => rfl
    | with_reducible apply Keeps.xferIssue
    | with_reducible apply Keeps.ite_
    | split
    | (refine Keeps.lit ?_ rfl rfl id id id id id; first | with_reducible assumption | with_reducible apply Keeps.xferIssue | with_reducible apply Keeps.ite_ | split)
    | assumption
    | intro _
    | dsimp only)

theorem Keeps.unitMoved {c : CoreId} {u : UnitId} {s0 s : State}  (hK : Keeps s0 s) : Keeps s0 (unitMoved c u s) := by
  unfold Sys2Proof.Machine.unitMoved
  repeat' (first
    | with_reducible assumption
    | exact fun _ hx => hx
    | exact fun _ => rfl
    | with_reducible apply Keeps.rotateUnit
    | with_reducible apply Keeps.meshPump
    | with_reducible apply Keeps.ite_
    | split
    | (refine Keeps.lit ?_ rfl rfl id id id id id; first | with_reducible assumption | with_reducible apply Keeps.rotateUnit | with_reducible apply Keeps.meshPump | with_reducible apply Keeps.ite_ | split)
    | assumption
    | intro _
    | dsimp only)

theorem Keeps.lineAbort {c : CoreId} {a : Nat} {o : Fin 8} {s0 s : State}  (hK : Keeps s0 s) : Keeps s0 (lineAbort c a o s) := by
  unfold Sys2Proof.Machine.lineAbort
  repeat' (first
    | with_reducible assumption
    | exact fun _ hx => hx
    | exact fun _ => rfl
    | with_reducible apply Keeps.abortOf
    | with_reducible apply Keeps.ite_
    | with_reducible apply Keeps.badLine_get
    | refine Keeps.badLine_eq (by with_reducible assumption) ?_
    | split
    | (refine Keeps.lit ?_ rfl rfl id id id id id; first | with_reducible assumption | with_reducible apply Keeps.abortOf | with_reducible apply Keeps.ite_ | with_reducible apply Keeps.badLine_get | refine Keeps.badLine_eq (by with_reducible assumption) ?_ | split)
    | assumption
    | intro _
    | dsimp only)

theorem Keeps.landIn {c : CoreId} {u : UnitId} {l : Landing} {r : AccessResult} {s0 s : State}  (hK : Keeps s0 s) : Keeps s0 (landIn c u l r s) := by
  unfold Sys2Proof.Machine.landIn
  repeat' (first
    | with_reducible assumption
    | exact fun _ hx => hx
    | exact fun _ => rfl
    | with_reducible apply Keeps.unitMoved
    | with_reducible apply Keeps.updScoop
    | with_reducible apply Keeps.scoopFault
    | with_reducible apply Keeps.lineAbort
    | with_reducible apply Keeps.ite_
    | with_reducible apply Keeps.judgeRead_get
    | refine Keeps.judgeRead_eq (by with_reducible assumption) ?_
    | split
    | (refine Keeps.lit ?_ rfl rfl id id id id id; first | with_reducible assumption | with_reducible apply Keeps.unitMoved | with_reducible apply Keeps.updScoop | with_reducible apply Keeps.scoopFault | with_reducible apply Keeps.lineAbort | with_reducible apply Keeps.ite_ | with_reducible apply Keeps.judgeRead_get | refine Keeps.judgeRead_eq (by with_reducible assumption) ?_ | split)
    | assumption
    | intro _
    | dsimp only)

theorem Keeps.ackOut {c : CoreId} {u : UnitId} {l : Landing} {s0 s : State}  (hK : Keeps s0 s) : Keeps s0 (ackOut c u l s) := by
  unfold Sys2Proof.Machine.ackOut
  repeat' (first
    | with_reducible assumption
    | exact wrBytes_wf _ _ _ (by assumption)
    | exact wsWr_wf _ _ _ (by assumption)
    | exact fun _ hx => hx
    | exact fun _ => rfl
    | with_reducible apply Keeps.tierWrite
    | with_reducible apply Keeps.updPart
    | with_reducible apply Keeps.unitMoved
    | with_reducible apply Keeps.updScoop
    | with_reducible apply Keeps.ite_
    | split
    | (refine Keeps.lit ?_ rfl rfl id id id id id; first | with_reducible assumption | exact wrBytes_wf _ _ _ (by assumption) | exact wsWr_wf _ _ _ (by assumption) | with_reducible apply Keeps.tierWrite | with_reducible apply Keeps.updPart | with_reducible apply Keeps.unitMoved | with_reducible apply Keeps.updScoop | with_reducible apply Keeps.ite_ | split)
    | assumption
    | intro _
    | dsimp only)

theorem Keeps.execTransferLanded {c : CoreId} {u : UnitId} {r : AccessResult} {s0 s tK : State} (eK : execTransferLanded c u r s = .next tK) (hK : Keeps s0 s) : Keeps s0 tK := by
  unfold Sys2Proof.Machine.execTransferLanded at eK
  cases eK
  repeat' (first
    | with_reducible assumption
    | exact fun _ hx => hx
    | exact fun _ => rfl
    | with_reducible apply Keeps.landIn
    | with_reducible apply Keeps.scoopFault
    | with_reducible apply Keeps.ackOut
    | with_reducible apply Keeps.lineAbort
    | with_reducible apply Keeps.ite_
    | with_reducible apply Keeps.judgeRead_get
    | refine Keeps.judgeRead_eq (by with_reducible assumption) ?_
    | split
    | (refine Keeps.lit ?_ rfl rfl id id id id id; first | with_reducible assumption | with_reducible apply Keeps.landIn | with_reducible apply Keeps.scoopFault | with_reducible apply Keeps.ackOut | with_reducible apply Keeps.lineAbort | with_reducible apply Keeps.ite_ | with_reducible apply Keeps.judgeRead_get | refine Keeps.judgeRead_eq (by with_reducible assumption) ?_ | split)
    | assumption
    | intro _
    | dsimp only)

theorem Keeps.execSimmerRefill {p : PartId} {s0 s tK : State} (eK : execSimmerRefill p s = .next tK) (hK : Keeps s0 s) : Keeps s0 tK := by
  unfold Sys2Proof.Machine.execSimmerRefill at eK
  cases eK
  repeat' (first
    | with_reducible assumption
    | exact fun _ hx => hx
    | exact fun _ => rfl
    | with_reducible apply Keeps.updPart
    | with_reducible apply Keeps.ite_
    | split
    | (refine Keeps.lit ?_ rfl rfl id id id id id; first | with_reducible assumption | with_reducible apply Keeps.updPart | with_reducible apply Keeps.ite_ | split)
    | assumption
    | intro _
    | dsimp only)

theorem Keeps.ackBlock {p : PartId} {c : CoreId} {l : Landing} {s0 s : State}  (hK : Keeps s0 s) : Keeps s0 (ackBlock p c l s) := by
  unfold Sys2Proof.Machine.ackBlock
  repeat' (first
    | with_reducible assumption
    | exact fun _ hx => hx
    | exact fun _ => rfl
    | with_reducible apply Keeps.updPart
    | with_reducible apply Keeps.ite_
    | split
    | (refine Keeps.lit ?_ rfl rfl id id id id id; first | with_reducible assumption | with_reducible apply Keeps.updPart | with_reducible apply Keeps.ite_ | split)
    | assumption
    | intro _
    | dsimp only)

theorem Keeps.drainUnit {c : CoreId} {u : UnitId} {s0 s : State}  (hK : Keeps s0 s) : Keeps s0 (drainUnit c u s) := by
  unfold Sys2Proof.Machine.drainUnit
  repeat' (first
    | with_reducible assumption
    | exact fun x hx => CoreOk.withWs hx (by with_reducible first | exact wsWr_wf _ _ _ hx.1 | exact writeRecord_wf _ _ _ _ _ _ hx.1 | exact storeTile_wf _ _ _ _ _ hx.1 | exact emptySide_wf _ _ _ _ hx.1 | exact clearSide_wf _ _ _ hx.1 | exact wr8_wf _ _ _ hx.1 | exact foldl_wf _ _ (fun m y hm => writeRecord_wf _ _ _ _ _ _ hm) _ hx.1 | exact foldl_wf _ _ (fun m y hm => wsWr_wf _ _ _ hm) _ hx.1)
    | exact fun _ hx => hx
    | exact fun _ => rfl
    | with_reducible apply Keeps.updCore
    | with_reducible apply Keeps.updScoop
    | with_reducible refine Keeps.forAll (fun _ _ _ => ?_) ?_
    | with_reducible apply Keeps.toMesh
    | with_reducible apply Keeps.ackBlock
    | with_reducible apply Keeps.ite_
    | split
    | (refine Keeps.lit ?_ rfl rfl id id id id id; first | with_reducible assumption | with_reducible apply Keeps.updCore | with_reducible apply Keeps.updScoop | with_reducible refine Keeps.forAll (fun _ _ _ => ?_) ?_ | with_reducible apply Keeps.toMesh | with_reducible apply Keeps.ackBlock | with_reducible apply Keeps.ite_ | split)
    | assumption
    | intro _
    | dsimp only)

theorem Keeps.servePeers {p : PartId} {c : CoreId} {s0 s : State}  (hK : Keeps s0 s) : Keeps s0 (servePeers p c s) := by
  unfold Sys2Proof.Machine.servePeers
  repeat' (first
    | with_reducible assumption
    | exact fun x hx => CoreOk.withWs hx (by with_reducible first | exact wsWr_wf _ _ _ hx.1 | exact writeRecord_wf _ _ _ _ _ _ hx.1 | exact storeTile_wf _ _ _ _ _ hx.1 | exact emptySide_wf _ _ _ _ hx.1 | exact clearSide_wf _ _ _ hx.1 | exact wr8_wf _ _ _ hx.1 | exact foldl_wf _ _ (fun m y hm => writeRecord_wf _ _ _ _ _ _ hm) _ hx.1 | exact foldl_wf _ _ (fun m y hm => wsWr_wf _ _ _ hm) _ hx.1)
    | exact fun _ hx => hx
    | exact fun _ => rfl
    | with_reducible apply Keeps.updCore
    | with_reducible refine Keeps.forAll (fun _ _ _ => ?_) ?_
    | with_reducible apply Keeps.updScoop
    | with_reducible apply Keeps.ite_
    | split
    | (refine Keeps.lit ?_ rfl rfl id id id id id; first | with_reducible assumption | with_reducible apply Keeps.updCore | with_reducible refine Keeps.forAll (fun _ _ _ => ?_) ?_ | with_reducible apply Keeps.updScoop | with_reducible apply Keeps.ite_ | split)
    | assumption
    | intro _
    | dsimp only)

theorem Keeps.fillWork {c : CoreId} {s0 s : State}  (hK : Keeps s0 s) : Keeps s0 (fillWork c s) := by
  unfold Sys2Proof.Machine.fillWork
  repeat' (first
    | with_reducible assumption
    | exact fun _ hx => hx
    | exact fun _ => rfl
    | with_reducible refine Keeps.forAll (fun _ _ _ => ?_) ?_
    | with_reducible apply Keeps.drainUnit
    | with_reducible apply Keeps.servePeers
    | with_reducible apply Keeps.rotateUnit
    | with_reducible apply Keeps.ite_
    | split
    | (refine Keeps.lit ?_ rfl rfl id id id id id; first | with_reducible assumption | with_reducible refine Keeps.forAll (fun _ _ _ => ?_) ?_ | with_reducible apply Keeps.drainUnit | with_reducible apply Keeps.servePeers | with_reducible apply Keeps.rotateUnit | with_reducible apply Keeps.ite_ | split)
    | assumption
    | intro _
    | dsimp only)

theorem Keeps.fillEnd {p : PartId} {c : CoreId} {s0 s : State}  (hK : Keeps s0 s) : Keeps s0 (fillEnd p c s) := by
  unfold Sys2Proof.Machine.fillEnd
  repeat' (first
    | with_reducible assumption
    | exact fun _ hx => hx
    | exact fun _ => rfl
    | with_reducible refine Keeps.forAll (fun _ _ _ => ?_) ?_
    | with_reducible apply Keeps.vePump
    | with_reducible apply Keeps.railPump
    | with_reducible apply Keeps.meshPump
    | with_reducible apply Keeps.readyRails
    | with_reducible apply Keeps.ite_
    | split
    | (refine Keeps.lit ?_ rfl rfl id id id id id; first | with_reducible assumption | with_reducible refine Keeps.forAll (fun _ _ _ => ?_) ?_ | with_reducible apply Keeps.vePump | with_reducible apply Keeps.railPump | with_reducible apply Keeps.meshPump | with_reducible apply Keeps.readyRails | with_reducible apply Keeps.ite_ | split)
    | assumption
    | intro _
    | dsimp only)

theorem Keeps.execFillPhase {c : CoreId} {s0 s tK : State} (eK : execFillPhase c s = .next tK) (hK : Keeps s0 s) : Keeps s0 tK := by
  unfold Sys2Proof.Machine.execFillPhase at eK
  cases eK
  split
  · split
    · exact hK
    · have h1 := Keeps.fillWork (c := c) hK
      dsimp only
      generalize Machine.fillWork c s = s1 at h1 ⊢
      split
      · exact h1
      · split
        · split
          · exact Keeps.meshPump h1
          · exact h1
        · split
          · exact Keeps.fillEnd (Keeps.updCore h1 (fun _ h => h))
          · exact Keeps.updCore h1 (fun _ h => h)
  · exact hK

theorem Keeps.execMulticastBlockSend {p : PartId} {mcid : W64} {data : List Byte} {s0 s tK : State} (eK : execMulticastBlockSend p mcid data s = .next tK) (hK : Keeps s0 s) : Keeps s0 tK := by
  unfold Sys2Proof.Machine.execMulticastBlockSend at eK
  cases eK
  repeat' (first
    | with_reducible assumption
    | exact fun _ hx => hx
    | exact fun _ => rfl
    | with_reducible apply Keeps.abortTask
    | with_reducible apply Keeps.updPart
    | with_reducible apply Keeps.meetCkpt
    | with_reducible apply Keeps.toMesh
    | with_reducible apply Keeps.ite_
    | split
    | (refine Keeps.lit ?_ rfl rfl id id id id id; first | with_reducible assumption | with_reducible apply Keeps.abortTask | with_reducible apply Keeps.updPart | with_reducible apply Keeps.meetCkpt | with_reducible apply Keeps.toMesh | with_reducible apply Keeps.ite_ | split)
    | assumption
    | intro _
    | dsimp only)

theorem Keeps.execMulticastLagAbort {p : PartId} {mcid : W64} {s0 s tK : State} (eK : execMulticastLagAbort p mcid s = .next tK) (hK : Keeps s0 s) : Keeps s0 tK := by
  unfold Sys2Proof.Machine.execMulticastLagAbort at eK
  cases eK
  repeat' (first
    | with_reducible assumption
    | exact fun _ hx => hx
    | exact fun _ => rfl
    | with_reducible refine Keeps.forAll (fun _ _ _ => ?_) ?_
    | with_reducible apply Keeps.abortTask
    | with_reducible apply Keeps.ite_
    | split
    | (refine Keeps.lit ?_ rfl rfl id id id id id; first | with_reducible assumption | with_reducible refine Keeps.forAll (fun _ _ _ => ?_) ?_ | with_reducible apply Keeps.abortTask | with_reducible apply Keeps.ite_ | split)
    | assumption
    | intro _
    | dsimp only)

theorem Keeps.execBellRelease {p : PartId} {s0 s tK : State} (eK : execBellRelease p s = .next tK) (hK : Keeps s0 s) : Keeps s0 tK := by
  unfold Sys2Proof.Machine.execBellRelease at eK
  cases eK
  repeat' (first
    | with_reducible assumption
    | exact fun _ hx => hx
    | exact fun _ => rfl
    | with_reducible refine Keeps.forAll (fun _ _ _ => ?_) ?_
    | with_reducible apply Keeps.nextLine
    | with_reducible apply Keeps.meetCkpt
    | with_reducible apply Keeps.trace
    | with_reducible apply Keeps.ite_
    | split
    | (refine Keeps.lit ?_ rfl rfl id id id id id; first | with_reducible assumption | with_reducible refine Keeps.forAll (fun _ _ _ => ?_) ?_ | with_reducible apply Keeps.nextLine | with_reducible apply Keeps.meetCkpt | with_reducible apply Keeps.trace | with_reducible apply Keeps.ite_ | split)
    | assumption
    | intro _
    | dsimp only)

theorem Keeps.execLateData {p : PartId} {ckpt : BitVec 15} {s0 s tK : State} (eK : execLateData p ckpt s = .next tK) (hK : Keeps s0 s) : Keeps s0 tK := by
  unfold Sys2Proof.Machine.execLateData at eK
  cases eK
  repeat' (first
    | with_reducible assumption
    | exact fun _ hx => hx
    | exact fun _ => rfl
    | with_reducible apply Keeps.abortTask
    | with_reducible apply Keeps.ite_
    | split
    | (refine Keeps.lit ?_ rfl rfl id id id id id; first | with_reducible assumption | with_reducible apply Keeps.abortTask | with_reducible apply Keeps.ite_ | split)
    | assumption
    | intro _
    | dsimp only)

end Sys2Proof.Machine
end

