-- ==== Sys2Proof/Laws/KeepsSuspects.lean ====
section
/-! SUPPORT. What the operations of Machine/Suspects.lean keep: the queue, the modes and the canonical stores. -/

set_option linter.unusedTactic false
set_option linter.unreachableTactic false

namespace Sys2Proof.Machine

theorem Keeps.setSuspect {e : Fin 64} {x : Option Suspect} {s0 s : State}  (hK : Keeps s0 s) : Keeps s0 (setSuspect e x s) := by
  unfold Sys2Proof.Machine.setSuspect
  repeat' (first
    | with_reducible assumption
    | exact fun _ hx => hx
    | exact fun _ => rfl
    | with_reducible apply Keeps.updFlt
    | with_reducible apply Keeps.ite_
    | split
    | (refine Keeps.lit ?_ rfl rfl id id id id id; first | with_reducible assumption | with_reducible apply Keeps.updFlt | with_reducible apply Keeps.ite_ | split)
    | assumption
    | intro _
    | dsimp only)

theorem Keeps.forwardEntry {e : Fin 64} {s0 s : State}  (hK : Keeps s0 s) : Keeps s0 (forwardEntry e s) := by
  unfold Sys2Proof.Machine.forwardEntry
  repeat' (first
    | with_reducible assumption
    | exact fun _ hx => hx
    | exact fun _ => rfl
    | with_reducible apply Keeps.logR
    | with_reducible refine Keeps.whenS (fun _ _ => ?_) ?_
    | with_reducible apply Keeps.sendM
    | with_reducible refine Keeps.forAll (fun _ _ _ => ?_) ?_
    | with_reducible apply Keeps.setSuspect
    | with_reducible apply Keeps.ite_
    | split
    | (refine Keeps.lit ?_ rfl rfl id id id id id; first | with_reducible assumption | with_reducible apply Keeps.logR | with_reducible refine Keeps.whenS (fun _ _ => ?_) ?_ | with_reducible apply Keeps.sendM | with_reducible refine Keeps.forAll (fun _ _ _ => ?_) ?_ | with_reducible apply Keeps.setSuspect | with_reducible apply Keeps.ite_ | split)
    | assumption
    | intro _
    | dsimp only)

theorem Keeps.noteSuspect {d : DevAddr} {res reason : Byte} {n : Nat} {loc : Bool} {recv : Bool} {part : Nat} {s0 s : State}  (hK : Keeps s0 s) : Keeps s0 (noteSuspect d res reason n loc recv part s) := by
  unfold Sys2Proof.Machine.noteSuspect
  repeat' (first
    | with_reducible assumption
    | exact fun _ hx => hx
    | exact fun _ => rfl
    | with_reducible apply Keeps.setSuspect
    | with_reducible apply Keeps.alarm
    | with_reducible apply Keeps.updFlt
    | with_reducible apply Keeps.forwardEntry
    | with_reducible apply Keeps.ite_
    | split
    | (refine Keeps.lit ?_ rfl rfl id id id id id; first | with_reducible assumption | with_reducible apply Keeps.setSuspect | with_reducible apply Keeps.alarm | with_reducible apply Keeps.updFlt | with_reducible apply Keeps.forwardEntry | with_reducible apply Keeps.ite_ | split)
    | assumption
    | intro _
    | dsimp only)

theorem Keeps.detect {d : DevAddr} {res reason : Byte} {part : Nat} {s0 s : State}  (hK : Keeps s0 s) : Keeps s0 (detect d res reason part s) := by
  unfold Sys2Proof.Machine.detect
  repeat' (first
    | with_reducible assumption
    | exact fun _ hx => hx
    | exact fun _ => rfl
    | with_reducible apply Keeps.noteSuspect
    | with_reducible apply Keeps.ite_
    | split
    | (refine Keeps.lit ?_ rfl rfl id id id id id; first | with_reducible assumption | with_reducible apply Keeps.noteSuspect | with_reducible apply Keeps.ite_ | split)
    | assumption
    | intro _
    | dsimp only)

theorem Keeps.execSuspectReport {r : SuspectRep} {s0 s tK : State} (eK : execSuspectReport r s = .next tK) (hK : Keeps s0 s) : Keeps s0 tK := by
  unfold Sys2Proof.Machine.execSuspectReport at eK
  cases eK
  repeat' (first
    | with_reducible assumption
    | exact fun _ hx => hx
    | exact fun _ => rfl
    | with_reducible apply Keeps.noteSuspect
    | with_reducible apply Keeps.ite_
    | split
    | (refine Keeps.lit ?_ rfl rfl id id id id id; first | with_reducible assumption | with_reducible apply Keeps.noteSuspect | with_reducible apply Keeps.ite_ | split)
    | assumption
    | intro _
    | dsimp only)

theorem Keeps.accused {r : SuspectRep} {s0 s : State}  (hK : Keeps s0 s) : Keeps s0 (accused r s) := by
  unfold Sys2Proof.Machine.accused
  repeat' (first
    | with_reducible assumption
    | exact fun _ hx => hx
    | exact fun _ => rfl
    | with_reducible apply Keeps.updFlt
    | with_reducible apply Keeps.logR
    | with_reducible apply Keeps.alarm
    | with_reducible apply Keeps.ite_
    | split
    | (refine Keeps.lit ?_ rfl rfl id id id id id; first | with_reducible assumption | with_reducible apply Keeps.updFlt | with_reducible apply Keeps.logR | with_reducible apply Keeps.alarm | with_reducible apply Keeps.ite_ | split)
    | assumption
    | intro _
    | dsimp only)

theorem Keeps.execPeerAccused {r : SuspectRep} {s0 s tK : State} (eK : execPeerAccused r s = .next tK) (hK : Keeps s0 s) : Keeps s0 tK := by
  unfold Sys2Proof.Machine.execPeerAccused at eK
  cases eK
  repeat' (first
    | with_reducible assumption
    | exact fun _ hx => hx
    | exact fun _ => rfl
    | with_reducible apply Keeps.accused
    | with_reducible apply Keeps.ite_
    | split
    | (refine Keeps.lit ?_ rfl rfl id id id id id; first | with_reducible assumption | with_reducible apply Keeps.accused | with_reducible apply Keeps.ite_ | split)
    | assumption
    | intro _
    | dsimp only)

theorem Keeps.execSuspectForward {e : Fin 64} {s0 s tK : State} (eK : execSuspectForward e s = .next tK) (hK : Keeps s0 s) : Keeps s0 tK := by
  unfold Sys2Proof.Machine.execSuspectForward at eK
  cases eK
  repeat' (first
    | with_reducible assumption
    | exact fun _ hx => hx
    | exact fun _ => rfl
    | with_reducible apply Keeps.forwardEntry
    | with_reducible apply Keeps.ite_
    | split
    | (refine Keeps.lit ?_ rfl rfl id id id id id; first | with_reducible assumption | with_reducible apply Keeps.forwardEntry | with_reducible apply Keeps.ite_ | split)
    | assumption
    | intro _
    | dsimp only)

theorem Keeps.execSuspectExpiry {e : Fin 64} {s0 s tK : State} (eK : execSuspectExpiry e s = .next tK) (hK : Keeps s0 s) : Keeps s0 tK := by
  unfold Sys2Proof.Machine.execSuspectExpiry at eK
  cases eK
  repeat' (first
    | with_reducible assumption
    | exact fun _ hx => hx
    | exact fun _ => rfl
    | with_reducible apply Keeps.setSuspect
    | with_reducible refine Keeps.whenS (fun _ _ => ?_) ?_
    | with_reducible apply Keeps.forwardEntry
    | with_reducible apply Keeps.ite_
    | split
    | (refine Keeps.lit ?_ rfl rfl id id id id id; first | with_reducible assumption | with_reducible apply Keeps.setSuspect | with_reducible refine Keeps.whenS (fun _ _ => ?_) ?_ | with_reducible apply Keeps.forwardEntry | with_reducible apply Keeps.ite_ | split)
    | assumption
    | intro _
    | dsimp only)

end Sys2Proof.Machine
end

