-- ==== Sys2Proof/Laws/KeepsLinks.lean ====
section
/-! SUPPORT. What the operations of Machine/Links.lean keep: the queue, the modes and the canonical stores. -/

set_option linter.unusedTactic false
set_option linter.unreachableTactic false

namespace Sys2Proof.Machine

theorem Keeps.takeAck {i : PortId} {f : Flit} {s0 s : State}  (hK : Keeps s0 s) : Keeps s0 (takeAck i f s) := by
  unfold Sys2Proof.Machine.takeAck
  repeat' (first
    | with_reducible assumption
    | exact fun _ hx => hx
    | exact fun _ => rfl
    | with_reducible apply Keeps.updPort
    | with_reducible refine Keeps.whenS (fun _ _ => ?_) ?_
    | with_reducible apply Keeps.resend
    | with_reducible refine Keeps.forAll (fun _ _ _ => ?_) ?_
    | with_reducible apply Keeps.pumpAcks
    | with_reducible apply Keeps.portPump
    | with_reducible apply Keeps.ite_
    | split
    | (refine Keeps.lit ?_ rfl rfl id id id id id; first | with_reducible assumption | with_reducible apply Keeps.updPort | with_reducible refine Keeps.whenS (fun _ _ => ?_) ?_ | with_reducible apply Keeps.resend | with_reducible refine Keeps.forAll (fun _ _ _ => ?_) ?_ | with_reducible apply Keeps.pumpAcks | with_reducible apply Keeps.portPump | with_reducible apply Keeps.ite_ | split)
    | assumption
    | intro _
    | dsimp only)

theorem Keeps.sendNak {i : PortId} {s0 s : State}  (hK : Keeps s0 s) : Keeps s0 (sendNak i s) := by
  unfold Sys2Proof.Machine.sendNak
  repeat' (first
    | with_reducible assumption
    | exact fun _ hx => hx
    | exact fun _ => rfl
    | with_reducible apply Keeps.emit
    | with_reducible apply Keeps.updPort
    | with_reducible apply Keeps.ite_
    | split
    | (refine Keeps.lit ?_ rfl rfl id id id id id; first | with_reducible assumption | with_reducible apply Keeps.emit | with_reducible apply Keeps.updPort | with_reducible apply Keeps.ite_ | split)
    | assumption
    | intro _
    | dsimp only)

theorem Keeps.returnCredit {i : PortId} {f : Flit} {s0 s : State}  (hK : Keeps s0 s) : Keeps s0 (returnCredit i f s) := by
  unfold Sys2Proof.Machine.returnCredit
  repeat' (first
    | with_reducible assumption
    | exact fun _ hx => hx
    | exact fun _ => rfl
    | with_reducible apply Keeps.emit
    | with_reducible apply Keeps.ite_
    | split
    | (refine Keeps.lit ?_ rfl rfl id id id id id; first | with_reducible assumption | with_reducible apply Keeps.emit | with_reducible apply Keeps.ite_ | split)
    | assumption
    | intro _
    | dsimp only)

theorem Keeps.transitFlit {i : PortId} {f : Flit} {dst : Option DevAddr} {s0 s : State}  (hK : Keeps s0 s) : Keeps s0 (transitFlit i f dst s) := by
  unfold Sys2Proof.Machine.transitFlit
  repeat' (first
    | with_reducible assumption
    | exact fun _ hx => hx
    | exact fun _ => rfl
    | with_reducible apply Keeps.updPort
    | with_reducible apply Keeps.returnCredit
    | with_reducible apply Keeps.portPump
    | with_reducible apply Keeps.ite_
    | split
    | (refine Keeps.lit ?_ rfl rfl id id id id id; first | with_reducible assumption | with_reducible apply Keeps.updPort | with_reducible apply Keeps.returnCredit | with_reducible apply Keeps.portPump | with_reducible apply Keeps.ite_ | split)
    | assumption
    | intro _
    | dsimp only)

theorem Keeps.execFlitReceive {port : PortId} {fl : Flit} {s0 s tK : State} (eK : execFlitReceive port fl s = .next tK) (hK : Keeps s0 s) : Keeps s0 tK := by
  unfold Sys2Proof.Machine.execFlitReceive at eK
  cases eK
  repeat' (first
    | with_reducible assumption
    | exact fun _ hx => hx
    | exact fun _ => rfl
    | with_reducible apply Keeps.sendNak
    | with_reducible apply Keeps.takeAck
    | with_reducible apply Keeps.updPort
    | with_reducible apply Keeps.emit
    | with_reducible apply Keeps.returnCredit
    | with_reducible apply Keeps.transitFlit
    | with_reducible apply Keeps.ite_
    | split
    | (refine Keeps.lit ?_ rfl rfl id id id id id; first | with_reducible assumption | with_reducible apply Keeps.sendNak | with_reducible apply Keeps.takeAck | with_reducible apply Keeps.updPort | with_reducible apply Keeps.emit | with_reducible apply Keeps.returnCredit | with_reducible apply Keeps.transitFlit | with_reducible apply Keeps.ite_ | split)
    | assumption
    | intro _
    | dsimp only)

theorem Keeps.portEvent {i : PortId} {kind eclass : Nat} {s0 s : State}  (hK : Keeps s0 s) : Keeps s0 (portEvent i kind eclass s) := by
  unfold Sys2Proof.Machine.portEvent
  repeat' (first
    | with_reducible assumption
    | exact fun _ hx => hx
    | exact fun _ => rfl
    | with_reducible apply Keeps.logR
    | with_reducible apply Keeps.ite_
    | split
    | (refine Keeps.lit ?_ rfl rfl id id id id id; first | with_reducible assumption | with_reducible apply Keeps.logR | with_reducible apply Keeps.ite_ | split)
    | assumption
    | intro _
    | dsimp only)

theorem Keeps.execRetrain {port : PortId} {cause : RetrainCause} {s0 s tK : State} (eK : execRetrain port cause s = .next tK) (hK : Keeps s0 s) : Keeps s0 tK := by
  unfold Sys2Proof.Machine.execRetrain at eK
  cases eK
  repeat' (first
    | with_reducible assumption
    | exact fun _ hx => hx
    | exact fun _ => rfl
    | with_reducible apply Keeps.updPort
    | with_reducible apply Keeps.portEvent
    | with_reducible apply Keeps.ite_
    | split
    | (refine Keeps.lit ?_ rfl rfl id id id id id; first | with_reducible assumption | with_reducible apply Keeps.updPort | with_reducible apply Keeps.portEvent | with_reducible apply Keeps.ite_ | split)
    | assumption
    | intro _
    | dsimp only)

theorem Keeps.execRetrainComplete {port : PortId} {s0 s tK : State} (eK : execRetrainComplete port s = .next tK) (hK : Keeps s0 s) : Keeps s0 tK := by
  unfold Sys2Proof.Machine.execRetrainComplete at eK
  cases eK
  repeat' (first
    | with_reducible assumption
    | exact fun _ hx => hx
    | exact fun _ => rfl
    | with_reducible apply Keeps.updPort
    | with_reducible apply Keeps.portPump
    | with_reducible apply Keeps.resend
    | with_reducible apply Keeps.ite_
    | split
    | (refine Keeps.lit ?_ rfl rfl id id id id id; first | with_reducible assumption | with_reducible apply Keeps.updPort | with_reducible apply Keeps.portPump | with_reducible apply Keeps.resend | with_reducible apply Keeps.ite_ | split)
    | assumption
    | intro _
    | dsimp only)

theorem Keeps.dropTransit {o : PortId} {s0 s : State}  (hK : Keeps s0 s) : Keeps s0 (dropTransit o s) := by
  unfold Sys2Proof.Machine.dropTransit
  repeat' (first
    | with_reducible assumption
    | exact fun _ hx => hx
    | exact fun _ => rfl
    | with_reducible apply Keeps.updPort
    | with_reducible refine Keeps.forAll (fun _ _ _ => ?_) ?_
    | with_reducible apply Keeps.emit
    | with_reducible apply Keeps.ite_
    | split
    | (refine Keeps.lit ?_ rfl rfl id id id id id; first | with_reducible assumption | with_reducible apply Keeps.updPort | with_reducible refine Keeps.forAll (fun _ _ _ => ?_) ?_ | with_reducible apply Keeps.emit | with_reducible apply Keeps.ite_ | split)
    | assumption
    | intro _
    | dsimp only)

theorem Keeps.takeDown {i : PortId} {s0 s : State}  (hK : Keeps s0 s) : Keeps s0 (takeDown i s) := by
  unfold Sys2Proof.Machine.takeDown
  repeat' (first
    | with_reducible assumption
    | exact fun _ hx => hx
    | exact fun _ => rfl
    | with_reducible apply Keeps.dropTransit
    | with_reducible apply Keeps.updPort
    | with_reducible apply Keeps.alarm
    | with_reducible apply Keeps.portEvent
    | with_reducible apply Keeps.detect
    | with_reducible refine Keeps.forAll (fun _ _ _ => ?_) ?_
    | with_reducible apply Keeps.abortTask
    | with_reducible apply Keeps.ite_
    | split
    | (refine Keeps.lit ?_ rfl rfl id id id id id; first | with_reducible assumption | with_reducible apply Keeps.dropTransit | with_reducible apply Keeps.updPort | with_reducible apply Keeps.alarm | with_reducible apply Keeps.portEvent | with_reducible apply Keeps.detect | with_reducible refine Keeps.forAll (fun _ _ _ => ?_) ?_ | with_reducible apply Keeps.abortTask | with_reducible apply Keeps.ite_ | split)
    | assumption
    | intro _
    | dsimp only)

theorem Keeps.execPortDown {port : PortId} {s0 s tK : State} (eK : execPortDown port s = .next tK) (hK : Keeps s0 s) : Keeps s0 tK := by
  unfold Sys2Proof.Machine.execPortDown at eK
  cases eK
  repeat' (first
    | with_reducible assumption
    | exact fun _ hx => hx
    | exact fun _ => rfl
    | with_reducible apply Keeps.takeDown
    | with_reducible apply Keeps.ite_
    | split
    | (refine Keeps.lit ?_ rfl rfl id id id id id; first | with_reducible assumption | with_reducible apply Keeps.takeDown | with_reducible apply Keeps.ite_ | split)
    | assumption
    | intro _
    | dsimp only)

theorem Keeps.startTraining {i : PortId} {s0 s : State}  (hK : Keeps s0 s) : Keeps s0 (startTraining i s) := by
  unfold Sys2Proof.Machine.startTraining
  repeat' (first
    | with_reducible assumption
    | exact fun _ hx => hx
    | exact fun _ => rfl
    | with_reducible apply Keeps.updPort
    | with_reducible refine Keeps.whenS (fun _ _ => ?_) ?_
    | with_reducible apply Keeps.emit
    | with_reducible apply Keeps.ite_
    | split
    | (refine Keeps.lit ?_ rfl rfl id id id id id; first | with_reducible assumption | with_reducible apply Keeps.updPort | with_reducible refine Keeps.whenS (fun _ _ => ?_) ?_ | with_reducible apply Keeps.emit | with_reducible apply Keeps.ite_ | split)
    | assumption
    | intro _
    | dsimp only)

theorem Keeps.execPortTrain {m : Master} {port : PortId} {s0 s tK : State} (eK : execPortTrain m port s = .next tK) (hK : Keeps s0 s) : Keeps s0 tK := by
  unfold Sys2Proof.Machine.execPortTrain at eK
  cases eK
  repeat' (first
    | with_reducible assumption
    | exact fun _ hx => hx
    | exact fun _ => rfl
    | with_reducible refine Keeps.ownerOnly (fun _ _ => ?_) ?_
    | with_reducible apply Keeps.startTraining
    | with_reducible apply Keeps.ite_
    | split
    | (refine Keeps.lit ?_ rfl rfl id id id id id; first | with_reducible assumption | with_reducible refine Keeps.ownerOnly (fun _ _ => ?_) ?_ | with_reducible apply Keeps.startTraining | with_reducible apply Keeps.ite_ | split)
    | assumption
    | intro _
    | dsimp only)

theorem Keeps.execTrainingComplete {port : PortId} {far : DevAddr} {farPort : PortId} {tag : W64} {s0 s tK : State} (eK : execTrainingComplete port far farPort tag s = .next tK) (hK : Keeps s0 s) : Keeps s0 tK := by
  unfold Sys2Proof.Machine.execTrainingComplete at eK
  cases eK
  repeat' (first
    | with_reducible assumption
    | exact fun _ hx => hx
    | exact fun _ => rfl
    | with_reducible apply Keeps.updPort
    | with_reducible apply Keeps.portEvent
    | with_reducible apply Keeps.logR
    | with_reducible apply Keeps.detect
    | with_reducible apply Keeps.alarm
    | with_reducible apply Keeps.ite_
    | split
    | (refine Keeps.lit ?_ rfl rfl id id id id id; first | with_reducible assumption | with_reducible apply Keeps.updPort | with_reducible apply Keeps.portEvent | with_reducible apply Keeps.logR | with_reducible apply Keeps.detect | with_reducible apply Keeps.alarm | with_reducible apply Keeps.ite_ | split)
    | assumption
    | intro _
    | dsimp only)

theorem Keeps.updQp {i : PortId} {qp : Nat} {f : QPair → QPair} {s0 s : State}  (hK : Keeps s0 s) : Keeps s0 (updQp i qp f s) := by
  unfold Sys2Proof.Machine.updQp
  repeat' (first
    | with_reducible assumption
    | exact fun _ hx => hx
    | exact fun _ => rfl
    | with_reducible apply Keeps.updPort
    | with_reducible apply Keeps.ite_
    | split
    | (refine Keeps.lit ?_ rfl rfl id id id id id; first | with_reducible assumption | with_reducible apply Keeps.updPort | with_reducible apply Keeps.ite_ | split)
    | assumption
    | intro _
    | dsimp only)

theorem Keeps.ensureQp {i : PortId} {dest : Nat} {s0 s : State}  (hK : Keeps s0 s) : Keeps s0 (ensureQp i dest s) := by
  unfold Sys2Proof.Machine.ensureQp
  repeat' (first
    | with_reducible assumption
    | exact fun _ hx => hx
    | exact fun _ => rfl
    | with_reducible apply Keeps.updPort
    | with_reducible apply Keeps.ite_
    | split
    | (refine Keeps.lit ?_ rfl rfl id id id id id; first | with_reducible assumption | with_reducible apply Keeps.updPort | with_reducible apply Keeps.ite_ | split)
    | assumption
    | intro _
    | dsimp only)

theorem Keeps.addWrite {i : PortId} {dest n : Nat} {w : QWrite} {s0 s : State}  (hK : Keeps s0 s) : Keeps s0 (addWrite i dest n w s) := by
  unfold Sys2Proof.Machine.addWrite
  repeat' (first
    | with_reducible assumption
    | exact fun _ hx => hx
    | exact fun _ => rfl
    | with_reducible apply Keeps.updPort
    | with_reducible apply Keeps.ite_
    | split
    | (refine Keeps.lit ?_ rfl rfl id id id id id; first | with_reducible assumption | with_reducible apply Keeps.updPort | with_reducible apply Keeps.ite_ | split)
    | assumption
    | intro _
    | dsimp only)

theorem Keeps.segsAcked {qs : List QWrite} {s0 s : State}  (hK : Keeps s0 s) : Keeps s0 (segsAcked qs s) := by
  unfold Sys2Proof.Machine.segsAcked
  repeat' (first
    | with_reducible assumption
    | exact fun _ hx => hx
    | exact fun _ => rfl
    | with_reducible refine Keeps.forAll (fun _ _ _ => ?_) ?_
    | with_reducible apply Keeps.updPart
    | with_reducible apply Keeps.ite_
    | split
    | (refine Keeps.lit ?_ rfl rfl id id id id id; first | with_reducible assumption | with_reducible refine Keeps.forAll (fun _ _ _ => ?_) ?_ | with_reducible apply Keeps.updPart | with_reducible apply Keeps.ite_ | split)
    | assumption
    | intro _
    | dsimp only)

theorem Keeps.qpTick  {s0 s : State}  (hK : Keeps s0 s) : Keeps s0 (qpTick s) := by
  unfold Sys2Proof.Machine.qpTick
  repeat' (first
    | with_reducible assumption
    | exact fun _ hx => hx
    | exact fun _ => rfl
    | with_reducible refine Keeps.forAll (fun _ _ _ => ?_) ?_
    | with_reducible apply Keeps.updPort
    | with_reducible apply Keeps.ite_
    | split
    | (refine Keeps.lit ?_ rfl rfl id id id id id; first | with_reducible assumption | with_reducible refine Keeps.forAll (fun _ _ _ => ?_) ?_ | with_reducible apply Keeps.updPort | with_reducible apply Keeps.ite_ | split)
    | assumption
    | intro _
    | dsimp only)

theorem Keeps.execRoceAck {port : PortId} {qp : BitVec 12} {upto : Nat} {s0 s tK : State} (eK : execRoceAck port qp upto s = .next tK) (hK : Keeps s0 s) : Keeps s0 tK := by
  unfold Sys2Proof.Machine.execRoceAck at eK
  cases eK
  repeat' (first
    | with_reducible assumption
    | exact fun _ hx => hx
    | exact fun _ => rfl
    | with_reducible apply Keeps.segsAcked
    | with_reducible apply Keeps.updQp
    | with_reducible apply Keeps.ite_
    | split
    | (refine Keeps.lit ?_ rfl rfl id id id id id; first | with_reducible assumption | with_reducible apply Keeps.segsAcked | with_reducible apply Keeps.updQp | with_reducible apply Keeps.ite_ | split)
    | assumption
    | intro _
    | dsimp only)

theorem Keeps.execCongestionNotification {port : PortId} {qp : BitVec 12} {s0 s tK : State} (eK : execCongestionNotification port qp s = .next tK) (hK : Keeps s0 s) : Keeps s0 tK := by
  unfold Sys2Proof.Machine.execCongestionNotification at eK
  cases eK
  repeat' (first
    | with_reducible assumption
    | exact fun _ hx => hx
    | exact fun _ => rfl
    | with_reducible apply Keeps.updQp
    | with_reducible apply Keeps.ite_
    | split
    | (refine Keeps.lit ?_ rfl rfl id id id id id; first | with_reducible assumption | with_reducible apply Keeps.updQp | with_reducible apply Keeps.ite_ | split)
    | assumption
    | intro _
    | dsimp only)

theorem Keeps.execRoceRetryTimeout {port : PortId} {qp : BitVec 12} {s0 s tK : State} (eK : execRoceRetryTimeout port qp s = .next tK) (hK : Keeps s0 s) : Keeps s0 tK := by
  unfold Sys2Proof.Machine.execRoceRetryTimeout at eK
  cases eK
  repeat' (first
    | with_reducible assumption
    | exact fun _ hx => hx
    | exact fun _ => rfl
    | with_reducible apply Keeps.emit
    | with_reducible apply Keeps.updQp
    | with_reducible refine Keeps.forAll (fun _ _ _ => ?_) ?_
    | with_reducible apply Keeps.abortTask
    | with_reducible apply Keeps.ite_
    | split
    | (refine Keeps.lit ?_ rfl rfl id id id id id; first | with_reducible assumption | with_reducible apply Keeps.emit | with_reducible apply Keeps.updQp | with_reducible refine Keeps.forAll (fun _ _ _ => ?_) ?_ | with_reducible apply Keeps.abortTask | with_reducible apply Keeps.ite_ | split)
    | assumption
    | intro _
    | dsimp only)

theorem Keeps.execForeignRequestDrop {port : PortId} {s0 s tK : State} (eK : execForeignRequestDrop port s = .next tK) (hK : Keeps s0 s) : Keeps s0 tK := by
  unfold Sys2Proof.Machine.execForeignRequestDrop at eK
  cases eK
  repeat' (first
    | with_reducible assumption
    | exact fun _ hx => hx
    | exact fun _ => rfl
    | with_reducible apply Keeps.updPort
    | with_reducible apply Keeps.ite_
    | split
    | (refine Keeps.lit ?_ rfl rfl id id id id id; first | with_reducible assumption | with_reducible apply Keeps.updPort | with_reducible apply Keeps.ite_ | split)
    | assumption
    | intro _
    | dsimp only)

theorem Keeps.execPriorityFlowControl {port : PortId} {prio : Byte} {pause : Bool} {s0 s tK : State} (eK : execPriorityFlowControl port prio pause s = .next tK) (hK : Keeps s0 s) : Keeps s0 tK := by
  unfold Sys2Proof.Machine.execPriorityFlowControl at eK
  cases eK
  repeat' (first
    | with_reducible assumption
    | exact fun _ hx => hx
    | exact fun _ => rfl
    | with_reducible apply Keeps.updPort
    | with_reducible apply Keeps.ite_
    | split
    | (refine Keeps.lit ?_ rfl rfl id id id id id; first | with_reducible assumption | with_reducible apply Keeps.updPort | with_reducible apply Keeps.ite_ | split)
    | assumption
    | intro _
    | dsimp only)

end Sys2Proof.Machine
end

