-- ==== Sys2Proof/Laws/KeepsCollective.lean ====
section
/-! SUPPORT. What the operations of Machine/Collective.lean keep: the queue, the modes and the canonical stores. -/

set_option linter.unusedTactic false
set_option linter.unreachableTactic false

namespace Sys2Proof.Machine

theorem Keeps.execWrite {h : PktHdr} {data : List Byte} {s0 s tK : State} (eK : execWrite h data s = .next tK) (hK : Keeps s0 s) : Keeps s0 tK := by
  unfold Sys2Proof.Machine.execWrite at eK
  cases eK
  repeat' (first
    | with_reducible assumption
    | exact fun _ hx => hx
    | exact fun _ => rfl
    | with_reducible apply Keeps.tierWrite
    | with_reducible apply Keeps.ite_
    | split
    | (refine Keeps.lit ?_ rfl rfl id id id id id; first | with_reducible assumption | with_reducible apply Keeps.tierWrite | with_reducible apply Keeps.ite_ | split)
    | assumption
    | intro _
    | dsimp only)

theorem Keeps.execSegment {h : PktHdr} {data : List Byte} {s0 s tK : State} (eK : execSegment h data s = .next tK) (hK : Keeps s0 s) : Keeps s0 tK := by
  unfold Sys2Proof.Machine.execSegment at eK
  cases eK
  repeat' (first
    | with_reducible assumption
    | exact fun _ hx => hx
    | exact fun _ => rfl
    | with_reducible apply Keeps.tierWrite
    | with_reducible apply Keeps.ite_
    | split
    | (refine Keeps.lit ?_ rfl rfl id id id id id; first | with_reducible assumption | with_reducible apply Keeps.tierWrite | with_reducible apply Keeps.ite_ | split)
    | assumption
    | intro _
    | dsimp only)

theorem Keeps.discardPiece {p : PartId} {reason : Nat} {h : PktHdr} {s0 s : State}  (hK : Keeps s0 s) : Keeps s0 (discardPiece p reason h s) := by
  unfold Sys2Proof.Machine.discardPiece
  repeat' (first
    | with_reducible assumption
    | exact fun _ hx => hx
    | exact fun _ => rfl
    | with_reducible apply Keeps.updFlt
    | with_reducible apply Keeps.logR
    | with_reducible apply Keeps.detect
    | with_reducible apply Keeps.ite_
    | split
    | (refine Keeps.lit ?_ rfl rfl id id id id id; first | with_reducible assumption | with_reducible apply Keeps.updFlt | with_reducible apply Keeps.logR | with_reducible apply Keeps.detect | with_reducible apply Keeps.ite_ | split)
    | assumption
    | intro _
    | dsimp only)

theorem Keeps.execPiece {port : PortId} {h : PktHdr} {data : List Byte} {s0 s tK : State} (eK : execPiece port h data s = .next tK) (hK : Keeps s0 s) : Keeps s0 tK := by
  unfold Sys2Proof.Machine.execPiece at eK
  cases eK
  repeat' (first
    | with_reducible assumption
    | exact fun _ hx => hx
    | exact fun _ => rfl
    | with_reducible apply Keeps.discardPiece
    | with_reducible apply Keeps.landPiece
    | with_reducible apply Keeps.detect
    | with_reducible apply Keeps.abortTask
    | with_reducible apply Keeps.updGroup
    | with_reducible apply Keeps.ite_
    | split
    | (refine Keeps.lit ?_ rfl rfl id id id id id; first | with_reducible assumption | with_reducible apply Keeps.discardPiece | with_reducible apply Keeps.landPiece | with_reducible apply Keeps.detect | with_reducible apply Keeps.abortTask | with_reducible apply Keeps.updGroup | with_reducible apply Keeps.ite_ | split)
    | assumption
    | intro _
    | dsimp only)

theorem Keeps.execLocalTileLand {p : PartId} {port : PortId} {c : CoreId} {xd : BitVec 9} {tile : Nat} {s0 s tK : State} (eK : execLocalTileLand p port c xd tile s = .next tK) (hK : Keeps s0 s) : Keeps s0 tK := by
  unfold Sys2Proof.Machine.execLocalTileLand at eK
  cases eK
  repeat' (first
    | with_reducible assumption
    | exact wrBytes_wf _ _ _ (by assumption)
    | exact fun _ hx => hx
    | exact fun _ => rfl
    | with_reducible apply Keeps.updPart
    | with_reducible apply Keeps.updGroup
    | with_reducible apply Keeps.ite_
    | split
    | (refine Keeps.lit ?_ rfl rfl id id id id id; first | with_reducible assumption | exact wrBytes_wf _ _ _ (by assumption) | with_reducible apply Keeps.updPart | with_reducible apply Keeps.updGroup | with_reducible apply Keeps.ite_ | split)
    | assumption
    | intro _
    | dsimp only)

theorem Keeps.deliverPiece {p : PartId} {port slot : Nat} {o : TrigOp} {data : List Byte} {s0 s : State}  (hK : Keeps s0 s) : Keeps s0 (deliverPiece p port slot o data s) := by
  unfold Sys2Proof.Machine.deliverPiece
  repeat' (first
    | with_reducible assumption
    | exact fun _ hx => hx
    | exact fun _ => rfl
    | with_reducible apply Keeps.toMesh
    | with_reducible refine Keeps.forAll (fun _ _ _ => ?_) ?_
    | with_reducible apply Keeps.logR
    | with_reducible apply Keeps.updFlt
    | with_reducible apply Keeps.ite_
    | split
    | (refine Keeps.lit ?_ rfl rfl id id id id id; first | with_reducible assumption | with_reducible apply Keeps.toMesh | with_reducible refine Keeps.forAll (fun _ _ _ => ?_) ?_ | with_reducible apply Keeps.logR | with_reducible apply Keeps.updFlt | with_reducible apply Keeps.ite_ | split)
    | assumption
    | intro _
    | dsimp only)

theorem Keeps.sendOp {p : PartId} {port slot : Nat} {g : Group} {i : Nat × Exch} {o : TrigOp} {h : PktHdr} {data : List Byte} {s0 s : State} (hK : Keeps s0 s) :
    Keeps.Opt s0 (sendOp p port slot g i o h data s) := by
  unfold Sys2Proof.Machine.sendOp
  dsimp only
  split
  · exact Keeps.Opt.some_ (Keeps.abortTask hK)
  · refine Keeps.Opt.ite_ (Keeps.Opt.some_ (Keeps.abortTask hK)) (Keeps.Opt.ite_ Keeps.Opt.none_ (Keeps.Opt.ite_ (Keeps.Opt.some_ (Keeps.updGroup (Keeps.inject_get hK))) Keeps.Opt.none_))

theorem Keeps.startDeliver {p : PartId} {port slot : Nat} {o : TrigOp} {data : List Byte} {s0 s : State}  (hK : Keeps s0 s) : Keeps s0 (startDeliver p port slot o data s) := by
  unfold Sys2Proof.Machine.startDeliver
  repeat' (first
    | with_reducible assumption
    | exact fun _ hx => hx
    | exact fun _ => rfl
    | with_reducible apply Keeps.deliverPiece
    | with_reducible apply Keeps.deliverDone
    | with_reducible apply Keeps.ite_
    | split
    | (refine Keeps.lit ?_ rfl rfl id id id id id; first | with_reducible assumption | with_reducible apply Keeps.deliverPiece | with_reducible apply Keeps.deliverDone | with_reducible apply Keeps.ite_ | split)
    | assumption
    | intro _
    | dsimp only)

theorem Keeps.fireOp {p : PartId} {port slot : Nat} {g : Group} {i : Nat × Exch} {o : TrigOp} {s0 s : State} (hK : Keeps s0 s) :
    Keeps.Opt s0 (fireOp p port slot g i o s) := by
  unfold Sys2Proof.Machine.fireOp
  extract_lets x len la loc da landed dl u h keep act
  have hkeep : ∀ l, Keeps.Opt s0 (some (keep l s)) := fun l => Keeps.Opt.some_ (Keeps.updPart hK (fun x hx => wrBytes_wf _ _ _ hx))
  have hact : Keeps.Opt s0 act := by
    unfold act
    split
    · exact Keeps.sendOp hK
    · exact Keeps.sendOp hK
    · exact hkeep _
    · exact Keeps.sendOp hK
    · exact Keeps.Opt.some_ hK
    · exact Keeps.Opt.map_ (Keeps.sendOp hK) (fun _ hu => Keeps.updPort hu)
    · exact hkeep _
    · exact Keeps.Opt.some_ hK
  clear_value act u
  refine Keeps.Opt.map_ hact (fun w hw => ?_)
  have hf : Keeps s0 (Machine.updOp p port slot (fun o => { o with fired := o.fired + 1 }) w) := Keeps.updOp hw
  dsimp only
  generalize Machine.updOp p port slot (fun o => { o with fired := o.fired + 1 }) w = v at hf ⊢
  split
  · exact Keeps.startDeliver hf
  · split <;> split <;> first | exact hf | exact Keeps.consumePiece hf | exact Keeps.opDone hf | exact Keeps.opDone (Keeps.consumePiece hf)

theorem Keeps.tryFire {p : PartId} {port slot : Nat} {o : TrigOp} {s0 s : State} (hK : Keeps s0 s) : Keeps.Opt s0 (tryFire p port slot o s) := by
  unfold Sys2Proof.Machine.tryFire
  dsimp only
  refine Keeps.Opt.ite_ Keeps.Opt.none_ ?_
  split
  · exact Keeps.Opt.none_
  · split
    · exact Keeps.Opt.none_
    · exact Keeps.fireOp hK

theorem Keeps.execTriggeredOpFire {p : PartId} {port : PortId} {slot : Fin 1024} {s0 s tK : State} (eK : execTriggeredOpFire p port slot s = .next tK) (hK : Keeps s0 s) : Keeps s0 tK := by
  unfold Sys2Proof.Machine.execTriggeredOpFire at eK
  cases eK
  repeat' (first
    | with_reducible assumption
    | exact fun _ hx => hx
    | exact fun _ => rfl
    | with_reducible apply Keeps.meetStep
    | with_reducible apply Keeps.ite_
    | refine Keeps.tryFire ?_ _ (by with_reducible assumption)
    | split
    | (refine Keeps.lit ?_ rfl rfl id id id id id; first | with_reducible assumption | with_reducible apply Keeps.meetStep | with_reducible apply Keeps.ite_ | refine Keeps.tryFire ?_ _ (by with_reducible assumption) | split)
    | assumption
    | intro _
    | dsimp only)

theorem Keeps.execAck {_port : PortId} {h : PktHdr} {s0 s tK : State} (eK : execAck _port h s = .next tK) (hK : Keeps s0 s) : Keeps s0 tK := by
  unfold Sys2Proof.Machine.execAck at eK
  cases eK
  repeat' (first
    | with_reducible assumption
    | exact fun _ hx => hx
    | exact fun _ => rfl
    | with_reducible apply Keeps.updGroup
    | with_reducible apply Keeps.meetStep
    | with_reducible apply Keeps.opDone
    | with_reducible apply Keeps.ite_
    | split
    | (refine Keeps.lit ?_ rfl rfl id id id id id; first | with_reducible assumption | with_reducible apply Keeps.updGroup | with_reducible apply Keeps.meetStep | with_reducible apply Keeps.opDone | with_reducible apply Keeps.ite_ | split)
    | assumption
    | intro _
    | dsimp only)

theorem Keeps.execCollectiveDeadline {p : PartId} {ckpt : BitVec 15} {s0 s tK : State} (eK : execCollectiveDeadline p ckpt s = .next tK) (hK : Keeps s0 s) : Keeps s0 tK := by
  unfold Sys2Proof.Machine.execCollectiveDeadline at eK
  cases eK
  repeat' (first
    | with_reducible assumption
    | exact fun _ hx => hx
    | exact fun _ => rfl
    | with_reducible apply Keeps.abortTask
    | with_reducible refine Keeps.forAll (fun _ _ _ => ?_) ?_
    | with_reducible apply Keeps.detect
    | with_reducible apply Keeps.ite_
    | split
    | (refine Keeps.lit ?_ rfl rfl id id id id id; first | with_reducible assumption | with_reducible apply Keeps.abortTask | with_reducible refine Keeps.forAll (fun _ _ _ => ?_) ?_ | with_reducible apply Keeps.detect | with_reducible apply Keeps.ite_ | split)
    | assumption
    | intro _
    | dsimp only)

theorem Keeps.execGroupCheck {p : PartId} {gid : Byte} {src : DevAddr} {check : W32} {sstate : Byte} {s0 s tK : State} (eK : execGroupCheck p gid src check sstate s = .next tK) (hK : Keeps s0 s) : Keeps s0 tK := by
  unfold Sys2Proof.Machine.execGroupCheck at eK
  cases eK
  repeat' (first
    | with_reducible assumption
    | exact fun _ hx => hx
    | exact fun _ => rfl
    | with_reducible apply Keeps.updPart
    | with_reducible apply Keeps.updGroup
    | with_reducible apply Keeps.ite_
    | split
    | (refine Keeps.lit ?_ rfl rfl id id id id id; first | with_reducible assumption | with_reducible apply Keeps.updPart | with_reducible apply Keeps.updGroup | with_reducible apply Keeps.ite_ | split)
    | assumption
    | intro _
    | dsimp only)

end Sys2Proof.Machine
end

