-- ==== Sys2Proof/Laws/KeepsTickets.lean ====
section
/-! SUPPORT. What the operations of Machine/Tickets.lean keep: the queue, the modes and the canonical stores. -/

set_option linter.unusedTactic false
set_option linter.unreachableTactic false

namespace Sys2Proof.Machine

theorem Keeps.updReq {p : PartId} {r : Req} {f : Req → Req} {s0 s : State}  (hK : Keeps s0 s) : Keeps s0 (updReq p r f s) := by
  unfold Sys2Proof.Machine.updReq
  repeat' (first
    | with_reducible assumption
    | exact fun _ hx => hx
    | exact fun _ => rfl
    | with_reducible apply Keeps.updPart
    | with_reducible apply Keeps.ite_
    | split
    | (refine Keeps.lit ?_ rfl rfl id id id id id; first | with_reducible assumption | with_reducible apply Keeps.updPart | with_reducible apply Keeps.ite_ | split)
    | assumption
    | intro _
    | dsimp only)

theorem Keeps.hostWrite {a : Nat} {l : List Byte} {s0 s : State} (hK : Keeps s0 s) : Keeps s0 (hostWrite a l s) :=
  Keeps.updMem hK (fun _ h => ⟨h.1, h.2.1, wrBytes_wf _ _ _ h.2.2⟩)

theorem Keeps.journalWrite {p : PartId} {k : Nat} {j : JRec} {s0 s : State}  (hK : Keeps s0 s) : Keeps s0 (journalWrite p k j s) := by
  unfold Sys2Proof.Machine.journalWrite
  repeat' (first
    | with_reducible assumption
    | exact fun _ hx => hx
    | exact fun _ => rfl
    | with_reducible apply Keeps.tierWrite
    | with_reducible apply Keeps.ite_
    | split
    | (refine Keeps.lit ?_ rfl rfl id id id id id; first | with_reducible assumption | with_reducible apply Keeps.tierWrite | with_reducible apply Keeps.ite_ | split)
    | assumption
    | intro _
    | dsimp only)

theorem Keeps.journalNear {p : PartId} {j : JRec} {s0 s : State}  (hK : Keeps s0 s) : Keeps s0 (journalNear p j s) := by
  unfold Sys2Proof.Machine.journalNear
  repeat' (first
    | with_reducible assumption
    | exact fun _ hx => hx
    | exact fun _ => rfl
    | with_reducible apply Keeps.updPart
    | with_reducible apply Keeps.journalWrite
    | with_reducible apply Keeps.ite_
    | split
    | (refine Keeps.lit ?_ rfl rfl id id id id id; first | with_reducible assumption | with_reducible apply Keeps.updPart | with_reducible apply Keeps.journalWrite | with_reducible apply Keeps.ite_ | split)
    | assumption
    | intro _
    | dsimp only)

theorem Keeps.ringWrite {f : FuncId} {j : JRec} {s0 s : State}  (hK : Keeps s0 s) : Keeps s0 (ringWrite f j s) := by
  unfold Sys2Proof.Machine.ringWrite
  repeat' (first
    | with_reducible assumption
    | exact fun _ hx => hx
    | exact fun _ => rfl
    | with_reducible apply Keeps.hostWrite
    | with_reducible apply Keeps.updFunc
    | with_reducible apply Keeps.ite_
    | split
    | (refine Keeps.lit ?_ rfl rfl id id id id id; first | with_reducible assumption | with_reducible apply Keeps.hostWrite | with_reducible apply Keeps.updFunc | with_reducible apply Keeps.ite_ | split)
    | assumption
    | intro _
    | dsimp only)

theorem Keeps.journalRing {f : FuncId} {j : JRec} {s0 s : State}  (hK : Keeps s0 s) : Keeps s0 (journalRing f j s) := by
  unfold Sys2Proof.Machine.journalRing
  repeat' (first
    | with_reducible assumption
    | exact fun _ hx => hx
    | exact fun _ => rfl
    | with_reducible apply Keeps.updFunc
    | with_reducible apply Keeps.ringWrite
    | with_reducible apply Keeps.ite_
    | split
    | (refine Keeps.lit ?_ rfl rfl id id id id id; first | with_reducible assumption | with_reducible apply Keeps.updFunc | with_reducible apply Keeps.ringWrite | with_reducible apply Keeps.ite_ | split)
    | assumption
    | intro _
    | dsimp only)

theorem Keeps.flushJournal {f : FuncId} {s0 s : State}  (hK : Keeps s0 s) : Keeps s0 (flushJournal f s) := by
  unfold Sys2Proof.Machine.flushJournal
  repeat' (first
    | with_reducible assumption
    | exact fun _ hx => hx
    | exact fun _ => rfl
    | with_reducible refine Keeps.forAll (fun _ _ _ => ?_) ?_
    | with_reducible apply Keeps.ringWrite
    | with_reducible apply Keeps.updFunc
    | with_reducible apply Keeps.ite_
    | split
    | (refine Keeps.lit ?_ rfl rfl id id id id id; first | with_reducible assumption | with_reducible refine Keeps.forAll (fun _ _ _ => ?_) ?_ | with_reducible apply Keeps.ringWrite | with_reducible apply Keeps.updFunc | with_reducible apply Keeps.ite_ | split)
    | assumption
    | intro _
    | dsimp only)

theorem Keeps.pushRec {f : FuncId} {c : CRec} {s0 s : State}  (hK : Keeps s0 s) : Keeps s0 (pushRec f c s) := by
  unfold Sys2Proof.Machine.pushRec
  repeat' (first
    | with_reducible assumption
    | exact fun _ hx => hx
    | exact fun _ => rfl
    | with_reducible apply Keeps.updFunc
    | with_reducible apply Keeps.ite_
    | split
    | (refine Keeps.lit ?_ rfl rfl id id id id id; first | with_reducible assumption | with_reducible apply Keeps.updFunc | with_reducible apply Keeps.ite_ | split)
    | assumption
    | intro _
    | dsimp only)

theorem Keeps.opDoneRec {f : FuncId} {reqid : W64} {failed : Bool} {s0 s : State}  (hK : Keeps s0 s) : Keeps s0 (opDoneRec f reqid failed s) := by
  unfold Sys2Proof.Machine.opDoneRec
  repeat' (first
    | with_reducible assumption
    | exact fun _ hx => hx
    | exact fun _ => rfl
    | with_reducible apply Keeps.pushRec
    | with_reducible apply Keeps.ite_
    | split
    | (refine Keeps.lit ?_ rfl rfl id id id id id; first | with_reducible assumption | with_reducible apply Keeps.pushRec | with_reducible apply Keeps.ite_ | split)
    | assumption
    | intro _
    | dsimp only)

theorem Keeps.cancelAns {f : FuncId} {reqid : W64} {unknown : Bool} {s0 s : State}  (hK : Keeps s0 s) : Keeps s0 (cancelAns f reqid unknown s) := by
  unfold Sys2Proof.Machine.cancelAns
  repeat' (first
    | with_reducible assumption
    | exact fun _ hx => hx
    | exact fun _ => rfl
    | with_reducible apply Keeps.pushRec
    | with_reducible apply Keeps.ite_
    | split
    | (refine Keeps.lit ?_ rfl rfl id id id id id; first | with_reducible assumption | with_reducible apply Keeps.pushRec | with_reducible apply Keeps.ite_ | split)
    | assumption
    | intro _
    | dsimp only)

theorem Keeps.rejectRec {f : FuncId} {reqid : W64} {reason : Nat} {s0 s : State}  (hK : Keeps s0 s) : Keeps s0 (rejectRec f reqid reason s) := by
  unfold Sys2Proof.Machine.rejectRec
  repeat' (first
    | with_reducible assumption
    | exact fun _ hx => hx
    | exact fun _ => rfl
    | with_reducible apply Keeps.pushRec
    | with_reducible apply Keeps.ite_
    | split
    | (refine Keeps.lit ?_ rfl rfl id id id id id; first | with_reducible assumption | with_reducible apply Keeps.pushRec | with_reducible apply Keeps.ite_ | split)
    | assumption
    | intro _
    | dsimp only)

theorem Keeps.releaseVersion {p : PartId} {r : Req} {s0 s : State}  (hK : Keeps s0 s) : Keeps s0 (releaseVersion p r s) := by
  unfold Sys2Proof.Machine.releaseVersion
  repeat' (first
    | with_reducible assumption
    | exact fun _ hx => hx
    | exact fun _ => rfl
    | with_reducible apply Keeps.updPart
    | with_reducible apply Keeps.ite_
    | split
    | (refine Keeps.lit ?_ rfl rfl id id id id id; first | with_reducible assumption | with_reducible apply Keeps.updPart | with_reducible apply Keeps.ite_ | split)
    | assumption
    | intro _
    | dsimp only)

theorem Keeps.writeQuality {p : PartId} {r : Req} {s0 s : State}  (hK : Keeps s0 s) : Keeps s0 (writeQuality p r s) := by
  unfold Sys2Proof.Machine.writeQuality
  repeat' (first
    | with_reducible assumption
    | exact fun _ hx => hx
    | exact fun _ => rfl
    | with_reducible apply Keeps.updReq
    | with_reducible apply Keeps.hostWrite
    | with_reducible apply Keeps.ite_
    | split
    | (refine Keeps.lit ?_ rfl rfl id id id id id; first | with_reducible assumption | with_reducible apply Keeps.updReq | with_reducible apply Keeps.hostWrite | with_reducible apply Keeps.ite_ | split)
    | assumption
    | intro _
    | dsimp only)

theorem Keeps.journalFinal {p : PartId} {r : Req} {s0 s : State}  (hK : Keeps s0 s) : Keeps s0 (journalFinal p r s) := by
  unfold Sys2Proof.Machine.journalFinal
  repeat' (first
    | with_reducible assumption
    | exact fun _ hx => hx
    | exact fun _ => rfl
    | with_reducible apply Keeps.journalNear
    | with_reducible apply Keeps.writeQuality
    | with_reducible apply Keeps.releaseVersion
    | with_reducible apply Keeps.updReq
    | with_reducible apply Keeps.ite_
    | split
    | (refine Keeps.lit ?_ rfl rfl id id id id id; first | with_reducible assumption | with_reducible apply Keeps.journalNear | with_reducible apply Keeps.writeQuality | with_reducible apply Keeps.releaseVersion | with_reducible apply Keeps.updReq | with_reducible apply Keeps.ite_ | split)
    | assumption
    | intro _
    | dsimp only)

theorem Keeps.numberRecords {p : PartId} {r : Req} {cseq : Nat} {s0 s : State}  (hK : Keeps s0 s) : Keeps s0 (numberRecords p r cseq s) := by
  unfold Sys2Proof.Machine.numberRecords
  repeat' (first
    | with_reducible assumption
    | exact fun _ hx => hx
    | exact fun _ => rfl
    | with_reducible refine Keeps.forAll (fun _ _ _ => ?_) ?_
    | with_reducible apply Keeps.updPart
    | with_reducible apply Keeps.journalWrite
    | with_reducible apply Keeps.ite_
    | split
    | (refine Keeps.lit ?_ rfl rfl id id id id id; first | with_reducible assumption | with_reducible refine Keeps.forAll (fun _ _ _ => ?_) ?_ | with_reducible apply Keeps.updPart | with_reducible apply Keeps.journalWrite | with_reducible apply Keeps.ite_ | split)
    | assumption
    | intro _
    | dsimp only)

theorem Keeps.deliver1 {p : PartId} {r : Req} {s0 s : State}  (hK : Keeps s0 s) : Keeps s0 (deliver1 p r s) := by
  unfold Sys2Proof.Machine.deliver1
  repeat' (first
    | with_reducible assumption
    | exact fun _ hx => hx
    | exact fun _ => rfl
    | with_reducible apply Keeps.writeQuality
    | with_reducible apply Keeps.journalRing
    | with_reducible apply Keeps.numberRecords
    | with_reducible apply Keeps.updFunc
    | with_reducible apply Keeps.trace
    | with_reducible apply Keeps.updReq
    | with_reducible apply Keeps.ite_
    | split
    | (refine Keeps.lit ?_ rfl rfl id id id id id; first | with_reducible assumption | with_reducible apply Keeps.writeQuality | with_reducible apply Keeps.journalRing | with_reducible apply Keeps.numberRecords | with_reducible apply Keeps.updFunc | with_reducible apply Keeps.trace | with_reducible apply Keeps.updReq | with_reducible apply Keeps.ite_ | split)
    | assumption
    | intro _
    | dsimp only)

theorem Keeps.releaseFinals {n : Nat} {p : PartId} {f : Nat} {s0 s : State} (hK : Keeps s0 s) : Keeps s0 (releaseFinals n p f s) := by
  induction n generalizing s with
  | zero => exact hK
  | succ k ih =>
    unfold Sys2Proof.Machine.releaseFinals
    split
    · exact hK
    · exact ih (Keeps.deliver1 hK)

theorem Keeps.releaseAll {p : PartId} {f : Nat} {s0 s : State}  (hK : Keeps s0 s) : Keeps s0 (releaseAll p f s) := by
  unfold Sys2Proof.Machine.releaseAll
  repeat' (first
    | with_reducible assumption
    | exact fun _ hx => hx
    | exact fun _ => rfl
    | with_reducible apply Keeps.releaseFinals
    | with_reducible apply Keeps.ite_
    | split
    | (refine Keeps.lit ?_ rfl rfl id id id id id; first | with_reducible assumption | with_reducible apply Keeps.releaseFinals | with_reducible apply Keeps.ite_ | split)
    | assumption
    | intro _
    | dsimp only)

theorem Keeps.releaseDue {p : PartId} {s0 s : State}  (hK : Keeps s0 s) : Keeps s0 (releaseDue p s) := by
  unfold Sys2Proof.Machine.releaseDue
  repeat' (first
    | with_reducible assumption
    | exact fun _ hx => hx
    | exact fun _ => rfl
    | with_reducible refine Keeps.forAll (fun _ _ _ => ?_) ?_
    | with_reducible apply Keeps.releaseAll
    | with_reducible apply Keeps.ite_
    | split
    | (refine Keeps.lit ?_ rfl rfl id id id id id; first | with_reducible assumption | with_reducible refine Keeps.forAll (fun _ _ _ => ?_) ?_ | with_reducible apply Keeps.releaseAll | with_reducible apply Keeps.ite_ | split)
    | assumption
    | intro _
    | dsimp only)

theorem Keeps.storeTable {p : PartId} {xt : Nat} {s0 s : State}  (hK : Keeps s0 s) : Keeps s0 (storeTable p xt s) := by
  unfold Sys2Proof.Machine.storeTable
  repeat' (first
    | with_reducible assumption
    | exact fun _ hx => hx
    | exact fun _ => rfl
    | with_reducible apply Keeps.tierWrite
    | with_reducible apply Keeps.ite_
    | split
    | (refine Keeps.lit ?_ rfl rfl id id id id id; first | with_reducible assumption | with_reducible apply Keeps.tierWrite | with_reducible apply Keeps.ite_ | split)
    | assumption
    | intro _
    | dsimp only)

theorem Keeps.updTable {p : PartId} {xt : Nat} {f : XTable → XTable} {s0 s : State}  (hK : Keeps s0 s) : Keeps s0 (updTable p xt f s) := by
  unfold Sys2Proof.Machine.updTable
  repeat' (first
    | with_reducible assumption
    | exact fun _ hx => hx
    | exact fun _ => rfl
    | with_reducible apply Keeps.storeTable
    | with_reducible apply Keeps.updPart
    | with_reducible apply Keeps.ite_
    | split
    | (refine Keeps.lit ?_ rfl rfl id id id id id; first | with_reducible assumption | with_reducible apply Keeps.storeTable | with_reducible apply Keeps.updPart | with_reducible apply Keeps.ite_ | split)
    | assumption
    | intro _
    | dsimp only)

theorem Keeps.settleRegion {p : PartId} {region : Nat} {s0 s : State}  (hK : Keeps s0 s) : Keeps s0 (settleRegion p region s) := by
  unfold Sys2Proof.Machine.settleRegion
  repeat' (first
    | with_reducible assumption
    | exact fun _ hx => hx
    | exact fun _ => rfl
    | with_reducible apply Keeps.updPart
    | with_reducible apply Keeps.ite_
    | split
    | (refine Keeps.lit ?_ rfl rfl id id id id id; first | with_reducible assumption | with_reducible apply Keeps.updPart | with_reducible apply Keeps.ite_ | split)
    | assumption
    | intro _
    | dsimp only)

theorem Keeps.returnBytes {p : PartId} {xt freegen : Nat} {base : W64} {bytes : Nat} {s0 s : State}  (hK : Keeps s0 s) : Keeps s0 (returnBytes p xt freegen base bytes s) := by
  unfold Sys2Proof.Machine.returnBytes
  repeat' (first
    | with_reducible assumption
    | exact fun _ hx => hx
    | exact fun _ => rfl
    | with_reducible apply Keeps.updPart
    | with_reducible apply Keeps.ite_
    | split
    | (refine Keeps.lit ?_ rfl rfl id id id id id; first | with_reducible assumption | with_reducible apply Keeps.updPart | with_reducible apply Keeps.ite_ | split)
    | assumption
    | intro _
    | dsimp only)

theorem Keeps.freeNode {v : PNode} {s0 s : State}  (hK : Keeps s0 s) : Keeps s0 (freeNode v s) := by
  unfold Sys2Proof.Machine.freeNode
  repeat' (first
    | with_reducible assumption
    | exact fun _ hx => hx
    | exact fun _ => rfl
    | with_reducible apply Keeps.retireLine
    | with_reducible apply Keeps.updNodes
    | with_reducible apply Keeps.settleRegion
    | with_reducible apply Keeps.updPart
    | with_reducible apply Keeps.ite_
    | split
    | (refine Keeps.lit ?_ rfl rfl id id id id id; first | with_reducible assumption | with_reducible apply Keeps.retireLine | with_reducible apply Keeps.updNodes | with_reducible apply Keeps.settleRegion | with_reducible apply Keeps.updPart | with_reducible apply Keeps.ite_ | split)
    | assumption
    | intro _
    | dsimp only)

theorem Keeps.sweepNodes {n : Nat} {s0 s : State} (hK : Keeps s0 s) : Keeps s0 (sweepNodes n s) := by
  induction n generalizing s with
  | zero => exact hK
  | succ k ih =>
    unfold Sys2Proof.Machine.sweepNodes
    split
    · exact hK
    · exact ih (Keeps.freeNode hK)

theorem Keeps.sweepAll  {s0 s : State}  (hK : Keeps s0 s) : Keeps s0 (sweepAll s) := by
  unfold Sys2Proof.Machine.sweepAll
  repeat' (first
    | with_reducible assumption
    | exact fun _ hx => hx
    | exact fun _ => rfl
    | with_reducible apply Keeps.sweepNodes
    | with_reducible apply Keeps.ite_
    | split
    | (refine Keeps.lit ?_ rfl rfl id id id id id; first | with_reducible assumption | with_reducible apply Keeps.sweepNodes | with_reducible apply Keeps.ite_ | split)
    | assumption
    | intro _
    | dsimp only)

theorem Keeps.derefNodes {t : PNode → Bool} {s0 s : State}  (hK : Keeps s0 s) : Keeps s0 (derefNodes t s) := by
  unfold Sys2Proof.Machine.derefNodes
  repeat' (first
    | with_reducible assumption
    | exact fun _ hx => hx
    | exact fun _ => rfl
    | with_reducible apply Keeps.sweepAll
    | with_reducible apply Keeps.updNodes
    | with_reducible apply Keeps.ite_
    | split
    | (refine Keeps.lit ?_ rfl rfl id id id id id; first | with_reducible assumption | with_reducible apply Keeps.sweepAll | with_reducible apply Keeps.updNodes | with_reducible apply Keeps.ite_ | split)
    | assumption
    | intro _
    | dsimp only)

theorem Keeps.logFreed {p : PartId} {xt freegen gb : Nat} {e : Extent} {s0 s : State}  (hK : Keeps s0 s) : Keeps s0 (logFreed p xt freegen gb e s) := by
  unfold Sys2Proof.Machine.logFreed
  repeat' (first
    | with_reducible assumption
    | exact fun _ hx => hx
    | exact fun _ => rfl
    | with_reducible apply Keeps.updPart
    | with_reducible apply Keeps.ite_
    | split
    | (refine Keeps.lit ?_ rfl rfl id id id id id; first | with_reducible assumption | with_reducible apply Keeps.updPart | with_reducible apply Keeps.ite_ | split)
    | assumption
    | intro _
    | dsimp only)

theorem Keeps.dropExtent {p : PartId} {xt freegen gb : Nat} {e : Extent} {s0 s : State}  (hK : Keeps s0 s) : Keeps s0 (dropExtent p xt freegen gb e s) := by
  unfold Sys2Proof.Machine.dropExtent
  repeat' (first
    | with_reducible assumption
    | exact fun _ hx => hx
    | exact fun _ => rfl
    | with_reducible apply Keeps.derefNodes
    | with_reducible apply Keeps.logFreed
    | with_reducible apply Keeps.ite_
    | split
    | (refine Keeps.lit ?_ rfl rfl id id id id id; first | with_reducible assumption | with_reducible apply Keeps.derefNodes | with_reducible apply Keeps.logFreed | with_reducible apply Keeps.ite_ | split)
    | assumption
    | intro _
    | dsimp only)

theorem Keeps.setEntries {p : PartId} {xt : Nat} {new : List Extent} {s0 s : State}  (hK : Keeps s0 s) : Keeps s0 (setEntries p xt new s) := by
  unfold Sys2Proof.Machine.setEntries
  repeat' (first
    | with_reducible assumption
    | exact fun _ hx => hx
    | exact fun _ => rfl
    | with_reducible apply Keeps.updTable
    | with_reducible refine Keeps.forAll (fun _ _ _ => ?_) ?_
    | with_reducible apply Keeps.dropExtent
    | with_reducible apply Keeps.ite_
    | split
    | (refine Keeps.lit ?_ rfl rfl id id id id id; first | with_reducible assumption | with_reducible apply Keeps.updTable | with_reducible refine Keeps.forAll (fun _ _ _ => ?_) ?_ | with_reducible apply Keeps.dropExtent | with_reducible apply Keeps.ite_ | split)
    | assumption
    | intro _
    | dsimp only)

theorem Keeps.requestEdit {p : PartId} {xt : Nat} {e : Edit} {s0 s : State}  (hK : Keeps s0 s) : Keeps s0 (requestEdit p xt e s) := by
  unfold Sys2Proof.Machine.requestEdit
  repeat' (first
    | with_reducible assumption
    | exact fun _ hx => hx
    | exact fun _ => rfl
    | with_reducible apply Keeps.updTable
    | with_reducible apply Keeps.setEntries
    | with_reducible apply Keeps.ite_
    | split
    | (refine Keeps.lit ?_ rfl rfl id id id id id; first | with_reducible assumption | with_reducible apply Keeps.updTable | with_reducible apply Keeps.setEntries | with_reducible apply Keeps.ite_ | split)
    | assumption
    | intro _
    | dsimp only)

theorem Keeps.flushEdits {p : PartId} {s0 s : State}  (hK : Keeps s0 s) : Keeps s0 (flushEdits p s) := by
  unfold Sys2Proof.Machine.flushEdits
  repeat' (first
    | with_reducible assumption
    | exact fun _ hx => hx
    | exact fun _ => rfl
    | with_reducible refine Keeps.forAll (fun _ _ _ => ?_) ?_
    | with_reducible apply Keeps.updTable
    | with_reducible apply Keeps.setEntries
    | with_reducible apply Keeps.ite_
    | split
    | (refine Keeps.lit ?_ rfl rfl id id id id id; first | with_reducible assumption | with_reducible refine Keeps.forAll (fun _ _ _ => ?_) ?_ | with_reducible apply Keeps.updTable | with_reducible apply Keeps.setEntries | with_reducible apply Keeps.ite_ | split)
    | assumption
    | intro _
    | dsimp only)

theorem Keeps.freeTable {p : PartId} {xt : Nat} {s0 s : State}  (hK : Keeps s0 s) : Keeps s0 (freeTable p xt s) := by
  unfold Sys2Proof.Machine.freeTable
  repeat' (first
    | with_reducible assumption
    | exact fun _ hx => hx
    | exact fun _ => rfl
    | with_reducible apply Keeps.updPart
    | with_reducible refine Keeps.forAll (fun _ _ _ => ?_) ?_
    | with_reducible apply Keeps.dropExtent
    | with_reducible apply Keeps.returnBytes
    | with_reducible apply Keeps.ite_
    | split
    | (refine Keeps.lit ?_ rfl rfl id id id id id; first | with_reducible assumption | with_reducible apply Keeps.updPart | with_reducible refine Keeps.forAll (fun _ _ _ => ?_) ?_ | with_reducible apply Keeps.dropExtent | with_reducible apply Keeps.returnBytes | with_reducible apply Keeps.ite_ | split)
    | assumption
    | intro _
    | dsimp only)

theorem Keeps.allocBase_get {far : Bool} {cls : Nat} {mine : Region → Bool} {taken : List (Nat × Nat)} {n : Nat} {s0 s : State} (hK : Keeps s0 s) : Keeps s0 (allocBase far cls mine taken n s).2 := by
  unfold Sys2Proof.Machine.allocBase
  try dsimp only
  repeat' (first
    | with_reducible assumption
    | exact fun _ hx => hx
    | exact fun _ => rfl
    | with_reducible apply Keeps.ite_
    | split
    | (refine Keeps.lit ?_ rfl rfl id id id id id; first | with_reducible assumption | with_reducible apply Keeps.ite_ | split)
    | assumption
    | intro _
    | dsimp only)

theorem Keeps.allocBase_eq {far : Bool} {cls : Nat} {mine : Region → Bool} {taken : List (Nat × Nat)} {n : Nat} {s0 s tK : State} {aK : Option W64} (eK : allocBase far cls mine taken n s = (aK, tK)) (hK : Keeps s0 s) : Keeps s0 tK := by
  have hR := Keeps.allocBase_get (far := far) (cls := cls) (mine := mine) (taken := taken) (n := n) hK
  rw [eK] at hR
  exact hR

theorem Keeps.allocRuns_get {p : PartId} {l : List Nat} {taken : List (Nat × Nat)} {s0 s : State} (hK : Keeps s0 s) : Keeps s0 (allocRuns p l taken s).2 := by
  induction l generalizing taken s with
  | nil => exact hK
  | cons n r ih =>
    unfold Sys2Proof.Machine.allocRuns
    split
    · rename_i h
      exact Keeps.allocBase_eq h hK
    · rename_i h
      exact ih (Keeps.allocBase_eq h hK)

theorem Keeps.allocRuns_eq {p : PartId} {l : List Nat} {taken : List (Nat × Nat)} {s0 s tK : State} {aK : Option (List W64)}
    (eK : allocRuns p l taken s = (aK, tK)) (hK : Keeps s0 s) : Keeps s0 tK := by
  have hR := Keeps.allocRuns_get (p := p) (l := l) (taken := taken) hK
  rw [eK] at hR
  exact hR

theorem Keeps.releaseSession {p : PartId} {z : Session} {s0 s : State}  (hK : Keeps s0 s) : Keeps s0 (releaseSession p z s) := by
  unfold Sys2Proof.Machine.releaseSession
  repeat' (first
    | with_reducible assumption
    | exact fun _ hx => hx
    | exact fun _ => rfl
    | with_reducible apply Keeps.updPart
    | with_reducible apply Keeps.freeTable
    | with_reducible apply Keeps.ite_
    | split
    | (refine Keeps.lit ?_ rfl rfl id id id id id; first | with_reducible assumption | with_reducible apply Keeps.updPart | with_reducible apply Keeps.freeTable | with_reducible apply Keeps.ite_ | split)
    | assumption
    | intro _
    | dsimp only)

theorem Keeps.releaseLost {p : PartId} {s0 s : State}  (hK : Keeps s0 s) : Keeps s0 (releaseLost p s) := by
  unfold Sys2Proof.Machine.releaseLost
  repeat' (first
    | with_reducible assumption
    | exact fun _ hx => hx
    | exact fun _ => rfl
    | with_reducible refine Keeps.forAll (fun _ _ _ => ?_) ?_
    | with_reducible apply Keeps.releaseSession
    | with_reducible apply Keeps.ite_
    | split
    | (refine Keeps.lit ?_ rfl rfl id id id id id; first | with_reducible assumption | with_reducible refine Keeps.forAll (fun _ _ _ => ?_) ?_ | with_reducible apply Keeps.releaseSession | with_reducible apply Keeps.ite_ | split)
    | assumption
    | intro _
    | dsimp only)

theorem Keeps.sessionIdle {p : PartId} {h : W64} {s0 s : State}  (hK : Keeps s0 s) : Keeps s0 (sessionIdle p h s) := by
  unfold Sys2Proof.Machine.sessionIdle
  repeat' (first
    | with_reducible assumption
    | exact fun _ hx => hx
    | exact fun _ => rfl
    | with_reducible apply Keeps.releaseSession
    | with_reducible apply Keeps.updTable
    | with_reducible apply Keeps.updPart
    | with_reducible apply Keeps.ite_
    | split
    | (refine Keeps.lit ?_ rfl rfl id id id id id; first | with_reducible assumption | with_reducible apply Keeps.releaseSession | with_reducible apply Keeps.updTable | with_reducible apply Keeps.updPart | with_reducible apply Keeps.ite_ | split)
    | assumption
    | intro _
    | dsimp only)

theorem Keeps.endAttempt {p : PartId} {r : Req} {s0 s : State}  (hK : Keeps s0 s) : Keeps s0 (endAttempt p r s) := by
  unfold Sys2Proof.Machine.endAttempt
  repeat' (first
    | with_reducible assumption
    | exact fun _ hx => hx
    | exact fun _ => rfl
    | with_reducible refine Keeps.forAll (fun _ _ _ => ?_) ?_
    | with_reducible apply Keeps.logFreed
    | with_reducible apply Keeps.updPart
    | with_reducible apply Keeps.returnBytes
    | with_reducible apply Keeps.updReq
    | with_reducible apply Keeps.ite_
    | split
    | (refine Keeps.lit ?_ rfl rfl id id id id id; first | with_reducible assumption | with_reducible refine Keeps.forAll (fun _ _ _ => ?_) ?_ | with_reducible apply Keeps.logFreed | with_reducible apply Keeps.updPart | with_reducible apply Keeps.returnBytes | with_reducible apply Keeps.updReq | with_reducible apply Keeps.ite_ | split)
    | assumption
    | intro _
    | dsimp only)

theorem Keeps.dropHits {p : PartId} {r : Req} {s0 s : State}  (hK : Keeps s0 s) : Keeps s0 (dropHits p r s) := by
  unfold Sys2Proof.Machine.dropHits
  repeat' (first
    | with_reducible assumption
    | exact fun _ hx => hx
    | exact fun _ => rfl
    | with_reducible apply Keeps.updReq
    | with_reducible apply Keeps.derefNodes
    | with_reducible apply Keeps.ite_
    | split
    | (refine Keeps.lit ?_ rfl rfl id id id id id; first | with_reducible assumption | with_reducible apply Keeps.updReq | with_reducible apply Keeps.derefNodes | with_reducible apply Keeps.ite_ | split)
    | assumption
    | intro _
    | dsimp only)

theorem Keeps.freeReq {p : PartId} {r : Req} {s0 s : State}  (hK : Keeps s0 s) : Keeps s0 (freeReq p r s) := by
  unfold Sys2Proof.Machine.freeReq
  repeat' (first
    | with_reducible assumption
    | exact fun _ hx => hx
    | exact fun _ => rfl
    | with_reducible apply Keeps.dropHits
    | with_reducible apply Keeps.endAttempt
    | with_reducible apply Keeps.ite_
    | split
    | (refine Keeps.lit ?_ rfl rfl id id id id id; first | with_reducible assumption | with_reducible apply Keeps.dropHits | with_reducible apply Keeps.endAttempt | with_reducible apply Keeps.ite_ | split)
    | assumption
    | intro _
    | dsimp only)

theorem Keeps.giveCode {p : PartId} {r : Req} {code : Byte} {s0 s : State}  (hK : Keeps s0 s) : Keeps s0 (giveCode p r code s) := by
  unfold Sys2Proof.Machine.giveCode
  repeat' (first
    | with_reducible assumption
    | exact fun _ hx => hx
    | exact fun _ => rfl
    | with_reducible apply Keeps.updReq
    | with_reducible apply Keeps.sessionIdle
    | with_reducible apply Keeps.releaseAll
    | with_reducible apply Keeps.journalFinal
    | with_reducible apply Keeps.ite_
    | split
    | (refine Keeps.lit ?_ rfl rfl id id id id id; first | with_reducible assumption | with_reducible apply Keeps.updReq | with_reducible apply Keeps.sessionIdle | with_reducible apply Keeps.releaseAll | with_reducible apply Keeps.journalFinal | with_reducible apply Keeps.ite_ | split)
    | assumption
    | intro _
    | dsimp only)

theorem Keeps.decideCode {p : PartId} {r : Req} {code : Byte} {s0 s : State}  (hK : Keeps s0 s) : Keeps s0 (decideCode p r code s) := by
  unfold Sys2Proof.Machine.decideCode
  repeat' (first
    | with_reducible assumption
    | exact fun _ hx => hx
    | exact fun _ => rfl
    | with_reducible apply Keeps.giveCode
    | with_reducible apply Keeps.freeReq
    | with_reducible apply Keeps.ite_
    | split
    | (refine Keeps.lit ?_ rfl rfl id id id id id; first | with_reducible assumption | with_reducible apply Keeps.giveCode | with_reducible apply Keeps.freeReq | with_reducible apply Keeps.ite_ | split)
    | assumption
    | intro _
    | dsimp only)

theorem Keeps.injectSegment_get {p : PartId} {r : Req} {off : Nat} {data : List Byte} {s0 s : State} (hK : Keeps s0 s) : Keeps s0 (injectSegment p r off data s).2 := by
  unfold Sys2Proof.Machine.injectSegment
  try dsimp only
  repeat' (first
    | with_reducible assumption
    | exact fun _ hx => hx
    | exact fun _ => rfl
    | with_reducible apply Keeps.ite_
    | with_reducible apply Keeps.injectAll_get
    | refine Keeps.injectAll_eq (by with_reducible assumption) ?_
    | split
    | (refine Keeps.lit ?_ rfl rfl id id id id id; first | with_reducible assumption | with_reducible apply Keeps.ite_ | with_reducible apply Keeps.injectAll_get | refine Keeps.injectAll_eq (by with_reducible assumption) ?_ | split)
    | assumption
    | intro _
    | dsimp only)

theorem Keeps.injectSegment_eq {p : PartId} {r : Req} {off : Nat} {data : List Byte} {s0 s tK : State} {aK : Bool} (eK : injectSegment p r off data s = (aK, tK)) (hK : Keeps s0 s) : Keeps s0 tK := by
  have hR := Keeps.injectSegment_get (p := p) (r := r) (off := off) (data := data) hK
  rw [eK] at hR
  exact hR

theorem Keeps.pumpCtl {n : Nat} {p : PartId} {s0 s : State} (hK : Keeps s0 s) : Keeps s0 (pumpCtl n p s) := by
  induction n generalizing s with
  | zero => exact hK
  | succ k ih =>
    unfold Sys2Proof.Machine.pumpCtl
    split
    · exact hK
    · split
      · exact ih (Keeps.updPart hK (fun _ h => h))
      · dsimp only
        split
        · exact ih (Keeps.updPart (Keeps.injectSegment_get hK) (fun _ h => h))
        · exact hK

theorem Keeps.pumpAll {p : PartId} {s0 s : State}  (hK : Keeps s0 s) : Keeps s0 (pumpAll p s) := by
  unfold Sys2Proof.Machine.pumpAll
  repeat' (first
    | with_reducible assumption
    | exact fun _ hx => hx
    | exact fun _ => rfl
    | with_reducible apply Keeps.pumpCtl
    | with_reducible apply Keeps.ite_
    | split
    | (refine Keeps.lit ?_ rfl rfl id id id id id; first | with_reducible assumption | with_reducible apply Keeps.pumpCtl | with_reducible apply Keeps.ite_ | split)
    | assumption
    | intro _
    | dsimp only)

theorem Keeps.controlSeg {p : PartId} {r : Req} {type epoch : Nat} {extra : List Nat} {s0 s : State}  (hK : Keeps s0 s) : Keeps s0 (controlSeg p r type epoch extra s) := by
  unfold Sys2Proof.Machine.controlSeg
  repeat' (first
    | with_reducible assumption
    | exact fun _ hx => hx
    | exact fun _ => rfl
    | with_reducible apply Keeps.emit
    | with_reducible apply Keeps.addWrite
    | with_reducible apply Keeps.ensureQp
    | with_reducible apply Keeps.pumpAll
    | with_reducible apply Keeps.updPart
    | with_reducible apply Keeps.updReq
    | with_reducible apply Keeps.ite_
    | split
    | (refine Keeps.lit ?_ rfl rfl id id id id id; first | with_reducible assumption | with_reducible apply Keeps.emit | with_reducible apply Keeps.addWrite | with_reducible apply Keeps.ensureQp | with_reducible apply Keeps.pumpAll | with_reducible apply Keeps.updPart | with_reducible apply Keeps.updReq | with_reducible apply Keeps.ite_ | split)
    | assumption
    | intro _
    | dsimp only)

theorem Keeps.attemptRecord {p : PartId} {r : Req} {s0 s : State}  (hK : Keeps s0 s) : Keeps s0 (attemptRecord p r s) := by
  unfold Sys2Proof.Machine.attemptRecord
  repeat' (first
    | with_reducible assumption
    | exact fun _ hx => hx
    | exact fun _ => rfl
    | with_reducible apply Keeps.updReq
    | with_reducible apply Keeps.journalRing
    | with_reducible apply Keeps.journalNear
    | with_reducible apply Keeps.ite_
    | split
    | (refine Keeps.lit ?_ rfl rfl id id id id id; first | with_reducible assumption | with_reducible apply Keeps.updReq | with_reducible apply Keeps.journalRing | with_reducible apply Keeps.journalNear | with_reducible apply Keeps.ite_ | split)
    | assumption
    | intro _
    | dsimp only)

theorem Keeps.voidFirst {p : PartId} {r : Req} {s0 s : State}  (hK : Keeps s0 s) : Keeps s0 (voidFirst p r s) := by
  unfold Sys2Proof.Machine.voidFirst
  repeat' (first
    | with_reducible assumption
    | exact fun _ hx => hx
    | exact fun _ => rfl
    | with_reducible apply Keeps.updReq
    | with_reducible apply Keeps.controlSeg
    | with_reducible apply Keeps.ite_
    | split
    | (refine Keeps.lit ?_ rfl rfl id id id id id; first | with_reducible assumption | with_reducible apply Keeps.updReq | with_reducible apply Keeps.controlSeg | with_reducible apply Keeps.ite_ | split)
    | assumption
    | intro _
    | dsimp only)

theorem Keeps.openAttempt {p : PartId} {r : Req} {s0 s : State}  (hK : Keeps s0 s) : Keeps s0 (openAttempt p r s) := by
  unfold Sys2Proof.Machine.openAttempt
  repeat' (first
    | with_reducible assumption
    | exact fun _ hx => hx
    | exact fun _ => rfl
    | with_reducible apply Keeps.attemptRecord
    | with_reducible apply Keeps.voidFirst
    | with_reducible apply Keeps.ite_
    | split
    | (refine Keeps.lit ?_ rfl rfl id id id id id; first | with_reducible assumption | with_reducible apply Keeps.attemptRecord | with_reducible apply Keeps.voidFirst | with_reducible apply Keeps.ite_ | split)
    | assumption
    | intro _
    | dsimp only)

theorem Keeps.retryOrFinal {p : PartId} {r : Req} {code : Byte} {final isolate uncounted : Bool} {s0 s : State}  (hK : Keeps s0 s) : Keeps s0 (retryOrFinal p r code final isolate uncounted s) := by
  unfold Sys2Proof.Machine.retryOrFinal
  repeat' (first
    | with_reducible assumption
    | exact fun _ hx => hx
    | exact fun _ => rfl
    | with_reducible apply Keeps.updReq
    | with_reducible apply Keeps.decideCode
    | with_reducible apply Keeps.controlSeg
    | with_reducible apply Keeps.endAttempt
    | with_reducible apply Keeps.ite_
    | split
    | (refine Keeps.lit ?_ rfl rfl id id id id id; first | with_reducible assumption | with_reducible apply Keeps.updReq | with_reducible apply Keeps.decideCode | with_reducible apply Keeps.controlSeg | with_reducible apply Keeps.endAttempt | with_reducible apply Keeps.ite_ | split)
    | assumption
    | intro _
    | dsimp only)

theorem Keeps.replayJournal {p : PartId} {s0 s : State}  (hK : Keeps s0 s) : Keeps s0 (replayJournal p s) := by
  unfold Sys2Proof.Machine.replayJournal
  repeat' (first
    | with_reducible assumption
    | exact fun _ hx => hx
    | exact fun _ => rfl
    | with_reducible refine Keeps.forAll (fun _ _ _ => ?_) ?_
    | with_reducible apply Keeps.retryOrFinal
    | with_reducible apply Keeps.updReq
    | with_reducible apply Keeps.controlSeg
    | with_reducible apply Keeps.releaseDue
    | with_reducible apply Keeps.ite_
    | split
    | (refine Keeps.lit ?_ rfl rfl id id id id id; first | with_reducible assumption | with_reducible refine Keeps.forAll (fun _ _ _ => ?_) ?_ | with_reducible apply Keeps.retryOrFinal | with_reducible apply Keeps.updReq | with_reducible apply Keeps.controlSeg | with_reducible apply Keeps.releaseDue | with_reducible apply Keeps.ite_ | split)
    | assumption
    | intro _
    | dsimp only)

theorem Keeps.evictNodes {n : Nat} {mine : PNode → Bool} {enough : State → Bool} {s0 s : State} (hK : Keeps s0 s) :
    Keeps s0 (evictNodes n mine enough s) := by
  induction n generalizing s with
  | zero => exact hK
  | succ k ih =>
    unfold Sys2Proof.Machine.evictNodes
    split
    · exact hK
    · split
      · exact hK
      · exact ih (Keeps.freeNode hK)

end Sys2Proof.Machine
end

