-- ==== Sys2Proof/Laws/KeepsServing.lean ====
section
/-! SUPPORT. What the operations of Machine/Serving.lean keep: the queue, the modes and the canonical stores. -/

set_option linter.unusedTactic false
set_option linter.unreachableTactic false

namespace Sys2Proof.Machine

theorem Keeps.ignoreBell {f : FuncId} {s0 s : State}  (hK : Keeps s0 s) : Keeps s0 (ignoreBell f s) := by
  unfold Sys2Proof.Machine.ignoreBell
  repeat' (first
    | with_reducible assumption
    | exact fun _ hx => hx
    | exact fun _ => rfl
    | with_reducible apply Keeps.updFunc
    | with_reducible apply Keeps.ite_
    | split
    | (refine Keeps.lit ?_ rfl rfl id id id id id; first | with_reducible assumption | with_reducible apply Keeps.updFunc | with_reducible apply Keeps.ite_ | split)
    | assumption
    | intro _
    | dsimp only)

theorem Keeps.noteBell  {s0 s : State}  (hK : Keeps s0 s) : Keeps s0 (noteBell s) := by
  unfold Sys2Proof.Machine.noteBell
  repeat' (first
    | with_reducible assumption
    | exact fun _ hx => hx
    | exact fun _ => rfl
    | with_reducible refine Keeps.whenS (fun _ _ => ?_) ?_
    | with_reducible apply Keeps.updPwr
    | with_reducible apply Keeps.ite_
    | split
    | (refine Keeps.lit ?_ rfl rfl id id id id id; first | with_reducible assumption | with_reducible refine Keeps.whenS (fun _ _ => ?_) ?_ | with_reducible apply Keeps.updPwr | with_reducible apply Keeps.ite_ | split)
    | assumption
    | intro _
    | dsimp only)

theorem Keeps.execSqTail {f : FuncId} {v : W64} {atomic : Bool} {s0 s tK : State} (eK : execSqTail f v atomic s = .next tK) (hK : Keeps s0 s) : Keeps s0 tK := by
  unfold Sys2Proof.Machine.execSqTail at eK
  cases eK
  repeat' (first
    | with_reducible assumption
    | exact fun _ hx => hx
    | exact fun _ => rfl
    | with_reducible apply Keeps.ignoreBell
    | with_reducible apply Keeps.noteBell
    | with_reducible apply Keeps.updFunc
    | with_reducible apply Keeps.ite_
    | split
    | (refine Keeps.lit ?_ rfl rfl id id id id id; first | with_reducible assumption | with_reducible apply Keeps.ignoreBell | with_reducible apply Keeps.noteBell | with_reducible apply Keeps.updFunc | with_reducible apply Keeps.ite_ | split)
    | assumption
    | intro _
    | dsimp only)

theorem Keeps.execCqHead {f : FuncId} {v : W64} {atomic : Bool} {s0 s tK : State} (eK : execCqHead f v atomic s = .next tK) (hK : Keeps s0 s) : Keeps s0 tK := by
  unfold Sys2Proof.Machine.execCqHead at eK
  cases eK
  repeat' (first
    | with_reducible assumption
    | exact fun _ hx => hx
    | exact fun _ => rfl
    | with_reducible apply Keeps.ignoreBell
    | with_reducible apply Keeps.updFunc
    | with_reducible apply Keeps.ite_
    | split
    | (refine Keeps.lit ?_ rfl rfl id id id id id; first | with_reducible assumption | with_reducible apply Keeps.ignoreBell | with_reducible apply Keeps.updFunc | with_reducible apply Keeps.ite_ | split)
    | assumption
    | intro _
    | dsimp only)

theorem Keeps.execJqHead {f : FuncId} {v : W64} {atomic : Bool} {s0 s tK : State} (eK : execJqHead f v atomic s = .next tK) (hK : Keeps s0 s) : Keeps s0 tK := by
  unfold Sys2Proof.Machine.execJqHead at eK
  cases eK
  repeat' (first
    | with_reducible assumption
    | exact fun _ hx => hx
    | exact fun _ => rfl
    | with_reducible apply Keeps.ignoreBell
    | with_reducible apply Keeps.updFunc
    | with_reducible apply Keeps.ite_
    | split
    | (refine Keeps.lit ?_ rfl rfl id id id id id; first | with_reducible assumption | with_reducible apply Keeps.ignoreBell | with_reducible apply Keeps.updFunc | with_reducible apply Keeps.ite_ | split)
    | assumption
    | intro _
    | dsimp only)

theorem Keeps.aghornFault {c : CoreId} {p : PartId} {task : Nat} {s0 s : State}  (hK : Keeps s0 s) : Keeps s0 (aghornFault c p task s) := by
  unfold Sys2Proof.Machine.aghornFault
  repeat' (first
    | with_reducible assumption
    | exact fun _ hx => hx
    | exact fun _ => rfl
    | with_reducible apply Keeps.logR
    | with_reducible apply Keeps.updFlt
    | with_reducible apply Keeps.ite_
    | split
    | (refine Keeps.lit ?_ rfl rfl id id id id id; first | with_reducible assumption | with_reducible apply Keeps.logR | with_reducible apply Keeps.updFlt | with_reducible apply Keeps.ite_ | split)
    | assumption
    | intro _
    | dsimp only)

theorem Keeps.flagRunning {p : PartId} {i : Nat} {s0 s : State}  (hK : Keeps s0 s) : Keeps s0 (flagRunning p i s) := by
  unfold Sys2Proof.Machine.flagRunning
  repeat' (first
    | with_reducible assumption
    | exact fun x hx => CoreOk.withWs hx (by with_reducible first | exact wsWr_wf _ _ _ hx.1 | exact writeRecord_wf _ _ _ _ _ _ hx.1 | exact storeTile_wf _ _ _ _ _ hx.1 | exact emptySide_wf _ _ _ _ hx.1 | exact clearSide_wf _ _ _ hx.1 | exact wr8_wf _ _ _ hx.1 | exact foldl_wf _ _ (fun m y hm => writeRecord_wf _ _ _ _ _ _ hm) _ hx.1 | exact foldl_wf _ _ (fun m y hm => wsWr_wf _ _ _ hm) _ hx.1)
    | exact fun _ hx => hx
    | exact fun _ => rfl
    | with_reducible refine Keeps.forAll (fun _ _ _ => ?_) ?_
    | with_reducible apply Keeps.updCore
    | with_reducible apply Keeps.aghornFault
    | with_reducible apply Keeps.updPart
    | with_reducible apply Keeps.ite_
    | split
    | (refine Keeps.lit ?_ rfl rfl id id id id id; first | with_reducible assumption | with_reducible refine Keeps.forAll (fun _ _ _ => ?_) ?_ | with_reducible apply Keeps.updCore | with_reducible apply Keeps.aghornFault | with_reducible apply Keeps.updPart | with_reducible apply Keeps.ite_ | split)
    | assumption
    | intro _
    | dsimp only)

theorem Keeps.sendCancelFlag {p : PartId} {task i : Nat} {s0 s : State}  (hK : Keeps s0 s) : Keeps s0 (sendCancelFlag p task i s) := by
  unfold Sys2Proof.Machine.sendCancelFlag
  repeat' (first
    | with_reducible assumption
    | exact fun _ hx => hx
    | exact fun _ => rfl
    | with_reducible refine Keeps.forAll (fun _ _ _ => ?_) ?_
    | with_reducible apply Keeps.sendM
    | with_reducible apply Keeps.ite_
    | split
    | (refine Keeps.lit ?_ rfl rfl id id id id id; first | with_reducible assumption | with_reducible refine Keeps.forAll (fun _ _ _ => ?_) ?_ | with_reducible apply Keeps.sendM | with_reducible apply Keeps.ite_ | split)
    | assumption
    | intro _
    | dsimp only)

theorem Keeps.flagQueued {p : PartId} {num i : Nat} {s0 s : State}  (hK : Keeps s0 s) : Keeps s0 (flagQueued p num i s) := by
  unfold Sys2Proof.Machine.flagQueued
  repeat' (first
    | with_reducible assumption
    | exact fun _ hx => hx
    | exact fun _ => rfl
    | with_reducible apply Keeps.updPart
    | with_reducible apply Keeps.ite_
    | split
    | (refine Keeps.lit ?_ rfl rfl id id id id id; first | with_reducible assumption | with_reducible apply Keeps.updPart | with_reducible apply Keeps.ite_ | split)
    | assumption
    | intro _
    | dsimp only)

theorem Keeps.flagTask {p : PartId} {r : Req} {s0 s : State}  (hK : Keeps s0 s) : Keeps s0 (flagTask p r s) := by
  unfold Sys2Proof.Machine.flagTask
  repeat' (first
    | with_reducible assumption
    | exact fun _ hx => hx
    | exact fun _ => rfl
    | with_reducible apply Keeps.sendCancelFlag
    | with_reducible apply Keeps.flagRunning
    | with_reducible apply Keeps.flagQueued
    | with_reducible apply Keeps.ite_
    | split
    | (refine Keeps.lit ?_ rfl rfl id id id id id; first | with_reducible assumption | with_reducible apply Keeps.sendCancelFlag | with_reducible apply Keeps.flagRunning | with_reducible apply Keeps.flagQueued | with_reducible apply Keeps.ite_ | split)
    | assumption
    | intro _
    | dsimp only)

theorem Keeps.cancelEvent {f : FuncId} {id : W64} {s0 s : State}  (hK : Keeps s0 s) : Keeps s0 (cancelEvent f id s) := by
  unfold Sys2Proof.Machine.cancelEvent
  repeat' (first
    | with_reducible assumption
    | exact fun _ hx => hx
    | exact fun _ => rfl
    | with_reducible apply Keeps.updFunc
    | with_reducible apply Keeps.cancelAns
    | with_reducible apply Keeps.flagTask
    | with_reducible apply Keeps.updReq
    | with_reducible apply Keeps.giveCode
    | with_reducible apply Keeps.freeReq
    | with_reducible apply Keeps.openAttempt
    | with_reducible apply Keeps.controlSeg
    | with_reducible apply Keeps.decideCode
    | with_reducible apply Keeps.ite_
    | split
    | (refine Keeps.lit ?_ rfl rfl id id id id id; first | with_reducible assumption | with_reducible apply Keeps.updFunc | with_reducible apply Keeps.cancelAns | with_reducible apply Keeps.flagTask | with_reducible apply Keeps.updReq | with_reducible apply Keeps.giveCode | with_reducible apply Keeps.freeReq | with_reducible apply Keeps.openAttempt | with_reducible apply Keeps.controlSeg | with_reducible apply Keeps.decideCode | with_reducible apply Keeps.ite_ | split)
    | assumption
    | intro _
    | dsimp only)

theorem Keeps.execCancel {f : FuncId} {reqid : W64} {atomic : Bool} {s0 s tK : State} (eK : execCancel f reqid atomic s = .next tK) (hK : Keeps s0 s) : Keeps s0 tK := by
  unfold Sys2Proof.Machine.execCancel at eK
  cases eK
  repeat' (first
    | with_reducible assumption
    | exact fun _ hx => hx
    | exact fun _ => rfl
    | with_reducible apply Keeps.ignoreBell
    | with_reducible apply Keeps.noteBell
    | with_reducible apply Keeps.updFunc
    | with_reducible apply Keeps.cancelEvent
    | with_reducible apply Keeps.ite_
    | split
    | (refine Keeps.lit ?_ rfl rfl id id id id id; first | with_reducible assumption | with_reducible apply Keeps.ignoreBell | with_reducible apply Keeps.noteBell | with_reducible apply Keeps.updFunc | with_reducible apply Keeps.cancelEvent | with_reducible apply Keeps.ite_ | split)
    | assumption
    | intro _
    | dsimp only)

theorem Keeps.execCancelHoldExpiry {f : FuncId} {reqid : W64} {s0 s tK : State} (eK : execCancelHoldExpiry f reqid s = .next tK) (hK : Keeps s0 s) : Keeps s0 tK := by
  unfold Sys2Proof.Machine.execCancelHoldExpiry at eK
  cases eK
  repeat' (first
    | with_reducible assumption
    | exact fun _ hx => hx
    | exact fun _ => rfl
    | with_reducible apply Keeps.cancelAns
    | with_reducible apply Keeps.updFunc
    | with_reducible apply Keeps.ite_
    | split
    | (refine Keeps.lit ?_ rfl rfl id id id id id; first | with_reducible assumption | with_reducible apply Keeps.cancelAns | with_reducible apply Keeps.updFunc | with_reducible apply Keeps.ite_ | split)
    | assumption
    | intro _
    | dsimp only)

theorem Keeps.execCancelledSegment {p : PartId} {reqid : W64} {s0 s tK : State} (eK : execCancelledSegment p reqid s = .next tK) (hK : Keeps s0 s) : Keeps s0 tK := by
  unfold Sys2Proof.Machine.execCancelledSegment at eK
  cases eK
  repeat' (first
    | with_reducible assumption
    | exact fun _ hx => hx
    | exact fun _ => rfl
    | with_reducible apply Keeps.openAttempt
    | with_reducible apply Keeps.updReq
    | with_reducible apply Keeps.controlSeg
    | with_reducible apply Keeps.freeReq
    | with_reducible apply Keeps.ite_
    | split
    | (refine Keeps.lit ?_ rfl rfl id id id id id; first | with_reducible assumption | with_reducible apply Keeps.openAttempt | with_reducible apply Keeps.updReq | with_reducible apply Keeps.controlSeg | with_reducible apply Keeps.freeReq | with_reducible apply Keeps.ite_ | split)
    | assumption
    | intro _
    | dsimp only)

theorem Keeps.execCancelFlagMessage {p : PartId} {task : W32} {entry : Nat} {s0 s tK : State} (eK : execCancelFlagMessage p task entry s = .next tK) (hK : Keeps s0 s) : Keeps s0 tK := by
  unfold Sys2Proof.Machine.execCancelFlagMessage at eK
  cases eK
  repeat' (first
    | with_reducible assumption
    | exact fun _ hx => hx
    | exact fun _ => rfl
    | with_reducible apply Keeps.flagRunning
    | with_reducible apply Keeps.flagQueued
    | with_reducible apply Keeps.ite_
    | split
    | (refine Keeps.lit ?_ rfl rfl id id id id id; first | with_reducible assumption | with_reducible apply Keeps.flagRunning | with_reducible apply Keeps.flagQueued | with_reducible apply Keeps.ite_ | split)
    | assumption
    | intro _
    | dsimp only)

theorem Keeps.readDesc {f : FuncId} {d : SubDesc} {reason : Option Nat} {go : State → State} {s0 s : State} (hgo : ∀ u, Keeps s0 u → Keeps s0 (go u)) (hK : Keeps s0 s) : Keeps s0 (readDesc f d reason go s) := by
  unfold Sys2Proof.Machine.readDesc
  repeat' (first
    | with_reducible assumption
    | with_reducible apply hgo
    | exact fun _ hx => hx
    | exact fun _ => rfl
    | with_reducible apply Keeps.updFunc
    | with_reducible apply Keeps.rejectRec
    | with_reducible apply Keeps.ite_
    | split
    | (refine Keeps.lit ?_ rfl rfl id id id id id; first | with_reducible assumption | with_reducible apply hgo | with_reducible apply Keeps.updFunc | with_reducible apply Keeps.rejectRec | with_reducible apply Keeps.ite_ | split)
    | assumption
    | intro _
    | dsimp only)

theorem Keeps.enterReq {f : FuncId} {d : SubDesc} {toks : List W32} {s0 s : State}  (hK : Keeps s0 s) : Keeps s0 (enterReq f d toks s) := by
  unfold Sys2Proof.Machine.enterReq
  repeat' (first
    | with_reducible assumption
    | exact fun _ hx => hx
    | exact fun _ => rfl
    | with_reducible apply Keeps.updFunc
    | with_reducible apply Keeps.updPart
    | with_reducible apply Keeps.ite_
    | split
    | (refine Keeps.lit ?_ rfl rfl id id id id id; first | with_reducible assumption | with_reducible apply Keeps.updFunc | with_reducible apply Keeps.updPart | with_reducible apply Keeps.ite_ | split)
    | assumption
    | intro _
    | dsimp only)

theorem Keeps.execPrefill {f : FuncId} {d : SubDesc} {tokens : Option (List W32)} {qrOk : Bool} {s0 s tK : State} (eK : execPrefill f d tokens qrOk s = .next tK) (hK : Keeps s0 s) : Keeps s0 tK := by
  unfold Sys2Proof.Machine.execPrefill at eK
  cases eK
  repeat' (first
    | with_reducible assumption
    | exact fun _ hx => hx
    | exact fun _ => rfl
    | with_reducible refine Keeps.readDesc (fun _ _ => ?_) ?_
    | with_reducible apply Keeps.enterReq
    | with_reducible apply Keeps.ite_
    | split
    | (refine Keeps.lit ?_ rfl rfl id id id id id; first | with_reducible assumption | with_reducible refine Keeps.readDesc (fun _ _ => ?_) ?_ | with_reducible apply Keeps.enterReq | with_reducible apply Keeps.ite_ | split)
    | assumption
    | intro _
    | dsimp only)

theorem Keeps.execExtend {f : FuncId} {d : SubDesc} {tokens : Option (List W32)} {qrOk : Bool} {s0 s tK : State} (eK : execExtend f d tokens qrOk s = .next tK) (hK : Keeps s0 s) : Keeps s0 tK := by
  unfold Sys2Proof.Machine.execExtend at eK
  cases eK
  repeat' (first
    | with_reducible assumption
    | exact fun _ hx => hx
    | exact fun _ => rfl
    | with_reducible refine Keeps.readDesc (fun _ _ => ?_) ?_
    | with_reducible apply Keeps.enterReq
    | with_reducible apply Keeps.ite_
    | split
    | (refine Keeps.lit ?_ rfl rfl id id id id id; first | with_reducible assumption | with_reducible refine Keeps.readDesc (fun _ _ => ?_) ?_ | with_reducible apply Keeps.enterReq | with_reducible apply Keeps.ite_ | split)
    | assumption
    | intro _
    | dsimp only)

theorem Keeps.execRelease {f : FuncId} {d : SubDesc} {s0 s tK : State} (eK : execRelease f d s = .next tK) (hK : Keeps s0 s) : Keeps s0 tK := by
  unfold Sys2Proof.Machine.execRelease at eK
  cases eK
  repeat' (first
    | with_reducible assumption
    | exact fun _ hx => hx
    | exact fun _ => rfl
    | with_reducible refine Keeps.readDesc (fun _ _ => ?_) ?_
    | with_reducible apply Keeps.updPart
    | with_reducible apply Keeps.releaseSession
    | with_reducible apply Keeps.opDoneRec
    | with_reducible apply Keeps.ite_
    | split
    | (refine Keeps.lit ?_ rfl rfl id id id id id; first | with_reducible assumption | with_reducible refine Keeps.readDesc (fun _ _ => ?_) ?_ | with_reducible apply Keeps.updPart | with_reducible apply Keeps.releaseSession | with_reducible apply Keeps.opDoneRec | with_reducible apply Keeps.ite_ | split)
    | assumption
    | intro _
    | dsimp only)

theorem Keeps.queueOp {p : PartId} {o : UpOp} {s0 s : State}  (hK : Keeps s0 s) : Keeps s0 (queueOp p o s) := by
  unfold Sys2Proof.Machine.queueOp
  repeat' (first
    | with_reducible assumption
    | exact fun _ hx => hx
    | exact fun _ => rfl
    | with_reducible apply Keeps.updMem
    | with_reducible apply Keeps.updPart
    | with_reducible apply Keeps.ite_
    | split
    | (refine Keeps.lit ?_ rfl rfl id id id id id; first | with_reducible assumption | with_reducible apply Keeps.updMem | with_reducible apply Keeps.updPart | with_reducible apply Keeps.ite_ | split)
    | assumption
    | intro _
    | dsimp only)

theorem Keeps.execMigrate {f : FuncId} {d : SubDesc} {s0 s tK : State} (eK : execMigrate f d s = .next tK) (hK : Keeps s0 s) : Keeps s0 tK := by
  unfold Sys2Proof.Machine.execMigrate at eK
  cases eK
  repeat' (first
    | with_reducible assumption
    | exact fun _ hx => hx
    | exact fun _ => rfl
    | with_reducible refine Keeps.readDesc (fun _ _ => ?_) ?_
    | with_reducible apply Keeps.queueOp
    | with_reducible apply Keeps.ite_
    | split
    | (refine Keeps.lit ?_ rfl rfl id id id id id; first | with_reducible assumption | with_reducible refine Keeps.readDesc (fun _ _ => ?_) ?_ | with_reducible apply Keeps.queueOp | with_reducible apply Keeps.ite_ | split)
    | assumption
    | intro _
    | dsimp only)

theorem Keeps.takeSlotFor_eq {p : PartId} {s0 s tK : State} {a : Nat} (eK : takeSlotFor p s = some (a, tK)) (hK : Keeps s0 s) : Keeps s0 tK := by
  unfold Sys2Proof.Machine.takeSlotFor at eK
  dsimp only at eK
  split at eK
  · injection eK with e; injection e with e1 e2; subst e2; exact hK
  · cases eK
  · injection eK with e; injection e with e1 e2; subst e2; exact Keeps.updPart hK (fun _ h => h)

theorem Keeps.startVLoad {p : PartId} {w : VVersion} {op : UpOp} {s0 s : State}  (hK : Keeps s0 s) : Keeps s0 (startVLoad p w op s) := by
  unfold Sys2Proof.Machine.startVLoad
  repeat' (first
    | with_reducible assumption
    | exact fun _ hx => hx
    | exact fun _ => rfl
    | with_reducible apply Keeps.queueOp
    | with_reducible apply Keeps.updPart
    | with_reducible apply Keeps.ite_
    | split
    | (refine Keeps.lit ?_ rfl rfl id id id id id; first | with_reducible assumption | with_reducible apply Keeps.queueOp | with_reducible apply Keeps.updPart | with_reducible apply Keeps.ite_ | split)
    | assumption
    | intro _
    | dsimp only)

theorem Keeps.execVload {f : FuncId} {d : SubDesc} {srcOk : Bool} {s0 s tK : State} (eK : execVload f d srcOk s = .next tK) (hK : Keeps s0 s) : Keeps s0 tK := by
  unfold Sys2Proof.Machine.execVload at eK
  cases eK
  repeat' (first
    | with_reducible assumption
    | refine Keeps.takeSlotFor_eq (by assumption) ?_
    | exact fun _ hx => hx
    | exact fun _ => rfl
    | with_reducible refine Keeps.readDesc (fun _ _ => ?_) ?_
    | with_reducible apply Keeps.opDoneRec
    | with_reducible apply Keeps.startVLoad
    | with_reducible apply Keeps.ite_
    | split
    | (refine Keeps.lit ?_ rfl rfl id id id id id; first | with_reducible assumption | refine Keeps.takeSlotFor_eq (by assumption) ?_ | with_reducible refine Keeps.readDesc (fun _ _ => ?_) ?_ | with_reducible apply Keeps.opDoneRec | with_reducible apply Keeps.startVLoad | with_reducible apply Keeps.ite_ | split)
    | assumption
    | intro _
    | dsimp only)

theorem Keeps.execVloadComplete {p : PartId} {s0 s tK : State} (eK : execVloadComplete p s = .next tK) (hK : Keeps s0 s) : Keeps s0 tK := by
  unfold Sys2Proof.Machine.execVloadComplete at eK
  cases eK
  repeat' (first
    | with_reducible assumption
    | exact fun _ hx => hx
    | exact fun _ => rfl
    | with_reducible apply Keeps.updPart
    | with_reducible apply Keeps.opDoneRec
    | with_reducible apply Keeps.ite_
    | split
    | (refine Keeps.lit ?_ rfl rfl id id id id id; first | with_reducible assumption | with_reducible apply Keeps.updPart | with_reducible apply Keeps.opDoneRec | with_reducible apply Keeps.ite_ | split)
    | assumption
    | intro _
    | dsimp only)

theorem Keeps.execAcceptance {f : FuncId} {reqid : W64} {s0 s tK : State} (eK : execAcceptance f reqid s = .next tK) (hK : Keeps s0 s) : Keeps s0 tK := by
  unfold Sys2Proof.Machine.execAcceptance at eK
  cases eK
  repeat' (first
    | with_reducible assumption
    | exact fun _ hx => hx
    | exact fun _ => rfl
    | with_reducible apply Keeps.journalRing
    | with_reducible apply Keeps.journalNear
    | with_reducible apply Keeps.updPart
    | with_reducible apply Keeps.updReq
    | with_reducible apply Keeps.trace
    | with_reducible apply Keeps.cancelEvent
    | with_reducible apply Keeps.updFunc
    | with_reducible apply Keeps.ite_
    | split
    | (refine Keeps.lit ?_ rfl rfl id id id id id; first | with_reducible assumption | with_reducible apply Keeps.journalRing | with_reducible apply Keeps.journalNear | with_reducible apply Keeps.updPart | with_reducible apply Keeps.updReq | with_reducible apply Keeps.trace | with_reducible apply Keeps.cancelEvent | with_reducible apply Keeps.updFunc | with_reducible apply Keeps.ite_ | split)
    | assumption
    | intro _
    | dsimp only)

theorem Keeps.execCompletionRecordWrite {f : FuncId} {s0 s tK : State} (eK : execCompletionRecordWrite f s = .next tK) (hK : Keeps s0 s) : Keeps s0 tK := by
  unfold Sys2Proof.Machine.execCompletionRecordWrite at eK
  cases eK
  repeat' (first
    | with_reducible assumption
    | exact fun _ hx => hx
    | exact fun _ => rfl
    | with_reducible apply Keeps.updFunc
    | with_reducible apply Keeps.hostWrite
    | with_reducible apply Keeps.vecEvent
    | with_reducible apply Keeps.ite_
    | split
    | (refine Keeps.lit ?_ rfl rfl id id id id id; first | with_reducible assumption | with_reducible apply Keeps.updFunc | with_reducible apply Keeps.hostWrite | with_reducible apply Keeps.vecEvent | with_reducible apply Keeps.ite_ | split)
    | assumption
    | intro _
    | dsimp only)

theorem Keeps.execExtentEdit {p : PartId} {xtab : W32} {e : Edit} {s0 s tK : State} (eK : execExtentEdit p xtab e s = .next tK) (hK : Keeps s0 s) : Keeps s0 tK := by
  unfold Sys2Proof.Machine.execExtentEdit at eK
  cases eK
  repeat' (first
    | with_reducible assumption
    | exact fun _ hx => hx
    | exact fun _ => rfl
    | with_reducible apply Keeps.requestEdit
    | with_reducible apply Keeps.ite_
    | split
    | (refine Keeps.lit ?_ rfl rfl id id id id id; first | with_reducible assumption | with_reducible apply Keeps.requestEdit | with_reducible apply Keeps.ite_ | split)
    | assumption
    | intro _
    | dsimp only)

theorem Keeps.execExtentReclaim {p : PartId} {idx : Nat} {s0 s tK : State} (eK : execExtentReclaim p idx s = .next tK) (hK : Keeps s0 s) : Keeps s0 tK := by
  unfold Sys2Proof.Machine.execExtentReclaim at eK
  cases eK
  repeat' (first
    | with_reducible assumption
    | exact fun _ hx => hx
    | exact fun _ => rfl
    | with_reducible apply Keeps.updPart
    | with_reducible apply Keeps.ite_
    | split
    | (refine Keeps.lit ?_ rfl rfl id id id id id; first | with_reducible assumption | with_reducible apply Keeps.updPart | with_reducible apply Keeps.ite_ | split)
    | assumption
    | intro _
    | dsimp only)

end Sys2Proof.Machine
end

