-- ==== Sys2Proof/Laws/KeepsRequests.lean ====
section
/-! SUPPORT. What the operations of Machine/Requests.lean keep: the queue, the modes and the canonical stores. -/

set_option linter.unusedTactic false
set_option linter.unreachableTactic false

namespace Sys2Proof.Machine

theorem Keeps.checkVariant_get {p : PartId} {r : Req} {s0 s : State} (hK : Keeps s0 s) : Keeps s0 (checkVariant p r s).2 := by
  unfold Sys2Proof.Machine.checkVariant
  try dsimp only
  repeat' (first
    | with_reducible assumption
    | refine Keeps.takeSlotFor_eq (by assumption) ?_
    | exact fun _ hx => hx
    | exact fun _ => rfl
    | with_reducible apply Keeps.startVLoad
    | with_reducible apply Keeps.ite_
    | split
    | (refine Keeps.lit ?_ rfl rfl id id id id id; first | with_reducible assumption | refine Keeps.takeSlotFor_eq (by assumption) ?_ | with_reducible apply Keeps.startVLoad | with_reducible apply Keeps.ite_ | split)
    | assumption
    | intro _
    | dsimp only)

theorem Keeps.checkVariant_eq {p : PartId} {r : Req} {s0 s tK : State} {aK : Verdict} (eK : checkVariant p r s = (aK, tK)) (hK : Keeps s0 s) : Keeps s0 tK := by
  have hR := Keeps.checkVariant_get (p := p) (r := r) hK
  rw [eK] at hR
  exact hR

theorem Keeps.firstEval {p : PartId} {r : Req} {s0 s : State}  (hK : Keeps s0 s) : Keeps s0 (firstEval p r s) := by
  unfold Sys2Proof.Machine.firstEval
  repeat' (first
    | with_reducible assumption
    | exact fun _ hx => hx
    | exact fun _ => rfl
    | with_reducible apply Keeps.updReq
    | with_reducible apply Keeps.updNodes
    | with_reducible apply Keeps.ite_
    | split
    | (refine Keeps.lit ?_ rfl rfl id id id id id; first | with_reducible assumption | with_reducible apply Keeps.updReq | with_reducible apply Keeps.updNodes | with_reducible apply Keeps.ite_ | split)
    | assumption
    | intro _
    | dsimp only)

theorem Keeps.tierCopy {src dst n : Nat} {s0 s : State}  (hK : Keeps s0 s) : Keeps s0 (tierCopy src dst n s) := by
  unfold Sys2Proof.Machine.tierCopy
  repeat' (first
    | with_reducible assumption
    | exact fun _ hx => hx
    | exact fun _ => rfl
    | with_reducible apply Keeps.tierWrite
    | with_reducible apply Keeps.ite_
    | split
    | (refine Keeps.lit ?_ rfl rfl id id id id id; first | with_reducible assumption | with_reducible apply Keeps.tierWrite | with_reducible apply Keeps.ite_ | split)
    | assumption
    | intro _
    | dsimp only)

theorem Keeps.copyGroup {m : ModelCfg} {old new : Bool} {src dst : Nat} {s0 s : State}  (hK : Keeps s0 s) : Keeps s0 (copyGroup m old new src dst s) := by
  unfold Sys2Proof.Machine.copyGroup
  repeat' (first
    | with_reducible assumption
    | exact fun _ hx => hx
    | exact fun _ => rfl
    | with_reducible refine Keeps.forAll (fun _ _ _ => ?_) ?_
    | with_reducible apply Keeps.tierCopy
    | with_reducible apply Keeps.ite_
    | split
    | (refine Keeps.lit ?_ rfl rfl id id id id id; first | with_reducible assumption | with_reducible refine Keeps.forAll (fun _ _ _ => ?_) ?_ | with_reducible apply Keeps.tierCopy | with_reducible apply Keeps.ite_ | split)
    | assumption
    | intro _
    | dsimp only)

theorem Keeps.copyTail {m : ModelCfg} {t : XTable} {lo : Nat} {keep : Bool} {base kb : Nat} {s0 s : State}  (hK : Keeps s0 s) : Keeps s0 (copyTail m t lo keep base kb s) := by
  unfold Sys2Proof.Machine.copyTail
  repeat' (first
    | with_reducible assumption
    | exact fun _ hx => hx
    | exact fun _ => rfl
    | with_reducible apply Keeps.copyGroup
    | with_reducible apply Keeps.tierCopy
    | with_reducible apply Keeps.ite_
    | split
    | (refine Keeps.lit ?_ rfl rfl id id id id id; first | with_reducible assumption | with_reducible apply Keeps.copyGroup | with_reducible apply Keeps.tierCopy | with_reducible apply Keeps.ite_ | split)
    | assumption
    | intro _
    | dsimp only)

theorem Keeps.allocTable {p : PartId} {m : ModelCfg} {ver : Nat} {r : Req} {s0 s : State} (hK : Keeps s0 s) : Keeps.Opt s0 (allocTable p m ver r s) := by
  unfold Sys2Proof.Machine.allocTable
  extract_lets x keep gb need idx sess lo n len
  split
  · rename_i h
    have h1 := Keeps.allocRuns_eq h hK
    extract_lets kb priv front s1 s2 t s3 s4
    have h2 : Keeps s0 s1 := Keeps.clearRun h1
    have h3 : Keeps s0 s2 := by
      unfold s2
      clear_value s1 sess
      cases sess
      · exact h2
      · exact Keeps.copyTail h2
    have h4 : Keeps s0 s3 := by
      unfold s3
      clear_value s2 sess
      cases sess
      · exact h3
      · exact Keeps.updTable h3
    exact Keeps.Opt.some_ (Keeps.updReq (Keeps.storeTable (Keeps.updPart h4 (fun _ h => h))))
  · exact Keeps.Opt.none_

theorem Keeps.admitReq_some {p : PartId} {m : ModelCfg} {num : Nat} {b : Batch} {r : Req} {s0 s : State} {x : Batch × State} (eK : admitReq p m num b r s = some x)
    (hK : Keeps s0 s) : Keeps s0 x.2 := by
  unfold Sys2Proof.Machine.admitReq at eK
  dsimp only at eK
  obtain ⟨u, hu, e⟩ := Option.map_eq_some_iff.mp eK
  subst e
  exact Keeps.updReq (Keeps.allocTable hK u hu)

theorem Keeps.ruleOn {p : PartId} {r : Req} {v : Verdict} {s0 s : State}  (hK : Keeps s0 s) : Keeps s0 (ruleOn p r v s) := by
  unfold Sys2Proof.Machine.ruleOn
  repeat' (first
    | with_reducible assumption
    | exact fun _ hx => hx
    | exact fun _ => rfl
    | with_reducible apply Keeps.decideCode
    | with_reducible apply Keeps.updReq
    | with_reducible apply Keeps.ite_
    | split
    | (refine Keeps.lit ?_ rfl rfl id id id id id; first | with_reducible assumption | with_reducible apply Keeps.decideCode | with_reducible apply Keeps.updReq | with_reducible apply Keeps.ite_ | split)
    | assumption
    | intro _
    | dsimp only)

theorem Keeps.placeReq_get {p : PartId} {cfg : PCfg} {m : ModelCfg} {start num : Nat} {b : Batch} {r : Req} {s0 s : State} (hK : Keeps s0 s) : Keeps s0 (placeReq p cfg m start num b r s).2 := by
  unfold Sys2Proof.Machine.placeReq
  try dsimp only
  repeat' (first
    | with_reducible assumption
    | refine Keeps.admitReq_some (by assumption) ?_
    | exact fun _ hx => hx
    | exact fun _ => rfl
    | with_reducible apply Keeps.ruleOn
    | with_reducible apply Keeps.evictNodes
    | with_reducible apply Keeps.ite_
    | split
    | (refine Keeps.lit ?_ rfl rfl id id id id id; first | with_reducible assumption | refine Keeps.admitReq_some (by assumption) ?_ | with_reducible apply Keeps.ruleOn | with_reducible apply Keeps.evictNodes | with_reducible apply Keeps.ite_ | split)
    | assumption
    | intro _
    | dsimp only)

theorem Keeps.placeReq_eq {p : PartId} {cfg : PCfg} {m : ModelCfg} {start num : Nat} {b : Batch} {r : Req} {s0 s tK : State} {aK : Batch} (eK : placeReq p cfg m start num b r s = (aK, tK)) (hK : Keeps s0 s) : Keeps s0 tK := by
  have hR := Keeps.placeReq_get (p := p) (cfg := cfg) (m := m) (start := start) (num := num) (b := b) (r := r) hK
  rw [eK] at hR
  exact hR

theorem Keeps.evalReq_get {p : PartId} {cfg : PCfg} {start num : Nat} {b : Batch} {r0 : Req} {s0 s : State} (hK : Keeps s0 s) : Keeps s0 (evalReq p cfg start num b r0 s).2 := by
  unfold Sys2Proof.Machine.evalReq
  try dsimp only
  repeat' (first
    | with_reducible assumption
    | exact fun _ hx => hx
    | exact fun _ => rfl
    | with_reducible apply Keeps.ruleOn
    | with_reducible apply Keeps.firstEval
    | with_reducible apply Keeps.ite_
    | with_reducible apply Keeps.checkVariant_get
    | refine Keeps.checkVariant_eq (by with_reducible assumption) ?_
    | with_reducible apply Keeps.placeReq_get
    | refine Keeps.placeReq_eq (by with_reducible assumption) ?_
    | split
    | (refine Keeps.lit ?_ rfl rfl id id id id id; first | with_reducible assumption | with_reducible apply Keeps.ruleOn | with_reducible apply Keeps.firstEval | with_reducible apply Keeps.ite_ | with_reducible apply Keeps.checkVariant_get | refine Keeps.checkVariant_eq (by with_reducible assumption) ?_ | with_reducible apply Keeps.placeReq_get | refine Keeps.placeReq_eq (by with_reducible assumption) ?_ | split)
    | assumption
    | intro _
    | dsimp only)

theorem Keeps.evalReq_eq {p : PartId} {cfg : PCfg} {start num : Nat} {b : Batch} {r0 : Req} {s0 s tK : State} {aK : Batch} (eK : evalReq p cfg start num b r0 s = (aK, tK)) (hK : Keeps s0 s) : Keeps s0 tK := by
  have hR := Keeps.evalReq_get (p := p) (cfg := cfg) (start := start) (num := num) (b := b) (r0 := r0) hK
  rw [eK] at hR
  exact hR

theorem Keeps.sendTaskStart {p : PartId} {t : Task} {s0 s : State}  (hK : Keeps s0 s) : Keeps s0 (sendTaskStart p t s) := by
  unfold Sys2Proof.Machine.sendTaskStart
  repeat' (first
    | with_reducible assumption
    | exact fun _ hx => hx
    | exact fun _ => rfl
    | with_reducible refine Keeps.forAll (fun _ _ _ => ?_) ?_
    | with_reducible apply Keeps.sendM
    | with_reducible apply Keeps.ite_
    | split
    | (refine Keeps.lit ?_ rfl rfl id id id id id; first | with_reducible assumption | with_reducible refine Keeps.forAll (fun _ _ _ => ?_) ?_ | with_reducible apply Keeps.sendM | with_reducible apply Keeps.ite_ | split)
    | assumption
    | intro _
    | dsimp only)

theorem Keeps.evalAll_get {p : PartId} {cfg : PCfg} {start num : Nat} {l : List Req} {s0 s : State} (hK : Keeps s0 s) :
    Keeps s0 (evalAll p cfg start num l s).2 := by
  have h (l : List Req) (a : Batch × State) (ha : Keeps s0 a.2) :
      Keeps s0 (l.foldl (fun (a : Batch × State) r => Machine.evalReq p cfg start num a.1 r a.2) a).2 := by
    induction l generalizing a with
    | nil => exact ha
    | cons r t ih => exact ih _ (Keeps.evalReq_get ha)
  exact h l _ hK

theorem Keeps.evalAll_eq {p : PartId} {cfg : PCfg} {start num : Nat} {l : List Req} {s0 s tK : State} {aK : Batch}
    (eK : evalAll p cfg start num l s = (aK, tK)) (hK : Keeps s0 s) : Keeps s0 tK := by
  have hR := Keeps.evalAll_get (p := p) (cfg := cfg) (start := start) (num := num) (l := l) hK
  rw [eK] at hR
  exact hR

theorem Keeps.wakeIdle {s0 s : State} (hK : Keeps s0 s) : Keeps s0 (wakeIdle s) := by
  unfold Sys2Proof.Machine.wakeIdle
  split
  · exact Keeps.setRun hK (fun _ => ⟨nofun, nofun⟩)
  · exact hK

theorem Keeps.execAdmission {p : PartId} {s0 s tK : State} (eK : execAdmission p s = .next tK) (hK : Keeps s0 s) : Keeps s0 tK := by
  unfold Sys2Proof.Machine.execAdmission at eK
  cases eK
  repeat' (first
    | with_reducible assumption
    | exact fun _ hx => hx
    | exact fun _ => rfl
    | with_reducible apply Keeps.updPart
    | with_reducible apply Keeps.trace
    | with_reducible apply Keeps.sendTaskStart
    | with_reducible apply Keeps.wakeIdle
    | with_reducible apply Keeps.ite_
    | with_reducible apply Keeps.evalAll_get
    | refine Keeps.evalAll_eq (by with_reducible assumption) ?_
    | split
    | (refine Keeps.lit ?_ rfl rfl id id id id id; first | with_reducible assumption | with_reducible apply Keeps.updPart | with_reducible apply Keeps.trace | with_reducible apply Keeps.sendTaskStart | with_reducible apply Keeps.wakeIdle | with_reducible apply Keeps.ite_ | with_reducible apply Keeps.evalAll_get | refine Keeps.evalAll_eq (by with_reducible assumption) ?_ | split)
    | assumption
    | intro _
    | dsimp only)

theorem CoreOk.startCore {t : Task} {regs : Vector W64 64} {l : List Byte} {x : Core} (h : CoreOk x) : CoreOk (startCore t regs l x) :=
  ⟨wrBytes_wf _ _ _ h.1, h.2.1, h.2.2.2, h.2.2.2⟩

theorem Keeps.startTask {p : PartId} {cfg : PCfg} {t : Task} {s0 s : State}  (hK : Keeps s0 s) : Keeps s0 (startTask p cfg t s) := by
  unfold Sys2Proof.Machine.startTask
  repeat' (first
    | with_reducible assumption
    | exact CoreOk.startCore (by assumption)
    | exact fun _ hx => hx
    | exact fun _ => rfl
    | with_reducible refine Keeps.forAll (fun _ _ _ => ?_) ?_
    | with_reducible apply Keeps.updCore
    | with_reducible apply Keeps.updPart
    | with_reducible apply Keeps.ite_
    | with_reducible apply Keeps.takeFree_get
    | refine Keeps.takeFree_eq (by with_reducible assumption) ?_
    | with_reducible apply Keeps.allocRuns_get
    | refine Keeps.allocRuns_eq (by with_reducible assumption) ?_
    | with_reducible apply Keeps.stage_get
    | refine Keeps.stage_eq (by with_reducible assumption) ?_
    | split
    | (refine Keeps.lit ?_ rfl rfl id id id id id; first | with_reducible assumption | exact CoreOk.startCore (by assumption) | with_reducible refine Keeps.forAll (fun _ _ _ => ?_) ?_ | with_reducible apply Keeps.updCore | with_reducible apply Keeps.updPart | with_reducible apply Keeps.ite_ | with_reducible apply Keeps.takeFree_get | refine Keeps.takeFree_eq (by with_reducible assumption) ?_ | with_reducible apply Keeps.allocRuns_get | refine Keeps.allocRuns_eq (by with_reducible assumption) ?_ | with_reducible apply Keeps.stage_get | refine Keeps.stage_eq (by with_reducible assumption) ?_ | split)
    | assumption
    | intro _
    | dsimp only)

theorem Keeps.execTaskStart {p : PartId} {s0 s tK : State} (eK : execTaskStart p s = .next tK) (hK : Keeps s0 s) : Keeps s0 tK := by
  unfold Sys2Proof.Machine.execTaskStart at eK
  cases eK
  repeat' (first
    | with_reducible assumption
    | exact fun _ hx => hx
    | exact fun _ => rfl
    | with_reducible apply Keeps.trace
    | with_reducible apply Keeps.startTask
    | with_reducible apply Keeps.ite_
    | split
    | (refine Keeps.lit ?_ rfl rfl id id id id id; first | with_reducible assumption | with_reducible apply Keeps.trace | with_reducible apply Keeps.startTask | with_reducible apply Keeps.ite_ | split)
    | assumption
    | intro _
    | dsimp only)

theorem Keeps.execTaskStartMessage {p : PartId} {task : W32} {startTick : W64} {entries : List LenEntry} {epochs : List W16} {s0 s tK : State} (eK : execTaskStartMessage p task startTick entries epochs s = .next tK) (hK : Keeps s0 s) : Keeps s0 tK := by
  unfold Sys2Proof.Machine.execTaskStartMessage at eK
  cases eK
  repeat' (first
    | with_reducible assumption
    | exact fun x hx => CoreOk.withWs hx (by with_reducible first | exact wsWr_wf _ _ _ hx.1 | exact writeRecord_wf _ _ _ _ _ _ hx.1 | exact storeTile_wf _ _ _ _ _ hx.1 | exact emptySide_wf _ _ _ _ hx.1 | exact clearSide_wf _ _ _ hx.1 | exact wr8_wf _ _ _ hx.1 | exact foldl_wf _ _ (fun m y hm => writeRecord_wf _ _ _ _ _ _ hm) _ hx.1 | exact foldl_wf _ _ (fun m y hm => wsWr_wf _ _ _ hm) _ hx.1)
    | exact fun _ hx => hx
    | exact fun _ => rfl
    | with_reducible refine Keeps.forAll (fun _ _ _ => ?_) ?_
    | with_reducible apply Keeps.storeTable
    | with_reducible apply Keeps.updPart
    | with_reducible apply Keeps.clearRun
    | with_reducible apply Keeps.ite_
    | with_reducible apply Keeps.allocRuns_get
    | refine Keeps.allocRuns_eq (by with_reducible assumption) ?_
    | split
    | (refine Keeps.lit ?_ rfl rfl id id id id id; first | with_reducible assumption | with_reducible refine Keeps.forAll (fun _ _ _ => ?_) ?_ | with_reducible apply Keeps.storeTable | with_reducible apply Keeps.updPart | with_reducible apply Keeps.clearRun | with_reducible apply Keeps.ite_ | with_reducible apply Keeps.allocRuns_get | refine Keeps.allocRuns_eq (by with_reducible assumption) ?_ | split)
    | assumption
    | intro _
    | dsimp only)

theorem Keeps.execStateReport {p : PartId} {src : DevAddr} {tstate pstate service sstate : Byte} {s0 s tK : State} (eK : execStateReport p src tstate pstate service sstate s = .next tK) (hK : Keeps s0 s) : Keeps s0 tK := by
  unfold Sys2Proof.Machine.execStateReport at eK
  cases eK
  repeat' (first
    | with_reducible assumption
    | exact fun _ hx => hx
    | exact fun _ => rfl
    | with_reducible apply Keeps.updPart
    | with_reducible apply Keeps.ite_
    | split
    | (refine Keeps.lit ?_ rfl rfl id id id id id; first | with_reducible assumption | with_reducible apply Keeps.updPart | with_reducible apply Keeps.ite_ | split)
    | assumption
    | intro _
    | dsimp only)

theorem Keeps.execTaskPrepared {p : PartId} {src : DevAddr} {task : W32} {s0 s tK : State} (eK : execTaskPrepared p src task s = .next tK) (hK : Keeps s0 s) : Keeps s0 tK := by
  unfold Sys2Proof.Machine.execTaskPrepared at eK
  cases eK
  repeat' (first
    | with_reducible assumption
    | exact fun _ hx => hx
    | exact fun _ => rfl
    | with_reducible apply Keeps.updPart
    | with_reducible apply Keeps.ite_
    | split
    | (refine Keeps.lit ?_ rfl rfl id id id id id; first | with_reducible assumption | with_reducible apply Keeps.updPart | with_reducible apply Keeps.ite_ | split)
    | assumption
    | intro _
    | dsimp only)

theorem Keeps.drawToken {p : PartId} {logits : List (Nat × W64 × List W32)} {r : Req} {s0 s : State}  (hK : Keeps s0 s) : Keeps s0 (drawToken p logits r s) := by
  unfold Sys2Proof.Machine.drawToken
  repeat' (first
    | with_reducible assumption
    | exact fun _ hx => hx
    | exact fun _ => rfl
    | with_reducible apply Keeps.hostWrite
    | with_reducible apply Keeps.updReq
    | with_reducible apply Keeps.ite_
    | split
    | (refine Keeps.lit ?_ rfl rfl id id id id id; first | with_reducible assumption | with_reducible apply Keeps.hostWrite | with_reducible apply Keeps.updReq | with_reducible apply Keeps.ite_ | split)
    | assumption
    | intro _
    | dsimp only)

theorem Keeps.execTaskEnd {p : PartId} {logits : List (Nat × W64 × List W32)} {s0 s tK : State} (eK : execTaskEnd p logits s = .next tK) (hK : Keeps s0 s) : Keeps s0 tK := by
  unfold Sys2Proof.Machine.execTaskEnd at eK
  cases eK
  repeat' (first
    | with_reducible assumption
    | exact fun _ hx => hx
    | exact fun _ => rfl
    | with_reducible apply Keeps.skimTask
    | with_reducible apply Keeps.meetCkpt
    | with_reducible apply Keeps.updPart
    | with_reducible refine Keeps.forAll (fun _ _ _ => ?_) ?_
    | with_reducible apply Keeps.drawToken
    | with_reducible apply Keeps.trace
    | with_reducible refine Keeps.whenS (fun _ _ => ?_) ?_
    | with_reducible apply Keeps.sendM
    | with_reducible apply Keeps.releaseDue
    | with_reducible apply Keeps.ite_
    | split
    | (refine Keeps.lit ?_ rfl rfl id id id id id; first | with_reducible assumption | with_reducible apply Keeps.skimTask | with_reducible apply Keeps.meetCkpt | with_reducible apply Keeps.updPart | with_reducible refine Keeps.forAll (fun _ _ _ => ?_) ?_ | with_reducible apply Keeps.drawToken | with_reducible apply Keeps.trace | with_reducible refine Keeps.whenS (fun _ _ => ?_) ?_ | with_reducible apply Keeps.sendM | with_reducible apply Keeps.releaseDue | with_reducible apply Keeps.ite_ | split)
    | assumption
    | intro _
    | dsimp only)

theorem Keeps.sendSegment_get {p : PartId} {r : Req} {sg : Seg} {payload : List Byte} {s0 s : State} (hK : Keeps s0 s) : Keeps s0 (sendSegment p r sg payload s).2 := by
  unfold Sys2Proof.Machine.sendSegment
  try dsimp only
  repeat' (first
    | with_reducible assumption
    | exact fun _ hx => hx
    | exact fun _ => rfl
    | with_reducible apply Keeps.addWrite
    | with_reducible apply Keeps.ensureQp
    | with_reducible apply Keeps.emit
    | with_reducible apply Keeps.abortTask
    | with_reducible apply Keeps.updReq
    | with_reducible apply Keeps.ite_
    | with_reducible apply Keeps.charge_get
    | refine Keeps.charge_eq (by with_reducible assumption) ?_
    | with_reducible apply Keeps.injectSegment_get
    | refine Keeps.injectSegment_eq (by with_reducible assumption) ?_
    | split
    | (refine Keeps.lit ?_ rfl rfl id id id id id; first | with_reducible assumption | with_reducible apply Keeps.addWrite | with_reducible apply Keeps.ensureQp | with_reducible apply Keeps.emit | with_reducible apply Keeps.abortTask | with_reducible apply Keeps.updReq | with_reducible apply Keeps.ite_ | with_reducible apply Keeps.charge_get | refine Keeps.charge_eq (by with_reducible assumption) ?_ | with_reducible apply Keeps.injectSegment_get | refine Keeps.injectSegment_eq (by with_reducible assumption) ?_ | split)
    | assumption
    | intro _
    | dsimp only)

theorem Keeps.sendSegment_eq {p : PartId} {r : Req} {sg : Seg} {payload : List Byte} {s0 s tK : State} {aK : Bool} (eK : sendSegment p r sg payload s = (aK, tK)) (hK : Keeps s0 s) : Keeps s0 tK := by
  have hR := Keeps.sendSegment_get (p := p) (r := r) (sg := sg) (payload := payload) hK
  rw [eK] at hR
  exact hR

theorem Keeps.execSegmentHandOff {p : PartId} {reqid : W64} {payload : List Byte} {s0 s tK : State} (eK : execSegmentHandOff p reqid payload s = .next tK) (hK : Keeps s0 s) : Keeps s0 tK := by
  unfold Sys2Proof.Machine.execSegmentHandOff at eK
  cases eK
  repeat' (first
    | with_reducible assumption
    | exact fun _ hx => hx
    | exact fun _ => rfl
    | with_reducible apply Keeps.openAttempt
    | with_reducible apply Keeps.pumpAll
    | with_reducible apply Keeps.updReq
    | with_reducible apply Keeps.ite_
    | with_reducible apply Keeps.sendSegment_get
    | refine Keeps.sendSegment_eq (by with_reducible assumption) ?_
    | split
    | (refine Keeps.lit ?_ rfl rfl id id id id id; first | with_reducible assumption | with_reducible apply Keeps.openAttempt | with_reducible apply Keeps.pumpAll | with_reducible apply Keeps.updReq | with_reducible apply Keeps.ite_ | with_reducible apply Keeps.sendSegment_get | refine Keeps.sendSegment_eq (by with_reducible assumption) ?_ | split)
    | assumption
    | intro _
    | dsimp only)

theorem Keeps.poolRoom {d : Domain} {parent : Nat} {s0 s : State}  (hK : Keeps s0 s) : Keeps s0 (poolRoom d parent s) := by
  unfold Sys2Proof.Machine.poolRoom
  repeat' (first
    | with_reducible assumption
    | exact fun _ hx => hx
    | exact fun _ => rfl
    | with_reducible apply Keeps.evictNodes
    | with_reducible apply Keeps.ite_
    | split
    | (refine Keeps.lit ?_ rfl rfl id id id id id; first | with_reducible assumption | with_reducible apply Keeps.evictNodes | with_reducible apply Keeps.ite_ | split)
    | assumption
    | intro _
    | dsimp only)

theorem Keeps.insertBlocks_get {p : PartId} {d : Domain} {k1 tag : W64} {region base gb ref : Nat} {taken : List (Nat × Nat)} {place : Nat → Option Nat} {l : List (List W32)} {n parent : Nat}
    {h : W64} {s0 s : State} (hK : Keeps s0 s) : Keeps s0 (insertBlocks p d k1 tag region base gb ref taken place l n parent h s).2 := by
  induction l generalizing n parent h s with
  | nil => exact hK
  | cons b r ih =>
    unfold Sys2Proof.Machine.insertBlocks
    dsimp only
    split
    · exact Keeps.updPart (f := fun x => { x with insRej := satAdd 64 x.insRej 1 }) hK (fun _ h => h)
    · have h1 := Keeps.poolRoom (d := d) (parent := parent) hK
      generalize Machine.poolRoom d parent s = s1 at h1 ⊢
      split
      · exact h1
      · split
        · rename_i he
          exact Keeps.allocBase_eq he h1
        · rename_i he
          exact ih (Keeps.updNodes (Keeps.updMem (Keeps.allocBase_eq he h1) (fun _ h => h)))

theorem Keeps.insertBlocks_eq {p : PartId} {d : Domain} {k1 tag : W64} {region base gb ref : Nat} {taken : List (Nat × Nat)} {place : Nat → Option Nat} {l : List (List W32)} {n parent : Nat}
    {h : W64} {s0 s tK : State} {aK : Nat} (eK : insertBlocks p d k1 tag region base gb ref taken place l n parent h s = (aK, tK)) (hK : Keeps s0 s) : Keeps s0 tK := by
  have hR := Keeps.insertBlocks_get (p := p) (d := d) (k1 := k1) (tag := tag) (region := region) (base := base) (gb := gb) (ref := ref) (taken := taken) (place := place)
    (l := l) (n := n) (parent := parent) (h := h) hK
  rw [eK] at hR
  exact hR

theorem Keeps.prefixInsert_get {p : PartId} {m : ModelCfg} {r : Req} {retained : Bool} {s0 s : State} (hK : Keeps s0 s) :
    Keeps s0 (prefixInsert p m r retained s).2.2 := by
  unfold Sys2Proof.Machine.prefixInsert
  split
  · dsimp only
    split
    · exact hK
    · generalize (if r.desc.opc = 2 then r.tokens else r.tokens.drop r.qpos) = toks
      split
      · rename_i he
        split
        · exact Keeps.insertBlocks_get (Keeps.allocBase_eq he hK)
        · exact Keeps.tierCopy (Keeps.insertBlocks_get (Keeps.allocBase_eq he hK))
      · exact hK
  · exact hK
  · exact hK

theorem Keeps.prefixInsert_eq {p : PartId} {m : ModelCfg} {r : Req} {retained : Bool} {s0 s tK : State} {a b : List Extent}
    (eK : prefixInsert p m r retained s = (a, b, tK)) (hK : Keeps s0 s) : Keeps s0 tK := by
  have hR := Keeps.prefixInsert_get (p := p) (m := m) (r := r) (retained := retained) hK
  rw [eK] at hR
  exact hR

theorem Keeps.commitEntries {p : PartId} {xt : Nat} {es freed moved : List Extent} {len : Nat} {ext : Option XTable} {s0 s : State}  (hK : Keeps s0 s) : Keeps s0 (commitEntries p xt es freed moved len ext s) := by
  unfold Sys2Proof.Machine.commitEntries
  repeat' (first
    | with_reducible assumption
    | exact fun _ hx => hx
    | exact fun _ => rfl
    | with_reducible apply Keeps.updTable
    | with_reducible apply Keeps.updPart
    | with_reducible refine Keeps.forAll (fun _ _ _ => ?_) ?_
    | with_reducible apply Keeps.logFreed
    | with_reducible apply Keeps.ite_
    | split
    | (refine Keeps.lit ?_ rfl rfl id id id id id; first | with_reducible assumption | with_reducible apply Keeps.updTable | with_reducible apply Keeps.updPart | with_reducible refine Keeps.forAll (fun _ _ _ => ?_) ?_ | with_reducible apply Keeps.logFreed | with_reducible apply Keeps.ite_ | split)
    | assumption
    | intro _
    | dsimp only)

theorem Keeps.settleKeepers {p : PartId} {m : ModelCfg} {xt : Nat} {moved : List Extent} {s0 s : State}  (hK : Keeps s0 s) : Keeps s0 (settleKeepers p m xt moved s) := by
  unfold Sys2Proof.Machine.settleKeepers
  repeat' (first
    | with_reducible assumption
    | exact fun _ hx => hx
    | exact fun _ => rfl
    | with_reducible apply Keeps.compactKeepers
    | with_reducible apply Keeps.ite_
    | split
    | (refine Keeps.lit ?_ rfl rfl id id id id id; first | with_reducible assumption | with_reducible apply Keeps.compactKeepers | with_reducible apply Keeps.ite_ | split)
    | assumption
    | intro _
    | dsimp only)

theorem Keeps.settleExtend {p : PartId} {m : ModelCfg} {r : Req} {es moved : List Extent} {lo back : Nat} {old new : XTable} {s0 s : State}  (hK : Keeps s0 s) : Keeps s0 (settleExtend p m r es moved lo back old new s) := by
  unfold Sys2Proof.Machine.settleExtend
  repeat' (first
    | with_reducible assumption
    | exact fun _ hx => hx
    | exact fun _ => rfl
    | with_reducible apply Keeps.commitEntries
    | with_reducible apply Keeps.settleKeepers
    | with_reducible apply Keeps.updPart
    | with_reducible apply Keeps.updReq
    | with_reducible apply Keeps.sessionIdle
    | with_reducible apply Keeps.ite_
    | split
    | (refine Keeps.lit ?_ rfl rfl id id id id id; first | with_reducible assumption | with_reducible apply Keeps.commitEntries | with_reducible apply Keeps.settleKeepers | with_reducible apply Keeps.updPart | with_reducible apply Keeps.updReq | with_reducible apply Keeps.sessionIdle | with_reducible apply Keeps.ite_ | split)
    | assumption
    | intro _
    | dsimp only)

theorem Keeps.settleMemory {p : PartId} {m : ModelCfg} {r : Req} {s0 s : State}  (hK : Keeps s0 s) : Keeps s0 (settleMemory p m r s) := by
  unfold Sys2Proof.Machine.settleMemory
  repeat' (first
    | with_reducible assumption
    | exact fun _ hx => hx
    | exact fun _ => rfl
    | with_reducible apply Keeps.settleExtend
    | with_reducible apply Keeps.commitEntries
    | with_reducible apply Keeps.settleKeepers
    | with_reducible apply Keeps.updPart
    | with_reducible apply Keeps.updReq
    | with_reducible refine Keeps.forAll (fun _ _ _ => ?_) ?_
    | with_reducible apply Keeps.logFreed
    | with_reducible apply Keeps.freeReq
    | with_reducible apply Keeps.ite_
    | with_reducible apply Keeps.prefixInsert_get
    | refine Keeps.prefixInsert_eq (by with_reducible assumption) ?_
    | split
    | (refine Keeps.lit ?_ rfl rfl id id id id id; first | with_reducible assumption | with_reducible apply Keeps.settleExtend | with_reducible apply Keeps.commitEntries | with_reducible apply Keeps.settleKeepers | with_reducible apply Keeps.updPart | with_reducible apply Keeps.updReq | with_reducible refine Keeps.forAll (fun _ _ _ => ?_) ?_ | with_reducible apply Keeps.logFreed | with_reducible apply Keeps.freeReq | with_reducible apply Keeps.ite_ | with_reducible apply Keeps.prefixInsert_get | refine Keeps.prefixInsert_eq (by with_reducible assumption) ?_ | split)
    | assumption
    | intro _
    | dsimp only)

theorem Keeps.pruneDone {p : PartId} {s0 s : State}  (hK : Keeps s0 s) : Keeps s0 (pruneDone p s) := by
  unfold Sys2Proof.Machine.pruneDone
  repeat' (first
    | with_reducible assumption
    | exact fun _ hx => hx
    | exact fun _ => rfl
    | with_reducible apply Keeps.updPart
    | with_reducible apply Keeps.ite_
    | split
    | (refine Keeps.lit ?_ rfl rfl id id id id id; first | with_reducible assumption | with_reducible apply Keeps.updPart | with_reducible apply Keeps.ite_ | split)
    | assumption
    | intro _
    | dsimp only)

theorem Keeps.execCommit {p : PartId} {reqid : W64} {s0 s tK : State} (eK : execCommit p reqid s = .next tK) (hK : Keeps s0 s) : Keeps s0 tK := by
  unfold Sys2Proof.Machine.execCommit at eK
  cases eK
  repeat' (first
    | with_reducible assumption
    | exact fun _ hx => hx
    | exact fun _ => rfl
    | with_reducible apply Keeps.settleMemory
    | with_reducible apply Keeps.attemptRecord
    | with_reducible apply Keeps.journalNear
    | with_reducible apply Keeps.controlSeg
    | with_reducible apply Keeps.updReq
    | with_reducible apply Keeps.pruneDone
    | with_reducible apply Keeps.releaseAll
    | with_reducible apply Keeps.journalFinal
    | with_reducible apply Keeps.ite_
    | split
    | (refine Keeps.lit ?_ rfl rfl id id id id id; first | with_reducible assumption | with_reducible apply Keeps.settleMemory | with_reducible apply Keeps.attemptRecord | with_reducible apply Keeps.journalNear | with_reducible apply Keeps.controlSeg | with_reducible apply Keeps.updReq | with_reducible apply Keeps.pruneDone | with_reducible apply Keeps.releaseAll | with_reducible apply Keeps.journalFinal | with_reducible apply Keeps.ite_ | split)
    | assumption
    | intro _
    | dsimp only)

theorem Keeps.failRequests {p : PartId} {t : Task} {code : Byte} {causes : List Cause} {uncounted : Bool} {s0 s : State}  (hK : Keeps s0 s) : Keeps s0 (failRequests p t code causes uncounted s) := by
  unfold Sys2Proof.Machine.failRequests
  repeat' (first
    | with_reducible assumption
    | exact fun _ hx => hx
    | exact fun _ => rfl
    | with_reducible refine Keeps.forAll (fun _ _ _ => ?_) ?_
    | with_reducible apply Keeps.retryOrFinal
    | with_reducible apply Keeps.ite_
    | split
    | (refine Keeps.lit ?_ rfl rfl id id id id id; first | with_reducible assumption | with_reducible refine Keeps.forAll (fun _ _ _ => ?_) ?_ | with_reducible apply Keeps.retryOrFinal | with_reducible apply Keeps.ite_ | split)
    | assumption
    | intro _
    | dsimp only)

theorem Keeps.abortRecord {p : PartId} {t : Task} {code : Byte} {w : AbortWin} {s0 s : State}  (hK : Keeps s0 s) : Keeps s0 (abortRecord p t code w s) := by
  unfold Sys2Proof.Machine.abortRecord
  repeat' (first
    | with_reducible assumption
    | exact fun _ hx => hx
    | exact fun _ => rfl
    | with_reducible apply Keeps.logR
    | with_reducible apply Keeps.ite_
    | split
    | (refine Keeps.lit ?_ rfl rfl id id id id id; first | with_reducible assumption | with_reducible apply Keeps.logR | with_reducible apply Keeps.ite_ | split)
    | assumption
    | intro _
    | dsimp only)

theorem Keeps.countAbort {p : PartId} {code : Byte} {s0 s : State}  (hK : Keeps s0 s) : Keeps s0 (countAbort p code s) := by
  unfold Sys2Proof.Machine.countAbort
  repeat' (first
    | with_reducible assumption
    | exact fun _ hx => hx
    | exact fun _ => rfl
    | with_reducible apply Keeps.updPart
    | with_reducible apply Keeps.ite_
    | split
    | (refine Keeps.lit ?_ rfl rfl id id id id id; first | with_reducible assumption | with_reducible apply Keeps.updPart | with_reducible apply Keeps.ite_ | split)
    | assumption
    | intro _
    | dsimp only)

theorem Keeps.closeWindow {p : PartId} {s0 s : State}  (hK : Keeps s0 s) : Keeps s0 (closeWindow p s) := by
  unfold Sys2Proof.Machine.closeWindow
  repeat' (first
    | with_reducible assumption
    | exact fun _ hx => hx
    | exact fun _ => rfl
    | with_reducible apply Keeps.countAbort
    | with_reducible apply Keeps.abortRecord
    | with_reducible apply Keeps.updPart
    | with_reducible apply Keeps.trace
    | with_reducible apply Keeps.releaseDue
    | with_reducible apply Keeps.failRequests
    | with_reducible apply Keeps.ite_
    | split
    | (refine Keeps.lit ?_ rfl rfl id id id id id; first | with_reducible assumption | with_reducible apply Keeps.countAbort | with_reducible apply Keeps.abortRecord | with_reducible apply Keeps.updPart | with_reducible apply Keeps.trace | with_reducible apply Keeps.releaseDue | with_reducible apply Keeps.failRequests | with_reducible apply Keeps.ite_ | split)
    | assumption
    | intro _
    | dsimp only)

theorem Keeps.execAbortWindowClose {p : PartId} {s0 s tK : State} (eK : execAbortWindowClose p s = .next tK) (hK : Keeps s0 s) : Keeps s0 tK := by
  unfold Sys2Proof.Machine.execAbortWindowClose at eK
  cases eK
  repeat' (first
    | with_reducible assumption
    | exact fun _ hx => hx
    | exact fun _ => rfl
    | with_reducible apply Keeps.closeWindow
    | with_reducible apply Keeps.ite_
    | split
    | (refine Keeps.lit ?_ rfl rfl id id id id id; first | with_reducible assumption | with_reducible apply Keeps.closeWindow | with_reducible apply Keeps.ite_ | split)
    | assumption
    | intro _
    | dsimp only)

theorem Keeps.execNotice {h : PktHdr} {s0 s tK : State} (eK : execNotice h s = .next tK) (hK : Keeps s0 s) : Keeps s0 tK := by
  unfold Sys2Proof.Machine.execNotice at eK
  cases eK
  repeat' (first
    | with_reducible assumption
    | exact fun _ hx => hx
    | exact fun _ => rfl
    | with_reducible apply Keeps.logR
    | with_reducible apply Keeps.abortTask
    | with_reducible apply Keeps.failRequests
    | with_reducible apply Keeps.updPart
    | with_reducible apply Keeps.ite_
    | split
    | (refine Keeps.lit ?_ rfl rfl id id id id id; first | with_reducible assumption | with_reducible apply Keeps.logR | with_reducible apply Keeps.abortTask | with_reducible apply Keeps.failRequests | with_reducible apply Keeps.updPart | with_reducible apply Keeps.ite_ | split)
    | assumption
    | intro _
    | dsimp only)

end Sys2Proof.Machine
end

