-- ==== Sys2Proof/Laws/KeepsMemTiers.lean ====
section
/-! SUPPORT. What the operations of Machine/MemTiers.lean keep: the queue, the modes and the canonical stores. -/

set_option linter.unusedTactic false
set_option linter.unreachableTactic false

namespace Sys2Proof.Machine

theorem Keeps.upkeepRetrain {rtp : Nat} {ok : Bool} {s0 s : State}  (hK : Keeps s0 s) : Keeps s0 (upkeepRetrain rtp ok s) := by
  unfold Sys2Proof.Machine.upkeepRetrain
  repeat' (first
    | with_reducible assumption
    | exact fun _ hx => hx
    | exact fun _ => rfl
    | with_reducible apply Keeps.updMem
    | with_reducible apply Keeps.updChan
    | with_reducible apply Keeps.memRecord
    | with_reducible apply Keeps.failChannel
    | with_reducible apply Keeps.ite_
    | split
    | (refine Keeps.lit ?_ rfl rfl id id id id id; first | with_reducible assumption | with_reducible apply Keeps.updMem | with_reducible apply Keeps.updChan | with_reducible apply Keeps.memRecord | with_reducible apply Keeps.failChannel | with_reducible apply Keeps.ite_ | split)
    | assumption
    | intro _
    | dsimp only)

theorem Keeps.upkeepScrub {port : Fin 5} {n : Nat} {found : List (W64 × AccessResult)} {s0 s : State}  (hK : Keeps s0 s) : Keeps s0 (upkeepScrub port n found s) := by
  unfold Sys2Proof.Machine.upkeepScrub
  repeat' (first
    | with_reducible assumption
    | exact fun _ hx => hx
    | exact fun _ => rfl
    | with_reducible refine Keeps.forAll (fun _ _ _ => ?_) ?_
    | with_reducible apply Keeps.updMem
    | with_reducible apply Keeps.updCxl
    | with_reducible apply Keeps.ite_
    | with_reducible apply Keeps.judgeRead_get
    | refine Keeps.judgeRead_eq (by with_reducible assumption) ?_
    | split
    | (refine Keeps.lit ?_ rfl rfl id id id id id; first | with_reducible assumption | with_reducible refine Keeps.forAll (fun _ _ _ => ?_) ?_ | with_reducible apply Keeps.updMem | with_reducible apply Keeps.updCxl | with_reducible apply Keeps.ite_ | with_reducible apply Keeps.judgeRead_get | refine Keeps.judgeRead_eq (by with_reducible assumption) ?_ | split)
    | assumption
    | intro _
    | dsimp only)

theorem Keeps.migrateExtent {p : PartId} {t : XTable} {i : Nat} {e : Extent} {b : Bool} {s0 s : State} (hK : Keeps s0 s) :
    Keeps.Opt s0 (migrateExtent p t i e b s) := by
  unfold Sys2Proof.Machine.migrateExtent
  dsimp only
  refine Keeps.Opt.ite_ Keeps.Opt.none_ (Keeps.Opt.ite_ Keeps.Opt.none_ ?_)
  split
  · exact Keeps.Opt.none_
  · rename_i h
    exact Keeps.Opt.some_ (Keeps.setEntries (Keeps.whenS (fun _ h => Keeps.updPart h (fun _ k => k)) (Keeps.tierCopy (Keeps.allocBase_eq h hK))))

theorem Keeps.loadBytes {p : PartId} {o : UpOp} {n : Nat} {s0 s : State}  (hK : Keeps s0 s) : Keeps s0 (loadBytes p o n s) := by
  unfold Sys2Proof.Machine.loadBytes
  repeat' (first
    | with_reducible assumption
    | exact fun _ hx => hx
    | exact fun _ => rfl
    | with_reducible apply Keeps.tierWrite
    | with_reducible apply Keeps.ite_
    | split
    | (refine Keeps.lit ?_ rfl rfl id id id id id; first | with_reducible assumption | with_reducible apply Keeps.tierWrite | with_reducible apply Keeps.ite_ | split)
    | assumption
    | intro _
    | dsimp only)

theorem Keeps.dropLoad {p : PartId} {o : UpOp} {s0 s : State}  (hK : Keeps s0 s) : Keeps s0 (dropLoad p o s) := by
  unfold Sys2Proof.Machine.dropLoad
  repeat' (first
    | with_reducible assumption
    | exact fun _ hx => hx
    | exact fun _ => rfl
    | with_reducible apply Keeps.updPart
    | with_reducible apply Keeps.ite_
    | split
    | (refine Keeps.lit ?_ rfl rfl id id id id id; first | with_reducible assumption | with_reducible apply Keeps.updPart | with_reducible apply Keeps.ite_ | split)
    | assumption
    | intro _
    | dsimp only)

theorem Keeps.upkeepMigrate {found : List (W64 × AccessResult)} {p : PartId} {s0 s : State}  (hK : Keeps s0 s) : Keeps s0 (upkeepMigrate found p s) := by
  unfold Sys2Proof.Machine.upkeepMigrate
  repeat' (first
    | with_reducible assumption
    | exact fun _ hx => hx
    | exact fun _ => rfl
    | with_reducible apply Keeps.updPart
    | with_reducible apply Keeps.opDoneRec
    | with_reducible apply Keeps.dropLoad
    | with_reducible apply Keeps.loadBytes
    | with_reducible apply Keeps.ite_
    | with_reducible apply Keeps.charge_get
    | refine Keeps.charge_eq (by with_reducible assumption) ?_
    | with_reducible apply Keeps.judgeRead_get
    | refine Keeps.judgeRead_eq (by with_reducible assumption) ?_
    | refine Keeps.migrateExtent ?_ _ (by with_reducible assumption)
    | split
    | (refine Keeps.lit ?_ rfl rfl id id id id id; first | with_reducible assumption | with_reducible apply Keeps.updPart | with_reducible apply Keeps.opDoneRec | with_reducible apply Keeps.dropLoad | with_reducible apply Keeps.loadBytes | with_reducible apply Keeps.ite_ | with_reducible apply Keeps.charge_get | refine Keeps.charge_eq (by with_reducible assumption) ?_ | with_reducible apply Keeps.judgeRead_get | refine Keeps.judgeRead_eq (by with_reducible assumption) ?_ | refine Keeps.migrateExtent ?_ _ (by with_reducible assumption) | split)
    | assumption
    | intro _
    | dsimp only)

theorem Keeps.copyError {k : Nat} {s0 s : State}  (hK : Keeps s0 s) : Keeps s0 (copyError k s) := by
  unfold Sys2Proof.Machine.copyError
  repeat' (first
    | with_reducible assumption
    | exact fun _ hx => hx
    | exact fun _ => rfl
    | with_reducible apply Keeps.updMem
    | with_reducible apply Keeps.ite_
    | split
    | (refine Keeps.lit ?_ rfl rfl id id id id id; first | with_reducible assumption | with_reducible apply Keeps.updMem | with_reducible apply Keeps.ite_ | split)
    | assumption
    | intro _
    | dsimp only)

theorem Keeps.execMemCpgo {m : Master} {srcHost dstHost : Bool} {s0 s tK : State} (eK : execMemCpgo m srcHost dstHost s = .next tK) (hK : Keeps s0 s) : Keeps s0 tK := by
  unfold Sys2Proof.Machine.execMemCpgo at eK
  cases eK
  repeat' (first
    | with_reducible assumption
    | exact fun _ hx => hx
    | exact fun _ => rfl
    | with_reducible apply Keeps.copyError
    | with_reducible apply Keeps.ignoreWrite
    | with_reducible apply Keeps.updMem
    | with_reducible apply Keeps.ite_
    | split
    | (refine Keeps.lit ?_ rfl rfl id id id id id; first | with_reducible assumption | with_reducible apply Keeps.copyError | with_reducible apply Keeps.ignoreWrite | with_reducible apply Keeps.updMem | with_reducible apply Keeps.ite_ | split)
    | assumption
    | intro _
    | dsimp only)

theorem Keeps.copyTo {c : Copy} {n : Nat} {s0 s : State}  (hK : Keeps s0 s) : Keeps s0 (copyTo c n s) := by
  unfold Sys2Proof.Machine.copyTo
  repeat' (first
    | with_reducible assumption
    | exact fun _ hx => hx
    | exact fun _ => rfl
    | with_reducible apply Keeps.hostWrite
    | with_reducible apply Keeps.tierWrite
    | with_reducible apply Keeps.ite_
    | split
    | (refine Keeps.lit ?_ rfl rfl id id id id id; first | with_reducible assumption | with_reducible apply Keeps.hostWrite | with_reducible apply Keeps.tierWrite | with_reducible apply Keeps.ite_ | split)
    | assumption
    | intro _
    | dsimp only)

theorem Keeps.copyCharge {c : Copy} {n : Nat} {s0 s : State}  (hK : Keeps s0 s) : Keeps s0 (copyCharge c n s) := by
  unfold Sys2Proof.Machine.copyCharge
  repeat' (first
    | with_reducible assumption
    | exact fun _ hx => hx
    | exact fun _ => rfl
    | with_reducible refine Keeps.whenS (fun _ _ => ?_) ?_
    | with_reducible apply Keeps.chargeD
    | with_reducible apply Keeps.ite_
    | split
    | (refine Keeps.lit ?_ rfl rfl id id id id id; first | with_reducible assumption | with_reducible refine Keeps.whenS (fun _ _ => ?_) ?_ | with_reducible apply Keeps.chargeD | with_reducible apply Keeps.ite_ | split)
    | assumption
    | intro _
    | dsimp only)

theorem Keeps.execOwnerCopyComplete {errLine : Option (W64 × AccessResult)} {s0 s tK : State} (eK : execOwnerCopyComplete errLine s = .next tK) (hK : Keeps s0 s) : Keeps s0 tK := by
  unfold Sys2Proof.Machine.execOwnerCopyComplete at eK
  cases eK
  repeat' (first
    | with_reducible assumption
    | exact fun _ hx => hx
    | exact fun _ => rfl
    | with_reducible apply Keeps.copyTo
    | with_reducible apply Keeps.updMem
    | with_reducible apply Keeps.copyError
    | with_reducible apply Keeps.vecEvent
    | with_reducible apply Keeps.ite_
    | with_reducible apply Keeps.judgeRead_get
    | refine Keeps.judgeRead_eq (by with_reducible assumption) ?_
    | split
    | (refine Keeps.lit ?_ rfl rfl id id id id id; first | with_reducible assumption | with_reducible apply Keeps.copyTo | with_reducible apply Keeps.updMem | with_reducible apply Keeps.copyError | with_reducible apply Keeps.vecEvent | with_reducible apply Keeps.ite_ | with_reducible apply Keeps.judgeRead_get | refine Keeps.judgeRead_eq (by with_reducible assumption) ?_ | split)
    | assumption
    | intro _
    | dsimp only)

theorem Keeps.upkeepCopy {port : Nat} {found : List (W64 × AccessResult)} {s0 s : State}  (hK : Keeps s0 s) : Keeps s0 (upkeepCopy port found s) := by
  unfold Sys2Proof.Machine.upkeepCopy
  repeat' (first
    | with_reducible assumption
    | exact fun _ hx => hx
    | exact fun _ => rfl
    | with_reducible apply Keeps.copyCharge
    | with_reducible apply Keeps.updMem
    | with_reducible apply Keeps.copyTo
    | with_reducible apply Keeps.ite_
    | with_reducible apply Keeps.takeFree_get
    | refine Keeps.takeFree_eq (by with_reducible assumption) ?_
    | split
    | (refine Keeps.lit ?_ rfl rfl id id id id id; first | with_reducible assumption | with_reducible apply Keeps.copyCharge | with_reducible apply Keeps.updMem | with_reducible apply Keeps.copyTo | with_reducible apply Keeps.ite_ | with_reducible apply Keeps.takeFree_get | refine Keeps.takeFree_eq (by with_reducible assumption) ?_ | split)
    | assumption
    | intro _
    | dsimp only)

theorem Keeps.upkeepMoves {port : Nat} {found : List (W64 × AccessResult)} {s0 s : State}  (hK : Keeps s0 s) : Keeps s0 (upkeepMoves port found s) := by
  unfold Sys2Proof.Machine.upkeepMoves
  repeat' (first
    | with_reducible assumption
    | exact fun _ hx => hx
    | exact fun _ => rfl
    | with_reducible refine Keeps.forAll (fun _ _ _ => ?_) ?_
    | with_reducible apply Keeps.upkeepMigrate
    | with_reducible apply Keeps.upkeepCopy
    | with_reducible apply Keeps.ite_
    | split
    | (refine Keeps.lit ?_ rfl rfl id id id id id; first | with_reducible assumption | with_reducible refine Keeps.forAll (fun _ _ _ => ?_) ?_ | with_reducible apply Keeps.upkeepMigrate | with_reducible apply Keeps.upkeepCopy | with_reducible apply Keeps.ite_ | split)
    | assumption
    | intro _
    | dsimp only)

theorem Keeps.execUpkeepWindow {port : Fin 5} {retrainOk : Bool} {scrub : List (W64 × AccessResult)} {s0 s tK : State} (eK : execUpkeepWindow port retrainOk scrub s = .next tK) (hK : Keeps s0 s) : Keeps s0 tK := by
  unfold Sys2Proof.Machine.execUpkeepWindow at eK
  cases eK
  repeat' (first
    | with_reducible assumption
    | exact fun _ hx => hx
    | exact fun _ => rfl
    | with_reducible apply Keeps.updMem
    | with_reducible refine Keeps.whenS (fun _ _ => ?_) ?_
    | with_reducible apply Keeps.upkeepRetrain
    | with_reducible apply Keeps.upkeepMoves
    | with_reducible apply Keeps.upkeepScrub
    | with_reducible apply Keeps.ite_
    | split
    | (refine Keeps.lit ?_ rfl rfl id id id id id; first | with_reducible assumption | with_reducible apply Keeps.updMem | with_reducible refine Keeps.whenS (fun _ _ => ?_) ?_ | with_reducible apply Keeps.upkeepRetrain | with_reducible apply Keeps.upkeepMoves | with_reducible apply Keeps.upkeepScrub | with_reducible apply Keeps.ite_ | split)
    | assumption
    | intro _
    | dsimp only)

theorem Keeps.clearMarks {far : Bool} {i : BitVec 6} {v : W64} {again : List Nat} {s0 s : State}  (hK : Keeps s0 s) : Keeps s0 (clearMarks far i v again s) := by
  unfold Sys2Proof.Machine.clearMarks
  repeat' (first
    | with_reducible assumption
    | exact fun _ hx => hx
    | exact fun _ => rfl
    | with_reducible apply Keeps.updMem
    | with_reducible refine Keeps.forAll (fun _ _ _ => ?_) ?_
    | with_reducible apply Keeps.ite_
    | with_reducible apply Keeps.judgeRead_get
    | refine Keeps.judgeRead_eq (by with_reducible assumption) ?_
    | split
    | (refine Keeps.lit ?_ rfl rfl id id id id id; first | with_reducible assumption | with_reducible apply Keeps.updMem | with_reducible refine Keeps.forAll (fun _ _ _ => ?_) ?_ | with_reducible apply Keeps.ite_ | with_reducible apply Keeps.judgeRead_get | refine Keeps.judgeRead_eq (by with_reducible assumption) ?_ | split)
    | assumption
    | intro _
    | dsimp only)

theorem Keeps.execMemReload {m : Master} {i : BitVec 6} {bits : W64} {again : List Nat} {s0 s tK : State} (eK : execMemReload m i bits again s = .next tK) (hK : Keeps s0 s) : Keeps s0 tK := by
  unfold Sys2Proof.Machine.execMemReload at eK
  cases eK
  repeat' (first
    | with_reducible assumption
    | exact fun _ hx => hx
    | exact fun _ => rfl
    | with_reducible refine Keeps.ownerOnly (fun _ _ => ?_) ?_
    | with_reducible apply Keeps.clearMarks
    | with_reducible apply Keeps.ite_
    | split
    | (refine Keeps.lit ?_ rfl rfl id id id id id; first | with_reducible assumption | with_reducible refine Keeps.ownerOnly (fun _ _ => ?_) ?_ | with_reducible apply Keeps.clearMarks | with_reducible apply Keeps.ite_ | split)
    | assumption
    | intro _
    | dsimp only)

theorem Keeps.execMemFreload {m : Master} {i : BitVec 6} {bits : W64} {again : List Nat} {s0 s tK : State} (eK : execMemFreload m i bits again s = .next tK) (hK : Keeps s0 s) : Keeps s0 tK := by
  unfold Sys2Proof.Machine.execMemFreload at eK
  cases eK
  repeat' (first
    | with_reducible assumption
    | exact fun _ hx => hx
    | exact fun _ => rfl
    | with_reducible refine Keeps.ownerOnly (fun _ _ => ?_) ?_
    | with_reducible apply Keeps.clearMarks
    | with_reducible apply Keeps.ite_
    | split
    | (refine Keeps.lit ?_ rfl rfl id id id id id; first | with_reducible assumption | with_reducible refine Keeps.ownerOnly (fun _ _ => ?_) ?_ | with_reducible apply Keeps.clearMarks | with_reducible apply Keeps.ite_ | split)
    | assumption
    | intro _
    | dsimp only)

theorem Keeps.execBar4Read {f : FuncId} {off : W64} {n : Nat} {r : AccessResult} {s0 s tK : State} (eK : execBar4Read f off n r s = .next tK) (hK : Keeps s0 s) : Keeps s0 tK := by
  unfold Sys2Proof.Machine.execBar4Read at eK
  cases eK
  repeat' (first
    | with_reducible assumption
    | exact fun _ hx => hx
    | exact fun _ => rfl
    | with_reducible apply Keeps.emit
    | with_reducible apply Keeps.chargeD
    | with_reducible apply Keeps.ite_
    | with_reducible apply Keeps.judgeRead_get
    | refine Keeps.judgeRead_eq (by with_reducible assumption) ?_
    | split
    | (refine Keeps.lit ?_ rfl rfl id id id id id; first | with_reducible assumption | with_reducible apply Keeps.emit | with_reducible apply Keeps.chargeD | with_reducible apply Keeps.ite_ | with_reducible apply Keeps.judgeRead_get | refine Keeps.judgeRead_eq (by with_reducible assumption) ?_ | split)
    | assumption
    | intro _
    | dsimp only)

theorem Keeps.execBar4Write {f : FuncId} {off : W64} {w : HostBytes} {s0 s tK : State} (eK : execBar4Write f off w s = .next tK) (hK : Keeps s0 s) : Keeps s0 tK := by
  unfold Sys2Proof.Machine.execBar4Write at eK
  cases eK
  repeat' (first
    | with_reducible assumption
    | exact fun _ hx => hx
    | exact fun _ => rfl
    | with_reducible apply Keeps.ignoreWrite
    | with_reducible apply Keeps.chargeD
    | with_reducible refine Keeps.forAll (fun _ _ _ => ?_) ?_
    | with_reducible apply Keeps.tierWrite
    | with_reducible apply Keeps.ite_
    | with_reducible apply Keeps.judgeRead_get
    | refine Keeps.judgeRead_eq (by with_reducible assumption) ?_
    | split
    | (refine Keeps.lit ?_ rfl rfl id id id id id; first | with_reducible assumption | with_reducible apply Keeps.ignoreWrite | with_reducible apply Keeps.chargeD | with_reducible refine Keeps.forAll (fun _ _ _ => ?_) ?_ | with_reducible apply Keeps.tierWrite | with_reducible apply Keeps.ite_ | with_reducible apply Keeps.judgeRead_get | refine Keeps.judgeRead_eq (by with_reducible assumption) ?_ | split)
    | assumption
    | intro _
    | dsimp only)

end Sys2Proof.Machine
end

