-- ==== Sys2Proof/Laws/KeepsClock.lean ====
section
/-! SUPPORT. What the operations of Machine/Clock.lean keep: the queue, the modes and the canonical stores. -/

set_option linter.unusedTactic false
set_option linter.unreachableTactic false

namespace Sys2Proof.Machine

theorem Keeps.tickLog {kind n : Nat} {s0 s : State}  (hK : Keeps s0 s) : Keeps s0 (tickLog kind n s) := by
  unfold Sys2Proof.Machine.tickLog
  repeat' (first
    | with_reducible assumption
    | exact fun _ hx => hx
    | exact fun _ => rfl
    | with_reducible apply Keeps.logR
    | with_reducible apply Keeps.ite_
    | split
    | (refine Keeps.lit ?_ rfl rfl id id id id id; first | with_reducible assumption | with_reducible apply Keeps.logR | with_reducible apply Keeps.ite_ | split)
    | assumption
    | intro _
    | dsimp only)

theorem Keeps.setTime {t : TState} {s0 s : State}  (hK : Keeps s0 s) : Keeps s0 (setTime t s) := by
  unfold Sys2Proof.Machine.setTime
  repeat' (first
    | with_reducible assumption
    | exact fun _ hx => hx
    | exact fun _ => rfl
    | with_reducible apply Keeps.updTick
    | with_reducible apply Keeps.vecEvent
    | with_reducible apply Keeps.tickLog
    | with_reducible apply Keeps.alarm
    | with_reducible apply Keeps.ite_
    | split
    | (refine Keeps.lit ?_ rfl rfl id id id id id; first | with_reducible assumption | with_reducible apply Keeps.updTick | with_reducible apply Keeps.vecEvent | with_reducible apply Keeps.tickLog | with_reducible apply Keeps.alarm | with_reducible apply Keeps.ite_ | split)
    | assumption
    | intro _
    | dsimp only)

theorem Keeps.tickPulse  {s0 s : State}  (hK : Keeps s0 s) : Keeps s0 (tickPulse s) := by
  unfold Sys2Proof.Machine.tickPulse
  repeat' (first
    | with_reducible assumption
    | exact fun _ hx => hx
    | exact fun _ => rfl
    | with_reducible refine Keeps.whenS (fun _ _ => ?_) ?_
    | with_reducible apply Keeps.emit
    | with_reducible apply Keeps.ite_
    | split
    | (refine Keeps.lit ?_ rfl rfl id id id id id; first | with_reducible assumption | with_reducible refine Keeps.whenS (fun _ _ => ?_) ?_ | with_reducible apply Keeps.emit | with_reducible apply Keeps.ite_ | split)
    | assumption
    | intro _
    | dsimp only)

theorem Keeps.goodEdge  {s0 s : State}  (hK : Keeps s0 s) : Keeps s0 (goodEdge s) := by
  unfold Sys2Proof.Machine.goodEdge
  repeat' (first
    | with_reducible assumption
    | exact fun _ hx => hx
    | exact fun _ => rfl
    | with_reducible apply Keeps.updTick
    | with_reducible apply Keeps.ite_
    | split
    | (refine Keeps.lit ?_ rfl rfl id id id id id; first | with_reducible assumption | with_reducible apply Keeps.updTick | with_reducible apply Keeps.ite_ | split)
    | assumption
    | intro _
    | dsimp only)

theorem Keeps.acquireEdge {offset : Int} {interval : Nat} {s0 s : State}  (hK : Keeps s0 s) : Keeps s0 (acquireEdge offset interval s) := by
  unfold Sys2Proof.Machine.acquireEdge
  repeat' (first
    | with_reducible assumption
    | exact fun _ hx => hx
    | exact fun _ => rfl
    | with_reducible apply Keeps.goodEdge
    | with_reducible apply Keeps.updTick
    | with_reducible apply Keeps.ite_
    | split
    | (refine Keeps.lit ?_ rfl rfl id id id id id; first | with_reducible assumption | with_reducible apply Keeps.goodEdge | with_reducible apply Keeps.updTick | with_reducible apply Keeps.ite_ | split)
    | assumption
    | intro _
    | dsimp only)

theorem Keeps.execTickEdge {offset : Int} {interval : Nat} {s0 s tK : State} (eK : execTickEdge offset interval s = .next tK) (hK : Keeps s0 s) : Keeps s0 tK := by
  unfold Sys2Proof.Machine.execTickEdge at eK
  cases eK
  repeat' (first
    | with_reducible assumption
    | exact fun _ hx => hx
    | exact fun _ => rfl
    | with_reducible apply Keeps.acquireEdge
    | with_reducible apply Keeps.tickPulse
    | with_reducible apply Keeps.goodEdge
    | with_reducible apply Keeps.setTime
    | with_reducible apply Keeps.updTick
    | with_reducible apply Keeps.ite_
    | split
    | (refine Keeps.lit ?_ rfl rfl id id id id id; first | with_reducible assumption | with_reducible apply Keeps.acquireEdge | with_reducible apply Keeps.tickPulse | with_reducible apply Keeps.goodEdge | with_reducible apply Keeps.setTime | with_reducible apply Keeps.updTick | with_reducible apply Keeps.ite_ | split)
    | assumption
    | intro _
    | dsimp only)

theorem Keeps.execTickMiss  {s0 s tK : State} (eK : execTickMiss s = .next tK) (hK : Keeps s0 s) : Keeps s0 tK := by
  unfold Sys2Proof.Machine.execTickMiss at eK
  cases eK
  repeat' (first
    | with_reducible assumption
    | exact fun _ hx => hx
    | exact fun _ => rfl
    | with_reducible apply Keeps.updTick
    | with_reducible apply Keeps.tickPulse
    | with_reducible apply Keeps.setTime
    | with_reducible apply Keeps.ite_
    | split
    | (refine Keeps.lit ?_ rfl rfl id id id id id; first | with_reducible assumption | with_reducible apply Keeps.updTick | with_reducible apply Keeps.tickPulse | with_reducible apply Keeps.setTime | with_reducible apply Keeps.ite_ | split)
    | assumption
    | intro _
    | dsimp only)

theorem Keeps.takeNumber {n : W64} {s0 s : State}  (hK : Keeps s0 s) : Keeps s0 (takeNumber n s) := by
  unfold Sys2Proof.Machine.takeNumber
  repeat' (first
    | with_reducible assumption
    | exact fun _ hx => hx
    | exact fun _ => rfl
    | with_reducible apply Keeps.tickLog
    | with_reducible apply Keeps.updTick
    | with_reducible apply Keeps.ite_
    | split
    | (refine Keeps.lit ?_ rfl rfl id id id id id; first | with_reducible assumption | with_reducible apply Keeps.tickLog | with_reducible apply Keeps.updTick | with_reducible apply Keeps.ite_ | split)
    | assumption
    | intro _
    | dsimp only)

theorem Keeps.execTikNext {m : Master} {n : W64} {s0 s tK : State} (eK : execTikNext m n s = .next tK) (hK : Keeps s0 s) : Keeps s0 tK := by
  unfold Sys2Proof.Machine.execTikNext at eK
  cases eK
  repeat' (first
    | with_reducible assumption
    | exact fun _ hx => hx
    | exact fun _ => rfl
    | with_reducible refine Keeps.ownerOnly (fun _ _ => ?_) ?_
    | with_reducible apply Keeps.ignoreWrite
    | with_reducible apply Keeps.takeNumber
    | with_reducible apply Keeps.ite_
    | split
    | (refine Keeps.lit ?_ rfl rfl id id id id id; first | with_reducible assumption | with_reducible refine Keeps.ownerOnly (fun _ _ => ?_) ?_ | with_reducible apply Keeps.ignoreWrite | with_reducible apply Keeps.takeNumber | with_reducible apply Keeps.ite_ | split)
    | assumption
    | intro _
    | dsimp only)

theorem Keeps.relayTick {n : W64} {s0 s : State}  (hK : Keeps s0 s) : Keeps s0 (relayTick n s) := by
  unfold Sys2Proof.Machine.relayTick
  repeat' (first
    | with_reducible assumption
    | exact fun _ hx => hx
    | exact fun _ => rfl
    | with_reducible refine Keeps.forAll (fun _ _ _ => ?_) ?_
    | with_reducible apply Keeps.sendMOn
    | with_reducible apply Keeps.ite_
    | split
    | (refine Keeps.lit ?_ rfl rfl id id id id id; first | with_reducible assumption | with_reducible refine Keeps.forAll (fun _ _ _ => ?_) ?_ | with_reducible apply Keeps.sendMOn | with_reducible apply Keeps.ite_ | split)
    | assumption
    | intro _
    | dsimp only)

theorem Keeps.execTickMessage {port : PortId} {n : W64} {s0 s tK : State} (eK : execTickMessage port n s = .next tK) (hK : Keeps s0 s) : Keeps s0 tK := by
  unfold Sys2Proof.Machine.execTickMessage at eK
  cases eK
  repeat' (first
    | with_reducible assumption
    | exact fun _ hx => hx
    | exact fun _ => rfl
    | with_reducible apply Keeps.takeNumber
    | with_reducible apply Keeps.relayTick
    | with_reducible apply Keeps.ite_
    | split
    | (refine Keeps.lit ?_ rfl rfl id id id id id; first | with_reducible assumption | with_reducible apply Keeps.takeNumber | with_reducible apply Keeps.relayTick | with_reducible apply Keeps.ite_ | split)
    | assumption
    | intro _
    | dsimp only)

theorem Keeps.newPeriod {v : Nat} {s0 s : State}  (hK : Keeps s0 s) : Keeps s0 (newPeriod v s) := by
  unfold Sys2Proof.Machine.newPeriod
  repeat' (first
    | with_reducible assumption
    | exact fun _ hx => hx
    | exact fun _ => rfl
    | with_reducible apply Keeps.updTick
    | with_reducible apply Keeps.setTime
    | with_reducible apply Keeps.ite_
    | split
    | (refine Keeps.lit ?_ rfl rfl id id id id id; first | with_reducible assumption | with_reducible apply Keeps.updTick | with_reducible apply Keeps.setTime | with_reducible apply Keeps.ite_ | split)
    | assumption
    | intro _
    | dsimp only)

theorem Keeps.execTikPeriod {m : Master} {v : W64} {s0 s tK : State} (eK : execTikPeriod m v s = .next tK) (hK : Keeps s0 s) : Keeps s0 tK := by
  unfold Sys2Proof.Machine.execTikPeriod at eK
  cases eK
  repeat' (first
    | with_reducible assumption
    | exact fun _ hx => hx
    | exact fun _ => rfl
    | with_reducible refine Keeps.ownerOnly (fun _ _ => ?_) ?_
    | with_reducible apply Keeps.newPeriod
    | with_reducible apply Keeps.ignoreWrite
    | with_reducible apply Keeps.ite_
    | split
    | (refine Keeps.lit ?_ rfl rfl id id id id id; first | with_reducible assumption | with_reducible refine Keeps.ownerOnly (fun _ _ => ?_) ?_ | with_reducible apply Keeps.newPeriod | with_reducible apply Keeps.ignoreWrite | with_reducible apply Keeps.ite_ | split)
    | assumption
    | intro _
    | dsimp only)

theorem Keeps.execKappaUpdate {num den : Nat} {s0 s tK : State} (eK : execKappaUpdate num den s = .next tK) (hK : Keeps s0 s) : Keeps s0 tK := by
  unfold Sys2Proof.Machine.execKappaUpdate at eK
  cases eK
  repeat' (first
    | with_reducible assumption
    | exact fun _ hx => hx
    | exact fun _ => rfl
    | with_reducible apply Keeps.updTick
    | with_reducible apply Keeps.ite_
    | with_reducible apply Keeps.takeFree_get
    | refine Keeps.takeFree_eq (by with_reducible assumption) ?_
    | split
    | (refine Keeps.lit ?_ rfl rfl id id id id id; first | with_reducible assumption | with_reducible apply Keeps.updTick | with_reducible apply Keeps.ite_ | with_reducible apply Keeps.takeFree_get | refine Keeps.takeFree_eq (by with_reducible assumption) ?_ | split)
    | assumption
    | intro _
    | dsimp only)

end Sys2Proof.Machine
end

