-- ==== Sys2Proof/Laws/KeepsPartitions.lean ====
section
/-! SUPPORT. What the operations of Machine/Partitions.lean keep: the queue, the modes and the canonical stores. -/

set_option linter.unusedTactic false
set_option linter.unreachableTactic false

namespace Sys2Proof.Machine

theorem Keeps.execBudgetWrite {m : Master} {p : PartId} {i : Fin 7} {v : W64} {s0 s tK : State} (eK : execBudgetWrite m p i v s = .next tK) (hK : Keeps s0 s) : Keeps s0 tK := by
  unfold Sys2Proof.Machine.execBudgetWrite at eK
  cases eK
  repeat' (first
    | with_reducible assumption
    | exact fun _ hx => hx
    | exact fun _ => rfl
    | with_reducible refine Keeps.ownerOnly (fun _ _ => ?_) ?_
    | with_reducible apply Keeps.prtError
    | with_reducible apply Keeps.updPart
    | with_reducible apply Keeps.ite_
    | split
    | (refine Keeps.lit ?_ rfl rfl id id id id id; first | with_reducible assumption | with_reducible refine Keeps.ownerOnly (fun _ _ => ?_) ?_ | with_reducible apply Keeps.prtError | with_reducible apply Keeps.updPart | with_reducible apply Keeps.ite_ | split)
    | assumption
    | intro _
    | dsimp only)

theorem Keeps.resetAbort {p : PartId} {s0 s : State}  (hK : Keeps s0 s) : Keeps s0 (resetAbort p s) := by
  unfold Sys2Proof.Machine.resetAbort
  repeat' (first
    | with_reducible assumption
    | exact fun _ hx => hx
    | exact fun _ => rfl
    | with_reducible apply Keeps.closeWindow
    | with_reducible apply Keeps.abortTask
    | with_reducible apply Keeps.ite_
    | with_reducible apply Keeps.takeFree_get
    | refine Keeps.takeFree_eq (by with_reducible assumption) ?_
    | split
    | (refine Keeps.lit ?_ rfl rfl id id id id id; first | with_reducible assumption | with_reducible apply Keeps.closeWindow | with_reducible apply Keeps.abortTask | with_reducible apply Keeps.ite_ | with_reducible apply Keeps.takeFree_get | refine Keeps.takeFree_eq (by with_reducible assumption) ?_ | split)
    | assumption
    | intro _
    | dsimp only)

theorem Keeps.settleFree {p : PartId} {s0 s : State}  (hK : Keeps s0 s) : Keeps s0 (settleFree p s) := by
  unfold Sys2Proof.Machine.settleFree
  repeat' (first
    | with_reducible assumption
    | exact fun _ hx => hx
    | exact fun _ => rfl
    | with_reducible refine Keeps.forAll (fun _ _ _ => ?_) ?_
    | with_reducible apply Keeps.endAttempt
    | with_reducible apply Keeps.updPart
    | with_reducible apply Keeps.ite_
    | split
    | (refine Keeps.lit ?_ rfl rfl id id id id id; first | with_reducible assumption | with_reducible refine Keeps.forAll (fun _ _ _ => ?_) ?_ | with_reducible apply Keeps.endAttempt | with_reducible apply Keeps.updPart | with_reducible apply Keeps.ite_ | split)
    | assumption
    | intro _
    | dsimp only)

theorem Keeps.dropOwnNodes {p : PartId} {s0 s : State}  (hK : Keeps s0 s) : Keeps s0 (dropOwnNodes p s) := by
  unfold Sys2Proof.Machine.dropOwnNodes
  repeat' (first
    | with_reducible assumption
    | exact fun _ hx => hx
    | exact fun _ => rfl
    | with_reducible apply Keeps.updNodes
    | with_reducible apply Keeps.ite_
    | split
    | (refine Keeps.lit ?_ rfl rfl id id id id id; first | with_reducible assumption | with_reducible apply Keeps.updNodes | with_reducible apply Keeps.ite_ | split)
    | assumption
    | intro _
    | dsimp only)

theorem Keeps.releaseSessions {p : PartId} {s0 s : State}  (hK : Keeps s0 s) : Keeps s0 (releaseSessions p s) := by
  unfold Sys2Proof.Machine.releaseSessions
  repeat' (first
    | with_reducible assumption
    | exact fun _ hx => hx
    | exact fun _ => rfl
    | with_reducible refine Keeps.forAll (fun _ _ _ => ?_) ?_
    | with_reducible apply Keeps.releaseSession
    | with_reducible apply Keeps.ite_
    | split
    | (refine Keeps.lit ?_ rfl rfl id id id id id; first | with_reducible assumption | with_reducible refine Keeps.forAll (fun _ _ _ => ?_) ?_ | with_reducible apply Keeps.releaseSession | with_reducible apply Keeps.ite_ | split)
    | assumption
    | intro _
    | dsimp only)

theorem Keeps.unconfigure {p : PartId} {s0 s : State}  (hK : Keeps s0 s) : Keeps s0 (unconfigure p s) := by
  unfold Sys2Proof.Machine.unconfigure
  repeat' (first
    | with_reducible assumption
    | exact emptyStore_wf
    | exact fun _ hx => hx
    | exact fun _ => rfl
    | with_reducible apply Keeps.sweepAll
    | with_reducible apply Keeps.dropOwnNodes
    | with_reducible apply Keeps.releaseSessions
    | with_reducible apply Keeps.updPart
    | with_reducible apply Keeps.setPState
    | with_reducible apply Keeps.ite_
    | split
    | (refine Keeps.lit ?_ rfl rfl id id id id id; first | with_reducible assumption | exact emptyStore_wf | with_reducible apply Keeps.sweepAll | with_reducible apply Keeps.dropOwnNodes | with_reducible apply Keeps.releaseSessions | with_reducible apply Keeps.updPart | with_reducible apply Keeps.setPState | with_reducible apply Keeps.ite_ | split)
    | assumption
    | intro _
    | dsimp only)

theorem Keeps.sendGroupChecks {p : PartId} {s0 s : State}  (hK : Keeps s0 s) : Keeps s0 (sendGroupChecks p s) := by
  unfold Sys2Proof.Machine.sendGroupChecks
  repeat' (first
    | with_reducible assumption
    | exact fun _ hx => hx
    | exact fun _ => rfl
    | with_reducible refine Keeps.forAll (fun _ _ _ => ?_) ?_
    | with_reducible apply Keeps.sendM
    | with_reducible apply Keeps.ite_
    | split
    | (refine Keeps.lit ?_ rfl rfl id id id id id; first | with_reducible assumption | with_reducible refine Keeps.forAll (fun _ _ _ => ?_) ?_ | with_reducible apply Keeps.sendM | with_reducible apply Keeps.ite_ | split)
    | assumption
    | intro _
    | dsimp only)

theorem CoreOk.loadCore {i : Image} {cfg : PCfg} {tabs : Bool} {c : CoreId} {x : Core} (h : CoreOk x) : CoreOk (loadCore i cfg tabs c x) :=
  ⟨h.1, wrBytes_wf _ _ _ emptyStore_wf, h.2.2.1, wrBytes_wf _ _ _ emptyStore_wf⟩

theorem Keeps.beginLoading {p : PartId} {i : Image} {x : ImgSection} {tabs fresh : Bool} {back : PState} {s0 s : State}  (hK : Keeps s0 s) : Keeps s0 (beginLoading p i x tabs fresh back s) := by
  unfold Sys2Proof.Machine.beginLoading
  repeat' (first
    | with_reducible assumption
    | exact CoreOk.loadCore (by assumption)
    | exact fun _ hx => hx
    | exact fun _ => rfl
    | with_reducible refine Keeps.forAll (fun _ _ _ => ?_) ?_
    | with_reducible apply Keeps.updCore
    | with_reducible apply Keeps.dropOwnNodes
    | with_reducible apply Keeps.settleFree
    | with_reducible refine Keeps.whenS (fun _ _ => ?_) ?_
    | with_reducible apply Keeps.releaseSessions
    | with_reducible apply Keeps.sweepAll
    | with_reducible apply Keeps.updPart
    | with_reducible apply Keeps.replayJournal
    | with_reducible apply Keeps.sendGroupChecks
    | with_reducible apply Keeps.setPState
    | with_reducible apply Keeps.ite_
    | split
    | (refine Keeps.lit ?_ rfl rfl id id id id id; first | with_reducible assumption | exact CoreOk.loadCore (by assumption) | with_reducible refine Keeps.forAll (fun _ _ _ => ?_) ?_ | with_reducible apply Keeps.updCore | with_reducible apply Keeps.dropOwnNodes | with_reducible apply Keeps.settleFree | with_reducible refine Keeps.whenS (fun _ _ => ?_) ?_ | with_reducible apply Keeps.releaseSessions | with_reducible apply Keeps.sweepAll | with_reducible apply Keeps.updPart | with_reducible apply Keeps.replayJournal | with_reducible apply Keeps.sendGroupChecks | with_reducible apply Keeps.setPState | with_reducible apply Keeps.ite_ | split)
    | assumption
    | intro _
    | dsimp only)

theorem Keeps.powerFor {p : PartId} {i : Image} {s0 s : State}  (hK : Keeps s0 s) : Keeps s0 (powerFor p i s) := by
  unfold Sys2Proof.Machine.powerFor
  repeat' (first
    | with_reducible assumption
    | exact fun _ hx => hx
    | exact fun _ => rfl
    | with_reducible apply Keeps.updPart
    | with_reducible apply Keeps.ite_
    | split
    | (refine Keeps.lit ?_ rfl rfl id id id id id; first | with_reducible assumption | with_reducible apply Keeps.updPart | with_reducible apply Keeps.ite_ | split)
    | assumption
    | intro _
    | dsimp only)

theorem Keeps.execLoad {m : Master} {p : PartId} {fromPart : Option Image} {s0 s tK : State} (eK : execLoad m p fromPart s = .next tK) (hK : Keeps s0 s) : Keeps s0 tK := by
  unfold Sys2Proof.Machine.execLoad at eK
  cases eK
  repeat' (first
    | with_reducible assumption
    | exact fun _ hx => hx
    | exact fun _ => rfl
    | with_reducible refine Keeps.ownerOnly (fun _ _ => ?_) ?_
    | with_reducible apply Keeps.opReject
    | with_reducible apply Keeps.ignoreWrite
    | with_reducible apply Keeps.updImg
    | with_reducible apply Keeps.setPState
    | with_reducible apply Keeps.powerFor
    | with_reducible apply Keeps.ite_
    | split
    | (refine Keeps.lit ?_ rfl rfl id id id id id; first | with_reducible assumption | with_reducible refine Keeps.ownerOnly (fun _ _ => ?_) ?_ | with_reducible apply Keeps.opReject | with_reducible apply Keeps.ignoreWrite | with_reducible apply Keeps.updImg | with_reducible apply Keeps.setPState | with_reducible apply Keeps.powerFor | with_reducible apply Keeps.ite_ | split)
    | assumption
    | intro _
    | dsimp only)

theorem Keeps.execStart {m : Master} {p : PartId} {s0 s tK : State} (eK : execStart m p s = .next tK) (hK : Keeps s0 s) : Keeps s0 tK := by
  unfold Sys2Proof.Machine.execStart at eK
  cases eK
  repeat' (first
    | with_reducible assumption
    | exact fun _ hx => hx
    | exact fun _ => rfl
    | with_reducible refine Keeps.ownerOnly (fun _ _ => ?_) ?_
    | with_reducible apply Keeps.opReject
    | with_reducible apply Keeps.setPState
    | with_reducible apply Keeps.updPart
    | with_reducible apply Keeps.ite_
    | split
    | (refine Keeps.lit ?_ rfl rfl id id id id id; first | with_reducible assumption | with_reducible refine Keeps.ownerOnly (fun _ _ => ?_) ?_ | with_reducible apply Keeps.opReject | with_reducible apply Keeps.setPState | with_reducible apply Keeps.updPart | with_reducible apply Keeps.ite_ | split)
    | assumption
    | intro _
    | dsimp only)

theorem Keeps.execDrain {m : Master} {p : PartId} {s0 s tK : State} (eK : execDrain m p s = .next tK) (hK : Keeps s0 s) : Keeps s0 tK := by
  unfold Sys2Proof.Machine.execDrain at eK
  cases eK
  repeat' (first
    | with_reducible assumption
    | exact fun _ hx => hx
    | exact fun _ => rfl
    | with_reducible refine Keeps.ownerOnly (fun _ _ => ?_) ?_
    | with_reducible apply Keeps.opReject
    | with_reducible apply Keeps.setPState
    | with_reducible apply Keeps.ite_
    | split
    | (refine Keeps.lit ?_ rfl rfl id id id id id; first | with_reducible assumption | with_reducible refine Keeps.ownerOnly (fun _ _ => ?_) ?_ | with_reducible apply Keeps.opReject | with_reducible apply Keeps.setPState | with_reducible apply Keeps.ite_ | split)
    | assumption
    | intro _
    | dsimp only)

theorem Keeps.execReset {m : Master} {p : PartId} {s0 s tK : State} (eK : execReset m p s = .next tK) (hK : Keeps s0 s) : Keeps s0 tK := by
  unfold Sys2Proof.Machine.execReset at eK
  cases eK
  repeat' (first
    | with_reducible assumption
    | exact fun _ hx => hx
    | exact fun _ => rfl
    | with_reducible refine Keeps.ownerOnly (fun _ _ => ?_) ?_
    | with_reducible apply Keeps.opReject
    | with_reducible apply Keeps.beginLoading
    | with_reducible apply Keeps.resetAbort
    | with_reducible apply Keeps.ite_
    | split
    | (refine Keeps.lit ?_ rfl rfl id id id id id; first | with_reducible assumption | with_reducible refine Keeps.ownerOnly (fun _ _ => ?_) ?_ | with_reducible apply Keeps.opReject | with_reducible apply Keeps.beginLoading | with_reducible apply Keeps.resetAbort | with_reducible apply Keeps.ite_ | split)
    | assumption
    | intro _
    | dsimp only)

theorem Keeps.execUnload {m : Master} {p : PartId} {s0 s tK : State} (eK : execUnload m p s = .next tK) (hK : Keeps s0 s) : Keeps s0 tK := by
  unfold Sys2Proof.Machine.execUnload at eK
  cases eK
  repeat' (first
    | with_reducible assumption
    | exact fun _ hx => hx
    | exact fun _ => rfl
    | with_reducible refine Keeps.ownerOnly (fun _ _ => ?_) ?_
    | with_reducible apply Keeps.opReject
    | with_reducible apply Keeps.unconfigure
    | with_reducible apply Keeps.ite_
    | split
    | (refine Keeps.lit ?_ rfl rfl id id id id id; first | with_reducible assumption | with_reducible refine Keeps.ownerOnly (fun _ _ => ?_) ?_ | with_reducible apply Keeps.opReject | with_reducible apply Keeps.unconfigure | with_reducible apply Keeps.ite_ | split)
    | assumption
    | intro _
    | dsimp only)

theorem Keeps.endLoading {p : PartId} {s0 s : State}  (hK : Keeps s0 s) : Keeps s0 (endLoading p s) := by
  unfold Sys2Proof.Machine.endLoading
  repeat' (first
    | with_reducible assumption
    | exact fun _ hx => hx
    | exact fun _ => rfl
    | with_reducible apply Keeps.setPState
    | with_reducible apply Keeps.ite_
    | split
    | (refine Keeps.lit ?_ rfl rfl id id id id id; first | with_reducible assumption | with_reducible apply Keeps.setPState | with_reducible apply Keeps.ite_ | split)
    | assumption
    | intro _
    | dsimp only)

theorem Keeps.execLoadingComplete {p : PartId} {s0 s tK : State} (eK : execLoadingComplete p s = .next tK) (hK : Keeps s0 s) : Keeps s0 tK := by
  unfold Sys2Proof.Machine.execLoadingComplete at eK
  cases eK
  repeat' (first
    | with_reducible assumption
    | exact fun _ hx => hx
    | exact fun _ => rfl
    | with_reducible apply Keeps.endLoading
    | with_reducible apply Keeps.ite_
    | split
    | (refine Keeps.lit ?_ rfl rfl id id id id id; first | with_reducible assumption | with_reducible apply Keeps.endLoading | with_reducible apply Keeps.ite_ | split)
    | assumption
    | intro _
    | dsimp only)

theorem Keeps.extendM {k : Fin 8} {d : Nat} {s0 s : State}  (hK : Keeps s0 s) : Keeps s0 (extendM k d s) := by
  unfold Sys2Proof.Machine.extendM
  repeat' (first
    | with_reducible assumption
    | exact fun _ hx => hx
    | exact fun _ => rfl
    | with_reducible apply Keeps.updSec
    | with_reducible apply Keeps.ite_
    | split
    | (refine Keeps.lit ?_ rfl rfl id id id id id; first | with_reducible assumption | with_reducible apply Keeps.updSec | with_reducible apply Keeps.ite_ | split)
    | assumption
    | intro _
    | dsimp only)

theorem Keeps.writeOutcome {l : Loading} {bad : Option Bad} {s0 s : State}  (hK : Keeps s0 s) : Keeps s0 (writeOutcome l bad s) := by
  unfold Sys2Proof.Machine.writeOutcome
  repeat' (first
    | with_reducible assumption
    | exact fun _ hx => hx
    | exact fun _ => rfl
    | with_reducible apply Keeps.updImg
    | with_reducible apply Keeps.vecEvent
    | with_reducible refine Keeps.whenS (fun _ _ => ?_) ?_
    | with_reducible apply Keeps.alarm
    | with_reducible apply Keeps.ite_
    | split
    | (refine Keeps.lit ?_ rfl rfl id id id id id; first | with_reducible assumption | with_reducible apply Keeps.updImg | with_reducible apply Keeps.vecEvent | with_reducible refine Keeps.whenS (fun _ _ => ?_) ?_ | with_reducible apply Keeps.alarm | with_reducible apply Keeps.ite_ | split)
    | assumption
    | intro _
    | dsimp only)

theorem Keeps.setRole {d : DevCfg} {i : PortId} {s0 s : State}  (hK : Keeps s0 s) : Keeps s0 (setRole d i s) := by
  unfold Sys2Proof.Machine.setRole
  repeat' (first
    | with_reducible assumption
    | exact fun _ hx => hx
    | exact fun _ => rfl
    | with_reducible apply Keeps.updPort
    | with_reducible apply Keeps.startTraining
    | with_reducible apply Keeps.ite_
    | split
    | (refine Keeps.lit ?_ rfl rfl id id id id id; first | with_reducible assumption | with_reducible apply Keeps.updPort | with_reducible apply Keeps.startTraining | with_reducible apply Keeps.ite_ | split)
    | assumption
    | intro _
    | dsimp only)

theorem Keeps.applyDevice {i : Image} {s0 s : State}  (hK : Keeps s0 s) : Keeps s0 (applyDevice i s) := by
  unfold Sys2Proof.Machine.applyDevice
  repeat' (first
    | with_reducible assumption
    | exact fun _ hx => hx
    | exact fun _ => rfl
    | with_reducible apply Keeps.updImg
    | with_reducible apply Keeps.updMem
    | with_reducible apply Keeps.updTick
    | with_reducible apply Keeps.updFlt
    | with_reducible refine Keeps.forAll (fun _ _ _ => ?_) ?_
    | with_reducible apply Keeps.setRole
    | with_reducible refine Keeps.whenS (fun _ _ => ?_) ?_
    | with_reducible apply Keeps.alarm
    | with_reducible apply Keeps.ite_
    | split
    | (refine Keeps.lit ?_ rfl rfl id id id id id; first | with_reducible assumption | with_reducible apply Keeps.updImg | with_reducible apply Keeps.updMem | with_reducible apply Keeps.updTick | with_reducible apply Keeps.updFlt | with_reducible refine Keeps.forAll (fun _ _ _ => ?_) ?_ | with_reducible apply Keeps.setRole | with_reducible refine Keeps.whenS (fun _ _ => ?_) ?_ | with_reducible apply Keeps.alarm | with_reducible apply Keeps.ite_ | split)
    | assumption
    | intro _
    | dsimp only)

theorem Keeps.leaveQuiet  {s0 s : State}  (hK : Keeps s0 s) : Keeps s0 (leaveQuiet s) := by
  unfold Sys2Proof.Machine.leaveQuiet
  repeat' (first
    | with_reducible assumption
    | exact fun _ hx => hx
    | exact fun _ => rfl
    | with_reducible apply Keeps.updPwr
    | with_reducible apply Keeps.updImg
    | with_reducible apply Keeps.ite_
    | split
    | (refine Keeps.lit ?_ rfl rfl id id id id id; first | with_reducible assumption | with_reducible apply Keeps.updPwr | with_reducible apply Keeps.updImg | with_reducible apply Keeps.ite_ | split)
    | assumption
    | intro _
    | dsimp only)

theorem Keeps.autostart {i : Image} {s0 s : State}  (hK : Keeps s0 s) : Keeps s0 (autostart i s) := by
  unfold Sys2Proof.Machine.autostart
  repeat' (first
    | with_reducible assumption
    | exact fun _ hx => hx
    | exact fun _ => rfl
    | with_reducible refine Keeps.forAll (fun _ _ _ => ?_) ?_
    | with_reducible apply Keeps.beginLoading
    | with_reducible apply Keeps.ite_
    | split
    | (refine Keeps.lit ?_ rfl rfl id id id id id; first | with_reducible assumption | with_reducible refine Keeps.forAll (fun _ _ _ => ?_) ?_ | with_reducible apply Keeps.beginLoading | with_reducible apply Keeps.ite_ | split)
    | assumption
    | intro _
    | dsimp only)

theorem Keeps.installFull {l : Loading} {s0 s : State}  (hK : Keeps s0 s) : Keeps s0 (installFull l s) := by
  unfold Sys2Proof.Machine.installFull
  repeat' (first
    | with_reducible assumption
    | exact fun _ hx => hx
    | exact fun _ => rfl
    | with_reducible apply Keeps.applyDevice
    | with_reducible apply Keeps.updImg
    | with_reducible apply Keeps.updMem
    | with_reducible refine Keeps.whenS (fun _ _ => ?_) ?_
    | with_reducible apply Keeps.newPeriod
    | with_reducible apply Keeps.autostart
    | with_reducible apply Keeps.extendM
    | with_reducible apply Keeps.leaveQuiet
    | with_reducible apply Keeps.ite_
    | split
    | (refine Keeps.lit ?_ rfl rfl id id id id id; first | with_reducible assumption | with_reducible apply Keeps.applyDevice | with_reducible apply Keeps.updImg | with_reducible apply Keeps.updMem | with_reducible refine Keeps.whenS (fun _ _ => ?_) ?_ | with_reducible apply Keeps.newPeriod | with_reducible apply Keeps.autostart | with_reducible apply Keeps.extendM | with_reducible apply Keeps.leaveQuiet | with_reducible apply Keeps.ite_ | split)
    | assumption
    | intro _
    | dsimp only)

theorem Keeps.endImageLoad {l : Loading} {s0 s : State}  (hK : Keeps s0 s) : Keeps s0 (endImageLoad l s) := by
  unfold Sys2Proof.Machine.endImageLoad
  repeat' (first
    | with_reducible assumption
    | exact fun _ hx => hx
    | exact fun _ => rfl
    | with_reducible apply Keeps.writeOutcome
    | with_reducible apply Keeps.installFull
    | with_reducible apply Keeps.unconfigure
    | with_reducible apply Keeps.beginLoading
    | with_reducible apply Keeps.updImg
    | with_reducible apply Keeps.extendM
    | with_reducible apply Keeps.ite_
    | split
    | (refine Keeps.lit ?_ rfl rfl id id id id id; first | with_reducible assumption | with_reducible apply Keeps.writeOutcome | with_reducible apply Keeps.installFull | with_reducible apply Keeps.unconfigure | with_reducible apply Keeps.beginLoading | with_reducible apply Keeps.updImg | with_reducible apply Keeps.extendM | with_reducible apply Keeps.ite_ | split)
    | assumption
    | intro _
    | dsimp only)

theorem Keeps.measureFar  {s0 s : State}  (hK : Keeps s0 s) : Keeps s0 (measureFar s) := by
  unfold Sys2Proof.Machine.measureFar
  repeat' (first
    | with_reducible assumption
    | exact fun _ hx => hx
    | exact fun _ => rfl
    | with_reducible refine Keeps.forAll (fun _ _ _ => ?_) ?_
    | with_reducible apply Keeps.updCxl
    | with_reducible apply Keeps.ite_
    | with_reducible apply Keeps.takeFree_get
    | refine Keeps.takeFree_eq (by with_reducible assumption) ?_
    | split
    | (refine Keeps.lit ?_ rfl rfl id id id id id; first | with_reducible assumption | with_reducible refine Keeps.forAll (fun _ _ _ => ?_) ?_ | with_reducible apply Keeps.updCxl | with_reducible apply Keeps.ite_ | with_reducible apply Keeps.takeFree_get | refine Keeps.takeFree_eq (by with_reducible assumption) ?_ | split)
    | assumption
    | intro _
    | dsimp only)

theorem Keeps.execImageLoadComplete  {s0 s tK : State} (eK : execImageLoadComplete s = .next tK) (hK : Keeps s0 s) : Keeps s0 tK := by
  unfold Sys2Proof.Machine.execImageLoadComplete at eK
  cases eK
  repeat' (first
    | with_reducible assumption
    | exact fun _ hx => hx
    | exact fun _ => rfl
    | with_reducible apply Keeps.endImageLoad
    | with_reducible apply Keeps.measureFar
    | with_reducible apply Keeps.updImg
    | with_reducible apply Keeps.ite_
    | split
    | (refine Keeps.lit ?_ rfl rfl id id id id id; first | with_reducible assumption | with_reducible apply Keeps.endImageLoad | with_reducible apply Keeps.measureFar | with_reducible apply Keeps.updImg | with_reducible apply Keeps.ite_ | split)
    | assumption
    | intro _
    | dsimp only)

end Sys2Proof.Machine
end

