-- ==== Sys2Proof/Laws/KeepsOwnership.lean ====
section
/-! SUPPORT. What the operations of Machine/Ownership.lean keep: the queue, the modes and the canonical stores. -/

set_option linter.unusedTactic false
set_option linter.unreachableTactic false

namespace Sys2Proof.Machine

theorem toUnowned_sigBuf (o : Own) : (toUnowned o).sigBuf = o.sigBuf := by
  unfold toUnowned
  split <;> rfl

theorem toOwned_sigBuf (c : Claim) (o : Own) : (toOwned c o).sigBuf = o.sigBuf := rfl

theorem placeClaim_sigBuf (c : Claim) (o : Own) : (placeClaim c o).sigBuf = o.sigBuf := by
  unfold placeClaim
  split
  · rfl
  · rfl
  · rfl
  · split <;> rfl

theorem Keeps.ownChange {f : Own → Own} {s0 s : State} (hf : ∀ o, (f o).sigBuf = o.sigBuf) (hK : Keeps s0 s) : Keeps s0 (ownChange f s) := by
  unfold Sys2Proof.Machine.ownChange
  repeat' (first
    | with_reducible assumption
    | exact fun o ho k => (hf o).symm ▸ ho k
    | with_reducible apply Keeps.updOwn
    | with_reducible refine Keeps.whenS (fun _ _ => ?_) ?_
    | with_reducible apply Keeps.vecEvent
    | split
    | dsimp only)

theorem Keeps.execOwnClaim {m : Master} {prio : Byte} {nonce : W32} {sigOk : Bool} {s0 s tK : State} (eK : execOwnClaim m prio nonce sigOk s = .next tK) (hK : Keeps s0 s) : Keeps s0 tK := by
  unfold Sys2Proof.Machine.execOwnClaim at eK
  cases eK
  repeat' (first
    | with_reducible assumption
    | exact fun _ hx => hx
    | exact fun _ => rfl
    | with_reducible apply Keeps.ignoreWrite
    | with_reducible refine Keeps.ownChange (fun o => by first | rfl | exact toUnowned_sigBuf _ | exact toOwned_sigBuf _ _ | exact placeClaim_sigBuf _ _ | (dsimp only; split <;> first | rfl | exact toUnowned_sigBuf _)) ?_
    | with_reducible apply Keeps.ite_
    | split
    | (refine Keeps.lit ?_ rfl rfl id id id id id; first | with_reducible assumption | with_reducible apply Keeps.ignoreWrite | with_reducible refine Keeps.ownChange (fun o => by first | rfl | exact toUnowned_sigBuf _ | exact toOwned_sigBuf _ _ | exact placeClaim_sigBuf _ _ | (dsimp only; split <;> first | rfl | exact toUnowned_sigBuf _)) ?_ | with_reducible apply Keeps.ite_ | split)
    | assumption
    | intro _
    | dsimp only)

theorem Keeps.execOwnRenew {m : Master} {nonce : W32} {s0 s tK : State} (eK : execOwnRenew m nonce s = .next tK) (hK : Keeps s0 s) : Keeps s0 tK := by
  unfold Sys2Proof.Machine.execOwnRenew at eK
  cases eK
  repeat' (first
    | with_reducible assumption
    | exact fun _ hx => hx
    | exact fun _ => rfl
    | with_reducible refine Keeps.ownerOnly (fun _ _ => ?_) ?_
    | with_reducible apply Keeps.updOwn
    | with_reducible apply Keeps.ite_
    | split
    | (refine Keeps.lit ?_ rfl rfl id id id id id; first | with_reducible assumption | with_reducible refine Keeps.ownerOnly (fun _ _ => ?_) ?_ | with_reducible apply Keeps.updOwn | with_reducible apply Keeps.ite_ | split)
    | assumption
    | intro _
    | dsimp only)

theorem Keeps.execOwnRelease {m : Master} {succ : Option Master} {s0 s tK : State} (eK : execOwnRelease m succ s = .next tK) (hK : Keeps s0 s) : Keeps s0 tK := by
  unfold Sys2Proof.Machine.execOwnRelease at eK
  cases eK
  repeat' (first
    | with_reducible assumption
    | exact fun _ hx => hx
    | exact fun _ => rfl
    | with_reducible refine Keeps.ownerOnly (fun _ _ => ?_) ?_
    | with_reducible refine Keeps.ownChange (fun o => by first | rfl | exact toUnowned_sigBuf _ | exact toOwned_sigBuf _ _ | exact placeClaim_sigBuf _ _ | (dsimp only; split <;> first | rfl | exact toUnowned_sigBuf _)) ?_
    | with_reducible apply Keeps.ite_
    | split
    | (refine Keeps.lit ?_ rfl rfl id id id id id; first | with_reducible assumption | with_reducible refine Keeps.ownerOnly (fun _ _ => ?_) ?_ | with_reducible refine Keeps.ownChange (fun o => by first | rfl | exact toUnowned_sigBuf _ | exact toOwned_sigBuf _ _ | exact placeClaim_sigBuf _ _ | (dsimp only; split <;> first | rfl | exact toUnowned_sigBuf _)) ?_ | with_reducible apply Keeps.ite_ | split)
    | assumption
    | intro _
    | dsimp only)

theorem Keeps.closeClaims  {s0 s : State}  (hK : Keeps s0 s) : Keeps s0 (closeClaims s) := by
  unfold Sys2Proof.Machine.closeClaims
  repeat' (first
    | with_reducible assumption
    | exact fun _ hx => hx
    | exact fun _ => rfl
    | with_reducible refine Keeps.ownChange (fun o => by first | rfl | exact toUnowned_sigBuf _ | exact toOwned_sigBuf _ _ | exact placeClaim_sigBuf _ _ | (dsimp only; split <;> first | rfl | exact toUnowned_sigBuf _)) ?_
    | with_reducible apply Keeps.ite_
    | split
    | (refine Keeps.lit ?_ rfl rfl id id id id id; first | with_reducible assumption | with_reducible refine Keeps.ownChange (fun o => by first | rfl | exact toUnowned_sigBuf _ | exact toOwned_sigBuf _ _ | exact placeClaim_sigBuf _ _ | (dsimp only; split <;> first | rfl | exact toUnowned_sigBuf _)) ?_ | with_reducible apply Keeps.ite_ | split)
    | assumption
    | intro _
    | dsimp only)

theorem Keeps.lapse  {s0 s : State}  (hK : Keeps s0 s) : Keeps s0 (lapse s) := by
  unfold Sys2Proof.Machine.lapse
  repeat' (first
    | with_reducible assumption
    | exact fun _ hx => hx
    | exact fun _ => rfl
    | with_reducible refine Keeps.ownChange (fun o => by first | rfl | exact toUnowned_sigBuf _ | exact toOwned_sigBuf _ _ | exact placeClaim_sigBuf _ _ | (dsimp only; split <;> first | rfl | exact toUnowned_sigBuf _)) ?_
    | with_reducible apply Keeps.ite_
    | split
    | (refine Keeps.lit ?_ rfl rfl id id id id id; first | with_reducible assumption | with_reducible refine Keeps.ownChange (fun o => by first | rfl | exact toUnowned_sigBuf _ | exact toOwned_sigBuf _ _ | exact placeClaim_sigBuf _ _ | (dsimp only; split <;> first | rfl | exact toUnowned_sigBuf _)) ?_ | with_reducible apply Keeps.ite_ | split)
    | assumption
    | intro _
    | dsimp only)

theorem Keeps.endHandover  {s0 s : State}  (hK : Keeps s0 s) : Keeps s0 (endHandover s) := by
  unfold Sys2Proof.Machine.endHandover
  repeat' (first
    | with_reducible assumption
    | exact fun _ hx => hx
    | exact fun _ => rfl
    | with_reducible refine Keeps.ownChange (fun o => by first | rfl | exact toUnowned_sigBuf _ | exact toOwned_sigBuf _ _ | exact placeClaim_sigBuf _ _ | (dsimp only; split <;> first | rfl | exact toUnowned_sigBuf _)) ?_
    | with_reducible apply Keeps.ite_
    | split
    | (refine Keeps.lit ?_ rfl rfl id id id id id; first | with_reducible assumption | with_reducible refine Keeps.ownChange (fun o => by first | rfl | exact toUnowned_sigBuf _ | exact toOwned_sigBuf _ _ | exact placeClaim_sigBuf _ _ | (dsimp only; split <;> first | rfl | exact toUnowned_sigBuf _)) ?_ | with_reducible apply Keeps.ite_ | split)
    | assumption
    | intro _
    | dsimp only)

theorem Keeps.takeOver  {s0 s : State}  (hK : Keeps s0 s) : Keeps s0 (takeOver s) := by
  unfold Sys2Proof.Machine.takeOver
  repeat' (first
    | with_reducible assumption
    | exact fun _ hx => hx
    | exact fun _ => rfl
    | with_reducible refine Keeps.ownChange (fun o => by first | rfl | exact toUnowned_sigBuf _ | exact toOwned_sigBuf _ _ | exact placeClaim_sigBuf _ _ | (dsimp only; split <;> first | rfl | exact toUnowned_sigBuf _)) ?_
    | with_reducible apply Keeps.ite_
    | split
    | (refine Keeps.lit ?_ rfl rfl id id id id id; first | with_reducible assumption | with_reducible refine Keeps.ownChange (fun o => by first | rfl | exact toUnowned_sigBuf _ | exact toOwned_sigBuf _ _ | exact placeClaim_sigBuf _ _ | (dsimp only; split <;> first | rfl | exact toUnowned_sigBuf _)) ?_ | with_reducible apply Keeps.ite_ | split)
    | assumption
    | intro _
    | dsimp only)

theorem Keeps.execClaimWindowClose  {s0 s tK : State} (eK : execClaimWindowClose s = .next tK) (hK : Keeps s0 s) : Keeps s0 tK := by
  unfold Sys2Proof.Machine.execClaimWindowClose at eK
  cases eK
  repeat' (first
    | with_reducible assumption
    | exact fun _ hx => hx
    | exact fun _ => rfl
    | with_reducible apply Keeps.closeClaims
    | with_reducible apply Keeps.ite_
    | split
    | (refine Keeps.lit ?_ rfl rfl id id id id id; first | with_reducible assumption | with_reducible apply Keeps.closeClaims | with_reducible apply Keeps.ite_ | split)
    | assumption
    | intro _
    | dsimp only)

theorem Keeps.execLeaseLapse  {s0 s tK : State} (eK : execLeaseLapse s = .next tK) (hK : Keeps s0 s) : Keeps s0 tK := by
  unfold Sys2Proof.Machine.execLeaseLapse at eK
  cases eK
  repeat' (first
    | with_reducible assumption
    | exact fun _ hx => hx
    | exact fun _ => rfl
    | with_reducible apply Keeps.lapse
    | with_reducible apply Keeps.ite_
    | split
    | (refine Keeps.lit ?_ rfl rfl id id id id id; first | with_reducible assumption | with_reducible apply Keeps.lapse | with_reducible apply Keeps.ite_ | split)
    | assumption
    | intro _
    | dsimp only)

theorem Keeps.execHandoverExpiry  {s0 s tK : State} (eK : execHandoverExpiry s = .next tK) (hK : Keeps s0 s) : Keeps s0 tK := by
  unfold Sys2Proof.Machine.execHandoverExpiry at eK
  cases eK
  repeat' (first
    | with_reducible assumption
    | exact fun _ hx => hx
    | exact fun _ => rfl
    | with_reducible apply Keeps.endHandover
    | with_reducible apply Keeps.ite_
    | split
    | (refine Keeps.lit ?_ rfl rfl id id id id id; first | with_reducible assumption | with_reducible apply Keeps.endHandover | with_reducible apply Keeps.ite_ | split)
    | assumption
    | intro _
    | dsimp only)

theorem Keeps.countOwn  {s0 s : State}  (hK : Keeps s0 s) : Keeps s0 (countOwn s) := by
  unfold Sys2Proof.Machine.countOwn
  repeat' (first
    | with_reducible assumption
    | (intro hs _; split <;> exact hs _)
    | exact fun _ hx => hx
    | exact fun _ => rfl
    | with_reducible apply Keeps.updOwn
    | with_reducible apply Keeps.ite_
    | split
    | (refine Keeps.lit ?_ rfl rfl id id id id id; first | with_reducible assumption | (intro hs _; split <;> exact hs _) | with_reducible apply Keeps.updOwn | with_reducible apply Keeps.ite_ | split)
    | assumption
    | intro _
    | dsimp only)

theorem Keeps.boundaryOwn  {s0 s : State}  (hK : Keeps s0 s) : Keeps s0 (boundaryOwn s) := by
  unfold Sys2Proof.Machine.boundaryOwn
  repeat' (first
    | with_reducible assumption
    | exact fun _ hx => hx
    | exact fun _ => rfl
    | with_reducible apply Keeps.countOwn
    | with_reducible apply Keeps.closeClaims
    | with_reducible apply Keeps.lapse
    | with_reducible apply Keeps.endHandover
    | with_reducible apply Keeps.takeOver
    | with_reducible apply Keeps.ite_
    | split
    | (refine Keeps.lit ?_ rfl rfl id id id id id; first | with_reducible assumption | with_reducible apply Keeps.countOwn | with_reducible apply Keeps.closeClaims | with_reducible apply Keeps.lapse | with_reducible apply Keeps.endHandover | with_reducible apply Keeps.takeOver | with_reducible apply Keeps.ite_ | split)
    | assumption
    | intro _
    | dsimp only)

end Sys2Proof.Machine
end

