-- ==== Sys2Proof/Laws/KeepsSecurity.lean ====
section
/-! SUPPORT. What the operations of Machine/Security.lean keep: the queue, the modes and the canonical stores. -/

set_option linter.unusedTactic false
set_option linter.unreachableTactic false

namespace Sys2Proof.Machine

theorem Keeps.secRes {r : Nat} {s0 s : State}  (hK : Keeps s0 s) : Keeps s0 (secRes r s) := by
  unfold Sys2Proof.Machine.secRes
  repeat' (first
    | with_reducible assumption
    | exact fun _ hx => hx
    | exact fun _ => rfl
    | with_reducible apply Keeps.vecEvent
    | with_reducible apply Keeps.updSec
    | with_reducible apply Keeps.ite_
    | split
    | (refine Keeps.lit ?_ rfl rfl id id id id id; first | with_reducible assumption | with_reducible apply Keeps.vecEvent | with_reducible apply Keeps.updSec | with_reducible apply Keeps.ite_ | split)
    | assumption
    | intro _
    | dsimp only)

theorem Keeps.measure5 {axis v : Nat} {s0 s : State}  (hK : Keeps s0 s) : Keeps s0 (measure5 axis v s) := by
  unfold Sys2Proof.Machine.measure5
  repeat' (first
    | with_reducible assumption
    | exact fun _ hx => hx
    | exact fun _ => rfl
    | with_reducible apply Keeps.extendM
    | with_reducible apply Keeps.ite_
    | split
    | (refine Keeps.lit ?_ rfl rfl id id id id id; first | with_reducible assumption | with_reducible apply Keeps.extendM | with_reducible apply Keeps.ite_ | split)
    | assumption
    | intro _
    | dsimp only)

theorem Keeps.putRecord {r : Prov} {s0 s : State}  (hK : Keeps s0 s) : Keeps s0 (putRecord r s) := by
  unfold Sys2Proof.Machine.putRecord
  repeat' (first
    | with_reducible assumption
    | exact fun _ hx => hx
    | exact fun _ => rfl
    | with_reducible apply Keeps.extendM
    | with_reducible apply Keeps.updSec
    | with_reducible apply Keeps.ite_
    | split
    | (refine Keeps.lit ?_ rfl rfl id id id id id; first | with_reducible assumption | with_reducible apply Keeps.extendM | with_reducible apply Keeps.updSec | with_reducible apply Keeps.ite_ | split)
    | assumption
    | intro _
    | dsimp only)

theorem Keeps.flagRecord {s2 : Bool} {s0 s : State}  (hK : Keeps s0 s) : Keeps s0 (flagRecord s2 s) := by
  unfold Sys2Proof.Machine.flagRecord
  repeat' (first
    | with_reducible assumption
    | exact fun _ hx => hx
    | exact fun _ => rfl
    | with_reducible apply Keeps.putRecord
    | with_reducible apply Keeps.ite_
    | split
    | (refine Keeps.lit ?_ rfl rfl id id id id id; first | with_reducible assumption | with_reducible apply Keeps.putRecord | with_reducible apply Keeps.ite_ | split)
    | assumption
    | intro _
    | dsimp only)

theorem Keeps.secCmd {m : Master} {h : SecHdr} {cmd len : Nat} {signed : Bool} {stateOk condOk : State → Bool} {unsigned effect : State → State} {s0 s : State} (h1 : ∀ u, Keeps s0 u → Keeps s0 (unsigned u)) (h2 : ∀ u, Keeps s0 u → Keeps s0 (effect u)) (hK : Keeps s0 s) : Keeps s0 (secCmd m h cmd len signed stateOk condOk unsigned effect s) := by
  unfold Sys2Proof.Machine.secCmd
  repeat' (first
    | with_reducible assumption
    | with_reducible apply h1
    | with_reducible apply h2
    | exact fun _ hx => hx
    | exact fun _ => rfl
    | with_reducible refine Keeps.ownerOnly (fun _ _ => ?_) ?_
    | with_reducible apply Keeps.secRes
    | with_reducible apply Keeps.ite_
    | split
    | (refine Keeps.lit ?_ rfl rfl id id id id id; first | with_reducible assumption | with_reducible apply h1 | with_reducible apply h2 | with_reducible refine Keeps.ownerOnly (fun _ _ => ?_) ?_ | with_reducible apply Keeps.secRes | with_reducible apply Keeps.ite_ | split)
    | assumption
    | intro _
    | dsimp only)

theorem Keeps.execProvision {m : Master} {h : SecHdr} {k : KeyPayload} {s0 s tK : State} (eK : execProvision m h k s = .next tK) (hK : Keeps s0 s) : Keeps s0 tK := by
  unfold Sys2Proof.Machine.execProvision at eK
  cases eK
  repeat' (first
    | with_reducible assumption
    | exact fun _ hx => hx
    | exact fun _ => rfl
    | with_reducible refine Keeps.secCmd (fun _ _ => ?_) (fun _ _ => ?_) ?_
    | with_reducible apply Keeps.secRes
    | with_reducible apply Keeps.updSec
    | with_reducible apply Keeps.putRecord
    | with_reducible apply Keeps.ite_
    | with_reducible apply Keeps.takeFree_get
    | refine Keeps.takeFree_eq (by with_reducible assumption) ?_
    | split
    | (refine Keeps.lit ?_ rfl rfl id id id id id; first | with_reducible assumption | with_reducible refine Keeps.secCmd (fun _ _ => ?_) (fun _ _ => ?_) ?_ | with_reducible apply Keeps.secRes | with_reducible apply Keeps.updSec | with_reducible apply Keeps.putRecord | with_reducible apply Keeps.ite_ | with_reducible apply Keeps.takeFree_get | refine Keeps.takeFree_eq (by with_reducible assumption) ?_ | split)
    | assumption
    | intro _
    | dsimp only)

theorem Keeps.execRotate {m : Master} {h : SecHdr} {k : KeyPayload} {s0 s tK : State} (eK : execRotate m h k s = .next tK) (hK : Keeps s0 s) : Keeps s0 tK := by
  unfold Sys2Proof.Machine.execRotate at eK
  cases eK
  repeat' (first
    | with_reducible assumption
    | exact fun _ hx => hx
    | exact fun _ => rfl
    | with_reducible refine Keeps.secCmd (fun _ _ => ?_) (fun _ _ => ?_) ?_
    | with_reducible apply Keeps.secRes
    | with_reducible apply Keeps.putRecord
    | with_reducible apply Keeps.ite_
    | split
    | (refine Keeps.lit ?_ rfl rfl id id id id id; first | with_reducible assumption | with_reducible refine Keeps.secCmd (fun _ _ => ?_) (fun _ _ => ?_) ?_ | with_reducible apply Keeps.secRes | with_reducible apply Keeps.putRecord | with_reducible apply Keeps.ite_ | split)
    | assumption
    | intro _
    | dsimp only)

theorem Keeps.execLockdown {m : Master} {h : SecHdr} {s0 s tK : State} (eK : execLockdown m h s = .next tK) (hK : Keeps s0 s) : Keeps s0 tK := by
  unfold Sys2Proof.Machine.execLockdown at eK
  cases eK
  repeat' (first
    | with_reducible assumption
    | exact fun _ hx => hx
    | exact fun _ => rfl
    | with_reducible refine Keeps.secCmd (fun _ _ => ?_) (fun _ _ => ?_) ?_
    | with_reducible apply Keeps.secRes
    | with_reducible apply Keeps.updSec
    | with_reducible apply Keeps.flagRecord
    | with_reducible apply Keeps.ite_
    | split
    | (refine Keeps.lit ?_ rfl rfl id id id id id; first | with_reducible assumption | with_reducible refine Keeps.secCmd (fun _ _ => ?_) (fun _ _ => ?_) ?_ | with_reducible apply Keeps.secRes | with_reducible apply Keeps.updSec | with_reducible apply Keeps.flagRecord | with_reducible apply Keeps.ite_ | split)
    | assumption
    | intro _
    | dsimp only)

theorem Keeps.execSecRelease {m : Master} {h : SecHdr} {s0 s tK : State} (eK : execSecRelease m h s = .next tK) (hK : Keeps s0 s) : Keeps s0 tK := by
  unfold Sys2Proof.Machine.execSecRelease at eK
  cases eK
  repeat' (first
    | with_reducible assumption
    | exact fun _ hx => hx
    | exact fun _ => rfl
    | with_reducible refine Keeps.secCmd (fun _ _ => ?_) (fun _ _ => ?_) ?_
    | with_reducible apply Keeps.secRes
    | with_reducible apply Keeps.updSec
    | with_reducible apply Keeps.flagRecord
    | with_reducible apply Keeps.ite_
    | split
    | (refine Keeps.lit ?_ rfl rfl id id id id id; first | with_reducible assumption | with_reducible refine Keeps.secCmd (fun _ _ => ?_) (fun _ _ => ?_) ?_ | with_reducible apply Keeps.secRes | with_reducible apply Keeps.updSec | with_reducible apply Keeps.flagRecord | with_reducible apply Keeps.ite_ | split)
    | assumption
    | intro _
    | dsimp only)

theorem Keeps.execDeprovision {m : Master} {h : SecHdr} {s0 s tK : State} (eK : execDeprovision m h s = .next tK) (hK : Keeps s0 s) : Keeps s0 tK := by
  unfold Sys2Proof.Machine.execDeprovision at eK
  cases eK
  repeat' (first
    | with_reducible assumption
    | exact fun _ hx => hx
    | exact fun _ => rfl
    | with_reducible refine Keeps.secCmd (fun _ _ => ?_) (fun _ _ => ?_) ?_
    | with_reducible apply Keeps.secRes
    | with_reducible apply Keeps.updSec
    | with_reducible apply Keeps.ite_
    | split
    | (refine Keeps.lit ?_ rfl rfl id id id id id; first | with_reducible assumption | with_reducible refine Keeps.secCmd (fun _ _ => ?_) (fun _ _ => ?_) ?_ | with_reducible apply Keeps.secRes | with_reducible apply Keeps.updSec | with_reducible apply Keeps.ite_ | split)
    | assumption
    | intro _
    | dsimp only)

theorem Keeps.debugCmd {m : Master} {h : SecHdr} {one : Bool} {s0 s : State}  (hK : Keeps s0 s) : Keeps s0 (debugCmd m h one s) := by
  unfold Sys2Proof.Machine.debugCmd
  repeat' (first
    | with_reducible assumption
    | exact fun _ hx => hx
    | exact fun _ => rfl
    | with_reducible refine Keeps.secCmd (fun _ _ => ?_) (fun _ _ => ?_) ?_
    | with_reducible apply Keeps.secRes
    | with_reducible apply Keeps.updSec
    | with_reducible apply Keeps.ite_
    | split
    | (refine Keeps.lit ?_ rfl rfl id id id id id; first | with_reducible assumption | with_reducible refine Keeps.secCmd (fun _ _ => ?_) (fun _ _ => ?_) ?_ | with_reducible apply Keeps.secRes | with_reducible apply Keeps.updSec | with_reducible apply Keeps.ite_ | split)
    | assumption
    | intro _
    | dsimp only)

theorem Keeps.execDebug0 {m : Master} {h : SecHdr} {s0 s tK : State} (eK : execDebug0 m h s = .next tK) (hK : Keeps s0 s) : Keeps s0 tK := by
  unfold Sys2Proof.Machine.execDebug0 at eK
  cases eK
  repeat' (first
    | with_reducible assumption
    | exact fun _ hx => hx
    | exact fun _ => rfl
    | with_reducible apply Keeps.debugCmd
    | with_reducible apply Keeps.ite_
    | split
    | (refine Keeps.lit ?_ rfl rfl id id id id id; first | with_reducible assumption | with_reducible apply Keeps.debugCmd | with_reducible apply Keeps.ite_ | split)
    | assumption
    | intro _
    | dsimp only)

theorem Keeps.execDebug1 {m : Master} {h : SecHdr} {s0 s tK : State} (eK : execDebug1 m h s = .next tK) (hK : Keeps s0 s) : Keeps s0 tK := by
  unfold Sys2Proof.Machine.execDebug1 at eK
  cases eK
  repeat' (first
    | with_reducible assumption
    | exact fun _ hx => hx
    | exact fun _ => rfl
    | with_reducible apply Keeps.debugCmd
    | with_reducible apply Keeps.ite_
    | split
    | (refine Keeps.lit ?_ rfl rfl id id id id id; first | with_reducible assumption | with_reducible apply Keeps.debugCmd | with_reducible apply Keeps.ite_ | split)
    | assumption
    | intro _
    | dsimp only)

theorem Keeps.execDebug2 {m : Master} {h : SecHdr} {p : Byte} {rsv0 : Bool} {s0 s tK : State} (eK : execDebug2 m h p rsv0 s = .next tK) (hK : Keeps s0 s) : Keeps s0 tK := by
  unfold Sys2Proof.Machine.execDebug2 at eK
  cases eK
  repeat' (first
    | with_reducible assumption
    | exact fun _ hx => hx
    | exact fun _ => rfl
    | with_reducible refine Keeps.secCmd (fun _ _ => ?_) (fun _ _ => ?_) ?_
    | with_reducible apply Keeps.vecEvent
    | with_reducible apply Keeps.secRes
    | with_reducible apply Keeps.updSec
    | with_reducible apply Keeps.ite_
    | split
    | (refine Keeps.lit ?_ rfl rfl id id id id id; first | with_reducible assumption | with_reducible refine Keeps.secCmd (fun _ _ => ?_) (fun _ _ => ?_) ?_ | with_reducible apply Keeps.vecEvent | with_reducible apply Keeps.secRes | with_reducible apply Keeps.updSec | with_reducible apply Keeps.ite_ | split)
    | assumption
    | intro _
    | dsimp only)

theorem Keeps.execChallenge {m : Master} {h : SecHdr} {s0 s tK : State} (eK : execChallenge m h s = .next tK) (hK : Keeps s0 s) : Keeps s0 tK := by
  unfold Sys2Proof.Machine.execChallenge at eK
  cases eK
  repeat' (first
    | with_reducible assumption
    | exact fun _ hx => hx
    | exact fun _ => rfl
    | with_reducible refine Keeps.secCmd (fun _ _ => ?_) (fun _ _ => ?_) ?_
    | with_reducible apply Keeps.secRes
    | with_reducible apply Keeps.emit
    | with_reducible apply Keeps.updSec
    | with_reducible apply Keeps.ite_
    | split
    | (refine Keeps.lit ?_ rfl rfl id id id id id; first | with_reducible assumption | with_reducible refine Keeps.secCmd (fun _ _ => ?_) (fun _ _ => ?_) ?_ | with_reducible apply Keeps.secRes | with_reducible apply Keeps.emit | with_reducible apply Keeps.updSec | with_reducible apply Keeps.ite_ | split)
    | assumption
    | intro _
    | dsimp only)

theorem Keeps.unlockFailed  {s0 s : State}  (hK : Keeps s0 s) : Keeps s0 (unlockFailed s) := by
  unfold Sys2Proof.Machine.unlockFailed
  repeat' (first
    | with_reducible assumption
    | exact fun _ hx => hx
    | exact fun _ => rfl
    | with_reducible apply Keeps.alarm
    | with_reducible apply Keeps.updSec
    | with_reducible apply Keeps.flagRecord
    | with_reducible apply Keeps.ite_
    | split
    | (refine Keeps.lit ?_ rfl rfl id id id id id; first | with_reducible assumption | with_reducible apply Keeps.alarm | with_reducible apply Keeps.updSec | with_reducible apply Keeps.flagRecord | with_reducible apply Keeps.ite_ | split)
    | assumption
    | intro _
    | dsimp only)

theorem Keeps.execUnlock {m : Master} {h : SecHdr} {s0 s tK : State} (eK : execUnlock m h s = .next tK) (hK : Keeps s0 s) : Keeps s0 tK := by
  unfold Sys2Proof.Machine.execUnlock at eK
  cases eK
  repeat' (first
    | with_reducible assumption
    | exact fun _ hx => hx
    | exact fun _ => rfl
    | with_reducible refine Keeps.secCmd (fun _ _ => ?_) (fun _ _ => ?_) ?_
    | with_reducible apply Keeps.unlockFailed
    | with_reducible apply Keeps.secRes
    | with_reducible apply Keeps.updSec
    | with_reducible apply Keeps.ite_
    | split
    | (refine Keeps.lit ?_ rfl rfl id id id id id; first | with_reducible assumption | with_reducible refine Keeps.secCmd (fun _ _ => ?_) (fun _ _ => ?_) ?_ | with_reducible apply Keeps.unlockFailed | with_reducible apply Keeps.secRes | with_reducible apply Keeps.updSec | with_reducible apply Keeps.ite_ | split)
    | assumption
    | intro _
    | dsimp only)

theorem Keeps.execChallengeExpiry  {s0 s tK : State} (eK : execChallengeExpiry s = .next tK) (hK : Keeps s0 s) : Keeps s0 tK := by
  unfold Sys2Proof.Machine.execChallengeExpiry at eK
  cases eK
  repeat' (first
    | with_reducible assumption
    | exact fun _ hx => hx
    | exact fun _ => rfl
    | with_reducible apply Keeps.updSec
    | with_reducible apply Keeps.ite_
    | split
    | (refine Keeps.lit ?_ rfl rfl id id id id id; first | with_reducible assumption | with_reducible apply Keeps.updSec | with_reducible apply Keeps.ite_ | split)
    | assumption
    | intro _
    | dsimp only)

theorem Keeps.lapseConsent  {s0 s : State}  (hK : Keeps s0 s) : Keeps s0 (lapseConsent s) := by
  unfold Sys2Proof.Machine.lapseConsent
  repeat' (first
    | with_reducible assumption
    | exact fun _ hx => hx
    | exact fun _ => rfl
    | with_reducible apply Keeps.secRes
    | with_reducible apply Keeps.updSec
    | with_reducible apply Keeps.ite_
    | split
    | (refine Keeps.lit ?_ rfl rfl id id id id id; first | with_reducible assumption | with_reducible apply Keeps.secRes | with_reducible apply Keeps.updSec | with_reducible apply Keeps.ite_ | split)
    | assumption
    | intro _
    | dsimp only)

theorem Keeps.execConsentLapse  {s0 s tK : State} (eK : execConsentLapse s = .next tK) (hK : Keeps s0 s) : Keeps s0 tK := by
  unfold Sys2Proof.Machine.execConsentLapse at eK
  cases eK
  repeat' (first
    | with_reducible assumption
    | exact fun _ hx => hx
    | exact fun _ => rfl
    | with_reducible apply Keeps.lapseConsent
    | with_reducible apply Keeps.ite_
    | split
    | (refine Keeps.lit ?_ rfl rfl id id id id id; first | with_reducible assumption | with_reducible apply Keeps.lapseConsent | with_reducible apply Keeps.ite_ | split)
    | assumption
    | intro _
    | dsimp only)

theorem Keeps.giveConsent {p : PartId} {nonce : W32} {yes : Bool} {s0 s : State} (hK : Keeps s0 s) : Keeps s0 (giveConsent p nonce yes s) := by
  refine Keeps.updSec hK (fun x => ?_) (fun x h => ?_)
  · split
    · split <;> rfl
    · rfl
  · split
    · split <;> exact h
    · exact h

theorem Keeps.execPrtConsent {m : Master} {p : PartId} {nonce : W32} {consent : Bool} {s0 s tK : State} (eK : execPrtConsent m p nonce consent s = .next tK) (hK : Keeps s0 s) : Keeps s0 tK := by
  unfold Sys2Proof.Machine.execPrtConsent at eK
  cases eK
  repeat' (first
    | with_reducible assumption
    | exact fun _ hx => hx
    | exact fun _ => rfl
    | with_reducible apply Keeps.giveConsent
    | with_reducible apply Keeps.ignoreWrite
    | with_reducible apply Keeps.ite_
    | split
    | (refine Keeps.lit ?_ rfl rfl id id id id id; first | with_reducible assumption | with_reducible apply Keeps.giveConsent | with_reducible apply Keeps.ignoreWrite | with_reducible apply Keeps.ite_ | split)
    | assumption
    | intro _
    | dsimp only)

theorem Keeps.wipeAll {s0 s : State} (hK : Keeps s0 s) : Keeps s0 (wipeAll s) :=
  Keeps.same hK rfl rfl (fun k => ⟨⟨emptyStore_wf, filter_wf _ _ k.1.2.1, k.1.2.2⟩, k.2.1,
    fun c => by simpa [State.core, Sys2Proof.Machine.wipeAll, wipeCore] using ⟨emptyStore_wf, (k.2.2.1 c).2⟩,
    fun p => by simpa [State.part, Sys2Proof.Machine.wipeAll] using emptyStore_wf⟩)

theorem Keeps.execWipeComplete  {s0 s tK : State} (eK : execWipeComplete s = .next tK) (hK : Keeps s0 s) : Keeps s0 tK := by
  unfold Sys2Proof.Machine.execWipeComplete at eK
  cases eK
  repeat' (first
    | with_reducible assumption
    | exact fun _ hx => hx
    | exact fun _ => rfl
    | with_reducible apply Keeps.updSec
    | with_reducible apply Keeps.wipeAll
    | with_reducible apply Keeps.secRes
    | with_reducible apply Keeps.ite_
    | split
    | (refine Keeps.lit ?_ rfl rfl id id id id id; first | with_reducible assumption | with_reducible apply Keeps.updSec | with_reducible apply Keeps.wipeAll | with_reducible apply Keeps.secRes | with_reducible apply Keeps.ite_ | split)
    | assumption
    | intro _
    | dsimp only)

theorem Keeps.drainRunning  {s0 s : State}  (hK : Keeps s0 s) : Keeps s0 (drainRunning s) := by
  unfold Sys2Proof.Machine.drainRunning
  repeat' (first
    | with_reducible assumption
    | exact fun _ hx => hx
    | exact fun _ => rfl
    | with_reducible refine Keeps.forAll (fun _ _ _ => ?_) ?_
    | with_reducible apply Keeps.setPState
    | with_reducible apply Keeps.ite_
    | split
    | (refine Keeps.lit ?_ rfl rfl id id id id id; first | with_reducible assumption | with_reducible refine Keeps.forAll (fun _ _ _ => ?_) ?_ | with_reducible apply Keeps.setPState | with_reducible apply Keeps.ite_ | split)
    | assumption
    | intro _
    | dsimp only)

theorem Keeps.boundarySec {s0 s : State} (hK : Keeps s0 s) : Keeps s0 (boundarySec s) := by
  unfold Sys2Proof.Machine.boundarySec
  split
  · exact hK
  · rename_i n _
    split
    · exact Keeps.updSec hK (fun _ => rfl) (fun _ h => h)
    · rename_i hn
      have h1 : Keeps s0 (Machine.updSec (fun x => { x with stateNext := none, state := n.1, d2 := if n = 2 then none else x.d2 }) s) := by
        refine Keeps.setSec hK (fun k => ⟨by have := n.2; simp; omega, fun e => ?_, fun e => ?_, fun e => ?_⟩) (fun h => h)
        · obtain ⟨a, b, c⟩ := k.2.1 e
          exact ⟨a, by simp [b], c⟩
        · obtain ⟨b, c⟩ := k.2.2.1 e
          exact ⟨by simp [b], c⟩
        · have e2 : n = 2 := Fin.ext (by simpa using e)
          have hd : s.sec.d3 = false := by
            cases hd : s.sec.d3
            · rfl
            · exact absurd ⟨e2, hd⟩ hn
          exact ⟨by simp [e2], by simpa using hd⟩
      dsimp only
      generalize Machine.updSec (fun x => { x with stateNext := none, state := n.1, d2 := if n = 2 then none else x.d2 }) s = s1 at h1 ⊢
      split
      · exact h1
      · split
        · exact Keeps.drainRunning (Keeps.alarm (Keeps.updSec (Keeps.measure5 h1) (fun _ => rfl) (fun _ h => h)))
        · exact Keeps.measure5 h1

theorem dueDebug_state (x : Sec) : (dueDebug x).state = x.state ∧ (dueDebug x).d3 = x.d3 ∧ (dueDebug x).mbox = x.mbox
    ∧ (x.d2 = none → (dueDebug x).d2 = none) := by
  unfold dueDebug
  generalize x.dbgNext = l
  have h (l : List Bool) (y : Sec) (hy : y.state = x.state ∧ y.d3 = x.d3 ∧ y.mbox = x.mbox ∧ (x.d2 = none → y.d2 = none)) :
      let z := l.foldl (fun x one => if one then { x with d1 := true } else { x with d1 := false, d2 := none, d2req := none }) y
      z.state = x.state ∧ z.d3 = x.d3 ∧ z.mbox = x.mbox ∧ (x.d2 = none → z.d2 = none) := by
    induction l generalizing y with
    | nil => exact hy
    | cons b r ih =>
      refine ih _ ?_
      cases b
      · exact ⟨hy.1, hy.2.1, hy.2.2.1, fun _ => rfl⟩
      · exact hy
  exact h l _ ⟨rfl, rfl, rfl, fun e => e⟩

theorem Keeps.dueDebug {s0 s : State} (hp : s.pwr.state ≠ .p4) (hK : Keeps s0 s) : Keeps s0 (Machine.updSec dueDebug s) := by
  obtain ⟨e1, e2, e3, e4⟩ := dueDebug_state s.sec
  refine Keeps.setSec hK (fun k => ⟨?_, fun e => absurd e hp, fun e => ?_, fun e => ?_⟩) (fun h => e3.symm ▸ h)
  · exact e1.symm ▸ k.1
  · exact ⟨e4 (k.2.2.1 e).1, e2.trans (k.2.2.1 e).2⟩
  · have e : s.sec.state = 2 := e1 ▸ e
    exact ⟨e4 (k.2.2.2 e).1, e2.trans (k.2.2.2 e).2⟩

theorem Keeps.endD2 {s0 s : State} (hK : Keeps s0 s) : Keeps s0 (endD2 s) := by
  unfold Sys2Proof.Machine.endD2
  refine Keeps.setSec hK (fun k => ⟨k.1, fun e => ?_, fun e => ?_, fun e => ?_⟩) (fun h => h)
  · obtain ⟨a, b, c⟩ := k.2.1 e
    exact ⟨a, by simp [b], c⟩
  · obtain ⟨b, c⟩ := k.2.2.1 e
    exact ⟨by simp [b], c⟩
  · obtain ⟨b, c⟩ := k.2.2.2 e
    exact ⟨by simp [b], c⟩

theorem Keeps.beginD2 {s0 s : State} (hK : Keeps s0 s) : Keeps s0 (beginD2 s) := by
  unfold Sys2Proof.Machine.beginD2
  split
  · exact hK
  · split
    · exact Keeps.secRes (Keeps.updSec hK (fun _ => rfl) (fun _ h => h))
    · rename_i hd
      split
      · refine Keeps.secRes (Keeps.setSec hK (fun k => ⟨k.1, fun e => absurd e ?_, fun e => absurd e ?_, fun e => absurd e ?_⟩) (fun h => h)) <;>
          (intro e; simp [d2Allowed, memOn] at hd; simp_all)
      · exact Keeps.lapseConsent hK

theorem Keeps.beginD3 {s0 s : State} (hK : Keeps s0 s) : Keeps s0 (beginD3 s) := by
  unfold Sys2Proof.Machine.beginD3
  split
  · exact hK
  · have h1 : Keeps s0 (Machine.updSec (fun x => { x with d3Next := false }) s) := Keeps.updSec hK (fun _ => rfl) (fun _ h => h)
    dsimp only
    generalize Machine.updSec (fun x => { x with d3Next := false }) s = s1 at h1 ⊢
    split
    · exact Keeps.secRes h1
    · rename_i hd
      refine Keeps.secRes (Keeps.setSec h1 (fun k => ⟨k.1, fun e => absurd e ?_, fun e => absurd e ?_, fun e => absurd e ?_⟩) (fun h => h)) <;>
        (intro e; simp [memOn] at hd; simp_all)

theorem Keeps.boundaryDebug {s0 s : State} (hK : Keeps s0 s) : Keeps s0 (boundaryDebug s) := by
  unfold Sys2Proof.Machine.boundaryDebug
  split
  · exact hK
  · rename_i hp
    exact Keeps.beginD3 (Keeps.beginD2 (Keeps.endD2 (Keeps.dueDebug hp hK)))

theorem Keeps.boundarySecurity  {s0 s : State}  (hK : Keeps s0 s) : Keeps s0 (boundarySecurity s) := by
  unfold Sys2Proof.Machine.boundarySecurity
  repeat' (first
    | with_reducible assumption
    | exact fun _ hx => hx
    | exact fun _ => rfl
    | with_reducible apply Keeps.boundaryDebug
    | with_reducible apply Keeps.boundarySec
    | with_reducible apply Keeps.measure5
    | with_reducible apply Keeps.ite_
    | split
    | (refine Keeps.lit ?_ rfl rfl id id id id id; first | with_reducible assumption | with_reducible apply Keeps.boundaryDebug | with_reducible apply Keeps.boundarySec | with_reducible apply Keeps.measure5 | with_reducible apply Keeps.ite_ | split)
    | assumption
    | intro _
    | dsimp only)

theorem Keeps.requestReport {f : FuncId} {nonce : Nat} {addr : W64} {reject : State → State} {s0 s : State} (hr : ∀ u, Keeps s0 u → Keeps s0 (reject u)) (hK : Keeps s0 s) : Keeps s0 (requestReport f nonce addr reject s) := by
  unfold Sys2Proof.Machine.requestReport
  repeat' (first
    | with_reducible assumption
    | with_reducible apply hr
    | exact fun _ hx => hx
    | exact fun _ => rfl
    | with_reducible apply Keeps.updFunc
    | with_reducible apply Keeps.ite_
    | split
    | (refine Keeps.lit ?_ rfl rfl id id id id id; first | with_reducible assumption | with_reducible apply hr | with_reducible apply Keeps.updFunc | with_reducible apply Keeps.ite_ | split)
    | assumption
    | intro _
    | dsimp only)

theorem Keeps.execSecAttgo {m : Master} {s0 s tK : State} (eK : execSecAttgo m s = .next tK) (hK : Keeps s0 s) : Keeps s0 tK := by
  unfold Sys2Proof.Machine.execSecAttgo at eK
  cases eK
  repeat' (first
    | with_reducible assumption
    | exact fun _ hx => hx
    | exact fun _ => rfl
    | with_reducible refine Keeps.requestReport (fun _ _ => ?_) ?_
    | with_reducible apply Keeps.updSec
    | with_reducible apply Keeps.ignoreWrite
    | with_reducible apply Keeps.ite_
    | split
    | (refine Keeps.lit ?_ rfl rfl id id id id id; first | with_reducible assumption | with_reducible refine Keeps.requestReport (fun _ _ => ?_) ?_ | with_reducible apply Keeps.updSec | with_reducible apply Keeps.ignoreWrite | with_reducible apply Keeps.ite_ | split)
    | assumption
    | intro _
    | dsimp only)

theorem Keeps.execPrtAttgo {m : Master} {p : PartId} {s0 s tK : State} (eK : execPrtAttgo m p s = .next tK) (hK : Keeps s0 s) : Keeps s0 tK := by
  unfold Sys2Proof.Machine.execPrtAttgo at eK
  cases eK
  repeat' (first
    | with_reducible assumption
    | exact fun _ hx => hx
    | exact fun _ => rfl
    | with_reducible refine Keeps.requestReport (fun _ _ => ?_) ?_
    | with_reducible apply Keeps.prtError
    | with_reducible apply Keeps.ignoreWrite
    | with_reducible apply Keeps.ite_
    | split
    | (refine Keeps.lit ?_ rfl rfl id id id id id; first | with_reducible assumption | with_reducible refine Keeps.requestReport (fun _ _ => ?_) ?_ | with_reducible apply Keeps.prtError | with_reducible apply Keeps.ignoreWrite | with_reducible apply Keeps.ite_ | split)
    | assumption
    | intro _
    | dsimp only)

theorem Keeps.execAttestationReport {f : FuncId} {s0 s tK : State} (eK : execAttestationReport f s = .next tK) (hK : Keeps s0 s) : Keeps s0 tK := by
  unfold Sys2Proof.Machine.execAttestationReport at eK
  cases eK
  repeat' (first
    | with_reducible assumption
    | exact fun _ hx => hx
    | exact fun _ => rfl
    | with_reducible apply Keeps.hostWrite
    | with_reducible apply Keeps.vecEvent
    | with_reducible apply Keeps.updFunc
    | with_reducible apply Keeps.ite_
    | split
    | (refine Keeps.lit ?_ rfl rfl id id id id id; first | with_reducible assumption | with_reducible apply Keeps.hostWrite | with_reducible apply Keeps.vecEvent | with_reducible apply Keeps.updFunc | with_reducible apply Keeps.ite_ | split)
    | assumption
    | intro _
    | dsimp only)

end Sys2Proof.Machine
end

