-- ==== Sys2Proof/Laws/KeepsStarts.lean ====
section
/-! SUPPORT. What the operations of Machine/Starts.lean keep: the queue, the modes and the canonical stores. -/

set_option linter.unusedTactic false
set_option linter.unreachableTactic false

namespace Sys2Proof.Machine

theorem reset_storesOk : StoresOk State.reset := by
  refine ⟨⟨emptyStore_wf, emptyStore_wf, emptyStore_wf⟩, ⟨fun k => ?_, emptyStore_wf⟩, fun c => ?_, fun p => ?_⟩
  · simpa [State.reset] using emptyStore_wf
  · simpa [State.reset, State.core] using (show CoreOk {} from ⟨emptyStore_wf, emptyStore_wf, emptyStore_wf, emptyStore_wf⟩)
  · simpa [State.reset, State.part] using emptyStore_wf

theorem Keeps.unpowered {s0 s : State} (hK : Keeps s0 s) : Keeps s0 (unpowered s) :=
  ⟨hK.pending, fun _ => ⟨by simp [Sys2Proof.Machine.unpowered], fun _ => ⟨rfl, rfl, rfl⟩, fun _ => ⟨rfl, rfl⟩, fun _ => ⟨rfl, rfl⟩⟩,
    fun k => ⟨⟨emptyStore_wf, emptyStore_wf, (hK.stores k).1.2.2⟩, reset_storesOk.2.1, reset_storesOk.2.2⟩⟩

theorem Keeps.powerOff {s0 s : State} (hK : Keeps s0 s) : Keeps s0 (powerOff s) :=
  ⟨hK.pending, fun _ => ⟨by simp [Sys2Proof.Machine.powerOff, Sys2Proof.Machine.unpowered], fun _ => ⟨rfl, rfl, rfl⟩, fun _ => ⟨rfl, rfl⟩, fun _ => ⟨rfl, rfl⟩⟩,
    fun k => (Keeps.unpowered hK).stores k⟩

theorem Keeps.deviceFault {kind block : Nat} {s0 s : State}  (hK : Keeps s0 s) : Keeps s0 (deviceFault kind block s) := by
  unfold Sys2Proof.Machine.deviceFault
  repeat' (first
    | with_reducible assumption
    | exact fun _ hx => hx
    | exact fun _ => rfl
    | with_reducible apply Keeps.logR
    | with_reducible apply Keeps.ite_
    | split
    | (refine Keeps.lit ?_ rfl rfl id id id id id; first | with_reducible assumption | with_reducible apply Keeps.logR | with_reducible apply Keeps.ite_ | split)
    | assumption
    | intro _
    | dsimp only)

theorem Keeps.queueCauses  {s0 s : State}  (hK : Keeps s0 s) : Keeps s0 (queueCauses s) := by
  unfold Sys2Proof.Machine.queueCauses
  repeat' (first
    | with_reducible assumption
    | exact fun _ hx => hx
    | exact fun _ => rfl
    | with_reducible refine Keeps.forAll (fun _ _ _ => ?_) ?_
    | with_reducible apply Keeps.deviceFault
    | with_reducible apply Keeps.updFlt
    | with_reducible apply Keeps.ite_
    | split
    | (refine Keeps.lit ?_ rfl rfl id id id id id; first | with_reducible assumption | with_reducible refine Keeps.forAll (fun _ _ _ => ?_) ?_ | with_reducible apply Keeps.deviceFault | with_reducible apply Keeps.updFlt | with_reducible apply Keeps.ite_ | split)
    | assumption
    | intro _
    | dsimp only)

theorem Keeps.stepFirmware {e : StartEnv} {s0 s : State} (hK : Keeps s0 s) : Keeps.Opt s0 (stepFirmware e s) := by
  unfold Sys2Proof.Machine.stepFirmware
  exact Keeps.Opt.ite_ (Keeps.Opt.some_ (Keeps.queueCauses (Keeps.extendM (Keeps.updImg hK)))) Keeps.Opt.none_

theorem Keeps.noFirmware  {s0 s : State}  (hK : Keeps s0 s) : Keeps s0 (noFirmware s) := by
  unfold Sys2Proof.Machine.noFirmware
  repeat' (first
    | with_reducible assumption
    | exact fun _ hx => hx
    | exact fun _ => rfl
    | with_reducible apply Keeps.alarmBit
    | with_reducible apply Keeps.updFlt
    | with_reducible apply Keeps.updImg
    | with_reducible apply Keeps.ite_
    | split
    | (refine Keeps.lit ?_ rfl rfl id id id id id; first | with_reducible assumption | with_reducible apply Keeps.alarmBit | with_reducible apply Keeps.updFlt | with_reducible apply Keeps.updImg | with_reducible apply Keeps.ite_ | split)
    | assumption
    | intro _
    | dsimp only)

theorem Keeps.stepPuf {e : StartEnv} {s0 s : State}  (hK : Keeps s0 s) : Keeps s0 (stepPuf e s) := by
  unfold Sys2Proof.Machine.stepPuf
  repeat' (first
    | with_reducible assumption
    | exact fun _ hx => hx
    | exact fun _ => rfl
    | with_reducible apply Keeps.updSec
    | with_reducible apply Keeps.deviceFault
    | with_reducible apply Keeps.alarm
    | with_reducible apply Keeps.ite_
    | split
    | (refine Keeps.lit ?_ rfl rfl id id id id id; first | with_reducible assumption | with_reducible apply Keeps.updSec | with_reducible apply Keeps.deviceFault | with_reducible apply Keeps.alarm | with_reducible apply Keeps.ite_ | split)
    | assumption
    | intro _
    | dsimp only)

theorem Keeps.clearDisabled  {s0 s : State}  (hK : Keeps s0 s) : Keeps s0 (clearDisabled s) := by
  unfold Sys2Proof.Machine.clearDisabled
  repeat' (first
    | with_reducible assumption
    | exact fun _ hx => hx
    | exact fun _ => rfl
    | with_reducible apply Keeps.updFlt
    | with_reducible apply Keeps.ite_
    | split
    | (refine Keeps.lit ?_ rfl rfl id id id id id; first | with_reducible assumption | with_reducible apply Keeps.updFlt | with_reducible apply Keeps.ite_ | split)
    | assumption
    | intro _
    | dsimp only)

theorem Keeps.keepCert  {s0 s : State}  (hK : Keeps s0 s) : Keeps s0 (keepCert s) := by
  unfold Sys2Proof.Machine.keepCert
  repeat' (first
    | with_reducible assumption
    | exact fun _ hx => hx
    | exact fun _ => rfl
    | with_reducible apply Keeps.updImg
    | with_reducible apply Keeps.applyCert
    | with_reducible apply Keeps.ite_
    | split
    | (refine Keeps.lit ?_ rfl rfl id id id id id; first | with_reducible assumption | with_reducible apply Keeps.updImg | with_reducible apply Keeps.applyCert | with_reducible apply Keeps.ite_ | split)
    | assumption
    | intro _
    | dsimp only)

theorem Keeps.stepCert {cold : Bool} {s0 s : State}  (hK : Keeps s0 s) : Keeps s0 (stepCert cold s) := by
  unfold Sys2Proof.Machine.stepCert
  repeat' (first
    | with_reducible assumption
    | exact fun _ hx => hx
    | exact fun _ => rfl
    | with_reducible apply Keeps.updFlt
    | with_reducible apply Keeps.applyCert
    | with_reducible refine Keeps.whenS (fun _ _ => ?_) ?_
    | with_reducible apply Keeps.clearDisabled
    | with_reducible apply Keeps.keepCert
    | with_reducible apply Keeps.extendM
    | with_reducible apply Keeps.ite_
    | split
    | (refine Keeps.lit ?_ rfl rfl id id id id id; first | with_reducible assumption | with_reducible apply Keeps.updFlt | with_reducible apply Keeps.applyCert | with_reducible refine Keeps.whenS (fun _ _ => ?_) ?_ | with_reducible apply Keeps.clearDisabled | with_reducible apply Keeps.keepCert | with_reducible apply Keeps.extendM | with_reducible apply Keeps.ite_ | split)
    | assumption
    | intro _
    | dsimp only)

theorem provState_le (s : State) : provState s ≤ 2 := by
  unfold provState
  split
  · split
    · decide
    · split <;> decide
  · split <;> decide

theorem Keeps.stepState {cold : Bool} {s0 s : State} (hK : Keeps s0 s) : Keeps s0 (stepState cold s) := by
  unfold Sys2Proof.Machine.stepState
  extract_lets old shown n s1
  have h1 : Keeps s0 s1 := by
    have hn : LegalModes s → n ≤ 2 ∧ (n = 2 → s.sec.d3 = false) := by
      intro k
      unfold n
      split
      · exact ⟨k.1, fun e => (k.2.2.2 e).2⟩
      · rename_i hd
        refine ⟨provState_le s, fun e => ?_⟩
        cases h : s.sec.d3
        · rfl
        · exact absurd ⟨e, h⟩ hd
    clear_value n
    refine Keeps.setSec hK (fun k => ⟨(hn k).1, fun e => ?_, fun e => ?_, fun e => ?_⟩) (fun h => h)
    · obtain ⟨a, b, c⟩ := k.2.1 e
      exact ⟨a, by simp [b], c⟩
    · obtain ⟨b, c⟩ := k.2.2.1 e
      exact ⟨by simp [b], c⟩
    · have e : n = 2 := e
      exact ⟨by simp [e], (hn k).2 e⟩
  clear_value s1 n
  split
  · have h2 : Keeps s0 (Machine.whenS (n == 2) (Machine.alarm 11) (Machine.measure5 0 n s1)) :=
      Keeps.whenS (fun _ h => Keeps.alarm h) (Keeps.measure5 h1)
    split
    · exact h2
    · exact Keeps.measure5 h2
  · exact h1

theorem Keeps.endDebug {s0 s : State} (hK : Keeps s0 s) : Keeps s0 (endDebug s) := by
  unfold Sys2Proof.Machine.endDebug
  extract_lets shown s1 s2
  have h1 : Keeps s0 s1 :=
    Keeps.setSec hK (fun k => ⟨k.1, fun _ => ⟨rfl, rfl, rfl⟩, fun _ => ⟨rfl, rfl⟩, fun _ => ⟨rfl, rfl⟩⟩) (fun h => h)
  clear_value s1
  refine Keeps.stepState ?_
  unfold s2
  split
  · exact h1
  · exact Keeps.measure5 h1

theorem Keeps.stepSelfTest {cold ok : Bool} {s0 s : State}  (hK : Keeps s0 s) : Keeps s0 (stepSelfTest cold ok s) := by
  unfold Sys2Proof.Machine.stepSelfTest
  repeat' (first
    | with_reducible assumption
    | exact fun _ hx => hx
    | exact fun _ => rfl
    | with_reducible apply Keeps.updFlt
    | with_reducible apply Keeps.alarm
    | with_reducible apply Keeps.ite_
    | split
    | (refine Keeps.lit ?_ rfl rfl id id id id id; first | with_reducible assumption | with_reducible apply Keeps.updFlt | with_reducible apply Keeps.alarm | with_reducible apply Keeps.ite_ | split)
    | assumption
    | intro _
    | dsimp only)

theorem Keeps.loseFar {i : Nat} {s0 s : State}  (hK : Keeps s0 s) : Keeps s0 (loseFar i s) := by
  unfold Sys2Proof.Machine.loseFar
  repeat' (first
    | with_reducible assumption
    | exact fun m hm => ⟨hm.1, filter_wf _ _ hm.2.1, hm.2.2⟩
    | exact fun _ hx => hx
    | exact fun _ => rfl
    | with_reducible apply Keeps.updNodes
    | with_reducible apply Keeps.updMem
    | with_reducible refine Keeps.forAll (fun _ _ _ => ?_) ?_
    | with_reducible refine Keeps.whenS (fun _ _ => ?_) ?_
    | with_reducible apply Keeps.updPart
    | with_reducible apply Keeps.releaseSession
    | with_reducible apply Keeps.ite_
    | split
    | (refine Keeps.lit ?_ rfl rfl id id id id id; first | with_reducible assumption | with_reducible apply Keeps.updNodes | with_reducible apply Keeps.updMem | with_reducible refine Keeps.forAll (fun _ _ _ => ?_) ?_ | with_reducible refine Keeps.whenS (fun _ _ => ?_) ?_ | with_reducible apply Keeps.updPart | with_reducible apply Keeps.releaseSession | with_reducible apply Keeps.ite_ | split)
    | assumption
    | intro _
    | dsimp only)

theorem Keeps.stepCxl {cold : Bool} {e : StartEnv} {s0 s : State}  (hK : Keeps s0 s) : Keeps s0 (stepCxl cold e s) := by
  unfold Sys2Proof.Machine.stepCxl
  repeat' (first
    | with_reducible assumption
    | exact fun _ hx => hx
    | exact fun _ => rfl
    | with_reducible refine Keeps.forAll (fun _ _ _ => ?_) ?_
    | with_reducible refine Keeps.whenS (fun _ _ => ?_) ?_
    | with_reducible apply Keeps.loseFar
    | with_reducible apply Keeps.alarm
    | with_reducible apply Keeps.updCxl
    | with_reducible apply Keeps.ite_
    | split
    | (refine Keeps.lit ?_ rfl rfl id id id id id; first | with_reducible assumption | with_reducible refine Keeps.forAll (fun _ _ _ => ?_) ?_ | with_reducible refine Keeps.whenS (fun _ _ => ?_) ?_ | with_reducible apply Keeps.loseFar | with_reducible apply Keeps.alarm | with_reducible apply Keeps.updCxl | with_reducible apply Keeps.ite_ | split)
    | assumption
    | intro _
    | dsimp only)

theorem Keeps.enterQuiet  {s0 s : State}  (hK : Keeps s0 s) : Keeps s0 (enterQuiet s) := by
  unfold Sys2Proof.Machine.enterQuiet
  repeat' (first
    | with_reducible assumption
    | exact fun _ hx => hx
    | exact fun _ => rfl
    | with_reducible refine Keeps.forAll (fun _ _ _ => ?_) ?_
    | with_reducible refine Keeps.whenS (fun _ _ => ?_) ?_
    | with_reducible apply Keeps.unconfigure
    | with_reducible apply Keeps.updMem
    | with_reducible apply Keeps.updPwr
    | with_reducible apply Keeps.updImg
    | with_reducible apply Keeps.updPort
    | with_reducible apply Keeps.ite_
    | split
    | (refine Keeps.lit ?_ rfl rfl id id id id id; first | with_reducible assumption | with_reducible refine Keeps.forAll (fun _ _ _ => ?_) ?_ | with_reducible refine Keeps.whenS (fun _ _ => ?_) ?_ | with_reducible apply Keeps.unconfigure | with_reducible apply Keeps.updMem | with_reducible apply Keeps.updPwr | with_reducible apply Keeps.updImg | with_reducible apply Keeps.updPort | with_reducible apply Keeps.ite_ | split)
    | assumption
    | intro _
    | dsimp only)

theorem Keeps.trySlotBoot_get {b : Bool} {s0 s : State} (hK : Keeps s0 s) : Keeps s0 (trySlotBoot b s).1 := by
  unfold Sys2Proof.Machine.trySlotBoot
  try dsimp only
  repeat' (first
    | with_reducible assumption
    | exact fun _ hx => hx
    | exact fun _ => rfl
    | with_reducible apply Keeps.writeOutcome
    | with_reducible apply Keeps.installFull
    | with_reducible apply Keeps.ite_
    | split
    | (refine Keeps.lit ?_ rfl rfl id id id id id; first | with_reducible assumption | with_reducible apply Keeps.writeOutcome | with_reducible apply Keeps.installFull | with_reducible apply Keeps.ite_ | split)
    | assumption
    | intro _
    | dsimp only)

theorem Keeps.trySlotBoot_eq {b : Bool} {s0 s tK : State} {aK : Bool} (eK : trySlotBoot b s = (tK, aK)) (hK : Keeps s0 s) : Keeps s0 tK := by
  have hR := Keeps.trySlotBoot_get (b := b) hK
  rw [eK] at hR
  exact hR

theorem Keeps.bootImage  {s0 s : State}  (hK : Keeps s0 s) : Keeps s0 (bootImage s) := by
  unfold Sys2Proof.Machine.bootImage
  repeat' (first
    | with_reducible assumption
    | exact fun _ hx => hx
    | exact fun _ => rfl
    | with_reducible apply Keeps.enterQuiet
    | with_reducible apply Keeps.ite_
    | with_reducible apply Keeps.trySlotBoot_get
    | refine Keeps.trySlotBoot_eq (by with_reducible assumption) ?_
    | split
    | (refine Keeps.lit ?_ rfl rfl id id id id id; first | with_reducible assumption | with_reducible apply Keeps.enterQuiet | with_reducible apply Keeps.ite_ | with_reducible apply Keeps.trySlotBoot_get | refine Keeps.trySlotBoot_eq (by with_reducible assumption) ?_ | split)
    | assumption
    | intro _
    | dsimp only)

theorem Keeps.saveTrims {ok : Bool} {s0 s : State}  (hK : Keeps s0 s) : Keeps s0 (saveTrims ok s) := by
  unfold Sys2Proof.Machine.saveTrims
  repeat' (first
    | with_reducible assumption
    | exact fun _ hx => hx
    | exact fun _ => rfl
    | with_reducible refine Keeps.whenS (fun _ _ => ?_) ?_
    | with_reducible apply Keeps.updImg
    | with_reducible apply Keeps.ite_
    | split
    | (refine Keeps.lit ?_ rfl rfl id id id id id; first | with_reducible assumption | with_reducible refine Keeps.whenS (fun _ _ => ?_) ?_ | with_reducible apply Keeps.updImg | with_reducible apply Keeps.ite_ | split)
    | assumption
    | intro _
    | dsimp only)

theorem Keeps.coldRest {e : StartEnv} {s0 s : State}  (hK : Keeps s0 s) : Keeps s0 (coldRest e s) := by
  unfold Sys2Proof.Machine.coldRest
  repeat' (first
    | with_reducible assumption
    | exact fun _ hx => hx
    | exact fun _ => rfl
    | with_reducible apply Keeps.bootImage
    | with_reducible apply Keeps.saveTrims
    | with_reducible apply Keeps.stepCxl
    | with_reducible apply Keeps.ite_
    | split
    | (refine Keeps.lit ?_ rfl rfl id id id id id; first | with_reducible assumption | with_reducible apply Keeps.bootImage | with_reducible apply Keeps.saveTrims | with_reducible apply Keeps.stepCxl | with_reducible apply Keeps.ite_ | split)
    | assumption
    | intro _
    | dsimp only)

theorem Keeps.coldStart {e : StartEnv} {s0 s : State}  (hK : Keeps s0 s) : Keeps s0 (coldStart e s) := by
  unfold Sys2Proof.Machine.coldStart
  repeat' (first
    | with_reducible assumption
    | exact fun _ hx => hx
    | exact fun _ => rfl
    | with_reducible apply Keeps.unpowered
    | with_reducible apply Keeps.updMem
    | with_reducible apply Keeps.updFlt
    | with_reducible apply Keeps.updPwr
    | with_reducible apply Keeps.updImg
    | with_reducible apply Keeps.noFirmware
    | with_reducible apply Keeps.stepState
    | with_reducible apply Keeps.stepCert
    | with_reducible apply Keeps.stepPuf
    | with_reducible apply Keeps.discardTests
    | with_reducible refine Keeps.whenS (fun _ _ => ?_) ?_
    | with_reducible apply Keeps.measure5
    | with_reducible apply Keeps.coldRest
    | with_reducible apply Keeps.stepSelfTest
    | with_reducible apply Keeps.ite_
    | refine Keeps.stepFirmware ?_ _ (by with_reducible assumption)
    | split
    | (refine Keeps.lit ?_ rfl rfl id id id id id; first | with_reducible assumption | with_reducible apply Keeps.unpowered | with_reducible apply Keeps.updMem | with_reducible apply Keeps.updFlt | with_reducible apply Keeps.updPwr | with_reducible apply Keeps.updImg | with_reducible apply Keeps.noFirmware | with_reducible apply Keeps.stepState | with_reducible apply Keeps.stepCert | with_reducible apply Keeps.stepPuf | with_reducible apply Keeps.discardTests | with_reducible refine Keeps.whenS (fun _ _ => ?_) ?_ | with_reducible apply Keeps.measure5 | with_reducible apply Keeps.coldRest | with_reducible apply Keeps.stepSelfTest | with_reducible apply Keeps.ite_ | refine Keeps.stepFirmware ?_ _ (by with_reducible assumption) | split)
    | assumption
    | intro _
    | dsimp only)

theorem Keeps.warmBase {s0 s : State} (hK : Keeps s0 s) : Keeps s0 (warmBase s) := by
  unfold Sys2Proof.Machine.warmBase
  extract_lets a1 a2 a3 a4 a5 a6 a7 a8
  have h1 : Keeps s0 a1 := Keeps.forAll (fun _ _ h => Keeps.resetAbort h) hK
  clear_value a1
  have h2 : Keeps s0 a2 := Keeps.updTick h1
  clear_value a2
  have h3 : Keeps s0 a3 := Keeps.updOwn h2 (fun o ho k => by simpa using emptyStore_wf)
  clear_value a3
  have h4 : Keeps s0 a4 := Keeps.updImg h3
  clear_value a4
  have h5 : Keeps s0 a5 := Keeps.updSec h4 (fun _ => rfl) (fun _ h => h)
  clear_value a5
  have h6 : Keeps s0 a6 := Keeps.updFlt h5
  clear_value a6
  have h7 : Keeps s0 a7 := Keeps.updMem h6 (fun _ h => h)
  clear_value a7
  have h8 : Keeps s0 a8 := Keeps.setRun h7 (fun _ => ⟨nofun, nofun⟩)
  clear_value a8
  exact Keeps.same h8 rfl rfl id

theorem Keeps.lateCancels  {s0 s : State}  (hK : Keeps s0 s) : Keeps s0 (lateCancels s) := by
  unfold Sys2Proof.Machine.lateCancels
  repeat' (first
    | with_reducible assumption
    | exact fun _ hx => hx
    | exact fun _ => rfl
    | with_reducible refine Keeps.forAll (fun _ _ _ => ?_) ?_
    | with_reducible apply Keeps.cancelEvent
    | with_reducible apply Keeps.updFunc
    | with_reducible apply Keeps.ite_
    | split
    | (refine Keeps.lit ?_ rfl rfl id id id id id; first | with_reducible assumption | with_reducible refine Keeps.forAll (fun _ _ _ => ?_) ?_ | with_reducible apply Keeps.cancelEvent | with_reducible apply Keeps.updFunc | with_reducible apply Keeps.ite_ | split)
    | assumption
    | intro _
    | dsimp only)

theorem Keeps.warmPart {i : Image} {p : PartId} {s0 s : State}  (hK : Keeps s0 s) : Keeps s0 (warmPart i p s) := by
  unfold Sys2Proof.Machine.warmPart
  repeat' (first
    | with_reducible assumption
    | exact fun _ hx => hx
    | exact fun _ => rfl
    | with_reducible apply Keeps.unconfigure
    | with_reducible apply Keeps.beginLoading
    | with_reducible apply Keeps.ite_
    | split
    | (refine Keeps.lit ?_ rfl rfl id id id id id; first | with_reducible assumption | with_reducible apply Keeps.unconfigure | with_reducible apply Keeps.beginLoading | with_reducible apply Keeps.ite_ | split)
    | assumption
    | intro _
    | dsimp only)

theorem Keeps.warmImage  {s0 s : State}  (hK : Keeps s0 s) : Keeps s0 (warmImage s) := by
  unfold Sys2Proof.Machine.warmImage
  repeat' (first
    | with_reducible assumption
    | exact fun _ hx => hx
    | exact fun _ => rfl
    | with_reducible apply Keeps.enterQuiet
    | with_reducible apply Keeps.writeOutcome
    | with_reducible apply Keeps.applyDevice
    | with_reducible apply Keeps.extendM
    | with_reducible refine Keeps.forAll (fun _ _ _ => ?_) ?_
    | with_reducible apply Keeps.warmPart
    | with_reducible apply Keeps.leaveQuiet
    | with_reducible apply Keeps.lateCancels
    | with_reducible apply Keeps.ite_
    | split
    | (refine Keeps.lit ?_ rfl rfl id id id id id; first | with_reducible assumption | with_reducible apply Keeps.enterQuiet | with_reducible apply Keeps.writeOutcome | with_reducible apply Keeps.applyDevice | with_reducible apply Keeps.extendM | with_reducible refine Keeps.forAll (fun _ _ _ => ?_) ?_ | with_reducible apply Keeps.warmPart | with_reducible apply Keeps.leaveQuiet | with_reducible apply Keeps.lateCancels | with_reducible apply Keeps.ite_ | split)
    | assumption
    | intro _
    | dsimp only)

theorem Keeps.coldKeep {s0 s : State} (hK : Keeps s0 s) : Keeps s0 (coldKeep s) :=
  ⟨hK.pending, fun k => LegalModes.of_modes rfl (hK.modes k), fun k =>
    ⟨⟨emptyStore_wf, emptyStore_wf, (hK.stores k).1.2.2⟩, ⟨reset_storesOk.2.1.1, (hK.stores k).2.1.2⟩, reset_storesOk.2.2⟩⟩

theorem Keeps.coldFromWarm {e : StartEnv} {s0 s : State}  (hK : Keeps s0 s) : Keeps s0 (coldFromWarm e s) := by
  unfold Sys2Proof.Machine.coldFromWarm
  repeat' (first
    | with_reducible assumption
    | exact fun _ hx => hx
    | exact fun _ => rfl
    | with_reducible apply Keeps.updMem
    | with_reducible apply Keeps.coldKeep
    | with_reducible apply Keeps.coldRest
    | with_reducible apply Keeps.endDebug
    | with_reducible apply Keeps.discardTests
    | with_reducible apply Keeps.ite_
    | split
    | (refine Keeps.lit ?_ rfl rfl id id id id id; first | with_reducible assumption | with_reducible apply Keeps.updMem | with_reducible apply Keeps.coldKeep | with_reducible apply Keeps.coldRest | with_reducible apply Keeps.endDebug | with_reducible apply Keeps.discardTests | with_reducible apply Keeps.ite_ | split)
    | assumption
    | intro _
    | dsimp only)

theorem Keeps.warmStart {e : StartEnv} {s0 s : State}  (hK : Keeps s0 s) : Keeps s0 (warmStart e s) := by
  unfold Sys2Proof.Machine.warmStart
  repeat' (first
    | with_reducible assumption
    | exact fun _ hx => hx
    | exact fun _ => rfl
    | with_reducible apply Keeps.warmBase
    | with_reducible apply Keeps.noFirmware
    | with_reducible apply Keeps.enterQuiet
    | with_reducible apply Keeps.stepState
    | with_reducible apply Keeps.stepCert
    | with_reducible apply Keeps.stepPuf
    | with_reducible apply Keeps.stepSelfTest
    | with_reducible apply Keeps.warmImage
    | with_reducible apply Keeps.stepCxl
    | with_reducible apply Keeps.coldFromWarm
    | with_reducible apply Keeps.ite_
    | refine Keeps.stepFirmware ?_ _ (by with_reducible assumption)
    | split
    | (refine Keeps.lit ?_ rfl rfl id id id id id; first | with_reducible assumption | with_reducible apply Keeps.warmBase | with_reducible apply Keeps.noFirmware | with_reducible apply Keeps.enterQuiet | with_reducible apply Keeps.stepState | with_reducible apply Keeps.stepCert | with_reducible apply Keeps.stepPuf | with_reducible apply Keeps.stepSelfTest | with_reducible apply Keeps.warmImage | with_reducible apply Keeps.stepCxl | with_reducible apply Keeps.coldFromWarm | with_reducible apply Keeps.ite_ | refine Keeps.stepFirmware ?_ _ (by with_reducible assumption) | split)
    | assumption
    | intro _
    | dsimp only)

theorem Keeps.execColdStart {m : Option Master} {env : StartEnv} {s0 s tK : State} (eK : execColdStart m env s = .next tK) (hK : Keeps s0 s) : Keeps s0 tK := by
  unfold Sys2Proof.Machine.execColdStart at eK
  cases eK
  repeat' (first
    | with_reducible assumption
    | exact fun _ hx => hx
    | exact fun _ => rfl
    | with_reducible refine Keeps.ownerOnly (fun _ _ => ?_) ?_
    | with_reducible apply Keeps.coldStart
    | with_reducible apply Keeps.ite_
    | split
    | (refine Keeps.lit ?_ rfl rfl id id id id id; first | with_reducible assumption | with_reducible refine Keeps.ownerOnly (fun _ _ => ?_) ?_ | with_reducible apply Keeps.coldStart | with_reducible apply Keeps.ite_ | split)
    | assumption
    | intro _
    | dsimp only)

theorem Keeps.execWarmStart {m : Option Master} {env : StartEnv} {s0 s tK : State} (eK : execWarmStart m env s = .next tK) (hK : Keeps s0 s) : Keeps s0 tK := by
  unfold Sys2Proof.Machine.execWarmStart at eK
  cases eK
  repeat' (first
    | with_reducible assumption
    | exact fun _ hx => hx
    | exact fun _ => rfl
    | with_reducible refine Keeps.ownerOnly (fun _ _ => ?_) ?_
    | with_reducible apply Keeps.warmStart
    | with_reducible apply Keeps.ite_
    | split
    | (refine Keeps.lit ?_ rfl rfl id id id id id; first | with_reducible assumption | with_reducible refine Keeps.ownerOnly (fun _ _ => ?_) ?_ | with_reducible apply Keeps.warmStart | with_reducible apply Keeps.ite_ | split)
    | assumption
    | intro _
    | dsimp only)

theorem Keeps.haltAll  {s0 s : State}  (hK : Keeps s0 s) : Keeps s0 (haltAll s) := by
  unfold Sys2Proof.Machine.haltAll
  repeat' (first
    | with_reducible assumption
    | exact fun _ hx => hx
    | exact fun _ => rfl
    | with_reducible refine Keeps.forAll (fun _ _ _ => ?_) ?_
    | with_reducible apply Keeps.setPState
    | with_reducible apply Keeps.resetAbort
    | with_reducible apply Keeps.ite_
    | split
    | (refine Keeps.lit ?_ rfl rfl id id id id id; first | with_reducible assumption | with_reducible refine Keeps.forAll (fun _ _ _ => ?_) ?_ | with_reducible apply Keeps.setPState | with_reducible apply Keeps.resetAbort | with_reducible apply Keeps.ite_ | split)
    | assumption
    | intro _
    | dsimp only)

theorem Keeps.recover {kind block : Nat} {e : StartEnv} {s0 s : State}  (hK : Keeps s0 s) : Keeps s0 (recover kind block e s) := by
  unfold Sys2Proof.Machine.recover
  repeat' (first
    | with_reducible assumption
    | exact fun _ hx => hx
    | exact fun _ => rfl
    | with_reducible apply Keeps.deviceFault
    | with_reducible apply Keeps.haltAll
    | with_reducible apply Keeps.alarm
    | with_reducible apply Keeps.updFlt
    | with_reducible apply Keeps.warmStart
    | with_reducible apply Keeps.ite_
    | split
    | (refine Keeps.lit ?_ rfl rfl id id id id id; first | with_reducible assumption | with_reducible apply Keeps.deviceFault | with_reducible apply Keeps.haltAll | with_reducible apply Keeps.alarm | with_reducible apply Keeps.updFlt | with_reducible apply Keeps.warmStart | with_reducible apply Keeps.ite_ | split)
    | assumption
    | intro _
    | dsimp only)

theorem Keeps.execWatchdogExpiry {env : StartEnv} {s0 s tK : State} (eK : execWatchdogExpiry env s = .next tK) (hK : Keeps s0 s) : Keeps s0 tK := by
  unfold Sys2Proof.Machine.execWatchdogExpiry at eK
  cases eK
  repeat' (first
    | with_reducible assumption
    | exact fun _ hx => hx
    | exact fun _ => rfl
    | with_reducible apply Keeps.recover
    | with_reducible apply Keeps.ite_
    | split
    | (refine Keeps.lit ?_ rfl rfl id id id id id; first | with_reducible assumption | with_reducible apply Keeps.recover | with_reducible apply Keeps.ite_ | split)
    | assumption
    | intro _
    | dsimp only)

theorem Keeps.execHubError {block : Byte} {env : StartEnv} {s0 s tK : State} (eK : execHubError block env s = .next tK) (hK : Keeps s0 s) : Keeps s0 tK := by
  unfold Sys2Proof.Machine.execHubError at eK
  cases eK
  repeat' (first
    | with_reducible assumption
    | exact fun _ hx => hx
    | exact fun _ => rfl
    | with_reducible apply Keeps.recover
    | with_reducible apply Keeps.ite_
    | split
    | (refine Keeps.lit ?_ rfl rfl id id id id id; first | with_reducible assumption | with_reducible apply Keeps.recover | with_reducible apply Keeps.ite_ | split)
    | assumption
    | intro _
    | dsimp only)

end Sys2Proof.Machine
end

