-- ==== Sys2Proof/Laws/KeepsPower.lean ====
section
/-! SUPPORT. What the operations of Machine/Power.lean keep: the queue, the modes and the canonical stores. -/

set_option linter.unusedTactic false
set_option linter.unreachableTactic false

namespace Sys2Proof.Machine

theorem Keeps.reqReject  {s0 s : State}  (hK : Keeps s0 s) : Keeps s0 (reqReject s) := by
  unfold Sys2Proof.Machine.reqReject
  repeat' (first
    | with_reducible assumption
    | exact fun _ hx => hx
    | exact fun _ => rfl
    | with_reducible apply Keeps.updPwr
    | with_reducible apply Keeps.ite_
    | split
    | (refine Keeps.lit ?_ rfl rfl id id id id id; first | with_reducible assumption | with_reducible apply Keeps.updPwr | with_reducible apply Keeps.ite_ | split)
    | assumption
    | intro _
    | dsimp only)

theorem Keeps.enterP3 {s0 s : State} (hd : s.sec.d2 = none ∧ s.sec.d3 = false) (hK : Keeps s0 s) : Keeps s0 (enterP3 s) := by
  unfold Sys2Proof.Machine.enterP3
  refine Keeps.forAll (fun _ _ h => Keeps.updPort h) (Keeps.setPwr hK (fun k => ⟨k.1, nofun, fun _ => hd, k.2.2.2⟩))

theorem Keeps.standby {s0 s : State} (hK : Keeps s0 s) : Keeps s0 (standby s) := by
  unfold Sys2Proof.Machine.standby
  split
  · exact hK
  · split
    · rename_i h
      simp only [Bool.and_eq_true, Bool.not_eq_true', Option.isNone_iff_eq_none] at h
      exact Keeps.enterP3 ⟨h.1.2, h.2⟩ hK
    · exact Keeps.reqReject hK

theorem Keeps.execReqStandby {m : Master} {s0 s tK : State} (eK : execReqStandby m s = .next tK) (hK : Keeps s0 s) : Keeps s0 tK := by
  unfold Sys2Proof.Machine.execReqStandby at eK
  cases eK
  repeat' (first
    | with_reducible assumption
    | exact fun _ hx => hx
    | exact fun _ => rfl
    | with_reducible refine Keeps.ownerOnly (fun _ _ => ?_) ?_
    | with_reducible apply Keeps.standby
    | with_reducible apply Keeps.ite_
    | split
    | (refine Keeps.lit ?_ rfl rfl id id id id id; first | with_reducible assumption | with_reducible refine Keeps.ownerOnly (fun _ _ => ?_) ?_ | with_reducible apply Keeps.standby | with_reducible apply Keeps.ite_ | split)
    | assumption
    | intro _
    | dsimp only)

theorem Keeps.requestOff  {s0 s : State}  (hK : Keeps s0 s) : Keeps s0 (requestOff s) := by
  unfold Sys2Proof.Machine.requestOff
  repeat' (first
    | with_reducible assumption
    | exact fun _ hx => hx
    | exact fun _ => rfl
    | with_reducible apply Keeps.updPwr
    | with_reducible apply Keeps.powerOff
    | with_reducible apply Keeps.reqReject
    | with_reducible apply Keeps.ite_
    | split
    | (refine Keeps.lit ?_ rfl rfl id id id id id; first | with_reducible assumption | with_reducible apply Keeps.updPwr | with_reducible apply Keeps.powerOff | with_reducible apply Keeps.reqReject | with_reducible apply Keeps.ite_ | split)
    | assumption
    | intro _
    | dsimp only)

theorem Keeps.execReqOff {m : Master} {s0 s tK : State} (eK : execReqOff m s = .next tK) (hK : Keeps s0 s) : Keeps s0 tK := by
  unfold Sys2Proof.Machine.execReqOff at eK
  cases eK
  repeat' (first
    | with_reducible assumption
    | exact fun _ hx => hx
    | exact fun _ => rfl
    | with_reducible refine Keeps.ownerOnly (fun _ _ => ?_) ?_
    | with_reducible apply Keeps.requestOff
    | with_reducible apply Keeps.ite_
    | split
    | (refine Keeps.lit ?_ rfl rfl id id id id id; first | with_reducible assumption | with_reducible refine Keeps.ownerOnly (fun _ _ => ?_) ?_ | with_reducible apply Keeps.requestOff | with_reducible apply Keeps.ite_ | split)
    | assumption
    | intro _
    | dsimp only)

theorem Keeps.wake {env : StartEnv} {s0 s : State}  (hK : Keeps s0 s) : Keeps s0 (wake env s) := by
  unfold Sys2Proof.Machine.wake
  repeat' (first
    | with_reducible assumption
    | exact fun _ hx => hx
    | exact fun _ => rfl
    | with_reducible apply Keeps.warmStart
    | with_reducible apply Keeps.ite_
    | split
    | (refine Keeps.lit ?_ rfl rfl id id id id id; first | with_reducible assumption | with_reducible apply Keeps.warmStart | with_reducible apply Keeps.ite_ | split)
    | assumption
    | intro _
    | dsimp only)

theorem Keeps.execReqWake {m : Master} {env : StartEnv} {s0 s tK : State} (eK : execReqWake m env s = .next tK) (hK : Keeps s0 s) : Keeps s0 tK := by
  unfold Sys2Proof.Machine.execReqWake at eK
  cases eK
  repeat' (first
    | with_reducible assumption
    | exact fun _ hx => hx
    | exact fun _ => rfl
    | with_reducible refine Keeps.ownerOnly (fun _ _ => ?_) ?_
    | with_reducible apply Keeps.wake
    | with_reducible apply Keeps.ite_
    | split
    | (refine Keeps.lit ?_ rfl rfl id id id id id; first | with_reducible assumption | with_reducible refine Keeps.ownerOnly (fun _ _ => ?_) ?_ | with_reducible apply Keeps.wake | with_reducible apply Keeps.ite_ | split)
    | assumption
    | intro _
    | dsimp only)

theorem Keeps.execPwrEnAssert {ms : Nat} {env : StartEnv} {s0 s tK : State} (eK : execPwrEnAssert ms env s = .next tK) (hK : Keeps s0 s) : Keeps s0 tK := by
  unfold Sys2Proof.Machine.execPwrEnAssert at eK
  cases eK
  repeat' (first
    | with_reducible assumption
    | exact fun _ hx => hx
    | exact fun _ => rfl
    | with_reducible apply Keeps.updPwr
    | with_reducible apply Keeps.coldStart
    | with_reducible apply Keeps.ite_
    | split
    | (refine Keeps.lit ?_ rfl rfl id id id id id; first | with_reducible assumption | with_reducible apply Keeps.updPwr | with_reducible apply Keeps.coldStart | with_reducible apply Keeps.ite_ | split)
    | assumption
    | intro _
    | dsimp only)

theorem Keeps.execPwrEnDeassert {ms : Nat} {s0 s tK : State} (eK : execPwrEnDeassert ms s = .next tK) (hK : Keeps s0 s) : Keeps s0 tK := by
  unfold Sys2Proof.Machine.execPwrEnDeassert at eK
  cases eK
  repeat' (first
    | with_reducible assumption
    | exact fun _ hx => hx
    | exact fun _ => rfl
    | with_reducible apply Keeps.powerOff
    | with_reducible apply Keeps.updPwr
    | with_reducible apply Keeps.ite_
    | split
    | (refine Keeps.lit ?_ rfl rfl id id id id id; first | with_reducible assumption | with_reducible apply Keeps.powerOff | with_reducible apply Keeps.updPwr | with_reducible apply Keeps.ite_ | split)
    | assumption
    | intro _
    | dsimp only)

theorem Keeps.resetFunc {f : FuncId} {s0 s : State}  (hK : Keeps s0 s) : Keeps s0 (resetFunc f s) := by
  unfold Sys2Proof.Machine.resetFunc
  repeat' (first
    | with_reducible assumption
    | exact fun _ hx => hx
    | exact fun _ => rfl
    | with_reducible apply Keeps.updFunc
    | with_reducible apply Keeps.ite_
    | split
    | (refine Keeps.lit ?_ rfl rfl id id id id id; first | with_reducible assumption | with_reducible apply Keeps.updFunc | with_reducible apply Keeps.ite_ | split)
    | assumption
    | intro _
    | dsimp only)

theorem Keeps.flr {f : FuncId} {s0 s : State}  (hK : Keeps s0 s) : Keeps s0 (flr f s) := by
  unfold Sys2Proof.Machine.flr
  repeat' (first
    | with_reducible assumption
    | exact fun _ hx => hx
    | exact fun _ => rfl
    | with_reducible apply Keeps.updPwr
    | with_reducible refine Keeps.forAll (fun _ _ _ => ?_) ?_
    | with_reducible apply Keeps.resetFunc
    | with_reducible apply Keeps.ite_
    | split
    | (refine Keeps.lit ?_ rfl rfl id id id id id; first | with_reducible assumption | with_reducible apply Keeps.updPwr | with_reducible refine Keeps.forAll (fun _ _ _ => ?_) ?_ | with_reducible apply Keeps.resetFunc | with_reducible apply Keeps.ite_ | split)
    | assumption
    | intro _
    | dsimp only)

theorem Keeps.execFunctionLevelReset {f : FuncId} {s0 s tK : State} (eK : execFunctionLevelReset f s = .next tK) (hK : Keeps s0 s) : Keeps s0 tK := by
  unfold Sys2Proof.Machine.execFunctionLevelReset at eK
  cases eK
  repeat' (first
    | with_reducible assumption
    | exact fun _ hx => hx
    | exact fun _ => rfl
    | with_reducible apply Keeps.flr
    | with_reducible apply Keeps.ite_
    | split
    | (refine Keeps.lit ?_ rfl rfl id id id id id; first | with_reducible assumption | with_reducible apply Keeps.flr | with_reducible apply Keeps.ite_ | split)
    | assumption
    | intro _
    | dsimp only)

theorem Keeps.execPerstAssert  {s0 s tK : State} (eK : execPerstAssert s = .next tK) (hK : Keeps s0 s) : Keeps s0 tK := by
  unfold Sys2Proof.Machine.execPerstAssert at eK
  cases eK
  repeat' (first
    | with_reducible assumption
    | exact fun _ hx => hx
    | exact fun _ => rfl
    | with_reducible apply Keeps.updPwr
    | with_reducible apply Keeps.flr
    | with_reducible apply Keeps.ite_
    | split
    | (refine Keeps.lit ?_ rfl rfl id id id id id; first | with_reducible assumption | with_reducible apply Keeps.updPwr | with_reducible apply Keeps.flr | with_reducible apply Keeps.ite_ | split)
    | assumption
    | intro _
    | dsimp only)

theorem Keeps.execPerstDeassert {refclk : Bool} {s0 s tK : State} (eK : execPerstDeassert refclk s = .next tK) (hK : Keeps s0 s) : Keeps s0 tK := by
  unfold Sys2Proof.Machine.execPerstDeassert at eK
  cases eK
  repeat' (first
    | with_reducible assumption
    | exact fun _ hx => hx
    | exact fun _ => rfl
    | with_reducible apply Keeps.updPwr
    | with_reducible apply Keeps.ite_
    | split
    | (refine Keeps.lit ?_ rfl rfl id id id id id; first | with_reducible assumption | with_reducible apply Keeps.updPwr | with_reducible apply Keeps.ite_ | split)
    | assumption
    | intro _
    | dsimp only)

theorem Keeps.execInputInRange {brdId : BitVec 4} {env : StartEnv} {s0 s tK : State} (eK : execInputInRange brdId env s = .next tK) (hK : Keeps s0 s) : Keeps s0 tK := by
  unfold Sys2Proof.Machine.execInputInRange at eK
  cases eK
  repeat' (first
    | with_reducible assumption
    | exact fun _ hx => hx
    | exact fun _ => rfl
    | with_reducible apply Keeps.updImg
    | with_reducible apply Keeps.updPwr
    | with_reducible apply Keeps.coldStart
    | with_reducible apply Keeps.ite_
    | split
    | (refine Keeps.lit ?_ rfl rfl id id id id id; first | with_reducible assumption | with_reducible apply Keeps.updImg | with_reducible apply Keeps.updPwr | with_reducible apply Keeps.coldStart | with_reducible apply Keeps.ite_ | split)
    | assumption
    | intro _
    | dsimp only)

theorem Keeps.execInputLoss  {s0 s tK : State} (eK : execInputLoss s = .next tK) (hK : Keeps s0 s) : Keeps s0 tK := by
  unfold Sys2Proof.Machine.execInputLoss at eK
  cases eK
  repeat' (first
    | with_reducible assumption
    | exact fun _ hx => hx
    | exact fun _ => rfl
    | with_reducible apply Keeps.updPwr
    | with_reducible apply Keeps.updImg
    | with_reducible apply Keeps.updFlt
    | with_reducible apply Keeps.powerOff
    | with_reducible apply Keeps.ite_
    | split
    | (refine Keeps.lit ?_ rfl rfl id id id id id; first | with_reducible assumption | with_reducible apply Keeps.updPwr | with_reducible apply Keeps.updImg | with_reducible apply Keeps.updFlt | with_reducible apply Keeps.powerOff | with_reducible apply Keeps.ite_ | split)
    | assumption
    | intro _
    | dsimp only)

theorem Keeps.raise {c : Fin 16} {s0 s : State}  (hK : Keeps s0 s) : Keeps s0 (raise c s) := by
  unfold Sys2Proof.Machine.raise
  repeat' (first
    | with_reducible assumption
    | exact fun _ hx => hx
    | exact fun _ => rfl
    | with_reducible apply Keeps.alarm
    | with_reducible apply Keeps.alarmBit
    | with_reducible apply Keeps.ite_
    | split
    | (refine Keeps.lit ?_ rfl rfl id id id id id; first | with_reducible assumption | with_reducible apply Keeps.alarm | with_reducible apply Keeps.alarmBit | with_reducible apply Keeps.ite_ | split)
    | assumption
    | intro _
    | dsimp only)

theorem Keeps.execVoltageOutOfRange {out : Bool} {s0 s tK : State} (eK : execVoltageOutOfRange out s = .next tK) (hK : Keeps s0 s) : Keeps s0 tK := by
  unfold Sys2Proof.Machine.execVoltageOutOfRange at eK
  cases eK
  repeat' (first
    | with_reducible assumption
    | exact fun _ hx => hx
    | exact fun _ => rfl
    | with_reducible refine Keeps.whenS (fun _ _ => ?_) ?_
    | with_reducible apply Keeps.raise
    | with_reducible apply Keeps.updPwr
    | with_reducible apply Keeps.ite_
    | split
    | (refine Keeps.lit ?_ rfl rfl id id id id id; first | with_reducible assumption | with_reducible refine Keeps.whenS (fun _ _ => ?_) ?_ | with_reducible apply Keeps.raise | with_reducible apply Keeps.updPwr | with_reducible apply Keeps.ite_ | split)
    | assumption
    | intro _
    | dsimp only)

theorem Keeps.barEnergy  {s0 s : State}  (hK : Keeps s0 s) : Keeps s0 (barEnergy s) := by
  unfold Sys2Proof.Machine.barEnergy
  repeat' (first
    | with_reducible assumption
    | exact fun _ hx => hx
    | exact fun _ => rfl
    | with_reducible refine Keeps.forAll (fun _ _ _ => ?_) ?_
    | with_reducible apply Keeps.updPart
    | with_reducible apply Keeps.ite_
    | split
    | (refine Keeps.lit ?_ rfl rfl id id id id id; first | with_reducible assumption | with_reducible refine Keeps.forAll (fun _ _ _ => ?_) ?_ | with_reducible apply Keeps.updPart | with_reducible apply Keeps.ite_ | split)
    | assumption
    | intro _
    | dsimp only)

theorem Keeps.execThermalCritical {tempC : Int} {s0 s tK : State} (eK : execThermalCritical tempC s = .next tK) (hK : Keeps s0 s) : Keeps s0 tK := by
  unfold Sys2Proof.Machine.execThermalCritical at eK
  cases eK
  repeat' (first
    | with_reducible assumption
    | exact fun _ hx => hx
    | exact fun _ => rfl
    | with_reducible refine Keeps.whenS (fun _ _ => ?_) ?_
    | with_reducible apply Keeps.raise
    | with_reducible apply Keeps.barEnergy
    | with_reducible apply Keeps.updPwr
    | with_reducible apply Keeps.ite_
    | split
    | (refine Keeps.lit ?_ rfl rfl id id id id id; first | with_reducible assumption | with_reducible refine Keeps.whenS (fun _ _ => ?_) ?_ | with_reducible apply Keeps.raise | with_reducible apply Keeps.barEnergy | with_reducible apply Keeps.updPwr | with_reducible apply Keeps.ite_ | split)
    | assumption
    | intro _
    | dsimp only)

theorem thermalStep_state (t : Int) (w : Pwr) : (thermalStep t w).state = w.state := by
  unfold thermalStep
  dsimp only
  repeat' split
  all_goals rfl

theorem capStep_state (e period : Nat) (w : Pwr) : (capStep e period w).state = w.state := by
  unfold capStep
  dsimp only
  repeat' split
  all_goals rfl

theorem runState_legal (s : State) : (runState s = .p4 → s.pwr.state = .p4) ∧ (runState s = .p3 → s.pwr.state = .p3) := by
  unfold runState
  repeat' split
  all_goals simp_all

theorem Keeps.boundaryPower {env : BoundaryEnv} {s0 s : State} (hK : Keeps s0 s) : Keeps s0 (boundaryPower env s) := by
  unfold Sys2Proof.Machine.boundaryPower
  extract_lets old w s1 s2 s3 s4
  have h1 : Keeps s0 s1 := Keeps.setPwr hK (fun k => by
    have e : (Machine.updPwr (fun _ => { w with throtPrev := w.throt }) s).modes = s.modes := by
      simp [State.modes, w, old, capStep_state, thermalStep_state]
    exact LegalModes.of_modes e k)
  have h3 : Keeps s0 s3 := Keeps.whenS (fun _ h => Keeps.raise h) (Keeps.whenS (fun _ h => Keeps.raise h) h1)
  clear_value s3
  have h4 : Keeps s0 s4 := Keeps.updPwr h3 (fun _ => rfl)
  clear_value s4
  exact Keeps.setPwr h4 (fun k => ⟨k.1, fun e => k.2.1 ((runState_legal s4).1 e), fun e => k.2.2.1 ((runState_legal s4).2 e), k.2.2.2⟩)

theorem Keeps.leaveP2 {s0 s : State} (hK : Keeps s0 s) : Keeps s0 (leaveP2 s) := by
  unfold Sys2Proof.Machine.leaveP2
  split
  · exact Keeps.setRun hK (fun _ => by dsimp only; split <;> exact ⟨nofun, nofun⟩)
  · exact hK

end Sys2Proof.Machine
end

