-- ==== Sys2Proof/Laws/KeepsBoundary.lean ====
section
/-! SUPPORT. What the operations of Machine/Boundary.lean keep: the queue, the modes and the canonical stores. -/

set_option linter.unusedTactic false
set_option linter.unreachableTactic false

namespace Sys2Proof.Machine

theorem Keeps.after {f : State → Res} {s0 s : State} (hf : ∀ u t, f u = .next t → Keeps s0 u → Keeps s0 t) (hK : Keeps s0 s) : Keeps s0 (after f s) := by
  unfold Sys2Proof.Machine.after
  split
  · exact hf _ _ (by assumption) hK
  · exact hK

theorem Keeps.boundaryTime  {s0 s : State}  (hK : Keeps s0 s) : Keeps s0 (boundaryTime s) := by
  unfold Sys2Proof.Machine.boundaryTime
  repeat' (first
    | with_reducible assumption
    | exact fun _ hx => hx
    | exact fun _ => rfl
    | with_reducible apply Keeps.updTick
    | with_reducible apply Keeps.tickPulse
    | with_reducible apply Keeps.setTime
    | with_reducible apply Keeps.ite_
    | split
    | (refine Keeps.lit ?_ rfl rfl id id id id id; first | with_reducible assumption | with_reducible apply Keeps.updTick | with_reducible apply Keeps.tickPulse | with_reducible apply Keeps.setTime | with_reducible apply Keeps.ite_ | split)
    | assumption
    | intro _
    | dsimp only)

theorem Keeps.boundaryService  {s0 s : State}  (hK : Keeps s0 s) : Keeps s0 (boundaryService s) := by
  unfold Sys2Proof.Machine.boundaryService
  repeat' (first
    | with_reducible assumption
    | exact fun _ hx => hx
    | exact fun _ => rfl
    | with_reducible apply Keeps.qpTick
    | with_reducible apply Keeps.updFlt
    | with_reducible apply Keeps.ite_
    | split
    | (refine Keeps.lit ?_ rfl rfl id id id id id; first | with_reducible assumption | with_reducible apply Keeps.qpTick | with_reducible apply Keeps.updFlt | with_reducible apply Keeps.ite_ | split)
    | assumption
    | intro _
    | dsimp only)

theorem Keeps.boundaryParts  {s0 s : State}  (hK : Keeps s0 s) : Keeps s0 (boundaryParts s) := by
  unfold Sys2Proof.Machine.boundaryParts
  repeat' (first
    | with_reducible assumption
    | exact fun _ hx => hx
    | exact fun _ => rfl
    | with_reducible refine Keeps.forAll (fun _ _ _ => ?_) ?_
    | with_reducible apply Keeps.endLoading
    | with_reducible apply Keeps.setPState
    | with_reducible apply Keeps.ite_
    | split
    | (refine Keeps.lit ?_ rfl rfl id id id id id; first | with_reducible assumption | with_reducible refine Keeps.forAll (fun _ _ _ => ?_) ?_ | with_reducible apply Keeps.endLoading | with_reducible apply Keeps.setPState | with_reducible apply Keeps.ite_ | split)
    | assumption
    | intro _
    | dsimp only)

theorem Keeps.boundaryBudgets  {s0 s : State}  (hK : Keeps s0 s) : Keeps s0 (boundaryBudgets s) := by
  unfold Sys2Proof.Machine.boundaryBudgets
  repeat' (first
    | with_reducible assumption
    | exact fun _ hx => hx
    | exact fun _ => rfl
    | with_reducible apply Keeps.updTick
    | with_reducible refine Keeps.forAll (fun _ _ _ => ?_) ?_
    | with_reducible apply Keeps.updPart
    | with_reducible apply Keeps.ite_
    | split
    | (refine Keeps.lit ?_ rfl rfl id id id id id; first | with_reducible assumption | with_reducible apply Keeps.updTick | with_reducible refine Keeps.forAll (fun _ _ _ => ?_) ?_ | with_reducible apply Keeps.updPart | with_reducible apply Keeps.ite_ | split)
    | assumption
    | intro _
    | dsimp only)

theorem Keeps.agePart {p : PartId} {s0 s : State}  (hK : Keeps s0 s) : Keeps s0 (agePart p s) := by
  unfold Sys2Proof.Machine.agePart
  repeat' (first
    | with_reducible assumption
    | exact fun _ hx => hx
    | exact fun _ => rfl
    | with_reducible apply Keeps.updPart
    | with_reducible apply Keeps.flushEdits
    | with_reducible apply Keeps.releaseLost
    | with_reducible apply Keeps.ite_
    | split
    | (refine Keeps.lit ?_ rfl rfl id id id id id; first | with_reducible assumption | with_reducible apply Keeps.updPart | with_reducible apply Keeps.flushEdits | with_reducible apply Keeps.releaseLost | with_reducible apply Keeps.ite_ | split)
    | assumption
    | intro _
    | dsimp only)

theorem Keeps.reportStates {p : PartId} {s0 s : State}  (hK : Keeps s0 s) : Keeps s0 (reportStates p s) := by
  unfold Sys2Proof.Machine.reportStates
  repeat' (first
    | with_reducible assumption
    | exact fun _ hx => hx
    | exact fun _ => rfl
    | with_reducible apply Keeps.sendM
    | with_reducible refine Keeps.forAll (fun _ _ _ => ?_) ?_
    | with_reducible apply Keeps.detect
    | with_reducible apply Keeps.ite_
    | split
    | (refine Keeps.lit ?_ rfl rfl id id id id id; first | with_reducible assumption | with_reducible apply Keeps.sendM | with_reducible refine Keeps.forAll (fun _ _ _ => ?_) ?_ | with_reducible apply Keeps.detect | with_reducible apply Keeps.ite_ | split)
    | assumption
    | intro _
    | dsimp only)

theorem Keeps.ageTraces  {s0 s : State}  (hK : Keeps s0 s) : Keeps s0 (ageTraces s) := by
  unfold Sys2Proof.Machine.ageTraces
  repeat' (first
    | with_reducible assumption
    | exact fun _ hx => hx
    | exact fun _ => rfl
    | with_reducible apply Keeps.updFlt
    | with_reducible apply Keeps.ite_
    | split
    | (refine Keeps.lit ?_ rfl rfl id id id id id; first | with_reducible assumption | with_reducible apply Keeps.updFlt | with_reducible apply Keeps.ite_ | split)
    | assumption
    | intro _
    | dsimp only)

theorem Keeps.lossSummary  {s0 s : State}  (hK : Keeps s0 s) : Keeps s0 (lossSummary s) := by
  unfold Sys2Proof.Machine.lossSummary
  repeat' (first
    | with_reducible assumption
    | exact fun _ hx => hx
    | exact fun _ => rfl
    | with_reducible apply Keeps.updFlt
    | with_reducible apply Keeps.countDrop
    | with_reducible apply Keeps.ite_
    | split
    | (refine Keeps.lit ?_ rfl rfl id id id id id; first | with_reducible assumption | with_reducible apply Keeps.updFlt | with_reducible apply Keeps.countDrop | with_reducible apply Keeps.ite_ | split)
    | assumption
    | intro _
    | dsimp only)

theorem Keeps.execLossSummary  {s0 s tK : State} (eK : execLossSummary s = .next tK) (hK : Keeps s0 s) : Keeps s0 tK := by
  unfold Sys2Proof.Machine.execLossSummary at eK
  cases eK
  repeat' (first
    | with_reducible assumption
    | exact fun _ hx => hx
    | exact fun _ => rfl
    | with_reducible apply Keeps.lossSummary
    | with_reducible apply Keeps.ite_
    | split
    | (refine Keeps.lit ?_ rfl rfl id id id id id; first | with_reducible assumption | with_reducible apply Keeps.lossSummary | with_reducible apply Keeps.ite_ | split)
    | assumption
    | intro _
    | dsimp only)

theorem Keeps.drainLog  {s0 s : State}  (hK : Keeps s0 s) : Keeps s0 (drainLog s) := by
  unfold Sys2Proof.Machine.drainLog
  repeat' (first
    | with_reducible assumption
    | exact fun _ hx => hx
    | exact fun _ => rfl
    | with_reducible apply Keeps.chargeD
    | with_reducible apply Keeps.updFlt
    | with_reducible apply Keeps.ite_
    | split
    | (refine Keeps.lit ?_ rfl rfl id id id id id; first | with_reducible assumption | with_reducible apply Keeps.chargeD | with_reducible apply Keeps.updFlt | with_reducible apply Keeps.ite_ | split)
    | assumption
    | intro _
    | dsimp only)

theorem Keeps.boundaryLog  {s0 s : State}  (hK : Keeps s0 s) : Keeps s0 (boundaryLog s) := by
  unfold Sys2Proof.Machine.boundaryLog
  repeat' (first
    | with_reducible assumption
    | exact fun _ hx => hx
    | exact fun _ => rfl
    | with_reducible refine Keeps.forAll (fun _ _ _ => ?_) ?_
    | with_reducible refine Keeps.after (fun _ _ e h => by first | exact Keeps.execSuspectExpiry e h | exact Keeps.execSuspectForward e h) ?_
    | with_reducible apply Keeps.lossSummary
    | with_reducible apply Keeps.ageTraces
    | with_reducible apply Keeps.drainLog
    | with_reducible apply Keeps.ite_
    | refine Keeps.execSuspectExpiry rfl ?_
    | refine Keeps.execSuspectForward rfl ?_
    | split
    | (refine Keeps.lit ?_ rfl rfl id id id id id; first | with_reducible assumption | with_reducible refine Keeps.forAll (fun _ _ _ => ?_) ?_ | with_reducible refine Keeps.after (fun _ _ e h => by first | exact Keeps.execSuspectExpiry e h | exact Keeps.execSuspectForward e h) ?_ | with_reducible apply Keeps.lossSummary | with_reducible apply Keeps.ageTraces | with_reducible apply Keeps.drainLog | with_reducible apply Keeps.ite_ | refine Keeps.execSuspectExpiry rfl ?_ | refine Keeps.execSuspectForward rfl ?_ | split)
    | assumption
    | intro _
    | dsimp only)

theorem Keeps.boundaryAdmission  {s0 s : State}  (hK : Keeps s0 s) : Keeps s0 (boundaryAdmission s) := by
  unfold Sys2Proof.Machine.boundaryAdmission
  repeat' (first
    | with_reducible assumption
    | exact fun _ hx => hx
    | exact fun _ => rfl
    | with_reducible apply Keeps.leaveP2
    | with_reducible refine Keeps.forAll (fun _ _ _ => ?_) ?_
    | with_reducible refine Keeps.after (fun _ _ e h => by first | exact Keeps.execAdmission e h) ?_
    | with_reducible apply Keeps.ite_
    | refine Keeps.execAdmission rfl ?_
    | split
    | (refine Keeps.lit ?_ rfl rfl id id id id id; first | with_reducible assumption | with_reducible apply Keeps.leaveP2 | with_reducible refine Keeps.forAll (fun _ _ _ => ?_) ?_ | with_reducible refine Keeps.after (fun _ _ e h => by first | exact Keeps.execAdmission e h) ?_ | with_reducible apply Keeps.ite_ | refine Keeps.execAdmission rfl ?_ | split)
    | assumption
    | intro _
    | dsimp only)

theorem Keeps.boundary {env : BoundaryEnv} {s0 s : State}  (hK : Keeps s0 s) : Keeps s0 (boundary env s) := by
  unfold Sys2Proof.Machine.boundary
  repeat' (first
    | with_reducible assumption
    | exact fun _ hx => hx
    | exact fun _ => rfl
    | with_reducible apply Keeps.sweepAll
    | with_reducible refine Keeps.forAll (fun _ _ _ => ?_) ?_
    | with_reducible apply Keeps.agePart
    | with_reducible apply Keeps.boundaryTime
    | with_reducible apply Keeps.boundaryService
    | with_reducible apply Keeps.boundaryPower
    | with_reducible apply Keeps.boundarySecurity
    | with_reducible apply Keeps.boundaryOwn
    | with_reducible apply Keeps.boundaryBudgets
    | with_reducible apply Keeps.boundaryParts
    | with_reducible apply Keeps.boundaryLog
    | with_reducible refine Keeps.whenS (fun _ _ => ?_) ?_
    | with_reducible apply Keeps.reportStates
    | with_reducible apply Keeps.boundaryAdmission
    | with_reducible apply Keeps.ite_
    | split
    | (refine Keeps.lit ?_ rfl rfl id id id id id; first | with_reducible assumption | with_reducible apply Keeps.sweepAll | with_reducible refine Keeps.forAll (fun _ _ _ => ?_) ?_ | with_reducible apply Keeps.agePart | with_reducible apply Keeps.boundaryTime | with_reducible apply Keeps.boundaryService | with_reducible apply Keeps.boundaryPower | with_reducible apply Keeps.boundarySecurity | with_reducible apply Keeps.boundaryOwn | with_reducible apply Keeps.boundaryBudgets | with_reducible apply Keeps.boundaryParts | with_reducible apply Keeps.boundaryLog | with_reducible refine Keeps.whenS (fun _ _ => ?_) ?_ | with_reducible apply Keeps.reportStates | with_reducible apply Keeps.boundaryAdmission | with_reducible apply Keeps.ite_ | split)
    | assumption
    | intro _
    | dsimp only)

theorem Keeps.execTickBoundary {env : BoundaryEnv} {s0 s tK : State} (eK : execTickBoundary env s = .next tK) (hK : Keeps s0 s) : Keeps s0 tK := by
  unfold Sys2Proof.Machine.execTickBoundary at eK
  cases eK
  repeat' (first
    | with_reducible assumption
    | exact fun _ hx => hx
    | exact fun _ => rfl
    | with_reducible apply Keeps.boundary
    | with_reducible apply Keeps.ite_
    | split
    | (refine Keeps.lit ?_ rfl rfl id id id id id; first | with_reducible assumption | with_reducible apply Keeps.boundary | with_reducible apply Keeps.ite_ | split)
    | assumption
    | intro _
    | dsimp only)

end Sys2Proof.Machine
end

