-- ==== Sys2Proof/Laws/KeepsRegWrite.lean ====
section
/-! SUPPORT. What the operations of Machine/RegWrite.lean keep: the queue, the modes and the canonical stores. -/

set_option linter.unusedTactic false
set_option linter.unreachableTactic false

namespace Sys2Proof.Machine

theorem Keeps.spend  {s0 s : State}  (hK : Keeps s0 s) : Keeps s0 (spend s) := by
  unfold Sys2Proof.Machine.spend
  repeat' (first
    | with_reducible assumption
    | exact fun _ hx => hx
    | exact fun _ => rfl
    | with_reducible apply Keeps.ite_
    | split
    | (refine Keeps.lit ?_ rfl rfl id id id id id; first | with_reducible assumption | with_reducible apply Keeps.ite_ | split)
    | assumption
    | intro _
    | dsimp only)

theorem Keeps.writeOwn {w : BusWrite} {s0 s : State}  (hK : Keeps s0 s) : Keeps s0 (writeOwn w s) := by
  unfold Sys2Proof.Machine.writeOwn
  repeat' (first
    | with_reducible assumption
    | exact fun x hx k => by
        dsimp only
        rw [Fin.getElem_fin, Vector.getElem_set]
        split
        · exact wrBytes_wf _ _ _ (hx _)
        · exact hx k
    | exact fun _ hx => hx
    | exact fun _ => rfl
    | with_reducible apply Keeps.updOwn
    | with_reducible refine Keeps.after (fun _ _ e h => by first | exact Keeps.execOwnClaim e h | exact Keeps.execOwnRenew e h | exact Keeps.execOwnRelease e h) ?_
    | with_reducible apply Keeps.ite_
    | refine Keeps.execOwnClaim rfl ?_
    | refine Keeps.execOwnRenew rfl ?_
    | refine Keeps.execOwnRelease rfl ?_
    | split
    | (refine Keeps.lit ?_ rfl rfl id id id id id; first | with_reducible assumption | with_reducible apply Keeps.updOwn | with_reducible refine Keeps.after (fun _ _ e h => by first | exact Keeps.execOwnClaim e h | exact Keeps.execOwnRenew e h | exact Keeps.execOwnRelease e h) ?_ | with_reducible apply Keeps.ite_ | refine Keeps.execOwnClaim rfl ?_ | refine Keeps.execOwnRenew rfl ?_ | refine Keeps.execOwnRelease rfl ?_ | split)
    | assumption
    | intro _
    | dsimp only)

theorem Keeps.imgOp {m : Master} {v : Nat} {s0 s : State}  (hK : Keeps s0 s) : Keeps s0 (imgOp m v s) := by
  unfold Sys2Proof.Machine.imgOp
  repeat' (first
    | with_reducible assumption
    | exact fun _ hx => hx
    | exact fun _ => rfl
    | with_reducible refine Keeps.after (fun _ _ e h => by first | exact Keeps.execFullLoad e h | exact Keeps.execWriteSlotA e h | exact Keeps.execWriteSlotB e h | exact Keeps.execSetBootSlot e h | exact Keeps.execSavetrim e h | exact Keeps.execWriteGradeCertificate e h) ?_
    | with_reducible apply Keeps.spend
    | with_reducible refine Keeps.ownerOnly (fun _ _ => ?_) ?_
    | with_reducible apply Keeps.ite_
    | refine Keeps.execFullLoad rfl ?_
    | refine Keeps.execWriteSlotA rfl ?_
    | refine Keeps.execWriteSlotB rfl ?_
    | refine Keeps.execSetBootSlot rfl ?_
    | refine Keeps.execSavetrim rfl ?_
    | refine Keeps.execWriteGradeCertificate rfl ?_
    | split
    | (refine Keeps.lit ?_ rfl rfl id id id id id; first | with_reducible assumption | with_reducible refine Keeps.after (fun _ _ e h => by first | exact Keeps.execFullLoad e h | exact Keeps.execWriteSlotA e h | exact Keeps.execWriteSlotB e h | exact Keeps.execSetBootSlot e h | exact Keeps.execSavetrim e h | exact Keeps.execWriteGradeCertificate e h) ?_ | with_reducible apply Keeps.spend | with_reducible refine Keeps.ownerOnly (fun _ _ => ?_) ?_ | with_reducible apply Keeps.ite_ | refine Keeps.execFullLoad rfl ?_ | refine Keeps.execWriteSlotA rfl ?_ | refine Keeps.execWriteSlotB rfl ?_ | refine Keeps.execSetBootSlot rfl ?_ | refine Keeps.execSavetrim rfl ?_ | refine Keeps.execWriteGradeCertificate rfl ?_ | split)
    | assumption
    | intro _
    | dsimp only)

theorem Keeps.writeImg {w : BusWrite} {s0 s : State}  (hK : Keeps s0 s) : Keeps s0 (writeImg w s) := by
  unfold Sys2Proof.Machine.writeImg
  repeat' (first
    | with_reducible assumption
    | exact fun _ hx => hx
    | exact fun _ => rfl
    | with_reducible apply Keeps.imgOp
    | with_reducible refine Keeps.ownerOnly (fun _ _ => ?_) ?_
    | with_reducible apply Keeps.updImg
    | with_reducible refine Keeps.whenS (fun _ _ => ?_) ?_
    | with_reducible apply Keeps.ite_
    | split
    | (refine Keeps.lit ?_ rfl rfl id id id id id; first | with_reducible assumption | with_reducible apply Keeps.imgOp | with_reducible refine Keeps.ownerOnly (fun _ _ => ?_) ?_ | with_reducible apply Keeps.updImg | with_reducible refine Keeps.whenS (fun _ _ => ?_) ?_ | with_reducible apply Keeps.ite_ | split)
    | assumption
    | intro _
    | dsimp only)

theorem Keeps.writeTik {w : BusWrite} {s0 s : State}  (hK : Keeps s0 s) : Keeps s0 (writeTik w s) := by
  unfold Sys2Proof.Machine.writeTik
  repeat' (first
    | with_reducible assumption
    | exact fun _ hx => hx
    | exact fun _ => rfl
    | with_reducible refine Keeps.after (fun _ _ e h => by first | exact Keeps.execTikPeriod e h | exact Keeps.execTikNext e h) ?_
    | with_reducible refine Keeps.ownerOnly (fun _ _ => ?_) ?_
    | with_reducible apply Keeps.updTick
    | with_reducible apply Keeps.ite_
    | refine Keeps.execTikPeriod rfl ?_
    | refine Keeps.execTikNext rfl ?_
    | split
    | (refine Keeps.lit ?_ rfl rfl id id id id id; first | with_reducible assumption | with_reducible refine Keeps.after (fun _ _ e h => by first | exact Keeps.execTikPeriod e h | exact Keeps.execTikNext e h) ?_ | with_reducible refine Keeps.ownerOnly (fun _ _ => ?_) ?_ | with_reducible apply Keeps.updTick | with_reducible apply Keeps.ite_ | refine Keeps.execTikPeriod rfl ?_ | refine Keeps.execTikNext rfl ?_ | split)
    | assumption
    | intro _
    | dsimp only)

theorem Keeps.prtOp {m : Master} {p : PartId} {v : Nat} {s0 s : State}  (hK : Keeps s0 s) : Keeps s0 (prtOp m p v s) := by
  unfold Sys2Proof.Machine.prtOp
  repeat' (first
    | with_reducible assumption
    | exact fun _ hx => hx
    | exact fun _ => rfl
    | with_reducible refine Keeps.after (fun _ _ e h => by first | exact Keeps.execLoad e h | exact Keeps.execStart e h | exact Keeps.execDrain e h | exact Keeps.execReset e h | exact Keeps.execUnload e h) ?_
    | with_reducible apply Keeps.spend
    | with_reducible refine Keeps.ownerOnly (fun _ _ => ?_) ?_
    | with_reducible apply Keeps.ite_
    | refine Keeps.execLoad rfl ?_
    | refine Keeps.execStart rfl ?_
    | refine Keeps.execDrain rfl ?_
    | refine Keeps.execReset rfl ?_
    | refine Keeps.execUnload rfl ?_
    | split
    | (refine Keeps.lit ?_ rfl rfl id id id id id; first | with_reducible assumption | with_reducible refine Keeps.after (fun _ _ e h => by first | exact Keeps.execLoad e h | exact Keeps.execStart e h | exact Keeps.execDrain e h | exact Keeps.execReset e h | exact Keeps.execUnload e h) ?_ | with_reducible apply Keeps.spend | with_reducible refine Keeps.ownerOnly (fun _ _ => ?_) ?_ | with_reducible apply Keeps.ite_ | refine Keeps.execLoad rfl ?_ | refine Keeps.execStart rfl ?_ | refine Keeps.execDrain rfl ?_ | refine Keeps.execReset rfl ?_ | refine Keeps.execUnload rfl ?_ | split)
    | assumption
    | intro _
    | dsimp only)

theorem Keeps.vfOnly {m : Master} {p : PartId} {off : Nat} {f : Part → Part} {s0 s : State} (hf : ∀ x, Memory.wf x.xmem → Memory.wf (f x).xmem) (hK : Keeps s0 s) : Keeps s0 (vfOnly m p off f s) := by
  unfold Sys2Proof.Machine.vfOnly
  repeat' (first
    | with_reducible assumption
    | exact hf _ (by assumption)
    | exact fun _ hx => hx
    | exact fun _ => rfl
    | with_reducible apply Keeps.updPart
    | with_reducible apply Keeps.ignoreWrite
    | with_reducible apply Keeps.ite_
    | split
    | (refine Keeps.lit ?_ rfl rfl id id id id id; first | with_reducible assumption | exact hf _ (by assumption) | with_reducible apply Keeps.updPart | with_reducible apply Keeps.ignoreWrite | with_reducible apply Keeps.ite_ | split)
    | assumption
    | intro _
    | dsimp only)

theorem Keeps.writePrt {p : PartId} {w : BusWrite} {s0 s : State}  (hK : Keeps s0 s) : Keeps s0 (writePrt p w s) := by
  unfold Sys2Proof.Machine.writePrt
  repeat' (first
    | with_reducible assumption
    | exact fun _ hx => hx
    | exact fun _ => rfl
    | with_reducible apply Keeps.vfOnly
    | with_reducible refine Keeps.after (fun _ _ e h => by first | exact Keeps.execBudgetWrite e h | exact Keeps.execPrtConsent e h | exact Keeps.execPrtAttgo e h) ?_
    | with_reducible refine Keeps.ownerOnly (fun _ _ => ?_) ?_
    | with_reducible apply Keeps.updPart
    | with_reducible apply Keeps.prtOp
    | with_reducible apply Keeps.ite_
    | refine Keeps.execBudgetWrite rfl ?_
    | refine Keeps.execPrtConsent rfl ?_
    | refine Keeps.execPrtAttgo rfl ?_
    | split
    | (refine Keeps.lit ?_ rfl rfl id id id id id; first | with_reducible assumption | with_reducible apply Keeps.vfOnly | with_reducible refine Keeps.after (fun _ _ e h => by first | exact Keeps.execBudgetWrite e h | exact Keeps.execPrtConsent e h | exact Keeps.execPrtAttgo e h) ?_ | with_reducible refine Keeps.ownerOnly (fun _ _ => ?_) ?_ | with_reducible apply Keeps.updPart | with_reducible apply Keeps.prtOp | with_reducible apply Keeps.ite_ | refine Keeps.execBudgetWrite rfl ?_ | refine Keeps.execPrtConsent rfl ?_ | refine Keeps.execPrtAttgo rfl ?_ | split)
    | assumption
    | intro _
    | dsimp only)

theorem Keeps.ringError {f : FuncId} {s0 s : State}  (hK : Keeps s0 s) : Keeps s0 (ringError f s) := by
  unfold Sys2Proof.Machine.ringError
  repeat' (first
    | with_reducible assumption
    | exact fun _ hx => hx
    | exact fun _ => rfl
    | with_reducible apply Keeps.updFunc
    | with_reducible apply Keeps.ite_
    | split
    | (refine Keeps.lit ?_ rfl rfl id id id id id; first | with_reducible assumption | with_reducible apply Keeps.updFunc | with_reducible apply Keeps.ite_ | split)
    | assumption
    | intro _
    | dsimp only)

theorem Keeps.ringWriteCfg {f : FuncId} {v : Nat} {s0 s : State}  (hK : Keeps s0 s) : Keeps s0 (ringWriteCfg f v s) := by
  unfold Sys2Proof.Machine.ringWriteCfg
  repeat' (first
    | with_reducible assumption
    | exact fun _ hx => hx
    | exact fun _ => rfl
    | with_reducible apply Keeps.flushJournal
    | with_reducible apply Keeps.updFunc
    | with_reducible apply Keeps.ringError
    | with_reducible apply Keeps.ite_
    | split
    | (refine Keeps.lit ?_ rfl rfl id id id id id; first | with_reducible assumption | with_reducible apply Keeps.flushJournal | with_reducible apply Keeps.updFunc | with_reducible apply Keeps.ringError | with_reducible apply Keeps.ite_ | split)
    | assumption
    | intro _
    | dsimp only)

theorem Keeps.execTktRingcfg {f : FuncId} {v : W64} {s0 s tK : State} (eK : execTktRingcfg f v s = .next tK) (hK : Keeps s0 s) : Keeps s0 tK := by
  unfold Sys2Proof.Machine.execTktRingcfg at eK
  cases eK
  repeat' (first
    | with_reducible assumption
    | exact fun _ hx => hx
    | exact fun _ => rfl
    | with_reducible apply Keeps.ringWriteCfg
    | with_reducible apply Keeps.ite_
    | split
    | (refine Keeps.lit ?_ rfl rfl id id id id id; first | with_reducible assumption | with_reducible apply Keeps.ringWriteCfg | with_reducible apply Keeps.ite_ | split)
    | assumption
    | intro _
    | dsimp only)

theorem Keeps.ringBase {f : FuncId} {upd : W64 → Func → Func} {v : Nat} {s0 s : State}  (hK : Keeps s0 s) : Keeps s0 (ringBase f upd v s) := by
  unfold Sys2Proof.Machine.ringBase
  repeat' (first
    | with_reducible assumption
    | exact fun _ hx => hx
    | exact fun _ => rfl
    | with_reducible apply Keeps.ringError
    | with_reducible apply Keeps.updFunc
    | with_reducible apply Keeps.ite_
    | split
    | (refine Keeps.lit ?_ rfl rfl id id id id id; first | with_reducible assumption | with_reducible apply Keeps.ringError | with_reducible apply Keeps.updFunc | with_reducible apply Keeps.ite_ | split)
    | assumption
    | intro _
    | dsimp only)

theorem Keeps.writeTkt {f : FuncId} {w : BusWrite} {s0 s : State}  (hK : Keeps s0 s) : Keeps s0 (writeTkt f w s) := by
  unfold Sys2Proof.Machine.writeTkt
  repeat' (first
    | with_reducible assumption
    | exact fun _ hx => hx
    | exact fun _ => rfl
    | with_reducible apply Keeps.ignoreWrite
    | with_reducible apply Keeps.ringBase
    | with_reducible apply Keeps.ringWriteCfg
    | with_reducible apply Keeps.ite_
    | split
    | (refine Keeps.lit ?_ rfl rfl id id id id id; first | with_reducible assumption | with_reducible apply Keeps.ignoreWrite | with_reducible apply Keeps.ringBase | with_reducible apply Keeps.ringWriteCfg | with_reducible apply Keeps.ite_ | split)
    | assumption
    | intro _
    | dsimp only)

theorem Keeps.writeMem {w : BusWrite} {s0 s : State}  (hK : Keeps s0 s) : Keeps s0 (writeMem w s) := by
  unfold Sys2Proof.Machine.writeMem
  repeat' (first
    | with_reducible assumption
    | exact fun _ hx => hx
    | exact fun _ => rfl
    | with_reducible refine Keeps.after (fun _ _ e h => by first | exact Keeps.execMemReload e h | exact Keeps.execMemFreload e h | exact Keeps.execMemCpgo e h) ?_
    | with_reducible apply Keeps.spend
    | with_reducible refine Keeps.ownerOnly (fun _ _ => ?_) ?_
    | with_reducible apply Keeps.updMem
    | with_reducible apply Keeps.ite_
    | refine Keeps.execMemReload rfl ?_
    | refine Keeps.execMemFreload rfl ?_
    | refine Keeps.execMemCpgo rfl ?_
    | split
    | (refine Keeps.lit ?_ rfl rfl id id id id id; first | with_reducible assumption | with_reducible refine Keeps.after (fun _ _ e h => by first | exact Keeps.execMemReload e h | exact Keeps.execMemFreload e h | exact Keeps.execMemCpgo e h) ?_ | with_reducible apply Keeps.spend | with_reducible refine Keeps.ownerOnly (fun _ _ => ?_) ?_ | with_reducible apply Keeps.updMem | with_reducible apply Keeps.ite_ | refine Keeps.execMemReload rfl ?_ | refine Keeps.execMemFreload rfl ?_ | refine Keeps.execMemCpgo rfl ?_ | split)
    | assumption
    | intro _
    | dsimp only)

theorem Keeps.writeFlt {w : BusWrite} {s0 s : State}  (hK : Keeps s0 s) : Keeps s0 (writeFlt w s) := by
  unfold Sys2Proof.Machine.writeFlt
  repeat' (first
    | with_reducible assumption
    | exact fun _ hx => hx
    | exact fun _ => rfl
    | with_reducible refine Keeps.ownerOnly (fun _ _ => ?_) ?_
    | with_reducible apply Keeps.updFlt
    | with_reducible refine Keeps.after (fun _ _ e h => by first | exact Keeps.execColdStart e h | exact Keeps.execWarmStart e h | exact Keeps.execFltTestreq e h) ?_
    | with_reducible apply Keeps.spend
    | with_reducible apply Keeps.ite_
    | refine Keeps.execColdStart rfl ?_
    | refine Keeps.execWarmStart rfl ?_
    | refine Keeps.execFltTestreq rfl ?_
    | split
    | (refine Keeps.lit ?_ rfl rfl id id id id id; first | with_reducible assumption | with_reducible refine Keeps.ownerOnly (fun _ _ => ?_) ?_ | with_reducible apply Keeps.updFlt | with_reducible refine Keeps.after (fun _ _ e h => by first | exact Keeps.execColdStart e h | exact Keeps.execWarmStart e h | exact Keeps.execFltTestreq e h) ?_ | with_reducible apply Keeps.spend | with_reducible apply Keeps.ite_ | refine Keeps.execColdStart rfl ?_ | refine Keeps.execWarmStart rfl ?_ | refine Keeps.execFltTestreq rfl ?_ | split)
    | assumption
    | intro _
    | dsimp only)

theorem Keeps.pwrReq {m : Master} {v : Nat} {s0 s : State}  (hK : Keeps s0 s) : Keeps s0 (pwrReq m v s) := by
  unfold Sys2Proof.Machine.pwrReq
  repeat' (first
    | with_reducible assumption
    | exact fun _ hx => hx
    | exact fun _ => rfl
    | with_reducible refine Keeps.after (fun _ _ e h => by first | exact Keeps.execReqStandby e h | exact Keeps.execReqOff e h | exact Keeps.execReqWake e h) ?_
    | with_reducible apply Keeps.spend
    | with_reducible apply Keeps.ite_
    | refine Keeps.execReqStandby rfl ?_
    | refine Keeps.execReqOff rfl ?_
    | refine Keeps.execReqWake rfl ?_
    | split
    | (refine Keeps.lit ?_ rfl rfl id id id id id; first | with_reducible assumption | with_reducible refine Keeps.after (fun _ _ e h => by first | exact Keeps.execReqStandby e h | exact Keeps.execReqOff e h | exact Keeps.execReqWake e h) ?_ | with_reducible apply Keeps.spend | with_reducible apply Keeps.ite_ | refine Keeps.execReqStandby rfl ?_ | refine Keeps.execReqOff rfl ?_ | refine Keeps.execReqWake rfl ?_ | split)
    | assumption
    | intro _
    | dsimp only)

theorem Keeps.writePwr {w : BusWrite} {s0 s : State}  (hK : Keeps s0 s) : Keeps s0 (writePwr w s) := by
  unfold Sys2Proof.Machine.writePwr
  repeat' (first
    | with_reducible assumption
    | exact fun _ hx => hx
    | exact fun _ => rfl
    | with_reducible refine Keeps.whenS (fun _ _ => ?_) ?_
    | with_reducible apply Keeps.updPwr
    | with_reducible refine Keeps.ownerOnly (fun _ _ => ?_) ?_
    | with_reducible apply Keeps.pwrReq
    | with_reducible apply Keeps.ite_
    | split
    | (refine Keeps.lit ?_ rfl rfl id id id id id; first | with_reducible assumption | with_reducible refine Keeps.whenS (fun _ _ => ?_) ?_ | with_reducible apply Keeps.updPwr | with_reducible refine Keeps.ownerOnly (fun _ _ => ?_) ?_ | with_reducible apply Keeps.pwrReq | with_reducible apply Keeps.ite_ | split)
    | assumption
    | intro _
    | dsimp only)

theorem Keeps.mailbox {m : Master} {len : Nat} {s0 s : State}  (hK : Keeps s0 s) : Keeps s0 (mailbox m len s) := by
  unfold Sys2Proof.Machine.mailbox
  repeat' (first
    | with_reducible assumption
    | exact fun _ hx => hx
    | exact fun _ => rfl
    | with_reducible refine Keeps.after (fun _ _ e h => by first | exact Keeps.execProvision e h | exact Keeps.execRotate e h | exact Keeps.execLockdown e h | exact Keeps.execSecRelease e h | exact Keeps.execDeprovision e h | exact Keeps.execDebug0 e h | exact Keeps.execDebug1 e h | exact Keeps.execDebug2 e h | exact Keeps.execChallenge e h | exact Keeps.execUnlock e h) ?_
    | with_reducible refine Keeps.ownerOnly (fun _ _ => ?_) ?_
    | with_reducible apply Keeps.secRes
    | with_reducible apply Keeps.ite_
    | refine Keeps.execProvision rfl ?_
    | refine Keeps.execRotate rfl ?_
    | refine Keeps.execLockdown rfl ?_
    | refine Keeps.execSecRelease rfl ?_
    | refine Keeps.execDeprovision rfl ?_
    | refine Keeps.execDebug0 rfl ?_
    | refine Keeps.execDebug1 rfl ?_
    | refine Keeps.execDebug2 rfl ?_
    | refine Keeps.execChallenge rfl ?_
    | refine Keeps.execUnlock rfl ?_
    | split
    | (refine Keeps.lit ?_ rfl rfl id id id id id; first | with_reducible assumption | with_reducible refine Keeps.after (fun _ _ e h => by first | exact Keeps.execProvision e h | exact Keeps.execRotate e h | exact Keeps.execLockdown e h | exact Keeps.execSecRelease e h | exact Keeps.execDeprovision e h | exact Keeps.execDebug0 e h | exact Keeps.execDebug1 e h | exact Keeps.execDebug2 e h | exact Keeps.execChallenge e h | exact Keeps.execUnlock e h) ?_ | with_reducible refine Keeps.ownerOnly (fun _ _ => ?_) ?_ | with_reducible apply Keeps.secRes | with_reducible apply Keeps.ite_ | refine Keeps.execProvision rfl ?_ | refine Keeps.execRotate rfl ?_ | refine Keeps.execLockdown rfl ?_ | refine Keeps.execSecRelease rfl ?_ | refine Keeps.execDeprovision rfl ?_ | refine Keeps.execDebug0 rfl ?_ | refine Keeps.execDebug1 rfl ?_ | refine Keeps.execDebug2 rfl ?_ | refine Keeps.execChallenge rfl ?_ | refine Keeps.execUnlock rfl ?_ | split)
    | assumption
    | intro _
    | dsimp only)

theorem Keeps.pf0Only {m : Master} {off : Nat} {f : State → State} {s0 s : State} (hf : ∀ u, Keeps s0 u → Keeps s0 (f u)) (hK : Keeps s0 s) : Keeps s0 (pf0Only m off f s) := by
  unfold Sys2Proof.Machine.pf0Only
  repeat' (first
    | with_reducible assumption
    | with_reducible apply hf
    | exact fun _ hx => hx
    | exact fun _ => rfl
    | with_reducible apply Keeps.ignoreWrite
    | with_reducible apply Keeps.ite_
    | split
    | (refine Keeps.lit ?_ rfl rfl id id id id id; first | with_reducible assumption | with_reducible apply hf | with_reducible apply Keeps.ignoreWrite | with_reducible apply Keeps.ite_ | split)
    | assumption
    | intro _
    | dsimp only)

theorem Keeps.writeSec {w : BusWrite} {s0 s : State}  (hK : Keeps s0 s) : Keeps s0 (writeSec w s) := by
  unfold Sys2Proof.Machine.writeSec
  repeat' (first
    | with_reducible assumption
    | exact wrBytes_wf _ _ _ (by assumption)
    | exact fun _ hx => hx
    | exact fun _ => rfl
    | with_reducible refine Keeps.pf0Only (fun _ _ => ?_) ?_
    | with_reducible apply Keeps.updSec
    | with_reducible refine Keeps.ownerOnly (fun _ _ => ?_) ?_
    | with_reducible refine Keeps.after (fun _ _ e h => by first | exact Keeps.execSecAttgo e h) ?_
    | with_reducible apply Keeps.mailbox
    | with_reducible apply Keeps.ite_
    | refine Keeps.execSecAttgo rfl ?_
    | split
    | (refine Keeps.lit ?_ rfl rfl id id id id id; first | with_reducible assumption | exact wrBytes_wf _ _ _ (by assumption) | with_reducible refine Keeps.pf0Only (fun _ _ => ?_) ?_ | with_reducible apply Keeps.updSec | with_reducible refine Keeps.ownerOnly (fun _ _ => ?_) ?_ | with_reducible refine Keeps.after (fun _ _ e h => by first | exact Keeps.execSecAttgo e h) ?_ | with_reducible apply Keeps.mailbox | with_reducible apply Keeps.ite_ | refine Keeps.execSecAttgo rfl ?_ | split)
    | assumption
    | intro _
    | dsimp only)

theorem Keeps.writeTable {f : FuncId} {n k : Nat} {w : BusWrite} {s0 s : State}  (hK : Keeps s0 s) : Keeps s0 (writeTable f n k w s) := by
  unfold Sys2Proof.Machine.writeTable
  repeat' (first
    | with_reducible assumption
    | exact fun _ hx => hx
    | exact fun _ => rfl
    | with_reducible apply Keeps.updFunc
    | with_reducible apply Keeps.ite_
    | split
    | (refine Keeps.lit ?_ rfl rfl id id id id id; first | with_reducible assumption | with_reducible apply Keeps.updFunc | with_reducible apply Keeps.ite_ | split)
    | assumption
    | intro _
    | dsimp only)

theorem Keeps.execMsixMessage {f : FuncId} {v : Fin 128} {s0 s tK : State} (eK : execMsixMessage f v s = .next tK) (hK : Keeps s0 s) : Keeps s0 tK := by
  unfold Sys2Proof.Machine.execMsixMessage at eK
  cases eK
  repeat' (first
    | with_reducible assumption
    | exact fun _ hx => hx
    | exact fun _ => rfl
    | with_reducible apply Keeps.emit
    | with_reducible apply Keeps.updFunc
    | with_reducible apply Keeps.ite_
    | split
    | (refine Keeps.lit ?_ rfl rfl id id id id id; first | with_reducible assumption | with_reducible apply Keeps.emit | with_reducible apply Keeps.updFunc | with_reducible apply Keeps.ite_ | split)
    | assumption
    | intro _
    | dsimp only)

theorem Keeps.writeCore {c : CoreId} {w : BusWrite} {s0 s : State}  (hK : Keeps s0 s) : Keeps s0 (writeCore c w s) := by
  unfold Sys2Proof.Machine.writeCore
  repeat' (first
    | with_reducible assumption
    | exact fun _ hx => hx
    | exact fun _ => rfl
    | with_reducible apply Keeps.updCore
    | with_reducible apply Keeps.ite_
    | split
    | (refine Keeps.lit ?_ rfl rfl id id id id id; first | with_reducible assumption | with_reducible apply Keeps.updCore | with_reducible apply Keeps.ite_ | split)
    | assumption
    | intro _
    | dsimp only)

theorem Keeps.writeMap {w : BusWrite} {s0 s : State}  (hK : Keeps s0 s) : Keeps s0 (writeMap w s) := by
  unfold Sys2Proof.Machine.writeMap
  repeat' (first
    | with_reducible assumption
    | exact fun _ hx => hx
    | exact fun _ => rfl
    | with_reducible apply Keeps.writeOwn
    | with_reducible apply Keeps.writeImg
    | with_reducible apply Keeps.writeTik
    | with_reducible apply Keeps.writePrt
    | with_reducible apply Keeps.writeTkt
    | with_reducible apply Keeps.writeMem
    | with_reducible apply Keeps.writeFlt
    | with_reducible apply Keeps.writePwr
    | with_reducible apply Keeps.writeSec
    | with_reducible apply Keeps.writeTable
    | with_reducible apply Keeps.writeCore
    | with_reducible apply Keeps.ite_
    | split
    | (refine Keeps.lit ?_ rfl rfl id id id id id; first | with_reducible assumption | with_reducible apply Keeps.writeOwn | with_reducible apply Keeps.writeImg | with_reducible apply Keeps.writeTik | with_reducible apply Keeps.writePrt | with_reducible apply Keeps.writeTkt | with_reducible apply Keeps.writeMem | with_reducible apply Keeps.writeFlt | with_reducible apply Keeps.writePwr | with_reducible apply Keeps.writeSec | with_reducible apply Keeps.writeTable | with_reducible apply Keeps.writeCore | with_reducible apply Keeps.ite_ | split)
    | assumption
    | intro _
    | dsimp only)

theorem Keeps.writeWord {w : BusWrite} {s0 s : State}  (hK : Keeps s0 s) : Keeps s0 (writeWord w s) := by
  unfold Sys2Proof.Machine.writeWord
  repeat' (first
    | with_reducible assumption
    | exact fun _ hx => hx
    | exact fun _ => rfl
    | with_reducible apply Keeps.writeMap
    | with_reducible apply Keeps.writeTable
    | with_reducible apply Keeps.ite_
    | split
    | (refine Keeps.lit ?_ rfl rfl id id id id id; first | with_reducible assumption | with_reducible apply Keeps.writeMap | with_reducible apply Keeps.writeTable | with_reducible apply Keeps.ite_ | split)
    | assumption
    | intro _
    | dsimp only)

theorem Keeps.writeReg {m : Master} {o : Nat} {size : Fin 4} {v : Nat} {s0 s : State}  (hK : Keeps s0 s) : Keeps s0 (writeReg m o size v s) := by
  unfold Sys2Proof.Machine.writeReg
  repeat' (first
    | with_reducible assumption
    | exact fun _ hx => hx
    | exact fun _ => rfl
    | with_reducible apply Keeps.writeWord
    | with_reducible apply Keeps.ite_
    | split
    | (refine Keeps.lit ?_ rfl rfl id id id id id; first | with_reducible assumption | with_reducible apply Keeps.writeWord | with_reducible apply Keeps.ite_ | split)
    | assumption
    | intro _
    | dsimp only)

theorem Keeps.execRegisterWrite {m : Master} {off : BitVec 22} {size : Fin 4} {v : W64} {s0 s tK : State} (eK : execRegisterWrite m off size v s = .next tK) (hK : Keeps s0 s) : Keeps s0 tK := by
  unfold Sys2Proof.Machine.execRegisterWrite at eK
  cases eK
  repeat' (first
    | with_reducible assumption
    | exact fun _ hx => hx
    | exact fun _ => rfl
    | with_reducible apply Keeps.writeReg
    | with_reducible apply Keeps.ite_
    | split
    | (refine Keeps.lit ?_ rfl rfl id id id id id; first | with_reducible assumption | with_reducible apply Keeps.writeReg | with_reducible apply Keeps.ite_ | split)
    | assumption
    | intro _
    | dsimp only)

theorem Keeps.barAccess {m : Master} {wr : Bool} {off : Nat} {size : Fin 4} {v : Nat} {s0 s : State}  (hK : Keeps s0 s) : Keeps s0 (barAccess m wr off size v s) := by
  unfold Sys2Proof.Machine.barAccess
  repeat' (first
    | with_reducible assumption
    | exact fun _ hx => hx
    | exact fun _ => rfl
    | with_reducible apply Keeps.writeReg
    | with_reducible apply Keeps.readReg
    | with_reducible apply Keeps.ite_
    | split
    | (refine Keeps.lit ?_ rfl rfl id id id id id; first | with_reducible assumption | with_reducible apply Keeps.writeReg | with_reducible apply Keeps.readReg | with_reducible apply Keeps.ite_ | split)
    | assumption
    | intro _
    | dsimp only)

theorem Keeps.execI3cAccess {addr : BitVec 7} {wr : Bool} {off : BitVec 22} {size : Fin 4} {data : W64} {s0 s tK : State} (eK : execI3cAccess addr wr off size data s = .next tK) (hK : Keeps s0 s) : Keeps s0 tK := by
  unfold Sys2Proof.Machine.execI3cAccess at eK
  cases eK
  repeat' (first
    | with_reducible assumption
    | exact fun _ hx => hx
    | exact fun _ => rfl
    | with_reducible apply Keeps.barAccess
    | with_reducible apply Keeps.ite_
    | split
    | (refine Keeps.lit ?_ rfl rfl id id id id id; first | with_reducible assumption | with_reducible apply Keeps.barAccess | with_reducible apply Keeps.ite_ | split)
    | assumption
    | intro _
    | dsimp only)

theorem Keeps.execRmAccess {x y z : W16} {wr : Bool} {off : BitVec 22} {size : Fin 4} {data : W64} {s0 s tK : State} (eK : execRmAccess x y z wr off size data s = .next tK) (hK : Keeps s0 s) : Keeps s0 tK := by
  unfold Sys2Proof.Machine.execRmAccess at eK
  cases eK
  repeat' (first
    | with_reducible assumption
    | exact fun _ hx => hx
    | exact fun _ => rfl
    | with_reducible refine Keeps.whenS (fun _ _ => ?_) ?_
    | with_reducible apply Keeps.chargeD
    | with_reducible apply Keeps.barAccess
    | with_reducible apply Keeps.ite_
    | split
    | (refine Keeps.lit ?_ rfl rfl id id id id id; first | with_reducible assumption | with_reducible refine Keeps.whenS (fun _ _ => ?_) ?_ | with_reducible apply Keeps.chargeD | with_reducible apply Keeps.barAccess | with_reducible apply Keeps.ite_ | split)
    | assumption
    | intro _
    | dsimp only)

end Sys2Proof.Machine
end

