-- ==== Sys2Proof/Laws/Updates.lean ====
section
/-! SUPPORT. How updates compose, what the shared operations over lists of parts leave, and what the owner's and the log's operations do. -/

namespace Sys2Proof.Machine

/-! ### Two updates of one part -/

theorem updCore_updCore (i : CoreId) (f g : Core → Core) (s : State) : updCore i f (updCore i g s) = updCore i (fun x => f (g x)) s := by
  simp [updCore]

theorem updCore_congr {i : CoreId} {f g : Core → Core} {s : State} (h : f (s.core i) = g (s.core i)) : updCore i f s = updCore i g s := by
  unfold updCore State.core at *; rw [h]

theorem updCore_id {i : CoreId} {f : Core → Core} {s : State} (h : f (s.core i) = s.core i) : updCore i f s = s := by
  unfold updCore State.core at *; rw [h]; simp

theorem updPart_updPart (i : PartId) (f g : Part → Part) (s : State) : updPart i f (updPart i g s) = updPart i (fun x => f (g x)) s := by
  simp [updPart]

theorem updPart_congr {i : PartId} {f g : Part → Part} {s : State} (h : f (s.part i) = g (s.part i)) : updPart i f s = updPart i g s := by
  unfold updPart State.part at *; rw [h]

theorem updPart_id {i : PartId} {f : Part → Part} {s : State} (h : f (s.part i) = s.part i) : updPart i f s = s := by
  unfold updPart State.part at *; rw [h]; simp

theorem updFunc_updFunc (i : FuncId) (f g : Func → Func) (s : State) : updFunc i f (updFunc i g s) = updFunc i (fun x => f (g x)) s := by
  simp [updFunc]

theorem updFunc_congr {i : FuncId} {f g : Func → Func} {s : State} (h : f (s.func i) = g (s.func i)) : updFunc i f s = updFunc i g s := by
  unfold updFunc State.func at *; rw [h]

theorem updFunc_id {i : FuncId} {f : Func → Func} {s : State} (h : f (s.func i) = s.func i) : updFunc i f s = s := by
  unfold updFunc State.func at *; rw [h]; simp

theorem updPort_updPort (i : PortId) (f g : Port → Port) (s : State) : updPort i f (updPort i g s) = updPort i (fun x => f (g x)) s := by
  simp [updPort]

theorem updPort_congr {i : PortId} {f g : Port → Port} {s : State} (h : f (s.port i) = g (s.port i)) : updPort i f s = updPort i g s := by
  unfold updPort State.port at *; rw [h]

theorem updPort_id {i : PortId} {f : Port → Port} {s : State} (h : f (s.port i) = s.port i) : updPort i f s = s := by
  unfold updPort State.port at *; rw [h]; simp

theorem updMem_updMem (f g : Mem → Mem) (s : State) : updMem f (updMem g s) = updMem (fun x => f (g x)) s := rfl

theorem updMem_congr {f g : Mem → Mem} {s : State} (h : f s.mem = g s.mem) : updMem f s = updMem g s := by
  unfold updMem; rw [h]

theorem updTick_updTick (f g : Tick → Tick) (s : State) : updTick f (updTick g s) = updTick (fun x => f (g x)) s := rfl

theorem updTick_congr {f g : Tick → Tick} {s : State} (h : f s.tick = g s.tick) : updTick f s = updTick g s := by
  unfold updTick; rw [h]

theorem updOwn_updOwn (f g : Own → Own) (s : State) : updOwn f (updOwn g s) = updOwn (fun x => f (g x)) s := rfl

theorem updOwn_congr {f g : Own → Own} {s : State} (h : f s.own = g s.own) : updOwn f s = updOwn g s := by
  unfold updOwn; rw [h]

theorem updImg_updImg (f g : Img → Img) (s : State) : updImg f (updImg g s) = updImg (fun x => f (g x)) s := rfl

theorem updImg_congr {f g : Img → Img} {s : State} (h : f s.img = g s.img) : updImg f s = updImg g s := by
  unfold updImg; rw [h]

theorem updSec_updSec (f g : Sec → Sec) (s : State) : updSec f (updSec g s) = updSec (fun x => f (g x)) s := rfl

theorem updSec_congr {f g : Sec → Sec} {s : State} (h : f s.sec = g s.sec) : updSec f s = updSec g s := by
  unfold updSec; rw [h]

theorem updPwr_updPwr (f g : Pwr → Pwr) (s : State) : updPwr f (updPwr g s) = updPwr (fun x => f (g x)) s := rfl

theorem updPwr_congr {f g : Pwr → Pwr} {s : State} (h : f s.pwr = g s.pwr) : updPwr f s = updPwr g s := by
  unfold updPwr; rw [h]

theorem updFlt_updFlt (f g : Flt → Flt) (s : State) : updFlt f (updFlt g s) = updFlt (fun x => f (g x)) s := rfl

theorem updFlt_congr {f g : Flt → Flt} {s : State} (h : f s.flt = g s.flt) : updFlt f s = updFlt g s := by
  unfold updFlt; rw [h]

/-! ### Every element of a list -/

@[simp] theorem forAll_nil {α : Type} (f : α → State → State) (s : State) : forAll [] f s = s := rfl

@[simp] theorem forAll_cons {α : Type} (x : α) (l : List α) (f : α → State → State) (s : State) : forAll (x :: l) f s = forAll l f (f x s) := rfl

/-- Nothing to do for any element. -/
theorem forAll_id {α : Type} (l : List α) (f : α → State → State) (s : State) (h : ∀ x ∈ l, f x s = s) : forAll l f s = s := by
  induction l with
  | nil => rfl
  | cons x r ih => rw [forAll_cons, h x (by simp)]; exact ih (fun y hy => h y (by simp [hy]))

/-- What every element keeps, all of them keep. -/
theorem forAll_keep {α : Type} (P : State → Prop) (l : List α) (f : α → State → State) (s : State) (h : ∀ x ∈ l, ∀ t, P t → P (f x t)) (hs : P s) :
    P (forAll l f s) := by
  induction l generalizing s with
  | nil => exact hs
  | cons x r ih => exact ih _ (fun y hy => h y (by simp [hy])) (h x (by simp) s hs)

/-- What one element does and no later one undoes, all of them do. -/
theorem forAll_reach {α : Type} (P : State → Prop) (l : List α) (f : α → State → State) (s : State) (a : α) (ha : a ∈ l)
    (hdo : ∀ t, P (f a t)) (hkeep : ∀ x ∈ l, ∀ t, P t → P (f x t)) : P (forAll l f s) := by
  induction l generalizing s with
  | nil => simp at ha
  | cons x r ih =>
    rw [forAll_cons]
    by_cases hr : a ∈ r
    · exact ih _ hr (fun y hy => hkeep y (by simp [hy]))
    · have : a = x := by simpa [hr] using ha
      subst this
      exact forAll_keep P r f _ (fun y hy => hkeep y (by simp [hy])) (hdo s)

/-! ### Owner's commands (R373) -/

theorem ownerOnly_owner {m : Master} {off : Nat} {f : State → State} {s : State} (h : OwnerActs m s) : ownerOnly m off f s = f s := by
  unfold ownerOnly; rw [h.1, h.2]; rfl

theorem ownerOnly_other {m : Master} {off : Nat} {f : State → State} {s : State} (h : arrives s m = true) (ho : isOwner s m = false) :
    ownerOnly m off f s = ignoreWrite m off 1 s := by
  unfold ownerOnly; rw [h, ho]; rfl

/-- A security command that passes the shared checks has its effect where its state and its further conditions hold (R424). -/
theorem secCmd_ok {m : Master} {h : SecHdr} {cmd len : Nat} {signed : Bool} {stateOk condOk : State → Bool} {unsigned effect : State → State} {s : State}
    (k : SecCmdOk m h cmd len signed s) :
    secCmd m h cmd len signed stateOk condOk unsigned effect s
      = if stateOk s then (if condOk s then effect s else secRes 4 s) else secRes 2 s := by
  obtain ⟨ho, h1, h2, h3, h4, h5⟩ := k
  unfold secCmd
  rw [ownerOnly_owner ho, if_neg (by simp [h1, h2]; simpa using h3), if_neg (by simp [h4])]
  have h6 : (signed && !(h.sigOk && s.sec.pufOk)) = false := by
    cases signed with
    | false => rfl
    | true => simp [(h5 rfl).1, (h5 rfl).2]
  rw [h6]
  cases hs : stateOk s <;> cases hc : condOk s <;> simp

/-! ### Log and events (R446, R467) -/

theorem logR_room {s : State} (h : LogRoom s) (type prio e src part : Nat) (body : List Nat) :
    logR type prio e src part body s = logged (recordNow s type prio e src part body) s := by
  unfold logR logPush
  have h : s.flt.queue.length < 4096 := h
  rw [if_pos h]
  rfl

/-- An event of a vector changes its function's vectors alone. -/
theorem vecEvent_frame (f : FuncId) (v : Fin 128) (s : State) : vecEvent f v s = { s with funcs := (vecEvent f v s).funcs } := rfl

@[simp] theorem vecEvent_core (f : FuncId) (v : Fin 128) (s : State) (c : CoreId) : (vecEvent f v s).core c = s.core c := rfl
@[simp] theorem vecEvent_part (f : FuncId) (v : Fin 128) (s : State) (p : PartId) : (vecEvent f v s).part p = s.part p := rfl
@[simp] theorem vecEvent_mem (f : FuncId) (v : Fin 128) (s : State) : (vecEvent f v s).mem = s.mem := rfl
@[simp] theorem vecEvent_tick (f : FuncId) (v : Fin 128) (s : State) : (vecEvent f v s).tick = s.tick := rfl
@[simp] theorem vecEvent_own (f : FuncId) (v : Fin 128) (s : State) : (vecEvent f v s).own = s.own := rfl
@[simp] theorem vecEvent_img (f : FuncId) (v : Fin 128) (s : State) : (vecEvent f v s).img = s.img := rfl
@[simp] theorem vecEvent_sec (f : FuncId) (v : Fin 128) (s : State) : (vecEvent f v s).sec = s.sec := rfl
@[simp] theorem vecEvent_pwr (f : FuncId) (v : Fin 128) (s : State) : (vecEvent f v s).pwr = s.pwr := rfl
@[simp] theorem vecEvent_flt (f : FuncId) (v : Fin 128) (s : State) : (vecEvent f v s).flt = s.flt := rfl

/-- An alarm bit changes the FLT block and PF0's vectors alone. -/
theorem alarmBit_frame (c : Fin 16) (s : State) : alarmBit c s = { s with funcs := (alarmBit c s).funcs, flt := (alarmBit c s).flt } := rfl

/-- A log record changes the FLT block and, where the queue is full, PF0's vectors. -/
theorem logR_frame (type prio e src part : Nat) (body : List Nat) (s : State) :
    logR type prio e src part body s
      = { s with funcs := (logR type prio e src part body s).funcs, flt := (logR type prio e src part body s).flt } := by
  unfold logR logPush
  dsimp only
  split
  · rfl
  · split <;> rfl

theorem alarm_frame (c : Fin 16) (s : State) : alarm c s = { s with funcs := (alarm c s).funcs, flt := (alarm c s).flt } := by
  unfold alarm
  dsimp only
  rw [logR_frame, alarmBit_frame]

/-- A trace changes the FLT block and D's budget counters alone. -/
theorem trace_frame (src : Fin 5) (part : Nat) (data : List Nat) (s : State) :
    trace src part data s = { s with flt := (trace src part data s).flt, tick := (trace src part data s).tick } := by
  unfold trace
  dsimp only
  split
  · rfl
  · split
    · rfl
    · split <;> rfl

/-- A powered domain has every domain that it needs (R26, R27). -/
theorem domainOn_needs (s : State) (d n : PowerDomain) (h : domainOn s d = true) (hn : n ∈ domainNeeds d) : domainOn s n = true := by
  cases d <;> simp [domainNeeds] at hn <;> (try rcases hn with rfl | rfl) <;> simp_all [domainOn]

end Sys2Proof.Machine
end

