-- ==== Sys2Proof/Laws/Parcels.lean ====
section
/-! SUPPORT. Parcels, tile instructions and the TR queues: what the shared operations of the sequencer do to a state that takes them
(R241-R249, R257), and links without transit flits. -/

namespace Sys2Proof.Machine

/-! ### Parcels -/

theorem hold_none {c : CoreId} {s : State} (h : (s.core c).steps = true) : (s.core c).hold = .none := by
  simp [Core.steps] at h; exact h.2

@[simp] theorem setS_hold (x : Core) (r v) : (x.setS r v).hold = x.hold := by unfold Core.setS; split <;> rfl

@[simp] theorem setS_pc (x : Core) (r v) : (x.setS r v).pc = x.pc := by unfold Core.setS; split <;> rfl

@[simp] theorem setP_hold (x : Core) (r v) : (x.setP r v).hold = x.hold := by unfold Core.setP; split <;> rfl

@[simp] theorem setP_pc (x : Core) (r v) : (x.setP r v).pc = x.pc := by unfold Core.setP; split <;> rfl

theorem setPc_eq {c : CoreId} {n : Nat} {s : State} (h : (s.core c).hold = .none) (hn : n < pcEnd) : setPc c n s = updCore c (fun x => { x with pc := n }) s := by
  unfold setPc
  dsimp only
  rw [if_neg (by omega)]
  exact updCore_congr (by simp [← h])

/-- A taken parcel does its update and moves the PC on. -/
theorem parcel_eq {c : CoreId} {s : State} (h : TakesParcel c s) (f : Core → Core) (hf : (f (s.core c)).hold = (s.core c).hold) :
    parcel c f s = updCore c (fun x => { f x with pc := x.pc + 4 }) s := by
  unfold parcel
  rw [if_pos h.1, setPc_eq (by simp [hf, hold_none h.1]) (by simpa using h.2), updCore_updCore]
  exact updCore_congr (by simp [])

/-- A taken parcel that gives s[rd] a value. -/
theorem parcel_setS {c : CoreId} {s : State} (h : TakesParcel c s) (rd : SReg) (g : Core → W64) (v : W64) (hv : g (s.core c) = v) :
    parcel c (fun x => x.setS rd (g x)) s = updCore c (fun x => { x.setS rd v with pc := x.pc + 4 }) s := by
  rw [parcel_eq h _ (setS_hold _ _ _)]
  exact updCore_congr (by simp [hv])

/-- A taken parcel that gives p[pd] a value. -/
theorem parcel_setP {c : CoreId} {s : State} (h : TakesParcel c s) (rd : PReg) (g : Core → Bool) (v : Bool) (hv : g (s.core c) = v) :
    parcel c (fun x => x.setP rd (g x)) s = updCore c (fun x => { x.setP rd v with pc := x.pc + 4 }) s := by
  rw [parcel_eq h _ (setP_hold _ _ _)]
  exact updCore_congr (by simp [hv])

theorem shift_lt {c : CoreId} {s : State} (h : TakesParcel c s) (rd ra : SReg) (n : Nat) (f : W64 → Nat → W64) (v : W64) (hn : n < 64) (hv : f ((s.core c).getS ra) n = v) :
    shiftBy c rd ra n f s = updCore c (fun x => { x.setS rd v with pc := x.pc + 4 }) s := by
  unfold shiftBy
  rw [if_neg (by simp [h.1]), if_pos hn]
  exact parcel_setS h rd _ _ hv

theorem parcel_free {c : CoreId} {s : State} (h : TakesParcel c s) (rd : SReg) :
    parcel c (fun x => x.setS rd (takeFree s).1) (takeFree s).2 = { updCore c (fun x => { x.setS rd (Config.free s.freeCtr) with pc := x.pc + 4 }) s with freeCtr := s.freeCtr + 1 } := by
  have h2 : TakesParcel c (takeFree s).2 := h
  rw [parcel_setS h2 rd (fun _ => (takeFree s).1) _ rfl]
  rfl

theorem shift_ge {c : CoreId} {s : State} (h : TakesParcel c s) (rd ra : SReg) (n : Nat) (f : W64 → Nat → W64) (hn : 64 ≤ n) :
    shiftBy c rd ra n f s = { updCore c (fun x => { x.setS rd (Config.free s.freeCtr) with pc := x.pc + 4 }) s with freeCtr := s.freeCtr + 1 } := by
  unfold shiftBy
  rw [if_neg (by simp [h.1]), if_neg (by omega)]
  exact parcel_free h rd

/-! ### Tile instructions -/

/-- A line that nothing holds back does what it does. -/
theorem issue_eq {c : CoreId} {h : TileHdr} {s : State} (k : TakesLine c h s) (full : Core → Bool) (hf : full (s.core c) = false) (go : State → State) :
    issue c h full go s = go s := by
  obtain ⟨h1, h2, h3, h4, _⟩ := k
  simp [issue, h1, h2, h3, h4, hf]

theorem nextLine_eq {c : CoreId} {s : State} (h : (s.core c).pc + 16 < pcEnd) : nextLine c s = updCore c (fun x => { x with pc := x.pc + 16, hold := .none }) s := by
  unfold nextLine setPc
  dsimp only
  rw [if_neg (by omega)]
  exact updCore_congr rfl

/-! ### The TR queues -/

/-- A queue whose front has run, or that is empty, does nothing. -/
theorem trqPump_idle {d : CoreId} {s : State} (h : (s.core d).trq = [] ∨ ∃ e r, (s.core d).trq = e :: r ∧ e.ran = true) : trqPump d s = s := by
  unfold trqPump
  rcases h with h | ⟨e, r, h, k⟩ <;> rw [h]
  split
  · rename_i heq _
    injection heq with a b
    subst a
    simp [k]
  · rfl

theorem mem_coresOf {s : State} {c : CoreId} {p : PartId} (h : partOfCore s c.1 = some p) : c ∈ coresOf s p := by
  have := List.find?_some h
  unfold coresOf
  cases hc : (s.part p).section_ with
  | none => simp [hc] at this
  | some cfg =>
    simp only [hc] at this ⊢
    exact List.mem_map.mpr ⟨c.1, by simpa using this, by simp [cid]⟩

/-- One instruction waits in the TR queues of a partition, and runs. -/
theorem railPump_once {p : PartId} {c : CoreId} {X Y : State} {e : TREntry} (hp : partOfCore X c.1 = some p) (ho : ∀ d, d ≠ c → (X.core d).trq = [])
    (hy : trqPump c X = Y) (hYc : (Y.core c).trq = [{ e with ran := true }]) (hYo : ∀ d, d ≠ c → (Y.core d).trq = []) : railPump p X = Y := by
  have idleY : ∀ d, trqPump d Y = Y := fun d => by
    by_cases h : d = c
    · subst h; exact trqPump_idle (Or.inr ⟨_, _, hYc, rfl⟩)
    · exact trqPump_idle (Or.inl (hYo d h))
  have idleX : ∀ d, d ≠ c → trqPump d X = X := fun d h => trqPump_idle (Or.inl (ho d h))
  have hround : ∀ l : List CoreId, c ∈ l → forAll l (fun c s => trqPump c s) X = Y := by
    intro l
    induction l with
    | nil => intro h; simp at h
    | cons d r ih =>
      intro h
      unfold forAll
      rw [List.foldl_cons]
      beta_reduce
      by_cases hd : d = c
      · subst hd; rw [hy]; exact forAll_id r _ Y (fun d _ => idleY d)
      · rw [idleX d hd]
        exact ih (by simpa [Ne.symm hd] using h)
  have h1 := hround (coresOf X p) (mem_coresOf hp)
  have h2 : railPump p X = forAll [1, 2, 3] (fun _ s => forAll (coresOf s p) (fun c s => trqPump c s) s) (forAll (coresOf X p) (fun c s => trqPump c s) X) := rfl
  rw [h2, h1]
  exact forAll_id _ _ Y (fun _ _ => forAll_id _ _ Y (fun d _ => idleY d))

/-! ### Transit -/

theorem transitPump_none {n : Nat} {o : PortId} {s : State} (h : ∀ i, (s.port i).transit = []) : transitPump n o s = s := by
  cases n with
  | zero => rfl
  | succ n =>
    unfold transitPump
    have hl : allPorts.flatMap (fun i => (readyTransit (s.port o) o.1 (s.port i).transit).map (fun t => (i, t))) = [] := by
      rw [List.flatMap_eq_nil_iff]; intro i _; simp [h i, readyTransit]
    have : nextTransit s o = none := by unfold nextTransit; rw [hl]; rfl
    rw [this]

end Sys2Proof.Machine
end

