-- ==== Sys2Proof/Tests/Slice0.lean ====
section
/-! SUPPORT. Tests of single commands on small states, with what they expect taken from spec/ (the rule is named at each), the smoke test
of `wellFormed`, and a witness for the hypotheses of every statement. -/

namespace Sys2Proof.Tests

set_option Elab.async false

open Sys2Proof Sys2Proof.Machine

/-- What one command leaves, seen through `f`. -/
def after1 {α : Type} (i : Instr) (f : State → α) (s : State) : Option α := match exec i s with
  | .next t => some (f t)
  | _ => none

/-! ### Well-formedness: one ill-formed line for each check of R260 -/

def hdr0 : TileHdr := { pred := 0, pneg := false, waitu := none, waits := 0, ckpt := 0 }
def mm0 : MMBody :=
  { eng := 0, half := false, acc := false, af := 8, wf := 8, qsrc := 0, mode := 0, sr := false, whisk := false, keep := false, score := false
    aslot := false, mrows := 0, npass := 0, sa := 1, sw := 2, sx := 3, sch := 0, tag := 0 }
def vx0 : VXBody := { nm1 := 0, slot := 0, sd := 0, sb := 0, bind := false, beng := 0, se := 0, sop := 0, sel := false, rm1 := 0 }

theorem test_wellFormed_accepts : (Instr.mm 0 hdr0 mm0).wellFormed = true ∧ (Instr.scan 0 hdr0 { vx0 with sop := 5 }).wellFormed = true
    ∧ (Instr.arm 0 hdr0 4 0 62).wellFormed = true ∧ (Instr.fill 0 hdr0 59).wellFormed = true ∧ (Instr.tload 0 hdr0 { vx0 with slot := 7 }).wellFormed = true := by
  decide
theorem test_wellFormed_mm_mode : (Instr.mm 0 hdr0 { mm0 with mode := 5 }).wellFormed = false := by decide
theorem test_wellFormed_mm_pair : (Instr.mm 0 hdr0 { mm0 with wf := 7 }).wellFormed = false := by decide
theorem test_wellFormed_mm_split_mode : (Instr.mm 0 hdr0 { mm0 with mode := 1 }).wellFormed = false
    ∧ (Instr.cx 0 hdr0 { mm0 with af := 0x12, wf := 0x12 } 0).wellFormed = false := by decide
theorem test_wellFormed_mm_whisk : (Instr.mm 0 hdr0 { mm0 with whisk := true, wf := 0x0E }).wellFormed = false
    ∧ (Instr.mm 0 hdr0 { mm0 with whisk := true, af := 7, wf := 7 }).wellFormed = false := by decide
theorem test_wellFormed_mm_complex : (Instr.mm 0 hdr0 { mm0 with mode := 3, wf := 0x0E }).wellFormed = false
    ∧ (Instr.mm 0 hdr0 { mm0 with mode := 4, af := 7, wf := 7 }).wellFormed = false := by decide
theorem test_wellFormed_vx_fields : (Instr.recipe 0 hdr0 { vx0 with sb := 57 }).wellFormed = false
    ∧ (Instr.scan 0 hdr0 { vx0 with sop := 6 }).wellFormed = false ∧ (Instr.reduce 0 hdr0 { vx0 with sop := 3 }).wellFormed = false := by decide
theorem test_wellFormed_sc_fields : (Instr.arm 0 hdr0 5 0 0).wellFormed = false ∧ (Instr.arm 0 hdr0 0 0 63).wellFormed = false
    ∧ (Instr.fill 0 hdr0 60).wellFormed = false := by decide
theorem test_illFormed_stops : exec (.fill 0 hdr0 60) State.reset = .fault (.staticallyIllegal "FILL") := by rfl

/-- Core 0 runs a program at its entry. -/
def running (f : Core → Core) : State := updCore 0 (fun x => f { x with running := true }) State.reset

def c1 : State := running (fun x => ((x.setS 1 5).setS 2 0xFFFFFFFFFFFFFFFE).setP 1 true)

theorem test_add : after1 (.add 0 3 1 2) (fun t => (t.core 0).getS 3) c1 = some 3 := by decide +kernel


/-! ### Witnesses: for the hypotheses of each statement, a state and operands that meet them; where a clause has a range, at its ends -/

/-- After reset, with the ECC setting that a start takes from the boot control word (R401). -/
def eccOn : State := updMem (fun m => { m with ecc := true }) State.reset
/-- The sideband owns the device. -/
def sbOwns : State := updOwn (fun o => { o with state := .owned, owner := some { m := .sb, prio := 1, nonce := 7 } }) eccOn
/-- PF0 owns the device. -/
def pfOwns : State := updOwn (fun o => { o with state := .owned, owner := some { m := .pf0, prio := 1, nonce := 7 } }) eccOn
/-- Partition 3 runs with a section for core 0 alone. -/
def withPart (f : Part → Part) (s : State) : State :=
  updPart 3 (fun x => f { x with state := .running, section_ := some { cores := [0] } }) s
def completes (i : Instr) (s : State) : Bool := (after1 i (fun _ => ()) s).isSome

theorem wit_IdleStep : State.reset.pending = [] := rfl
theorem wit_QueueUntouched : completes (.nop 0) { State.reset with pending := [.nop 1] } = true := by decide +kernel
theorem wit_StepKeepsLegalModes : LegalModes { State.reset with pwr := { State.reset.pwr with state := .p3 }, pending := [.end_ 127] }
    ∧ (match step { State.reset with pwr := { State.reset.pwr with state := .p3 }, pending := [.end_ 127] } with | .next _ => true | _ => false) = true := by
  refine ⟨⟨by decide, by decide, by decide, by decide⟩, by decide +kernel⟩
theorem wit_StepKeepsStores : StoresOk { State.reset with mem := { State.reset.mem with near := [(0, 1), (2 ^ 40, 255)] }, pending := [.wipeComplete] } := by
  decide +kernel

theorem wit_RegisterFile : (63 : SReg) ≠ 0 ∧ (1 : PReg) ≠ 0 := by decide
theorem wit_ArithmeticParcels : TakesParcel 0 (running id) ∧ TakesParcel 0 (running (fun x => { x with pc := 0x1FFF8 })) := by
  unfold TakesParcel; decide +kernel
theorem wit_ShiftParcels : TakesParcel 0 (running (fun x => (x.setS 1 63).setS 2 64))
    ∧ (((running (fun x => (x.setS 1 63).setS 2 64)).core 0).getS 1).toNat < 64
    ∧ 64 ≤ (((running (fun x => (x.setS 1 63).setS 2 64)).core 0).getS 2).toNat
    ∧ (63 : BitVec 13).toNat < 64 ∧ 64 ≤ (64 : BitVec 13).toNat := by
  unfold TakesParcel; decide +kernel
/-- The store's last line holds a tile instruction: its first byte is a target, the rest of it is none. -/
def tileAtEnd : State := running (fun x => { x with progLen := 0x20000, pstore := [], s := x.s.set 63 0x1FFF0 })
theorem wit_BranchParcels : TakesParcel 0 tileAtEnd ∧ targetOk (tileAtEnd.core 0) (0x1FFF0 : BitVec 17).toNat = true
    ∧ targetOk (tileAtEnd.core 0) ((tileAtEnd.core 0).getS 63).toNat = true ∧ ((tileAtEnd.core 0).getS 63).toNat < pcEnd := by
  unfold TakesParcel; decide +kernel
theorem wit_IllegalInstructions : (tileAtEnd.core 0).steps = true ∧ targetOk (tileAtEnd.core 0) (0x1FFFC : BitVec 17).toNat = false
    ∧ ((running (fun x => { x with pc := 0x1FFFC })).core 0).steps = true
    ∧ ((running (fun x => { x with pc := 0x1FFFC })).core 0).pc + 4 = pcEnd
    ∧ partOfCore tileAtEnd 0 = none ∧ LogRoom tileAtEnd := by
  unfold LogRoom; decide +kernel
/-- s1 names the first, s2 the last 8 bytes of the descriptor store, through the largest immediates of both signs. -/
def dsEnds : State := running (fun x => (x.setS 1 0x8000).setS 2 (0x1FFF8 - 8 * 4095))
theorem wit_DescriptorStore : TakesParcel 0 dsEnds ∧ Memory.wf (dsEnds.core 0).dstore
    ∧ ((dsEnds.core 0).getS 1 + (4096 : BitVec 13).signExtend 64 * 8).toNat = 0
    ∧ ((dsEnds.core 0).getS 2 + (4095 : BitVec 13).signExtend 64 * 8).toNat = 0x1FFF8 := by
  unfold TakesParcel; decide +kernel
theorem wit_StatusAndWaits : TakesParcel 0 c1 ∧ ((csr c1 0 0x0D).1 = some 0) ∧ ((csr c1 0 0x00).1 = none) ∧ ((csr c1 0 0x0E).1 = none)
    ∧ maskIdle (c1.core 0) 0x1F = true ∧ endReady (c1.core 0) = true
    ∧ (let s := running (fun x => { x with ve := { x.ve with queue := [{}] } })
       (s.core 0).steps = true ∧ maskIdle (s.core 0) 0x10 = false ∧ endReady (s.core 0) = false) := by
  unfold TakesParcel; decide +kernel

theorem wit_StatusAndWaits_cycle : let s := withPart (fun x => { x with task := some { num := 1 } }) (running id)
    TakesParcel 0 s ∧ partOfCore s 0 = some 3 ∧ (s.part 3).task = some { num := 1 } := by unfold TakesParcel; decide +kernel

theorem wit_PredicatedOff : (Instr.fill 0 { hdr0 with pneg := true } 59).wellFormed = true
    ∧ tileHeader (.fill 0 { hdr0 with pneg := true } 59) = some (0, { hdr0 with pneg := true })
    ∧ (c1.core 0).tries = true ∧ predHolds (c1.core 0) { hdr0 with pneg := true } = false := by decide +kernel
/-- An MM with the BF16 encoding, with no side address. -/
theorem wit_MatrixIssue_mm : TakesLine 0 hdr0 (running id) ∧ (((running id).core 0).eng[mm0.eng]).queue.length < 8
    ∧ mmReject (running id) 0 mm0 = none ∧ MMBody.wellFormed mm0 = true
    ∧ (let s1 := (takeId 0 (running id)).2
       segsAscend (tableOf s1 0 (mmEntry s1 0 hdr0 mm0 none (epiOf ((running id).core 0) mm0) ((running id).core 0).issued)) = true)
    ∧ sLen (((running id).core 0).getS mm0.sx).toNat = false := by
  unfold TakesLine; decide +kernel
/-- The same line as a CX, in a partition that holds the usable group of the exchange descriptor. -/
def cxS : State := withPart (fun x => { x with groups := [{ gid := 0 }] }) (running id)
theorem wit_MatrixIssue_cx : TakesLine 0 hdr0 cxS ∧ mmReject cxS 0 mm0 = none
    ∧ segsAscend (tableOf (takeId 0 cxS).2 0 (mmEntry (takeId 0 cxS).2 0 hdr0 mm0 (some 511) (epiOf (cxS.core 0) mm0) (cxS.core 0).issued)) = true
    ∧ groupUsable 0 511 (takeId 0 cxS).2 = true := by
  unfold TakesLine; decide +kernel
/-- Core 0 runs a task of one sequence of one position, its lengths table at address 0, in the middle of a sweep; `g` may arm a factor slot. -/
def sweepS (g : Engine → Engine) : State :=
  updPart 3 (fun x => { x with state := .running, section_ := some { cores := [0] }, task := some { num := 1, started := true, entries := [{}] } })
    (running (fun x => { (x.setS 3 (2 ^ 37)) with ws := [(8, 1)], eng := x.eng.set 0 (g { (x.eng[0]) with sweep := some { rows := [(0, 0)] } }) }))
def sweepEntry (b : MMBody) (s : State) : MMEntry := mmEntry (takeId 0 s).2 0 hdr0 b none (epiOf (s.core 0) b) (s.core 0).issued
theorem wit_MatrixIssue_sweep : (let b := { mm0 with score := true }; let s := sweepS id
      TakesLine 0 hdr0 s ∧ mmReject s 0 b = none ∧ ((sweepEntry b s).body.score && namesTable (sweepEntry b s)) = true ∧ whollyMasked (sweepEntry b s) = false)
    ∧ (let s := sweepS (fun g => { g with armed := (some {}, none) })
       TakesLine 0 hdr0 s ∧ mmReject s 0 mm0 = none ∧ (sweepEntry mm0 s).pv = true ∧ (sweepEntry mm0 s).skipped = false ∧ mm0.score = false) := by
  unfold TakesLine; decide +kernel
/-- The last stream descriptor of the store, and an engine whose epilogue waits for its VX. -/
theorem wit_VectorIssue : (let s := running (fun x => x.setS 1 0x1FFD0)
       TakesLine 0 hdr0 s ∧ (s.core 0).ve.queue.length < 8 ∧ ((s.core 0).getS 1).toNat + 48 ≤ 0x20000 ∧ (Instr.scan 0 hdr0 { vx0 with sd := 1 }).wellFormed = true)
    ∧ (let s := running (fun x => { x with eng := x.eng.set 3 { (x.eng[3]) with toBind := some {} } })
       TakesLine 0 hdr0 s ∧ ((s.core 0).eng[(3 : Fin 4)]).skipVX = false ∧ ((s.core 0).eng[(3 : Fin 4)]).toBind.isSome = true
       ∧ (Instr.recipe 0 hdr0 { vx0 with bind := true, beng := 3 }).wellFormed = true) := by
  unfold TakesLine; decide +kernel
theorem wit_FencedVectorWaits : let s := running (fun x => { x with issued := 1, scq := [{}] })
    TakesLine 0 hdr0 s ∧ (s.core 0).ve.queue = [] ∧ ((s.core 0).getS vx0.sd).toNat + 48 ≤ 0x20000 ∧ (Instr.recipe 0 hdr0 vx0).wellFormed = true
    ∧ ∃ f ∈ (s.core 0).scq, f.arm = none ∧ f.ran = false ∧ f.id < (s.core 0).issued := by
  unfold TakesLine; decide +kernel
/-- An ARM at the store's last line behind one that waits, with the override of the last register pair; a FILL of the last five registers. -/
theorem wit_ScoopIssue : let s := running (fun x => { x with scq := [{}] })
    TakesLine 0 hdr0 s ∧ (s.core 0).scq.length < 8 ∧ (Instr.arm 0 hdr0 4 0x1FFF 62).wellFormed = true
    ∧ (0x1FFF : W16).toNat * 16 + (scBytes (s.core 0).dstore ((0x1FFF : W16).toNat * 16)).length ≤ 0x20000
    ∧ (∃ f ∈ (s.core 0).scq, f.arm = none) ∧ (Instr.fill 0 hdr0 59).wellFormed = true := by
  unfold TakesLine; decide +kernel
/-- A partition of core 0 with one rail from and to it: a handle forward, the next of its sequence, and one back. -/
def railS (f : Rail → Rail) : State :=
  withPart (fun x => { x with rails := [f { idx := 1023, lastSeq := 0xFFFF, fwd := [0x10], ready := [true], back := [0x10], backSeq := 0xFFFF, seq := 65535 }] }) (running id)
def tr0 : TRBody := { (default : TRBody) with rail := 1023 }
theorem wit_RailInstructions : TakesLine 0 hdr0 (railS id) ∧ partOfCore (railS id) 0 = some 3 := by
  unfold TakesLine; decide +kernel
theorem wit_RailInstructions_rail : (∀ d, ((railS id).core d).trq = [])
    ∧ (railOf ((railS id).part 3) tr0.rail.toNat).map (fun r => (r.producer, r.consumer, r.fwd, r.ready, r.back)) = some (0, 0, [0x10], [true], [0x10])
    ∧ (railOf ((railS id).part 3) tr0.rail.toNat).all (fun r => decide (r.fwd.length < 16 ∧ r.back.length < 16 ∧ hSeq 0x10 = (r.lastSeq + 1) % 65536
        ∧ hSeq 0x10 = (r.backSeq + 1) % 65536 ∧ hCore 0x10 = r.consumer)) = true := by decide +kernel

theorem wit_QueueCompletion : let s := running (fun x => { x with
        eng := x.eng.set 3 { (x.eng[3]) with queue := [{ done := true }] }, ve := { x.ve with queue := [{ flags := some 127 }] }
        scq := [{ ran := true }], trq := [{ ran := true }] })
    (∀ k, k < 8 → (updFlt (fun f => { f with trcClass := 0 }) s).flt.trcClass.getLsbD k = false)
    ∧ (∀ v ∈ (s.core 0).ve.queue, v.flags.isSome = true) ∧ ((s.core 0).eng[(3 : Fin 4)]).queue = [{ done := true }] ∧ handedOver s 0 { done := true } = true
    ∧ (s.core 0).ve.queue = [{ flags := some 127 }] ∧ (s.core 0).scq = [{ ran := true }] ∧ (s.core 0).trq = [{ ran := true }]
    ∧ (∀ d, d ≠ 0 → (s.core d).trq = []) := by decide +kernel

/-- A program of two scoop instructions, a BASE at source `a` and an XFER of 64 bytes, or of rows of zeros. -/
def scoopBytes (out : Nat) (space flags : Nat) (a : Nat) : List Byte :=
  leBytes 8 (2 + 256 * out + 65536 * space + 2 ^ 40 * flags) ++ leBytes 8 0 ++ leBytes 16 (2 * 2 ^ 124 + a * 2 ^ 64) ++ leBytes 16 (3 * 2 ^ 124 + 2 ^ 114)
def scoopRun (out space a : Nat) : ScoopRun := { bytes := scoopBytes out space 0 a, total := 1 }
/-- Core 0 in partition 3, whose window is the first 64 bytes of near memory; unit 4 runs a program. -/
def scoopS (r : ScoopRun) (l : List Landing) : State :=
  updPart 3 (fun x => { x with section_ := some { cores := [0], windows := [(0, 64, 2)] }
                               budgets := (x.budgets.set 1 { x.budgets[1] with counter := 64 }).set 6
                                 { x.budgets[6] with counter := Config.energyOf 2 * 64 * 1100 / 1000 } })
    (updScoop 0 4 (fun su => { su with active := some r, landing := l })
      { running id with mem := { State.reset.mem with chans := State.reset.mem.chans } })
theorem wit_ScoopTransfers_out : let s := scoopS (scoopRun 1 0 0) []
    (cfgOf s 0).map (fun q => q.1) = some 3 ∧ (scoopOf s 0 4).active = some (scoopRun 1 0 0) ∧ (scoopOf s 0 4).landing.length < 6
    ∧ scOut (scoopRun 1 0 0).bytes = true ∧ (xferAt (s.core 0).ws (scoopRun 1 0 0) 0).map (fun g => (g.bad, g.zero, g.x.far, g.x.len)) = some (false, false, 0, 64)
    ∧ farOk s 3 { cores := [0], windows := [(0, 64, 2)] } (scoopRun 1 0 0).bytes 0 64 = true
    ∧ windowHolds s (xferSpace (scoopRun 1 0 0).bytes 0) 0 64 = false ∧ throttled (scoopRun 1 0 0).bytes = false := by decide +kernel
theorem wit_ScoopTransfers_charge : let s := scoopS (scoopRun 1 0 0) []
    (charge 3 (xferCost s (scoopRun 1 0 0).bytes 0 64) s).1 = true := by
  have h : xferSpace (scoopRun 1 0 0).bytes 0 = 0 := by decide +kernel
  simp [charge, xferCost, h, scoopS, bNEAR, bENERGY, energyFor, running, updScoop, show State.reset.tick.kappa = 1100 from rfl]
/-- Rows of zeros: the only gather index is all ones. -/
theorem wit_ScoopTransfers_zero : let r : ScoopRun := {
      bytes := leBytes 8 (3 + 65536 * 0) ++ leBytes 8 0 ++ leBytes 16 (4 * 2 ^ 124 + 1) ++ leBytes 16 (1 * 2 ^ 124 + 2 ^ 96) ++ leBytes 16 (3 * 2 ^ 124 + 2 ^ 114)
      total := 1 }
    (xferAt [(0, 0xFF), (1, 0xFF), (2, 0xFF), (3, 0xFF)] r 0).map (fun g => (g.bad, g.zero)) = some (false, true) ∧ scOut r.bytes = false ∧ scFlags r.bytes = 0 := by
  decide +kernel
theorem wit_ScoopTransfers_simmer : let s := scoopS (scoopRun 0 0 0) []
    throttled (scoopRun 0 0 0).bytes = true ∧ earlierWaits s 3 0 4 (scGroup (scoopRun 0 0 0).bytes) = false
    ∧ ((updPart 3 (fun x => { x with simmer := x.simmer.set 0 { level := 1 } }) s).part 3).simmer[scGroup (scoopRun 0 0 0).bytes].level = 64 / 64 := by decide +kernel
/-- Every direction and space of a landing slot that waits. -/
theorem wit_ScoopTransfers_slots (b : Nat) (f : Bool) (m : W64) : [({ block := b, fetched := f } : Landing)].find? awaits = some { block := b, fetched := f }
    ∧ [({ out := true, landed := true, block := b, mcid := m } : Landing)].find? awaits = some { out := true, landed := true, block := b, mcid := m } :=
  ⟨rfl, rfl⟩
theorem wit_ScoopTransfers_landed : (scoopOf (scoopS (scoopRun 0 2 0) [{ block := 2 }]) 0 4).landing.find? awaits = some { block := 2 }
    ∧ (scoopOf (scoopS (scoopRun 1 0 0) [{ out := true, landed := true }]) 0 4).landing.find? awaits = some { out := true, landed := true } := by decide +kernel
/-- A landing that an upkeep window holds, one whose packet is in the mesh, and one that neither holds. -/
theorem wit_ScoopTransfers_holds : (let s := updImg (fun g => { g with dev := { g.dev with upkeep := [(0, 0, 1, 64, 0)] } }) (scoopS (scoopRun 0 0 0) [{ len := 64 }])
      windowHolds s 0 0 64 = true)
    ∧ (let l : Landing := { out := true, landed := true, block := 2, serial := some 7 }
       let s := updPart 3 (fun x => { x with mesh := [{ src := 0, serial := 7, dst := 1, data := [] }] }) (scoopS (scoopRun 1 2 0) [l])
       (scoopOf s 0 4).landing.find? awaits = some l ∧ inMesh s 0 l = true)
    ∧ (let s := scoopS (scoopRun 0 0 0) [{ len := 64 }]
       windowHolds s 0 0 64 = false ∧ inMesh s 0 { len := 64 } = false ∧ failedLine s 0 64 = none) := by decide +kernel
/-- A fill point whose counts are reached, and one whose first count is not. -/
theorem wit_SimmerAndFillPhases : let s := withPart id (running (fun x => { x with scq := [{ fill := [0, 0xFFFFFFFF, 0, 0, 0] }] }))
    let e : SCEntry := { fill := [0, 0xFFFFFFFF, 0, 0, 0] }
    let drained := fillWork 0 s
    (s.core 0).scq = [e] ∧ (drained.core 0).scq ≠ [] ∧ e.arm = none ∧ e.ran = false ∧ beforeDone (s.core 0) e.id = true ∧ partOfCore drained 0 = some 3
    ∧ countsReached (drained.core 0) e.fill = true ∧ countsReached (drained.core 0) [1, 0, 0, 0, 0] = false := by decide +kernel

/-- A shape with one checkpoint of each kind that the statements name: of phase 9, a block's, and a step's. -/
def shape0 : Shape :=
  { ckpts := [{ idx := 1, kind := 0, core := 0, latest := 9 }, { idx := 2, kind := 4, aux := 5, step := 1, latest := 9 }, { idx := 3, kind := 2, onStep := true, latest := 9 }] }
/-- Partition 3 runs task 1 of that shape, `ph` phase units after its start. -/
def taskS (ph : Nat) (f : Part → Part) (s : State) : State :=
  { updPart 3 (fun x => f { x with state := .running, section_ := some { cores := [0], shapes := [shape0] }, task := some { num := 1, started := true } }) s with
      tick := { s.tick with now := ph / 65536, phase := ph % 65536 } }
/-- A stream with two receivers: neither holds its block 3; both hold block 4, the first alone with a block acknowledged by the second. -/
def stream (b : Nat) (acked : List Nat) : MStream := { mcid := 5, recv := [(0, 0), (0, 1)], sent := b, acked }
theorem wit_Multicast_send : let s := setPState 3 .running (taskS 0 (fun x => { x with mcast := [stream 3 [0, 0]] }) (running id))
    ((s.part 3).task.map Task.live) = some true ∧ streamOf (s.part 3) 5 = some (stream 3 [0, 0])
    ∧ holders (stream 3 [0, 0]) 3 = [] ∧ holders (stream 4 [0, 0]) 4 ≠ [] ∧ coreReachable s 3 0 = true
    ∧ (∀ t, (s.part 3).task = some t → blockCkpt (s.part 3) t 5 3 = none) := by
  refine ⟨by decide +kernel, by decide +kernel, by decide, by decide, by decide +kernel, ?_⟩
  intro t h; cases h; decide +kernel
/-- A fresh stream to two cores of a delivery list, and a block that has a checkpoint. -/
theorem wit_Multicast_fresh : (let s := setPState 3 .running (taskS 0 (fun x => { x with section_ := some { cores := [0], dlists := [(0, [0], 5)] } }) (running id))
      streamOf (s.part 3) 5 = none ∧ destsOf s 3 5 = [(0, 0xFF)] ∧ coreReachable s 3 0 = true ∧ (s.part 3).task.map Task.live = some true)
    ∧ (let s := taskS 0 (fun x => { x with mcast := [stream 1 [0, 0]] }) (running id)
       (s.part 3).task.bind (fun t => blockCkpt (s.part 3) t 5 1) = some { idx := 2, kind := 4, aux := 5, step := 1, latest := 9 }) := by decide +kernel
theorem wit_Multicast_lag : let s := taskS 10 (fun x => { x with mcast := [{ stream 1 [0, 0] with sent := 1 }] }) (running id)
    ((s.part 3).task.bind (fun t => (blockCkpt (s.part 3) t 5 1).map (fun k => decide (k.latest < taskPhase s t)))) = some true
    ∧ holders (stream 4 [0, 1]) 4 = [(0, 0)] := by decide +kernel

theorem wit_BellRings : TakesLine 0 hdr0 (running id)
    ∧ (let s := withPart id (running (fun x => { x with hold := .bell 65535 0 }))
       coresOf s 3 ≠ [] ∧ ∀ c ∈ coresOf s 3, (s.core c).running = true ∧ atBell (s.core c) = true ∧ earliestReached s c (bellMark (s.core c)).2 = true) := by
  unfold TakesLine; decide +kernel
theorem wit_LateWork :
    (let s := taskS 10 id State.reset
     (s.part 3).task.any (fun t => t.live && (ckptOf (s.part 3) t 1).any (fun k => !t.met.contains k.idx && decide (k.kind ≠ 6) && !k.onStep && !blockHeld (s.part 3) k && decide (k.latest < taskPhase s t))) = true)
    ∧ (let s := taskS 131082 id State.reset
       (s.part 3).task.any (fun t => t.live && (ckptOf (s.part 3) t 3).any (fun k => k.onStep && decide (k.latest + 131072 < taskPhase s t))) = true)
    ∧ (let s := taskS 131081 id State.reset
       (s.part 3).task.any (fun t => (ckptOf (s.part 3) t 3).any (fun k => decide (k.latest + 131072 < taskPhase s t))) = false) := by decide +kernel
/-- Checkpoint 4 ends step 1 of group 7, which no operation has done; no operation of this device waits on it. -/
theorem wit_LateWork_step : let sh : Shape := { ckpts := [{ idx := 4, kind := 6, aux := 7, step := 1, latest := 9 }] }
    ∀ gs, gs = [] ∨ gs = [({ gid := 7 } : Group)] →
      let s := taskS 131082 (fun x => { x with section_ := some { cores := [0], shapes := [sh] }, groups := gs }) State.reset
      (updPart 3 (fun x => { x with section_ := some { cores := [0], shapes := [sh] } }) s).part 3
        |> fun x => x.task.bind (fun t => ckptOf x t 4) = some { idx := 4, kind := 6, aux := 7, step := 1, latest := 9 }
        ∧ stepComplete x 7 1 = false ∧ (groupOfGid x 7).isSome = !gs.isEmpty ∧ gs.all (fun g => (stepPorts x g 1).isEmpty) = true ∧ 9 + 131072 < 131082 := by
  rintro sh gs (rfl | rfl) <;> decide +kernel
/-- A step whose only port has landed, and one that starved, which no member could have fed. -/
theorem wit_LateWork_ports : (stepLanded { stepGot := [{ step := 1, port := 7, gseq := 0, mem := 0, last := true }] } 1 (7, 0) = true)
    ∧ stepLanded {} 1 (7, 0) = false ∧ starvedBy State.reset {} 7 = none := by decide +kernel
theorem wit_LateWork_window : (((updPart 3 (fun x => { x with task := some { num := 1, started := true, window := some { causes := [{ code := 0x25 }], counted := 1 } } })
    State.reset).part 3).task.bind Task.window).isSome = true := by decide +kernel

/-! Links -/

/-- Port XP of the first of two devices of an axis, up. -/
def linkS (f : Port → Port) : State :=
  updImg (fun g => { g with dev := { g.dev with axes := [(2, false, 0)] } }) (updPort 0 (fun x => f { x with role := 5, state := .up }) State.reset)
def flit0 : Flit :=
  { (default : Flit) with head := true, fecOk := true, body := List.replicate 48 0, fseq := 4095 }
/-- A flit with its CRC. -/
def goodFlit (cls : BitVec 2) : Flit :=
  { flit0 with cls, crc := crc64 (leBytes 8 (flitHeader { flit0 with cls }) ++ flit0.body) }
theorem wit_FlitsReceived : let s := linkS (fun x => { x with rxSeq := 4095 })
    isLink (s.port 0) = true ∧ (s.port 0).state = .up ∧ flitGood flit0 = false ∧ flitGood (goodFlit 3) = true ∧ flitGood (goodFlit 2) = true
    ∧ (goodFlit 2).fseq.toNat = (s.port 0).rxSeq ∧ forMe s 0 (headDst (goodFlit 2)) = true ∧ ((linkS (fun x => { x with seeking := true })).port 0).seeking = true
    ∧ (goodFlit 2).fseq.toNat ≠ ((linkS (fun x => { x with seeking := true })).port 0).rxSeq := by decide +kernel
def far0 : DevAddr := { x := 1, y := 0, z := 0, level := 0 }
theorem wit_LinkStates : LogRoom State.reset
    ∧ (let x := (linkS (fun x => { x with naksRun := 16 })).port 0; isLink x = true ∧ x.state = .up ∧ 16 ≤ x.naksRun ∧ x.farId = none)
    ∧ (let s := { linkS (fun x => { x with state := .retraining }) with tick := { State.reset.tick with now := 10 } }
       nowNs s = (s.port 0).retrainNs + 1000000 ∧ (s.port 0).replay = [] ∧ (s.port 0).mq = [] ∧ (∀ i, (s.port i).transit = []))
    ∧ (let x := (linkS (fun x => { x with state := .training })).port 0; x.state = .training ∧ isEth x = false)
    ∧ trainOk (linkS id) 0 far0 1 0 = true ∧ trainOk (linkS id) 0 far0 0 0 = false
    ∧ arrives sbOwns .sb = true ∧ isOwner sbOwns .sb = true ∧ ((updPort 7 (fun x => { x with role := 4 }) sbOwns).port 7).role ≠ 0 := by
  unfold LogRoom; decide +kernel
def ctrlWrite : QWrite := { seq := 3, part := 0, rid := 0, epoch := 0, data := false }
def ethS : State :=
  updImg (fun g => { g with dev := { g.dev with eth := [{ port := 7, ecn := true, factor := 128, retries := 1, pfcPrio := 7 }] } })
    (updPort 7 (fun x => { x with role := 4, qps := [{ qp := 4095, unacked := [ctrlWrite] }] }) State.reset)
/-- The timer of the queue pair in its last nanosecond before the image's timeout of 1 µs, and at it. -/
def timerS (ns : Nat) : State :=
  updImg (fun g => { g with dev := { g.dev with eth := [{ port := 7, timeout := 1 }] } })
    (updTick (fun k => { k with now := 1, period := 5000 })
      (updPort 7 (fun x => { x with role := 4, qps := [{ qp := 4095, unacked := [ctrlWrite], sentNs := ns }] }) State.reset))
theorem wit_EthernetPorts_timer : nowNs (timerS 4001) < 4001 + 1000 * (ethCfg (timerS 4001) 7).timeout
    ∧ 4000 + 1000 * (ethCfg (timerS 4000) 7).timeout ≤ nowNs (timerS 4000) := by decide +kernel
theorem wit_EthernetPorts : isEth (ethS.port 7) = true ∧ qpOf (ethS.port 7) 4095 = some { qp := 4095, unacked := [ctrlWrite] }
    ∧ (∀ u ∈ [ctrlWrite], u.seq ≤ 3 ∧ u.data = false) ∧ (ethCfg ethS 7).ecn = true ∧ 0 < (ethCfg ethS 7).retries
    ∧ (ethCfg ethS 7).pfcPrio = (7 : Byte).toNat ∧ (7 : Byte).toNat < 8 := by decide +kernel
/-- A queue pair whose retries are spent, and one of an unknown number; the write of sequence 3 is not acknowledged up to 2. -/
theorem wit_EthernetPorts_spent : (let s := updPort 7 (fun x => { x with qps := [{ qp := 0, retries := 1, unacked := [ctrlWrite] }] }) ethS
      qpOf (s.port 7) 0 = some { qp := 0, retries := 1, unacked := [ctrlWrite] } ∧ (ethCfg s 7).retries ≤ 1 ∧ qpOf (s.port 7) 4095 = none)
    ∧ [ctrlWrite].filter (fun u => decide (u.seq ≤ 2)) = [] ∧ (ethCfg State.reset 7).ecn = false ∧ isEth (State.reset.port 0) = false
    ∧ (ethCfg ethS 7).pfcPrio ≠ (6 : Byte).toNat := by decide +kernel
/-- Partition 63 may write the first 64 bytes of near memory, of which the last 8 are an export receive region. -/
def windowS : State :=
  { updPart 63 (fun x => { x with section_ := some { windows := [(0, 64, 2)] } }) State.reset with
      mem := { State.reset.mem with regions := [{ base := 0, size := 64, cls := 7 }] } }
theorem wit_PacketWrites : let s := windowS
    linksOn s = true ∧ linksOn { s with pwr := { s.pwr with state := .p3 } } = false ∧ (s.part (pid 63)).section_ = some { windows := [(0, 64, 2)] }
    ∧ (inWindow { windows := [(0, 64, 2)] } 56 8 true && runValid s 56 8 && !runOffline s 56 8) = true
    ∧ (inWindow { windows := [(0, 64, 2)] } 57 8 true && runValid s 57 8 && !runOffline s 57 8) = false
    ∧ (∃ r ∈ s.mem.regions, r.cls = 7 ∧ inRegion r 56 = true ∧ inRegion r (56 + (8 - 1)) = true)
    ∧ Memory.wf s.mem.near ∧ Memory.wf s.mem.far := by decide +kernel
/-- Bit 63 of an address names its tier. -/
theorem wit_PacketWrites_tier : isFar 0x7FFFFFFFFFFFFFFF = false ∧ isFar 0x8000000000000000 = true ∧ Memory.wf (windowS.mem.near) ∧ Memory.wf (windowS.mem.far) := by
  decide +kernel
def hdrP : PktHdr := { (default : PktHdr) with dpart := 3, group := 0, task := 1, total := 64 }
def groupS (insts : List (Nat × Exch)) : State := taskS 0 (fun x => { x with groups := [{ gid := 0, members := [hdrP.src], insts }] }) State.reset
theorem wit_Pieces : linksOn (groupS []) = true ∧ linksOn (groupS [(0, { total := 64 })]) = true ∧ linksOn (groupS [(0, { total := 65 })]) = true ∧ hdrP.dpart.toNat < 64 ∧ pid hdrP.dpart.toNat = 3
    ∧ ((groupS [(0, { total := 64 })]).part 3).task = some { num := 1, started := true } ∧ hdrP.task.toNat = 1
    ∧ (groupOfGid ((groupS [(0, { total := 64 })]).part 3) hdrP.group.toNat).any (fun g => g.members.contains hdrP.src && (instOf g hdrP.gseq.toNat).any (fun e => pieceMatches e hdrP)) = true
    ∧ (groupOfGid ((groupS [(0, { total := 65 })]).part 3) hdrP.group.toNat).any (fun g => (instOf g hdrP.gseq.toNat).any (fun e => !pieceMatches e hdrP)) = true
    ∧ (groupOfGid ((groupS []).part 3) hdrP.group.toNat).any (fun g => (instOf g hdrP.gseq.toNat).isNone) = true
    ∧ ((groupS []).part 3).ops = [] ∧ ({ hdrP with task := 2 } : PktHdr).task.toNat ≠ 1 := by decide +kernel
theorem opInst_one {g : Group} {port slot : Nat} {o : TrigOp} {k : Nat} {i : Nat × Exch}
    (h : g.insts.filter (fun i => decide (i.2.op0 ≤ slot ∧ slot < i.2.op0 + i.2.nops)) = [i]) : opInst g port slot o k = some i := by
  simp only [opInst, h, List.reverse_cons, List.reverse_nil, List.nil_append, List.head?_cons]
  cases k / instReps port slot o <;> rfl
/-- A reduction that forwards waits for the acknowledgement of its first repetition; none waits for step 1. -/
def fwdG : Group := { gid := 0, members := [far0, far0], self := 1, insts := [(0, { ctype := 6, op0 := 5, nops := 1 })] }
def fwdS : State := taskS 0 (fun x => { x with groups := [fwdG], ops := [(0, 5, { op := 4, reps := 2, fired := 1 })] }) State.reset
theorem wit_Pieces_ack : groupOfGid (fwdS.part 3) 0 = some fwdG ∧ ({ hdrP with src := far0 } : PktHdr).task.toNat = 1 ∧ linksOn fwdS = true
    ∧ ackedOp fwdS 3 fwdG { hdrP with src := far0 } = some (0, 5, { op := 4, reps := 2, fired := 1 })
    ∧ ackedOp fwdS 3 fwdG { hdrP with src := far0, step := 1 } = none := by
  have h : (fwdS.part 3).ops = [(0, 5, { op := 4, reps := 2, fired := 1 })] := by decide +kernel
  have i : opInst fwdG 0 5 { op := 4, reps := 2, fired := 1 } 0 = some (0, { ctype := 6, op0 := 5, nops := 1 }) := opInst_one (by decide)
  have d : opDst fwdS fwdG { ctype := 6, op0 := 5, nops := 1 } { op := 4, reps := 2, fired := 1 } = some far0 := by decide +kernel
  refine ⟨by decide +kernel, by decide, by decide +kernel, ?_, ?_⟩
  · unfold ackedOp
    simp only [h, List.find?_cons, List.find?_nil, i, Option.bind_some, d]
    decide
  · unfold ackedOp
    simp only [h, List.find?_cons, List.find?_nil, i, Option.bind_some, d]
    decide
/-- A tile on its way from core 0 to port E1, for the last exchange descriptor. -/
def tileS : State := withPart (fun x => { x with tiles := [(0, 7, 511, [1, 2])], groups := [{ gid := 0 }] }) State.reset
theorem wit_TilesAndTriggers : (takeTile (0, 7, 511) (tileS.part 3).tiles).map (fun t => (t.1, t.2.length)) = some ([1, 2], 0) ∧ (tileS.part 3).section_ = some { cores := [0] }
    ∧ (groupOfGid (tileS.part 3) (exchAt (tileS.core 0).dstore 0 511).gid).isSome = true ∧ Memory.wf (tileS.part 3).xmem := by decide +kernel
def trigG : Group := { gid := 0, insts := [(0, { op0 := 1022, nops := 2 })] }
/-- A port whose two last slots hold reductions that may fire. -/
def trigS : State := taskS 0 (fun x => { x with groups := [trigG], ops := [(7, 1022, { op := 3, reps := 1 }), (7, 1023, { op := 3, reps := 1 })] }) State.reset
theorem trigS_inst (slot : Nat) (h : slot = 1022 ∨ slot = 1023) (o : TrigOp) (k : Nat) : opInst trigG 7 slot o k = some (0, { op0 := 1022, nops := 2 }) :=
  opInst_one (by rcases h with rfl | rfl <;> decide)
theorem tryFire_keeps {p : PartId} {port slot : Nat} {o : TrigOp} {g : Group} {i : Nat × Exch} {s : State} (hr : opReady (s.part p) port o = true)
    (hl : ((s.part p).task.map Task.live).getD false = true) (hg : groupOfGid (s.part p) o.gid = some g) (hi : opInst g port slot o o.fired = some i)
    (ho : o.op = 3) : (tryFire p port slot o s).isSome = true := by
  unfold tryFire
  simp [hr, hl, hg, hi, fireOp, ho]
theorem wit_TilesAndTriggers_fire : (trigS.part 3).ops.find? (fun q => q.1 == 7 && q.2.1 == 1022) = some (7, 1022, { op := 3, reps := 1 })
    ∧ (∀ q ∈ (trigS.part 3).ops, q.1 = 7 → 1022 ≤ q.2.1) ∧ (tryFire 3 7 1022 { op := 3, reps := 1 } trigS).isSome = true
    ∧ (∀ q ∈ (trigS.part 3).ops, ¬(q.1 = 7 ∧ q.2.1 = 0)) ∧ (trigS.part 3).task.any Task.live = true ∧ groupOfGid (trigS.part 3) 0 = some trigG
    ∧ opInst trigG 7 1022 { op := 3, reps := 1 } 0 = some (0, { op0 := 1022, nops := 2 }) ∧ unackedOf trigG 7 1022 0 { op := 3, reps := 1 } = none
    ∧ ctrOf (trigS.part 3) 7 0 = 0 ∧ takeTile (0, 7, 510) (tileS.part 3).tiles = none :=
  ⟨by decide +kernel, by decide +kernel, tryFire_keeps (g := trigG) (by decide +kernel) (by decide +kernel) (by decide +kernel) (trigS_inst 1022 (.inl rfl) _ _) rfl,
    by decide +kernel, by decide +kernel, by decide +kernel, trigS_inst 1022 (.inl rfl) _ _, by decide, by decide +kernel, by decide +kernel⟩
/-- A delivery list with a core that can be reached, and one without. -/
theorem wit_TilesAndTriggers_deliver : let o : TrigOp := { op := 5, reps := 1, dlist := 1 }
    (∀ c, c = 0 ∨ c = 127 → ∃ d, (withPart (fun x => { x with section_ := some { cores := [0], dlists := [(1, [c], 9)] } }) (running id)).part 3
        |> fun x => x.section_.bind (fun cfg => cfg.dlists.find? (fun d => d.1 == o.dlist)) = some d ∧ d.2.1 = [c])
    ∧ (let s := withPart (fun x => { x with section_ := some { cores := [0], dlists := [(1, [0], 9)] } }) (running id)
       coreReachable (deliverPiece 3 7 0 o [] s) 3 0 = true)
    ∧ (let s := withPart (fun x => { x with section_ := some { cores := [0], dlists := [(1, [127], 9)] } }) (running id)
       coreReachable (deliverPiece 3 7 0 o [] s) 3 127 = false) := by
  refine ⟨?_, by decide +kernel, by decide +kernel⟩
  rintro c (rfl | rfl)
  · exact ⟨(1, [0], 9), by decide +kernel, rfl⟩
  · exact ⟨(1, [127], 9), by decide +kernel, rfl⟩
theorem allocBase_only {mine : Region → Bool} {taken : List (Nat × Nat)} {n : Nat} {s : State} (b : W64)
    (hf : ((freePlaces s (taken ++ usedRuns s)).find? (mayPlace s false 5 mine (taken ++ usedRuns s) n)) = some b.toNat)
    (ho : ∀ a, a < 2 ^ 37 → mayPlace s false 5 mine (taken ++ usedRuns s) n a = true → a = b.toNat) :
    allocBase false 5 mine taken n s = (some b, { s with freeCtr := s.freeCtr + 1 }) := by
  unfold allocBase
  simp only [Bool.false_eq_true, if_false, hf]
  split
  · next h =>
    have := ho _ (by rw [BitVec.toNat_and]; exact Nat.lt_of_le_of_lt Nat.and_le_right (by decide)) h
    rw [BitVec.eq_of_toNat_eq this]
  · simp

theorem near_tier {a : Nat} (h : a < 2 ^ 37) : isFar a = false ∧ tierAddr a = a := by
  have e : isFar a = false := by
    simpa [isFar, bit] using Nat.testBit_lt_two_pow (Nat.lt_of_lt_of_le h (by decide : 2 ^ 37 ≤ 2 ^ 63))
  refine ⟨e, ?_⟩
  unfold tierAddr bits
  simp only [e, Bool.false_eq_true, if_false]
  omega

/-- A follower of a task of one sequence of one position, its pool two regions that just hold the sequence's block group and its table. -/
def msgModel : ModelCfg := { idx := 0, layers := 1, heads := 1 }
def msgS (k : Nat) : State :=
  { updMem (fun q => { q with regions := [{ cls := 5, part := 3, size := 16768 }, { idx := 1, cls := 5, part := 3, base := 2 ^ 20, size := 4288 }] })
      (updImg (fun g => { g with models := [msgModel] }) (updPart 3 (fun x => { x with section_ := some { span := 2, wstok := [(0, 0)] } }) State.reset)) with freeCtr := k }
theorem wit_MemberMessages_table : ((msgS 0).part 3).section_ = some { span := 2, wstok := [(0, 0)] } ∧ (msgS 0).img.models.find? (fun m => m.idx == 0) = some msgModel
    ∧ ((msgS 0).part 3).xtabs = [] ∧ (localEntry (msgS 0) msgModel { (default : LenEntry) with qlen := 1 }).qlen = 1
    ∧ groupBytes (msgS 0) msgModel false = 16768
    ∧ (allocRuns 3 [(0 + 1 + 63) / 64 * 16768, 4288] [] (msgS 0)).1 = some [0, 0x100000] := by
  have runs (k : Nat) : usedRuns (msgS k) = [] := by
    rw [show usedRuns (msgS k) = usedRuns (msgS 0) from rfl]; decide +kernel
  have place (k : Nat) (taken : List (Nat × Nat)) (n a : Nat) (ha : a < 2 ^ 37)
      (h : mayPlace (msgS k) false 5 (fun g => g.part == (3 : PartId).1) (taken ++ usedRuns (msgS k)) n a = true) :
      (a + n ≤ 16768 ∨ 0x100000 ≤ a ∧ a + n ≤ 0x100000 + 4288) ∧ ∀ u ∈ taken, a + n ≤ u.1 ∨ u.1 + u.2 ≤ a := by
    rw [runs k] at h
    obtain ⟨e, t⟩ := near_tier ha
    simp [mayPlace, e, t, show (msgS k).mem.regions = [_, _] from rfl] at h
    exact ⟨h.1, fun u hu => h.2 u.1 u.2 hu⟩
  have h0 : allocBase false 5 (fun g => g.part == (3 : PartId).1) [] 16768 (msgS 0) = (some 0, msgS 1) :=
    allocBase_only 0 (by decide +kernel) (fun a ha h => by have := place 0 _ _ a ha h; simp at this ⊢; omega)
  have h1 : allocBase false 5 (fun g => g.part == (3 : PartId).1) [(0, 16768)] 4288 (msgS 1) = (some 0x100000, msgS 2) :=
    allocBase_only 0x100000 (by decide +kernel) (fun a ha h => by have := place 1 _ _ a ha h; simp at this ⊢; omega)
  refine ⟨by decide +kernel, by decide +kernel, by decide +kernel, by decide +kernel, by decide +kernel, ?_⟩
  show (allocRuns 3 [16768, 4288] [] (msgS 0)).1 = _
  simp only [allocRuns, h0]
  rw [show ((0 : W64).toNat, 16768) = (0, 16768) from rfl, h1]
  rfl
theorem wit_MemberMessages : linksOn State.reset = true ∧ linksOn (taskS 0 id State.reset) = true ∧ ((taskS 0 id State.reset).part 3).task = some { num := 1, started := true }
    ∧ ({ num := 1, started := true } : Task).prepared.contains far0 = false ∧ ({ num := 1, started := true } : Task).live = true
    ∧ (groupOfGid ((updPart 3 (fun x => { x with groups := [{ gid := 255, members := [far0], check := 5 }] }) State.reset).part 3) (255 : Byte).toNat).map (fun g => (g.members.contains far0, g.check))
      = some (true, 5) ∧ State.reset.sec.state = (0 : Byte).toNat ∧ (1 : Byte).toNat ≠ State.reset.sec.state
    ∧ ((updPart 3 (fun x => { x with section_ := some { span := 2 } }) State.reset).part 3).section_ = some { span := 2 } ∧ State.reset.tick.now ≤ (0 : W64).toNat
    ∧ (State.reset.part 3).task = none ∧ (groupOfGid (State.reset.part 3) 255).isNone = true ∧ (0 : W64).toNat < ({ State.reset with tick := { State.reset.tick with now := 1 } }).tick.now
    ∧ linksOn { State.reset with pwr := { State.reset.pwr with state := .p3 } } = false ∧ (∀ t ∈ (State.reset.part 3).doneTasks, t.num ≠ 0) := by decide +kernel
theorem wit_MemberMessages_notice : (let t : Task := { num := 1, started := true, ended := true }
      let s := updPart 3 (fun x => { x with task := some t }) State.reset
      (s.part 3).task = some t ∧ t.live = false ∧ t.window = none)
    ∧ (let s := taskS 0 (fun x => { x with doneTasks := [{ num := 7 }] }) State.reset
       (∀ t, (s.part 3).task = some t → t.num ≠ 7) ∧ (s.part 3).doneTasks.find? (fun t => t.num == 7) = some { num := 7 } ∧ (0x27 : W64) ≠ 0x24
       ∧ ∀ t ∈ (s.part 3).doneTasks, t.num ≠ 8) := by
  refine ⟨by decide +kernel, ?_, by decide +kernel, by decide, by decide +kernel⟩
  intro t h; cases h; decide
def suspectS (now : Nat) (q : Suspect) : State :=
  { updFlt (fun f => { f with suspects := f.suspects.set 63 (some q) }) State.reset with tick := { State.reset.tick with now } }
theorem wit_Suspects : (let s := suspectS 16 { rep := { (default : SuspectRep) with count := 1 } }
       LogRoom s ∧ linksOn s = true ∧ s.flt.suspects[(63 : Fin 64)] = some { rep := { (default : SuspectRep) with count := 1 } } ∧ 0 + 16 ≤ s.tick.now
       ∧ ((List.finRange 64).find? (fun e => (s.flt.suspects[e]).any (fun q => sameDev q.rep.suspect (default : SuspectRep).suspect && q.rep.res == (default : SuspectRep).res)) = some 63)
       ∧ s.flt.accLog = [])
    ∧ (suspectS 15 {}).tick.now < 0 + 16 ∧ 0 + 1024 ≤ (suspectS 1024 {}).tick.now ∧ ({} : Suspect).rep.count = 0 := by
  unfold LogRoom; decide +kernel

/-- An empty table has a slot for a new suspect; a table of reports of this tick has none; at tick 16 the slot of the oldest is taken. -/
theorem wit_Suspects_new : let full (now : Nat) : State :=
      { updFlt (fun f => { f with suspects := Vector.replicate 64 (some {}) }) State.reset with tick := { State.reset.tick with now } }
    suspectSlot State.reset = some 0 ∧ linksOn (full 15) = true ∧ suspectSlot (full 15) = none ∧ suspectSlot (full 16) = some 0
    ∧ (∀ k : Fin 64, ((full 15).flt.suspects[k]).any (fun q => sameDev q.rep.suspect far0 && q.rep.res == 0) = false) := by decide +kernel
theorem wit_ScaleBytes : (0xFE : Byte) ≠ 0xFF := by decide
theorem wit_ClampsWhateverRounding : isMX 0x0C = true ∧ 0 < 2 ∧ 0 < 4 ∧ 3 * 4 = 6 * 2 := by decide
theorem wit_BlockSums_nan : hasNan (.nan, .fin 0) ∧ isNan32 0x7F800001 = true ∧ isNan32 0xFFFFFFFF = true := ⟨.inl rfl, by decide, by decide⟩
theorem wit_BlockSums_inf : ¬hasNan (.inf true, .fin 0) ∧ infTimesZero (.inf true, .fin 0) ∧ ¬infTimesZero (.inf true, .fin 1) ∧ infProduct (.inf true, .fin 1) true
    ∧ infProduct (.inf true, .fin (-1)) false ∧ ¬infProduct (.inf true, .fin 1) false ∧ isNan32 0 = false ∧ isZero32 0x80000000 = true ∧ isZero32 1 = false := by
  refine ⟨by simp [hasNan], .inl ⟨true, rfl, rfl⟩, by simp [infTimesZero], .inr (.inl ⟨true, 1, rfl, rfl, by decide, by decide⟩),
    .inr (.inl ⟨true, -1, rfl, rfl, by decide, by decide⟩), by simp [infProduct], by decide, by decide, by decide⟩
theorem wit_BlockSums_finite : (∀ sg, ¬infProduct (.fin 3, .fin (-2)) sg) ∧ ¬hasNan (.fin 3, .fin (-2)) ∧ ¬infTimesZero (.fin 3, .fin (-2)) ∧ exactProduct (.fin 3, .fin (-2)) ≠ 0
    ∧ exactProduct (.fin 0, .fin 1) = 0 ∧ isInf32 0x7F800000 = true ∧ isInf32 0x7F7FFFFF = false
    ∧ dec32 0x7F7FFFFF = .fin false 0xFFFFFF 104 ∧ dec32 1 = .fin false 1 (-149) := by
  refine ⟨by simp [infProduct], by simp [hasNan], by simp [infTimesZero], by decide, by decide, by decide, by decide, by decide, by decide⟩

/-- The second pass of a BF16-split slice of one row, on core 0 in a partition whose budgets cover the pass and no more, or lack a unit. -/
def splitE : MMEntry := { body := { mm0 with af := 0x12, wf := 0x12, mode := 1 }, sub := 1 }
def passS (lack : Nat) (q : MMEntry) : State :=
  withPart (fun x => { x with budgets := (x.budgets.set 0 { x.budgets[0] with counter := 2 - lack }).set 6 { x.budgets[6] with counter := Config.energyOf 0 * 16384 * 1100 / 1000 } })
    { running (fun x => { x with eng := x.eng.set 0 { (x.eng[0]) with queue := [q] } }) with img := { State.reset.img with disabled := [] } }
theorem wit_MatrixPasses : (∀ q, q = splitE ∨ q = { body := { mm0 with keep := true } } ∨ q = { body := { mm0 with acc := true } } →
      (((passS 0 q).core 0).eng[(0 : Fin 4)]).queue.find? (fun q => !q.done) = some q ∧ passReady (passS 0 q) 0 0 q = true ∧ partOfCore (passS 0 q) 0 = some 3)
    ∧ halfUndefined (((passS 0 {}).core 0).eng[(0 : Fin 4)]) { body := { mm0 with acc := true } } = true := by
  refine ⟨?_, by decide +kernel⟩
  rintro q (rfl | rfl | rfl) <;> decide +kernel
/-- An entry that a fence holds back, a skipped tile, and the first pass of a slice that starts its halves anew. -/
theorem wit_MatrixPasses_first : (let s := updCore 0 (fun x => { x with scq := [{}] }) (passS 0 { splitE with id := 1 }); passReady s 0 0 { splitE with id := 1 } = false)
    ∧ (let q : MMEntry := { skip := true, body := mm0 }; passReady (passS 0 q) 0 0 q = true ∧ q.skip = true)
    ∧ halfUndefined (((passS 0 {}).core 0).eng[(0 : Fin 4)]) { body := mm0 } = false := by decide +kernel
/-- An engine without an unfinished instruction: idle, and with a pass that an abort stopped. -/
theorem wit_MatrixPasses_late : ((State.reset.core 0).eng[(0 : Fin 4)]).queue.find? (fun q => !q.done) = none
    ∧ (let g := ((updEngine 0 0 (fun g => { g with stopped := some {} }) State.reset).core 0).eng[(0 : Fin 4)]
       g.queue.find? (fun q => !q.done) = none ∧ g.stopped = some {}) := by decide +kernel
/-- The pass runs where its budgets cover it, and is held where one lacks a unit: the statement's charge is decided by these comparisons. -/
theorem wit_MatrixPasses_charge (k : Nat) : ((passS k splitE).part 3).budgets[0].counter = 2 - k
    ∧ ((passS k splitE).part 3).budgets[6].counter = Config.energyOf 0 * 16384 * 1100 / 1000 := by
  simp [passS, withPart]
theorem wit_MatrixPasses_plan : (planOf splitE.body false).length = 3 ∧ 0 < splitE.sub ∧ mRows splitE = 1 ∧ passSlot splitE.body 1 [] = 2 := by decide +kernel
theorem addTo_bad (init : Nat → Nat → W32) (m n : Nat) (b : W32) (dst : Bool × Bool) (p : PassSt) : (addTo init m n b dst p).bad = p.bad := by
  unfold addTo; cases dst.1 <;> rfl
theorem foldl_bad {α : Type} (f : PassSt → α → PassSt) (h : ∀ p x, (f p x).bad = p.bad) (l : List α) (p : PassSt) : (l.foldl f p).bad = p.bad := by
  induction l generalizing p with
  | nil => rfl
  | cons x l ih => rw [List.foldl_cons, ih, h]
theorem taster_empty (ts : List (Option Int)) (cols : List (List Elem)) : taster [] ts (cols.map (bsum [])) 0 ≠ some false := by
  have h : (cols.map (bsum [])).map BSum.sum = List.replicate cols.length 0 := by
    rw [List.map_map]; exact List.eq_replicate_iff.2 ⟨by simp, by simp [bsum]⟩
  unfold taster
  split
  · simp
  · rw [h]; simp
/-- A pass with nothing staged and no upset meets no failed row check. -/
theorem wit_MatrixPasses_bad (ctr : Nat) (x : Core) (en : Fin 4) (e : MMEntry) (w : WTile) : (passEval ctr x en e [] w none).bad = none := by
  unfold passEval
  simp only
  unfold runPass
  rw [foldl_bad]
  intro p m
  rw [foldl_bad]
  rintro p ⟨b, cs⟩
  simp only [List.getD_nil]
  unfold passBlock
  rw [foldl_bad]
  · have h := taster_empty ((w.taster.drop (32 * b.2.2)).take 32) cs
    have e : ((({} : ARow).elems.drop (32 * b.2.1)).take 32) = [] := by simp
    rw [e]
    split
    · rfl
    · rfl
    · contradiction
  · rintro p ⟨sm, n⟩
    simp only
    rw [foldl_bad]
    intro p x
    exact addTo_bad _ _ _ _ _ _

/-! Serving -/

/-- VF 4 may submit to partition 3: the last slot of its submission ring is next, and its journal ring has just room. -/
def vf4 (f : Func → Func) (s : State) : State :=
  updFunc 4 (fun g => f { g with en := true, sqLog := 4, sqHead := 15, sqTail := 0, cqLog := 4, jqLog := 4, jqRel := 7, jqCount := 14 }) s
def serveS (f : Part → Part) : State :=
  vf4 id (updImg (fun g => { g with models := [{ idx := 0, layers := 1, heads := 1, ropeLen := 4096, maxLen := 4096 }] })
    (updPart 3 (fun x => f { x with state := .halted, section_ := some { cores := [0] } }) State.reset))
def desc0 (opc : Byte) : SubDesc :=
  { (default : SubDesc) with reqid := 9, opc, prio := 3, path := 3, flags := 7, domain := 0xFFFF, ntok := 1, session := if opc = 1 then 0 else 5, rsv0 := true, variant := if opc = 5 then 1 else 0 }
theorem wit_Doorbells : (let s := vf4 id (updPart 3 (fun x => { x with state := .halted }) State.reset)
      s.pwr.state = .p0 ∧ (s.func 4).en = true ∧ (s.part (partOfFunc s 4)).state = .halted
      ∧ (15 : W64).toNat = ((s.func 4).jqRel + 8) % 2 ^ (s.func 4).jqLog ∧ 8 < 2 ^ (s.func 4).jqLog ∧ findReq (s.part (partOfFunc s 4)) 4 9 = none
      ∧ (∀ h ∈ (s.func 4).heldCancels, h.reqid ≠ 9))
    ∧ (let s := vf4 (fun g => { g with cqRel := 9, cqTail := 24, jqCount := 22 }) State.reset
       (8 : W64).toNat = ((s.func 4).cqRel + 15) % 2 ^ (s.func 4).cqLog ∧ 15 < 2 ^ (s.func 4).cqLog ∧ (s.func 4).cqRel + 15 ≤ (s.func 4).cqTail
       ∧ (6 : W64).toNat = ((s.func 4).jqRel + 15) % 2 ^ (s.func 4).jqLog ∧ (s.func 4).jqRel + 15 ≤ (s.func 4).jqCount)
    ∧ (let s := vf4 (fun g => { g with cqRel := 9, cqTail := 23, jqCount := 21 }) State.reset; (s.func 4).cqTail < (s.func 4).cqRel + 15 ∧ (s.func 4).jqCount < (s.func 4).jqRel + 15)
    ∧ 2 ^ ((vf4 id State.reset).func 4).cqLog ≤ (16 : W64).toNat ∧ 2 ^ ((vf4 id State.reset).func 4).jqLog ≤ (16 : W64).toNat
    ∧ (let s := { pfOwns with pwr := { State.reset.pwr with state := .p3 } }; isOwner s .pf0 = true ∧ s.pwr.state ≠ .p4)
    ∧ ({ pfOwns with pwr := { State.reset.pwr with state := .p4 } }).pwr.state = .p4 ∧ (State.reset.func 4).en = false ∧ isOwner sbOwns .pf0 = false := by decide +kernel
/-- A request of VF 4 in each state that a cancel may find it in. -/
theorem wit_Doorbells_cancel (st : RState) : let s := updPart 3 (fun x => { x with reqs := [{ rid := 1, func := 4, desc := desc0 1, state := st }] }) State.reset
    findReq (s.part (partOfFunc s 4)) (4 : FuncId).1 9 = some { rid := 1, func := 4, desc := desc0 1, state := st } ∧ s.pwr.state ≠ .p3 := by
  cases st <;> decide +kernel
/-- A request that has its code already. -/
theorem wit_Doorbells_coded : let r : Req := { rid := 1, func := 4, desc := desc0 1, code := some 0x31 }
    let s := updPart 3 (fun x => { x with reqs := [r] }) State.reset
    findReq (s.part (partOfFunc s 4)) (4 : FuncId).1 9 = some r ∧ r.code ≠ none := by decide +kernel
theorem wit_Submissions_forms : formReason (serveS id) 4 { desc0 5 with prio := 4 } 5 = some 1 ∧ formReason (serveS id) 4 { desc0 5 with ntok := 0 } 5 = none
    ∧ sessReason (serveS id) 4 (desc0 3) 3 = some 6 ∧ sessReason (serveS id) 4 (desc0 4) 4 = some 6 ∧ canRead (serveS id) 4 = true
    ∧ (takeSlotFor 3 (serveS id)).isNone = true ∧ (takeSlotFor 3 (serveS (fun x => { x with vslots := 1 }))).isSome = true
    ∧ (let s := serveS (fun x => { x with versions := [{ variant := 1, resident := true }] })
       (s.part 3).versions.any (fun w => w.variant == (desc0 5).variant.toNat && w.version == (desc0 5).version.toNat && (w.resident || w.loading)) = true) := by
  decide +kernel
theorem wit_Submissions_requests : canRead (serveS id) 4 = true ∧ requestReason (serveS id) 4 (desc0 1) 1 true true = none
    ∧ requestReason (serveS (fun x => { x with sessions := [{ handle := 5 }] })) 4 (desc0 2) 2 true true = none
    ∧ requestReason (serveS id) 4 { desc0 1 with prio := 4 } 1 true true = some 1 ∧ requestReason (serveS id) 4 (desc0 2) 2 true true = some 6 := by decide +kernel
theorem wit_Submissions_sessions (b : Bool) : let s := serveS (fun x => { x with sessions := [{ handle := 5, busy := b }], vslots := 1 })
    canRead s 4 = true ∧ sessReason s 4 (desc0 3) 3 = none ∧ sessReason s 4 (desc0 4) 4 = none ∧ sessionOf (s.part (partOfFunc s 4)) (desc0 3).session = some { handle := 5, busy := b }
    ∧ formReason s 4 (desc0 5) 5 = none ∧ (desc0 5).ntok ≠ 0 ∧ (desc0 5).variant ≠ 0 ∧ (∀ w ∈ (s.part (partOfFunc s 4)).versions, w.variant ≠ 1)
    ∧ (s.part (partOfFunc s 4)).versions.countP (fun w => w.resident || w.loading) < (s.part (partOfFunc s 4)).vslots := by
  cases b <;> decide +kernel
/-- The version slots of partition 3: of `n` bytes each, in far region 7, whose port is in service or, past the last port, is not. -/
def slotS (n : Nat) (ports : List Nat) : State :=
  updMem (fun m => { m with regions := [{ idx := 7, far := true, ports }], cxl := m.cxl.set 0 { m.cxl[0] with up := true } })
    (updImg (fun g => { g with dev := { g.dev with vslots := [(3, n, 1, 7)] } }) (serveS (fun x => { x with vslots := 1 })))
theorem wit_Submissions_slots : slotsOffline (slotS 4 [0]) 3 = false ∧ slotRun (slotS 4 [0]) 3 0 = some (2 ^ 63, 4) ∧ ¬ 4 < (desc0 5).ntok.toNat * 4
    ∧ slotRun (slotS 3 [0]) 3 0 = some (2 ^ 63, 3) ∧ 3 < (desc0 5).ntok.toNat * 4 ∧ slotsOffline (slotS 4 [9]) 3 = true
    ∧ (takeSlotFor 3 (slotS 4 [0])).map Prod.fst = some 0 ∧ 0 < ((slotS 4 [0]).part 3).vslots ∧ ((slotS 4 [0]).part 3).versions = []
    ∧ canRead (slotS 4 [0]) 4 = true ∧ formReason (slotS 4 [0]) 4 (desc0 5) 5 = none ∧ (desc0 5).variant ≠ 0
    ∧ (takeSlotFor 3 (updPart 3 (fun x => { x with vslots := 0 }) (slotS 4 [0]))).isNone = true := by decide +kernel
def req0 : Req := { rid := 1, func := 4, desc := desc0 1 }
def reqS (r : Req) : State := serveS (fun x => { x with reqs := [r] })
theorem wit_RequestRecords : ((reqS req0).part (partOfFunc (reqS req0) 4)).reqs.find? (fun r => r.func == 4 && r.state == .reading) = some req0
    ∧ (reqS req0).pwr.state = .p0 ∧ ((reqS req0).func 4).heldCancels = [] ∧ ((reqS req0).func 4).en = true
    ∧ (let s := updFunc 4 (fun g => { g with en := false }) (reqS req0); (s.func 4).en = false)
    ∧ (let s := vf4 (fun g => { g with waiting := [{ cseq := 17 }], cqRel := 1 }) State.reset
       (s.func 4).waiting = [{ cseq := 17 }] ∧ (s.func 4).cqRel < 17 ∧ 17 ≤ (s.func 4).cqRel + 2 ^ (s.func 4).cqLog)
    ∧ (let s := vf4 (fun g => { g with waiting := [{ cseq := 17 }], cqRel := 0 }) State.reset; (s.func 4).cqRel + 2 ^ (s.func 4).cqLog < 17) := by decide +kernel
theorem wit_RequestRecords_held : (let s := updFunc 4 (fun g => { g with heldCancels := [{ reqid := 9 }] }) (reqS req0); ∃ h ∈ (s.func 4).heldCancels, h.reqid = req0.desc.reqid)
    ∧ (let s := vf4 (fun g => { g with waiting := [{ cseq := 17 }], cqRel := 17 }) State.reset; (s.func 4).waiting = [{ cseq := 17 }] ∧ 17 ≤ (s.func 4).cqRel) := by
  decide +kernel
theorem wit_RequestRecords_reading : let s (l : List Req) := updFunc 4 (fun g => { g with heldCancels := [{ reqid := 9 }] }) (updPart 3 (fun x => { x with reqs := l }) (reqS req0))
    (((s [req0]).part (partOfFunc (s [req0]) 4)).reqs.any (fun r => r.func == 4 && r.desc.reqid == 9 && r.state == .reading)) = true
    ∧ (((s []).part (partOfFunc (s []) 4)).reqs.any (fun r => r.func == 4 && r.desc.reqid == 9 && r.state == .reading)) = false := by decide +kernel
theorem wit_RequestRecords_cancels : (let s := { vf4 (fun g => { g with heldCancels := [{ reqid := 9, tick := 1 }] }) State.reset with tick := { State.reset.tick with now := 1025 } }
      ∃ h ∈ (s.func 4).heldCancels, h.tick + 1024 = s.tick.now)
    ∧ (let r : Req := { req0 with desc := { desc0 1 with path := 2 }, cancelled := true, segSent := 2, segAcked := 2 }
       reqFor ((reqS r).part 3) cancelDue 9 = some r ∧ r.cancelled = true ∧ r.cancelSent = false ∧ r.segAcked = r.segSent ∧ r.desc.path ≠ 3)
    ∧ ((taskS 0 id State.reset).part 3).task.map Task.num = some (1 : W32).toNat ∧ linksOn (taskS 0 id State.reset) = true := by decide +kernel

/-- One pending request, and the shape of the partition that just holds it. -/
def pendS (l : List Req) : State :=
  updPart 3 (fun x => { x with state := .running, section_ := some { cores := [0], shapes := [{ rows := 1, area := 1, dur := 1 }] }, freeNear := 65536, reqs := l })
    (updMem (fun q => { q with regions := [{ cls := 5, part := 3, size := 65536 }] }) <| updTick (fun k => { k with state := .locked, now := 7 }) (serveS id))
def admModel : ModelCfg := { idx := 0, layers := 1, heads := 2, ropeLen := 4096, maxLen := 4096, keepers := [(0, 8, 8, [1])] }
def admReq : Req := { req0 with state := .pending, desc := { desc0 1 with goal := 13 } }
/-- A pool of three regions that just hold the request's block group, keeper stores and table. -/
def admS : State :=
  updMem (fun q => { q with regions := [{ cls := 5, part := 3, size := 49536 }, { idx := 1, cls := 5, part := 3, base := 2 ^ 20, size := 8320 },
      { idx := 2, cls := 5, part := 3, base := 2 ^ 21, size := 4288 }] })
    (updImg (fun g => { g with models := [admModel] }) (pendS [admReq]))
def admT (k : Nat) : State := { updReq 3 admReq (fun q => { q with evaluated := true, qpos := 0, qlen := admReq.desc.ntok.toNat }) (updPart 3 (fun x => { x with admTick := some 7 }) admS) with freeCtr := k }

theorem admT_runs (k : Nat) : usedRuns (admT k) = [] := by
  have : usedRuns (admT k) = usedRuns (admT 0) := rfl
  rw [this]; decide +kernel

theorem admT_alloc : allocRuns 3 [49536, 8320, 4288] [] (admT 0) = (some [0, 0x100000, 0x200000], admT 3) := by
  have place (k : Nat) (taken : List (Nat × Nat)) (n a : Nat) (ha : a < 2 ^ 37) (h : mayPlace (admT k) false 5 (fun g => g.part == (3 : PartId).1) (taken ++ usedRuns (admT k)) n a = true) :
      (a + n ≤ 49536 ∨ 0x100000 ≤ a ∧ a + n ≤ 0x100000 + 8320 ∨ 0x200000 ≤ a ∧ a + n ≤ 0x200000 + 4288) ∧ ∀ u ∈ taken, a + n ≤ u.1 ∨ u.1 + u.2 ≤ a := by
    rw [admT_runs k] at h
    obtain ⟨e, t⟩ := near_tier ha
    simp [mayPlace, e, t, show (admT k).mem.regions = [_, _, _] from rfl] at h
    exact ⟨h.1, fun u hu => h.2 u.1 u.2 hu⟩
  have h0 : allocBase false 5 (fun g => g.part == (3 : PartId).1) [] 49536 (admT 0) = (some 0, admT 1) :=
    allocBase_only 0 (by decide +kernel) (fun a ha h => by have := place 0 _ _ a ha h; simp at this ⊢; omega)
  have h1 : allocBase false 5 (fun g => g.part == (3 : PartId).1) [(0, 49536)] 8320 (admT 1) = (some 0x100000, admT 2) :=
    allocBase_only 0x100000 (by decide +kernel) (fun a ha h => by have := place 1 _ _ a ha h; simp at this ⊢; omega)
  have h2 : allocBase false 5 (fun g => g.part == (3 : PartId).1) [(0x100000, 8320), (0, 49536)] 4288 (admT 2) = (some 0x200000, admT 3) :=
    allocBase_only 0x200000 (by decide +kernel) (fun a ha h => by have := place 2 _ _ a ha h; simp at this ⊢; omega)
  simp only [allocRuns, h0]
  rw [show ((0 : W64).toNat, 49536) = (0, 49536) from rfl, h1]
  simp only
  rw [show ((0x100000 : W64).toNat, 8320) = (0x100000, 8320) from rfl, h2]
  rfl

theorem admT_alloc' (l : List Nat) (h : l = [49536, 8320, 4288]) : allocRuns 3 l [] (admT 0) = (some [0, 0x100000, 0x200000], admT 3) := h ▸ admT_alloc

theorem evalAll_one (p : PartId) (cfg : PCfg) (start num : Nat) (r : Req) (s : State) : evalAll p cfg start num [r] s = evalReq p cfg start num {} r s := rfl
theorem evalReq_admits {p : PartId} {cfg : PCfg} {start num : Nat} {b : Batch} {q r : Req} {m : ModelCfg} {s u : State}
    (hq : reqNow s p q = r) (hm : s.img.models.find? (fun m => m.idx == r.desc.model.toNat) = some m) (hr : isRetry r = false)
    (h1 : checkTime s p r = .pass) (h2 : checkService s p m r = .pass) (h3 : checkVariant p r s = (.pass, s)) (h4 : checkSize s p m r = .pass)
    (hu : firstEval p r s = u) (hr' : isRetry (reqNow u p r) = false) (h6 : checkGoal cfg start b.rows b.area (reqNow u p r) = .pass) (hn : u.mem.nodes = [])
    (h7 : checkDefer u p cfg m b.rows b.area (b.iso || ((reqNow u p r).isolate && !b.entries.isEmpty)) (reqNow u p r) = .pass) :
    evalReq p cfg start num b q s = (match admitReq p m num b (reqNow u p r) u with
      | some x => x
      | none => (b, ruleOn p (reqNow u p r) (.defer .memory) u)) := by
  unfold evalReq placeReq
  simp only [hq, hm, h1, h2, h3, hr, h4, hu, hr', h6, hn, evictNodes, h7, List.length_nil, ne_eq, not_true_eq_false, if_false, Bool.false_eq_true, Verdict.orElse']
  all_goals (cases admitReq p m num b (reqNow u p r) u <;> rfl)

theorem checkVariant_plain {p : PartId} {r : Req} {s : State} {ver : Nat} (hb : bindVersion (s.part p) r = some ver) (ho : r.desc.opc ≠ 2#8)
    (hv : r.desc.variant.toNat = 0) : checkVariant p r s = (.pass, s) := by
  simp [checkVariant, hb, ho, hv]
theorem firstEval_plain {p : PartId} {r : Req} {s : State} (he : spanFixed r = false) (ho : r.desc.opc ≠ 2#8) (hd : s.mem.domains = []) :
    firstEval p r s = updReq p r (fun q => { q with evaluated := true, qpos := 0, qlen := r.desc.ntok.toNat }) s := by
  have e : spanOf (s.part p) r = (0, r.desc.ntok.toNat) := by unfold spanOf; rw [he]; simp [ho]
  unfold firstEval
  simp [he, ho, hd, e]

theorem wit_TaskLife_admission :
    let cfg : PCfg := { cores := [0], shapes := [{ rows := 1, area := 1, dur := 1 }] }
    (admS.part 3).section_ = some cfg ∧ (admS.part 3).state = .running ∧ cfg.span ≠ 2 ∧ (admS.part 3).admTick ≠ some admS.tick.now
    ∧ (let s1 := updPart 3 (fun x => { x with admTick := some admS.tick.now }) admS
       let r := evalAll 3 cfg (nextStart s1 (s1.part 3)) 1 (sortReqs ((s1.part 3).reqs.filter (fun r => decide (r.state = .pending) && r.code.isNone))) s1
       r.1.entries ≠ [] ∧ fitShape cfg r.1.rows r.1.area = some { rows := 1, area := 1, dur := 1 }) := by
  refine ⟨by decide +kernel, by decide +kernel, by decide, by decide +kernel, ?_⟩
  intro s1 r
  have e : r = evalReq 3 { cores := [0], shapes := [{ rows := 1, area := 1, dur := 1 }] } (nextStart s1 (s1.part 3)) 1 {} admReq s1 := by
    have l : sortReqs ((s1.part 3).reqs.filter (fun r => decide (r.state = .pending) && r.code.isNone)) = [admReq] := by decide +kernel
    exact (congrArg (fun l => evalAll 3 _ _ 1 l s1) l).trans (evalAll_one _ _ _ _ _ _)
  have a : admitReq 3 admModel 1 {} (reqNow (admT 0) 3 admReq) (admT 0) ≠ none ∧ ∀ x, admitReq 3 admModel 1 {} (reqNow (admT 0) 3 admReq) (admT 0) = some x →
      x.1.entries ≠ [] ∧ x.1.rows = 1 ∧ x.1.area = 1 := by
    unfold admitReq allocTable
    simp only
    split
    · next heq =>
      rw [admT_alloc' _ (by decide +kernel)] at heq
      obtain ⟨h1, rfl⟩ := Prod.mk.inj heq
      simp only [Option.some.injEq, List.cons.injEq, and_true] at h1
      obtain ⟨rfl, rfl, rfl⟩ := h1
      refine ⟨by simp, ?_⟩
      intro x hx
      cases hx
      exact ⟨by simp, by decide +kernel, by decide +kernel⟩
    · next h => exact absurd (admT_alloc' _ (by decide +kernel)) (h _ _ _ _)
  have v : r = (match admitReq 3 admModel 1 {} (reqNow (admT 0) 3 admReq) (admT 0) with
      | some x => x
      | none => ({}, ruleOn 3 (reqNow (admT 0) 3 admReq) (.defer .memory) (admT 0))) :=
    e.trans (evalReq_admits (by decide +kernel) (by decide +kernel) (by decide +kernel) (by decide +kernel) (by decide +kernel)
      (checkVariant_plain (ver := 0) (by decide +kernel) (by decide +kernel) (by decide +kernel)) (by decide +kernel)
      ((firstEval_plain (by decide +kernel) (by decide +kernel) (by decide +kernel)).trans rfl : firstEval 3 admReq s1 = admT 0) (by decide +kernel) (by decide +kernel) (by decide +kernel) (by decide +kernel))
  cases hx : admitReq 3 admModel 1 {} (reqNow (admT 0) 3 admReq) (admT 0) with
  | none => exact absurd hx a.1
  | some x =>
    rw [hx] at v
    obtain ⟨h1, h2, h3⟩ := a.2 x hx
    refine ⟨v ▸ h1, ?_⟩
    rw [v, h2, h3]
    decide +kernel
/-- A goal of one tick less refuses the request, and nothing is admitted. -/
theorem wit_TaskLife_none : let s := pendS [{ req0 with state := .pending, desc := { desc0 1 with goal := 12 } }]
    let cfg : PCfg := { cores := [0], shapes := [{ rows := 1, area := 1, dur := 1 }] }
    (let s1 := updPart 3 (fun x => { x with admTick := some s.tick.now }) s
     (evalAll 3 cfg (nextStart s1 (s1.part 3)) 1 (sortReqs ((s1.part 3).reqs.filter (fun r => decide (r.state = .pending) && r.code.isNone))) s1).1.entries = []) := by
  decide +kernel
theorem wit_TaskLife_start : (let s := updPart 3 (fun x => { x with queue := [{ num := 1, start := 7 }] }) (pendS [])
      (s.part 3).queue = [{ num := 1, start := 7 }] ∧ (s.part 3).task = none ∧ (s.part 3).state = .running ∧ 7 ≤ s.tick.now ∧ s.pwr.state = .p0)
    ∧ (let s := taskS 0 id (running (fun x => { x with ended := true }))
       taskOver s 3 { num := 1, started := true } = true) := by decide +kernel
def segReq : Req :=
  { req0 with state := .running, ran := 1, qlen := 1, attemptJ := true, desc := { desc0 1 with path := 0 } }
/-- A running request of one position, its Ethernet port up. -/
def segS (r : Req) : State :=
  updPort 6 (fun x => { x with role := 4, state := .up }) (updPart 3 (fun x => { x with
    task := some { num := 1, started := true }, budgets := (x.budgets.set 3 { x.budgets[3] with counter := 64 }).set 6 { x.budgets[6] with counter := Config.energyOf 5 * 1100 / 1000 } })
      (pendS [r]))
theorem wit_TaskLife_segment : reqFor ((segS segReq).part 3) (sendsMore (segS segReq)) 9 = some segReq ∧ (segS segReq).img.models.find? (fun m => m.idx == segReq.desc.model.toNat)
      = some { idx := 0, layers := 1, heads := 1, ropeLen := 4096, maxLen := 4096 }
    ∧ segReq.segDone < segTotal { idx := 0, layers := 1, heads := 1, ropeLen := 4096, maxLen := 4096 } segReq
    ∧ segTotal { idx := 0, layers := 1, heads := 1, ropeLen := 4096, maxLen := 4096 } segReq = 2
    ∧ ((segS segReq).part 3).task = some { num := 1, started := true } := by decide +kernel
theorem wit_TaskLife_sends : openAttempt 3 segReq (pumpAll 3 (segS segReq)) = segS segReq ∧ reqNow (segS segReq) 3 segReq = segReq
    ∧ segAt { idx := 0, layers := 1, heads := 1, ropeLen := 4096, maxLen := 4096 } segReq segReq.segDone = (0, 0, 0, 0) := by
  have h : reqNow (segS segReq) 3 segReq = segReq := by decide +kernel
  have a : attemptRecord 3 segReq (segS segReq) = segS segReq := by simp [attemptRecord, segReq]
  have r : retried segReq = false := by decide
  refine ⟨?_, h, by decide +kernel⟩
  show openAttempt 3 segReq (segS segReq) = segS segReq
  unfold openAttempt
  simp only [a, h]
  simp [voidFirst, r, show segReq.ran = 1 from rfl]
theorem wit_TaskLife_commit : let r : Req := { segReq with endOk := true, segSent := 2, segAcked := 2 }
    reqFor ((segS r).part 3) (commitReady (segS r) 3) 9 = some r ∧ r.segSent = segTotal { idx := 0, layers := 1, heads := 1, ropeLen := 4096, maxLen := 4096 } r
    ∧ segTotal { idx := 0, layers := 1, heads := 1, ropeLen := 4096, maxLen := 4096 } r ≤ r.segAcked ∧ spanReady (segS r) 3 r = true := by decide +kernel

def ext0 : Extent := { (default : Extent) with len := 1 }
def tableS (tick : Option Nat) : State :=
  updPart 3 (fun x => { x with xtabs := [{ idx := 4294967295, editTick := tick, copyA := [ext0] }], freed := [{ xtab := 1, ext := ext0, freegen := 5, bytes := 64 }]
                               upops := [{ vload := true, variant := 1 }], variants := [1] }) State.reset
theorem wit_ExtentWork : (xtAt ((tableS none).part 3) (0xFFFFFFFF : W32).toNat).map (fun t => (t.editTick, t.copyA)) = some (none, [ext0])
    ∧ (xtAt ((tableS (some 0)).part 3) (0xFFFFFFFF : W32).toNat).map XTable.editTick = some (some (tableS none).tick.now)
    ∧ (((tableS none).part 3).freed[0]?).isSome = true ∧ mayReclaim (tableS none) 3 { xtab := 1, ext := ext0, freegen := 5, bytes := 64 } = true
    ∧ (∀ g, g = 5 ∨ g = 4 → snapsPast (withPart id (updScoop 0 4 (fun su => { su with shadow := some { snaps := [(1, g)] } }) State.reset)) 3 1 5 = decide (5 ≤ g))
    ∧ ((tableS none).part 3).upops = [{ vload := true, variant := 1 }] ∧ ((tableS none).part 3).variants.contains 1 = true := by
  refine ⟨by decide +kernel, by decide +kernel, by decide +kernel, by decide +kernel, ?_, by decide +kernel, by decide +kernel⟩
  rintro g (rfl | rfl) <;> decide +kernel

/-- Memory that a snapshot still needs, a prefix region that nothing refers to and one with a node, and a load with bytes left. -/
theorem wit_ExtentWork_regions : (let s := withPart id (updScoop 0 4 (fun su => { su with shadow := some { snaps := [(1, 4)] } }) State.reset)
      mayReclaim s 3 { xtab := 1, ext := ext0, freegen := 5, bytes := 64 } = false ∧ bit ext0.flags.toNat 0 = false)
    ∧ mayReclaim State.reset 3 { ext := { ext0 with flags := 1, region := 7 } } = true
    ∧ mayReclaim (updMem (fun m => { m with nodes := [{ (default : PNode) with region := 7 }] }) State.reset) 3 { ext := { ext0 with flags := 1, region := 7 } } = false
    ∧ ({ vload := true, left := 1 } : UpOp).left = 1 ∧ ({ vload := true, silent := true } : UpOp).silent = true := by decide +kernel

/-! Memory, tick, partitions, ownership -/

theorem wit_sbActs : OwnerActs .sb sbOwns := by unfold OwnerActs; decide +kernel
theorem wit_pfActs : OwnerActs .pf0 pfOwns := by unfold OwnerActs; decide +kernel

/-- The first upkeep window of the near port, one of a CXL port, and copies up to the Aghorn region's base. -/
def copy0 : Copy := { src := 0, dst := 0x1DEFFFFFC0, len := 64 }
def copyS (q : List Copy) : State :=
  updMem (fun x => { x with cpSrc := copy0.src, cpDst := copy0.dst, cpLen := 64, cpQueue := q })
    (updImg (fun g => { g with dev := { g.dev with upkeep := [(0, 0, 1, 64, 0), (4, 0, 1, 64, 0)] } }) sbOwns)
theorem wit_MemoryWork : (copyS []).img.dev.upkeep.find? (fun u => u.1 == (4 : Fin 5).1) = some ((4 : Fin 5).1, 0, 1, 64, 0)
    ∧ memOn (copyS []) = true ∧ (∀ p, ((copyS []).part p).upops = []) ∧ (copyS []).tick.phase = 0 ∧ (copyS []).mem.winTick[(4 : Fin 5)] ≠ some (copyS []).tick.now
    ∧ (copyS []).mem.cpQueue = [] ∧ copyReason (copyS []) copy0 = none
    ∧ copyReason (copyS []) { copy0 with dst := 0x1DF0000000 } = some 4 ∧ copyReason (copyS []) { copy0 with len := 0 } = some 3
    ∧ goodLines (copyS [copy0]) copy0 none = copy0.len / 64 ∧ copy0.len % 64 = 0 := by decide +kernel
theorem wit_MemoryWork_bad : goodLines (copyS [copy0]) copy0 (some (0, .uncorrectable 1)) = 0 ∧ copy0.len ≠ 0 ∧ arrives (copyS []) .pf0 = true ∧ isOwner (copyS []) .pf0 = false
    ∧ (judgeRead 0 1 (.crcLimit default) { found := 3 } (chargeD 1 1 pfOwns)).1 = false ∧ (judgeRead 0 1 .ok { found := 3 } (chargeD 1 1 pfOwns)).1 = true
    ∧ bar4Run (vf4 id State.reset) 4 0 1 = none ∧ isOwner sbOwns .pf0 = false := by decide +kernel
/-- A window that has acted in the tick, and one that is over; a copy that a window of an active device has moved, or not yet; a write that the CRC gives up. -/
theorem wit_MemoryWork_window : (let s := updMem (fun x => { x with winTick := x.winTick.set 4 (some 0) }) (copyS []); s.mem.winTick[(4 : Fin 5)] = some s.tick.now)
    ∧ ¬ (updTick (fun k => { k with phase := 1 }) (copyS [])).tick.phase < 0 + 1
    ∧ partsActive (copyS [copy0]) = false ∧ partsActive (withPart id (copyS [copy0])) = true ∧ copyTouches (withPart id (copyS [copy0])) copy0 0 = true
    ∧ (64 * goodLines (withPart id (copyS [copy0])) copy0 none ≤ { copy0 with moved := 64 }.moved) ∧ copy0.moved < 64 * goodLines (withPart id (copyS [copy0])) copy0 none
    ∧ crcFails (.crcLimit default) 0 = true ∧ crcFails .ok 0 = false ∧ crcFails (.crcLimit default) (2 ^ 63) = false := by decide +kernel
theorem wit_MemoryWork_acts : OwnerActs .sb (copyS []) := by unfold OwnerActs; decide +kernel
/-- The last byte of near memory that PF0 reaches, and the byte after it. -/
theorem wit_MemoryWork_bar4 : bar4Run pfOwns 0 (0x1DFFFFFFFF : W64).toNat 1 = some [(0x1DFFFFFFFF, true)] ∧ bar4Run pfOwns 0 (0x1DFFFFFFFF : W64).toNat 2 = none
    ∧ memOn pfOwns = true ∧ runFailed pfOwns 0x1DFFFFFFFF 1 = false ∧ onFailed pfOwns 0x1DFFFFFFFF = false ∧ isOwner pfOwns .pf0 = true := by decide +kernel

def timeS (f : Tick → Tick) : State := updTick f sbOwns
/-- Edges at the ends of their window, and each count at the value before it acts. -/
theorem wit_TickInput : (100000 < 782 * 128 ∧ ¬ 100000 < 781 * 128 ∧ (390 : Int).natAbs * 256 ≤ 100000 ∧ (-390 : Int).natAbs * 256 ≤ 100000)
    ∧ (timeS (fun k => { k with state := .locked })).tick.state = .locked
    ∧ (timeS (fun k => { k with state := .holdover, good := 2, miss := 254 })).tick.good < 3 ∧ (timeS (fun k => { k with state := .holdover, good := 2, miss := 254 })).tick.miss < 255
    ∧ 3 ≤ (timeS (fun k => { k with state := .holdover, good := 3, miss := 255 })).tick.good ∧ 255 ≤ (timeS (fun k => { k with state := .holdover, good := 3, miss := 255 })).tick.miss
    ∧ (timeS id).tick.state = .timelost ∧ (timeS id).tick.good = 0 ∧ (timeS id).tick.srcM = false ∧ (timeS id).tick.held = none
    ∧ (let s := updPort 7 (fun x => { x with state := .up }) (timeS (fun k => { k with srcM := true })); s.tick.srcM = true ∧ (s.port 7).state = .up)
    ∧ (timeS (fun k => { k with held := some 5 })).tick.held = some 5 := by decide +kernel
/-- An edge outside its window; a first interval at 1,000 ppm and past it; a number that the boundary's count equals, and one that it does not. -/
theorem wit_TickInput_more : (¬ (391 : Int).natAbs * 256 ≤ 100000) ∧ (if 100100 ≤ 100000 then 100000 - 100100 else 100100 - 100000) * 1000 ≤ 100000
    ∧ (¬ (if 99899 ≤ 100000 then 100000 - 99899 else 99899 - 100000) * 1000 ≤ 100000)
    ∧ (((1 : W64).toNat : Int) - ((State.reset.tick.now + 1) % 2 ^ 64 : Nat) = 0) ∧ (((2 : W64).toNat : Int) - ((State.reset.tick.now + 1) % 2 ^ 64 : Nat) ≠ 0)
    ∧ (timeS (fun k => { k with good := 2 })).tick.good = 2 := by decide +kernel
theorem wit_TickSettings : allPartsIn sbOwns (fun x => decide (x = .unconfigured)) = true ∧ 10000 ≤ (10000 : W64).toNat ∧ (10000000 : W64).toNat ≤ 10000000 ∧ (9999 : W64).toNat < 10000
    ∧ (timeS (fun k => { k with sinceStart := 1024 })).tick.sinceStart % 1024 = 0
    ∧ ((withPart id sbOwns).part 3).section_ = some { cores := [0] } ∧ ((withPart id sbOwns).part 3).state ≠ .unconfigured := by decide +kernel
theorem wit_TickBoundaryOrder : aghornOn sbOwns = true ∧ (timeS (fun k => { k with held := some 5 })).tick.state = .timelost
    ∧ ((withPart id sbOwns).part 3).state ≠ .unconfigured ∧ (timeS (fun k => { k with state := .locked })).tick.state ≠ .timelost := by decide +kernel

def sec3 : ImgSection := { (default : ImgSection) with stype := 5, sindex := 3 }
def image0 : Image := { (default : Image) with sections := [sec3] }
def partS (st : PState) : State :=
  updImg (fun g => { g with loaded := some image0 }) (updPart 3 (fun x => { x with state := st, section_ := some { cores := [0] } }) sbOwns)
theorem wit_PartitionOperations (st : PState) : OwnerActs .sb (partS st) ∧ (partS st).pwr.state = .p0 ∧ ((partS st).part 3).state = st
    ∧ (partS st).sec.state ≠ 2 ∧ (partS st).sec.d3 = false ∧ (partS st).img.loaded = some image0 ∧ partSec image0 3 = some sec3 ∧ ((partS st).part 3).task = none
    ∧ (partS st).img.src = 0 ∧ ((partS st).part 3).reqs = [] ∧ (partS st).img.loads = [] ∧ ((partS st).part 3).section_ = some { cores := [0] } ∧ portsServe (partS st) { cores := [0] } = true := by
  unfold OwnerActs; cases st <;> decide +kernel
/-- PF0, the owner, may load a PART image; a device without a loaded image, or without the partition's section, loads nothing. -/
theorem wit_PartitionOperations_load : OwnerActs .pf0 pfOwns ∧ (pfOwns.part 3).state = .unconfigured ∧ pfOwns.img.loaded = none ∧ partSec image0 4 = none
    ∧ (∃ r ∈ [{ req0 with state := .pending }], accepted r = true ∧ r.finalJ = false) := by
  unfold OwnerActs; decide +kernel
theorem wit_OwnershipProtocol : arrives State.reset .pf0 = true ∧ claimOk State.reset .pf0 false = true ∧ State.reset.own.state = .unowned ∧ arrives State.reset (.vf 64) = true
    ∧ (let s := updOwn (fun o => { o with state := .window, windowAge := 16, claims := [{ m := .sb }] }) State.reset
       s.own.state = .window ∧ 16 ≤ s.own.windowAge ∧ leading s.own.claims = some { m := .sb })
    ∧ sbOwns.own.owner.map Claim.nonce = some (7 : W32).toNat ∧ sbOwns.own.owner.map Claim.nonce ≠ some (8 : W32).toNat ∧ sbOwns.own.standing = []
    ∧ (let s := updOwn (fun o => { o with lease := 1024, standing := [{ m := .pf0 }] }) sbOwns; s.own.state = .owned ∧ 1024 ≤ s.own.lease ∧ s.own.standing ≠ [])
    ∧ (let s := updOwn (fun o => { o with state := .handover, handAge := 16 }) State.reset; s.own.state = .handover ∧ 16 ≤ s.own.handAge ∧ s.own.taking = none) := by
  decide +kernel
theorem wit_OwnershipProtocol_handover : (let s := updOwn (fun o => { o with state := .handover, succ := some .pf0 }) State.reset
      s.own.state = .handover ∧ s.own.succ = some .pf0 ∧ s.own.taking = none ∧ s.own.succ ≠ some .sb)
    ∧ claimOk (updSec (fun x => { x with state := 1 }) State.reset) .pf0 false = false
    ∧ (let s := updOwn (fun o => { o with state := .window, windowAge := 16 }) State.reset; leading s.own.claims = none) := by decide +kernel
theorem wit_OthersIgnored : (ownerCommand (.coldStart (some .pf0) default)).map Prod.fst = some .pf0 ∧ (ownerCommand (.tikNext .pf0 0)).map Prod.fst = some .pf0
    ∧ arrives sbOwns .pf0 = true ∧ isOwner sbOwns .pf0 = false := by decide +kernel
theorem wit_ClaimElection : leading [{ m := .sb, prio := 1, nonce := 1 }, { m := .pf0, prio := 1, nonce := 2 }] ≠ none := by decide +kernel

/-! Images, power, security, tests, the host interface -/

/-- A certificate of a grade of 448 that disables arrays 0-63, by R32's table. -/
def certOf (grade cseq : Nat) : Cert :=
  { bytes := leBytes 4 0x0C90CE27 ++ leBytes 2 1 ++ leBytes 2 grade ++ leBytes 2 64 ++ leBytes 2 0 ++ leBytes 4 cseq ++ List.replicate 48 0
      ++ (List.range 64).flatMap (leBytes 2) ++ List.replicate 2484 0, sigOk := true }
def cert0 (cseq : Nat) : Cert := certOf 448 cseq
/-- Copy 1 holds the certificate in use; IMG_SRC names host memory. -/
def imgS (f : Img → Img) : State :=
  updSec (fun x => { x with pufOk := true }) (updImg (fun g => f { g with src := 2, cert1 := some (cert0 4), certUse := some true }) pfOwns)
theorem wit_ImageOperations : srcSel (imgS id) = 2 ∧ srcSel pfOwns < 2 ∧ (imgS id).sec.state ≠ 2 ∧ allUnconfigured (imgS id) = true
    ∧ (imgS id).pwr.flashWp = false ∧ slotRead (imgS id) true = false ∧ (imgS (fun g => { g with len := 67108864 })).img.len.toNat ≤ 67108864
    ∧ (imgS (fun g => { g with len := 32768 })).img.len.toNat ≤ 32768 ∧ certCopy (imgS id).img true = some (cert0 4) ∧ certValid (imgS id) (cert0 5) = true
    ∧ certSeq (cert0 4) < certSeq (cert0 5) ∧ certValid (imgS id) (certOf 447 5) = false ∧ memOn (imgS id) = true := by decide +kernel
theorem wit_ImageOperations_jobs (b : Bool) : (imgS (fun g => { g with jobs := [.slot b 64] })).img.jobs = [.slot b 64]
    ∧ (imgS (fun g => { g with jobs := [.trim b] })).img.jobs = [.trim b] ∧ (imgS (fun g => { g with jobs := [.cert b (cert0 5)] })).img.jobs = [.cert b (cert0 5)]
    ∧ (imgS (fun g => { g with loads := [{ src := 1 }] })).img.loads = [{ src := 1 }] := by
  cases b <;> decide +kernel
theorem wit_ImageOperations_forms : (let s := imgS (fun g => { g with certUse := none, len := 2676 })
      s.img.certUse = none ∧ certValid s (cert0 5) = true ∧ s.img.len.toNat = 2676)
    ∧ (imgS (fun g => { g with len := 2675 })).img.len.toNat < 2676 ∧ (imgS (fun g => { g with len := 67108865 })).img.len.toNat = 67108865
    ∧ (let s := imgS (fun g => { g with loads := [{ src := 1 }] }); slotRead s true = true ∧ slotRead s false = false)
    ∧ srcSel sbOwns < 2 ∧ (updSec (fun x => { x with state := 2 }) (imgS id)).sec.state = 2 ∧ (2 ≤ srcSel (imgS id) ∧ Master.sb ≠ .pf0)
    ∧ (∀ st, st = PState.loading ∨ st = .halted → ((setPState 3 st (imgS (fun g => { g with loads := [{ part := some 3, fromFull := true }] }))).part (pid 3)).state = st)
    ∧ (partSec image0 3).isSome = true ∧ memOn State.reset = true := by
  refine ⟨by decide +kernel, by decide +kernel, by decide +kernel, by decide +kernel, by decide +kernel, by decide +kernel, by decide +kernel, ?_, by decide +kernel⟩
  rintro st (rfl | rfl) <;> decide +kernel
theorem wit_ImageOperations_configured : allUnconfigured (withPart id pfOwns) = false ∧ (updPwr (fun w => { w with flashWp := true }) (imgS id)).pwr.flashWp = true := by
  decide +kernel

def powS (f : Pwr → Pwr) : State := updPwr f sbOwns
theorem wit_StartsAndRequests : OwnerActs .sb (powS (fun w => { w with state := .p3 })) ∧ (powS (fun w => { w with state := .p3 })).pwr.state = .p3 ∧ sbOwns.pwr.state ≠ .p3
    ∧ allPartsIn sbOwns (fun x => decide (x = .unconfigured ∨ x = .halted)) = true ∧ sbOwns.sec.d2 = none ∧ sbOwns.sec.d3 = false
    ∧ allPartsIn (withPart id sbOwns) (fun x => decide (x = .unconfigured ∨ x = .halted)) = false ∧ allUnconfigured sbOwns = true ∧ allUnconfigured (withPart id sbOwns) = false
    ∧ coldDue State.reset = true ∧ autowakeDue (powS (fun w => { w with state := .p3, autowake := true, wakeDue := true })) = true
    ∧ (powS (fun w => { w with pwrEn := false })).pwr.pwrEn = false ∧ sbOwns.pwr.pwrEn = true := by
  unfold OwnerActs; decide +kernel
theorem wit_PinsAndInput : (powS (fun w => { w with perst := true })).pwr.perst = true ∧ (powS (fun w => { w with aon := false })).pwr.aon = false
    ∧ sbOwns.pwr.aon = true ∧ sbOwns.pwr.vout = false ∧ (powS (fun w => { w with vout := true })).pwr.vout = true ∧ (110 : Int) ≤ 110 := by decide +kernel

/-- The layout of a command, at the ends of the ticks it may name. -/
def hdrS (cmd : Byte) (len : W16) (tick : W64) : SecHdr := { cmd, rsv0 := true, nonce := 1, tick, len, sigOk := true }
def secS (st : Nat) (f : Sec → Sec) : State :=
  { updSec (fun x => f { x with state := st, pufOk := true, prov0 := { valid := true, erased := false } }) sbOwns with tick := { sbOwns.tick with now := 16 } }
def keys4 : KeyPayload := { nkey := 4, keyids := [0x10000, 0x10001, 0x10002, 0xFFFFFFFF], digest := 0, rsv0 := true }
theorem wit_SecurityCommands : SecCmdOk .sb (hdrS 1 9020 0) 1 (1320 + 1316 * keys4.nkey.toNat) true (secS 0 id) ∧ (secS 0 id).mem.ecc = true ∧ keysOk keys4 = true
    ∧ (secS 0 id).pwr.flashWp = false ∧ SecCmdOk .sb (hdrS 2 9020 32) 2 (1320 + 1316 * keys4.nkey.toNat) true (secS 1 id) ∧ (provInUse (secS 1 id)).isSome = true := by
  unfold SecCmdOk OwnerActs; decide +kernel
theorem wit_SecurityCommands_states : SecCmdOk .sb (hdrS 3 16 0) 3 0 false (secS 1 id) ∧ (secS 1 id).sec.d3 = false ∧ SecCmdOk .sb (hdrS 4 2436 32) 4 0 true (secS 2 id)
    ∧ SecCmdOk .sb (hdrS 5 2436 0) 5 0 true (secS 2 id) ∧ allUnconfigured (secS 2 id) = true ∧ (secS 2 id).sec.wipe = none := by
  unfold SecCmdOk OwnerActs; decide +kernel
theorem wit_SecurityCommands_ends : (secS 2 (fun x => { x with wipe := some .deprovision })).sec.wipe = some .deprovision ∧ (secS 2 (fun x => { x with wipe := some .d3 })).sec.wipe = some .d3
    ∧ (hdrS 3 2436 0).cmd.toNat ≠ 4 ∧ (hdrS 4 2435 0).len.toNat ≠ 2436 ∧ within16 16 0 = true ∧ within16 16 32 = true ∧ within16 16 33 = false ∧ within16 17 0 = false
    ∧ ({ hdrS 4 2436 0 with sigOk := false } : SecHdr).sigOk = false := by decide +kernel
/-- Each check of a security command, failed: the length of RELEASE, its tick, its state, its signature, its further condition. -/
theorem wit_SecurityCommands_checks : secForm (.secRelease .sb (hdrS 4 2435 0)) = some (.sb, hdrS 4 2435 0, 4, 0, true) ∧ (hdrS 4 2435 0).len.toNat ≠ 2436
    ∧ within16 (secS 2 id).tick.now (33 : W64).toNat = false ∧ (secS 1 id).sec.state ≠ 2 ∧ (secS 2 id).sec.pufOk = true
    ∧ (updPwr (fun w => { w with flashWp := true }) (secS 2 id)).pwr.flashWp = true ∧ provInUse (updSec (fun x => { x with prov0 := {} }) (secS 1 id)) = none
    ∧ (∀ w, (secS 2 (fun x => { x with wipe := some w })).sec.wipe = some w) := by
  refine ⟨by decide +kernel, by decide +kernel, by decide +kernel, by decide +kernel, by decide +kernel, by decide +kernel, by decide +kernel, fun w => rfl⟩
theorem wit_DebugCommands_more : (secS 1 (fun x => { x with d2req := some (63, 5, true, 0) })).sec.d2req = some (63, 5, true, 0) ∧ 2 ≤ (secS 1 (fun x => { x with fails := 2 })).sec.fails
    ∧ (secS 0 (fun x => { x with fails := 2 })).sec.state = 0 ∧ (secS 1 id).sec.d2req = none ∧ (secS 1 id).sec.chal = none := by decide +kernel
theorem wit_DebugCommands : SecCmdOk .sb (hdrS 0x10 16 0) 0x10 0 false (secS 2 id) ∧ SecCmdOk .sb (hdrS 0x11 16 0) 0x11 0 false (secS 2 id)
    ∧ SecCmdOk .sb (hdrS 0x12 24 0) 0x12 8 false (withPart id (secS 1 id)) ∧ d2Allowed (withPart id (secS 1 id)) (pid 3) = true ∧ (63 : Byte).toNat < 64
    ∧ SecCmdOk .sb (hdrS 0x13 16 0) 0x13 0 false (secS 1 id) ∧ (secS 1 id).sec.state ≤ 1 ∧ (secS 1 id).sec.barred = false := by
  unfold SecCmdOk OwnerActs; decide +kernel
theorem wit_DebugCommands_consent : arrives sbOwns (.vf (vfOf 63)) = true ∧ Master.vf (vfOf 62) ≠ .vf (vfOf 63)
    ∧ (secS 1 (fun x => { x with d2req := some (63, 5, false, 0) })).sec.d2req = some (63, (5 : W32).toNat, false, 0)
    ∧ (let s := { secS 1 id with tick := { sbOwns.tick with now := 1024 } }; 0 + 1024 ≤ s.tick.now) := by decide +kernel
theorem wit_DebugCommands_unlock : (let s := updPwr (fun w => { w with dbgEn := true }) (secS 1 (fun x => { x with chal := some (5, 0) }))
      s.sec.chal = some (5, 0) ∧ s.tick.now < 0 + 1024 ∧ SecCmdOk .sb (hdrS 0x14 2436 0) 0x14 0 true s ∧ s.sec.stateNext ≠ some 2 ∧ s.pwr.dbgEn = true
      ∧ memOn s = true ∧ allUnconfigured s = true ∧ s.sec.wipe = none ∧ s.sec.fails < 2) := by
  unfold SecCmdOk OwnerActs; decide +kernel
def attS (n : Nat) : State := updSec (fun x => { x with pufOk := true }) (updFunc 64 (fun g => { g with atts := List.replicate n {} }) (updFunc 0 (fun g => { g with atts := List.replicate n {} }) State.reset))
theorem wit_Attestation : arrives (attS 3) .pf0 = true ∧ (attS 3).sec.pufOk = true ∧ ((attS 3).func 0).atts.length < 4 ∧ 4 ≤ ((attS 4).func 0).atts.length
    ∧ arrives (attS 3) (.vf (vfOf 63)) = true ∧ ((attS 3).func (vfOf 63)).atts.length < 4 ∧ 4 ≤ ((attS 4).func (vfOf 63)).atts.length
    ∧ ((attS 2).func 64).atts = {} :: [{}] ∧ (attS 2).pwr.state ≠ .p4 := by decide +kernel

def testOf (kind : Nat) (st : TStat) : Test := { num := 1, kind, stat := st }
def testS (t : Test) : State := updFlt (fun f => { f with tests := [t] }) sbOwns
theorem wit_TestsAndRecoveries : OwnerActs .sb sbOwns ∧ resOk (3 : Byte).toNat (127 : W16).toNat = true ∧ resOk (3 : Byte).toNat (128 : W16).toNat = false
    ∧ (testS (testOf 1 .queued)).flt.tests.find? (fun t => t.num == 1) = some (testOf 1 .queued) ∧ testDue (testS (testOf 1 .queued)) (testOf 1 .queued) = true
    ∧ testDue (testS (testOf 3 .deferred)) (testOf 3 .deferred) = true ∧ testDue (testS (testOf 5 .queued)) (testOf 5 .queued) = true
    ∧ testDue (withPart id (testS (testOf 1 .deferred))) (testOf 1 .deferred) = false ∧ (testOf 1 .running).stat = .running := by
  unfold OwnerActs; decide +kernel
theorem wit_TestsAndRecoveries_recovery : aghornOn sbOwns = true ∧ sbOwns.flt.recoverEn = true ∧ sbOwns.flt.recTicks.length < 3
    ∧ (let s := { updFlt (fun f => { f with recTicks := [1, 2, 3], dropsNew := f.dropsNew.set 3 1 }) sbOwns with tick := { sbOwns.tick with now := 1000000 } }
       3 ≤ (s.flt.recTicks.filter (fun t => decide (s.tick.now < t + 1000000))).length ∧ s.tick.now % 16 = 0 ∧ ∃ k : Fin 4, s.flt.dropsNew[k] ≠ 0) := by decide +kernel
theorem wit_TestsAndRecoveries_more : (updFlt (fun f => { f with recoverEn := false }) sbOwns).flt.recoverEn = false ∧ aghornOn (updPwr (fun w => { w with state := .p4 }) sbOwns) = false
    ∧ (∀ t ∈ sbOwns.flt.tests, t.num ≠ 7) ∧ (∀ k : Fin 4, sbOwns.flt.dropsNew[k] = 0) ∧ ¬LogRoom (updFlt (fun f => { f with queue := List.replicate 4096 default }) sbOwns) := by
  refine ⟨by decide +kernel, by decide +kernel, by decide +kernel, by decide +kernel, ?_⟩
  unfold LogRoom
  show ¬ (List.replicate 4096 (default : LogRec)).length < 4096
  rw [List.length_replicate]
  exact Nat.lt_irrefl _
def vecS (v : Msix) (now : Nat) : State :=
  { updFunc 64 (fun g => { g with vectors := g.vectors.set 127 v }) State.reset with tick := { State.reset.tick with now, period := 4000 } }
theorem wit_MessageVectors : (let q := ((vecS { masked := false, due := true, lastNs := some 0 } 1).func 64).vectors[(127 : Fin 128)]
      q.due = true ∧ q.masked = false ∧ q.lastNs = some 0 ∧ 0 + 4000 ≤ nowNs (vecS {} 1))
    ∧ nowNs (vecS {} 0) < 0 + 4000 ∧ ((vecS {} 0).func 64).vectors[(127 : Fin 128)].masked = true
    ∧ ((vecS { pend := true } 0).func 64).vectors[(127 : Fin 128)].pend = true := by decide +kernel
theorem wit_MessageVectors_unmask : bit (({ m := .pf0, o := 8, first := 4, count := 4, v := 0 } : BusWrite).put (0 + 2 ^ 32)) 32 = false := by decide +kernel
theorem wit_HostInterface : (64 : FuncId) ≠ 0 ∧ arrives sbOwns (masterOf 64) = true ∧ ringcfgOk sbOwns 64 0x8000000000000000 = false
    ∧ arrives sbOwns .pf0 = true ∧ (0x30028 : BitVec 22).toNat = 0x30028 ∧ (0x60038 : BitVec 22).toNat = 0x60038 ∧ (0xA0100 : BitVec 22).toNat = 0xA0100
    ∧ arrives sbOwns (.rm 1 2 3) = true ∧ arrives sbOwns .sb = true ∧ (0x3FFFFC : BitVec 22).toNat % 8 ≠ 0 ∧ (0x3FFFFE : BitVec 22).toNat % 4 ≠ 0 := by decide +kernel
theorem wit_HostInterface_rings : ringcfgOk sbOwns 64 0x8000000000080808 = true := by decide +kernel

/-! ### Single commands -/

def s1c (f : Core → Core) (i : Instr) (r : SReg) : Option W64 := after1 i (fun t => (t.core 0).getS r) (running f)

theorem test_sub : s1c (fun x => (x.setS 1 5).setS 2 7) (.sub 0 3 1 2) 3 = some 0xFFFFFFFFFFFFFFFE := by decide +kernel
theorem test_mul : s1c (fun x => (x.setS 1 0xFFFFFFFFFFFFFFFF).setS 2 3) (.mul 0 3 1 2) 3 = some 0xFFFFFFFFFFFFFFFD := by decide +kernel
theorem test_write_s0 : s1c (fun x => x.setS 1 5) (.add 0 0 1 1) 0 = some 0 := by decide +kernel
theorem test_addi_signed : s1c (fun x => x.setS 1 5) (.addi 0 3 1 0x1FFF) 3 = some 4 := by decide +kernel
theorem test_ori_zero_extends : s1c id (.ori 0 3 0 0x1FFF) 3 = some 0x1FFF := by decide +kernel
theorem test_lui : s1c id (.lui 0 3 0x7FFFF) 3 = some 0xFFFFE000 := by decide +kernel
theorem test_sra : s1c (fun x => (x.setS 1 0x8000000000000000).setS 2 63) (.sra 0 3 1 2) 3 = some 0xFFFFFFFFFFFFFFFF := by decide +kernel
theorem test_shr : s1c (fun x => (x.setS 1 0x8000000000000000).setS 2 63) (.shr 0 3 1 2) 3 = some 1 := by decide +kernel
theorem test_clt_signed : after1 (.clt 0 1 1 2) (fun t => (t.core 0).getP 1) (running (fun x => (x.setS 1 0xFFFFFFFFFFFFFFFF).setS 2 0)) = some true := by decide +kernel
theorem test_cltu : after1 (.cltu 0 1 1 2) (fun t => (t.core 0).getP 1) (running (fun x => (x.setS 1 0xFFFFFFFFFFFFFFFF).setS 2 0)) = some false := by decide +kernel
theorem test_stD_bytes : after1 (.stD 0 1 2 0x1FFF) (fun t => (t.core 0).dstore) (running (fun x => (x.setS 1 0x0102030405060708).setS 2 16))
    = some [(8, 8), (9, 7), (10, 6), (11, 5), (12, 4), (13, 3), (14, 2), (15, 1)] := by decide +kernel
theorem test_ldD : s1c (fun x => { x with dstore := [(8, 0xAB), (15, 0x80)] }) (.ldD 0 3 0 1) 3 = some 0x80000000000000AB := by decide +kernel
theorem test_call_saves : after1 (.call 0 0x100) (fun t => ((t.core 0).pc, (t.core 0).getS 63)) (running (fun x => { x with pc := 8 })) = some (0x100, 12) := by decide +kernel
theorem test_bnp_falls : after1 (.bnp 0 0 0x100) (fun t => (t.core 0).pc) (running id) = some 4 := by decide +kernel
theorem test_branch_into_tile : after1 (.b 0 0x1FFF4) (fun t => ((t.core 0).pc, (t.core 0).faultRec)) tileAtEnd = some (0, some { reason := 1, pc := 0, task := 0 }) := by decide +kernel
theorem test_end : after1 (.end_ 0) (fun t => ((t.core 0).running, (t.core 0).ended)) (running id) = some (false, true) := by decide +kernel
theorem test_stopped_core : after1 (.addi 0 3 0 5) (fun t => ((t.core 0).getS 3, (t.core 0).pc)) State.reset = some (0, 0) := by decide +kernel
theorem test_bell_holds : after1 (.bl 0 hdr0 7) (fun t => ((t.core 0).hold, (t.core 0).pc)) (running id) = some (.bell 7 0, 0) := by decide +kernel
theorem test_predicate_skips : after1 (.bl 0 { hdr0 with pneg := true } 7) (fun t => ((t.core 0).hold, (t.core 0).pc)) (running id) = some (.none, 16) := by decide +kernel
theorem test_put_rail : after1 (.put 0 hdr0 { tr0 with empty := true }) (fun t => (t.part 3).rails.map (fun r => (r.fwd, r.seq))) (railS (fun r => { r with fwd := [] }))
    = some [([0xFFFF000000000004], 0)] := by decide +kernel

/-- R375: a claim of an unowned device opens a window; R373: the write of another master is ignored and counted. -/
theorem test_claim_opens : after1 (.ownClaim .pf0 3 9 false) (fun t => (t.own.state, t.own.claims)) State.reset = some (.window, [{ m := .pf0, prio := 3, nonce := 9 }]) := by decide +kernel
theorem test_other_ignored : after1 (.tikNext .pf0 9) (fun t => (t.tick.held, t.own.ignwr[(1 : Fin 3)])) sbOwns = some (none, 1) := by decide +kernel
theorem test_release : after1 (.ownRelease .sb none) (fun t => t.own.state) sbOwns = some .unowned := by decide +kernel
theorem test_tick_held : after1 (.tikNext .sb 9) (fun t => t.tick.held) sbOwns = some (some 9) := by decide +kernel
theorem test_budget_unowned : after1 (.drain .pf0 3) (fun t => (t.part 3).state) (withPart id sbOwns) = some .running := by decide +kernel
theorem test_drain : after1 (.drain .sb 3) (fun t => (t.part 3).state) (withPart id sbOwns) = some .draining := by decide +kernel
theorem test_start_rejected : after1 (.start .sb 3) (fun t => ((t.part 3).state, (t.part 3).oprej)) (withPart id sbOwns) = some (.running, true) := by decide +kernel
theorem test_bad_doorbell : after1 (.sqTail 4 3 false) (fun t => ((t.func 4).sqTail, (t.func 4).igndb)) (vf4 id State.reset) = some (0, 1) := by decide +kernel
theorem test_reject_record : after1 (.prefill 4 { desc0 1 with prio := 4 } (some []) true) (fun t => ((t.func 4).sqHead, (t.func 4).waiting.map (fun r => (r.kind, r.reason, r.cseq)))) (serveS id)
    = some (0, [(3, 1, 1)]) := by decide +kernel
theorem test_copy_reason : after1 (.memCpgo .pf0 true true) (fun t => (t.mem.cpErr, t.mem.cpReason)) pfOwns = some (true, 2) := by decide +kernel
theorem test_write_lands : after1 (.write { (default : PktHdr) with dpart := 63, addr := 56 } [1, 0, 2]) (fun t => t.mem.near) windowS = some [(56, 1), (58, 2)] := by decide +kernel
theorem test_perst : after1 .perstAssert (fun t => (t.pwr.perst, (t.func 4).en)) (vf4 id State.reset) = some (true, false) := by decide +kernel
theorem test_input_loss : after1 .inputLoss (fun t => (t.pwr.state, t.flt.sticky, t.mem.near)) { State.reset with mem := { State.reset.mem with near := [(0, 1)] } } = some (.p4, 0, []) := by decide +kernel
theorem test_voltage : after1 (.voltageOutOfRange true) (fun t => (t.flt.sticky, t.flt.counts[(15 : Fin 16)])) State.reset = some (0x8000, 1) := by decide +kernel
theorem test_set_boot_locked : after1 (.setBootSlot .pf0 true) (fun t => (t.img.boot, t.img.errWhy)) (updPwr (fun w => { w with flashWp := true }) pfOwns) = some (false, 3) := by decide +kernel
theorem test_lockdown : after1 (.lockdown .sb (hdrS 3 16 0)) (fun t => (t.sec.state, t.sec.stateNext, t.sec.res)) (secS 1 id) = some (1, some 2, 1) := by decide +kernel
theorem test_release_sig : after1 (.secRelease .sb { hdrS 4 2436 0 with sigOk := false }) (fun t => (t.sec.stateNext, t.sec.res)) (secS 2 id) = some (none, 3) := by decide +kernel
theorem test_now_read : after1 (.readClear .pf0 0x30028 3) (fun t => t.out) { sbOwns with tick := { sbOwns.tick with now := 77 } } = some [.readData .pf0 0x30028 77] := by decide +kernel

/-- R37, R46, R48: FP4 E2M1 holds 0, 0.5, 1, 1.5, 2, 3, 4, 6; a value past 6 clamps. R50: BF16 rounds to nearest even. -/
theorem test_fp4_codes : (encNarrow 0x08 none false 5 2).1 = 4 ∧ (encNarrow 0x08 none true 6 1).1 = 15 ∧ (encNarrow 0x08 none false 7 1) = (7, true) := by decide +kernel
theorem test_bf16_ties : (toBF16 0x3F808000).1 = 0x3F80 ∧ (toBF16 0x3F818000).1 = 0x3F82 := by decide +kernel

/-- R260's example: the tile line of the E1 projection's MM. R243: all ones is a NOP; a reserved CLASS spells nothing. -/
theorem test_line_mm : tileInstr 0 0x102A0000442000FE8E51660000020A00
    = some (.mm 0 { pred := 0, pneg := false, waitu := some 1, waits := 20, ckpt := 0 }
      { eng := 1, half := false, acc := false, af := 8, wf := 8, qsrc := 0, mode := 0, sr := false, whisk := false, keep := false, score := false, aslot := false
        mrows := 127, npass := 71, sa := 10, sw := 11, sx := 12, sch := 0, tag := 0x105 }) := by decide +kernel
theorem test_line_reserved : tileInstr 0 0x702A0000442000FE8E51660000020A00 = none ∧ parcelInstr 0 0xFFFFFFFF = some (.nop 0)
    ∧ lineOk 0x102A0000442000FE8E51660000020A01 = false := by decide +kernel

/-- R193: a block's decay is 0.9375, and 129 positions are two blocks. R194: position 63 and the last 512 are never evicted, and of equal scores the lower
position goes. R134: 1.0 lies within 2 ulp of 1, and three ulp above it does not. -/
theorem test_score : newScore 128 0x3F800000 0x3F800000 = 0x3FF80000 ∧ newScore 129 0 0x3F800000 = 0x3F610000 := by decide +kernel
theorem test_victim : (victim 1000 [{ pos := 63 }, { pos := 65 }, { pos := 64 }, { pos := 488 }]).map KSlot.pos = some 64
    ∧ (victim 1000 [{ pos := 63 }, { pos := 488 }]).isNone = true ∧ protectedPos 1000 487 = false := by decide +kernel
theorem test_ulp : withinUlp false 1 1 0x3F800002 = true ∧ withinUlp false 1 1 0x3F800003 = false := by decide +kernel

end Sys2Proof.Tests
end

section
/-! PROOF. O60, the host interface. The statement fails at one clause, the read of TKT_IGNDB (R8, R468): the model counts ignored doorbells
without bound, while a read clears the 64 bits that it returns. A count of 2^64, which 2^64 ignored doorbell writes after reset reach,
reads as 0 and stays. -/

namespace Sys2Proof.Machine

/-! ### The read of TKT_IGNDB (R8, R465, R468) -/

/-- A full read of PF0's TKT_IGNDB answers the count modulo 2^64 and takes that remainder from the count: a count below 2^64 is cleared,
and what lies above the register's 64 bits stays. -/
theorem readClear_tktIgndb (s : State) (h : arrives s .pf0 = true) :
    exec (.readClear .pf0 0x60038 3) s = .next (updFunc 0 (fun g => { g with igndb := g.igndb - g.igndb % 2 ^ 64 })
      (emit (.readData .pf0 0x60038 (BitVec.ofNat 64 ((s.func 0).igndb % 2 ^ 64))) s)) := by
  have answer : answerRead .pf0 0x60038 3 s = emit (.readData .pf0 0x60038 (BitVec.ofNat 64 ((s.func 0).igndb % 2 ^ 64))) s := by
    have word : readWord s .pf0 0x60038 = some (s.func 0).igndb := rfl
    simp [answerRead, alignedAt, pickBytes, wordBytes, word]
  have clear (t : State) : clearRead 0x60038 3 t = updFunc 0 (fun g => { g with igndb := g.igndb - g.igndb % 2 ^ 64 }) t := by
    simp [clearRead, putBytes, wordBytes, fid]
  have read : exec (.readClear .pf0 0x60038 3) s = .next (if arrives s .pf0 then readReg .pf0 0x60038 3 s else s) := rfl
  rw [read, if_pos h]
  simp [readReg, globalOffset, alignedAt, answer, clear]

/-- A state with a count of 2^64 or more refutes the statement: its read clause asks for a count of 0. -/
theorem not_hostInterface_of_igndb {s : State} (ha : arrives s .pf0 = true) (hc : 2 ^ 64 ≤ (s.func 0).igndb) :
    ¬ Obligations.HostInterface := by
  unfold Obligations.HostInterface
  intro h
  obtain ⟨-, -, -, -, readClears, -⟩ := h 0 0 .pf0 0x60038 3 0 0 0 s
  have cleared := readClears ha rfl
  rw [readClear_tktIgndb s ha] at cleared
  have counts := congrArg (fun t : State => (t.func 0).igndb) (Host.Outcome.next.inj cleared)
  simp only [updFunc_func_self, emit_func] at counts
  omega

/-! ### A run that reaches such a count (R470) -/

/-- PF0 writes its SQ_TAIL doorbell by other than one 64-bit access. -/
def narrowBell (s : State) : State := after (exec (.sqTail 0 0 false)) s

theorem narrowBell_awake {s : State} (h : awake s = true) : narrowBell s = ignoreBell 0 s := by
  have write : narrowBell s = if !awake s then s else ignoreBell 0 s := rfl
  simp [write, h]

/-- Outside P4 every such write is counted, with no bound on the count. -/
theorem narrowBell_iterate (n : Nat) (s : State) (h : awake s = true) :
    narrowBell^[n] s = updFunc 0 (fun g => { g with igndb := g.igndb + n }) s := by
  induction n with
  | zero => exact (updFunc_id rfl).symm
  | succ n ih =>
    rw [Function.iterate_succ_apply', ih, narrowBell_awake (s := updFunc 0 _ s) h, ignoreBell, updFunc_updFunc]
    rfl

/-- Refutes O60: after 2^64 ignored doorbell writes since reset, PF0 reads TKT_IGNDB. The statement asks for a count of 0 after the read;
the model clears the low 64 bits, which are 0 already, and the count stays 2^64. -/
theorem not_hostInterface : ¬ Obligations.HostInterface := by
  have reached := narrowBell_iterate (2 ^ 64) State.reset (by decide)
  refine not_hostInterface_of_igndb (s := narrowBell^[2 ^ 64] State.reset) ?_ ?_
  · rw [reached]; decide
  · rw [reached, updFunc_func_self]; exact Nat.le_add_left ..

end Sys2Proof.Machine
end

section
/-! PROOF. O54, the pins and the input. -/

namespace Sys2Proof.Machine

/-! ### The same update of many functions or partitions -/

/-- An update of each function of a list, each once. -/
theorem forAll_updFunc_func (l : List FuncId) (hl : l.Nodup) (g : Func → Func) (s : State) (j : FuncId) :
    (forAll l (fun i => updFunc i g) s).func j = if j ∈ l then g (s.func j) else s.func j := by
  induction l generalizing s with
  | nil => rfl
  | cons i r ih =>
    obtain ⟨hi, hr⟩ := List.nodup_cons.1 hl
    rw [forAll_cons, ih hr, updFunc_func]
    by_cases hj : j = i
    · subst hj; simp [hi]
    · simp [hj]

/-! ### Function level reset (R471) -/

theorem flr_pf0 (s : State) : flr 0 s = updPwr (fun w => { w with d3hot := false }) (forAll allFuncs resetFunc s) := rfl

/-- A reset of PF0 clears EN and the MSI-X state of every function. -/
theorem flr_pf0_func (s : State) (j : FuncId) : (flr 0 s).func j = { s.func j with en := false, vectors := Vector.replicate 128 {} } := by
  have all := forAll_updFunc_func allFuncs (List.nodup_finRange 65) (fun g => { g with en := false, vectors := Vector.replicate 128 {} }) s j
  rw [flr_pf0, updPwr_func]
  exact all.trans (if_pos (List.mem_finRange j))

/-- It changes nothing else but D3hot (log 118). -/
theorem flr_pf0_frame (s : State) : flr 0 s = { s with pwr := { s.pwr with d3hot := false }, funcs := (flr 0 s).funcs } := by
  have frame := forAll_keep (fun t => t = { s with funcs := t.funcs }) allFuncs resetFunc s (fun f _ t ht => by rw [ht]; rfl) rfl
  rw [flr_pf0, frame]
  rfl

/-! ### Alarms (R454, R455) -/

/-- A raised alarm changes PF0's vectors and the FLT block alone. -/
theorem raise_frame (c : Fin 16) (s : State) : raise c s = { s with funcs := (raise c s).funcs, flt := (raise c s).flt } := by
  unfold raise
  split
  · rw [alarm_frame]
  · rfl

@[simp] theorem raise_pwr (c : Fin 16) (s : State) : (raise c s).pwr = s.pwr := by rw [raise_frame]

@[simp] theorem whenS_raise_pwr (b : Bool) (c : Fin 16) (s : State) : (whenS b (raise c) s).pwr = s.pwr := by cases b <;> simp [whenS]

/-! ### ENERGY barred (R364, R439) -/

theorem barEnergy_pwr (s : State) : (barEnergy s).pwr = s.pwr := 
  forAll_keep (fun t => t.pwr = s.pwr) allParts _ s (fun _ _ _ ht => ht) rfl

theorem barEnergy_counter (s : State) (p : PartId) : (((barEnergy s).part p).budgets[6]).counter = 0 := by
  refine forAll_reach (fun t => ((t.part p).budgets[6]).counter = 0) allParts _ s p (List.mem_finRange p) (fun t => ?_) (fun q _ t ht => ?_)
  · simp
  · rw [updPart_part]
    split <;> simp_all

/-! ### The pins (R23, R439, R471, R484, R485) -/

theorem exec_perstAssert (s : State) : exec .perstAssert s = .next (updPwr (fun w => { w with perst := true }) (flr 0 s)) := rfl

theorem perstAssert_pwr (s : State) : (updPwr (fun w => { w with perst := true }) (flr 0 s)).pwr = { s.pwr with perst := true, d3hot := false } := by
  rw [updPwr_pwr, flr_pf0_frame]

theorem perstAssert_frame (s : State) :
    let t := updPwr (fun w => { w with perst := true }) (flr 0 s)
    t = { s with pwr := t.pwr, funcs := t.funcs } := by
  rw [flr_pf0_frame]
  rfl

theorem perstAssert_func (s : State) (f : FuncId) :
    (updPwr (fun w => { w with perst := true }) (flr 0 s)).func f = { s.func f with en := false, vectors := Vector.replicate 128 {} } := by
  rw [updPwr_func, flr_pf0_func]

theorem exec_perstDeassert (refclk : Bool) (s : State) :
    exec (.perstDeassert refclk) s = .next (if s.pwr.perst then updPwr (fun w => { w with perst := false, refclk := refclk }) s else s) := rfl

/-- The input in range finds AON without power. -/
theorem exec_inputInRange_of_off {s : State} (h : s.pwr.aon = false) (brd : BitVec 4) (env : StartEnv) :
    let t : State := { s with pwr := { s.pwr with aon := true, brdId := brd }, img := { s.img with starts := 0 } }
    exec (.inputInRange brd env) s = .next (if s.pwr.pwrEn then coldStart env t else t) := by
  have run : exec (.inputInRange brd env) s = execInputInRange brd env s := rfl
  rw [run, execInputInRange, if_neg (by simp [h])]
  rfl

theorem exec_inputInRange_of_on {s : State} (h : s.pwr.aon = true) (brd : BitVec 4) (env : StartEnv) : exec (.inputInRange brd env) s = .next s := by
  have run : exec (.inputInRange brd env) s = execInputInRange brd env s := rfl
  rw [run, execInputInRange, if_pos h]

/-- What a loss of the input leaves: every domain but AON at reset, AON's alarms and counts cleared. -/
def inputLost (s : State) : State :=
  updPwr (fun w => { w with aon := false, vout := false }) (updImg (fun g => { g with starts := 0 }) (updFlt (fun _ => {}) (powerOff s)))

theorem exec_inputLoss (s : State) : exec .inputLoss s = .next (inputLost s) := rfl

theorem inputLost_poweredOff (s : State) : PoweredOff s (inputLost s) :=
  ⟨rfl, rfl, rfl, rfl, rfl, rfl, rfl, rfl, rfl, rfl, rfl, rfl, rfl, rfl, fun _ => rfl, fun _ => rfl⟩

theorem inputLost_counts (s : State) (k : Fin 16) : (inputLost s).flt.counts[k] = 0 := by
  have counts : (inputLost s).flt.counts = Vector.replicate 16 0 := rfl
  simp [counts]

/-- Without AON no monitor watches the voltage or the temperature. -/
theorem exec_monitors_of_off {s : State} (h : s.pwr.aon = false) (out : Bool) (tempC : Int) :
    exec (.voltageOutOfRange out) s = .next s ∧ exec (.thermalCritical tempC) s = .next s := by
  have voltage : exec (.voltageOutOfRange out) s = execVoltageOutOfRange out s := rfl
  have thermal : exec (.thermalCritical tempC) s = execThermalCritical tempC s := rfl
  rw [voltage, thermal, execVoltageOutOfRange, execThermalCritical, if_pos (by simp [h]), if_pos (by simp [h])]
  exact ⟨rfl, rfl⟩

theorem exec_voltageOutOfRange_of_on {s : State} (h : s.pwr.aon = true) (out : Bool) :
    exec (.voltageOutOfRange out) s = .next (whenS (out && !s.pwr.vout) (raise 15) (updPwr (fun w => { w with vout := out }) s)) := by
  have run : exec (.voltageOutOfRange out) s = execVoltageOutOfRange out s := rfl
  rw [run, execVoltageOutOfRange, if_neg (by simp [h])]

theorem exec_thermalCritical_cool {tempC : Int} (h : tempC < 110) (s : State) : exec (.thermalCritical tempC) s = .next s := by
  have run : exec (.thermalCritical tempC) s = execThermalCritical tempC s := rfl
  rw [run, execThermalCritical, if_pos (.inl h)]

/-- At 110 degrees the alarms are raised, the thermal limit is 0 and ENERGY is barred. -/
theorem exec_thermalCritical_hot {tempC : Int} {s : State} (hot : 110 ≤ tempC) (h : s.pwr.aon = true) :
    exec (.thermalCritical tempC) s = .next (barEnergy (updPwr (fun w => { w with crit := true, throt := true, phiT := 0 })
      (whenS (decide (128 < Nat.min s.pwr.phiC s.pwr.phiT)) (raise 15) (whenS (!s.pwr.throt) (raise 2) s)))) := by
  have run : exec (.thermalCritical tempC) s = execThermalCritical tempC s := rfl
  rw [run, execThermalCritical, if_neg (by simp [h]; omega)]

/-- Settles O54: each command's own lemma, with the frame of PF0's function level reset and the bar on ENERGY. -/
theorem pinsAndInput : Obligations.PinsAndInput := by
  unfold Obligations.PinsAndInput
  intro env brd tempC refclk out s
  refine ⟨⟨_, exec_perstAssert s, perstAssert_frame s, perstAssert_pwr s, perstAssert_func s⟩, ?release, ?released, fun h => exec_inputInRange_of_off h brd env,
    fun h => exec_inputInRange_of_on h brd env, ⟨_, exec_inputLoss s, inputLost_poweredOff s, rfl, rfl, inputLost_counts s⟩, ?returns, ?leaves, ?hot,
    fun cool => exec_thermalCritical_cool cool s, fun h => exec_monitors_of_off h out tempC⟩
  case release => intro h; rw [exec_perstDeassert, if_pos h]
  case released => intro h; rw [exec_perstDeassert, h]; rfl
  case returns =>
    intro h quiet
    have none_raised : (out && !s.pwr.vout) = false := by rcases quiet with e | e <;> simp [e]
    rw [exec_voltageOutOfRange_of_on h, none_raised]; rfl
  case leaves => intro h inside; rw [exec_voltageOutOfRange_of_on h, inside]; rfl
  case hot => exact fun hot h => ⟨_, exec_thermalCritical_hot hot h, by simp [barEnergy_pwr], barEnergy_counter _⟩

end Sys2Proof.Machine
end

section
/-! PROOF. O22, the transfers of a scoop unit: issue (R217-R223, R231) and landing (R20, R224, R226, R344). -/

namespace Sys2Proof.Machine

/-! ### Issue -/

/-- A program with transfers left and a landing slot free issues its next, unless it is a receive. -/
theorem exec_scoopTransferIssue {c : CoreId} {u : UnitId} {p : PartId} {cfg : PCfg} {r : ScoopRun} {s : State} (part : cfgOf s c = some (p, cfg))
    (active : (scoopOf s c u).active = some r) (left : r.issued < r.total) (slot : (scoopOf s c u).landing.length < 6)
    (moves : scOut r.bytes = true ∨ scFlags r.bytes = 0) : exec (.scoopTransferIssue c u) s = .next (xferIssue c u p cfg r s) := by
  have run : exec (.scoopTransferIssue c u) s = execScoopTransferIssue c u s := rfl
  have issues : (decide (r.total ≤ r.issued) || decide (6 ≤ (scoopOf s c u).landing.length) || (!scOut r.bytes && scFlags r.bytes != 0)) = false := by
    rcases moves with e | e <;> simp [left, slot, e]
  rw [run, execScoopTransferIssue]
  simp only [part, active, issues]
  rfl

/-- Rows of zeros land at once (R220). -/
theorem xferIssue_zeros {c : CoreId} {u : UnitId} {p : PartId} {cfg : PCfg} {r : ScoopRun} {g : XferGen} {s : State}
    (xfer : xferAt (s.core c).ws r r.issued = some g) (good : g.bad = false) (zeros : g.zero = true) :
    xferIssue c u p cfg r s
      = rotateUnit c u (takeSlot c u { dst := g.x.ws, len := g.x.len, data := List.replicate g.x.len 0, landed := true } s) := by
  simp [xferIssue, xfer, good, zeros]

/-- The landing slot that a transfer takes (R219, R224). -/
def landingOf (l : List Byte) (g : XferGen) : Landing :=
  if scOut l then { out := true, src := g.x.ws, dst := g.x.far, len := g.x.len, mcid := scMcid l, block := xferSpace l g.x.far }
  else { src := g.x.far, dst := g.x.ws, len := g.x.len, block := xferSpace l g.x.far }

/-- A bucket's level falls to `n` (R231). -/
def bucketTo (p : PartId) (k : Fin 8) (n : Nat) (s : State) : State :=
  updPart p (fun x => { x with simmer := x.simmer.set k.1 { x.simmer[k] with level := n } k.2 }) s

/-- A transfer that its range, its bucket, its port and its budgets allow takes a landing slot (R219, R231, R344, R363). -/
theorem xferIssue_allowed {c : CoreId} {u : UnitId} {p : PartId} {cfg : PCfg} {r : ScoopRun} {g : XferGen} {s : State}
    (xfer : xferAt (s.core c).ws r r.issued = some g) (good : g.bad = false) (bytes : g.zero = false)
    (range : farOk s p cfg r.bytes g.x.far g.x.len = true) (port : windowHolds s (xferSpace r.bytes g.x.far) g.x.far g.x.len = false)
    (budget : (charge p (xferCost s r.bytes g.x.far g.x.len) s).1 = true)
    (bucket : throttled r.bytes = true →
      earlierWaits s p c u (scGroup r.bytes) = false ∧ g.x.len / 64 ≤ ((s.part p).simmer[scGroup r.bytes]).level) :
    xferIssue c u p cfg r s = takeSlot c u (landingOf r.bytes g)
      (whenS (throttled r.bytes) (bucketTo p (scGroup r.bytes) (((s.part p).simmer[scGroup r.bytes]).level - g.x.len / 64))
        (charge p (xferCost s r.bytes g.x.far g.x.len) s).2) := by
  have free : (throttled r.bytes && (earlierWaits s p c u (scGroup r.bytes)
      || decide (((s.part p).simmer[scGroup r.bytes]).level < g.x.len / 64))) = false := by
    cases h : throttled r.bytes with
    | false => rfl
    | true =>
      obtain ⟨first, level⟩ := bucket h
      rw [first, decide_eq_false (by omega)]; rfl
  rw [xferIssue]
  simp only [xfer, good, bytes, range, port, budget, Bool.not_true, Bool.false_eq_true, if_false]
  rw [if_neg (by simpa using free)]
  cases h : scOut r.bytes <;> simp only [landingOf, h] <;> rfl

/-! ### Landing -/

/-- An upkeep window of the port, or the mesh, holds the oldest transfer that waits (R15, R344). -/
theorem exec_transferLanded_held {c : CoreId} {u : UnitId} {a : AccessResult} {l : Landing} {s : State} (waits : (scoopOf s c u).landing.find? awaits = some l)
    (held : windowHolds s l.block (if l.out then l.dst else l.src) l.len = true ∨ inMesh s c l = true) : exec (.transferLanded c u a) s = .next s := by
  have run : exec (.transferLanded c u a) s = execTransferLanded c u a s := rfl
  rw [run, execTransferLanded]
  simp only [waits]
  rw [if_pos (by simpa using held)]

/-- One that nothing holds ends: a read's bytes reach its slot, a write is acknowledged (R224). -/
theorem exec_transferLanded_ok {c : CoreId} {u : UnitId} {l : Landing} {s : State} (waits : (scoopOf s c u).landing.find? awaits = some l)
    (port : windowHolds s l.block (if l.out then l.dst else l.src) l.len = false) (mesh : inMesh s c l = false) :
    exec (.transferLanded c u .ok) s = .next (if l.out then ackOut c u l s else landIn c u l .ok s) := by
  have run : exec (.transferLanded c u .ok) s = execTransferLanded c u .ok s := rfl
  rw [run, execTransferLanded]
  simp only [waits]
  rw [if_neg (by simp [port, mesh])]
  cases l.out <;> rfl

/-- Bytes `d` reach the oldest slot of a unit that waits (R224). -/
def slotFilled (c : CoreId) (u : UnitId) (d : List Byte) (s : State) : State :=
  unitMoved c u (updScoop c u (fun su => { su with landing := mapFirst awaits (fun q => { q with data := d, landed := true }) su.landing }) s)

/-- Another core's bytes are those that a fill phase of that core has read (R20, R217; log 37). -/
theorem landIn_peer {c : CoreId} {u : UnitId} {l : Landing} {s : State} (space : l.block = 2) :
    landIn c u l .ok s = if l.fetched then slotFilled c u l.data s else s := by
  simp only [landIn, space]; rfl

/-- The bytes of near or far memory, where no channel of the run has failed. -/
theorem landIn_memory {c : CoreId} {u : UnitId} {l : Landing} {s : State} (space : l.block ≤ 1) (sound : failedLine s l.src l.len = none) :
    landIn c u l .ok s = slotFilled c u (tierRead s l.src l.len) s := by
  have judged (f : Finder) : judgeRead l.src l.len .ok f s = (true, s) := by simp only [judgeRead, sound]
  simp only [landIn, if_pos space, judged]; rfl

/-- The bytes of exchange memory. -/
theorem landIn_exchange {c : CoreId} {u : UnitId} {l : Landing} {p : PartId} {s : State} (space : l.block = 3) (part : partOfCore s c.1 = some p) :
    landIn c u l .ok s = slotFilled c u (rdBytes (s.part p).xmem l.src l.len) s := by
  simp only [landIn, space, part]; rfl

/-- The oldest write of a unit that waits is counted and frees its slot (R224). -/
def slotFreed (c : CoreId) (u : UnitId) (s : State) : State :=
  unitMoved c u (updScoop c u (fun su => { su with landing := su.landing.eraseP awaits, landed := (su.landed + 1) % 2 ^ 32 }) s)

theorem ackOut_near {c : CoreId} {u : UnitId} {l : Landing} {s : State} (space : l.block = 0) : ackOut c u l s = slotFreed c u (tierWrite l.dst l.data s) := by
  simp only [ackOut, space]; rfl

theorem ackOut_peer {c : CoreId} {u : UnitId} {l : Landing} {s : State} (space : l.block = 2) : ackOut c u l s = slotFreed c u s := by
  simp only [ackOut, space]; rfl

theorem ackOut_exchange {c : CoreId} {u : UnitId} {l : Landing} {p : PartId} {s : State} (space : l.block = 3) (part : partOfCore s c.1 = some p) :
    ackOut c u l s = slotFreed c u (updPart p (fun x => { x with xmem := wrBytes x.xmem l.dst l.data }) s) := by
  simp only [ackOut, space, part]; rfl

theorem partOfCore_of_cfgOf {s : State} {c : CoreId} {p : PartId} {cfg : PCfg} (h : cfgOf s c = some (p, cfg)) : partOfCore s c.1 = some p := by
  obtain ⟨q, hq, h⟩ := Option.bind_eq_some_iff.1 h
  obtain ⟨_, _, e⟩ := Option.map_eq_some_iff.1 h
  rw [hq, (Prod.mk.inj e).1]

/-- Settles O22: a transfer's issue by what its range, bucket, port and budgets say, its landing by its direction and its far side. -/
theorem scoopTransfers : Obligations.ScoopTransfers := by
  unfold Obligations.ScoopTransfers
  intro c u p cfg r s part active
  refine ⟨?issue, fun l a waits held => exec_transferLanded_held waits held, ?lands⟩
  case issue =>
    intro g left slot moves xfer good
    have issue := exec_scoopTransferIssue part active left slot moves
    refine ⟨fun zeros => by rw [issue, xferIssue_zeros xfer good zeros], fun bytes range port budget => ⟨fun h => ?_, fun h waits level => ?_⟩⟩
    · rw [issue, xferIssue_allowed xfer good bytes range port budget (fun e => by simp [h] at e), h]; rfl
    · rw [issue, xferIssue_allowed xfer good bytes range port budget (fun _ => ⟨waits, level⟩), h]; rfl
  case lands =>
    intro l waits port mesh
    have lands := exec_transferLanded_ok waits port mesh
    have reads (dir : l.out = false) : exec (.transferLanded c u .ok) s = .next (landIn c u l .ok s) := by rw [lands, dir]; rfl
    have acked (dir : l.out = true) : exec (.transferLanded c u .ok) s = .next (ackOut c u l s) := by rw [lands, dir]; rfl
    have mine := partOfCore_of_cfgOf part
    refine ⟨fun dir space => ⟨fun f => ?_, fun f => ?_⟩, fun dir space => ?_, fun dir space sound => ?_, fun dir space => ?_, fun dir space => ?_,
      fun dir space => ?_⟩
    · rw [reads dir, landIn_peer space, if_pos f]; rfl
    · rw [reads dir, landIn_peer space, if_neg (by simp [f])]
    · rw [reads dir, landIn_exchange space mine]; rfl
    · rw [reads dir, landIn_memory space sound]; rfl
    · rw [acked dir, ackOut_exchange space mine]; rfl
    · rw [acked dir, ackOut_peer space]; rfl
    · rw [acked dir, ackOut_near space]; rfl

end Sys2Proof.Machine
end

section
/-! PROOF. O24, the blocks of a multicast and their lag abort. -/

namespace Sys2Proof.Machine

/-- The state of a stream: the one it has, or that of its first block (R233). -/
def streamNow (p : PartId) (mcid : W64) (s : State) : MStream :=
  (streamOf (s.part p) mcid).getD { mcid, recv := destsOf s p mcid, acked := (destsOf s p mcid).map (fun _ => 0) }

/-- The stream `m` has sent one block more. -/
def blockSent (p : PartId) (mcid : W64) (m : MStream) (s : State) : State :=
  updPart p (fun x => { x with mcast := { m with sent := m.sent + 1 } :: x.mcast.filter (fun z => z.mcid != mcid) }) s

/-- The checkpoint of a block, if it has one, is met (R390). -/
def ckptMet (p : PartId) (k : Option Ckpt) (s : State) : State :=
  match k with
  | some k => meetCkpt p k.idx s
  | none => s

/-- The streams do not move the checkpoints of a task's shape. -/
theorem blockCkpt_blockSent (p : PartId) (mcid : W64) (m : MStream) (t : Task) (b : Nat) (s : State) :
    blockCkpt ((blockSent p mcid m s).part p) t mcid b = blockCkpt (s.part p) t mcid b := by
  rw [blockSent, updPart_part_self]
  rfl

/-- The packets of block `m.sent`, one for each receiver (R18, R233). -/
def blockPackets (mcid : W64) (data : List Byte) (m : MStream) : List Packet :=
  m.recv.map (fun r => { dst := r.1, mc := true, mcid, block := m.sent, data })

/-- What a block's send asks for, in its order, and what it then does (R233). -/
theorem exec_multicastBlockSend {p : PartId} {t : Task} {s : State} (task : (s.part p).task = some t) (mcid : W64) (data : List Byte) :
    exec (.multicastBlockSend p mcid data) s = .next (
      let m := streamNow p mcid s
      let sent := blockSent p mcid m s
      if !t.live || data.isEmpty || decide (16384 < data.length) then s
      else if m.recv.isEmpty || !(holders m m.sent).isEmpty then s
      else if m.recv.any (fun r => !coreReachable s p r.1) then abortTask p { code := 0x22 } false s
      else toMesh p (blockPackets mcid data m) (ckptMet p (blockCkpt (sent.part p) t mcid m.sent) sent)) := by
  have run : exec (.multicastBlockSend p mcid data) s = execMulticastBlockSend p mcid data s := rfl
  rw [run, execMulticastBlockSend]
  unfold ckptMet
  simp only [task]
  rfl

/-- A block that no receiver holds back enters the mesh for each of them, its checkpoint met (R18, R233). -/
theorem exec_multicastBlockSend_free {p : PartId} {mcid : W64} {data : List Byte} {t : Task} {m : MStream} {s : State} (task : (s.part p).task = some t)
    (live : t.live = true) (stream : streamNow p mcid s = m) (nonempty : data ≠ []) (fits : data.length ≤ 16384) (received : m.recv ≠ [])
    (free : holders m m.sent = []) (reach : ∀ q ∈ m.recv, coreReachable s p q.1 = true) :
    exec (.multicastBlockSend p mcid data) s
      = .next (toMesh p (blockPackets mcid data m) (ckptMet p (blockCkpt (s.part p) t mcid m.sent) (blockSent p mcid m s))) := by
  have reachable : m.recv.any (fun r => !coreReachable s p r.1) = false := List.any_eq_false.2 (fun q hq => by simp [reach q hq])
  rw [exec_multicastBlockSend task, stream, if_neg (by simp [live, nonempty, fits]), if_neg (by simp [received, free]), if_neg (by simp [reachable]),
    blockCkpt_blockSent]

/-- One receiver holds the block past its latest send phase: the abort names it (R234). -/
theorem exec_multicastLagAbort {p : PartId} {mcid : W64} {t : Task} {m : MStream} {k : Ckpt} {q : Nat × Nat} {s : State} (task : (s.part p).task = some t)
    (live : t.live = true) (stream : streamOf (s.part p) mcid = some m) (ckpt : blockCkpt (s.part p) t mcid m.sent = some k)
    (late : k.latest < taskPhase s t) (held : holders m m.sent = [q]) :
    let u := ((streamUnit s mcid (cid q.1)).map (·.1)).getD q.2
    exec (.multicastLagAbort p mcid) s = .next (abortTask p { code := 0x23, src := q.1, unit := u, ckpt := k.idx, held := [(q.1, u)] } false s) := by
  have run : exec (.multicastLagAbort p mcid) s = execMulticastLagAbort p mcid s := rfl
  rw [run, execMulticastLagAbort]
  simp only [task, stream, ckpt]
  rw [if_pos (by simp [live, late, held]), held]
  rfl

/-- Settles O24: the send by the equation of its checks, the abort by the one receiver that holds the block. -/
theorem multicast : Obligations.Multicast := by
  unfold Obligations.Multicast
  intro p mcid data t s task live m sent packets
  refine ⟨fun nonempty fits received free reach => ?_, fun m k q stream ckpt late held => exec_multicastLagAbort task live stream ckpt late held⟩
  have block := exec_multicastBlockSend_free (m := m) task live rfl nonempty fits received free reach
  refine ⟨fun no_ckpt => ?_, fun k ckpt => ?_⟩
  · exact block.trans (by rw [no_ckpt]; rfl)
  · exact block.trans (by rw [ckpt]; rfl)

end Sys2Proof.Machine
end

section
/-! PROOF. O41, requests between their acceptance and their records: the journal, the completion ring, cancels (R305, R306, R321, R322). -/

namespace Sys2Proof.Machine

/-! ### Every element of a list, under an invariant -/

/-- What one element does and no later one undoes, where an invariant that every element keeps holds. -/
theorem forAll_reach_under {α : Type} {I P : State → Prop} {l : List α} {f : α → State → State} {s : State} {a : α} (ha : a ∈ l) (hs : I s)
    (hI : ∀ x ∈ l, ∀ t, I t → I (f x t)) (hdo : ∀ t, I t → P (f a t)) (hkeep : ∀ x ∈ l, ∀ t, I t → P t → P (f x t)) : P (forAll l f s) := by
  induction l generalizing s with
  | nil => simp at ha
  | cons x r ih =>
    have hI' : ∀ y ∈ r, ∀ t, I t → I (f y t) := fun y hy => hI y (by simp [hy])
    have hkeep' : ∀ y ∈ r, ∀ t, I t → P t → P (f y t) := fun y hy => hkeep y (by simp [hy])
    have hx : I (f x s) := hI x (by simp) s hs
    rw [forAll_cons]
    rcases List.mem_cons.1 ha with rfl | hr
    · exact (forAll_keep (fun t => I t ∧ P t) r f _ (fun y hy t ht => ⟨hI' y hy t ht.1, hkeep' y hy t ht.1 ht.2⟩) ⟨hx, hdo s hs⟩).2
    · exact ih hr hx hI' hkeep'

/-! ### Acceptance (R29, R305, R326) -/

/-- The journal lies in the memory tiers: no partition changes. -/
@[simp] theorem tierWrite_part (a : Nat) (l : List Byte) (s : State) (p : PartId) : (tierWrite a l s).part p = s.part p := by
  unfold tierWrite; split <;> rfl

@[simp] theorem journalWrite_part (p q : PartId) (k : Nat) (j : JRec) (s : State) : (journalWrite p k j s).part q = s.part q := by
  unfold journalWrite; split <;> simp

theorem journalNear_part (p : PartId) (j : JRec) (s : State) : (journalNear p j s).part p = { s.part p with journal := (s.part p).journal ++ [j] } := by
  simp [journalNear]

/-- The request `r` of partition `o`, journaled in `s`, becomes PENDING there (R305, R326). -/
def pendingNow (o : PartId) (r : Req) (s : State) : State :=
  let n := (s.part o).accSeq + 1
  trace 4 o.1 [1, r.desc.reqid.toNat] (updPart o (fun x => { x with reqs := mapIf (fun q => q.rid == r.rid) (fun q => { q with
    state := .pending, accTick := s.tick.now, accSeq := n, jslots := q.jslots - 1 }) x.reqs }) (updPart o (fun x => { x with accSeq := n }) s))

/-- The request `r` of `f` journaled in its partition's journal and its function's ring, and PENDING. -/
def acceptedNow (f : FuncId) (r : Req) (s : State) : State :=
  let o := partOfFunc s f
  let j : JRec := { rid := r.rid, func := f.1, reqid := r.desc.reqid, type := 1, tick := s.tick.now }
  pendingNow o r (journalRing f j (journalNear o j s))

/-- The cancel of `id` that `f` holds, where it holds one, acts (R321). -/
def heldCancelActs (f : FuncId) (id : W64) (s : State) : State :=
  if (s.func f).heldCancels.any (fun h => h.reqid == id) then
    cancelEvent f id (updFunc f (fun g => { g with heldCancels := g.heldCancels.filter (fun h => h.reqid != id) }) s)
  else s

theorem heldCancelActs_free {f : FuncId} {id : W64} {s : State} (h : ∀ q ∈ (s.func f).heldCancels, q.reqid ≠ id) : heldCancelActs f id s = s :=
  if_neg (by simpa using h)

theorem heldCancelActs_held {f : FuncId} {id : W64} {s : State} (h : ∃ q ∈ (s.func f).heldCancels, q.reqid = id) :
    heldCancelActs f id s = cancelEvent f id (updFunc f (fun g => { g with heldCancels := g.heldCancels.filter (fun h => h.reqid != id) }) s) :=
  if_pos (by simpa using h)

/-- In P0 to P2 the request being read is accepted once EN is set. -/
theorem exec_acceptance {f : FuncId} {r : Req} {s : State}
    (reading : (s.part (partOfFunc s f)).reqs.find? (fun r => r.func == f.1 && r.state == .reading) = some r)
    (h3 : s.pwr.state ≠ .p3) (h4 : s.pwr.state ≠ .p4) :
    exec (.acceptance f r.desc.reqid) s
      = .next (if (s.func f).en then heldCancelActs f r.desc.reqid (acceptedNow f r s) else s) := by
  have run : exec (.acceptance f r.desc.reqid) s = execAcceptance f r.desc.reqid s := rfl
  rw [run, execAcceptance]
  simp only [reading]
  cases h : (s.func f).en with
  | false => rw [if_pos (by simp)]; rfl
  | true => rw [if_neg (by simp [h3, h4])]; rfl

/-! ### Completion records (R306) -/

theorem crecBytes_length (r : CRec) : (crecBytes r).length = 64 := by
  simp [crecBytes, leBytes]

/-- The next record is dropped, waits, or is written, by the slots that its ring has released. -/
theorem exec_completionRecordWrite {f : FuncId} {r : CRec} {rest : List CRec} {s : State} (en : (s.func f).en = true) (h4 : s.pwr.state ≠ .p4)
    (next : (s.func f).waiting = r :: rest) :
    exec (.completionRecordWrite f) s = .next (
      if r.cseq ≤ (s.func f).cqRel then updFunc f (fun g => { g with waiting := rest }) s
      else if (s.func f).cqRel + 2 ^ (s.func f).cqLog < r.cseq then s
      else vecEvent f (if f.1 = 0 then 7 else 0) (updFunc f (fun g => { g with waiting := rest, cqTail := Nat.max g.cqTail r.cseq })
        (hostWrite ((s.func f).cqBase.toNat + (r.cseq - 1) % 2 ^ (s.func f).cqLog * 64) (crecBytes r) s))) := by
  have run : exec (.completionRecordWrite f) s = execCompletionRecordWrite f s := rfl
  rw [run, execCompletionRecordWrite]
  simp only [next]
  rw [if_neg (by simp [en, awake, h4])]

/-! ### Held cancels (R321) -/

/-- A request of function `f` and this REQID waits for its acceptance. -/
def beingRead (f : FuncId) (id : W64) (s : State) : Bool :=
  (s.part (partOfFunc s f)).reqs.any (fun r => r.func == f.1 && r.desc.reqid == id && r.state == .reading)

theorem exec_cancelHoldExpiry (f : FuncId) (id : W64) (s : State) :
    exec (.cancelHoldExpiry f id) s = .next (
      if !beingRead f id s && (s.func f).heldCancels.any (fun h => h.reqid == id && decide (h.tick + 1024 ≤ s.tick.now)) then
        cancelAns f id true (updFunc f (fun g => { g with heldCancels := g.heldCancels.filter (fun h => h.reqid != id) }) s)
      else s) := rfl

/-! ### Cancelled attempts (R321) -/

theorem cancelDue_iff (r : Req) : cancelDue r = true ↔ r.cancelled = true ∧ r.cancelSent = false ∧ r.segAcked = r.segSent ∧ r.desc.path ≠ 3 := by
  simp [cancelDue, and_assoc]

theorem exec_cancelledSegment {p : PartId} {id : W64} {r : Req} {s : State} (due : reqFor (s.part p) cancelDue id = some r) :
    let s1 := openAttempt p r s
    let q := reqNow s1 p r
    let s2 := updReq p q (fun q => { q with cancelSent := true }) (controlSeg p q 4 q.epoch [q.segSent] s1)
    exec (.cancelledSegment p id) s = .next (freeReq p (reqNow s2 p q) s2) := by
  have run : exec (.cancelledSegment p id) s = execCancelledSegment p id s := rfl
  intro s1 q s2
  rw [run, execCancelledSegment]
  simp only [due]
  rfl

/-! ### Cancel flags (R167, R322) -/

theorem exec_cancelFlagMessage (p : PartId) (n : W32) (i : Nat) (s : State) :
    exec (.cancelFlagMessage p n i) s = .next (
      if !linksOn s then s else if ((s.part p).task.map Task.num) = some n.toNat then flagRunning p i s else flagQueued p n.toNat i s) := rfl

/-- Aghorn sets FLAGS bit 0 in the byte at `a` of one core's working store: a core group without power drops the write, which is counted
and logged (R29, R442). -/
def flagCore (p : PartId) (num a : Nat) (c : CoreId) (s : State) : State :=
  if (groupsPowered s).contains (groupOf c.1) then updCore c (fun x => { x with ws := wr8 x.ws a (rd8 x.ws a ||| 1) }) s else aghornFault c p num s

theorem flagRunning_eq {p : PartId} {t : Task} {s : State} (task : (s.part p).task = some t) (i : Nat) :
    flagRunning p i s = updPart p (fun x => { x with task := some { t with entries := t.entries.modify i flagEntry } })
      (forAll (coresOf s p) (flagCore p t.num ((t.ltab + 16 * i + 2) % 2 ^ 21)) s) := by
  simp only [flagRunning, task]
  rfl

/-- What the marks of a cancelled entry leave alone: all but the cores, the FLT block and the functions. -/
def FlagFrame (s u : State) : Prop := u = { s with cores := u.cores, flt := u.flt, funcs := u.funcs }

theorem FlagFrame.powered {s u : State} (h : FlagFrame s u) : groupsPowered u = groupsPowered s := by rw [h]; rfl
theorem FlagFrame.part {s u : State} (h : FlagFrame s u) (p : PartId) : u.part p = s.part p := by rw [h]; rfl
theorem FlagFrame.mem {s u : State} (h : FlagFrame s u) : u.mem = s.mem := by rw [h]

theorem aghornFault_frame (c : CoreId) (p : PartId) (num : Nat) (s : State) :
    aghornFault c p num s = { s with funcs := (aghornFault c p num s).funcs, flt := (aghornFault c p num s).flt } := by
  unfold aghornFault
  rw [logR_frame]
  rfl

theorem aghornFault_core (c : CoreId) (p : PartId) (num : Nat) (s : State) (d : CoreId) : (aghornFault c p num s).core d = s.core d := by
  rw [aghornFault_frame]; rfl

theorem flagCore_frame {p : PartId} {num a : Nat} {c : CoreId} {s u : State} (h : FlagFrame s u) : FlagFrame s (flagCore p num a c u) := by
  unfold flagCore
  split
  · rw [FlagFrame, h]; rfl
  · rw [FlagFrame, aghornFault_frame, h]

/-- Only a powered core's own write changes it. -/
theorem flagCore_core {p : PartId} {num a : Nat} {c d : CoreId} {s : State} :
    (flagCore p num a d s).core c
      = if c = d ∧ groupOf d.1 ∈ groupsPowered s then { s.core c with ws := wr8 (s.core c).ws a (rd8 (s.core c).ws a ||| 1) } else s.core c := by
  unfold flagCore
  by_cases h : groupOf d.1 ∈ groupsPowered s
  · rw [if_pos (by simpa using h), updCore_core]
    by_cases e : c = d
    · subst e; simp [h]
    · simp [e]
  · rw [if_neg (by simpa using h), aghornFault_core, if_neg (fun e => h e.2)]

/-- A core outside the partition, or without power, is left as it was. -/
theorem flagCores_untouched {p : PartId} {num a : Nat} {c : CoreId} {l : List CoreId} {s : State} (h : c ∉ l ∨ groupOf c.1 ∉ groupsPowered s) :
    (forAll l (flagCore p num a) s).core c = s.core c := by
  refine (forAll_keep (fun t => FlagFrame s t ∧ t.core c = s.core c) l _ s (fun d hd t ht => ⟨flagCore_frame ht.1, ?_⟩) ⟨rfl, rfl⟩).2
  rw [flagCore_core, ht.1.powered, if_neg, ht.2]
  rintro ⟨rfl, on⟩
  exact h.elim (fun out => out hd) (fun off => off on)

/-- Core `c` while the marks are made: its store is canonical, only the byte at `a` may differ, and that by bit 0 alone. -/
structure FlagKept (a : Nat) (c : CoreId) (s u : State) : Prop where
  frame  : FlagFrame s u
  wf     : Memory.wf (u.core c).ws
  others : ∀ b, b ≠ a → rd8 (u.core c).ws b = rd8 (s.core c).ws b
  byte   : rd8 (u.core c).ws a ||| 1 = rd8 (s.core c).ws a ||| 1

theorem flagCore_kept {p : PartId} {num a : Nat} {c d : CoreId} {s u : State} (h : FlagKept a c s u) : FlagKept a c s (flagCore p num a d u) := by
  have core := flagCore_core (p := p) (num := num) (a := a) (c := c) (d := d) (s := u)
  by_cases own : c = d ∧ groupOf d.1 ∈ groupsPowered u
  · rw [if_pos own] at core
    refine ⟨flagCore_frame h.frame, ?_, fun b hb => ?_, ?_⟩
    · rw [core]; exact wr8_wf _ _ _ h.wf
    · rw [core, rd8_wr8 _ _ _ _ h.wf, if_neg hb, h.others b hb]
    · rw [core, rd8_wr8 _ _ _ _ h.wf, if_pos rfl, BitVec.or_assoc, BitVec.or_self, h.byte]
  · rw [if_neg own] at core
    exact ⟨flagCore_frame h.frame, by rw [core]; exact h.wf, by rw [core]; exact h.others, by rw [core]; exact h.byte⟩

/-- Every powered core of the list has the bit set in its table, and every other byte as before. -/
theorem flagCores_marked {p : PartId} {num a : Nat} {c : CoreId} {l : List CoreId} {s : State} (hc : c ∈ l) (on : groupOf c.1 ∈ groupsPowered s)
    (wf : Memory.wf (s.core c).ws) :
    rd8 ((forAll l (flagCore p num a) s).core c).ws a = (rd8 (s.core c).ws a ||| 1)
      ∧ ∀ b, b ≠ a → rd8 ((forAll l (flagCore p num a) s).core c).ws b = rd8 (s.core c).ws b := by
  have start : FlagKept a c s s := ⟨rfl, wf, fun _ _ => rfl, rfl⟩
  have kept := forAll_keep (FlagKept a c s) l (flagCore p num a) s (fun _ _ _ h => flagCore_kept h) start
  refine ⟨forAll_reach_under (P := fun t => rd8 (t.core c).ws a = (rd8 (s.core c).ws a ||| 1)) hc start (fun _ _ _ h => flagCore_kept h) (fun t h => ?_)
    (fun d _ t h marked => ?_), kept.others⟩
  · rw [flagCore_core, h.frame.powered, if_pos ⟨rfl, on⟩, rd8_wr8 _ _ _ _ h.wf, if_pos rfl, h.byte]
  · rw [flagCore_core]
    split
    · rw [rd8_wr8 _ _ _ _ h.wf, if_pos rfl, h.byte]
    · exact marked

/-- A follower marks an entry of the task that runs (R322). -/
theorem flagRunning_marks {p : PartId} {t : Task} {s : State} (task : (s.part p).task = some t) (i : Nat) :
    let u := flagRunning p i s
    let a := (t.ltab + 16 * i + 2) % 2 ^ 21
    (u.part p).task = some { t with entries := t.entries.modify i flagEntry } ∧ (∀ q, q ≠ p → u.part q = s.part q) ∧ u.mem = s.mem
      ∧ (∀ c, c ∉ coresOf s p ∨ groupOf c.1 ∉ groupsPowered s → u.core c = s.core c)
      ∧ ∀ c ∈ coresOf s p, groupOf c.1 ∈ groupsPowered s → Memory.wf (s.core c).ws →
        rd8 (u.core c).ws a = (rd8 (s.core c).ws a ||| 1) ∧ ∀ b, b ≠ a → rd8 (u.core c).ws b = rd8 (s.core c).ws b := by
  intro u a
  have frame : FlagFrame s (forAll (coresOf s p) (flagCore p t.num a) s) := forAll_keep (FlagFrame s) _ _ s (fun _ _ _ h => flagCore_frame h) rfl
  have marked : u = updPart p (fun x => { x with task := some { t with entries := t.entries.modify i flagEntry } })
      (forAll (coresOf s p) (flagCore p t.num a) s) := flagRunning_eq task i
  rw [marked]
  refine ⟨?_, fun q hq => ?_, frame.mem, fun c h => flagCores_untouched h, fun c hc on wf => flagCores_marked hc on wf⟩
  · rw [updPart_part_self]
  · rw [updPart_part, if_neg hq, frame.part]

/-! ### The statement -/

/-- Settles O41: each command by its own equation; the marks of a running task's entry by an invariant over its cores. -/
theorem requestRecords : Obligations.RequestRecords := by
  unfold Obligations.RequestRecords
  intro f p s
  refine ⟨?accept, fun j => journalNear_part p j s, ?record, ?expiry, fun id r due => exec_cancelledSegment due, cancelDue_iff, ?off, ?flags⟩
  case accept =>
    intro r reading h3 h4 o id j s1 n t
    have accept := exec_acceptance reading h3 h4
    refine ⟨fun en => ?_, fun en free => ?_, fun en held => ?_⟩
    · rw [accept, en]; rfl
    · exact accept.trans (by rw [if_pos en]; exact congrArg _ (heldCancelActs_free free))
    · exact accept.trans (by rw [if_pos en]; exact congrArg _ (heldCancelActs_held held))
  case record =>
    intro r rest en h4 next a
    have record := exec_completionRecordWrite en h4 next
    refine ⟨fun released => ?_, fun full => ?_, fun new room => ⟨?_, fun wf b hb => ?_⟩⟩
    · rw [record, if_pos released]
    · rw [record, if_neg (Nat.not_le.2 (Nat.lt_of_le_of_lt (Nat.le_add_right ..) full)), if_pos full]
    · rw [record, if_neg (by omega), if_neg (by omega)]; rfl
    · exact rd8_wrBytes_outside _ _ _ _ wf (by rwa [crecBytes_length])
  case expiry =>
    intro h held read
    refine ⟨fun reads => ?_, fun unread old => ?_, fun young => ?_⟩
    · rw [exec_cancelHoldExpiry, show beingRead f h.reqid s = true from reads]; rfl
    · have due : (s.func f).heldCancels.any (fun q => q.reqid == h.reqid && decide (q.tick + 1024 ≤ s.tick.now)) = true :=
        List.any_eq_true.2 ⟨h, held, by simp [old]⟩
      rw [exec_cancelHoldExpiry, show beingRead f h.reqid s = false from unread, due]; rfl
    · have none_due : (s.func f).heldCancels.any (fun q => q.reqid == h.reqid && decide (q.tick + 1024 ≤ s.tick.now)) = false :=
        List.any_eq_false.2 (fun q hq => by simpa using young q hq)
      rw [exec_cancelHoldExpiry, none_due, Bool.and_false]; rfl
  case off => intro off n i; rw [exec_cancelFlagMessage, off]; rfl
  case flags =>
    intro on n i
    refine ⟨fun t task num => ⟨flagRunning p i s, ?_, flagRunning_marks task i⟩, fun other => ?_⟩
    · rw [exec_cancelFlagMessage, on, task]; simp [num]
    · have not_running : ¬ (s.part p).task.map Task.num = some n.toNat := by
        intro e
        obtain ⟨t, ht, hn⟩ := Option.map_eq_some_iff.1 e
        exact other t ht hn
      rw [exec_cancelFlagMessage, on, if_neg (by simp), if_neg not_running]; rfl

end Sys2Proof.Machine
end

section
/-! PROOF. O35, the value of an E8M0 scale byte: a power of two between the least FP32 magnitude and 2 ^ 127 rounds to itself. -/

namespace Sys2Proof.Machine

/-! ### Powers of two in FP32 (R37, R40, R45) -/

theorem pow2Num_pos (k : Int) : 0 < pow2Num k := Nat.two_pow_pos _
theorem pow2Den_pos (k : Int) : 0 < pow2Den k := Nat.two_pow_pos _

@[simp] theorem log2_pow2Num (k : Int) : Nat.log2 (pow2Num k) = k.toNat := Nat.log2_two_pow
@[simp] theorem log2_pow2Den (k : Int) : Nat.log2 (pow2Den k) = (-k).toNat := Nat.log2_two_pow

/-- Two to the `k`, as 2 ^ `j` quanta of 2 ^ (`k` - `j`), with the denominators cleared. -/
theorem pow2_shift (j : Nat) (k : Int) : pow2Num k * pow2Den (k - j) = 2 ^ j * (pow2Den k * pow2Num (k - j)) := by
  simp only [pow2Num, pow2Den, ← Nat.pow_add]
  congr 1
  omega

theorem floorLog2_pow2 (k : Int) : floorLog2 (pow2Num k) (pow2Den k) = k := by
  simp [floorLog2, Nat.mul_comm (pow2Den k)]

/-- An integer is its own nearest integer. -/
theorem rneQuot_mul {d : Nat} (hd : 0 < d) (c : Nat) : rneQuot (c * d) d = c := by
  simp [rneQuot, hd]

/-- The code of 2 ^ `k`, whose quantum in the format is 2 ^ (`k` - `j`). -/
theorem magCode_pow2 {mw j : Nat} {qmin k : Int} (hq : max qmin (k - mw) = k - j) :
    magCode mw qmin (pow2Num k) (pow2Den k) = (k - j - qmin).toNat * 2 ^ mw + 2 ^ j := by
  have quant : quantum mw qmin (pow2Num k) (pow2Den k) = k - j := by rw [quantum, floorLog2_pow2, hq]
  simp only [magCode, if_neg (pow2Num_pos k).ne', quant, pow2_shift, rneQuot_mul (Nat.mul_pos (pow2Den_pos _) (pow2Num_pos _))]

theorem codeVal_subnormal {mw c : Nat} (h : c < 2 ^ mw) (qmin : Int) : codeVal mw qmin c = (c, qmin) := by
  simp [codeVal, Nat.div_eq_of_lt h, Nat.mod_eq_of_lt h]

theorem codeVal_binade (mw x : Nat) (qmin : Int) : codeVal mw qmin ((x + 1) * 2 ^ mw) = (2 ^ mw, qmin + x) := by
  simp [codeVal, ← add_assoc]

/-- A rounding below the infinity code delivers the magnitude code. -/
theorem roundIEEE_code {mw infc n d : Nat} {qmin : Int} (hn : n ≠ 0) (h : magCode mw qmin n d < infc) :
    (roundIEEE mw qmin infc n d).1 = magCode mw qmin n d := by
  simp [roundIEEE, hn, h.not_ge]

/-- The pattern of a finite magnitude code decodes without a sign. -/
theorem dec32_ofNat {c : Nat} (h : c < 0x7F800000) :
    dec32 (BitVec.ofNat 32 c) = .fin false (codeVal 23 (-149) c).1 (codeVal 23 (-149) c).2 := by
  have pattern : (BitVec.ofNat 32 c).toNat = c := BitVec.toNat_ofNat .. |>.trans (Nat.mod_eq_of_lt (by omega))
  have unsigned : (BitVec.ofNat 32 c).msb = false := by rw [BitVec.msb_eq_false_iff_two_mul_lt, pattern]; omega
  simp only [dec32, pattern, unsigned, Nat.mod_eq_of_lt (show c < 2 ^ 31 by omega), if_pos h]

theorem dec32_rnd32 {n d : Nat} (hn : n ≠ 0) (h : magCode 23 (-149) n d < 0x7F800000) :
    dec32 (rnd32 false n d) = .fin false (codeVal 23 (-149) (magCode 23 (-149) n d)).1 (codeVal 23 (-149) (magCode 23 (-149) n d)).2 := by
  have code : rnd32 false n d = BitVec.ofNat 32 (magCode 23 (-149) n d) := by simp [rnd32, rnd32f, roundIEEE_code hn h]
  rw [code, dec32_ofNat h]

/-- A power of two of FP32 rounds to itself: a subnormal one is 2 ^ (`k` + 149) least quanta, a normal one has the significand 2 ^ 23. -/
theorem dec32_rnd32_pow2 {k : Int} (lo : -149 ≤ k) (hi : k ≤ 127) :
    ∃ j : Nat, dec32 (rnd32 false (pow2Num k) (pow2Den k)) = .fin false (2 ^ j) (k - j) := by
  rcases lt_or_ge k (-126) with sub | norm
  · obtain ⟨j, hj⟩ : ∃ j : Nat, k = j - 149 := ⟨(k + 149).toNat, by omega⟩
    have code : magCode 23 (-149) (pow2Num k) (pow2Den k) = 2 ^ j := by
      rw [magCode_pow2 (j := j) (by omega)]; simp [hj]
    have small : 2 ^ j < 2 ^ 23 := Nat.pow_lt_pow_right (by decide) (by omega)
    refine ⟨j, ?_⟩
    rw [dec32_rnd32 (pow2Num_pos k).ne' (by omega), code, codeVal_subnormal small, hj]
    simp
  · obtain ⟨x, hx⟩ : ∃ x : Nat, k = x - 126 := ⟨(k + 126).toNat, by omega⟩
    have code : magCode 23 (-149) (pow2Num k) (pow2Den k) = (x + 1) * 2 ^ 23 := by
      rw [magCode_pow2 (j := 23) (by omega)]; omega
    refine ⟨23, ?_⟩
    rw [dec32_rnd32 (pow2Num_pos k).ne' (by omega), code, codeVal_binade, hx]
    congr 1; omega

theorem e8m0_nan : dec32 (e8m0 0xFF) = .nan := by decide

/-- Settles O35: a scale byte other than 0xFF is the rounding of a power of two that FP32 holds. -/
theorem scaleBytes : Obligations.ScaleBytes := by
  intro b
  refine ⟨fun h => h ▸ e8m0_nan, fun h => ?_⟩
  have byte : b.toNat ≠ 255 := fun e => h (BitVec.eq_of_toNat_eq e)
  obtain ⟨j, value⟩ := dec32_rnd32_pow2 (k := (b.toNat : Int) - 127) (by omega) (by omega)
  refine ⟨2 ^ j, (b.toNat : Int) - 127 - j, by rw [e8m0, if_neg byte]; exact value, ?_⟩
  rw [dyNum, dyDen, pow2_shift, Nat.mul_assoc, Nat.mul_comm (pow2Num _)]

end Sys2Proof.Machine
end

section
/-! PROOF. O37, the value of a block of products. A block's record says which special products its list holds, and the finite sum
(R61, R62); the block's value then follows the order of precedence of R62. -/

namespace Sys2Proof.Machine

/-! ### What the record of a block says of its products (R61, R62) -/

/-- The record says that the block holds an infinite product, negative where `neg`. -/
def BSum.holdsInf (b : BSum) (neg : Bool) : Bool := if neg then b.neg else b.pos

/-- The record `b` says of the products `l` which special values they hold, and their finite sum. -/
structure Records (l : List (Elem × Elem)) (b : BSum) : Prop where
  nan : b.nan = true ↔ ∃ x ∈ l, hasNan x
  infZero : b.infZero = true ↔ ∃ x ∈ l, infTimesZero x
  inf : ∀ neg, b.holdsInf neg = true ↔ ∃ x ∈ l, infProduct x neg
  sum : b.sum = (l.map exactProduct).sum

/-- The block holds an infinite product besides, negative where `neg`. -/
def BSum.addInf (b : BSum) (neg : Bool) : BSum := if neg then { b with neg := true } else { b with pos := true }

@[simp] theorem addInf_nan (b : BSum) (neg : Bool) : (b.addInf neg).nan = b.nan := by cases neg <;> rfl
@[simp] theorem addInf_infZero (b : BSum) (neg : Bool) : (b.addInf neg).infZero = b.infZero := by cases neg <;> rfl
@[simp] theorem addInf_sum (b : BSum) (neg : Bool) : (b.addInf neg).sum = b.sum := by cases neg <;> rfl
@[simp] theorem addInf_holdsInf (b : BSum) (s neg : Bool) : (b.addInf s).holdsInf neg = (b.holdsInf neg || s == neg) := by
  cases s <;> cases neg <;> simp [BSum.addInf, BSum.holdsInf]

theorem bstep_inf_inf (b : BSum) (s t : Bool) : bstep b (.inf s) (.inf t) = b.addInf (s != t) := rfl

theorem bstep_inf_fin (b : BSum) (s : Bool) (v : Int) :
    bstep b (.inf s) (.fin v) = if v = 0 then { b with infZero := true } else b.addInf (s != decide (v < 0)) := rfl

theorem bstep_fin_inf (b : BSum) (s : Bool) (v : Int) :
    bstep b (.fin v) (.inf s) = if v = 0 then { b with infZero := true } else b.addInf (s != decide (v < 0)) := rfl

/-- A product adds to the record what it is, and nothing else. -/
theorem bstep_adds (b : BSum) (x : Elem × Elem) :
    ((bstep b x.1 x.2).nan = true ↔ b.nan = true ∨ hasNan x)
    ∧ ((bstep b x.1 x.2).infZero = true ↔ b.infZero = true ∨ infTimesZero x)
    ∧ (∀ neg, (bstep b x.1 x.2).holdsInf neg = true ↔ b.holdsInf neg = true ∨ infProduct x neg)
    ∧ (bstep b x.1 x.2).sum = b.sum + exactProduct x := by
  obtain ⟨a, w⟩ := x
  cases a with
  | nan => simp [bstep, hasNan, infTimesZero, infProduct, exactProduct, BSum.holdsInf]
  | inf s =>
    cases w with
    | nan => simp [bstep, hasNan, infTimesZero, infProduct, exactProduct, BSum.holdsInf]
    | inf t => simp [bstep_inf_inf, hasNan, infTimesZero, infProduct, exactProduct]
    | fin v =>
      by_cases zero : v = 0
      · simp [bstep_inf_fin, zero, hasNan, infTimesZero, infProduct, exactProduct, BSum.holdsInf]
      · simp [bstep_inf_fin, zero, hasNan, infTimesZero, infProduct, exactProduct]
  | fin v =>
    cases w with
    | nan => simp [bstep, hasNan, infTimesZero, infProduct, exactProduct, BSum.holdsInf]
    | inf s =>
      by_cases zero : v = 0
      · simp [bstep_fin_inf, zero, hasNan, infTimesZero, infProduct, exactProduct, BSum.holdsInf]
      · simp [bstep_fin_inf, zero, hasNan, infTimesZero, infProduct, exactProduct]
    | fin u => simp [bstep, hasNan, infTimesZero, infProduct, exactProduct, BSum.holdsInf]

theorem records_nil : Records [] {} := by
  constructor <;> simp [BSum.holdsInf]

theorem Records.append {l : List (Elem × Elem)} {b : BSum} (h : Records l b) (x : Elem × Elem) : Records (l ++ [x]) (bstep b x.1 x.2) := by
  obtain ⟨nan, infZero, inf, sum⟩ := bstep_adds b x
  constructor
  · simp [nan, h.nan, or_and_right, exists_or]
  · simp [infZero, h.infZero, or_and_right, exists_or]
  · simp [inf, h.inf, or_and_right, exists_or]
  · simp [sum, h.sum]

theorem bsum_records (as ws : List Elem) : Records (List.zip as ws) (bsum as ws) := by
  unfold bsum
  induction List.zip as ws using List.reverseRecOn with
  | nil => exact records_nil
  | append_singleton l x ih => rw [List.foldl_concat]; exact ih.append x

/-- A flag that says whether a list holds a product of some kind is clear where no product is of that kind. -/
theorem eq_false_of_none {α : Type} {l : List α} {P : α → Prop} {flag : Bool}
    (iff : flag = true ↔ ∃ x ∈ l, P x) (no : ∀ x ∈ l, ¬ P x) : flag = false :=
  Bool.eq_false_iff.2 (fun set => let ⟨x, hx, hP⟩ := iff.1 set; no x hx hP)

/-! ### The value of a block, by the precedence of R62 -/

theorem blockB_nan {b : BSum} {sa sw : W32} (h : b.nan = true ∨ isNan32 sa = true ∨ isNan32 sw = true) : (blockB b sa sw).1 = nan32 := by
  rw [blockB, if_pos (by simpa [or_assoc] using h)]

section
variable {b : BSum} {sa sw : W32} (nan : b.nan = false) (na : isNan32 sa = false) (nw : isNan32 sw = false)
include nan na nw

theorem blockB_infZero (h : b.infZero = true) : (blockB b sa sw).1 = nan32 := by
  simp [blockB, nan, na, nw, h]

variable (infZero : b.infZero = false)
include infZero

theorem blockB_bothSigns (neg : b.neg = true) (pos : b.pos = true) : (blockB b sa sw).1 = nan32 := by
  simp [blockB, nan, na, nw, infZero, pos, neg]

/-- Infinite products of one sign decide the block, whatever its finite products are. -/
theorem blockB_oneSign {sg : Bool} (h : b.holdsInf sg = true) (other : b.holdsInf (!sg) = false) :
    (blockB b sa sw).1 = if isZero32 sa = true ∨ isZero32 sw = true then nan32 else inf32 (sg != (sa.msb != sw.msb)) := by
  obtain ⟨neg, pos⟩ : b.neg = sg ∧ b.pos = !sg := by cases sg <;> exact ⟨by assumption, by assumption⟩
  simp [blockB, nan, na, nw, infZero, pos, neg, apply_ite Prod.fst]

variable (neg : b.neg = false) (pos : b.pos = false)
include neg pos

theorem blockB_infScale (h : isInf32 sa = true ∨ isInf32 sw = true) : (blockB b sa sw).1
    = if b.sum = 0 ∨ isZero32 sa = true ∨ isZero32 sw = true then nan32 else inf32 (decide (b.sum < 0) != (sa.msb != sw.msb)) := by
  simp [blockB, nan, na, nw, infZero, pos, neg, h, apply_ite Prod.fst]

variable (finScales : ¬ (isInf32 sa = true ∨ isInf32 sw = true))
include finScales

theorem blockB_zero (h : b.sum = 0 ∨ isZero32 sa = true ∨ isZero32 sw = true) : (blockB b sa sw).1 = 0 := by
  simp [blockB, nan, na, nw, infZero, pos, neg, finScales, h]

theorem blockB_rounded (h : ¬ (b.sum = 0 ∨ isZero32 sa = true ∨ isZero32 sw = true)) {s1 s2 : Bool} {m n : Nat} {e f : Int}
    (da : dec32 sa = .fin s1 m e) (dw : dec32 sw = .fin s2 n f) : (blockB b sa sw).1
      = rnd32 (decide (b.sum < 0) != (sa.msb != sw.msb)) (b.sum.natAbs * m * n * pow2Num (e + f - 36)) (pow2Den (e + f - 36)) := by
  simp [blockB, nan, na, nw, infZero, pos, neg, finScales, h, da, dw, rnd32]

end

theorem dec32_of_isInf32 {w : W32} (h : isInf32 w = true) : dec32 w = .inf w.msb := by
  have code : w.toNat % 2 ^ 31 = 0x7F800000 := of_decide_eq_true h
  simp only [dec32, code]
  rfl

theorem not_isInf32_of_dec32_fin {w : W32} {s : Bool} {m : Nat} {e : Int} (h : dec32 w = .fin s m e) : ¬ isInf32 w = true :=
  fun inf => by simp [dec32_of_isInf32 inf] at h

/-- Settles O37: the record of a block says which special products it holds, and R62's precedence then decides the value. -/
theorem blockSums : Obligations.BlockSums := by
  intro as ws sa sw l b zeroScale infScale neg sum
  have record : Records l (bsum as ws) := bsum_records as ws
  refine ⟨fun h => blockB_nan (by rwa [record.nan]), fun noNan na nw => ?_⟩
  have nan := eq_false_of_none record.nan noNan
  refine ⟨fun h => blockB_infZero nan na nw (record.infZero.2 h), fun noInfZero => ?_⟩
  have infZero := eq_false_of_none record.infZero noInfZero
  refine ⟨fun minus plus => ?bothSigns, fun sg holds other => ?oneSign, fun noneInf => ?finite⟩
  case bothSigns => exact blockB_bothSigns nan na nw infZero ((record.inf true).2 minus) ((record.inf false).2 plus)
  case oneSign =>
    have value := blockB_oneSign nan na nw infZero ((record.inf sg).2 holds) (eq_false_of_none (record.inf _) other)
    exact ⟨fun zero => value.trans (if_pos zero), fun nonzero => value.trans (if_neg nonzero)⟩
  case finite =>
    have noInf (sg : Bool) : (bsum as ws).holdsInf sg = false := eq_false_of_none (record.inf sg) (fun x hx => noneInf x hx sg)
    have minus : (bsum as ws).neg = false := noInf true
    have plus : (bsum as ws).pos = false := noInf false
    rw [show sum = (bsum as ws).sum from record.sum.symm]
    refine ⟨fun inf zero => ?_, fun inf nonzero scales => ?_, fun fin zero => ?_, fun s1 s2 m n e f da dw nonzero scales => ?_⟩
    · exact (blockB_infScale nan na nw infZero minus plus inf).trans (if_pos (.inl zero))
    · exact (blockB_infScale nan na nw infZero minus plus inf).trans (if_neg (not_or.2 ⟨nonzero, scales⟩))
    · exact blockB_zero nan na nw infZero minus plus fin zero
    · have fin : ¬ infScale := not_or.2 ⟨not_isInf32_of_dec32_fin da, not_isInf32_of_dec32_fin dw⟩
      exact blockB_rounded nan na nw infZero minus plus fin (not_or.2 ⟨nonzero, scales⟩) da dw

end Sys2Proof.Machine
end

section
/-! PROOF. O16, the issue of an MM or CX (R246, R247, R251-R253, R283): its entry, its queue, and the sweep it moves on. -/

namespace Sys2Proof.Machine

/-! ### The entry of an MM or CX (R251-R253) -/

theorem withSweep_frame (s : State) (c : CoreId) (tab : List LRow) (g : Engine) (e : MMEntry) :
    let w := withSweep s c tab g e
    w = { e with rows := w.rows, key := w.key, first := w.first, khead := w.khead, qhead := w.qhead, qtile := w.qtile
                 pv := w.pv, fresh := w.fresh, skipped := w.skipped } := by
  unfold withSweep
  dsimp only
  split
  · rfl
  · split
    · rfl
    · split <;> rfl

theorem withExtent_frame (s : State) (c : CoreId) (e : MMEntry) :
    withExtent s c e = { e with kReal := (withExtent s c e).kReal, nReal := (withExtent s c e).nReal } := by
  unfold withExtent
  dsimp only
  split <;> rfl

/-- What an MM or CX reads at issue, before it takes its rows and its tile (R251-R253). -/
def readEntry (x : Core) (h : TileHdr) (b : MMBody) (xd : Option Nat) (ch : Option (List Byte)) (id : Nat) : MMEntry :=
  { id, pc := x.pc, ckpt := h.ckpt.toNat, body := b, xd, rowD := x.getS b.sa, wD := x.getS b.sw, sideD := x.getS b.sx
    chain := ch, scalarC := (x.getS (Fin.ofNat 64 (chSC (ch.getD [])))).setWidth 32 }

/-- The entry that an MM or CX becomes: what it reads, as its core took an identity for it, with its place in the sweep and its extents. -/
def issuedMM (c : CoreId) (h : TileHdr) (b : MMBody) (xd : Option Nat) (s : State) : MMEntry :=
  mmEntry (takeId c s).2 c h b xd (epiOf (s.core c) b) (s.core c).issued

section
variable (c : CoreId) (h : TileHdr) (b : MMBody) (xd : Option Nat) (s : State)

theorem takeId_core : (takeId c s).2.core c = { s.core c with issued := (s.core c).issued + 1 } := updCore_core_self ..

/-- What the line of `s` reads at issue. -/
def issuedRead : MMEntry := readEntry (s.core c) h b xd (epiOf (s.core c) b) (s.core c).issued

theorem issuedMM_eq : ∃ tab g, issuedMM c h b xd s = withExtent (takeId c s).2 c (withSweep (takeId c s).2 c tab g (issuedRead c h b xd s)) := by
  have read : issuedRead c h b xd s = readEntry ((takeId c s).2.core c) h b xd (epiOf (s.core c) b) (s.core c).issued := by rw [takeId_core]; rfl
  rw [read]
  exact ⟨_, _, rfl⟩

/-- The marks of the sweep and the extents are all that an entry does not read from its line and its registers. -/
theorem issuedMM_frame : let e := issuedMM c h b xd s
    e = { issuedRead c h b xd s with
      rows := e.rows, key := e.key, first := e.first, khead := e.khead, qhead := e.qhead, qtile := e.qtile
      pv := e.pv, fresh := e.fresh, skipped := e.skipped, kReal := e.kReal, nReal := e.nReal } := by
  obtain ⟨tab, g, eq⟩ := issuedMM_eq c h b xd s
  rw [eq, withExtent_frame, withSweep_frame]

@[simp] theorem issuedMM_body : (issuedMM c h b xd s).body = b := by rw [issuedMM_frame]; rfl
@[simp] theorem issuedMM_rowD : (issuedMM c h b xd s).rowD = (s.core c).getS b.sa := by rw [issuedMM_frame]; rfl
@[simp] theorem issuedMM_wD : (issuedMM c h b xd s).wD = (s.core c).getS b.sw := by rw [issuedMM_frame]; rfl
@[simp] theorem issuedMM_sideD : (issuedMM c h b xd s).sideD = (s.core c).getS b.sx := by rw [issuedMM_frame]; rfl
@[simp] theorem issuedMM_pc : (issuedMM c h b xd s).pc = (s.core c).pc := by rw [issuedMM_frame]; rfl
@[simp] theorem issuedMM_ckpt : (issuedMM c h b xd s).ckpt = h.ckpt.toNat := by rw [issuedMM_frame]; rfl

theorem namesTable_issuedMM : namesTable (issuedMM c h b xd s) = sLen ((s.core c).getS b.sx).toNat := by simp [namesTable]

end

/-- An instruction that names no lengths table is no PV (R176). -/
theorem issuedMM_pv_of_plain {c : CoreId} {h : TileHdr} {b : MMBody} {xd : Option Nat} {s : State}
    (plain : sLen ((s.core c).getS b.sx).toNat = false) : (issuedMM c h b xd s).pv = false := by
  obtain ⟨tab, g, eq⟩ := issuedMM_eq c h b xd s
  have table : namesTable (issuedRead c h b xd s) = false := plain
  rw [eq, withExtent_frame, withSweep, table]
  rfl

/-! ### The queue of an engine, and the sweep (R80, R174, R176) -/

/-- An instruction stands in its engine's queue, and a later BIND may take it (R247, R254). -/
def queuedMM (e : MMEntry) (g : Engine) : Engine :=
  { g with queue := g.queue ++ [e], toBind := if (e.chain.map bindsVX).getD false then some e else none }

/-- The walk snapshot of an engine's scoop unit counts as used (R200; log 163). -/
def snapUsed (u : Scoop) : Scoop := { u with snap := u.snap.map (fun k => { k with used := true }) }

/-- A core with its engine's instruction queued and its unit's snapshot used. -/
def withQueued (e : MMEntry) (x : Core) : Core :=
  { x with eng := x.eng.set e.body.eng.1 (queuedMM e x.eng[e.body.eng])
           su := x.su.set e.body.eng.1 (snapUsed (x.su[e.body.eng.castSucc])) }

theorem enqueueMM_eq (c : CoreId) (e : MMEntry) (s : State) : enqueueMM c e s = updCore c (withQueued e) s := by
  rw [enqueueMM, useSnap, updScoop, updEngine, updCore_updCore]
  rfl

theorem withQueued_su (c : CoreId) (e : MMEntry) (s : State) : (withQueued e (s.core c)).su = ((useSnap c e.body.eng s).core c).su := by
  simp [useSnap, updScoop, withQueued, snapUsed]

theorem withQueued_queue {e : MMEntry} {k : Fin 4} (h : e.body.eng = k) (x : Core) : ((withQueued e x).eng[k]).queue = (x.eng[k]).queue ++ [e] := by
  subst h
  simp [withQueued, queuedMM]

theorem withQueued_other {e : MMEntry} {k : Fin 4} (h : k ≠ e.body.eng) (x : Core) : (withQueued e x).eng[k] = x.eng[k] := by
  have other : e.body.eng.1 ≠ k.1 := fun eq => h (Fin.ext eq.symm)
  simp [withQueued, Vector.getElem_set_ne _ _ other]

section
variable {e : MMEntry}

theorem admitMM_outside (score : (e.body.score && namesTable e) = false) (pv : e.pv = false) (c : CoreId) (s : State) :
    admitMM c e s = enqueueMM c e s := by
  simp [admitMM, score, pv]

theorem admitMM_score (score : (e.body.score && namesTable e) = true) (live : whollyMasked e = false) (c : CoreId) (s : State) :
    admitMM c e s = enqueueMM c e (updEngine c e.body.eng (afterScore s c (tableOf s c e) e false) s) := by
  simp only [admitMM, score, live]
  rfl

theorem admitMM_pv (score : e.body.score = false) (pv : e.pv = true) (live : e.skipped = false) (c : CoreId) (s : State) :
    admitMM c e s = enqueueMM c e (updEngine c e.body.eng (afterPV e) s) := by
  simp [admitMM, score, pv, live]

end

/-! ### The line (R246, R247, R251) -/

/-- The exchange that a CX names is open; an MM names none (R283). -/
def withExchange (c : CoreId) (xd : Option Nat) (s : State) : State := xd.elim s (fun k => openExchange c k s)

section
variable {c : CoreId} {h : TileHdr} {b : MMBody} {s : State}

/-- The lengths table that the line names, where it names one, is in order (R167). -/
def TableInOrder (c : CoreId) (h : TileHdr) (b : MMBody) (xd : Option Nat) (s : State) : Prop :=
  namesTable (issuedMM c h b xd s) = true → segsAscend (tableOf (takeId c s).2 c (issuedMM c h b xd s)) = true

variable (takes : TakesLine c h s) (room : ((s.core c).eng[b.eng]).queue.length < 8) (legal : mmReject s c b = none)
include takes room legal

/-- A line that nothing holds back and whose descriptors are legal: its table and its group are looked at, and then it is admitted. -/
theorem mmIssue_legal (xd : Option Nat) :
    mmIssue c h b xd s =
      if namesTable (issuedMM c h b xd s) && !segsAscend (tableOf (takeId c s).2 c (issuedMM c h b xd s)) then transferFault c (takeId c s).2
      else if !(xd.map (fun k => groupUsable c k (takeId c s).2)).getD true then abortOf c { code := 0x27, src := c.1, unusable := true } (takeId c s).2
      else nextLine c (admitMM c (issuedMM c h b xd s) (withExchange c xd (takeId c s).2)) := by
  have notFull : decide (8 ≤ ((s.core c).eng[b.eng]).queue.length) = false := by simpa using room
  rw [mmIssue, issue_eq takes _ notFull, legal]
  cases xd <;> rfl

theorem mmIssue_admitted (xd : Option Nat) (table : TableInOrder c h b xd s)
    (group : (xd.map (fun k => groupUsable c k (takeId c s).2)).getD true = true) :
    mmIssue c h b xd s = nextLine c (admitMM c (issuedMM c h b xd s) (withExchange c xd (takeId c s).2)) := by
  rw [mmIssue_legal takes room legal, if_neg (by simpa [TableInOrder] using table), if_neg (by simp [group])]

variable (wf : MMBody.wellFormed b = true)
include wf

theorem exec_mm_admitted (table : TableInOrder c h b none s) :
    exec (.mm c h b) s = .next (nextLine c (admitMM c (issuedMM c h b none s) (takeId c s).2)) := by
  have run : exec (.mm c h b) s = staticCheck b.wellFormed "MM" (mmIssue c h b none s) := rfl
  rw [run, wf, mmIssue_admitted takes room legal none table rfl]
  rfl

theorem exec_cx_admitted (xd : BitVec 9) (table : TableInOrder c h b (some xd.toNat) s) (usable : groupUsable c xd.toNat (takeId c s).2 = true) :
    exec (.cx c h b xd) s = .next (nextLine c (admitMM c (issuedMM c h b (some xd.toNat) s) (openExchange c xd.toNat (takeId c s).2))) := by
  have run : exec (.cx c h b xd) s = staticCheck b.wellFormed "CX" (mmIssue c h b (some xd.toNat) s) := rfl
  rw [run, wf, mmIssue_admitted takes room legal _ table usable]
  rfl

/-- The core after an MM outside every sweep: the MM is queued, its unit's snapshot is used, and the PC moves on. -/
def lineQueued (e : MMEntry) (x : Core) : Core :=
  { withQueued e x with pc := x.pc + 16, hold := .none, issued := x.issued + 1 }

/-- An MM that names no lengths table changes its core alone. -/
theorem exec_mm_plain (plain : sLen ((s.core c).getS b.sx).toNat = false) :
    exec (.mm c h b) s = .next (updCore c (lineQueued (issuedMM c h b none s)) s) := by
  have names : namesTable (issuedMM c h b none s) = false := by rw [namesTable_issuedMM, plain]
  have ⟨_, _, _, _, next⟩ := takes
  rw [exec_mm_admitted takes room legal wf (by simp [TableInOrder, names]), admitMM_outside (by simp [names]) (issuedMM_pv_of_plain plain), enqueueMM_eq,
    nextLine_eq (by rw [updCore_core_self, takeId_core]; exact next), takeId, updCore_updCore, updCore_updCore]
  rfl

end

theorem onlyCore_updCore (c : CoreId) (f : Core → Core) (s : State) : OnlyCore c s (updCore c f s) :=
  ⟨rfl, fun d hd => by rw [updCore_core, if_neg hd]⟩

/-- Settles O16: a legal line is admitted with the entry `issuedMM`, and the entry's place in a sweep says what its engine does besides. -/
theorem matrixIssue : Obligations.MatrixIssue := by
  unfold Obligations.MatrixIssue
  intro c h b xd s takes room legal s1 e g
  have body (k : Option Nat) : (e k).body = b := issuedMM_body ..
  refine ⟨fun k _ outside pv => admitMM_outside outside pv c s1, fun k _ score live => ?score, fun k _ pv score live => ?pv,
    exec_mm_admitted takes room legal, fun wf _ plain => ⟨_, exec_mm_plain takes room legal wf plain, onlyCore_updCore .., ?core, fun k other => ?others, ?queue⟩,
    fun wf => exec_cx_admitted takes room legal wf xd, body none, issuedMM_rowD .., issuedMM_wD .., issuedMM_sideD .., issuedMM_pc .., issuedMM_ckpt ..⟩
  case score => simpa only [body] using admitMM_score score live c s1
  case pv => simpa only [body] using admitMM_pv (by rw [body, score]) pv live c s1
  case core =>
    have su : ((useSnap c b.eng s).core c).su = (withQueued (issuedMM c h b none s) (s.core c)).su := by rw [withQueued_su, issuedMM_body]
    rw [updCore_core_self, su]
    rfl
  case others => rw [updCore_core_self]; exact withQueued_other (by rwa [issuedMM_body]) _
  case queue => rw [updCore_core_self]; exact withQueued_queue (by rw [issuedMM_body]) _

end Sys2Proof.Machine
end

section
/-! PROOF. O38, the passes of a matrix engine: what MATRIX_PASS does with the oldest unfinished instruction (R67-R69, R91, R94, R155, R364). -/

namespace Sys2Proof.Machine

/-! ### Budgets (R364) -/

/-- Partition p's budgets stand as they were. -/
def SameBudgets (p : PartId) (s u : State) : Prop := (u.part p).budgets = (s.part p).budgets

/-- Whether a charge is taken depends on the partition's budgets alone. -/
theorem SameBudgets.charge_fst {p : PartId} {s u : State} (h : SameBudgets p s u) (cs : List (Fin 7 × Nat)) : (charge p cs u).1 = (charge p cs s).1 := by
  have budgets : (u.part p).budgets = (s.part p).budgets := h
  simp only [charge, budgets]

/-- A counter that lacks the charge counts a hold (R364). -/
def holdIfShort (b : Vector Budget 7) (x : Fin 7 × Nat) : Vector Budget 7 :=
  if x.2 ≤ b[x.1].counter then b else b.set x.1.1 { b[x.1] with holds := satAdd 64 b[x.1].holds 1 }

theorem holdIfShort_counter (b : Vector Budget 7) (x : Fin 7 × Nat) (k : Fin 7) : (holdIfShort b x)[k].counter = b[k].counter := by
  unfold holdIfShort
  split
  · rfl
  · by_cases h : x.1 = k
    · subst h; simp
    · simp [Vector.getElem_set_ne _ _ (fun e => h (Fin.ext e))]

theorem foldl_holdIfShort_counter (cs : List (Fin 7 × Nat)) (b : Vector Budget 7) (k : Fin 7) : (cs.foldl holdIfShort b)[k].counter = b[k].counter := by
  induction cs generalizing b with
  | nil => rfl
  | cons x r ih => rw [List.foldl_cons, ih, holdIfShort_counter]

/-- A refused charge counts its holds and traces them. -/
theorem charge_refused {p : PartId} {cs : List (Fin 7 × Nat)} {s : State} (h : (charge p cs s).1 = false) :
    (charge p cs s).2 = trace 3 p.1 (cs.map (fun x => x.1.1)) (updPart p (fun x => { x with budgets := cs.foldl holdIfShort (s.part p).budgets }) s) := by
  have short : cs.all (fun (i, n) => decide (n ≤ ((s.part p).budgets[i.1]'i.2).counter)) = false := h
  simp only [charge, short]
  rfl

theorem charge_refused_frame {p : PartId} {cs : List (Fin 7 × Nat)} {s : State} (h : (charge p cs s).1 = false) :
    let t := (charge p cs s).2
    t = { s with parts := t.parts, flt := t.flt, tick := t.tick } ∧ ∀ k : Fin 7, (t.part p).budgets[k].counter = (s.part p).budgets[k].counter := by
  rw [charge_refused h, trace_frame]
  refine ⟨rfl, fun k => ?_⟩
  have part (u : State) (flt : Flt) (tick : Tick) : ({ u with flt, tick } : State).part p = u.part p := rfl
  rw [part, updPart_part_self]
  exact foldl_holdIfShort_counter ..

/-! ### What a pass starts with (R56, R68, R155) -/

section
variable (c : CoreId) (e : MMEntry) (p : PartId) (s : State)

theorem countTile_budgets (pol : Policy) (t : QTile) : SameBudgets p s (countTile c e pol t s) := by
  unfold SameBudgets countTile
  split
  · rfl
  · rw [updPart_part]
    split
    · next eq => subst eq; rfl
    · rfl

theorem quantSlice_budgets (ea k0 : Nat) : SameBudgets p s (quantSlice c e ea k0 s).2 := countTile_budgets ..

theorem withGauss_budgets (r i : QTile) : SameBudgets p s (withGauss c e r i s).2 := countTile_budgets ..

theorem stageChain_budgets : SameBudgets p s (stageChain c e s).2 := by
  unfold stageChain
  dsimp only
  split
  · rfl
  · split
    · exact withGauss_budgets ..
    · rfl

theorem stage_budgets : SameBudgets p s (stage c e s).2 := by
  have quantised (ea ea' k k' : Nat) : SameBudgets p s (quantSlice c e ea' k' (quantSlice c e ea k s).2).2 :=
    (quantSlice_budgets ..).trans (quantSlice_budgets ..)
  unfold stage
  dsimp only
  split
  · exact stageChain_budgets ..
  · split
    · rfl
    · rfl
    · split
      · rfl
      · exact quantised ..
    · split
      · exact withGauss_budgets ..
      · exact (withGauss_budgets ..).trans (quantised ..)
    · split <;> split
      · rfl
      · exact quantised ..
      · rfl
      · exact quantSlice_budgets ..

theorem openSide_budgets : SameBudgets p s (openSide c e s) := by
  unfold openSide
  split
  · rfl
  · dsimp only
    split <;> split <;> rfl

theorem passStart_budgets (en : Fin 4) : SameBudgets p s (passStart c en e s).2.2 := by
  unfold passStart
  dsimp only
  split <;> split
  · exact (openSide_budgets ..).trans (stage_budgets ..)
  · exact openSide_budgets ..
  · exact stage_budgets ..
  · rfl

end

/-! ### A pass (R60-R91, R108, R364) -/

/-- The charge that a pass asks for, as it starts (R108, R364). -/
def passCharge (c : CoreId) (en : Fin 4) (e : MMEntry) (p : PartId) (s : State) : Bool × State :=
  charge p (passCost s (passStart c en e s).1 (passStart c en e s).2.1) (passStart c en e s).2.2

section
variable {c : CoreId} {en : Fin 4} {e : MMEntry} {p : PartId} {s : State} (part : partOfCore s c.1 = some p)
include part

theorem passRun_charged (taken : (passCharge c en e p s).1 = true) (up : Option Upset) :
    passRun c en e up s = passDo c en (passStart c en e s).1 (passStart c en e s).2.1 up (passCharge c en e p s).2 := by
  simp only [passRun, part]
  exact if_pos taken

/-- A pass whose charge a budget refuses leaves the state as it found it, but for the holds. -/
theorem passRun_held (refused : (passCharge c en e p s).1 = false) (up : Option Upset) :
    let t := passRun c en e up s
    t = { s with parts := t.parts, flt := t.flt, tick := t.tick } ∧ ∀ k : Fin 7, (t.part p).budgets[k].counter = (s.part p).budgets[k].counter := by
  have run : passRun c en e up s = (charge p (passCost s (passStart c en e s).1 (passStart c en e s).2.1) s).2 := by
    simp only [passRun, part]
    exact if_neg (ne_true_of_eq_false refused)
  rw [run]
  exact charge_refused_frame ((passStart_budgets ..).charge_fst _ ▸ refused)

end

section
variable {c : CoreId} {en : Fin 4} {e : MMEntry} {tiles : List QTile} {up : Option Upset} {s : State}

/-- The pass's outcome. -/
def passResult (c : CoreId) (en : Fin 4) (e : MMEntry) (tiles : List QTile) (up : Option Upset) (s : State) : PassOut :=
  passEval s.freeCtr (s.core c) en e tiles (passWeights s c en e tiles) up

/-- The state with the pass's tiles, weights, halves and skipped blocks. -/
def passCommitted (c : CoreId) (en : Fin 4) (e : MMEntry) (tiles : List QTile) (up : Option Upset) (s : State) : State :=
  countSkips c (passResult c en e tiles up s).skip (passCommit c en tiles (passWeights s c en e tiles) (passResult c en e tiles up s) s)

theorem passDo_sound (sound : (passResult c en e tiles up s).bad = none) :
    passDo c en e tiles up s = afterPass c (passResult c en e tiles up s).e (planOf e.body (splitsWide e.body tiles)).length (passCommitted c en e tiles up s) := by
  have none_bad : (passEval s.freeCtr (s.core c) en e tiles (passWeights s c en e tiles) up).bad = none := sound
  simp only [passDo, none_bad]
  rfl

theorem passDo_mismatch {kb m : Nat} (bad : (passResult c en e tiles up s).bad = some (kb, m)) :
    let r := passResult c en e tiles up s
    passDo c en e tiles up s = updEngine c en (fun g => { g with stopped := none })
      (reportMismatch c en r.e (planOf e.body (splitsWide e.body tiles)).length kb m (setEntry c r.e (passCommitted c en e tiles up s))) := by
  have row : (passEval s.freeCtr (s.core c) en e tiles (passWeights s c en e tiles) up).bad = some (kb, m) := bad
  simp only [passDo, row]
  rfl

/-- A queue's entries do not number the task. -/
theorem taskNumOf_setEntry (q : MMEntry) : taskNumOf (setEntry c q s) c = taskNumOf s c := rfl

end

/-! ### The end of a pass (R248) -/

section
variable {e : MMEntry} {n : Nat}

theorem afterPass_nextPass (more : e.sub + 1 < n) (slice : e.slice ≤ e.body.npass.toNat) (c : CoreId) (s : State) :
    afterPass c e n s = setEntry c { e with sub := e.sub + 1 } s := by
  simp [afterPass, more, slice]

variable (keep : e.body.keep = false)
include keep

theorem afterPass_nextSlice (last : n ≤ e.sub + 1) (slice : e.slice + 1 ≤ e.body.npass.toNat) (c : CoreId) (s : State) :
    afterPass c e n s = setEntry c { e with slice := e.slice + 1, sub := 0 } (updEngine c e.body.eng (countK e) s) := by
  simp [afterPass, Nat.not_lt.2 last, slice, keep]

theorem afterPass_end (last : n ≤ e.sub + 1) (slice : e.body.npass.toNat ≤ e.slice) (chain : e.chain = none) (c : CoreId) (s : State) :
    afterPass c e n s = vePump c 8 (setEntry c { e with slice := e.slice + 1, sub := 0, done := true, sat := false }
      (capture c e (updEngine c e.body.eng (countK e) s))) := by
  simp [afterPass, Nat.not_lt.2 last, Nat.not_le.2 (Nat.lt_succ_of_le slice), keep, chain]

end

/-! ### The command (R67, R80, R94, R155, R248) -/

section
variable {c : CoreId} {e : Fin 4} {s : State} (up : Option Upset)

theorem exec_matrixPass_idle (idle : ((s.core c).eng[e]).queue.find? (fun q => !q.done) = none) :
    exec (.matrixPass c e up) s = .next (lateCheck c e up s) := by
  have run : exec (.matrixPass c e up) s = execMatrixPass c e up s := rfl
  have empty : ((s.core c).eng[e.1]'e.2).queue.find? (fun q => !q.done) = none := idle
  simp only [run, execMatrixPass, empty]

theorem lateCheck_none (h : ((s.core c).eng[e]).stopped = none) : lateCheck c e up s = s := by
  have stopped : ((s.core c).eng[e.1]'e.2).stopped = none := h
  simp only [lateCheck, stopped]

/-- The checks of the command on the oldest unfinished instruction, in their order. -/
theorem exec_matrixPass_front {q : MMEntry} (front : ((s.core c).eng[e]).queue.find? (fun q => !q.done) = some q) :
    exec (.matrixPass c e up) s = .next (if !passReady s c e q then s
      else if q.skip then skipDo c q s
      else if q.body.keep then keepSlice c q s
      else if q.slice == 0 && q.sub == 0 && halfUndefined ((s.core c).eng[e]) q then illegal c 0x02 q.pc s
      else passRun c e q up s) := by
  have run : exec (.matrixPass c e up) s = execMatrixPass c e up s := rfl
  have first : ((s.core c).eng[e.1]'e.2).queue.find? (fun q => !q.done) = some q := front
  simp only [run, execMatrixPass, first]
  rfl

end

/-- Settles O38: the order of the command's checks, the charge that decides a pass, and what the pass's outcome does with the instruction. -/
theorem matrixPasses : Obligations.MatrixPasses := by
  unfold Obligations.MatrixPasses
  intro c e up q p s front part
  have command := exec_matrixPass_front up front
  refine ⟨fun waits => ?waits, fun ready => ⟨fun skip => ?skip, fun skip keep => ?keep, fun skip keep => ⟨fun slice sub undefined => ?undefined, fun defined => ?pass⟩⟩,
    fun q n u keep => ⟨fun more slice => afterPass_nextPass more slice c u, fun last slice => afterPass_nextSlice keep last slice c u,
      fun last slice chain => afterPass_end keep last slice chain c u⟩,
    fun c e up s idle => ⟨fun quiet => ?idle, fun _ _ => exec_matrixPass_idle up idle⟩⟩
  case waits => rw [command, waits]; rfl
  case skip => rw [command, ready, skip]; rfl
  case keep => rw [command, ready, skip, keep]; rfl
  case undefined => rw [command, ready, skip, keep, slice, sub, undefined]; rfl
  case idle => rw [exec_matrixPass_idle up idle, lateCheck_none up quiet]
  case pass =>
    intro q1 tiles s1 n u w r done
    have accumulates : (q.slice == 0 && q.sub == 0 && halfUndefined ((s.core c).eng[e]) q) = false := by simpa using defined
    have run : exec (.matrixPass c e up) s = .next (passRun c e q up s) := by
      rw [command, ready, skip, keep, accumulates]; rfl
    refine ⟨fun taken => ?_, fun refused => ⟨_, run, passRun_held part refused up⟩⟩
    have charged : exec (.matrixPass c e up) s = .next (passDo c e q1 tiles up u) := run.trans (congrArg _ (passRun_charged part taken up))
    refine ⟨fun sound => ?_, fun kb m bad => ?_⟩
    · rw [charged, passDo_sound sound]; rfl
    · rw [charged, passDo_mismatch bad, reportMismatch, taskNumOf_setEntry]; rfl

end Sys2Proof.Machine
end

section
/-! PROOF. O36, clamps do not depend on the rounding (R102): the clamp of an element compares exact numbers and reads no draw, and all that a
quantiser tile decides is a function of what its rows count. -/

namespace Sys2Proof.Machine

/-! ### The clamp of an element (R45, R46, R58) -/

section
variable {f : Nat} (u v : Option Nat) (neg : Bool) (n d : Nat)

theorem encNarrow_clamp_float {mw mx : Nat} {qmin : Int} (float : narrow f = some (mw, qmin, mx)) :
    (encNarrow f u neg n d).2 = exceeds n d (codeVal mw qmin mx).1 (codeVal mw qmin mx).2 := by
  simp only [encNarrow, float]

theorem encNarrow_clamp_int {lo hi : Int} {k : Nat} (float : narrow f = none) (int : intFmt f = some (lo, hi, k)) :
    (encNarrow f u neg n d).2 = decide ((if neg then (-lo).toNat else hi.toNat) * d < n * 2 ^ k) := by
  simp only [encNarrow, float, int]

theorem encNarrow_clamp_other (float : narrow f = none) (int : intFmt f = none) : (encNarrow f u neg n d).2 = false := by
  simp only [encNarrow, float, int]

/-- Of any narrow format, the clamp of a value reads no draw. -/
theorem encNarrow_clamp_draw (f : Nat) : (encNarrow f u neg n d).2 = (encNarrow f v neg n d).2 := by
  cases float : narrow f with
  | some _ => rw [encNarrow_clamp_float u neg n d float, encNarrow_clamp_float v neg n d float]
  | none =>
    cases int : intFmt f with
    | some _ => rw [encNarrow_clamp_int u neg n d float int, encNarrow_clamp_int v neg n d float int]
    | none => rw [encNarrow_clamp_other u neg n d float int, encNarrow_clamp_other v neg n d float int]

end

/-- A block form's element is a narrow float, or the integer form, whose range is symmetric. -/
theorem narrow_or_int_of_isMX {f : Nat} (block : isMX f = true) :
    (∃ p, narrow f = some p) ∨ (narrow f = none ∧ intFmt f = some (-127, 127, 6)) := by
  obtain ⟨lo, hi⟩ : 8 ≤ f ∧ f ≤ 13 := of_decide_eq_true block
  rcases hi.lt_or_eq with float | rfl
  · left
    interval_cases f <;> exact ⟨_, rfl⟩
  · exact .inr ⟨rfl, rfl⟩

/-- R46, R48: a block form has one limit a / b of magnitude, of both signs, and a value clamps when it lies above it. -/
theorem encNarrow_clamp_limit {f : Nat} (block : isMX f = true) :
    ∃ a b, ∀ u neg n d, (encNarrow f u neg n d).2 = decide (a * d < n * b) := by
  obtain ⟨⟨mw, qmin, mx⟩, float⟩ | ⟨float, int⟩ := narrow_or_int_of_isMX block
  · exact ⟨_, _, fun u neg n d => encNarrow_clamp_float u neg n d float⟩
  · refine ⟨127, 2 ^ 6, fun u neg n d => ?_⟩
    rw [encNarrow_clamp_int u neg n d float int]
    cases neg <;> rfl

/-- Equal fractions lie on the same side of a limit. -/
theorem mul_lt_mul_iff_of_ratio_eq {a b n d n' d' : Nat} (hd : 0 < d) (hd' : 0 < d') (ratio : n * d' = n' * d) :
    a * d < n * b ↔ a * d' < n' * b :=
  calc a * d < n * b
    _ ↔ a * d * d' < n * b * d' := (Nat.mul_lt_mul_right hd').symm
    _ ↔ a * d' * d < n' * b * d := by rw [Nat.mul_right_comm a, Nat.mul_right_comm n, ratio, Nat.mul_right_comm n']
    _ ↔ a * d' < n' * b := Nat.mul_lt_mul_right hd

theorem encNarrow_clamp_magnitude {f n d n' d' : Nat} (block : isMX f = true) (hd : 0 < d) (hd' : 0 < d') (ratio : n * d' = n' * d)
    (u v : Option Nat) (neg ngf : Bool) : (encNarrow f u neg n d).2 = (encNarrow f v ngf n' d').2 := by
  obtain ⟨a, b, limit⟩ := encNarrow_clamp_limit block
  rw [limit, limit, decide_eq_decide]
  exact mul_lt_mul_iff_of_ratio_eq hd hd' ratio

/-! ### The counts of a block and of a row (R46-R50, R101) -/

theorem encScaled_clamp_draw (f : Nat) (u v : Option Nat) (sm : Nat) (se : Int) (x : W32) :
    (encScaled f u sm se x).2 = (encScaled f v sm se x).2 := by
  unfold encScaled
  cases dec32 x with
  | fin s m e => exact encNarrow_clamp_draw ..
  | _ => rfl

/-- The clamp and the NaN count of a plain conversion read no draw. -/
theorem cvtPlain_counts_draw (f : Nat) (u v : Option Nat) (x : W32) : (cvtPlain f u x).2 = (cvtPlain f v x).2 := by
  unfold cvtPlain
  cases dec32 x with
  | fin s m e => exact congrArg (·, false) (encNarrow_clamp_draw ..)
  | _ => rfl

theorem mxBlock_scale_draw (f : Nat) (us vs : Nat → Option Nat) (xs : List W32) : (mxBlock f us xs).scale = (mxBlock f vs xs).scale := by
  unfold mxBlock; split <;> rfl

theorem mxBlock_poisoned_draw (f : Nat) (us vs : Nat → Option Nat) (xs : List W32) :
    (mxBlock f us xs).poisoned = (mxBlock f vs xs).poisoned := by
  unfold mxBlock; split <;> rfl

theorem mxBlock_clamps_draw (f : Nat) (us vs : Nat → Option Nat) (xs : List W32) : (mxBlock f us xs).clamps = (mxBlock f vs xs).clamps := by
  unfold mxBlock
  split
  · rfl
  · simp only [List.countP_map]
    refine congrArg (List.countP · xs.zipIdx) (funext fun (x, i) => ?_)
    exact encScaled_clamp_draw f (us i) (vs i) ..

/-- The scales, the clamps and the NaNs of a quantised row read no draw: only its codes do. -/
theorem quantRow_counts_draw (f : Nat) (us vs : Nat → Option Nat) (xs : List W32) : (quantRow f us xs).2 = (quantRow f vs xs).2 := by
  unfold quantRow
  split
  · simp only [List.map_map, List.countP_map, Function.comp_def,
      mxBlock_scale_draw f _ (fun _ => none), mxBlock_clamps_draw f _ (fun _ => none), mxBlock_poisoned_draw f _ (fun _ => none)]
  · simp only [List.countP_map, Function.comp_def, cvtPlain_counts_draw f _ none]

/-! ### The tile (R92, R101, R104, R107) -/

/-- The rows of a tile, quantised to the format `f`. -/
def quantRows (f : Nat) (us : Nat → Nat → Option Nat) (rows : List (List W32)) : List (List Nat × List Nat × Nat × Nat) :=
  rows.zipIdx.map (fun (r, m) => quantRow f (us m) r)

/-- What is read off the counts of a tile's rows is the same under any draws. -/
theorem quantRows_counts_draw {α : Type} (f : Nat) (us vs : Nat → Nat → Option Nat) (g : List Nat × Nat × Nat → α) (rows : List (List W32)) :
    (quantRows f us rows).map (fun t => g t.2) = (quantRows f vs rows).map (fun t => g t.2) := by
  simp only [quantRows, List.map_map]
  exact congrArg (List.map · rows.zipIdx) (funext fun (r, m) => congrArg g (quantRow_counts_draw f (us m) (vs m) r))

/-- The clamps of a row as an 8-bit block form counts them, from its counts in the format `f` (R101). -/
def clamps8 (f : Nat) (counts : List Nat × Nat × Nat) : Nat := if f = 0x0B ∨ f = 0x0C then counts.2.1 else 0

section
variable (pol : Policy) (af wf : BitVec 5) (wh room : Bool)

/-- The format of a tile's candidate encoding, in which its clamps are counted (R101). -/
def candidateFmt : Nat := if decide (pol.kind = 2) && !intTarget af then 0x0B else af.toNat

/-- The policy asks to escalate a tile that counts `n` clamps (R104). -/
def wantsEscalation (n : Nat) : Bool := decide (pol.kind = 1) && !intTarget af && decide (pol.thr < n)

/-- A tile that counts `n` clamps escalates (R105, R107). -/
def escalates (n : Nat) : Bool := wantsEscalation pol af n && (freeEsc af wf || room)

/-- The format in which a tile that counts `n` clamps is fed (R104). -/
def fedFmt (n : Nat) : Nat := if escalates pol af wf room n then 0x0B else candidateFmt pol af

/-- The flags of a tile that counts `n` clamps (R95, R104, R107). -/
def tileFlags (n : Nat) : Byte :=
  let esc := escalates pol af wf room n
  BitVec.ofNat 8 (b2n esc + 2 * b2n (wantsEscalation pol af n && !esc) + 4 * b2n wh + 8 * b2n (decide (pol.kind = 2) && !intTarget af)
    + 16 * b2n (esc && freeEsc af wf))

variable (rows : List (List W32)) (us vs : Nat → Nat → Option Nat)

theorem quantTile_clamps :
    (quantTile pol af wf wh room rows us).clamps = (quantRows (candidateFmt pol af) us rows).map (fun t => t.2.2.1) := rfl

theorem quantTile_nanblk :
    (quantTile pol af wf wh room rows us).nanblk = (quantRows (candidateFmt pol af) us rows).map (fun t => t.2.2.2) := rfl

theorem quantTile_tclamp : let q := quantTile pol af wf wh room rows us; q.tclamp = q.clamps.sum := rfl

theorem quantTile_fmt : let q := quantTile pol af wf wh room rows us; q.fmt = BitVec.ofNat 5 (fedFmt pol af wf room q.tclamp) := rfl

theorem quantTile_flags : let q := quantTile pol af wf wh room rows us; q.flags = tileFlags pol af wf wh room q.tclamp := rfl

/-- The 8-bit clamps of a tile are those of its rows in the format in which they are fed, where this is an 8-bit block form. -/
theorem quantTile_clamp8 : let q := quantTile pol af wf wh room rows us; let f := fedFmt pol af wf room q.tclamp
    q.clamp8 = (quantRows f us rows).map (fun t => clamps8 f t.2) := by
  intro q f
  have fed : quantRows f us rows
      = if escalates pol af wf room q.tclamp then quantRows 0x0B us rows else quantRows (candidateFmt pol af) us rows :=
    apply_ite (quantRows · us rows) ..
  have clamp8 : q.clamp8 = if f = 0x0B ∨ f = 0x0C then (quantRows f us rows).map (fun t => t.2.2.1) else (quantRows f us rows).map (fun _ => 0) := by
    rw [fed]; rfl
  rw [clamp8]
  unfold clamps8
  split <;> rfl

theorem quantTile_clamps_draw : (quantTile pol af wf wh room rows us).clamps = (quantTile pol af wf wh room rows vs).clamps :=
  quantRows_counts_draw (candidateFmt pol af) us vs (fun t => t.2.1) rows

theorem quantTile_nanblk_draw : (quantTile pol af wf wh room rows us).nanblk = (quantTile pol af wf wh room rows vs).nanblk :=
  quantRows_counts_draw (candidateFmt pol af) us vs (fun t => t.2.2) rows

theorem quantTile_tclamp_draw : (quantTile pol af wf wh room rows us).tclamp = (quantTile pol af wf wh room rows vs).tclamp := by
  rw [quantTile_tclamp, quantTile_tclamp, quantTile_clamps_draw pol af wf wh room rows us vs]

theorem quantTile_fmt_draw : (quantTile pol af wf wh room rows us).fmt = (quantTile pol af wf wh room rows vs).fmt := by
  rw [quantTile_fmt, quantTile_fmt, quantTile_tclamp_draw pol af wf wh room rows us vs]

theorem quantTile_flags_draw : (quantTile pol af wf wh room rows us).flags = (quantTile pol af wf wh room rows vs).flags := by
  rw [quantTile_flags, quantTile_flags, quantTile_tclamp_draw pol af wf wh room rows us vs]

theorem quantTile_clamp8_draw : (quantTile pol af wf wh room rows us).clamp8 = (quantTile pol af wf wh room rows vs).clamp8 := by
  rw [quantTile_clamp8, quantTile_clamp8, quantTile_tclamp_draw pol af wf wh room rows us vs]
  exact quantRows_counts_draw _ us vs (clamps8 _) rows

end

/-- Settles O36: a block form has one limit of magnitude, and a tile is decided by its clamps, which its rows count without a draw. -/
theorem clampsWhateverRounding : Obligations.ClampsWhateverRounding := by
  unfold Obligations.ClampsWhateverRounding
  refine ⟨fun f u v neg ngf n d n' d' block hd hd' ratio => encNarrow_clamp_magnitude block hd hd' ratio u v neg ngf,
    fun f us vs xs => ⟨mxBlock_scale_draw f us vs xs, mxBlock_clamps_draw f us vs xs, mxBlock_poisoned_draw f us vs xs⟩,
    fun pol af wf wh room rows us vs => ⟨?fmt, ?flags, ?clamps, ?tclamp, ?clamp8, ?nanblk⟩⟩
  case fmt => exact quantTile_fmt_draw pol af wf wh room rows us vs
  case flags => exact quantTile_flags_draw pol af wf wh room rows us vs
  case clamps => exact quantTile_clamps_draw pol af wf wh room rows us vs
  case tclamp => exact quantTile_tclamp_draw pol af wf wh room rows us vs
  case clamp8 => exact quantTile_clamp8_draw pol af wf wh room rows us vs
  case nanblk => exact quantTile_nanblk_draw pol af wf wh room rows us vs

end Sys2Proof.Machine
end

section
/-! PROOF. O43, the extent tables of a partition: edits, the reclaim of what they free, and the versions loaded in upkeep (R201, R202, R211, R319). -/

namespace Sys2Proof.Machine

/-! ### What freeing memory leaves of the extent tables (R202, R211, R350) -/

/-- A change of a partition that leaves its extent tables alone leaves those of every partition. -/
theorem updPart_xtabs {q : PartId} {f : Part → Part} (s : State) (p : PartId) (h : ∀ x, (f x).xtabs = x.xtabs) :
    ((updPart q f s).part p).xtabs = (s.part p).xtabs := by
  rw [updPart_part]
  split
  next e => rw [h, e]
  next => rfl

@[simp] theorem alarm_part (c : Fin 16) (s : State) (p : PartId) : (alarm c s).part p = s.part p := by
  rw [alarm_frame]; rfl

@[simp] theorem updNodes_part (f : List PNode → List PNode) (s : State) (p : PartId) : (updNodes f s).part p = s.part p := by
  unfold updNodes
  exact forAll_keep (fun t => t.part p = s.part p) _ _ _ (fun _ _ _ h => (tierWrite_part ..).trans h) rfl

@[simp] theorem markReload_part (a : Nat) (s : State) (p : PartId) : (markReload a s).part p = s.part p := by
  unfold markReload
  split
  · rfl
  · split <;> rfl

/-- A page that goes takes its bytes from the pool of a partition. -/
theorem losePage_xtabs (a : Nat) (s : State) (p : PartId) : ((losePage a s).part p).xtabs = (s.part p).xtabs := by
  unfold losePage
  split
  · rfl
  · exact updPart_xtabs _ _ (fun _ => rfl)

theorem retirePage_xtabs (a : Nat) (s : State) (p : PartId) : ((retirePage a s).part p).xtabs = (s.part p).xtabs := by
  unfold retirePage
  dsimp only
  split
  · rfl
  · split
    · rw [losePage_xtabs, updMem_part]
    · rw [alarm_part]

theorem retireLine_xtabs (a : Nat) (s : State) (p : PartId) : ((retireLine a s).part p).xtabs = (s.part p).xtabs := by
  unfold retireLine
  split
  · rw [markReload_part]
  · exact retirePage_xtabs ..

theorem settleRegion_xtabs (q : PartId) (region : Nat) (s : State) (p : PartId) :
    ((settleRegion q region s).part p).xtabs = (s.part p).xtabs := by
  unfold settleRegion
  split
  · rfl
  · exact updPart_xtabs _ _ (fun _ => rfl)

/-- A freed node's block group is logged with the partition that owns it. -/
theorem freeNode_xtabs (v : PNode) (s : State) (p : PartId) : ((freeNode v s).part p).xtabs = (s.part p).xtabs := by
  unfold freeNode
  dsimp only
  rw [settleRegion_xtabs, updPart_xtabs _ _ (fun _ => by rfl), updNodes_part]
  split
  · exact retireLine_xtabs ..
  · rfl

theorem sweepNodes_xtabs (k : Nat) (s : State) (p : PartId) : ((sweepNodes k s).part p).xtabs = (s.part p).xtabs := by
  induction k generalizing s with
  | zero => rfl
  | succ k ih =>
    unfold sweepNodes
    split
    · rfl
    · rw [ih, freeNode_xtabs]

theorem derefNodes_xtabs (t : PNode → Bool) (s : State) (p : PartId) : ((derefNodes t s).part p).xtabs = (s.part p).xtabs := by
  rw [derefNodes, sweepAll, sweepNodes_xtabs, updNodes_part]

theorem dropExtent_xtabs (q : PartId) (xt g gb : Nat) (e : Extent) (s : State) (p : PartId) :
    ((dropExtent q xt g gb e s).part p).xtabs = (s.part p).xtabs := by
  unfold dropExtent
  split
  · exact derefNodes_xtabs ..
  · exact updPart_xtabs _ _ (fun _ => rfl)

/-! ### One edit of a table (R197, R201) -/

@[simp] theorem storeTable_part (q : PartId) (xt : Nat) (s : State) (p : PartId) : (storeTable q xt s).part p = s.part p := by
  unfold storeTable; split <;> simp

/-- A table is changed in its place. -/
theorem xtAt_updTable {p : PartId} {xt : Nat} {t : XTable} {s : State} (f : XTable → XTable) (idx : ∀ q, (f q).idx = q.idx)
    (at_ : xtAt (s.part p) xt = some t) : xtAt ((updTable p xt f s).part p) xt = some (f t) := by
  have same : (fun q : XTable => q.idx == xt) ∘ (fun q => if q.idx == xt then f q else q) = fun q => q.idx == xt := by
    funext q
    simp only [Function.comp_apply, apply_ite XTable.idx, idx, ite_self]
  have mine : t.idx = xt := by simpa using List.find?_some at_
  rw [updTable, storeTable_part, updPart_part_self, xtAt, mapIf, List.find?_map, same, show (s.part p).xtabs.find? _ = some t from at_]
  simp [mine]

/-- The entries that an edit writes: a new one carries the new GEN, and 64 fit (R197, R201). -/
def editedEntries (t : XTable) (new : List Extent) : List Extent :=
  (new.map (fun x => if t.current.contains x then x else { x with gen := BitVec.ofNat 32 ((t.gen + 1) % 2 ^ 32) })).take 64

/-- A table after one edit in tick `now`: the other copy has the new entries, and CUR names it (R201). -/
def editedTable (now : Nat) (t : XTable) (new : List Extent) (q : XTable) : XTable := { q with
  cur := !q.cur, gen := (t.gen + 1) % 2 ^ 32, stale := q.head, editTick := some now
  copyA := if q.cur then editedEntries t new else q.copyA
  copyB := if q.cur then q.copyB else editedEntries t new }

theorem editedTable_current (now : Nat) (t : XTable) (new : List Extent) : (editedTable now t new t).current = editedEntries t new := by
  cases h : t.cur <;> simp [XTable.current, editedTable, h]

theorem setEntries_eq {p : PartId} {xt : Nat} {t : XTable} {s : State} (new : List Extent) (at_ : xtAt (s.part p) xt = some t) :
    setEntries p xt new s = forAll (t.current.filter (fun e => !(editedEntries t new).contains e)) (dropExtent p xt ((t.gen + 1) % 2 ^ 32) t.gbytes)
      (updTable p xt (editedTable s.tick.now t new) s) := by
  simp only [setEntries, at_]
  rfl

/-- What an edit frees does not change the table again. -/
theorem xtAt_setEntries {p : PartId} {xt : Nat} {t : XTable} {s : State} (new : List Extent) (at_ : xtAt (s.part p) xt = some t) :
    xtAt ((setEntries p xt new s).part p) xt = some (editedTable s.tick.now t new t) := by
  have edited := xtAt_updTable (editedTable s.tick.now t new) (fun _ => rfl) at_
  rw [setEntries_eq new at_]
  exact forAll_keep (fun u => xtAt (u.part p) xt = some (editedTable s.tick.now t new t)) _ _ _
    (fun e _ u h => by rw [xtAt, dropExtent_xtabs]; exact h) edited

theorem exec_extentEdit {p : PartId} {xt : W32} {t : XTable} {s : State} (e : Edit) (at_ : xtAt (s.part p) xt.toNat = some t) :
    exec (.extentEdit p xt e) s = .next (
      if t.editTick = some s.tick.now then updTable p xt.toNat (fun q => { q with queued := q.queued ++ [e] }) s
      else setEntries p xt.toNat (editList t.current e) s) := by
  have run : exec (.extentEdit p xt e) s = .next (requestEdit p xt.toNat e s) := rfl
  rw [run, requestEdit]
  simp only [at_]

/-! ### Reclaim (R202, R211) -/

theorem exec_extentReclaim {p : PartId} {i : Nat} {x : Freed} {s : State} (freed : (s.part p).freed[i]? = some x) :
    exec (.extentReclaim p i) s = .next (
      if !mayReclaim s p x then s
      else updPart p (fun y => { y with
        freed := y.freed.eraseIdx i, freeNear := if isFar x.ext.base.toNat then y.freeNear else y.freeNear + x.bytes }) s) := by
  have run : exec (.extentReclaim p i) s = execExtentReclaim p i s := rfl
  rw [run, execExtentReclaim]
  simp only [freed]

/-! ### Loads of versions (R319) -/

/-- The load `o` at the front of a partition's operations ends: its version is resident, and current from the next tick. -/
def versionLoaded (o : UpOp) (rest : List UpOp) (x : Part) : Part := { x with
  upops := rest
  variants := if x.variants.contains o.variant then x.variants else x.variants ++ [o.variant]
  versions := mapIf (fun w => w.variant == o.variant && w.version == o.version) (fun w => { w with
    resident := true, loading := false, curDue := !o.silent }) x.versions }

theorem exec_vloadComplete {p : PartId} {o : UpOp} {rest : List UpOp} {s : State} (front : (s.part p).upops = o :: rest) (load : o.vload = true) :
    exec (.vloadComplete p) s = .next (
      if 0 < o.left then s
      else if o.silent then updPart p (versionLoaded o rest) s
      else opDoneRec (fid o.func) o.reqid false (updPart p (versionLoaded o rest) s)) := by
  have run : exec (.vloadComplete p) s = execVloadComplete p s := rfl
  have loaded : updPart p (fun x => { x with
      upops := rest
      variants := if (s.part p).variants.contains o.variant then x.variants else x.variants ++ [o.variant]
      versions := mapIf (fun w => w.variant == o.variant && w.version == o.version) (fun w => { w with
        resident := true, loading := false, curDue := !o.silent }) x.versions }) s = updPart p (versionLoaded o rest) s := updPart_congr rfl
  rw [run, execVloadComplete]
  simp only [front, load, loaded, Bool.not_true, Bool.false_or, decide_eq_true_eq]

/-! ### The statement -/

/-- Settles O43: an edit by what it writes and by what its frees leave alone, the reclaim and the load by their commands' equations. -/
theorem extentWork : Obligations.ExtentWork := by
  unfold Obligations.ExtentWork
  intro p xt e s
  refine ⟨?edit, ?later, ?reclaim, ?load⟩
  case edit =>
    intro t at_ first
    refine ⟨_, _, (exec_extentEdit e at_).trans (congrArg _ (if_neg first)), xtAt_setEntries _ at_, rfl, rfl, rfl, editedTable_current .., ?_⟩
    cases h : t.cur <;> simp [editedTable, h]
  case later =>
    intro t at_ edited
    rw [exec_extentEdit e at_, if_pos edited]
  case reclaim =>
    intro i x freed
    refine ⟨fun may => ?_, fun held => ?_, fun priv => ?_, fun shared => ?_⟩
    · rw [exec_extentReclaim freed, may]; rfl
    · rw [exec_extentReclaim freed, held]; rfl
    · rw [mayReclaim, priv]; rfl
    · rw [mayReclaim, shared]; rfl
  case load =>
    intro o rest front load loaded
    refine ⟨fun whole answered => ?_, fun whole silent => ?_, fun left => ?_⟩
    · rw [exec_vloadComplete front load, whole, answered]; rfl
    · rw [exec_vloadComplete front load, whole, silent]; rfl
    · rw [exec_vloadComplete front load, if_pos left]

end Sys2Proof.Machine
end

section
/-! PROOF. O40, the descriptors that the ticket rail reads (R203, R205, R303-R305, R319). -/

namespace Sys2Proof.Machine

/-! ### Reading a descriptor (R303, R304) -/

/-- The descriptor is read: TKT_SQHEAD has moved on (R303). -/
def headMoved (f : FuncId) (s : State) : State := updFunc f (fun g => { g with sqHead := (g.sqHead + 1) % 2 ^ g.sqLog }) s

/-- The descriptor's read does not move the function to another partition (R468). -/
@[simp] theorem partOfFunc_headMoved (f : FuncId) (s : State) : partOfFunc (headMoved f s) f = partOfFunc s f := by
  by_cases pf0 : f = 0 <;> simp [partOfFunc, headMoved, pf0]

@[simp] theorem headMoved_part (f : FuncId) (s : State) (p : PartId) : (headMoved f s).part p = s.part p := rfl

theorem readDesc_reject {f : FuncId} {s : State} (can : canRead s f = true) {d : SubDesc} {reason : Option Nat} {k : Nat} (fails : reason = some k)
    (go : State → State) : readDesc f d reason go s = rejectRec f d.reqid k (headMoved f s) := by
  rw [readDesc, can, fails]; rfl

theorem readDesc_pass {f : FuncId} {s : State} (can : canRead s f = true) {d : SubDesc} {reason : Option Nat} (passes : reason = none)
    (go : State → State) : readDesc f d reason go s = go (headMoved f s) := by
  rw [readDesc, can, passes]; rfl

/-! ### Each submission as a read -/

theorem exec_prefill (f : FuncId) (d : SubDesc) (toks : Option (List W32)) (qrOk : Bool) (s : State) :
    exec (.prefill f d toks qrOk) s
      = .next (readDesc f d (requestReason s f d 1 toks.isSome qrOk) (enterReq f d ((toks.getD []).take d.ntok.toNat)) s) := rfl

theorem exec_extend (f : FuncId) (d : SubDesc) (toks : Option (List W32)) (qrOk : Bool) (s : State) :
    exec (.extend f d toks qrOk) s
      = .next (readDesc f d (requestReason s f d 2 toks.isSome qrOk) (enterReq f d ((toks.getD []).take d.ntok.toNat)) s) := rfl

/-- A request enters the partition of the function that submits it (R305). -/
theorem enterReq_headMoved (f : FuncId) (d : SubDesc) (toks : List W32) (s : State) :
    enterReq f d toks (headMoved f s) = updPart (partOfFunc s f) (fun x => { x with
      nextRid := x.nextRid + 1
      reqs := x.reqs ++ [{ rid := x.nextRid, func := f.1, desc := d, tokens := toks, epoch := d.epoch0.toNat }] })
      (updFunc f (fun g => { g with jqResv := g.jqResv + 9 }) (headMoved f s)) := by
  rw [enterReq, partOfFunc_headMoved]

/-- A release that passes its checks: of the session at once, or at the final code of its request in flight (R203). -/
def releaseSubmitted (p : PartId) (f : FuncId) (d : SubDesc) (s : State) : State :=
  match sessionOf (s.part p) d.session with
  | none => s
  | some z => opDoneRec f d.reqid false (if z.busy then updPart p (fun x => { x with
      sessions := mapIf (fun y => y.handle == z.handle) (fun y => { y with relDue := true }) x.sessions }) s else releaseSession p z s)

theorem exec_release (f : FuncId) (d : SubDesc) (s : State) :
    exec (.release f d) s = .next (readDesc f d (sessReason s f d 3) (releaseSubmitted (partOfFunc s f) f d) s) := rfl

theorem exec_migrate (f : FuncId) (d : SubDesc) (s : State) :
    exec (.migrate f d) s = .next (readDesc f d (sessReason s f d 4)
      (queueOp (partOfFunc s f) { func := f.1, reqid := d.reqid, session := d.session, toNear := d.flags.getLsbD 0 }) s) := rfl

/-! ### VLOAD (R319) -/

/-- What is wrong with a VLOAD: its form, a length of 0, or the location of its version (R304). -/
def loadReason (s : State) (f : FuncId) (d : SubDesc) (srcOk : Bool) : Option Nat :=
  match formReason s f d 5 with
  | some k => some k
  | none => if d.ntok = 0 then some 3 else if !srcOk then some 8 else none

theorem loadReason_form {s : State} {f : FuncId} {d : SubDesc} {k : Nat} (fails : formReason s f d 5 = some k) (srcOk : Bool) :
    loadReason s f d srcOk = some k := by
  rw [loadReason, fails]

theorem loadReason_empty {s : State} {f : FuncId} {d : SubDesc} (formed : formReason s f d 5 = none) (empty : d.ntok = 0) (srcOk : Bool) :
    loadReason s f d srcOk = some 3 := by
  rw [loadReason, formed]
  exact if_pos empty

theorem loadReason_source {s : State} {f : FuncId} {d : SubDesc} (formed : formReason s f d 5 = none) (long : d.ntok ≠ 0) (srcOk : Bool) :
    loadReason s f d srcOk = if srcOk then none else some 8 := by
  rw [loadReason, formed]
  exact (if_neg long).trans (by cases srcOk <;> rfl)

/-- A partition holds the version that a VLOAD names, or loads it already. -/
def versionHeld (x : Part) (d : SubDesc) : Bool :=
  x.versions.any (fun w => w.variant == d.variant.toNat && w.version == d.version.toNat && (w.resident || w.loading))

/-- A VLOAD for which no slot is asked (R319, R339; log 188, DEDUCED). -/
def loadRefused (p : PartId) (d : SubDesc) (s : State) : Bool :=
  decide (d.variant.toNat = 0) || slotsOffline s p || !(slotRun s p 0).any (fun k => decide (d.ntok.toNat * 4 ≤ k.2)) || versionHeld (s.part p) d

theorem slotRun_small_iff (s : State) (p : PartId) (n : Nat) :
    (slotRun s p 0).any (fun k => decide (n ≤ k.2)) = false ↔ ∀ a m, slotRun s p 0 = some (a, m) → m < n := by
  cases slotRun s p 0 with
  | none => simp
  | some k => obtain ⟨a, m⟩ := k; simp

theorem loadRefused_iff (p : PartId) (d : SubDesc) (s : State) :
    loadRefused p d s = true ↔ d.variant = 0 ∨ versionHeld (s.part p) d = true
      ∨ slotsOffline s p = true ∨ ∀ a n, slotRun s p 0 = some (a, n) → n < d.ntok.toNat * 4 := by
  have variant : d.variant.toNat = 0 ↔ d.variant = 0 := by simp [← BitVec.toNat_inj]
  rw [← slotRun_small_iff]
  simp only [loadRefused, Bool.or_eq_true, decide_eq_true_eq, Bool.not_eq_true', variant]
  tauto

/-- A VLOAD that passes its checks ends failed, or takes a slot and waits in the order of upkeep (R319, R345). -/
def loadVersion (p : PartId) (f : FuncId) (d : SubDesc) (s : State) : State :=
  if loadRefused p d s then opDoneRec f d.reqid true s
  else match takeSlotFor p s with
    | none => opDoneRec f d.reqid true s
    | some (k, s) => startVLoad p { variant := d.variant.toNat, version := d.version.toNat, slot := k, src := d.tokaddr, bytes := d.ntok.toNat * 4 }
        { vload := true, func := f.1, reqid := d.reqid, variant := d.variant.toNat, version := d.version.toNat } s

theorem loadVersion_refused {p : PartId} {d : SubDesc} {s : State} (refused : loadRefused p d s = true) (f : FuncId) :
    loadVersion p f d s = opDoneRec f d.reqid true s := if_pos refused

theorem loadVersion_full {p : PartId} {d : SubDesc} {s : State} (full : takeSlotFor p s = none) (f : FuncId) :
    loadVersion p f d s = opDoneRec f d.reqid true s := by
  simp only [loadVersion, full, ite_self]

theorem loadVersion_starts {p : PartId} {d : SubDesc} {s u : State} {k : Nat} (wanted : loadRefused p d s = false)
    (slot : takeSlotFor p s = some (k, u)) (f : FuncId) :
    loadVersion p f d s
      = startVLoad p { variant := d.variant.toNat, version := d.version.toNat, slot := k, src := d.tokaddr, bytes := d.ntok.toNat * 4 }
        { vload := true, func := f.1, reqid := d.reqid, variant := d.variant.toNat, version := d.version.toNat } u := by
  simp only [loadVersion, wanted, slot, Bool.false_eq_true, if_false]

theorem exec_vload (f : FuncId) (d : SubDesc) (srcOk : Bool) (s : State) :
    exec (.vload f d srcOk) s = .next (readDesc f d (loadReason s f d srcOk) (loadVersion (partOfFunc s f) f d) s) := rfl

/-! ### The slot of a load (R319, R320) -/

/-- No version of the partition fills slot `k`. -/
def SlotFree (x : Part) (k : Nat) : Prop := ∀ w ∈ x.versions, w.resident = true ∨ w.loading = true → w.slot ≠ k

theorem slotFree_iff (x : Part) (k : Nat) :
    (!x.versions.any (fun w => (w.resident || w.loading) && w.slot == k)) = true ↔ SlotFree x k := by
  simp [SlotFree, List.any_eq_false]

/-- A free slot is found no later than at any slot known to be free. -/
theorem freeSlot_le {x : Part} {k : Nat} (inRange : k < x.vslots) (free : SlotFree x k) : ∃ j, j ≤ k ∧ freeSlot x = some j ∧ SlotFree x j := by
  obtain ⟨j, found⟩ : ∃ j, freeSlot x = some j :=
    Option.isSome_iff_exists.1 (List.find?_isSome.2 ⟨k, List.mem_range.2 inRange, (slotFree_iff x k).2 free⟩)
  obtain ⟨jFree, -, before⟩ := List.find?_range_eq_some.1 found
  refine ⟨j, Nat.le_of_not_lt (fun later => ?_), found, (slotFree_iff x j).1 jFree⟩
  simpa [(slotFree_iff x k).2 free] using before k later

theorem takeSlotFor_free {p : PartId} {k : Nat} {s : State} (free : freeSlot (s.part p) = some k) : takeSlotFor p s = some (k, s) := by
  simp only [takeSlotFor, free]

/-! ### The statement -/

/-- Settles O40: what each descriptor's read comes to, by its reason; a load by what refuses it and by the slot that it finds. -/
theorem submissions : Obligations.Submissions := by
  unfold Obligations.Submissions
  intro f d toks qrOk s can p head entered rejected failed asked resident noSlot
  have reject {i : Instr} {reason : Option Nat} {k : Nat} {go : State → State} (read : exec i s = .next (readDesc f d reason go s)) (fails : reason = some k) :
      exec i s = .next (rejected k) := read.trans (congrArg _ (readDesc_reject can fails go))
  have pass {i : Instr} {reason : Option Nat} {go : State → State} (read : exec i s = .next (readDesc f d reason go s)) (passes : reason = none) :
      exec i s = .next (go head) := read.trans (congrArg _ (readDesc_pass can passes go))
  have enters : (.next (enterReq f d ((toks.getD []).take d.ntok.toNat) head) : Res) = .next entered := congrArg _ (enterReq_headMoved ..)
  refine ⟨fun passes => (pass (exec_prefill ..) passes).trans enters, fun passes => (pass (exec_extend ..) passes).trans enters,
    fun k => reject (exec_prefill ..), fun k => reject (exec_extend ..), fun k => reject (exec_release ..), fun k => reject (exec_migrate ..),
    ?release, pass (exec_migrate ..), fun k fails => reject (exec_vload ..) (loadReason_form fails _), ?load, ?slot⟩
  case release =>
    intro z passes session
    have released := pass (exec_release ..) passes
    have known : sessionOf (head.part p) d.session = some z := session
    refine ⟨fun idle => ?_, fun busy => ?_⟩
    · rw [released, releaseSubmitted]; simp only [p, known, idle]; rfl
    · rw [released, releaseSubmitted]; simp only [p, known, busy]; rfl
  case load =>
    intro formed
    refine ⟨fun empty => reject (exec_vload ..) (loadReason_empty formed empty _), fun long => reject (exec_vload ..) (loadReason_source formed long _),
      fun long refused => ?_, fun long variant fresh space => ?_⟩
    · have loaded := pass (exec_vload ..) (loadReason_source formed long true)
      rw [loaded, loadVersion_refused ((loadRefused_iff p d head).2 refused)]
    · have loaded := pass (exec_vload ..) (loadReason_source formed long true)
      have wanted : loadRefused p d head = false := by
        have not_resident : ¬ versionHeld (head.part p) d = true := ne_true_of_eq_false fresh
        rw [← Bool.not_eq_true, loadRefused_iff]
        exact fun refused => refused.elim variant (fun r => r.elim not_resident space)
      refine ⟨fun full => ?_, fun k u slot => ?_⟩
      · rw [loaded, loadVersion_full full]
      · rw [loaded, loadVersion_starts wanted slot]; rfl
  case slot =>
    intro k inRange free
    obtain ⟨j, le, found, jFree⟩ := freeSlot_le inRange free
    exact ⟨j, le, takeSlotFor_free found, jFree⟩

end Sys2Proof.Machine
end

section
/-! PROOF. O42, a task from the admission of its requests to their commit (R193, R249, R309, R312, R314-R316, R318, R323). -/

namespace Sys2Proof.Machine

/-! ### Admission (R309, R312, R314) -/

/-- The task that admission forms of the entries of a batch (R314, R315). -/
def formedTask (s : State) (p : PartId) (b : Batch) (h : Shape) : Task :=
  { num := ((s.part p).lastTask + 1) % 2 ^ 32, start := nextStart s (s.part p), shape := h.idx, entries := b.entries, isolate := b.iso }

/-- The task `t` is placed behind those that wait; its followers learn of it (R314, R317). -/
def taskPlaced (p : PartId) (t : Task) (s : State) : State :=
  trace 4 p.1 [2, t.num] (sendTaskStart p t (wakeIdle (updPart p (fun x => { x with lastTask := t.num, queue := x.queue ++ [t] }) s)))

/-- The pending requests of a partition, evaluated in their order for its next task (R309). -/
def evaluated (p : PartId) (cfg : PCfg) (s : State) : Batch × State :=
  evalAll p cfg (nextStart s (s.part p)) (((s.part p).lastTask + 1) % 2 ^ 32)
    (sortReqs ((s.part p).reqs.filter (fun r => decide (r.state = .pending) && r.code.isNone))) s

/-- The entries that the evaluation gives form a task of the smallest shape that holds them (R312, R314). -/
def formsTask (p : PartId) (cfg : PCfg) (s : State) : State :=
  let r := evaluated p cfg s
  if r.1.entries.isEmpty then r.2
  else match fitShape cfg r.1.rows r.1.area with
    | none => r.2
    | some h => taskPlaced p (formedTask s p r.1 h) r.2

section
variable {p : PartId} {cfg : PCfg} {s : State}

theorem formsTask_empty (empty : (evaluated p cfg s).1.entries = []) : formsTask p cfg s = (evaluated p cfg s).2 :=
  if_pos (List.isEmpty_iff.2 empty)

theorem formsTask_shape {h : Shape} (nonempty : (evaluated p cfg s).1.entries ≠ [])
    (shape : fitShape cfg (evaluated p cfg s).1.rows (evaluated p cfg s).1.area = some h) :
    formsTask p cfg s = taskPlaced p (formedTask s p (evaluated p cfg s).1 h) (evaluated p cfg s).2 := by
  simp only [formsTask, shape, if_neg (mt List.isEmpty_iff.1 nonempty)]

end

/-- The partition may form a task in this tick (R309, R315; log 82, DEDUCED). -/
structure MayAdmit (p : PartId) (cfg : PCfg) (s : State) : Prop where
  config  : (s.part p).section_ = some cfg
  running : (s.part p).state = .running
  leads   : cfg.span ≠ 2
  fresh   : (s.part p).admTick ≠ some s.tick.now
  p3      : s.pwr.state ≠ .p3
  p4      : s.pwr.state ≠ .p4

theorem exec_admission {p : PartId} {cfg : PCfg} {s : State} (a : MayAdmit p cfg s) :
    exec (.admission p) s = .next (formsTask p cfg (updPart p (fun x => { x with admTick := some s.tick.now }) s)) := by
  have run : exec (.admission p) s = execAdmission p s := rfl
  have go : ¬ ((s.part p).state ≠ .running ∨ cfg.span = 2 ∨ (s.part p).admTick = some s.tick.now ∨ s.pwr.state = .p3 ∨ s.pwr.state = .p4) := by
    simp [a.running, a.leads, a.fresh, a.p3, a.p4]
  rw [run, execAdmission]
  simp only [a.config]
  rw [if_neg go]
  rfl

/-! ### Task start (R242, R315, R316) -/

@[simp] theorem trace_core (src : Fin 5) (part : Nat) (data : List Nat) (s : State) (c : CoreId) : (trace src part data s).core c = s.core c := by
  rw [trace_frame]; rfl

@[simp] theorem trace_part (src : Fin 5) (part : Nat) (data : List Nat) (s : State) (p : PartId) : (trace src part data s).part p = s.part p := by
  rw [trace_frame]; rfl

/-- Allocation gives out free values, and changes nothing else (R341). -/
theorem allocRuns_free (p : PartId) (l : List Nat) (taken : List (Nat × Nat)) (s : State) :
    ∃ n, (allocRuns p l taken s).2 = { s with freeCtr := n } := by
  induction l generalizing taken s with
  | nil => exact ⟨s.freeCtr, rfl⟩
  | cons n l ih =>
    unfold allocRuns
    have next : (allocBase false 5 (fun g => g.part == p.1) taken n s).2 = { s with freeCtr := s.freeCtr + 1 } := rfl
    generalize allocBase false 5 (fun g => g.part == p.1) taken n s = b at next
    obtain ⟨place, u⟩ := b
    obtain rfl : u = { s with freeCtr := s.freeCtr + 1 } := next
    cases place with
    | none => exact ⟨_, rfl⟩
    | some a =>
      obtain ⟨k, hk⟩ := ih ((a.toNat, n) :: taken) { s with freeCtr := s.freeCtr + 1 }
      exact ⟨k, hk⟩

/-- Where a task's key staging lies, as a start in `s` places it (log 41, DESIGN CHOICE). -/
def stagePlace (p : PartId) (t : Task) (s : State) : W64 :=
  ((allocRuns p [stageBytes s p t] [] (takeFree s).2).1.bind List.head?).getD 0

/-- The task `t` as a start in `s` makes it (R315, R316). -/
def startedTask (p : PartId) (t : Task) (s : State) : Task := { t with
  start := s.tick.now, started := true, ltab := (Config.free s.freeCtr).toNat % 2 ^ 14 * 64, cyc0 := s.pwr.cyc.toList
  stage := (stagePlace p t s, stageBytes s p t), exports := t.entries.map (exportOf (s.part p)) }

/-- The address of a started task's XTAB array, behind its lengths table (R316; log 41, DESIGN CHOICE). -/
def xtabArray (t : Task) : Nat := t.ltab + 16 * t.entries.length

/-- A core takes the start of a task, with the model's constants and the tables that the ticket rail has written (R316). -/
def taskCore (t : Task) (consts : List W64) (bytes : List Byte) (x : Core) : Core :=
  startCore t (startRegs t (xtabArray t) (xtabArray t + 8 * t.entries.length) consts) bytes x

/-- The cores of a partition take a task's start, then the partition does; both as the task stands in `s`, whatever free values are drawn. -/
theorem startTask_eq (p : PartId) (cfg : PCfg) (t : Task) (s : State) : ∃ n consts bytes g, (∀ x, (g x).task = some (startedTask p t s)) ∧
    startTask p cfg t s = updPart p g (forAll (coresOf s p) (fun c => updCore c (taskCore (startedTask p t s) consts bytes)) { s with freeCtr := n }) := by
  obtain ⟨n, free⟩ := allocRuns_free p [stageBytes s p t] [] (takeFree s).2
  have drawn : allocRuns p [stageBytes (takeFree s).2 p t] [] (takeFree s).2
      = ((allocRuns p [stageBytes s p t] [] (takeFree s).2).1, { s with freeCtr := n }) := Prod.ext rfl free
  rw [startTask]
  simp only [drawn]
  refine ⟨n, _, _, _, ?_, rfl⟩
  intro; rfl

/-! ### One update of every core of a list -/

section
variable {c : CoreId} {l : List CoreId} (f : Core → Core) (s : State)

/-- A core of the list was changed last in a state where it has all that the update keeps. -/
theorem forAll_updCore_mem (hc : c ∈ l) {I : Core → Prop} (keeps : ∀ x, I x → I (f x)) (start : I (s.core c)) :
    ∃ x, I x ∧ (forAll l (fun d => updCore d f) s).core c = f x := by
  have kept (d : CoreId) (t : State) (h : I (t.core c)) : I ((updCore d f t).core c) := by
    rw [updCore_core]
    split
    next e => exact e ▸ keeps _ h
    next => exact h
  refine forAll_reach_under (P := fun t => ∃ x, I x ∧ t.core c = f x) hc start (fun d _ => kept d) (fun t h => ⟨_, h, updCore_core_self ..⟩)
    (fun d _ t h done => ?_)
  rw [updCore_core]
  split
  next e => exact ⟨_, h, by rw [e]⟩
  next => exact done

theorem forAll_updCore_not_mem (hc : c ∉ l) : (forAll l (fun d => updCore d f) s).core c = s.core c :=
  forAll_keep (fun t => t.core c = s.core c) l _ s (fun d hd t h => by rw [updCore_core, if_neg (ne_of_mem_of_not_mem hd hc).symm, h]) rfl

end

/-! ### A core at the start of a task (R242, R316) -/

/-- A core stands at the start of task `t`, with the program and the descriptors that `x` has (R242, R316). -/
structure AtTaskStart (t : Task) (x y : Core) : Prop where
  running : y.running = true
  hold    : y.hold = .none
  pc      : y.pc = x.entry
  num     : y.getS 1 = BitVec.ofNat 64 t.num
  ltab    : y.getS 2 = BitVec.ofNat 64 t.ltab
  entries : y.getS 3 = BitVec.ofNat 64 t.entries.length
  xtabs   : y.getS 5 = BitVec.ofNat 64 (xtabArray t)
  stage   : y.getS 6 = t.stage.1
  exports : y.getS 7 = BitVec.ofNat 64 (xtabArray t + 8 * t.entries.length)
  start   : y.getS 8 = BitVec.ofNat 64 t.start
  dstore  : y.dstore = x.dstoreImg

theorem taskCore_atTaskStart (t : Task) (consts : List W64) (bytes : List Byte) (x : Core) : AtTaskStart t x (taskCore t consts bytes x) := by
  constructor <;> simp [taskCore, startCore, startRegs, Core.getS]

/-- A partition that may start the task `t` (R314, R315). -/
structure MayStart (p : PartId) (cfg : PCfg) (t : Task) (s : State) : Prop where
  config  : (s.part p).section_ = some cfg
  next    : ∃ ts, (s.part p).queue = t :: ts
  idle    : (s.part p).task = none
  running : (s.part p).state = .running
  due     : t.start ≤ s.tick.now
  power   : s.pwr.state = .p0 ∨ s.pwr.state = .p1

theorem exec_taskStart {p : PartId} {cfg : PCfg} {t : Task} {s : State} (h : MayStart p cfg t s) :
    exec (.taskStart p) s = .next (trace 4 p.1 [4, t.num] (startTask p cfg t s)) := by
  have run : exec (.taskStart p) s = execTaskStart p s := rfl
  obtain ⟨ts, queue⟩ := h.next
  have go : ¬ ((s.part p).task.isSome ∨ (s.part p).state ≠ .running ∨ s.tick.now < t.start ∨ ¬ (s.pwr.state = .p0 ∨ s.pwr.state = .p1)) := by
    simp [h.idle, h.running, h.due, h.power]
  rw [run, execTaskStart]
  simp only [h.config, queue, List.head?_cons]
  rw [if_neg go]

theorem startTask_task (p : PartId) (cfg : PCfg) (t : Task) (s : State) : ((startTask p cfg t s).part p).task = some (startedTask p t s) := by
  obtain ⟨n, consts, bytes, g, task, eq⟩ := startTask_eq p cfg t s
  rw [eq, updPart_part_self, task]

theorem startTask_core_mem {p : PartId} {s : State} {c : CoreId} (hc : c ∈ coresOf s p) (cfg : PCfg) (t : Task) :
    AtTaskStart (startedTask p t s) (s.core c) ((startTask p cfg t s).core c) := by
  obtain ⟨n, consts, bytes, g, -, eq⟩ := startTask_eq p cfg t s
  obtain ⟨x, ⟨entry, descriptors⟩, last⟩ := forAll_updCore_mem (taskCore (startedTask p t s) consts bytes) { s with freeCtr := n } hc
    (I := fun x => x.entry = (s.core c).entry ∧ x.dstoreImg = (s.core c).dstoreImg) (fun _ h => h) ⟨rfl, rfl⟩
  have started := taskCore_atTaskStart (startedTask p t s) consts bytes x
  rw [eq, updPart_core, last]
  exact { started with pc := started.pc.trans entry, dstore := started.dstore.trans descriptors }

theorem startTask_core_not_mem {p : PartId} {s : State} {c : CoreId} (hc : c ∉ coresOf s p) (cfg : PCfg) (t : Task) :
    (startTask p cfg t s).core c = s.core c := by
  obtain ⟨n, consts, bytes, g, -, eq⟩ := startTask_eq p cfg t s
  rw [eq, updPart_core, forAll_updCore_not_mem _ _ hc]
  rfl

/-! ### Task end (R249, R318) -/

theorem exec_taskEnd {p : PartId} {logits : List (Nat × W64 × List W32)} {s : State} {t : Task} (task : (s.part p).task = some t) :
    exec (.taskEnd p logits) s = .next (if !taskOver s p t then s else
      let s1 := skimTask p t (meetCkpt p (endCkpt (s.part p) t) s)
      let t1 := ((s1.part p).task).getD t
      let live := (taskReqs (s1.part p) t1).filter (fun r => !r.cancelled && r.code.isNone)
      let dur := ((shapeOf (s.part p) t).map (fun h => h.dur)).getD 0
      let s2 := updPart p (fun x => { x with
        task := none, ratios := (ratio256 (taskPhase s1 t) (dur * 65536) :: x.ratios).take 64
        doneTasks := if live.isEmpty then x.doneTasks else x.doneTasks ++ [{ t1 with ended := true }] }) s1
      let s3 := forAll live (drawToken p logits) s2
      let lead := ((s1.part p).section_.map (fun cfg => cfg.lead)).getD default
      trace 4 p.1 [5, t1.num] (whenS t1.follower (sendM 0x13 lead [t1.num]) (releaseDue p s3))) := by
  have run : exec (.taskEnd p logits) s = execTaskEnd p logits s := rfl
  rw [run, execTaskEnd]
  simp only [task]

/-- The logits that the task's end brings for a request (R318). -/
def logitsOf (logits : List (Nat × W64 × List W32)) (r : Req) : List W32 :=
  ((logits.find? (fun g => g.1 == r.func && g.2.1 == r.desc.reqid)).map (fun g => g.2.2)).getD []

theorem drawToken_eq (p : PartId) (logits : List (Nat × W64 × List W32)) (r : Req) (s : State) :
    drawToken p logits r s = updReq p r (fun q => { q with firstTok := some (firstToken (logitsOf logits r)), endOk := true })
      (if r.desc.logaddr = 0 then s else hostWrite r.desc.logaddr.toNat ((logitsOf logits r).flatMap (fun w => leBytes 4 w.toNat)) s) := rfl

/-! ### The segments of an attempt (R212-R215) -/

/-- The DATA segment of a head's half tile in the attempt of `q`, with its payload (R212). -/
def segmentOf (m : ModelCfg) (q : Req) (layer head tile half : Nat) (pay : List Byte) : Seg :=
  let span := deliveredOf m q layer head
  let pos0 := Nat.max span.1 (128 * tile)
  { type := 1, fmt := if (keeperHeads m layer).contains head then 3 else (extFmt m.form).toNat, part := half, seq := q.seq
    reqid := q.desc.reqid, epoch := q.epoch, layer, head0 := head, headn := 1, pos0, posn := Nat.min span.2 (128 * tile + 128) - pos0
    paylen := pay.length, pcrc := if pay.isEmpty then 0 else crc32c pay }

/-- The next segment of the attempt of `q`, with the payload `pay`, is counted where its path has taken it (R212, R215). -/
def countSent (p : PartId) (q : Req) (pay : List Byte) (sent : Bool × State) : State :=
  if sent.1 then updReq p q (fun x => { x with
    segDone := x.segDone + 1, segSent := x.segSent + 1, seq := x.seq + 1, offset := x.offset + 64 + pay.length }) sent.2
  else sent.2

theorem exec_segmentHandOff {p : PartId} {id : W64} {s s1 : State} {r q : Req} {m : ModelCfg} {t : Task} {layer head tile half : Nat}
    (next : reqFor (s.part p) (sendsMore s) id = some r) (model : s.img.models.find? (fun m => m.idx == r.desc.model.toNat) = some m)
    (task : (s.part p).task = some t) (live : t.live = true) (opened : openAttempt p r (pumpAll p s) = s1) (now : reqNow s1 p r = q)
    (place : segAt m q q.segDone = (layer, head, tile, half)) (data : List Byte) :
    let pay := segPayload s1 p m q layer head tile half data
    exec (.segmentHandOff p id data) s = .next (countSent p q pay (sendSegment p q (segmentOf m q layer head tile half pay) pay s1)) := by
  have run : exec (.segmentHandOff p id data) s = execSegmentHandOff p id data s := rfl
  have goes : ¬ (!(((s.part p).task.map Task.live).getD false)) = true := by simp [task, live]
  rw [run, execSegmentHandOff]
  simp only [next, model]
  rw [if_neg goes, opened, now, place]
  rfl

/-! ### Commit (R201, R323) -/

theorem exec_commit {p : PartId} {id : W64} {s : State} {r : Req} {m : ModelCfg} (ready : reqFor (s.part p) (commitReady s p) id = some r)
    (model : s.img.models.find? (fun m => m.idx == r.desc.model.toNat) = some m) :
    let s1 := settleMemory p m r s
    let s2 := attemptRecord p (reqNow s1 p r) s1
    let q := reqNow s2 p r
    let s3 := journalNear p { rid := q.rid, func := q.func, reqid := q.desc.reqid, type := 4, epoch := q.epoch, ftok := q.firstTok.getD 0, tick := s2.tick.now } s2
    let s4 := controlSeg p q 2 q.epoch [(q.firstTok.getD 0).toNat, segTotal m r, q.length] s3
    let s5 := updReq p q (fun q => { q with state := .committed, code := some 0, finTick := s4.tick.now }) s4
    exec (.commit p id) s = .next (pruneDone p (releaseAll p q.func (journalFinal p (reqNow s5 p q) s5))) := by
  have run : exec (.commit p id) s = execCommit p id s := rfl
  simp only [run, execCommit, ready, model]

theorem inAttempt_iff (r : Req) : inAttempt r = true ↔ r.state = .running ∧ r.cancelled = false ∧ r.code = none := by
  simp [inAttempt, and_assoc]

theorem commitReady_iff {s : State} {r : Req} {m : ModelCfg} (model : s.img.models.find? (fun m => m.idx == r.desc.model.toNat) = some m) (p : PartId) :
    commitReady s p r = true ↔ r.state = .running ∧ r.cancelled = false ∧ r.code = none ∧ r.endOk = true ∧ spanReady s p r = true
      ∧ tableQuiet s p r = true ∧ r.segSent = segTotal m r ∧ (r.desc.path = 3 ∨ segTotal m r ≤ r.segAcked) := by
  simp [commitReady, inAttempt_iff, model, and_assoc]

/-! ### The statement -/

/-- Settles O42: each command by its own equation; a task's start by what every core of its partition keeps while the cores take it. -/
theorem taskLife : Obligations.TaskLife := by
  unfold Obligations.TaskLife
  intro p cfg s config
  refine ⟨?admission, ?start, ?taskEnd, ?token, ?segment, fun r m id ready model => exec_commit ready model, fun r m model => commitReady_iff model p⟩
  case admission =>
    intro running leads fresh p3 p4 s1 num r
    have admission := exec_admission ⟨config, running, leads, fresh, p3, p4⟩
    exact ⟨fun empty => admission.trans (congrArg _ (formsTask_empty empty)),
      fun h nonempty shape => admission.trans (congrArg _ (formsTask_shape nonempty shape))⟩
  case start =>
    intro t ts queue idle running due power
    refine ⟨_, exec_taskStart ⟨config, ⟨ts, queue⟩, idle, running, due, power⟩, ⟨stagePlace p t s, ?_, fun c hc => ?_⟩, fun c hc => ?_⟩
    · rw [trace_part]; exact startTask_task p cfg t s
    · obtain ⟨runs, hold, pc, num, ltab, entries, xtabs, stage, exports, start, dstore⟩ := startTask_core_mem hc cfg t
      rw [trace_core]
      exact ⟨runs, hold, pc, num, ltab, entries, xtabs, stage, exports, start, dstore⟩
    · rw [trace_core]; exact startTask_core_not_mem hc cfg t
  case taskEnd =>
    intro t logits task
    exact ⟨fun ended => (exec_taskEnd task).trans (congrArg _ (if_neg (by simp [ended]))),
      fun runs => (exec_taskEnd task).trans (congrArg _ (if_pos (by simp [runs])))⟩
  case token =>
    intro logits r s l
    refine ⟨fun none_ => ?_, fun some_ => ?_⟩
    · rw [drawToken_eq, if_pos none_]; rfl
    · rw [drawToken_eq, if_neg some_]; rfl
  case segment =>
    intro r m layer head tile half u id data t next model task live s1 q place pay pos0 sg
    have handOff : exec (.segmentHandOff p id data) s = .next (countSent p q pay (sendSegment p q sg pay s1)) :=
      exec_segmentHandOff next model task live rfl rfl place data
    refine ⟨fun sent => ?_, fun held => ?_⟩
    · rw [handOff, sent]; rfl
    · rw [handOff, held]; rfl

end Sys2Proof.Machine
end

section
/-! PROOF. O5, the canonical form of the byte stores over a step (R217, R244, R328, R370): what each command keeps, put together over the
commands and then over a step. -/

namespace Sys2Proof.Machine

/-- A command that completes keeps the queue, the modes and the canonical stores. -/
theorem exec_keeps {i : Instr} {s t : State} (h : exec i s = .next t) : Keeps s t :=
  match i, h with
  | .nop _, h => .execNop h (.refl s)
  | .add _ _ _ _, h => .execAdd h (.refl s)
  | .sub _ _ _ _, h => .execSub h (.refl s)
  | .mul _ _ _ _, h => .execMul h (.refl s)
  | .and _ _ _ _, h => .execAnd h (.refl s)
  | .or _ _ _ _, h => .execOr h (.refl s)
  | .xor _ _ _ _, h => .execXor h (.refl s)
  | .shl _ _ _ _, h => .execShl h (.refl s)
  | .shr _ _ _ _, h => .execShr h (.refl s)
  | .sra _ _ _ _, h => .execSra h (.refl s)
  | .min _ _ _ _, h => .execMin h (.refl s)
  | .max _ _ _ _, h => .execMax h (.refl s)
  | .addi _ _ _ _, h => .execAddi h (.refl s)
  | .ori _ _ _ _, h => .execOri h (.refl s)
  | .shli _ _ _ _, h => .execShli h (.refl s)
  | .lui _ _ _, h => .execLui h (.refl s)
  | .ceq _ _ _ _, h => .execCeq h (.refl s)
  | .clt _ _ _ _, h => .execClt h (.refl s)
  | .cltu _ _ _ _, h => .execCltu h (.refl s)
  | .cle _ _ _ _, h => .execCle h (.refl s)
  | .b _ _, h => .execB h (.refl s)
  | .bp _ _ _, h => .execBp h (.refl s)
  | .bnp _ _ _, h => .execBnp h (.refl s)
  | .call _ _, h => .execCall h (.refl s)
  | .ret _, h => .execRet h (.refl s)
  | .end_ _, h => .execEnd h (.refl s)
  | .ldD _ _ _ _, h => .execLdD h (.refl s)
  | .stD _ _ _ _, h => .execStD h (.refl s)
  | .movHS _ _ _, h => .execMovHS h (.refl s)
  | .movSH _ _ _, h => .execMovSH h (.refl s)
  | .csrr _ _ _, h => .execCsrr h (.refl s)
  | .twait _ _, h => .execTwait h (.refl s)
  | .mm _ _ _, h => .execMm h (.refl s)
  | .cx _ _ _ _, h => .execCx h (.refl s)
  | .recipe _ _ _, h => .execRecipe h (.refl s)
  | .scan _ _ _, h => .execScan h (.refl s)
  | .perm _ _ _, h => .execPerm h (.refl s)
  | .norm _ _ _, h => .execNorm h (.refl s)
  | .reduce _ _ _, h => .execReduce h (.refl s)
  | .smerge _ _ _, h => .execSmerge h (.refl s)
  | .park _ _ _, h => .execPark h (.refl s)
  | .restore _ _ _, h => .execRestore h (.refl s)
  | .rload _ _ _, h => .execRload h (.refl s)
  | .tload _ _ _, h => .execTload h (.refl s)
  | .arm _ _ _ _ _, h => .execArm h (.refl s)
  | .fill _ _ _, h => .execFill h (.refl s)
  | .put _ _ _, h => .execPut h (.refl s)
  | .take _ _ _, h => .execTake h (.refl s)
  | .return_ _ _ _, h => .execReturn h (.refl s)
  | .free _ _ _, h => .execFree h (.refl s)
  | .bl _ _ _, h => .execBl h (.refl s)
  | .tileComplete _ _, h => .execTileComplete h (.refl s)
  | .matrixPass _ _ _, h => .execMatrixPass h (.refl s)
  | .scoopTransferIssue _ _, h => .execScoopTransferIssue h (.refl s)
  | .transferLanded _ _ _, h => .execTransferLanded h (.refl s)
  | .simmerRefill _, h => .execSimmerRefill h (.refl s)
  | .fillPhase _, h => .execFillPhase h (.refl s)
  | .multicastBlockSend _ _ _, h => .execMulticastBlockSend h (.refl s)
  | .multicastLagAbort _ _, h => .execMulticastLagAbort h (.refl s)
  | .bellRelease _, h => .execBellRelease h (.refl s)
  | .lateData _ _, h => .execLateData h (.refl s)
  | .abortWindowClose _, h => .execAbortWindowClose h (.refl s)
  | .flitReceive _ _, h => .execFlitReceive h (.refl s)
  | .retrain _ _, h => .execRetrain h (.refl s)
  | .retrainComplete _, h => .execRetrainComplete h (.refl s)
  | .portDown _, h => .execPortDown h (.refl s)
  | .portTrain _ _, h => .execPortTrain h (.refl s)
  | .trainingComplete _ _ _ _, h => .execTrainingComplete h (.refl s)
  | .write _ _, h => .execWrite h (.refl s)
  | .piece _ _ _, h => .execPiece h (.refl s)
  | .segment _ _, h => .execSegment h (.refl s)
  | .ack port _, h => .execAck (_port := port) h (.refl s)
  | .notice _, h => .execNotice h (.refl s)
  | .tickMessage _ _, h => .execTickMessage h (.refl s)
  | .taskStartMessage _ _ _ _ _, h => .execTaskStartMessage h (.refl s)
  | .stateReport _ _ _ _ _ _, h => .execStateReport h (.refl s)
  | .taskPrepared _ _ _, h => .execTaskPrepared h (.refl s)
  | .groupCheck _ _ _ _ _, h => .execGroupCheck h (.refl s)
  | .suspectReport _, h => .execSuspectReport h (.refl s)
  | .peerAccused _, h => .execPeerAccused h (.refl s)
  | .rmAccess _ _ _ _ _ _ _, h => .execRmAccess h (.refl s)
  | .cancelFlagMessage _ _ _, h => .execCancelFlagMessage h (.refl s)
  | .localTileLand _ _ _ _ _, h => .execLocalTileLand h (.refl s)
  | .triggeredOpFire _ _ _, h => .execTriggeredOpFire h (.refl s)
  | .collectiveDeadline _ _, h => .execCollectiveDeadline h (.refl s)
  | .roceAck _ _ _, h => .execRoceAck h (.refl s)
  | .congestionNotification _ _, h => .execCongestionNotification h (.refl s)
  | .roceRetryTimeout _ _, h => .execRoceRetryTimeout h (.refl s)
  | .foreignRequestDrop _, h => .execForeignRequestDrop h (.refl s)
  | .segmentHandOff _ _ _, h => .execSegmentHandOff h (.refl s)
  | .cancelledSegment _ _, h => .execCancelledSegment h (.refl s)
  | .sqTail _ _ _, h => .execSqTail h (.refl s)
  | .cqHead _ _ _, h => .execCqHead h (.refl s)
  | .jqHead _ _ _, h => .execJqHead h (.refl s)
  | .cancel _ _ _, h => .execCancel h (.refl s)
  | .prefill _ _ _ _, h => .execPrefill h (.refl s)
  | .extend _ _ _ _, h => .execExtend h (.refl s)
  | .release _ _, h => .execRelease h (.refl s)
  | .migrate _ _, h => .execMigrate h (.refl s)
  | .vload _ _ _, h => .execVload h (.refl s)
  | .acceptance _ _, h => .execAcceptance h (.refl s)
  | .cancelHoldExpiry _ _, h => .execCancelHoldExpiry h (.refl s)
  | .admission _, h => .execAdmission h (.refl s)
  | .taskStart _, h => .execTaskStart h (.refl s)
  | .taskEnd _ _, h => .execTaskEnd h (.refl s)
  | .commit _ _, h => .execCommit h (.refl s)
  | .completionRecordWrite _, h => .execCompletionRecordWrite h (.refl s)
  | .extentEdit _ _ _, h => .execExtentEdit h (.refl s)
  | .extentReclaim _ _, h => .execExtentReclaim h (.refl s)
  | .vloadComplete _, h => .execVloadComplete h (.refl s)
  | .upkeepWindow _ _ _, h => .execUpkeepWindow h (.refl s)
  | .memCpgo _ _ _, h => .execMemCpgo h (.refl s)
  | .ownerCopyComplete _, h => .execOwnerCopyComplete h (.refl s)
  | .memReload _ _ _ _, h => .execMemReload h (.refl s)
  | .memFreload _ _ _ _, h => .execMemFreload h (.refl s)
  | .bar4Read _ _ _ _, h => .execBar4Read h (.refl s)
  | .bar4Write _ _ _, h => .execBar4Write h (.refl s)
  | .tickEdge _ _, h => .execTickEdge h (.refl s)
  | .tickMiss, h => .execTickMiss h (.refl s)
  | .tickBoundary _, h => .execTickBoundary h (.refl s)
  | .tikNext _ _, h => .execTikNext h (.refl s)
  | .tikPeriod _ _, h => .execTikPeriod h (.refl s)
  | .kappaUpdate _ _, h => .execKappaUpdate h (.refl s)
  | .budgetWrite _ _ _ _, h => .execBudgetWrite h (.refl s)
  | .load _ _ _, h => .execLoad h (.refl s)
  | .start _ _, h => .execStart h (.refl s)
  | .drain _ _, h => .execDrain h (.refl s)
  | .reset _ _, h => .execReset h (.refl s)
  | .unload _ _, h => .execUnload h (.refl s)
  | .loadingComplete _, h => .execLoadingComplete h (.refl s)
  | .ownClaim _ _ _ _, h => .execOwnClaim h (.refl s)
  | .ownRenew _ _, h => .execOwnRenew h (.refl s)
  | .ownRelease _ _, h => .execOwnRelease h (.refl s)
  | .claimWindowClose, h => .execClaimWindowClose h (.refl s)
  | .leaseLapse, h => .execLeaseLapse h (.refl s)
  | .handoverExpiry, h => .execHandoverExpiry h (.refl s)
  | .i3cAccess _ _ _ _ _, h => .execI3cAccess h (.refl s)
  | .fullLoad _ _, h => .execFullLoad h (.refl s)
  | .writeSlotA _ _, h => .execWriteSlotA h (.refl s)
  | .writeSlotB _ _, h => .execWriteSlotB h (.refl s)
  | .setBootSlot _ _, h => .execSetBootSlot h (.refl s)
  | .savetrim _, h => .execSavetrim h (.refl s)
  | .writeGradeCertificate _ _, h => .execWriteGradeCertificate h (.refl s)
  | .imageLoadComplete, h => .execImageLoadComplete h (.refl s)
  | .flashWriteComplete, h => .execFlashWriteComplete h (.refl s)
  | .certificateWriteComplete, h => .execCertificateWriteComplete h (.refl s)
  | .coldStart _ _, h => .execColdStart h (.refl s)
  | .warmStart _ _, h => .execWarmStart h (.refl s)
  | .reqStandby _, h => .execReqStandby h (.refl s)
  | .reqOff _, h => .execReqOff h (.refl s)
  | .reqWake _ _, h => .execReqWake h (.refl s)
  | .pwrEnAssert _ _, h => .execPwrEnAssert h (.refl s)
  | .pwrEnDeassert _, h => .execPwrEnDeassert h (.refl s)
  | .perstAssert, h => .execPerstAssert h (.refl s)
  | .perstDeassert _, h => .execPerstDeassert h (.refl s)
  | .inputInRange _ _, h => .execInputInRange h (.refl s)
  | .inputLoss, h => .execInputLoss h (.refl s)
  | .voltageOutOfRange _, h => .execVoltageOutOfRange h (.refl s)
  | .thermalCritical _, h => .execThermalCritical h (.refl s)
  | .provision _ _ _, h => .execProvision h (.refl s)
  | .rotate _ _ _, h => .execRotate h (.refl s)
  | .lockdown _ _, h => .execLockdown h (.refl s)
  | .secRelease _ _, h => .execSecRelease h (.refl s)
  | .deprovision _ _, h => .execDeprovision h (.refl s)
  | .debug0 _ _, h => .execDebug0 h (.refl s)
  | .debug1 _ _, h => .execDebug1 h (.refl s)
  | .debug2 _ _ _ _, h => .execDebug2 h (.refl s)
  | .challenge _ _, h => .execChallenge h (.refl s)
  | .unlock _ _, h => .execUnlock h (.refl s)
  | .wipeComplete, h => .execWipeComplete h (.refl s)
  | .challengeExpiry, h => .execChallengeExpiry h (.refl s)
  | .consentLapse, h => .execConsentLapse h (.refl s)
  | .prtConsent _ _ _ _, h => .execPrtConsent h (.refl s)
  | .secAttgo _, h => .execSecAttgo h (.refl s)
  | .prtAttgo _ _, h => .execPrtAttgo h (.refl s)
  | .attestationReport _, h => .execAttestationReport h (.refl s)
  | .lossSummary, h => .execLossSummary h (.refl s)
  | .suspectForward _, h => .execSuspectForward h (.refl s)
  | .suspectExpiry _, h => .execSuspectExpiry h (.refl s)
  | .fltTestreq _ _ _, h => .execFltTestreq h (.refl s)
  | .selfTestStart _, h => .execSelfTestStart h (.refl s)
  | .selfTestComplete _ _ _ _, h => .execSelfTestComplete h (.refl s)
  | .watchdogExpiry _, h => .execWatchdogExpiry h (.refl s)
  | .hubError _ _, h => .execHubError h (.refl s)
  | .functionLevelReset _, h => .execFunctionLevelReset h (.refl s)
  | .tktRingcfg _ _, h => .execTktRingcfg h (.refl s)
  | .msixMessage _ _, h => .execMsixMessage h (.refl s)
  | .readClear _ _ _, h => .execReadClear h (.refl s)
  | .registerWrite _ _ _ _, h => .execRegisterWrite h (.refl s)
  | .priorityFlowControl _ _ _, h => .execPriorityFlowControl h (.refl s)
  | .savetrimComplete, h => .execSavetrimComplete h (.refl s)

/-- A step that goes on is an idle phase unit, or the command at the front of the queue, run on the queue's rest. -/
theorem step_cases {s t : State} (h : step s = .next t) : t = idle s ∨ ∃ i r, s.pending = i :: r ∧ exec i { s with pending := r } = .next t := by
  unfold step at h
  split at h
  case h_1 => exact .inl (Host.Outcome.next.inj h).symm
  case h_2 i r front => exact .inr ⟨i, r, front, h⟩

/-- Settles O5: the stores that a command runs on are those of the step's first state, and every command keeps them canonical. -/
theorem stepKeepsStores : Obligations.StepKeepsStores := by
  intro s t ok h
  obtain rfl | ⟨i, r, -, run⟩ := step_cases h
  · exact (Keeps.idle (.refl s)).stores ok
  · exact (exec_keeps run).stores ok

end Sys2Proof.Machine
end

section
/-! PROOF. O20, the tray rails. The statement fails at one clause, RETURN (R228, R257), on a partition with two rails of one index: the model
numbers the returned handle on each of them by that rail's own count, and the statement numbers it on both by the count of the first. An
accepted image holds no two records of one type and index (`noTwins`, R384), so no partition that an image configured has such rails; the
statement, however, is of every state. -/

namespace Sys2Proof.Machine

/-- Core 0 runs, in a partition with two rails of index 0 from and to it; one handle has been returned on the second. -/
def twinRails : State :=
  updPart 0 (fun x => { x with section_ := some { cores := [0] }, rails := [{ backNext := 0 }, { backNext := 1 }] })
    (updCore 0 (fun x => { x with running := true }) State.reset)

/-- The core's RETURN of the handle 0 on rail 0. -/
def twinReturn : Instr := .return_ 0 default default

theorem twinRails_takesLine : TakesLine 0 default twinRails := by
  unfold TakesLine; decide +kernel

theorem twinRails_trq_empty (d : CoreId) : (twinRails.core d).trq = [] := by
  revert d; decide +kernel

/-- The model appends the handle with SEQ 0 to the first rail and with SEQ 1 to the second. -/
theorem twinReturn_back : ((after (exec twinReturn) twinRails).part 0).rails.map (fun q => q.back) = [[0], [0x0001000000000000]] := by
  decide +kernel

/-- Refutes O20: where core 0 returns the handle 0 on the rail of index 0, the statement asks for SEQ 0 on both rails of that index. -/
theorem not_railInstructions : ¬ Obligations.RailInstructions := by
  unfold Obligations.RailInstructions
  intro h
  have part : partOfCore twinRails 0 = some 0 := by decide +kernel
  have rail : railOf (twinRails.part 0) 0 = some {} := by decide +kernel
  obtain ⟨-, -, returns, -⟩ := h 0 0 default default {} twinRails twinRails_takesLine part twinRails_trq_empty rail
  obtain ⟨t, run, -, -, asked⟩ := returns rfl (by decide)
  have ran : after (exec twinReturn) twinRails = t := by rw [after, show exec twinReturn twinRails = .next t from run]
  have back : (t.part 0).rails.map (fun q => q.back) = [[0], [0]] := by rw [asked]; decide +kernel
  rw [← ran, twinReturn_back] at back
  exact absurd back (by decide)

end Sys2Proof.Machine
end

section
/-! PROOF. O19, ARM and FILL enter the SC queue (R223, R247, R256). -/

namespace Sys2Proof.Machine

/-- The core with an SC instruction that has just entered its queue, and the PC on the next line. -/
def scQueued (e : SCEntry) (x : Core) : Core := { x with pc := x.pc + 16, hold := .none, issued := x.issued + 1, scq := x.scq ++ [e] }

/-- The program that an ARM names, with its overrides (R223, R256). -/
def armRun (x : Core) (doff : W16) (sovr : SReg) : ScoopRun :=
  { bytes := scBytes x.dstore (doff.toNat * 16), ovr := if sovr = 0 then none else some (x.getS sovr, x.getS (Fin.ofNat 64 (sovr.1 + 1))) }

/-- The queue entries that an ARM and a FILL make (R256). -/
def armEntry (h : TileHdr) (u : BitVec 3) (doff : W16) (sovr : SReg) (x : Core) : SCEntry :=
  { id := x.issued, ckpt := h.ckpt.toNat, pc := x.pc, arm := some (u.toNat, armRun x doff sovr) }

def fillEntry (h : TileHdr) (sf : SReg) (x : Core) : SCEntry :=
  { id := x.issued, ckpt := h.ckpt.toNat, pc := x.pc, fill := (List.range 5).map (fun j => (x.getS (Fin.ofNat 64 (sf.1 + j))).setWidth 32) }

/-- A queue whose front has run, or is a FILL, arms nothing (R223). -/
theorem scqPump_idle {c : CoreId} {s : State} {f : SCEntry} {r : List SCEntry} (front : (s.core c).scq = f :: r) (idle : f.ran = true ∨ f.arm = none) :
    scqPump c s = s := by
  rw [scqPump, front]
  rcases idle with ran | fill
  · simp only [ran]
  · simp only [fill]
    cases f.ran <;> rfl

section
variable {c : CoreId} {h : TileHdr} {s : State} (takes : TakesLine c h s)
include takes

/-- The issue of an SC instruction takes an identity, queues the entry and moves on to the next line (R247, R249). -/
theorem nextLine_scEntry (e : SCEntry) : nextLine c (updCore c (fun x => { x with scq := x.scq ++ [e] }) (takeId c s).2) = updCore c (scQueued e) s := by
  have ⟨_, _, _, _, next⟩ := takes
  have core : (takeId c s).2.core c = { s.core c with issued := (s.core c).issued + 1 } := takeId_core ..
  rw [nextLine_eq (by rw [updCore_core_self, core]; exact next), takeId, updCore_updCore, updCore_updCore]
  rfl

variable (room : (s.core c).scq.length < 8)
include room

theorem exec_arm {u : BitVec 3} {doff : W16} {sovr : SReg} (wf : (Instr.arm c h u doff sovr).wellFormed = true)
    (fits : doff.toNat * 16 + (scBytes (s.core c).dstore (doff.toNat * 16)).length ≤ 0x20000) :
    exec (.arm c h u doff sovr) s = .next (scqPump c (updCore c (scQueued (armEntry h u doff sovr (s.core c))) s)) := by
  have run : exec (.arm c h u doff sovr) s = staticCheck (Instr.arm c h u doff sovr).wellFormed "ARM" (armIssue c h u doff sovr s) := rfl
  have notFull : decide (8 ≤ (s.core c).scq.length) = false := by simpa using room
  rw [run, wf, armIssue, issue_eq takes _ notFull, ← nextLine_scEntry takes]
  dsimp only
  rw [if_neg (Nat.not_lt.2 fits)]
  rfl

theorem exec_fill {sf : SReg} (wf : (Instr.fill c h sf).wellFormed = true) :
    exec (.fill c h sf) s = .next (updCore c (scQueued (fillEntry h sf (s.core c))) s) := by
  have run : exec (.fill c h sf) s = staticCheck (Instr.fill c h sf).wellFormed "FILL" (fillIssue c h sf s) := rfl
  have notFull : decide (8 ≤ (s.core c).scq.length) = false := by simpa using room
  rw [run, wf, fillIssue, issue_eq takes _ notFull, ← nextLine_scEntry takes]
  rfl

end

/-- Settles O19: each enters the queue by its own equation, and an ARM behind a front that has run or is a FILL stays there. -/
theorem scoopIssue : Obligations.ScoopIssue := by
  unfold Obligations.ScoopIssue
  intro c h u doff sovr sf s takes room x run put
  refine ⟨fun wf fits => ⟨exec_arm takes room wf fits, ?behind⟩, exec_fill takes room⟩
  case behind =>
    rintro ⟨f, r, front, idle⟩
    have queued : ((put (armEntry h u doff sovr x)).core c).scq = f :: (r ++ [armEntry h u doff sovr x]) := by
      rw [updCore_core_self, ← List.cons_append, ← front]
    exact scqPump_idle queued idle

end Sys2Proof.Machine
end

section
/-! PROOF. O23, the refill of the simmer buckets and the fill point at the front of the SC queue (R225, R228, R231). -/

namespace Sys2Proof.Machine

/-! ### Refills (R231) -/

/-- A bucket gains RATE, up to DEPTH. -/
def refilled (g : Simmer) : Simmer := { g with level := Nat.min g.depth (g.level + g.rate) }

theorem refilled_eq (g : Simmer) : refilled g = { g with level := if g.level + g.rate ≤ g.depth then g.level + g.rate else g.depth } := by
  have least : Nat.min g.depth (g.level + g.rate) = if g.level + g.rate ≤ g.depth then g.level + g.rate else g.depth :=
    (Nat.min_comm ..).trans Nat.min_def
  rw [refilled, least]

theorem exec_simmerRefill (p : PartId) (s : State) :
    exec (.simmerRefill p) s = .next (updPart p (fun x => { x with simmer := x.simmer.map refilled }) s) := rfl

theorem onlyPart_updPart (p : PartId) (f : Part → Part) (s : State) : OnlyPart p s (updPart p f s) :=
  ⟨rfl, fun q hq => by rw [updPart_part, if_neg hq]⟩

/-! ### Fill points (R225, R228) -/

theorem partOfCore_updCore (c : CoreId) (f : Core → Core) (s : State) (k : Nat) : partOfCore (updCore c f s) k = partOfCore s k := rfl

theorem fillEnd_updCore (p : PartId) (c : CoreId) (f : Core → Core) (s : State) :
    fillEnd p c (updCore c f s)
      = forAll (coresOf s p) (fun d => vePump d 8) (railPump p (meshPump p (readyRails p c (updCore c f s)))) := rfl

/-- The fill point at the front of the SC queue, once the instructions before it are done: the units drain, and the point is judged. -/
theorem exec_fillPhase {c : CoreId} {p : PartId} {e : SCEntry} {r : List SCEntry} {s : State} (front : (s.core c).scq = e :: r) (fill : e.arm = none)
    (waits : e.ran = false) (before : beforeDone (s.core c) e.id = true) (part : partOfCore (fillWork c s) c.1 = some p)
    (keeps : ((fillWork c s).core c).scq ≠ []) :
    exec (.fillPhase c) s = .next (if countsReached ((fillWork c s).core c) e.fill
      then fillEnd p c (updCore c (fun x => { x with scq := { e with ran := true } :: r }) (fillWork c s)) else meshPump p (fillWork c s)) := by
  have run : exec (.fillPhase c) s = execFillPhase c s := rfl
  have runs : (e.arm.isSome || e.ran || !beforeDone (s.core c) e.id) = false := by simp [fill, waits, before]
  have holds : ((fillWork c s).core c).scq.isEmpty = false := by simpa using keeps
  rw [run, execFillPhase, front]
  simp only [runs, holds, partOfCore_updCore, part, Bool.false_eq_true, ↓reduceIte]
  cases countsReached ((fillWork c s).core c) e.fill <;> simp only [Bool.not_true, Bool.not_false, Bool.false_eq_true, ↓reduceIte]

/-- Settles O23: a refill maps every bucket of the partition alone, and a fill point ends or goes on by its counts. -/
theorem simmerAndFillPhases : Obligations.SimmerAndFillPhases := by
  unfold Obligations.SimmerAndFillPhases
  refine ⟨fun p s => ⟨_, exec_simmerRefill p s, onlyPart_updPart .., ?refill, fun k => ?bucket⟩, fun c p e r s front fill waits before => ?point⟩
  case refill => rw [updPart_part_self]
  case bucket => rw [updPart_part_self, ← refilled_eq]; exact Vector.getElem_map ..
  case point =>
    intro drained part keeps ended
    have judged := exec_fillPhase front fill waits before part keeps
    rw [fillEnd_updCore] at judged
    exact ⟨fun reached => by rw [judged, if_pos reached], fun short => by rw [judged, if_neg (by simp [drained, short])]⟩

end Sys2Proof.Machine
end

section
/-! PROOF. O25, BL and the release of the bell (R235, R236, R258). -/

namespace Sys2Proof.Machine

theorem exec_bl {c : CoreId} {h : TileHdr} {s : State} (takes : TakesLine c h s) (mark : W16) :
    exec (.bl c h mark) s = .next (holdAt c (.bell mark.toNat h.ckpt.toNat) s) :=
  congrArg _ (issue_eq takes _ rfl _)

/-- Every core of the partition has arrived at the bell, and none is held by its earliest phase (R235, R236). -/
def bellDue (s : State) (p : PartId) : Bool :=
  (coresOf s p).all (fun c => (s.core c).running && atBell (s.core c) && earliestReached s c (bellMark (s.core c)).2)

/-- A core goes on from the bell: its mark is traced and its checkpoint met (R235, R258). -/
def leaveBell (p : PartId) (c : CoreId) (s : State) : State :=
  nextLine c (meetCkpt p (bellMark (s.core c)).2 (trace 0 p.1 [(bellMark (s.core c)).1, c.1, s.tick.now, s.tick.phase] s))

theorem exec_bellRelease {p : PartId} {s : State} (cores : coresOf s p ≠ []) (due : bellDue s p = true) :
    exec (.bellRelease p) s = .next (forAll (coresOf s p) (leaveBell p) s) := by
  have run : exec (.bellRelease p) s = .next (if (coresOf s p).isEmpty || !bellDue s p then s else forAll (coresOf s p) (leaveBell p) s) := rfl
  have some_core : (coresOf s p).isEmpty = false := by simpa using cores
  rw [run, some_core, due]
  rfl

/-- Settles O25: a BL that nothing holds back stops its core, and a bell at which every core has arrived lets each go on. -/
theorem bellRings : Obligations.BellRings := by
  unfold Obligations.BellRings
  refine ⟨fun c h mark s takes => exec_bl takes mark, fun p s cores arrived => exec_bellRelease cores ?_⟩
  rw [bellDue, List.all_eq_true]
  intro c hc
  obtain ⟨runs, stands, earliest⟩ := arrived c hc
  rw [runs, stands, earliest]
  rfl

end Sys2Proof.Machine
end

section
/-! PROOF. O26, late checkpoints (R238), steps past their deadline (R293, R294) and the close of an abort window (R324, R444). -/

namespace Sys2Proof.Machine

section
variable {p : PartId} {n : BitVec 15} {t : Task} {k : Ckpt} {s : State} (task : (s.part p).task = some t) (ckpt : ckptOf (s.part p) t n.toNat = some k)
  (live : t.live = true) (unmet : t.met.contains k.idx = false)
include task ckpt live unmet

/-- A checkpoint that waits on no step and on no receiver of a block is late data (R234, R238). -/
theorem exec_lateData_late (data : k.kind ≠ 6) (noStep : k.onStep = false) (free : blockHeld (s.part p) k = false) (late : k.latest < taskPhase s t) :
    exec (.lateData p n) s = .next (abortTask p { code := 0x21, src := k.core, unit := k.unit, ckpt := k.idx } false s) := by
  have run : exec (.lateData p n) s = execLateData p n s := rfl
  have due : (t.live && k.kind != 6 && !k.onStep && !blockHeld (s.part p) k && !t.met.contains k.idx && decide (k.latest < taskPhase s t)) = true := by
    rw [live, unmet, noStep, free]
    simp [data, late]
  rw [run, execLateData]
  simp only [task, ckpt, due, if_true]

/-- The devices that starved a step's ports are suspects (R450). -/
def suspectStarved (p : PartId) (k : Ckpt) (s0 s : State) : State :=
  if k.kind != 6 then s else
  match groupOfGid (s0.part p) k.aux with
  | none => s
  | some g => forAll ((stepPorts (s0.part p) g k.step).filter (fun i => !stepLanded g k.step i))
      (fun i s => match starvedBy s0 g i.1 with
        | none => s
        | some d => detect d 0 0x03 p.1 s) s

/-- A step, or a checkpoint that waits on one, aborts its task 131,072 phase units later (R293, R294). -/
theorem exec_collectiveDeadline_due (step : k.kind = 6 ∧ stepComplete (s.part p) k.aux k.step = false ∨ k.kind ≠ 6 ∧ k.onStep = true)
    (late : k.latest + 131072 < taskPhase s t) :
    exec (.collectiveDeadline p n) s = .next (suspectStarved p k s (abortTask p { code := 0x24, src := 0xFFFF } false s)) := by
  have run : exec (.collectiveDeadline p n) s = execCollectiveDeadline p n s := rfl
  have due : (!t.live || !(k.kind == 6 || k.onStep) || t.met.contains k.idx || (k.kind == 6 && stepComplete (s.part p) k.aux k.step)
      || decide (taskPhase s t ≤ k.latest + 131072)) = false := by
    rw [live, unmet]
    rcases step with ⟨kind, unfinished⟩ | ⟨kind, waits⟩
    · simp [late, kind, unfinished]
    · simp [late, kind, waits]
  rw [run, execCollectiveDeadline]
  simp only [task, ckpt, due]
  rfl

end

theorem suspectStarved_data {k : Ckpt} (data : k.kind ≠ 6) (p : PartId) (s0 s : State) : suspectStarved p k s0 s = s :=
  if_pos (by simpa using data)

theorem suspectStarved_noGroup {p : PartId} {k : Ckpt} {s0 : State} (gone : groupOfGid (s0.part p) k.aux = none) (s : State) :
    suspectStarved p k s0 s = s := by
  simp [suspectStarved, gone]

/-- Where each of the step's ports has landed, or has no device that could have fed it, no device is a suspect. -/
theorem suspectStarved_none {p : PartId} {k : Ckpt} {g : Group} {s0 : State} (group : groupOfGid (s0.part p) k.aux = some g)
    (fed : ∀ i ∈ stepPorts (s0.part p) g k.step, stepLanded g k.step i = true ∨ starvedBy s0 g i.1 = none) (s : State) : suspectStarved p k s0 s = s := by
  rw [suspectStarved, group]
  split
  · rfl
  · refine forAll_id _ _ _ (fun i hi => ?_)
    obtain ⟨port, missing⟩ := List.mem_filter.1 hi
    rw [(fed i port).resolve_left (by simpa using missing)]

theorem exec_abortWindowClose {p : PartId} {t : Task} {w : AbortWin} {s : State} (task : (s.part p).task = some t) (window : t.window = some w) :
    let code := (topCause w.causes).code
    exec (.abortWindowClose p) s = .next (trace 4 p.1 [6, t.num, code.toNat] (releaseDue p (failRequests p t code w.causes w.uncounted
      (updPart p (fun x => { x with task := none, lastAbort := w.causes }) (countAbort p code (abortRecord p t code w s)))))) := by
  have run : exec (.abortWindowClose p) s = .next (closeWindow p s) := rfl
  rw [run, closeWindow, task]
  simp only [window]

/-- Settles O26: each command by its own equation; a deadline's abort by who is a suspect besides. -/
theorem lateWork : Obligations.LateWork := by
  unfold Obligations.LateWork
  intro p n t s task
  refine ⟨fun k ckpt live unmet => ?_, fun w window => exec_abortWindowClose task window⟩
  have due := exec_collectiveDeadline_due task ckpt live unmet
  refine ⟨exec_lateData_late task ckpt live unmet, fun data waits late => ?waiting,
    fun kind unfinished gone late => ?noGroup, fun g kind unfinished group late fed => ?group⟩
  case waiting => rw [due (.inr ⟨data, waits⟩) late, suspectStarved_data data]
  case noGroup => rw [due (.inl ⟨kind, unfinished⟩) late, suspectStarved_noGroup gone]
  case group => rw [due (.inl ⟨kind, unfinished⟩) late, suspectStarved_none group fed]

end Sys2Proof.Machine
end

section
/-! PROOF. O12, ld.d and st.d on the descriptor store (R6, R241, R244). -/

namespace Sys2Proof.Machine

/-! ### Fields of a byte store (R6) -/

theorem rdBytes_eq_map (m : SMap Byte) (a n : Nat) : rdBytes m a n = (List.range n).map (fun k => rd8 m (a + k)) := by
  induction n generalizing a with
  | zero => rfl
  | succ n ih => simp [rdBytes, ih, List.range_succ_eq_map, Function.comp_def, Nat.add_assoc, Nat.add_comm 1]

/-- A byte after a field write: the field's bytes are those of its value, least significant first, and every other byte is as before. -/
theorem rd8_wrLE (m : SMap Byte) (a n v b : Nat) (h : Memory.wf m) :
    rd8 (wrLE m a n v) b = if a ≤ b ∧ b < a + n then BitVec.ofNat 8 (v / 256 ^ (b - a)) else rd8 m b := by
  induction n generalizing m a v with
  | zero => rw [if_neg (by omega)]; rfl
  | succ n ih =>
    have first : wrLE m a (n + 1) v = wrLE (wr8 m a (BitVec.ofNat 8 v)) (a + 1) n (v / 256) := rfl
    rw [first, ih _ _ _ (wr8_wf _ _ _ h), rd8_wr8 _ _ _ _ h]
    rcases Nat.lt_trichotomy b a with below | at_ | above
    · rw [if_neg (by omega), if_neg (by omega), if_neg (by omega)]
    · subst at_
      rw [if_neg (by omega), if_pos rfl, if_pos (by omega), Nat.sub_self, Nat.pow_zero, Nat.div_one]
    · have next : b - a = b - (a + 1) + 1 := by omega
      have shift : v / 256 / 256 ^ (b - (a + 1)) = v / 256 ^ (b - a) := by rw [Nat.div_div_eq_div_mul, next, Nat.pow_succ']
      rw [shift, if_neg (Nat.ne_of_gt above)]
      exact if_congr (by omega) rfl rfl

/-- Byte k of a word, counted from the least significant one. -/
theorem ofNat_div_eq_extractLsb' (v : W64) (k : Nat) : BitVec.ofNat 8 (v.toNat / 256 ^ k) = v.extractLsb' (8 * k) 8 := by
  rw [BitVec.extractLsb', Nat.shiftRight_eq_div_pow, Nat.pow_mul]

/-! ### The parcels (R244) -/

section
variable {c : CoreId} {s : State} {ra : SReg} {imm : BitVec 13} (takes : TakesParcel c s) (ok : dsOffOk (dsOff (s.core c) ra imm) = true)
include takes ok

theorem exec_ldD (rd : SReg) :
    SetsReg (.ldD c rd ra imm) c rd (BitVec.ofNat 64 (rdLE (s.core c).dstore (dsOff (s.core c) ra imm) 8)) s := by
  have run : exec (.ldD c rd ra imm) s = execLdD c rd ra imm s := rfl
  rw [SetsReg, run, execLdD]
  simp only [takes.1, ok, Bool.not_true, Bool.false_eq_true, ↓reduceIte]
  rw [parcel_setS takes rd _ _ rfl]

theorem exec_stD (rs : SReg) :
    exec (.stD c rs ra imm) s = .next (updCore c (fun x =>
      { x with pc := x.pc + 4, dstore := wrLE x.dstore (dsOff x ra imm) 8 (x.getS rs).toNat }) s) := by
  have run : exec (.stD c rs ra imm) s = execStD c rs ra imm s := rfl
  rw [run, execStD, parcel_eq takes _ (by simp [ok])]
  exact congrArg _ (updCore_congr (by simp [ok]))

end

/-- Settles O12: the parcels by their own equations, the store by the byte that a field write leaves at each address. -/
theorem descriptorStore : Obligations.DescriptorStore := by
  unfold Obligations.DescriptorStore
  intro c s rd ra rs imm takes o aligned inside
  have ok : dsOffOk (dsOff (s.core c) ra imm) = true := decide_eq_true ⟨aligned, inside⟩
  refine ⟨?load, _, exec_stD takes ok rs, onlyCore_updCore .., ?core, fun wf a => ?byte⟩
  case load => rw [← rdBytes_eq_map]; exact exec_ldD takes ok rd
  case core => rw [updCore_core_self]
  case byte =>
    rw [updCore_core_self, ← ofNat_div_eq_extractLsb']
    exact rd8_wrLE _ _ 8 _ a wf

end Sys2Proof.Machine
end

section
/-! PROOF. O7, the register file (R241). -/

namespace Sys2Proof.Machine

section
variable (x : Core) (v : W64) (b : Bool)

@[simp] theorem getS_zero : x.getS 0 = 0 := rfl
@[simp] theorem getP_zero : x.getP 0 = true := rfl
@[simp] theorem setS_zero : x.setS 0 v = x := rfl
@[simp] theorem setP_zero : x.setP 0 b = x := rfl

theorem getS_setS {r : SReg} (writable : r ≠ 0) (q : SReg) : (x.setS r v).getS q = if q = r then v else x.getS q := by
  by_cases same : q = r
  · subst same; simp [Core.getS, Core.setS, writable]
  · have other : r.1 ≠ q.1 := fun e => same (Fin.ext e.symm)
    simp [Core.getS, Core.setS, writable, same, Vector.getElem_set_ne _ _ other]

theorem getP_setP {r : PReg} (writable : r ≠ 0) (q : PReg) : (x.setP r b).getP q = if q = r then b else x.getP q := by
  by_cases same : q = r
  · subst same; simp [Core.getP, Core.setP, writable]
  · have other : r.1 ≠ q.1 := fun e => same (Fin.ext e.symm)
    simp [Core.getP, Core.setP, writable, same, Vector.getElem_set_ne _ _ other]

theorem getH_setH (r q : HReg) : (x.setH r v).getH q = if q = r then v else x.getH q := by
  by_cases same : q = r
  · subst same; simp [Core.getH, Core.setH]
  · have other : r.1 ≠ q.1 := fun e => same (Fin.ext e.symm)
    simp [Core.getH, Core.setH, same, Vector.getElem_set_ne _ _ other]

end

/-- Settles O7: s0 and p0 by their definitions, each register file by what a read gives after a write. -/
theorem registerFile : Obligations.RegisterFile := by
  unfold Obligations.RegisterFile
  exact ⟨fun x v b => ⟨getS_zero x, getP_zero x, setS_zero x v, setP_zero x b⟩, fun x _ q v writable => getS_setS x v writable q,
    fun x _ q b writable => getP_setP x b writable q, fun x r q v => getH_setH x v r q⟩

end Sys2Proof.Machine
end

section
/-! PROOF. O8, arithmetic, compare and move parcels (R244). -/

namespace Sys2Proof.Machine

@[simp] theorem setH_hold (x : Core) (r : HReg) (v : W64) : (x.setH r v).hold = x.hold := rfl

theorem lui_value (i : BitVec 19) : (i.setWidth 64 : W64) <<< (13 : Nat) = BitVec.ofNat 64 (i.toNat * 8192) := by
  apply BitVec.eq_of_toNat_eq
  simp [Nat.shiftLeft_eq]

section
variable {c : CoreId} {s : State} (takes : TakesParcel c s)
include takes

/-- A two-source or immediate parcel that runs gives its result to s[rd] (R244). -/
theorem setsReg_of_parcel {i : Instr} {g : Core → W64} {rd : SReg} {v : W64} (run : exec i s = .next (parcel c (fun x => x.setS rd (g x)) s))
    (value : g (s.core c) = v) : SetsReg i c rd v s := by
  rw [SetsReg, run, parcel_setS takes rd g v value]

/-- A compare parcel that runs gives its result to p[pd] (R244). -/
theorem setsPred_of_parcel {i : Instr} {g : Core → Bool} {pd : PReg} {b : Bool} (run : exec i s = .next (parcel c (fun x => x.setP pd (g x)) s))
    (value : g (s.core c) = b) : SetsPred i c pd b s := by
  rw [SetsPred, run, parcel_setP takes pd g b value]

theorem exec_movSH (h : HReg) (ra : SReg) :
    exec (.movSH c h ra) s = .next (updCore c (fun x => { x.setH h ((s.core c).getS ra) with pc := x.pc + 4 }) s) := by
  have run : exec (.movSH c h ra) s = .next (parcel c (fun x => x.setH h (x.getS ra)) s) := rfl
  rw [run, parcel_eq takes _ (setH_hold ..)]
  exact congrArg _ (updCore_congr rfl)

theorem exec_nop : JumpsTo (.nop c) c ((s.core c).pc + 4) s := by
  have run : exec (.nop c) s = .next (parcel c id s) := rfl
  rw [JumpsTo, run, parcel_eq takes id rfl]
  exact congrArg _ (updCore_congr rfl)

end

theorem ite_slt (a b : W64) {α : Type} (x y : α) : (if a.slt b then x else y) = if a.toInt < b.toInt then x else y :=
  if_congr BitVec.slt_iff_toInt_lt rfl rfl

/-- Settles O8: each parcel's result from its own definition; min and max compare as signed numbers. -/
theorem arithmeticParcels : Obligations.ArithmeticParcels := by
  unfold Obligations.ArithmeticParcels
  intro c s rd ra rb pd h i13 i19 takes a b
  have reg {i : Instr} {g : Core → W64} {v : W64} := setsReg_of_parcel takes (i := i) (g := g) (rd := rd) (v := v)
  have pred {i : Instr} {g : Core → Bool} {v : Bool} := setsPred_of_parcel takes (i := i) (g := g) (pd := pd) (b := v)
  exact ⟨reg rfl rfl, reg rfl rfl, reg rfl rfl, reg rfl rfl, reg rfl rfl, reg rfl rfl, reg rfl (ite_slt ..), reg rfl (ite_slt ..), reg rfl rfl,
    reg rfl rfl, reg rfl (lui_value i19), reg rfl rfl, exec_movSH takes h ra, exec_nop takes, pred rfl rfl, pred rfl rfl, pred rfl rfl, pred rfl rfl⟩

end Sys2Proof.Machine
end

section
/-! PROOF. O9, shift parcels (R244). -/

namespace Sys2Proof.Machine

theorem shl_value (a : W64) (n : Nat) : a <<< n = BitVec.ofNat 64 (a.toNat * 2 ^ n) := by
  apply BitVec.eq_of_toNat_eq
  simp [Nat.shiftLeft_eq]

theorem shr_value (a : W64) (n : Nat) : a >>> n = BitVec.ofNat 64 (a.toNat / 2 ^ n) := by
  apply BitVec.eq_of_toNat_eq
  rw [BitVec.toNat_ushiftRight, BitVec.toNat_ofNat, Nat.shiftRight_eq_div_pow]
  exact (Nat.mod_eq_of_lt (Nat.lt_of_le_of_lt (Nat.div_le_self ..) a.isLt)).symm

theorem sra_value (a : W64) (n : Nat) : a.sshiftRight n = BitVec.ofInt 64 (a.toInt / 2 ^ n) := by
  rw [BitVec.sshiftRight, Int.shiftRight_eq_div_pow]
  norm_cast

section
variable {c : CoreId} {s : State} (takes : TakesParcel c s) {i : Instr} {rd ra : SReg} {n : Nat} {f : W64 → Nat → W64}
  (run : exec i s = .next (shiftBy c rd ra n f s))
include takes run

theorem setsReg_of_shift {v : W64} (short : n < 64) (value : f ((s.core c).getS ra) n = v) : SetsReg i c rd v s := by
  rw [SetsReg, run, shift_lt takes rd ra n f v short value]

theorem setsFree_of_shift (long : 64 ≤ n) : SetsFree i c rd s := by
  rw [SetsFree, run, shift_ge takes rd ra n f long]

end

/-- Settles O9: a shift by less than 64 has its operation's value, any other takes a free one. -/
theorem shiftParcels : Obligations.ShiftParcels := by
  unfold Obligations.ShiftParcels
  intro c s rd ra rb imm takes a n
  have free {i : Instr} {m : Nat} {f : W64 → Nat → W64} := setsFree_of_shift takes (i := i) (rd := rd) (ra := ra) (n := m) (f := f)
  exact ⟨fun short => ⟨setsReg_of_shift takes rfl short (shl_value ..), setsReg_of_shift takes rfl short (shr_value ..),
      setsReg_of_shift takes rfl short (sra_value ..)⟩,
    fun long => ⟨free rfl long, free rfl long, free rfl long⟩, fun short => setsReg_of_shift takes rfl short (shl_value ..), fun long => free rfl long⟩

end Sys2Proof.Machine
end

section
/-! PROOF. O10, branches, call and ret (R243, R244). -/

namespace Sys2Proof.Machine

theorem imm17_lt_pcEnd (target : BitVec 17) : target.toNat < pcEnd := target.isLt

/-- A write to a scalar register leaves the lines of the program store. -/
theorem targetOk_setS (x : Core) (r : SReg) (v : W64) (a : Nat) : targetOk (x.setS r v) a = targetOk x a := by
  unfold Core.setS; split <;> rfl

/-- A branch to a legal target inside the program store moves the PC there (R243). -/
theorem branchTo_eq {c : CoreId} {a : Nat} {s : State} (free : (s.core c).hold = .none) (ok : targetOk (s.core c) a = true) (inside : a < pcEnd) :
    branchTo c a s = updCore c (fun x => { x with pc := a }) s := by
  rw [branchTo, if_neg (Nat.not_le.2 inside), if_pos ok, setPc_eq free inside]

section
variable {c : CoreId} {s : State} (takes : TakesParcel c s)
include takes

/-- A branch parcel goes to its target where its condition holds, and to the next parcel where it does not (R244). -/
theorem jumpsTo_of_branch {i : Instr} {t : Core → Bool} {a : Nat} (run : exec i s = .next (branch c t a s)) (ok : targetOk (s.core c) a = true)
    (inside : a < pcEnd) : JumpsTo i c (if t (s.core c) then a else (s.core c).pc + 4) s := by
  rw [JumpsTo, run, branch, if_neg (by simp [takes.1])]
  cases t (s.core c)
  case true => exact congrArg _ (branchTo_eq (hold_none takes.1) ok inside)
  case false => exact congrArg _ (setPc_eq (hold_none takes.1) takes.2)

theorem exec_bnp (pa : PReg) {target : BitVec 17} (ok : targetOk (s.core c) target.toNat = true) :
    JumpsTo (.bnp c pa target) c (if (s.core c).getP pa then (s.core c).pc + 4 else target.toNat) s := by
  have jumps := jumpsTo_of_branch takes (i := .bnp c pa target) (t := fun x => !x.getP pa) rfl ok (imm17_lt_pcEnd target)
  cases held : (s.core c).getP pa <;> simpa [held] using jumps

theorem exec_call {target : BitVec 17} (ok : targetOk (s.core c) target.toNat = true) :
    exec (.call c target) s = .next (updCore c (fun x => { x.setS 63 (BitVec.ofNat 64 (x.pc + 4)) with pc := target.toNat }) s) := by
  have run : exec (.call c target) s = execCall c target s := rfl
  rw [run, execCall, if_pos takes.1, branchTo_eq (by simp [hold_none takes.1]) (by rw [updCore_core_self, targetOk_setS, ok]) (imm17_lt_pcEnd target),
    updCore_updCore]

end

/-- Settles O10: a branch parcel by its condition, call by the branch of a core that has saved its PC. -/
theorem branchParcels : Obligations.BranchParcels := by
  unfold Obligations.BranchParcels
  intro c s pa target takes x
  have inside := imm17_lt_pcEnd target
  exact ⟨fun ok => ⟨jumpsTo_of_branch takes (t := fun _ => true) rfl ok inside, jumpsTo_of_branch takes (t := fun x => x.getP pa) rfl ok inside,
      exec_bnp takes pa ok, exec_call takes ok⟩,
    fun ok inside => jumpsTo_of_branch takes (t := fun _ => true) rfl ok inside⟩

end Sys2Proof.Machine
end

section
/-! PROOF. O11, illegal instructions of the sequencer: where a branch or the PC is one, and what it records (R243, R249, R260, R446). -/

namespace Sys2Proof.Machine

/-- On a core that no partition holds, an illegal instruction writes the fault record and queues its log record, and aborts no task (R260). -/
theorem illegal_of_noPart {c : CoreId} {s : State} (alone : partOfCore s c.1 = none) (room : LogRoom s) (reason pc : Nat) :
    illegal c reason pc s = logged
      (recordNow s 4 1 1 c.1 0xFFFF ([reason, 1, c.1, pc] ++ (List.range 16).map (fun k => (progByte (s.core c) (pc / 16 * 16 + k)).toNat)))
      (updCore c (fun x => { x with faultRec := some { reason, pc, task := 0 } }) s) := by
  have noTask : taskNumOf s c = 0 := by rw [taskNumOf, alone]
  have noAbort (k : Cause) (r : LogRec) (f : Core → Core) : abortOf c k (logged r (updCore c f s)) = logged r (updCore c f s) := by
    have part : partOfCore (logged r (updCore c f s)) c.1 = none := alone
    rw [abortOf, part]
  have room' (f : Core → Core) : LogRoom (updCore c f s) := room
  rw [illegal, illegalOf, noTask]
  rw [logR_room (room' _), noAbort, partOfCore_updCore, alone, List.map_map]
  rfl

section
variable {c : CoreId} {s : State} (steps : (s.core c).steps = true)
include steps

/-- A branch to an address that is neither a parcel nor the start of a tile line (R243). -/
theorem exec_b_illegal {target : BitVec 17} (bad : targetOk (s.core c) target.toNat = false) :
    exec (.b c target) s = .next (illegal c 0x01 (s.core c).pc s) := by
  have run : exec (.b c target) s = .next (branch c (fun _ => true) target.toNat s) := rfl
  rw [run, branch, if_neg (by simp [steps]), if_pos rfl, branchTo, if_neg (Nat.not_le.2 (imm17_lt_pcEnd target)), if_neg (by simp [bad])]

/-- A NOP in the last parcel of the program store (R249). -/
theorem exec_nop_illegal (last : (s.core c).pc + 4 = pcEnd) :
    exec (.nop c) s = .next (illegal c 0x0C pcEnd (updCore c (fun x => { x with pc := pcEnd }) s)) := by
  have run : exec (.nop c) s = .next (parcel c id s) := rfl
  rw [run, parcel, if_pos steps, updCore_id (f := id) rfl, last, setPc, if_pos (Nat.le_refl _)]
  exact congrArg (fun t => Host.Outcome.next (illegal c 0x0C pcEnd t)) (updCore_congr (by rw [← hold_none steps]))

end

/-- Settles O11: the two illegal parcels, and what an illegal instruction leaves on a core that no partition holds. -/
theorem illegalInstructions : Obligations.IllegalInstructions := by
  unfold Obligations.IllegalInstructions
  exact fun c target reason pc s => ⟨fun steps => ⟨exec_b_illegal steps, exec_nop_illegal steps⟩, fun alone room => illegal_of_noPart alone room reason pc⟩

end Sys2Proof.Machine
end

section
/-! PROOF. O13, csrr, twait and end (R244, R249, R259). -/

namespace Sys2Proof.Machine

/-! ### Status registers (R259) -/

/-- Reading a status register clears a sticky status at most: what the sequencer holds at stays. -/
theorem csr_hold (s : State) (c : CoreId) (n : Nat) (x : Core) : ((csr s c n).2 x).hold = x.hold := by
  unfold csr; dsimp only; split <;> rfl

/-- CYCLE: the clocks up to the present phase unit, and within it a free value (log 13). -/
theorem cycles_of_task {s : State} {c : CoreId} {p : PartId} {k : Task} (part : partOfCore s c.1 = some p) (task : (s.part p).task = some k) :
    let tile : Fin 4 := Fin.ofNat 4 (c.1 / 32)
    let mhz := 1200 + 100 * s.pwr.run[tile]
    let units := (s.pwr.cyc[tile] - k.cyc0.getD tile.1 0) * 65536 + mhz * s.tick.phase
    cycles s c = units * s.tick.period / 65536000 + (Config.free s.freeCtr).toNat % (mhz * s.tick.period / 65536000 + 2) := by
  simp only [cycles, part, Option.bind_some, task, Option.map_some, Option.getD_some]
  rfl

section
variable {c : CoreId} {s : State} {idx : BitVec 13} (takes : TakesParcel c s)
include takes

theorem exec_csrr_cycle (rd : SReg) :
    exec (.csrr c rd 0) s = .next { updCore c (fun x => { x.setS rd (BitVec.ofNat 64 (cycles s c)) with pc := x.pc + 4 }) s with
      freeCtr := s.freeCtr + 1 } := by
  have run : exec (.csrr c rd 0) s = execCsrr c rd 0 s := rfl
  have later : TakesParcel c { s with freeCtr := s.freeCtr + 1 } := takes
  rw [run, execCsrr, if_neg (by simp [takes.1]), if_pos rfl, parcel_setS later rd (fun _ => BitVec.ofNat 64 (cycles s c)) _ rfl]
  rfl

theorem exec_csrr_free (rd : SReg) {f : Core → Core} (other : idx ≠ 0) (unstated : csr s c idx.toNat = (none, f)) : SetsFree (.csrr c rd idx) c rd s := by
  have run : exec (.csrr c rd idx) s = execCsrr c rd idx s := rfl
  rw [SetsFree, run, execCsrr, if_neg (by simp [takes.1]), if_neg other, unstated, ← parcel_free takes]

/-- A register with a value is not CYCLE: its value goes to s[rd], and its sticky status is cleared. -/
theorem exec_csrr_value (rd : SReg) {v : Nat} {f : Core → Core} (value : csr s c idx.toNat = (some v, f)) :
    exec (.csrr c rd idx) s = .next (updCore c (fun x => { (f x).setS rd (BitVec.ofNat 64 v) with pc := x.pc + 4 }) s) := by
  have run : exec (.csrr c rd idx) s = execCsrr c rd idx s := rfl
  have other : idx ≠ 0 := fun zero => by subst zero; cases value
  have read (x : Core) : f x = (csr s c idx.toNat).2 x := by rw [value]
  rw [run, execCsrr, if_neg (by simp [takes.1]), if_neg other, value]
  exact congrArg _ (parcel_eq takes _ (by rw [setS_hold, read, csr_hold]))

end

/-! ### Waits (R244, R249) -/

section
variable {c : CoreId} {s : State} (steps : (s.core c).steps = true)
include steps

theorem exec_twait (mask : BitVec 5) :
    exec (.twait c mask) s = .next (if maskIdle (s.core c) mask then setPc c ((s.core c).pc + 4) s
      else updCore c (fun x => { x with hold := .twait }) s) := by
  have run : exec (.twait c mask) s = execTwait c mask s := rfl
  obtain ⟨runs, free⟩ := Bool.and_eq_true_iff.1 steps
  rw [run, execTwait, runs, free]
  rfl

theorem exec_end : exec (.end_ c) s = .next (if endReady (s.core c) then updCore c (fun x => { x with running := false, ended := true, hold := .none }) s
    else updCore c (fun x => { x with hold := .ending }) s) := by
  have run : exec (.end_ c) s = execEnd c s := rfl
  obtain ⟨runs, free⟩ := Bool.and_eq_true_iff.1 steps
  rw [run, execEnd, runs, free]
  rfl

end

/-- Settles O13: csrr by the register that it names, twait and end by whether what they wait for is over. -/
theorem statusAndWaits : Obligations.StatusAndWaits := by
  unfold Obligations.StatusAndWaits
  refine fun c s rd idx mask => ⟨fun takes => ⟨fun v f => exec_csrr_value takes rd, fun p k part task => ?cycle, fun _ => exec_csrr_free takes rd,
      rfl, rfl, fun idle => ?goesOn⟩,
    fun steps => ⟨fun busy => ?waits, fun ready => ?ends, fun busy => ?ending⟩⟩
  case cycle =>
    refine ⟨_, exec_csrr_cycle takes rd, ?_⟩
    rw [cycles_of_task part task]
    exact ⟨Nat.le_add_right .., Nat.add_lt_add_left (Nat.mod_lt _ (Nat.succ_pos _)) _⟩
  case goesOn => rw [JumpsTo, exec_twait takes.1, if_pos idle, setPc_eq (hold_none takes.1) takes.2]
  case waits => rw [exec_twait steps, if_neg (by simp [busy])]
  case ends => rw [exec_end steps, if_pos ready]
  case ending => rw [exec_end steps, if_neg (by simp [busy])]

end Sys2Proof.Machine
end

section
/-! PROOF. O14, the one stop: a tile line that the static checks refuse (R260). -/

namespace Sys2Proof.Machine

/-- Every command answers a next state, but for a tile line that the loader's static checks refuse (R260; log 11, log 56). -/
theorem exec_eq_staticCheck (i : Instr) (s : State) : ∃ mnemonic t, exec i s = staticCheck i.wellFormed mnemonic t := by
  cases i
  case mm | cx | recipe | scan | perm | norm | reduce | smerge | park | restore | rload | tload | arm | fill => exact ⟨_, _, rfl⟩
  all_goals exact ⟨"", _, rfl⟩

/-- Settles O14: the static check alone stops a command, and one that completes keeps the queue, the modes and the stores. -/
theorem illFormedLinesStop : Obligations.IllFormedLinesStop := by
  unfold Obligations.IllFormedLinesStop
  intro i s
  obtain ⟨mnemonic, t, run⟩ := exec_eq_staticCheck i s
  cases legal : i.wellFormed
  case false =>
    rw [legal] at run
    exact ⟨⟨fun _ => ⟨mnemonic, run⟩, fun _ => rfl⟩, nofun⟩
  case true =>
    rw [legal] at run
    have keeps := exec_keeps run
    refine ⟨⟨nofun, fun ⟨n, stop⟩ => ?_⟩, fun _ => ⟨t, run, keeps.pending, keeps.modes, keeps.stores⟩⟩
    rw [run] at stop
    cases stop

end Sys2Proof.Machine
end

section
/-! PROOF. O15, a tile instruction whose predicate does not hold (R246). -/

namespace Sys2Proof.Machine

/-- A line whose predicate does not hold meets its checkpoint and is passed over (R246). -/
theorem issue_predicatedOff {c : CoreId} {h : TileHdr} {s : State} (tries : (s.core c).tries = true) (off : predHolds (s.core c) h = false)
    (full : Core → Bool) (go : State → State) : issue c h full go s = nextLine c (meetCkptOf c h.ckpt.toNat s) := by
  simp [issue, tries, off]

/-- Every tile instruction goes through `issue`, once the static checks pass it (R246, R260). -/
theorem exec_eq_issue {i : Instr} {c : CoreId} {h : TileHdr} (line : tileHeader i = some (c, h)) (s : State) :
    ∃ mnemonic full go, exec i s = staticCheck i.wellFormed mnemonic (issue c h full go s) := by
  cases i
  case mm | cx | recipe | scan | perm | norm | reduce | smerge | park | restore | rload | tload | arm | fill =>
    cases line; exact ⟨_, _, _, rfl⟩
  case put | take | return_ | free | bl => cases line; exact ⟨"", _, _, rfl⟩
  all_goals cases line

/-- Settles O15: a legal line is its `issue`, which a false predicate ends at once. -/
theorem predicatedOff : Obligations.PredicatedOff := by
  unfold Obligations.PredicatedOff
  intro i c h s legal line tries off
  obtain ⟨mnemonic, full, go, run⟩ := exec_eq_issue line s
  rw [run, legal, issue_predicatedOff tries off]
  rfl

end Sys2Proof.Machine
end

section
/-! PROOF. O17, the issue of a VX (R178, R246, R247, R254): its entry, the sweep that it moves, and the VE queue. -/

namespace Sys2Proof.Machine

/-! ### The sweep that a PARK or a RESTORE moves (R178, R179) -/

/-- A PARK or RESTORE changes its engine's sweep and the parked sweeps alone. -/
theorem moveSweep_frame (e : VXEntry) (x : Core) : moveSweep e x = { x with eng := (moveSweep e x).eng, parked := (moveSweep e x).parked } := by
  unfold moveSweep
  split
  · dsimp only; split <;> rfl
  · dsimp only; split <;> rfl
  · rfl

/-- It does not look at the count of issued instructions. -/
theorem moveSweep_issued (e : VXEntry) (x : Core) (n : Nat) : moveSweep e { x with issued := n } = { moveSweep e x with issued := n } := by
  unfold moveSweep
  cases e.op
  case park => dsimp only; split <;> rfl
  case restore => dsimp only; split <;> rfl
  all_goals rfl

/-! ### The entry and the queue (R247, R254) -/

/-- The entry that a VX becomes at issue. -/
def vxIssued (op : VOp) (h : TileHdr) (b : VXBody) (x : Core) : VXEntry :=
  { vxEntry op x h b x.issued with empty := parksEmpty (vxEntry op x h b x.issued) x }

/-- The core with a VX that has just entered its queue, and the PC on the next line. -/
def vxQueued (e : VXEntry) (x : Core) : Core :=
  { moveSweep e x with pc := x.pc + 16, hold := .none, issued := x.issued + 1, ve := { x.ve with queue := x.ve.queue ++ [e] } }

section
variable {c : CoreId} {h : TileHdr} {s : State} (takes : TakesLine c h s)
include takes

theorem moveSweep_next (e : VXEntry) : ((updCore c (moveSweep e) (takeId c s).2).core c).pc + 16 < pcEnd := by
  obtain ⟨_, _, _, _, next⟩ := takes
  rw [updCore_core_self, moveSweep_frame, takeId_core]
  exact next

/-- The issue of a VX takes an identity, moves the sweep, queues the entry and goes on to the next line (R247, R249). -/
theorem nextLine_vxEntry (e : VXEntry) :
    nextLine c (updCore c (fun x => { x with ve := { x.ve with queue := x.ve.queue ++ [e] } }) (updCore c (moveSweep e) (takeId c s).2))
      = updCore c (vxQueued e) s := by
  have moved (x : Core) : moveSweep e { x with issued := x.issued + 1 }
      = { x with issued := x.issued + 1, eng := (moveSweep e x).eng, parked := (moveSweep e x).parked } := by
    rw [moveSweep_issued, moveSweep_frame]
  have next := moveSweep_next takes e
  rw [nextLine_eq (by rw [updCore_core_self]; exact next), takeId, updCore_updCore, updCore_updCore, updCore_updCore]
  refine updCore_congr ?_
  rw [moved, vxQueued, moveSweep_frame]

omit takes in
/-- The entry's place in the queue and the next line do not depend on what an engine holds. -/
theorem nextLine_updEngine {t : State} (next : (t.core c).pc + 16 < pcEnd) (e : VXEntry) (k : Fin 4) (f : Engine → Engine) :
    nextLine c (updCore c (fun x => { x with ve := { x.ve with queue := x.ve.queue ++ [e] } }) (updEngine c k f t))
      = updEngine c k f (nextLine c (updCore c (fun x => { x with ve := { x.ve with queue := x.ve.queue ++ [e] } }) t)) := by
  rw [nextLine_eq (by rw [updEngine, updCore_updCore, updCore_core_self]; exact next), nextLine_eq (by rw [updCore_core_self]; exact next)]
  simp only [updEngine, updCore_updCore]

variable {b : VXBody} (room : (s.core c).ve.queue.length < 8)
include room

/-- A VX without BIND, whose stream descriptor lies in the descriptor store, enters the VE queue (R254). -/
theorem vxIssue_alone (op : VOp) (alone : b.bind = false) (fits : ((s.core c).getS b.sd).toNat + 48 ≤ 0x20000) :
    vxIssue op c h b s = vePump c 8 (updCore c (vxQueued (vxIssued op h b (s.core c))) s) := by
  have notFull : decide (8 ≤ (s.core c).ve.queue.length) = false := by simpa using room
  rw [vxIssue, issue_eq takes _ notFull, ← nextLine_vxEntry takes]
  simp only [alone, Bool.false_and, Bool.not_false, Bool.true_and, Bool.false_eq_true, ↓reduceIte, decide_eq_true_eq, Nat.not_lt.2 fits]
  rfl

/-- A RECIPE with BIND enters the VE queue with its engine's waiting MM or CX, which waits no longer (R254). -/
theorem vxIssue_bound (bind : b.bind = true) (live : ((s.core c).eng[b.beng]).skipVX = false) (waits : ((s.core c).eng[b.beng]).toBind.isSome = true) :
    vxIssue .recipe c h b s
      = vePump c 8 (updEngine c b.beng (fun g => { g with toBind := none }) (updCore c (vxQueued (vxIssued .recipe h b (s.core c))) s)) := by
  have notFull : decide (8 ≤ (s.core c).ve.queue.length) = false := by simpa using room
  have stays : (b.bind && ((s.core c).eng[b.beng.1]'b.beng.2).skipVX) = false := by rw [bind]; exact live
  have binds : (b.bind && (((s.core c).eng[b.beng.1]'b.beng.2).toBind.isNone || VOp.recipe != .recipe)) = false := by
    simpa [bind] using waits
  rw [vxIssue, issue_eq takes _ notFull, ← nextLine_vxEntry takes, ← nextLine_updEngine (moveSweep_next takes _)]
  dsimp only
  rw [stays, binds, bind]
  rfl

end

/-- Settles O17: each legal line is its `vxIssue`, which queues the entry `vxIssued`. -/
theorem vectorIssue : Obligations.VectorIssue := by
  unfold Obligations.VectorIssue
  intro c h b s takes room x e queued
  have line {i : Instr} {mnemonic : String} {t u : State} (run : exec i s = staticCheck i.wellFormed mnemonic t) (eq : t = u)
      (legal : i.wellFormed = true) : exec i s = .next u := by
    rw [run, legal, eq]; rfl
  refine ⟨fun alone fits => ?_, fun bind live waits => line rfl (vxIssue_bound takes room bind live waits)⟩
  have enters (op : VOp) : vxIssue op c h b s = vePump c 8 (queued op) := vxIssue_alone takes room op alone fits
  exact ⟨line rfl (enters _), line rfl (enters _), line rfl (enters _), line rfl (enters _), line rfl (enters _), line rfl (enters _),
    line rfl (enters _), line rfl (enters _), line rfl (enters _), line rfl (enters _)⟩

end Sys2Proof.Machine
end

section
/-! PROOF. O18, a VX behind a fill point that has not run (R247, R254). -/

namespace Sys2Proof.Machine

/-- The engine starts nothing while the VX whose turn it is must wait, and charges nothing for it (R114, R247). -/
theorem vePump_waits {c : CoreId} {s : State} {e : VXEntry} (turn : nextVX (s.core c).ve.queue = some e) (waits : vxReady s c e = false) (n : Nat) :
    vePump c n s = s := by
  cases n with
  | zero => rfl
  | succ n =>
    have held : launch c e s = none := by rw [launch, waits]; rfl
    rw [vePump, turn]
    simp only [held]
    rw [vePump.holdCharge, waits]
    rfl

/-- A fill point that has not run bars every later instruction from the working store (R247). -/
theorem fenced_of_mem {x : Core} {id : Nat} (point : ∃ f ∈ x.scq, f.arm = none ∧ f.ran = false ∧ f.id < id) : fenced x id = true := by
  obtain ⟨f, queued, fill, waits, before⟩ := point
  exact List.any_eq_true.2 ⟨f, queued, by simp [fill, waits, before]⟩

theorem vxReady_fenced {s : State} {c : CoreId} {e : VXEntry} (fence : fenced (s.core c) e.id = true) : vxReady s c e = false := by
  simp [vxReady, fence]

/-- Settles O18: the VX is alone in the VE queue, its turn has come, and the fill point bars it. -/
theorem fencedVectorWaits : Obligations.FencedVectorWaits := by
  unfold Obligations.FencedVectorWaits
  intro c h b s takes empty alone fits legal point
  let e := vxIssued .recipe h b (s.core c)
  have run : exec (.recipe c h b) s = staticCheck (Instr.recipe c h b).wellFormed "RECIPE" (vxIssue .recipe c h b s) := rfl
  have queue : ((updCore c (vxQueued e) s).core c).ve.queue = [e] := by rw [updCore_core_self, vxQueued, empty]; rfl
  have fence : fenced ((updCore c (vxQueued e) s).core c) e.id = true := by rw [updCore_core_self]; exact fenced_of_mem point
  have still : vePump c 8 (updCore c (vxQueued e) s) = updCore c (vxQueued e) s :=
    vePump_waits (by rw [queue]; rfl) (vxReady_fenced fence) 8
  refine ⟨updCore c (vxQueued e) s, ?_, onlyCore_updCore .., queue, ?_⟩
  · rw [run, legal, vxIssue_alone takes (by simp [empty]) _ alone fits, still]; rfl
  · rw [updCore_core_self]; rfl

end Sys2Proof.Machine
end

section
/-! PROOF. O21, the completion of the front instruction of a queue (R114, R248, R259). -/

namespace Sys2Proof.Machine

/-! ### What a completion leaves alone (R39, R114, R228, R246, R448) -/

theorem meetCkptOf_zero (c : CoreId) (s : State) : meetCkptOf c 0 s = s := by
  unfold meetCkptOf; split <;> rfl

theorem traceDone_off {s : State} (off : ∀ k, s.flt.trcClass.getLsbD k = false) (c : CoreId) (cls ckpt pc : Nat) : traceDone c cls ckpt pc s = s := by
  rw [traceDone, off]; rfl

theorem weightErrors_zero {e : MMEntry} (none_ : e.wenc = 0) (c : CoreId) (s : State) : weightErrors c e s = s := if_pos none_

theorem nextVX_launched {q : List VXEntry} (launched : ∀ v ∈ q, v.flags.isSome) : nextVX q = none := by
  induction q with
  | nil => rfl
  | cons e r ih =>
    obtain ⟨first, rest⟩ := List.forall_mem_cons.1 launched
    rw [nextVX, if_neg (by simpa using Option.isSome_iff_ne_none.1 first), ih rest, ite_self]

/-- The engine starts nothing where every VX of the queue is launched. -/
theorem vePump_launched {c : CoreId} {s : State} (launched : ∀ v ∈ (s.core c).ve.queue, v.flags.isSome) (n : Nat) : vePump c n s = s := by
  cases n with
  | zero => rfl
  | succ n => rw [vePump, nextVX_launched launched]

theorem scqPump_empty {c : CoreId} {s : State} (empty : (s.core c).scq = []) : scqPump c s = s := by rw [scqPump, empty]

theorem railPump_empty {s : State} (empty : ∀ d, (s.core d).trq = []) (p : PartId) : railPump p s = s :=
  forAll_id _ _ _ (fun _ _ => forAll_id _ _ _ (fun d _ => trqPump_idle (.inl (empty d))))

/-- A launched VX at the front that is no table load completes next (R114). -/
theorem doneVX_front {e : VXEntry} (launched : e.flags.isSome) (load : e.op ≠ .tload) (late : Bool) (r : List VXEntry) :
    doneVX late (e :: r) = some (e, r) := by
  rw [doneVX, if_neg (by simpa using Option.isSome_iff_ne_none.1 launched)]
  split
  case h_1 isLoad _ => exact absurd isLoad load
  case h_2 => rfl

/-! ### The four kinds of queue (R248) -/

/-- The state that a VX leaves by its completion: its flags stand in the sticky status, and a free value is used up (R259; log 161). -/
def vxLeft (c : CoreId) (r : List VXEntry) (f : VF) (s : State) : State :=
  { updCore c (fun x => { x with ve := { x.ve with queue := r, sticky := x.ve.sticky ||| f } }) s with freeCtr := s.freeCtr + 1 }

theorem vxLeft_queue (c : CoreId) (r : List VXEntry) (f : VF) (s : State) : ((vxLeft c r f s).core c).ve.queue = r := by
  simp [vxLeft, State.core, updCore]

section
variable {c : CoreId} {s : State} (untraced : ∀ k, s.flt.trcClass.getLsbD k = false)
include untraced

section
variable (launched : ∀ v ∈ (s.core c).ve.queue, v.flags.isSome)
include launched

theorem completeMM_front {k : Fin 4} {e : MMEntry} {r : List MMEntry} (front : ((s.core c).eng[k]).queue = e :: r) (done : e.done = true)
    (sent : handedOver s c e = true) (ckpt : e.ckpt = 0) (sat : e.sat = false) (wenc : e.wenc = 0) :
    completeMM c k s = updEngine c k (fun g => { g with queue := r, sticky := orStatus g.sticky e.status }) s := by
  have front : ((s.core c).eng[k.1]'k.2).queue = e :: r := front
  rw [completeMM, front]
  dsimp only
  rw [if_neg (by simp [done, sent]), whenS, sat, if_neg Bool.false_ne_true, ckpt, meetCkptOf_zero, traceDone_off (by exact untraced), weightErrors_zero wenc,
    vePump_launched (by rw [updEngine, updCore_core_self]; exact launched)]

theorem completeVX_front {e : VXEntry} {r : List VXEntry} {f : VF} (front : (s.core c).ve.queue = e :: r) (flags : e.flags = some f)
    (ckpt : e.ckpt = 0) (load : e.op ≠ .tload) : completeVX c s = vxLeft c r f s := by
  have left : completeVX c s = vePump c 8 (traceDone c 2 e.ckpt e.pc (meetCkptOf c e.ckpt (vxLeft c r f s))) := by
    rw [completeVX, front, doneVX_front (by simp [flags]) load]
    dsimp only
    rw [flags]
    simp only [if_neg load]
    rfl
  obtain ⟨-, rest⟩ := List.forall_mem_cons.1 (front ▸ launched)
  rw [left, ckpt, meetCkptOf_zero, traceDone_off (s := vxLeft c r f s) untraced, vePump_launched (by rw [vxLeft_queue]; exact rest)]

theorem completeSC_front {e : SCEntry} (front : (s.core c).scq = [e]) (ran : e.ran = true) (ckpt : e.ckpt = 0) :
    completeSC c s = updCore c (fun x => { x with scq := [] }) s := by
  rw [completeSC, front]
  dsimp only
  rw [if_neg (by simp [ran]), ckpt, meetCkptOf_zero, traceDone_off (by exact untraced), scqPump_empty (by rw [updCore_core_self]),
    vePump_launched (by rw [updCore_core_self]; exact launched)]

end

theorem completeTR_front {e : TREntry} (front : (s.core c).trq = [e]) (ran : e.ran = true) (ckpt : e.ckpt = 0)
    (others : ∀ d, d ≠ c → (s.core d).trq = []) : completeTR c s = updCore c (fun x => { x with trq := [] }) s := by
  have empty (d : CoreId) : ((updCore c (fun x => { x with trq := [] }) s).core d).trq = [] := by
    rw [updCore_core]
    split
    case isTrue => rfl
    case isFalse other => exact others d other
  rw [completeTR, front]
  dsimp only
  rw [if_neg (by simp [ran]), ckpt, meetCkptOf_zero, traceDone_off (by exact untraced)]
  split
  case h_1 => exact railPump_empty empty _
  case h_2 => rfl

end

/-- Settles O21: the front instruction of each queue, by what its completion leaves alone. -/
theorem queueCompletion : Obligations.QueueCompletion := by
  unfold Obligations.QueueCompletion
  intro c s untraced launched
  exact ⟨fun k e r front done sent ckpt sat wenc => congrArg _ (completeMM_front untraced launched front done sent ckpt sat wenc),
    fun e r f front flags ckpt load => congrArg _ (completeVX_front untraced launched front flags ckpt load),
    fun e front ran ckpt => congrArg _ (completeSC_front untraced launched front ran ckpt),
    fun e front ran ckpt others => congrArg _ (completeTR_front untraced front ran ckpt others)⟩

end Sys2Proof.Machine
end

section
/-! PROOF. O30, WRITE and SEGMENT packets (R278, R328, R352). -/

namespace Sys2Proof.Machine

/-! ### A run of bytes in a byte store -/

/-- A byte after a run of writes: the run's bytes in their order, and every other byte as before. -/
theorem rd8_wrBytes (m : SMap Byte) (a b : Nat) (l : List Byte) (h : Memory.wf m) :
    rd8 (wrBytes m a l) b = if a ≤ b ∧ b < a + l.length then l.getD (b - a) 0 else rd8 m b := by
  induction l generalizing m a with
  | nil => rw [if_neg (by simp)]; rfl
  | cons x r ih =>
    rw [wrBytes, ih _ _ (wr8_wf _ _ _ h), rd8_wr8 _ _ _ _ h, List.length_cons]
    rcases Nat.lt_trichotomy b a with below | rfl | above
    · rw [if_neg (by omega), if_neg (by omega), if_neg (by omega)]
    · rw [if_neg (by omega), if_pos rfl, if_pos (by omega), Nat.sub_self, List.getD_cons_zero]
    · have next : b - a = b - (a + 1) + 1 := by omega
      rw [if_neg (Nat.ne_of_gt above), next, List.getD_cons_succ]
      exact if_congr (by omega) rfl rfl

/-! ### Near memory with failed channels (R352) -/

/-- One byte of a near write: dropped on a failed channel. -/
def nearStep (s : State) (a : Nat) (m : SMap Byte) (x : Byte × Nat) : SMap Byte := if onFailed s (a + x.2) then m else wr8 m (a + x.2) x.1

theorem nearWrite_eq_foldl (s : State) (a : Nat) (l : List Byte) : nearWrite s a l = l.zipIdx.foldl (nearStep s a) s.mem.near := rfl

theorem nearStep_wf {s : State} {a : Nat} {m : SMap Byte} (h : Memory.wf m) (x : Byte × Nat) : Memory.wf (nearStep s a m x) := by
  unfold nearStep
  split
  · exact h
  · exact wr8_wf _ _ _ h

theorem rd8_nearStep {s : State} {a : Nat} {m : SMap Byte} (h : Memory.wf m) (x : Byte × Nat) (b : Nat) :
    rd8 (nearStep s a m x) b = if b = a + x.2 ∧ onFailed s b = false then x.1 else rd8 m b := by
  unfold nearStep
  split
  case isTrue failed => rw [if_neg (by rintro ⟨rfl, sound⟩; rw [failed] at sound; cases sound)]
  case isFalse sound =>
    rw [rd8_wr8 _ _ _ _ h]
    exact if_congr ⟨fun e => ⟨e, by rw [e]; simpa using sound⟩, And.left⟩ rfl rfl

theorem rd8_foldl_nearStep (s : State) (a b k : Nat) (l : List Byte) (m : SMap Byte) (h : Memory.wf m) :
    rd8 ((l.zipIdx k).foldl (nearStep s a) m) b
      = if (a + k ≤ b ∧ b < a + k + l.length) ∧ onFailed s b = false then l.getD (b - (a + k)) 0 else rd8 m b := by
  induction l generalizing m k with
  | nil => rw [if_neg (by rintro ⟨⟨_, _⟩, _⟩; simp at *; omega)]; rfl
  | cons x r ih =>
    rw [List.zipIdx_cons, List.foldl_cons, ih _ _ (nearStep_wf h _), rd8_nearStep h, List.length_cons]
    rcases Nat.lt_trichotomy b (a + k) with below | at_ | above
    · rw [if_neg (by omega), if_neg (by omega), if_neg (by omega)]
    · rw [if_neg (by omega), at_, Nat.sub_self, List.getD_cons_zero]
      exact if_congr (and_congr_left' (by omega)) rfl rfl
    · have next : b - (a + k) = b - (a + (k + 1)) + 1 := by omega
      rw [if_neg (c := b = _ ∧ _) (by omega), next, List.getD_cons_succ]
      exact if_congr (and_congr_left' (by omega)) rfl rfl

/-- A byte after a near write: the run's bytes in their order but on a failed channel, and every other byte as before. -/
theorem rd8_nearWrite (s : State) (a b : Nat) (l : List Byte) (h : Memory.wf s.mem.near) :
    rd8 (nearWrite s a l) b = if (a ≤ b ∧ b < a + l.length) ∧ onFailed s b = false then l.getD (b - a) 0 else rd8 s.mem.near b := by
  rw [nearWrite_eq_foldl]
  exact rd8_foldl_nearStep s a b 0 l _ h

theorem tierWrite_far {a : Nat} (far : isFar a = true) (l : List Byte) (s : State) :
    tierWrite a l s = { s with mem := { s.mem with far := wrBytes s.mem.far (tierAddr a) l } } := if_pos far

theorem tierWrite_near {a : Nat} (near : isFar a = false) (l : List Byte) (s : State) :
    tierWrite a l s = { s with mem := { s.mem with near := nearWrite s (tierAddr a) l } } := if_neg (by simp [near])

/-! ### The packets (R278) -/

/-- The runs that a WRITE of a partition may store: inside its windows with write access, in their tier, and in service (R328, R339, R370). -/
def mayWrite (s : State) (cfg : PCfg) (a n : Nat) : Bool := inWindow cfg a n true && runValid s a n && !runOffline s a n

/-- A region of class 7, which receives cache segments, holds all of a run (R386). -/
def inReceive (s : State) (a n : Nat) : Bool := s.mem.regions.any (fun r => r.cls == 7 && inRegion r a && inRegion r (a + (n - 1)))

theorem inReceive_iff (s : State) (a n : Nat) :
    inReceive s a n = true ↔ ∃ r ∈ s.mem.regions, r.cls = 7 ∧ inRegion r a = true ∧ inRegion r (a + (n - 1)) = true := by
  simp [inReceive, and_assoc]

section
variable (h : PktHdr) (data : List Byte) {s : State}

theorem exec_write_off (off : linksOn s = false) : exec (.write h data) s = .next s := by
  have run : exec (.write h data) s = execWrite h data s := rfl
  rw [run, execWrite, if_pos (by simp [off])]

theorem exec_segment : exec (.segment h data) s
    = .next (if linksOn s && inReceive s h.addr.toNat data.length then tierWrite h.addr.toNat data s else s) := rfl

variable {h} (on : linksOn s = true)
include on

theorem exec_write_homeless (homeless : 64 ≤ h.dpart.toNat ∨ (s.part (pid h.dpart.toNat)).section_ = none) : exec (.write h data) s = .next s := by
  have run : exec (.write h data) s = execWrite h data s := rfl
  rw [run, execWrite]
  by_cases outside : 64 ≤ h.dpart.toNat
  · rw [if_pos (by simp [outside])]
  · rw [if_neg (by simp [on, outside]), homeless.resolve_left outside]

theorem exec_write_section {cfg : PCfg} (inside : h.dpart.toNat < 64) (home : (s.part (pid h.dpart.toNat)).section_ = some cfg) :
    exec (.write h data) s = .next (if mayWrite s cfg h.addr.toNat data.length then tierWrite h.addr.toNat data s else s) := by
  have run : exec (.write h data) s = execWrite h data s := rfl
  rw [run, execWrite, if_neg (by simp [on]; omega), home]
  rfl

end

/-- Settles O30: each packet by what it may store, and what a tier's write leaves at each byte. -/
theorem packetWrites : Obligations.PacketWrites := by
  unfold Obligations.PacketWrites
  refine ⟨fun h data s => ⟨fun off => ⟨exec_write_off h data off, ?segment_off⟩, fun on =>
    ⟨fun cfg inside home => ?write, exec_write_homeless data on, fun held => ?segment_held, fun apart => ?segment_apart⟩⟩,
    fun a data s => ⟨fun far => ?far, fun near => ?near⟩⟩
  case segment_off => rw [exec_segment, off]; rfl
  case write =>
    have run := exec_write_section data on inside home
    exact ⟨fun may => by rw [run, mayWrite, if_pos may], fun bars => by rw [run, mayWrite, if_neg (by rw [bars]; simp)]⟩
  case segment_held => rw [exec_segment, on, (inReceive_iff ..).2 held]; rfl
  case segment_apart =>
    have outside : ¬ inReceive s h.addr.toNat data.length = true := fun held =>
      let ⟨r, region, holds⟩ := (inReceive_iff ..).1 held
      apart r region holds
    rw [exec_segment, on, Bool.true_and, if_neg outside]
  case far =>
    rw [tierWrite_far far]
    refine ⟨rfl, fun wf b => ?_⟩
    simp only [decide_eq_true_eq]
    exact rd8_wrBytes _ _ _ _ wf
  case near =>
    rw [tierWrite_near near]
    refine ⟨rfl, fun wf b => ?_⟩
    simp only [Bool.and_eq_true, decide_eq_true_eq, Bool.not_eq_true']
    exact rd8_nearWrite _ _ _ _ wf

end Sys2Proof.Machine
end

section
/-! PROOF. O27, the flits that a link receives (R270, R271). -/

namespace Sys2Proof.Machine

/-! ### What sending leaves of the wiring (R267, R275) -/

/-- The image and the role of every port, by which a packet's destination is judged, are as before. -/
def SameWiring (s t : State) : Prop := t.img = s.img ∧ ∀ i, (t.port i).role = (s.port i).role

namespace SameWiring

theorem refl (s : State) : SameWiring s s := ⟨rfl, fun _ => rfl⟩

theorem trans {s t u : State} (h : SameWiring s t) (k : SameWiring t u) : SameWiring s u :=
  ⟨k.1.trans h.1, fun i => (k.2 i).trans (h.2 i)⟩

theorem selfAddr_eq {s t : State} (h : SameWiring s t) : selfAddr t = selfAddr s := by
  unfold selfAddr axisOf; rw [h.1]

theorem forMe_eq {s t : State} (h : SameWiring s t) (i : PortId) (d : DevAddr) : forMe t i d = forMe s i d := by
  unfold forMe routeAxis; rw [h.selfAddr_eq, h.2]

theorem emit (o : Out) (s : State) : SameWiring s (emit o s) := refl s

theorem updPart (p : PartId) (f : Part → Part) (s : State) : SameWiring s (updPart p f s) := refl s

theorem updPort {f : Port → Port} (keeps : ∀ x, (f x).role = x.role) (i : PortId) (s : State) : SameWiring s (updPort i f s) :=
  ⟨rfl, fun j => by
    rw [updPort_port]
    split
    next e => rw [keeps, e]
    next => rfl⟩

theorem forAll {α : Type} {f : α → State → State} (each : ∀ x t, SameWiring t (f x t)) (l : List α) (s : State) : SameWiring s (forAll l f s) :=
  forAll_keep (SameWiring s) l f s (fun x _ t h => h.trans (each x t)) (refl s)

theorem whenS {f : State → State} (b : Bool) {s : State} (does : SameWiring s (f s)) : SameWiring s (whenS b f s) := by
  cases b
  · exact refl s
  · exact does

theorem trace (src : Fin 5) (part : Nat) (data : List Nat) (s : State) : SameWiring s (trace src part data s) := by
  rw [trace_frame]; exact refl s

theorem charge (p : PartId) (cs : List (Fin 7 × Nat)) (s : State) : SameWiring s (charge p cs s).2 := by
  unfold Machine.charge
  dsimp only
  split
  · exact updPart ..
  · exact (updPart ..).trans (trace ..)

theorem sendFlits (i : PortId) (cls : Nat) (vc : Bool) (own : Option (Nat × Nat)) (l : List Flit) (s : State) :
    SameWiring s (sendFlits i cls vc own l s) :=
  (updPort (fun _ => by rfl) i s).trans (forAll (fun _ _ => emit ..) _ _)

theorem sendPacket (i : PortId) (cls : Nat) (vc : Bool) (own : Option (Nat × Nat)) (h : PktHdr) (data : List Byte) (s : State) :
    SameWiring s (sendPacket i cls vc own h data s) :=
  (emit ..).trans (sendFlits ..)

theorem resend (i : PortId) (s : State) : SameWiring s (resend i s) := forAll (fun _ _ => emit ..) _ _

theorem mPump (n : Nat) (o : PortId) (s : State) : SameWiring s (mPump n o s) := by
  induction n generalizing s with
  | zero => exact refl s
  | succ n ih =>
    unfold Machine.mPump
    split
    · exact refl s
    · split
      · exact ((updPort (fun _ => by rfl) ..).trans (sendPacket ..)).trans (ih _)
      · exact refl s

theorem sendTransit (o : PortId) (vc : Bool) (l : List Flit) (s : State) : SameWiring s (sendTransit o vc l s) :=
  (whenS _ (updPort (fun _ => by rfl) ..)).trans (sendFlits ..)

theorem transitPump (n : Nat) (o : PortId) (s : State) : SameWiring s (transitPump n o s) := by
  induction n generalizing s with
  | zero => exact refl s
  | succ n ih =>
    unfold Machine.transitPump
    split
    · exact refl s
    · exact (((sendTransit ..).trans (updPort (fun _ => by rfl) ..)).trans (emit ..)).trans (ih _)

theorem portPump (o : PortId) (s : State) : SameWiring s (portPump o s) := (transitPump ..).trans (mPump ..)

theorem injectAll (p : PartId) (i : PortId) (cls : Nat) (vc : Bool) (l : List (PktHdr × List Byte)) (s : State) :
    SameWiring s (injectAll p i cls vc l s).2 := by
  unfold Machine.injectAll
  dsimp only
  split
  · exact refl s
  · split
    · exact charge ..
    · exact (charge ..).trans (forAll (fun _ _ => sendPacket ..) _ _)

theorem sendAck (p : PartId) (u : Nat × PktHdr) (s : State) : SameWiring s (sendAck p u s).2 := by
  unfold Machine.sendAck
  dsimp only
  split
  · exact injectAll ..
  · split
    · exact injectAll ..
    · exact refl s

theorem pumpAcks (p : PartId) (s : State) : SameWiring s (pumpAcks p s) := by
  refine forAll (fun a t => ?_) _ _
  dsimp only
  split
  · exact (sendAck ..).trans (updPart ..)
  · exact refl t

theorem takeAck (i : PortId) (f : Flit) (s : State) : SameWiring s (takeAck i f s) :=
  (((updPort (fun _ => by rfl) ..).trans (whenS _ (resend ..))).trans (portPump ..)).trans (forAll (fun _ _ => pumpAcks ..) _ _)

end SameWiring

/-! ### A flit on a link that is up (R270, R271) -/

section
variable {port : PortId} {fl : Flit} {s : State} (link : isLink (s.port port) = true) (up : (s.port port).state = .up)
include link up

/-- On a link that is up, a flit's own quality, class and sequence decide what it does. -/
theorem exec_flitReceive_up : exec (.flitReceive port fl) s = .next (
    if !flitGood fl then sendNak port s
    else if fl.cls = 3 then takeAck port fl s
    else if fl.fseq.toNat ≠ (s.port port).rxSeq then (if (s.port port).seeking then s else sendNak port s)
    else
      let s := updPort port (fun x => { x with rxSeq := (x.rxSeq + 1) % 4096, seeking := false }) s
      let s := emit (.flitAck port.1 fl.fseq.toNat) (takeAck port fl s)
      if fl.head then (if forMe s port (headDst fl) then returnCredit port fl s else transitFlit port fl (some (headDst fl)) s)
      else if ((s.port port).routes.getD (cvIdx fl.cls.toNat fl.vc) none).isSome then transitFlit port fl none s
      else returnCredit port fl s) := by
  have run : exec (.flitReceive port fl) s = execFlitReceive port fl s := rfl
  rw [run, execFlitReceive, if_neg (by simp [link, up])]

theorem exec_flitReceive_next (good : flitGood fl = true) (data : fl.cls ≠ 3) (next : fl.fseq.toNat = (s.port port).rxSeq) (head : fl.head = true)
    (mine : forMe s port (headDst fl) = true) : exec (.flitReceive port fl) s = .next (returnCredit port fl (emit (.flitAck port.1 fl.fseq.toNat)
      (takeAck port fl (updPort port (fun x => { x with rxSeq := (x.rxSeq + 1) % 4096, seeking := false }) s)))) := by
  have wired := (((SameWiring.updPort (f := fun x => { x with rxSeq := (x.rxSeq + 1) % 4096, seeking := false }) (fun _ => by rfl) port s).trans
    (.takeAck port fl _)).trans (.emit (.flitAck port.1 fl.fseq.toNat) _)).forMe_eq port (headDst fl)
  rw [exec_flitReceive_up link up, good, if_neg (by simp), if_neg data, if_neg (by simp [next])]
  dsimp only
  rw [if_pos head, wired, if_pos mine]

end

/-- Settles O27: the order of the checks of a flit, and that its acknowledgement leaves what says for whom it is. -/
theorem flitsReceived : Obligations.FlitsReceived := by
  unfold Obligations.FlitsReceived
  intro port fl s link up
  have run := exec_flitReceive_up (fl := fl) link up
  refine ⟨fun bad => ?damaged, fun good control => ?control, fun good data next head mine => ?taken, fun good data next seeking => ?skipped⟩
  case damaged => rw [run, bad]; rfl
  case control => rw [run, good, if_neg (by simp), if_pos control]
  case taken => exact ⟨_, exec_flitReceive_next link up good data next head mine, rfl⟩
  case skipped => rw [run, good, if_neg (by simp), if_neg data, if_pos next, if_pos seeking]

end Sys2Proof.Machine
end

section
/-! PROOF. O28, retraining, taking down and training of a link (R267, R268, R272, R446). -/

namespace Sys2Proof.Machine

/-! ### The record of a port event (R446) -/

theorem portEvent_noFar {i : PortId} {s : State} (far : (s.port i).farId = none) (room : LogRoom s) (k e : Nat) :
    portEvent i k e s = logged (recordNow s 5 1 e (0x100 + i.1) 0xFFFF [i.1, k, 0, 0, 0, 0]) s := by
  rw [portEvent, logR_room room, far]
  rfl

theorem portEvent_far {i : PortId} {d : DevAddr} {q : Nat} {s : State} (far : (s.port i).farId = some (d, q)) (room : LogRoom s) (k e : Nat) :
    portEvent i k e s = logged (recordNow s 5 1 e (0x100 + i.1) 0xFFFF [i.1, k, d.x.toNat, d.y.toNat, d.z.toNat, q]) s := by
  rw [portEvent, logR_room room, far]
  rfl

@[simp] theorem portEvent_port (i : PortId) (k e : Nat) (s : State) (j : PortId) : (portEvent i k e s).port j = s.port j := by
  rw [portEvent, logR_frame]; rfl

@[simp] theorem alarm_port (c : Fin 16) (s : State) (j : PortId) : (alarm c s).port j = s.port j := by
  rw [alarm_frame]; rfl

/-! ### Retraining (R272) -/

/-- A retrain begins: counted, timed and recorded. -/
def retrainBegun (port : PortId) (s : State) : State :=
  portEvent port 2 0 (updPort port (fun x => { x with state := .retraining, retrainNs := nowNs s, retrains := satAdd 64 x.retrains 1 }) s)

/-- FEC symbol errors of a port are counted. -/
def fecCounted (port : PortId) (n : Nat) (s : State) : State := updPort port (fun x => { x with fecsym := satAdd 64 x.fecsym n }) s

section
variable {port : PortId} {s : State} (link : isLink (s.port port) = true) (up : (s.port port).state = .up)
include link up

theorem exec_retrain_naks : exec (.retrain port .naks) s = .next (if 16 ≤ (s.port port).naksRun then retrainBegun port s else s) := by
  have run : exec (.retrain port .naks) s = execRetrain port .naks s := rfl
  rw [run, execRetrain]
  by_cases due : 16 ≤ (s.port port).naksRun <;> simp [link, up, due, retrainBegun]

theorem exec_retrain_fec (n : Nat) :
    exec (.retrain port (.fec n)) s = .next (if s.img.dev.feclim < n then retrainBegun port (fecCounted port n s) else fecCounted port n s) := by
  have run : exec (.retrain port (.fec n)) s = execRetrain port (.fec n) s := rfl
  rw [run, execRetrain]
  by_cases due : s.img.dev.feclim < n <;> simp [link, up, due, retrainBegun, fecCounted]

end

/-- A port that has retrained is in service again. -/
def retrained (port : PortId) (s : State) : State := updPort port (fun x => { x with state := .up, naksRun := 0 }) s

theorem exec_retrainComplete (port : PortId) (s : State) : exec (.retrainComplete port) s = .next (
    if (s.port port).state ≠ .retraining ∨ (s.port port).retrainNs + 1000000 < nowNs s then s else portPump port (resend port (retrained port s))) := rfl

/-- With nothing held and nothing waiting, a port sends nothing. -/
theorem portPump_resend_idle {port : PortId} {s : State} (held : (s.port port).replay = []) (own : (s.port port).mq = [])
    (transit : ∀ i, (s.port i).transit = []) : portPump port (resend port s) = s := by
  rw [resend, held, forAll_nil, portPump, transitPump_none transit, own]
  rfl

theorem retrained_idle {port : PortId} {s : State} (held : (s.port port).replay = []) (own : (s.port port).mq = [])
    (transit : ∀ i, (s.port i).transit = []) : portPump port (resend port (retrained port s)) = retrained port s := by
  refine portPump_resend_idle (by rw [retrained, updPort_port_self]; exact held) (by rw [retrained, updPort_port_self]; exact own) fun i => ?_
  rw [retrained, updPort_port]
  split
  · exact transit port
  · exact transit i

/-! ### Taking a port down (R272) -/

/-- The far identity of a port is that of its last training. -/
theorem updPort_farId {f : Port → Port} (keeps : ∀ x, (f x).farId = x.farId) (i j : PortId) (s : State) :
    ((updPort i f s).port j).farId = (s.port j).farId := by
  rw [updPort_port]
  split
  next e => rw [keeps, e]
  next => rfl

theorem dropTransit_farId (o j : PortId) (s : State) : ((dropTransit o s).port j).farId = (s.port j).farId := by
  unfold dropTransit
  refine forAll_keep (fun t => (t.port j).farId = (s.port j).farId) _ _ _ (fun i _ t h => ?_) (updPort_farId (fun _ => by rfl) ..)
  rw [updPort_farId (fun _ => by rfl)]
  exact forAll_keep (fun u => (u.port j).farId = (s.port j).farId) _ _ _ (fun _ _ _ k => k) h

/-- A port out of service: its packets are discarded, an alarm and a record say so. -/
def outOfService (port : PortId) (s : State) : State :=
  alarm 5 (portEvent port 3 3 (dropTransit port (updPort port (fun x => { x with
    state := .down, replay := [], mq := [], seeking := false, naksRun := 0, routes := [none, none, none, none, none, none] }) s)))

theorem outOfService_farId (port : PortId) (s : State) : ((outOfService port s).port port).farId = (s.port port).farId := by
  rw [outOfService, alarm_port, portEvent_port, dropTransit_farId]
  exact updPort_farId (fun _ => by rfl) ..

/-- Every task with a packet among the held flits of a port aborts, as `s` finds them. -/
def heldAborted (port : PortId) (s u : State) : State :=
  forAll (heldTasks s port) (fun p => abortTask (pid p) { code := 0x22, src := 0x100 + port.1 } false) u

theorem takeDown_unknown {port : PortId} {s : State} (far : (s.port port).farId = none) :
    takeDown port s = heldAborted port s (outOfService port s) := by
  rw [← outOfService_farId, outOfService] at far
  rw [takeDown, far]
  rfl

theorem takeDown_known {port : PortId} {d : DevAddr} {q : Nat} {s : State} (far : (s.port port).farId = some (d, q)) :
    takeDown port s = heldAborted port s (detect d (BitVec.ofNat 8 (q + 1)) 0x02 0xFFFF (outOfService port s)) := by
  rw [← outOfService_farId, outOfService] at far
  rw [takeDown, far]
  rfl

theorem exec_portDown (port : PortId) (s : State) : exec (.portDown port) s
    = .next (if (s.port port).state = .retraining ∧ (s.port port).retrainNs + 1000000 ≤ nowNs s then takeDown port s else s) := rfl

/-! ### Training (R267, R268) -/

theorem exec_portTrain {m : Master} {s : State} (owner : OwnerActs m s) (port : PortId) :
    exec (.portTrain m port) s = .next (if (s.port port).role = 0 then s else startTraining port s) := by
  have run : exec (.portTrain m port) s = execPortTrain m port s := rfl
  rw [run, execPortTrain, ownerOnly_owner owner]

theorem startTraining_eq (port : PortId) (s : State) : startTraining port s
    = whenS (isLink (s.port port)) (emit (.training port.1 (selfAddr s) s.img.dev.tag)) (updPort port (fun x => { x with
        state := .training, replay := [], transit := [], mq := [], seeking := false, naksRun := 0 }) s) := by
  rw [startTraining, updPort_port_self]
  rfl

/-- A training names the far device. -/
def farMet (port : PortId) (far : DevAddr) (farPort : PortId) (s : State) : State := updPort port (fun x => { x with farId := some (far, farPort.1) }) s

/-- A trained port is up, with empty buffers and full credits. -/
def inService (port : PortId) (s : State) : State :=
  portEvent port 4 0xFF (updPort port (fun x => { x with
    state := .up, txSeq := 0, rxSeq := 0, replay := [], credits := [1024, 1024, 512, 512, 64, 64], naksRun := 0 }) s)

/-- A port that fails the check: refused, with an alarm, a record of both identities and a suspect. -/
def trainingRefused (port : PortId) (far : DevAddr) (farPort : PortId) (s : State) : State :=
  detect far (BitVec.ofNat 8 (farPort.1 + 1)) 0x01 0xFFFF (alarm 5
    (logR 0x0005 1 3 (0x100 + port.1) 0xFFFF [port.1, 1, far.x.toNat, far.y.toNat, far.z.toNat, farPort.1,
        (selfAddr s).x.toNat, (selfAddr s).y.toNat, (selfAddr s).z.toNat]
      (updPort port (fun x => { x with state := .refused }) s)))

theorem exec_trainingComplete (port : PortId) (far : DevAddr) (farPort : PortId) (tag : W64) (s : State) :
    exec (.trainingComplete port far farPort tag) s = .next (if (s.port port).state ≠ .training then s
      else if isEth (s.port port) || trainOk s port far farPort tag then inService port (farMet port far farPort s)
      else trainingRefused port far farPort (farMet port far farPort s)) := rfl

/-- Settles O28: each command by its own equation; a port that goes down still names the device of its last training. -/
theorem linkStates : Obligations.LinkStates := by
  unfold Obligations.LinkStates
  intro port m far farPort tag n s x begun counted up down held aborted met
  refine ⟨fun link on => ?retrain, fun retraining => ?retraining, fun other => ?notRetraining, fun owner => ?train, fun training => ?training,
    fun other => ?notTraining, fun k e room => ⟨fun far => portEvent_noFar far room k e, fun d q far => portEvent_far far room k e⟩⟩
  case retrain =>
    have naks := exec_retrain_naks link on
    have fec := exec_retrain_fec link on n
    exact ⟨fun many => by rw [naks, if_pos many]; rfl, fun few => by rw [naks, if_neg (Nat.not_le.2 few)],
      fun many => by rw [fec, if_pos many]; rfl, fun few => by rw [fec, if_neg (Nat.not_lt.2 few)]; rfl⟩
  case retraining =>
    have done := exec_retrainComplete port s
    have lost := exec_portDown port s
    refine ⟨fun inTime => ?resumes, fun inTime replay mq transit => ?idle, fun late => ?late, fun early => ?early,
      fun due => ⟨fun far => ?alone, fun d q far => ?named⟩⟩
    case resumes => rw [done, if_neg (not_or.2 ⟨not_not.2 retraining, Nat.not_lt.2 inTime⟩)]; rfl
    case idle => rw [done, if_neg (not_or.2 ⟨not_not.2 retraining, Nat.not_lt.2 inTime⟩), retrained_idle replay mq transit]; rfl
    case late => rw [done, if_pos (.inr late)]
    case early => rw [lost, if_neg fun due => Nat.not_le.2 early due.2]
    case alone => rw [lost, if_pos ⟨retraining, due⟩, takeDown_unknown far]; rfl
    case named => rw [lost, if_pos ⟨retraining, due⟩, takeDown_known far]; rfl
  case notRetraining =>
    exact ⟨by rw [exec_retrainComplete, if_pos (.inl other)], by rw [exec_portDown, if_neg fun due => other due.1]⟩
  case train =>
    have run := exec_portTrain owner port
    exact ⟨fun role => by rw [run, if_neg role, startTraining_eq], fun off => by rw [run, if_pos off]⟩
  case training =>
    have run := exec_trainingComplete port far farPort tag s
    rw [if_neg (not_not.2 training)] at run
    exact ⟨fun passes => by rw [run, if_pos (by simpa using passes)]; rfl, fun link fails => by rw [run, if_neg (by simp [x, link, fails])]; rfl⟩
  case notTraining => rw [exec_trainingComplete, if_pos other]

end Sys2Proof.Machine
end

section
/-! PROOF. O29, the queue pairs of an Ethernet port (R301, R302). -/

namespace Sys2Proof.Machine

/-! ### Acknowledged writes (R301, R323) -/

/-- An acknowledged DATA segment counts for the attempt that sent it. -/
theorem segsAcked_cons (u : QWrite) (l : List QWrite) (s : State) : segsAcked (u :: l) s
    = segsAcked l (if u.data then updPart (pid u.part) (fun x => { x with
        reqs := mapIf (fun r => r.rid == u.rid && r.epoch == u.epoch) (fun r => { r with segAcked := r.segAcked + 1 }) x.reqs }) s else s) := by
  unfold segsAcked
  rw [List.filter_cons]
  split
  · rw [forAll_cons]
  · rfl

/-- The writes of a queue pair that an acknowledged sequence covers, and those that it leaves. -/
def ackedBy (q : QPair) (upto : Nat) : List QWrite := q.unacked.filter (fun u => decide (u.seq ≤ upto))
def unackedAfter (q : QPair) (upto : Nat) : List QWrite := q.unacked.filter (fun u => decide (upto < u.seq))

/-- Where a sequence covers no write, it leaves them all. -/
theorem unackedAfter_of_none {q : QPair} {upto : Nat} (none_ : ackedBy q upto = []) : unackedAfter q upto = q.unacked :=
  List.filter_eq_self.2 fun u member => by simpa using List.filter_eq_nil_iff.1 none_ u member

/-! ### The commands of a queue pair -/

section
variable {port : PortId} {qp : BitVec 12} {q : QPair} {s : State} (eth : isEth (s.port port) = true) (pair : qpOf (s.port port) qp.toNat = some q)
include eth pair

theorem exec_roceAck (upto : Nat) : exec (.roceAck port qp upto) s
    = .next (segsAcked (ackedBy q upto) (updQp port qp.toNat (fun x => { x with
        unacked := unackedAfter q upto
        retries := if (ackedBy q upto).isEmpty then x.retries else 0
        sentNs := if (ackedBy q upto).isEmpty then x.sentNs else nowNs s }) s)) := by
  have run : exec (.roceAck port qp upto) s = execRoceAck port qp upto s := rfl
  have later : (not ∘ fun u : QWrite => decide (u.seq ≤ upto)) = fun u => decide (upto < u.seq) := by
    funext u; rw [Function.comp_apply, ← decide_not, decide_eq_decide, Nat.not_le]
  rw [run, execRoceAck, eth, pair]
  simp only [List.partition_eq_filter_filter, later]
  rfl

theorem exec_roceRetryTimeout : exec (.roceRetryTimeout port qp) s = .next (
    if q.unacked.isEmpty || !timedOut s port q then s
    else if q.retries < (ethCfg s port).retries then
      emit (.retransmit port.1 qp.toNat) (updQp port qp.toNat (fun q => { q with retries := q.retries + 1, sentNs := nowNs s }) s)
    else forAll (failedParts s q.unacked) (fun p s => abortTask (pid p) { code := 0x22, src := 0x100 + port.1 } false s)
      (updQp port qp.toNat (fun q => { q with retries := 0, unacked := [] }) s)) := by
  have run : exec (.roceRetryTimeout port qp) s = execRoceRetryTimeout port qp s := rfl
  rw [run, execRoceRetryTimeout, eth, pair]

end

theorem exec_congestionNotification (port : PortId) (qp : BitVec 12) (s : State) : exec (.congestionNotification port qp) s
    = .next (if isEth (s.port port) && (ethCfg s port).ecn then updQp port qp.toNat (fun q => { q with rate := q.rate * (ethCfg s port).factor / 256 }) s
      else s) := rfl

theorem exec_foreignRequestDrop (port : PortId) (s : State) : exec (.foreignRequestDrop port) s
    = .next (if isEth (s.port port) then updPort port (fun x => { x with foreign := x.foreign + 1 }) s else s) := rfl

theorem exec_priorityFlowControl (port : PortId) (prio : Byte) (pause : Bool) (s : State) : exec (.priorityFlowControl port prio pause) s
    = .next (if isEth (s.port port) && decide ((ethCfg s port).pfcPrio = prio.toNat ∧ prio.toNat < 8) then
        updPort port (fun x => { x with paused := pause }) s
      else s) := rfl

/-- A queue pair that the port does not have changes nothing. -/
theorem exec_qp_unknown {port : PortId} {qp : BitVec 12} {s : State} (unknown : qpOf (s.port port) qp.toNat = none) (upto : Nat) :
    exec (.roceAck port qp upto) s = .next s ∧ exec (.roceRetryTimeout port qp) s = .next s := by
  have ack : exec (.roceAck port qp upto) s = execRoceAck port qp upto s := rfl
  have retry : exec (.roceRetryTimeout port qp) s = execRoceRetryTimeout port qp s := rfl
  rw [ack, retry, execRoceAck, execRoceRetryTimeout, unknown]
  cases isEth (s.port port) <;> exact ⟨rfl, rfl⟩

/-- On a port that is not Ethernet, the commands of an Ethernet port change nothing. -/
theorem exec_notEth {port : PortId} {s : State} (link : isEth (s.port port) = false) (qp : BitVec 12) (upto : Nat) (prio : Byte) (pause : Bool) :
    ∀ c ∈ ([.roceAck port qp upto, .congestionNotification port qp, .roceRetryTimeout port qp, .foreignRequestDrop port,
      .priorityFlowControl port prio pause] : List Instr), exec c s = .next s := by
  have ack : exec (.roceAck port qp upto) s = execRoceAck port qp upto s := rfl
  have retry : exec (.roceRetryTimeout port qp) s = execRoceRetryTimeout port qp s := rfl
  rw [execRoceAck, link] at ack
  rw [execRoceRetryTimeout, link] at retry
  simp only [List.forall_mem_cons]
  refine ⟨ack, ?congestion, retry, ?foreign, ?pfc, List.forall_mem_nil _⟩
  case congestion => rw [exec_congestionNotification, link]; rfl
  case foreign => rw [exec_foreignRequestDrop, link]; rfl
  case pfc => rw [exec_priorityFlowControl, link]; rfl

/-! ### The rates at a tick (R301, R385) -/

/-- A port's queue pairs at the start of a tick: each regains rate, and none has used any. -/
def regained (cfg : EthCfg) (x : Port) : Port := { x with qps := x.qps.map (fun q => { q with rate := Nat.min 256 (q.rate + cfg.regain), used := 0 }) }

/-- A tick begins on one port. -/
def regainPort (i : PortId) (s : State) : State := updPort i (regained (ethCfg s i)) s

theorem regainPort_port (i : PortId) (s : State) (j : PortId) :
    (regainPort i s).port j = if j = i then regained (ethCfg s j) (s.port j) else s.port j := by
  rw [regainPort, updPort_port]
  exact ite_congr rfl (fun e => by rw [e]) (fun _ => rfl)

/-- A tick begins on each port of a list once. -/
theorem forAll_regainPort_port {l : List PortId} (once : l.Nodup) (s : State) (j : PortId) :
    (forAll l regainPort s).port j = if j ∈ l then regained (ethCfg s j) (s.port j) else s.port j := by
  induction l generalizing s with
  | nil => rfl
  | cons i r ih =>
    obtain ⟨notLater, once⟩ := List.nodup_cons.1 once
    have sameCfg : ethCfg (regainPort i s) j = ethCfg s j := rfl
    rw [forAll_cons, ih once, sameCfg, regainPort_port]
    by_cases first : j = i
    · subst first
      rw [if_neg notLater, if_pos rfl, if_pos (List.mem_cons_self ..)]
    · rw [if_neg first]
      exact if_congr (by simp [first]) rfl rfl

theorem qpTick_port (s : State) (j : PortId) : (qpTick s).port j = regained (ethCfg s j) (s.port j) := by
  have run : qpTick s = forAll allPorts regainPort s := rfl
  exact run ▸ (forAll_regainPort_port (List.nodup_finRange 8) s j).trans (if_pos (List.mem_finRange j))

theorem boundaryService_port (s : State) (j : PortId) : (boundaryService s).port j = regained (ethCfg s j) (s.port j) := by
  rw [← qpTick_port, boundaryService]
  split
  · rfl
  · rfl

/-- Settles O29: each command by its own equation, the writes by a list's filter, and the tick by what it does to each port once. -/
theorem ethernetPorts : Obligations.EthernetPorts := by
  unfold Obligations.EthernetPorts
  refine ⟨fun port qp upto q s eth pair => ?pairs, fun port qp upto prio pause s => ?ports, fun port s => by rw [boundaryService_port]; rfl,
    fun u l s => ⟨rfl, segsAcked_cons u l s⟩⟩
  case pairs =>
    intro cfg done left
    have ack := exec_roceAck eth pair upto
    have retry := exec_roceRetryTimeout eth pair
    refine ⟨fun some_ => ?acked, fun none_ => ?nothing, fun ecn => ?congestion, fun early => ?early, fun waits late more => ?retransmit,
      fun waits late spent => ?aborts, fun idle => ?idle⟩
    case acked =>
      have nonempty : (ackedBy q upto).isEmpty = false := List.isEmpty_eq_false_iff.2 some_
      simp only [ack, nonempty, Bool.false_eq_true, if_false]
      rfl
    case nothing =>
      have empty : ackedBy q upto = [] := none_
      simp only [ack, unackedAfter_of_none empty, empty, List.isEmpty_nil, if_true]
      rfl
    case congestion => rw [exec_congestionNotification, eth, if_pos (by simpa using ecn)]
    case early => rw [retry, if_pos (by simp [timedOut]; exact .inr early)]
    case retransmit => rw [retry, if_neg (by simp [timedOut]; exact ⟨waits, late⟩), if_pos more]
    case aborts => rw [retry, if_neg (by simp [timedOut]; exact ⟨waits, late⟩), if_neg (Nat.not_lt.2 spent)]
    case idle => rw [retry, if_pos (by simp [idle])]
  case ports =>
    refine ⟨fun eth => ⟨?foreign, fun mine valid => ?pfc, fun other => ?other⟩, fun off => ?noEcn, fun unknown => exec_qp_unknown unknown upto,
      fun link => exec_notEth link qp upto prio pause⟩
    case foreign => rw [exec_foreignRequestDrop, if_pos eth]
    case pfc => rw [exec_priorityFlowControl, eth, if_pos (by simp [mine, valid])]
    case other => rw [exec_priorityFlowControl, if_neg (by simp; omega)]
    case noEcn => rw [exec_congestionNotification, off, Bool.and_false, if_neg (by simp)]

end Sys2Proof.Machine
end

section
/-! PROOF. O31, pieces of a collective and their acknowledgements (R281, R282, R296). -/

namespace Sys2Proof.Machine

/-- In P3 and P4 no piece and no acknowledgement arrives (R435). -/
theorem exec_piece_ack_off {s : State} (off : linksOn s = false) (port : PortId) (h : PktHdr) (data : List Byte) :
    exec (.piece port h data) s = .next s ∧ exec (.ack port h) s = .next s := by
  have piece : exec (.piece port h data) s = execPiece port h data s := rfl
  have ack : exec (.ack port h) s = execAck port h s := rfl
  rw [piece, ack, execPiece, execAck, off]
  exact ⟨rfl, rfl⟩

/-- A piece from a member lands where its exchange is open here and agrees with it, waits where it is not open yet, and aborts the task where the
two differ. -/
def pieceTaken (p : PartId) (port : PortId) (g : Group) (h : PktHdr) (data : List Byte) (s : State) : State :=
  match instOf g h.gseq.toNat with
  | some e =>
    if pieceMatches e h then landPiece p port.1 g h data s
    else detect h.src 0 0x04 p.1 (abortTask p { code := 0x27, src := 0x100 + port.1 } false s)
  | none => updGroup p g.gid (fun g => { g with waiting := g.waiting ++ [(port.1, h, data)] }) s

/-- The credit for a member returns. -/
def creditReturned (p : PartId) (g : Group) (h : PktHdr) (s : State) : State := updGroup p g.gid (setCredit h.src (creditOf g h.src + 1)) s

/-- An acknowledgement of the running task: credit returns, and the repetition that waits for it completes. -/
def ackTaken (p : PartId) (g : Group) (h : PktHdr) (s : State) : State :=
  match ackedOp s p g h with
  | none => creditReturned p g h s
  | some q => meetStep p g.gid h.step.toNat (opDone p q.1 q.2.1 q.2.2 (creditReturned p g h s))

section
variable {h : PktHdr} {g : Group} {s : State} (inside : h.dpart.toNat < 64) (on : linksOn s = true)
  (group : groupOfGid (s.part (pid h.dpart.toNat)) h.group.toNat = some g)
include inside on group

/-- With no task, a piece is discarded, and an acknowledgement has no effect. -/
theorem exec_piece_ack_noTask (idle : (s.part (pid h.dpart.toNat)).task = none) (port : PortId) (data : List Byte) :
    exec (.piece port h data) s = .next (discardPiece (pid h.dpart.toNat) 1 h s) ∧ exec (.ack port h) s = .next s := by
  have arrives : ¬ (!linksOn s || decide (64 ≤ h.dpart.toNat)) = true := by simp [on]; omega
  have piece : exec (.piece port h data) s = execPiece port h data s := rfl
  have ack : exec (.ack port h) s = execAck port h s := rfl
  rw [execPiece, if_neg arrives] at piece
  rw [execAck, if_neg arrives] at ack
  simp only [group, idle] at piece ack
  exact ⟨piece, ack⟩

variable {t : Task} (task : (s.part (pid h.dpart.toNat)).task = some t)
include task

theorem exec_piece (port : PortId) (data : List Byte) : exec (.piece port h data) s = .next (
    if h.task.toNat ≠ t.num ∨ !t.live then discardPiece (pid h.dpart.toNat) 1 h s
    else if !g.members.contains h.src then discardPiece (pid h.dpart.toNat) 2 h s
    else pieceTaken (pid h.dpart.toNat) port g h data s) := by
  have run : exec (.piece port h data) s = execPiece port h data s := rfl
  rw [run, execPiece, if_neg (by simp [on]; omega)]
  simp only [group, task]
  rfl

theorem exec_ack (port : PortId) :
    exec (.ack port h) s = .next (if t.num ≠ h.task.toNat then s else ackTaken (pid h.dpart.toNat) g h s) := by
  have run : exec (.ack port h) s = execAck port h s := rfl
  rw [run, execAck, if_neg (by simp [on]; omega)]
  simp only [group, task]
  rfl

end

/-- Settles O31: a piece by the order of its checks, an acknowledgement by the repetition that it completes. -/
theorem pieces : Obligations.Pieces := by
  unfold Obligations.Pieces
  intro port h data g s inside p
  refine ⟨fun off => exec_piece_ack_off off port h data, fun on group => ⟨fun t task => ?task,
    fun idle => exec_piece_ack_noTask inside on group idle port data⟩⟩
  case task =>
    have piece := exec_piece inside on group task port data
    have ack := exec_ack inside on group task port
    refine ⟨fun mine live => ?running, fun other => by rw [piece, if_pos (by simpa using other)], fun mine => ?acks,
      fun other => by rw [ack, if_pos other.symm]⟩
    case running =>
      rw [if_neg (by simp [mine, live])] at piece
      refine ⟨fun member => ?member, fun outside => by rw [piece, if_pos (by simpa using outside)]⟩
      case member =>
        rw [if_neg (by simpa using member)] at piece
        refine ⟨fun e inst agrees => ?agrees, fun e inst differs => ?differs, fun closed => ?waits⟩
        case agrees => rw [piece, pieceTaken, inst]; exact congrArg _ (if_pos agrees)
        case differs => rw [piece, pieceTaken, inst]; exact congrArg _ (if_neg (by simp [differs]))
        case waits => rw [piece, pieceTaken, closed]
    case acks =>
      rw [if_neg (not_not.2 mine.symm)] at ack
      exact ⟨fun none_ => by rw [ack, ackTaken, none_]; rfl, fun i k o oldest => by rw [ack, ackTaken, oldest]; rfl⟩

end Sys2Proof.Machine
end

section
/-! PROOF. O32, local tiles and triggered operations. The statement fails at one clause, the tile counter of a local tile (R284), on a
partition whose store of trigger counters lists one key twice: the model removes the counter that wraps to 0, and then reads the second
entry of its key. No run from reset lists a key twice, for a task starts with the store empty and a write keeps rising keys rising (`sorted_mapInsert`,
`sorted_mapErase`); the statement, however, is of every state, and asks for the canonical form of the exchange memory alone. -/

namespace Sys2Proof.Machine

/-- One tile of core 0 on its way to port 0, for an open group; trigger counter 0 of the port is listed with 2^32 - 1 and again with 1. -/
def twiceListed : State :=
  updPart 0 (fun x => { x with
    section_ := some {}, tiles := [(0, 0, 0, [])], groups := [{ gid := 0 }], ctrs := [(0, 2 ^ 32 - 1), (0, 1)] }) State.reset

/-- The tile lands, for exchange descriptor 0. -/
def tileLands : Instr := .localTileLand 0 0 0 0 0

/-- The counter of 2^32 - 1 goes, and the entry behind it is read. -/
theorem tileLands_ctrOf : ctrOf ((after (exec tileLands) twiceListed).part 0) 0 0 = 1 := by decide +kernel

/-- Refutes O32: where a tile lands on a counter of 2^32 - 1, the statement asks for a counter of 0; with the key listed twice it reads 1. -/
theorem not_tilesAndTriggers : ¬ Obligations.TilesAndTriggers := by
  unfold Obligations.TilesAndTriggers
  intro h
  have tile : takeTile (0, 0, 0) (twiceListed.part 0).tiles = some ([], []) := by decide +kernel
  have group : groupOfGid (twiceListed.part 0) (exchAt (twiceListed.core 0).dstore 0 0).gid = some { gid := 0 } := by decide +kernel
  obtain ⟨t, run, -, -, -, asked, -⟩ := (h.1 0 0 0 0 0 twiceListed).1 [] [] {} { gid := 0 } tile rfl group
  have ran : after (exec tileLands) twiceListed = t := by rw [after, show exec tileLands twiceListed = .next t from run]
  have counter : (exchAt (twiceListed.core 0).dstore 0 0).tctr = 0 := by decide +kernel
  have before : ctrOf (twiceListed.part 0) 0 0 = 2 ^ 32 - 1 := by decide +kernel
  have wraps : ctrOf (t.part 0) 0 0 = (ctrOf (twiceListed.part 0) 0 0 + 1) % 2 ^ 32 := counter ▸ asked
  rw [← ran, tileLands_ctrOf, before] at wraps
  exact absurd wraps (by decide)

end Sys2Proof.Machine
end

section
/-! PROOF. O33, what members of a partition tell each other (R280, R295, R317, R323, R414). -/

namespace Sys2Proof.Machine

/-! ### Reports and checks (R280, R323, R414) -/

/-- In P3 and P4 no message of another member arrives (R435). -/
theorem exec_memberMessage_off {s : State} (off : linksOn s = false) (p : PartId) (src : DevAddr) (a b c d gid : Byte) (task check : W32) (start : W64)
    (entries : List LenEntry) (epochs : List W16) :
    ∀ i ∈ ([.stateReport p src a b c d, .taskPrepared p src task, .groupCheck p gid src check d, .taskStartMessage p task start entries epochs]
      : List Instr), exec i s = .next s := by
  have report : exec (.stateReport p src a b c d) s = execStateReport p src a b c d s := rfl
  have prepared : exec (.taskPrepared p src task) s = execTaskPrepared p src task s := rfl
  have checked : exec (.groupCheck p gid src check d) s = execGroupCheck p gid src check d s := rfl
  have starts : exec (.taskStartMessage p task start entries epochs) s = execTaskStartMessage p task start entries epochs s := rfl
  rw [execStateReport, off] at report
  rw [execTaskPrepared, off] at prepared
  rw [execGroupCheck, off] at checked
  rw [execTaskStartMessage, off] at starts
  simp only [List.forall_mem_cons]
  exact ⟨report, prepared, checked, starts, List.forall_mem_nil _⟩

/-- A task with a member noted that has prepared it. -/
def notePrepared (src : DevAddr) (task : W32) (t : Task) : Task :=
  if t.num = task.toNat ∧ t.prepared.contains src = false then { t with prepared := src :: t.prepared } else t

section
variable {p : PartId} {gid : Byte} {s : State} (on : linksOn s = true) (src : DevAddr)
include on

theorem exec_stateReport (a b c d : Byte) : exec (.stateReport p src a b c d) s = .next (updPart p (fun x => { x with
    reports := x.reports.filter (fun r => !sameDev r.src src)
      ++ [{ src, tstate := a.toNat, pstate := b.toNat, service := c.toNat, sstate := d.toNat, tick := s.tick.now }] }) s) := by
  have run : exec (.stateReport p src a b c d) s = execStateReport p src a b c d s := rfl
  rw [run, execStateReport, on]
  rfl

theorem exec_taskPrepared (task : W32) : exec (.taskPrepared p src task) s = .next (updPart p (fun x => { x with
    task := x.task.map (notePrepared src task), doneTasks := x.doneTasks.map (notePrepared src task) }) s) := by
  have run : exec (.taskPrepared p src task) s = execTaskPrepared p src task s := rfl
  have note : (fun t : Task => if t.num = task.toNat ∧ !t.prepared.contains src then { t with prepared := src :: t.prepared } else t)
      = notePrepared src task := by
    funext t
    exact if_congr (and_congr_right' (by rw [Bool.not_eq_true'])) rfl rfl
  rw [run, execTaskPrepared, on, note]
  rfl

variable (check : W32) (sstate : Byte)

theorem exec_groupCheck_early (noGroup : groupOfGid (s.part p) gid.toNat = none) : exec (.groupCheck p gid src check sstate) s
    = .next (updPart p (fun x => { x with
        checks := (gid.toNat, src, check, sstate.toNat) :: x.checks.filter (fun c => !(c.1 == gid.toNat && sameDev c.2.1 src)) }) s) := by
  have run : exec (.groupCheck p gid src check sstate) s = execGroupCheck p gid src check sstate s := rfl
  rw [run, execGroupCheck, on, noGroup]
  rfl

theorem exec_groupCheck {g : Group} (group : groupOfGid (s.part p) gid.toNat = some g) : exec (.groupCheck p gid src check sstate) s = .next (
    if !g.members.contains src then s
    else if g.check ≠ check ∨ sstate.toNat ≠ s.sec.state then updGroup p gid.toNat (fun g => { g with usable := false }) s
    else s) := by
  have run : exec (.groupCheck p gid src check sstate) s = execGroupCheck p gid src check sstate s := rfl
  rw [run, execGroupCheck, on, group]
  rfl

end

/-! ### Notices (R295, R323) -/

theorem exec_notice_off {s : State} (off : linksOn s = false) (h : PktHdr) : exec (.notice h) s = .next s := by
  have run : exec (.notice h) s = execNotice h s := rfl
  rw [run, execNotice, off]
  rfl

/-- The record of a notice. -/
def noticeNoted (h : PktHdr) (s : State) : State := logR 2 2 1 0xFFFF (pid h.dpart.toNat).1 [h.task.toNat, h.addr.toNat % 256] s

section
variable {h : PktHdr} {s : State} (inside : h.dpart.toNat < 64) (on : linksOn s = true)
include inside on

theorem exec_notice_other (no24 : h.addr ≠ 0x24) (no27 : h.addr ≠ 0x27) : exec (.notice h) s = .next (noticeNoted h s) := by
  have run : exec (.notice h) s = execNotice h s := rfl
  have code : noticeCode h = none := if_neg (not_or.2 ⟨no27, no24⟩)
  rw [run, execNotice, if_neg (by simp [on]; omega)]
  simp only [code]
  rfl

variable (coded : h.addr = 0x24 ∨ h.addr = 0x27)
include coded

theorem exec_notice_current {t : Task} (task : (s.part (pid h.dpart.toNat)).task = some t) (num : t.num = h.task.toNat) : exec (.notice h) s
    = .next (if t.window.isSome || t.live then abortTask (pid h.dpart.toNat) { code := BitVec.ofNat 8 h.addr.toNat, src := 0xFFFF } false s
      else noticeNoted h s) := by
  have run : exec (.notice h) s = execNotice h s := rfl
  have code : noticeCode h = some (BitVec.ofNat 8 h.addr.toNat) := if_pos coded.symm
  rw [run, execNotice, if_neg (by simp [on]; omega)]
  simp only [code, task, Option.filter, num, BEq.rfl, if_true]
  rfl

variable (other : ∀ t, (s.part (pid h.dpart.toNat)).task = some t → t.num ≠ h.task.toNat)
include other

theorem exec_notice_ended {t : Task} (done : (s.part (pid h.dpart.toNat)).doneTasks.find? (fun t => t.num == h.task.toNat) = some t) :
    exec (.notice h) s = .next (failRequests (pid h.dpart.toNat) { t with noticed := true } (BitVec.ofNat 8 h.addr.toNat) [] false
      (updPart (pid h.dpart.toNat) (fun x => { x with doneTasks := x.doneTasks.filter (fun q => q.num != t.num) }) (noticeNoted h s))) := by
  have run : exec (.notice h) s = execNotice h s := rfl
  have code : noticeCode h = some (BitVec.ofNat 8 h.addr.toNat) := if_pos coded.symm
  have noTask : (s.part (pid h.dpart.toNat)).task.filter (fun t => t.num == h.task.toNat) = none :=
    Option.filter_eq_none_iff.2 fun t task => by simpa using other t task
  rw [run, execNotice, if_neg (by simp [on]; omega)]
  simp only [code, noTask, done]
  rfl

theorem exec_notice_unknown (unknown : ∀ t ∈ (s.part (pid h.dpart.toNat)).doneTasks, t.num ≠ h.task.toNat) :
    exec (.notice h) s = .next (noticeNoted h s) := by
  have run : exec (.notice h) s = execNotice h s := rfl
  have code : noticeCode h = some (BitVec.ofNat 8 h.addr.toNat) := if_pos coded.symm
  have noTask : (s.part (pid h.dpart.toNat)).task.filter (fun t => t.num == h.task.toNat) = none :=
    Option.filter_eq_none_iff.2 fun t task => by simpa using other t task
  have notDone : (s.part (pid h.dpart.toNat)).doneTasks.find? (fun t => t.num == h.task.toNat) = none :=
    List.find?_eq_none.2 fun t member => by simpa using unknown t member
  rw [run, execNotice, if_neg (by simp [on]; omega)]
  simp only [code, noTask, notDone]
  rfl

end

/-! ### Runs of the near pool (R341) -/

theorem isFar_ofNat (a : Nat) : isFar (BitVec.ofNat 64 a).toNat = isFar a := by
  rw [isFar, isFar, bit, bit, BitVec.toNat_ofNat, Nat.testBit_mod_two_pow]
  rfl

theorem isFar_of_mayPlace {s : State} {far : Bool} {cls : Nat} {mine : Region → Bool} {used : List (Nat × Nat)} {n a : Nat}
    (may : mayPlace s far cls mine used n a = true) : isFar a = far := by
  simp only [mayPlace, Bool.and_eq_true, List.any_eq_true, beq_iff_eq] at may
  obtain ⟨⟨r, -, ⟨-, tier⟩, -⟩, -⟩ := may
  exact tier

/-- A near allocation gives a near address. -/
theorem allocBase_near (cls : Nat) (mine : Region → Bool) (taken : List (Nat × Nat)) (n : Nat) (s : State) (b : W64)
    (given : (allocBase false cls mine taken n s).1 = some b) : isFar b.toNat = false := by
  unfold allocBase at given
  simp only [Bool.false_eq_true, if_false] at given
  split at given
  case isTrue may => exact Option.some.inj given ▸ isFar_of_mayPlace may
  case isFalse =>
    obtain ⟨a, found, rfl⟩ := Option.map_eq_some_iff.1 given
    rw [isFar_ofNat]
    exact isFar_of_mayPlace (List.find?_some found)

theorem allocRuns_near (p : PartId) (l : List Nat) (taken : List (Nat × Nat)) (s : State) {places : List W64}
    (given : (allocRuns p l taken s).1 = some places) : ∀ a ∈ places, isFar a.toNat = false := by
  induction l generalizing taken s places with
  | nil => cases given; exact List.forall_mem_nil _
  | cons n l ih =>
    have near := allocBase_near 5 (fun g => g.part == p.1) taken n s
    unfold allocRuns at given
    generalize allocBase false 5 (fun g => g.part == p.1) taken n s = first at near given
    obtain ⟨_ | a, u⟩ := first
    · cases given
    · obtain ⟨rest, found, rfl⟩ := Option.map_eq_some_iff.1 given
      exact List.forall_mem_cons.2 ⟨near a rfl, ih _ _ found⟩

/-! ### The tables that a follower makes (R317, R341) -/

/-- A new table of a sequence: one extent of its own from `base` on, for all its positions. -/
def newTable (m : ModelCfg) (gb : Nat) (e : LenEntry) (base at_ : W64) : XTable :=
  { idx := e.xtab.toNat, addr := at_, length := e.qpos.toNat, gbytes := gb
    copyA := [{ base, len := BitVec.ofNat 16 ((e.qpos.toNat + e.qlen.toNat + 63) / 64), fmt := extFmt m.form
                flags := 0, gen := 0, region := 0xFFFFFFFF }] }

/-- The sizes of the runs that a new table takes: its block groups, and itself. -/
def tableRuns (gb : Nat) (e : LenEntry) : List Nat := [(e.qpos.toNat + e.qlen.toNat + 63) / 64 * gb, 4288]

/-- A table enters a partition, in a run that is cleared, and its bytes are stored. -/
def placeTable (p : PartId) (n : Nat) (base : W64) (x : XTable) (s : State) : State :=
  storeTable p x.idx (updPart p (fun y => { y with xtabs := y.xtabs ++ [x] }) (clearRun base.toNat n s))

/-- A follower's table of a sequence, where it has none and its pool has room. -/
def ensureTable (p : PartId) (m : ModelCfg) (gb : Nat) (e : LenEntry) (s : State) : State :=
  if (s.part p).xtabs.any (fun t => t.idx == e.xtab.toNat) then s
  else match allocRuns p (tableRuns gb e) [] s with
    | (some [base, at_], s) => placeTable p ((e.qpos.toNat + e.qlen.toNat + 63) / 64 * gb) base (newTable m gb e base at_) s
    | _ => s

/-- The model that a follower's partition serves. -/
def followedModel (s : State) (cfg : PCfg) : ModelCfg := (cfg.wstok.head?.bind (fun w => s.img.models.find? (fun m => m.idx == w.1))).getD {}

/-- The task that a follower queues for its lead's, with the entries as this device holds them. -/
def followerTask (cfg : PCfg) (task : W32) (start : W64) (entries : List LenEntry) (epochs : List W16) : Task :=
  { num := task.toNat, start := start.toNat
    shape := ((fitShape cfg (entries.map (fun e => e.qlen.toNat)).sum (entries.map (fun e => e.qlen.toNat * (e.qpos.toNat + e.qlen.toNat))).sum).map
      (fun h => h.idx)).getD 0
    entries := (entries.zip (epochs.map (fun w => w.toNat) ++ List.replicate entries.length 0)).map (fun e => { len := e.1, reqid := BitVec.ofNat 64 e.2 })
    follower := true }

/-- Every entry of a follower's task is there, whatever epochs came with it. -/
theorem followerTask_entries (cfg : PCfg) (task : W32) (start : W64) (entries : List LenEntry) (epochs : List W16) :
    (followerTask cfg task start entries epochs).entries.map TEntry.len = entries := by
  have lens : (TEntry.len ∘ fun e : LenEntry × Nat => { len := e.1, reqid := BitVec.ofNat 64 e.2 }) = Prod.fst := rfl
  rw [followerTask, List.map_map, lens]
  exact List.map_fst_zip (by simp)

/-- Entries as this device holds them, and their tables. -/
def tablesEnsured (p : PartId) (cfg : PCfg) (entries : List LenEntry) (s : State) : State :=
  forAll (entries.map (localEntry s (followedModel s cfg))) (ensureTable p (followedModel s cfg) (groupBytes s (followedModel s cfg) false)) s

theorem exec_taskStartMessage {p : PartId} {cfg : PCfg} {s : State} (on : linksOn s = true) (config : (s.part p).section_ = some cfg)
    (follows : cfg.span = 2) (task : W32) (start : W64) (entries : List LenEntry) (epochs : List W16) :
    exec (.taskStartMessage p task start entries epochs) s = .next (if start.toNat < s.tick.now then s
      else updPart p (fun x => { x with
          lastTask := task.toNat
          queue := x.queue ++ [followerTask cfg task start (entries.map (localEntry s (followedModel s cfg))) epochs] })
        (tablesEnsured p cfg entries s)) := by
  have run : exec (.taskStartMessage p task start entries epochs) s = execTaskStartMessage p task start entries epochs s := rfl
  rw [run, execTaskStartMessage, on, config]
  simp only [Bool.not_true, Bool.false_eq_true, if_false, follows, ne_eq, not_true, false_or]
  rfl

/-- The state with one more table in a partition; `near` is what near memory then holds, and `n` free values have been taken. -/
def withTable (p : PartId) (x : XTable) (near : SMap Byte) (n : Nat) (s : State) : State :=
  { updPart p (fun y => { y with xtabs := y.xtabs ++ [x] }) s with mem := { s.mem with near := near }, freeCtr := n }

theorem withTable_part_self (p : PartId) (x : XTable) (near : SMap Byte) (n : Nat) (s : State) :
    (withTable p x near n s).part p = { s.part p with xtabs := (s.part p).xtabs ++ [x] } :=
  updPart_part_self p (fun y => { y with xtabs := y.xtabs ++ [x] }) s

theorem withTable_part_other {p q : PartId} (other : q ≠ p) (x : XTable) (near : SMap Byte) (n : Nat) (s : State) :
    (withTable p x near n s).part q = s.part q :=
  (updPart_part p (fun y => { y with xtabs := y.xtabs ++ [x] }) s q).trans (if_neg other)

/-- A new table is the one that its index names. -/
theorem xtAt_appended {y : Part} {x : XTable} (new : ∀ z ∈ y.xtabs, z.idx ≠ x.idx) : xtAt { y with xtabs := y.xtabs ++ [x] } x.idx = some x := by
  have older : y.xtabs.find? (fun t => t.idx == x.idx) = none := List.find?_eq_none.2 fun z member => by simpa using new z member
  rw [xtAt, List.find?_append, older, Option.none_or, List.find?_singleton, if_pos BEq.rfl]

/-- A new table at a near address changes near memory and its partition's tables alone. -/
theorem placeTable_near {p : PartId} {x : XTable} {s : State} (new : ∀ y ∈ (s.part p).xtabs, y.idx ≠ x.idx) (near : isFar x.addr.toNat = false)
    (n : Nat) (base : W64) : ∃ store, placeTable p n base x s = withTable p x store s.freeCtr s := by
  have found : xtAt ((updPart p (fun y => { y with xtabs := y.xtabs ++ [x] }) (clearRun base.toNat n s)).part p) x.idx = some x := by
    rw [updPart_part_self]
    exact xtAt_appended new
  rw [placeTable, storeTable, found]
  dsimp only
  rw [tierWrite_near near]
  exact ⟨_, rfl⟩

/-- A sequence without a table gets one where its runs find room. -/
theorem ensureTable_room {p : PartId} {gb : Nat} {e : LenEntry} {s : State} (m : ModelCfg) (new : ∀ y ∈ (s.part p).xtabs, y.idx ≠ e.xtab.toNat)
    {base at_ : W64} (room : (allocRuns p (tableRuns gb e) [] s).1 = some [base, at_]) :
    ∃ store n, ensureTable p m gb e s = withTable p (newTable m gb e base at_) store n s := by
  have near : isFar at_.toNat = false := allocRuns_near _ _ _ _ room at_ (by simp)
  obtain ⟨n, free⟩ := allocRuns_free p (tableRuns gb e) [] s
  have given : allocRuns p (tableRuns gb e) [] s = (some [base, at_], { s with freeCtr := n }) := Prod.ext room free
  obtain ⟨store, placed⟩ := placeTable_near (x := newTable m gb e base at_) (s := { s with freeCtr := n }) new near
    ((e.qpos.toNat + e.qlen.toNat + 63) / 64 * gb) base
  refine ⟨store, n, ?_⟩
  rw [ensureTable, if_neg (by simpa using new), given]
  exact placed

theorem ensureTable_cases (p : PartId) (m : ModelCfg) (gb : Nat) (e : LenEntry) (s : State) : ensureTable p m gb e s = s
    ∨ ∃ base at_ store n, ensureTable p m gb e s = withTable p (newTable m gb e base at_) store n s := by
  by_cases held : (s.part p).xtabs.any (fun t => t.idx == e.xtab.toNat) = true
  · exact .inl (if_pos held)
  · by_cases room : ∃ base at_, (allocRuns p (tableRuns gb e) [] s).1 = some [base, at_]
    · obtain ⟨base, at_, room⟩ := room
      exact .inr ⟨base, at_, ensureTable_room m (by simpa using held) room⟩
    · left
      rw [ensureTable, if_neg held]
      split
      next base at_ _ given => exact absurd ⟨base, at_, by rw [given]⟩ room
      next => rfl

/-- A partition has got tables, one for each of some of the entries, and nothing else differs but near memory and the free values taken. -/
structure TablesAdded (p : PartId) (entries : List LenEntry) (s u : State) : Prop where
  frame : u = { s with parts := u.parts, mem := { s.mem with near := u.mem.near }, freeCtr := u.freeCtr }
  others : ∀ q, q ≠ p → u.part q = s.part q
  added : ∃ l, u.part p = { s.part p with xtabs := (s.part p).xtabs ++ l }
    ∧ ∀ x ∈ l, ∃ e ∈ entries, x.idx = e.xtab.toNat ∧ x.length = e.qpos.toNat

theorem TablesAdded.refl (p : PartId) (entries : List LenEntry) (s : State) : TablesAdded p entries s s :=
  ⟨rfl, fun _ _ => rfl, [], by rw [List.append_nil], List.forall_mem_nil _⟩

theorem TablesAdded.withTable {p : PartId} {entries : List LenEntry} {s u : State} (h : TablesAdded p entries s u) {e : LenEntry} (member : e ∈ entries)
    (m : ModelCfg) (gb : Nat) (base at_ : W64) (near : SMap Byte) (n : Nat) :
    TablesAdded p entries s (withTable p (newTable m gb e base at_) near n u) := by
  obtain ⟨l, part, origins⟩ := h.added
  refine ⟨?frame, fun q other => ?others, l ++ [newTable m gb e base at_], ?part, List.forall_mem_append.2 ⟨origins, ?new⟩⟩
  case frame => rw [h.frame]; rfl
  case others => exact (withTable_part_other other ..).trans (h.others q other)
  case part => rw [withTable_part_self, part, List.append_assoc]
  case new => exact List.forall_mem_singleton.2 ⟨e, member, rfl, rfl⟩

theorem tablesEnsured_added (p : PartId) (cfg : PCfg) (entries : List LenEntry) (s : State) :
    TablesAdded p (entries.map (localEntry s (followedModel s cfg))) s (tablesEnsured p cfg entries s) := by
  refine forAll_keep _ _ _ _ (fun e member t h => ?_) (TablesAdded.refl ..)
  obtain same | ⟨base, at_, store, n, placed⟩ := ensureTable_cases p (followedModel s cfg) (groupBytes s (followedModel s cfg) false) e t
  · rw [same]; exact h
  · rw [placed]; exact h.withTable member ..

/-- The one entry of a task gets a table where it has none and its runs find room. -/
theorem tablesEnsured_one {p : PartId} {cfg : PCfg} {e : LenEntry} {s : State} (new : ∀ y ∈ (s.part p).xtabs, y.idx ≠ e.xtab.toNat) {base at_ : W64}
    (room : (allocRuns p (tableRuns (groupBytes s (followedModel s cfg) false) (localEntry s (followedModel s cfg) e)) [] s).1 = some [base, at_]) :
    ((tablesEnsured p cfg [e] s).part p).xtabs = (s.part p).xtabs
      ++ [newTable (followedModel s cfg) (groupBytes s (followedModel s cfg) false) (localEntry s (followedModel s cfg) e) base at_] := by
  obtain ⟨store, n, placed⟩ := ensureTable_room (e := localEntry s (followedModel s cfg) e) (followedModel s cfg) new room
  have one : tablesEnsured p cfg [e] s
      = ensureTable p (followedModel s cfg) (groupBytes s (followedModel s cfg) false) (localEntry s (followedModel s cfg) e) s := rfl
  rw [one, placed, withTable_part_self]

/-- Settles O33: each message by its own equation, a notice by its code and the task that it names, a task start by the tables that it adds. -/
theorem memberMessages : Obligations.MemberMessages := by
  unfold Obligations.MemberMessages
  intro p src a b c d gid task check start entries epochs s note
  refine ⟨fun off => exec_memberMessage_off off p src a b c d gid task check start entries epochs, fun off h => exec_notice_off off h, fun on =>
    ⟨exec_stateReport on src a b c d, exec_taskPrepared on src task, exec_groupCheck_early on src check d, fun g group => ?check,
      fun cfg config follows => ?start, fun h inside => ?notice⟩⟩
  case check =>
    have run := exec_groupCheck on src check d group
    refine ⟨fun member differs => ?differs, fun agrees => ?agrees⟩
    case differs => rw [run, if_neg (by simpa using member), if_pos differs]
    case agrees =>
      by_cases member : src ∈ g.members
      · obtain ⟨same, secure⟩ := agrees.resolve_left (not_not.2 member)
        rw [run, if_neg (by simpa using member), if_neg (by simp [same, secure])]
      · rw [run, if_pos (by simpa using member)]
  case start =>
    intro m
    have run := exec_taskStartMessage on config follows task start entries epochs
    refine ⟨fun inTime => ?queues, fun late => by rw [run, if_pos late]⟩
    case queues =>
      rw [if_neg (Nat.not_lt.2 inTime)] at run
      obtain ⟨frame, others, l, part, origins⟩ := tablesEnsured_added p cfg entries s
      refine ⟨_, run, ?frame, fun q other => ?others, ?last, fun x old => ?kept, fun x member => ?origin, fun e base at_ one new room => ?table,
        followerTask cfg task start (entries.map (localEntry s m)) epochs, ?queue, rfl, rfl, rfl, followerTask_entries ..⟩
      case frame => rw [frame]; rfl
      case others => rw [updPart_part, if_neg other]; exact others q other
      case last => rw [updPart_part_self]
      case kept => rw [updPart_part_self, part]; exact List.mem_append_left _ old
      case origin =>
        rw [updPart_part_self, part] at member
        refine (List.mem_append.1 member).imp_right fun new => ?_
        obtain ⟨f, mapped, idx, length⟩ := origins x new
        obtain ⟨e, entry, rfl⟩ := List.mem_map.1 mapped
        exact ⟨e, entry, idx, length⟩
      case table =>
        subst one
        rw [updPart_part_self]
        exact tablesEnsured_one new room
      case queue => rw [updPart_part_self, part]; rfl
  case notice =>
    intro q code recorded
    refine ⟨fun coded => ⟨fun t current num runs => ?runs, fun t current num ended closed => ?noted, fun other =>
      ⟨fun t done => exec_notice_ended inside on coded other done, fun unknown => exec_notice_unknown inside on coded other unknown⟩⟩,
      exec_notice_other inside on, fun room => logR_room room ..⟩
    case runs =>
      rw [exec_notice_current inside on coded current num, if_pos (by rw [Bool.or_eq_true]; exact runs.symm)]
    case noted => rw [exec_notice_current inside on coded current num, if_neg (by simp [ended, closed])]; rfl

end Sys2Proof.Machine
end

section
/-! PROOF. O39, the doorbells and the cancel of a request (R303, R305, R306, R321, R322, R416, R470). -/

namespace Sys2Proof.Machine

/-! ### Heads (R470) -/

/-- A head value beyond the ring's slots releases nothing. -/
theorem headMove_outside {v size : Nat} (outside : size ≤ v) (rel written : Nat) : headMove v rel written size = none :=
  if_pos (.inl outside)

/-- The distance from the head to a slot of the ring is the one below the ring's size. -/
theorem ring_distance {v rel size d : Nat} (slot : v = (rel + d) % size) (inRing : d < size) : (v + size - rel % size) % size = d := by
  have below : rel % size < size := Nat.mod_lt _ (Nat.zero_lt_of_lt inRing)
  have value : v = (rel % size + d) % size := by rw [slot, Nat.mod_add_mod]
  obtain short | wraps := Nat.lt_or_ge (rel % size + d) size
  · rw [value, Nat.mod_eq_of_lt short, show rel % size + d + size - rel % size = d + size by omega, Nat.add_mod_right, Nat.mod_eq_of_lt inRing]
  · have wrapped : (rel % size + d) % size = rel % size + d - size := by rw [Nat.mod_eq_sub_mod wraps, Nat.mod_eq_of_lt (by omega)]
    rw [value, wrapped, Nat.sub_add_cancel wraps, Nat.add_sub_cancel_left, Nat.mod_eq_of_lt inRing]

/-- A head value in the ring releases the slots up to it, where as many records are written. -/
theorem headMove_slot {v rel size d : Nat} (slot : v = (rel + d) % size) (inRing : d < size) (written : Nat) :
    headMove v rel written size = if written < rel + d then none else some d := by
  have inside : ¬ size ≤ v := Nat.not_le.2 (slot ▸ Nat.mod_lt _ (Nat.zero_lt_of_lt inRing))
  simp only [headMove, ring_distance slot inRing, inside, false_or]

/-! ### The doorbells by power state (R416, R470) -/

/-- A write of one of the four doorbells of `f` (R470). -/
def IsBell (f : FuncId) (v reqid : W64) (b : Bool) (i : Instr) : Prop :=
  i = .sqTail f v b ∨ i = .cqHead f v b ∨ i = .jqHead f v b ∨ i = .cancel f reqid b

section
variable {f : FuncId} {v reqid : W64} {b : Bool} {i : Instr} {s : State}

theorem awake_iff (s : State) : awake s = true ↔ s.pwr.state ≠ .p4 := by simp [awake]

theorem awake_of_p3 (p3 : s.pwr.state = .p3) : awake s = true := by simp [awake, p3]

theorem exec_bell_asleep (asleep : awake s = false) (bell : IsBell f v reqid b i) : exec i s = .next s := by
  have off : (!awake s) = true := by rw [asleep]; rfl
  obtain rfl | rfl | rfl | rfl := bell
  all_goals exact congrArg Host.Outcome.next (if_pos off)

/-- Other than one 64-bit access, a doorbell write is ignored and counted. -/
theorem exec_bell_narrow (on : awake s = true) (bell : IsBell f v reqid false i) : exec i s = .next (ignoreBell f s) := by
  have up : ¬ (!awake s) = true := by rw [on]; decide
  obtain rfl | rfl | rfl | rfl := bell
  all_goals exact congrArg Host.Outcome.next (if_neg up)

/-! ### SQ_TAIL, CQ_HEAD, JQ_HEAD (R303, R305, R306) -/

/-- The submission tail of `f` taken modulo its ring. -/
def tailTaken (f : FuncId) (v : W64) (s : State) : State := updFunc f (fun g => { g with sqTail := v.toNat % 2 ^ g.sqLog }) s

/-- A write of SQ_TAIL of `f` is ignored: its rings are not enabled, its partition is unconfigured, or it is PF0 and does not own the device. -/
def TailIgnored (f : FuncId) (s : State) : Prop :=
  (s.func f).en = false ∨ (s.part (partOfFunc s f)).state = .unconfigured ∨ f = 0 ∧ isOwner s .pf0 = false

theorem exec_sqTail_ignored (on : awake s = true) (ignored : TailIgnored f s) : exec (.sqTail f v true) s = .next (ignoreBell f s) := by
  have run : exec (.sqTail f v true) s = execSqTail f v true s := rfl
  rw [run, execSqTail, if_neg (by simp [on]), if_pos]
  obtain disabled | unconfigured | ⟨rfl, other⟩ := ignored
  · simp [disabled]
  · simp [unconfigured]
  · simp [other]

theorem exec_sqTail_taken (on : awake s = true) (acts : ¬ TailIgnored f s) : exec (.sqTail f v true) s = .next (noteBell (tailTaken f v s)) := by
  have run : exec (.sqTail f v true) s = execSqTail f v true s := rfl
  simp only [TailIgnored, not_or, not_and, Bool.not_eq_false] at acts
  obtain ⟨enabled, configured, owner⟩ := acts
  rw [run, execSqTail, if_neg (by simp [on]), if_neg]
  · rfl
  · by_cases pf0 : f = 0
    · simp [enabled, configured, owner pf0]
    · have notPf0 : f.1 ≠ 0 := fun h => pf0 (Fin.ext h)
      simp [enabled, configured, notPf0]

theorem noteBell_p3 (p3 : s.pwr.state = .p3) : noteBell s = updPwr (fun w => { w with wakeDue := true }) s := if_pos (decide_eq_true p3)

theorem noteBell_of_ne_p3 (on : s.pwr.state ≠ .p3) : noteBell s = s := if_neg (by simp [on])

theorem exec_cqHead (on : awake s = true) : exec (.cqHead f v true) s
    = .next ((headMove v.toNat (s.func f).cqRel (s.func f).cqTail (2 ^ (s.func f).cqLog)).elim (ignoreBell f s)
        (fun d => updFunc f (fun g => { g with cqRel := g.cqRel + d }) s)) := by
  have run : exec (.cqHead f v true) s = execCqHead f v true s := rfl
  rw [run, execCqHead, if_neg (by simp [on]), if_pos rfl]
  cases headMove v.toNat (s.func f).cqRel (s.func f).cqTail (2 ^ (s.func f).cqLog) <;> rfl

theorem exec_jqHead (on : awake s = true) : exec (.jqHead f v true) s
    = .next ((headMove v.toNat (s.func f).jqRel (s.func f).jqCount (2 ^ (s.func f).jqLog)).elim (ignoreBell f s)
        (fun d => updFunc f (fun g => { g with jqRel := g.jqRel + d }) s)) := by
  have run : exec (.jqHead f v true) s = execJqHead f v true s := rfl
  rw [run, execJqHead, if_neg (by simp [on]), if_pos rfl]
  cases headMove v.toNat (s.func f).jqRel (s.func f).jqCount (2 ^ (s.func f).jqLog) <;> rfl

/-! ### CANCEL (R321, R322) -/

/-- The cancel of a REQID is held by `f`, once. -/
def cancelHeld (f : FuncId) (id : W64) (s : State) : State :=
  if (s.func f).heldCancels.any (fun h => h.reqid == id) then s
  else updFunc f (fun g => { g with heldCancels := g.heldCancels ++ [{ reqid := id, tick := s.tick.now }] }) s

/-- The cancel of a request that waits: CANCELLED, behind the opening of its attempt, and 0x31 (R322). -/
def waitingCancelled (p : PartId) (r : Req) (s : State) : State :=
  let s1 := openAttempt p r (if r.state = .admitted then flagTask p r s else s)
  let q := reqNow s1 p r
  let u := updReq p q (fun q => { q with cancelled := true, cancelSent := true }) (controlSeg p q 4 q.epoch [q.segSent] s1)
  decideCode p (reqNow u p q) 0x31 u

/-- The cancel of a running request: its rows leave the task, and it takes 0x31 (R322). -/
def runningCancelled (p : PartId) (r : Req) (s : State) : State :=
  let u := updReq p r (fun q => { q with cancelled := true }) (flagTask p r s)
  let w := giveCode p (reqNow u p r) 0x31 u
  if r.desc.path = 3 then freeReq p (reqNow w p r) w else w

theorem exec_cancel_p3 (p3 : s.pwr.state = .p3) : exec (.cancel f reqid true) s
    = .next (noteBell (updFunc f (fun g => { g with p3cancels := g.p3cancels ++ [reqid] }) s)) := by
  have run : exec (.cancel f reqid true) s = execCancel f reqid true s := rfl
  rw [run, execCancel, if_neg (by simp [awake_of_p3 p3]), if_neg (by decide), if_pos p3]

theorem exec_cancel_event (on : awake s = true) (h3 : s.pwr.state ≠ .p3) : exec (.cancel f reqid true) s = .next (cancelEvent f reqid s) := by
  have run : exec (.cancel f reqid true) s = execCancel f reqid true s := rfl
  rw [run, execCancel, if_neg (by simp [on]), if_neg (by decide), if_neg h3]

theorem cancelEvent_unknown (unknown : findReq (s.part (partOfFunc s f)) f.1 reqid = none) : cancelEvent f reqid s = cancelHeld f reqid s := by
  simp only [cancelEvent, unknown]; rfl

section
variable {r : Req} (found : findReq (s.part (partOfFunc s f)) f.1 reqid = some r)
include found

theorem cancelEvent_coded (coded : r.code ≠ none) : cancelEvent f reqid s = cancelAns f reqid false s := by
  simp only [cancelEvent, found, Option.isSome_iff_ne_none.2 coded, if_true]

theorem cancelEvent_done (done : r.state = .committed ∨ r.state = .final) : cancelEvent f reqid s = cancelAns f reqid false s := by
  obtain committed | final := done
  · simp only [cancelEvent, found, committed, ite_self]
  · simp only [cancelEvent, found, final, ite_self]

theorem cancelEvent_reading (uncoded : r.code = none) (reading : r.state = .reading) : cancelEvent f reqid s = cancelHeld f reqid s := by
  simp only [cancelEvent, found, uncoded, reading]; rfl

theorem cancelEvent_waiting (uncoded : r.code = none) (waits : r.state = .pending ∨ r.state = .admitted) :
    cancelEvent f reqid s = waitingCancelled (partOfFunc s f) r s := by
  obtain pending | admitted := waits
  · simp only [cancelEvent, waitingCancelled, found, uncoded, pending, beq_iff_eq, Option.isSome_none, Bool.false_eq_true, if_false]
  · simp only [cancelEvent, waitingCancelled, found, uncoded, admitted, beq_iff_eq, Option.isSome_none, Bool.false_eq_true, if_false]

theorem cancelEvent_running (uncoded : r.code = none) (runs : r.state = .running) :
    cancelEvent f reqid s = runningCancelled (partOfFunc s f) r s := by
  simp only [cancelEvent, found, uncoded, runs]; rfl

end
end

/-! ### The statement -/

/-- Settles O39: each doorbell by the power state, a head by the slot that it names, a cancel by the state of its request. -/
theorem doorbells : Obligations.Doorbells := by
  unfold Obligations.Doorbells
  intro f v reqid s
  refine ⟨fun b => ⟨⟨_, rfl⟩, ⟨_, rfl⟩, ⟨_, rfl⟩, _, rfl⟩,
    fun b i bell p4 => exec_bell_asleep (by simp [awake, p4]) bell, fun h4 => ?_⟩
  have on := (awake_iff s).2 h4
  refine ⟨fun enabled configured owner => ?tail, exec_sqTail_ignored on, fun d slot inRing => ?completions, fun outside => ?beyondCq,
    fun d slot inRing => ?journal, fun outside => ?beyondJq, fun p3 => ?recorded, fun h3 => ?cancels, fun i => exec_bell_narrow on⟩
  case tail =>
    have taken : exec (.sqTail f v true) s = .next (noteBell (tailTaken f v s)) :=
      exec_sqTail_taken on (by simpa [TailIgnored, enabled, configured] using owner)
    exact ⟨fun h3 => taken.trans (congrArg _ (noteBell_of_ne_p3 h3)), fun p3 => taken.trans (congrArg _ (noteBell_p3 p3))⟩
  case completions =>
    refine ⟨fun written => ?_, fun unwritten => ?_⟩
    · rw [exec_cqHead on, headMove_slot slot inRing, if_neg (Nat.not_lt.2 written)]; rfl
    · rw [exec_cqHead on, headMove_slot slot inRing, if_pos unwritten]; rfl
  case beyondCq => rw [exec_cqHead on, headMove_outside outside]; rfl
  case journal =>
    refine ⟨fun written => ?_, fun unwritten => ?_⟩
    · rw [exec_jqHead on, headMove_slot slot inRing, if_neg (Nat.not_lt.2 written)]; rfl
    · rw [exec_jqHead on, headMove_slot slot inRing, if_pos unwritten]; rfl
  case beyondJq => rw [exec_jqHead on, headMove_outside outside]; rfl
  case recorded => exact (exec_cancel_p3 p3).trans (congrArg _ (noteBell_p3 p3))
  case cancels =>
    have event : exec (.cancel f reqid true) s = .next (cancelEvent f reqid s) := exec_cancel_event on h3
    refine ⟨fun unknown => event.trans (congrArg _ (cancelEvent_unknown unknown)), fun r found => ⟨?lost, fun uncoded reading => ?held,
      fun uncoded waits => ?waiting, fun uncoded runs => ?running⟩⟩
    case lost =>
      rintro (coded | done)
      · exact event.trans (congrArg _ (cancelEvent_coded found coded))
      · exact event.trans (congrArg _ (cancelEvent_done found done))
    case held => exact event.trans (congrArg _ (cancelEvent_reading found uncoded reading))
    case waiting => exact event.trans (congrArg _ (cancelEvent_waiting found uncoded waits))
    case running => exact event.trans (congrArg _ (cancelEvent_running found uncoded runs))

end Sys2Proof.Machine
end

section
/-! PROOF. O44, upkeep windows, owner copies, reload marks and BAR4 (R334, R343-R349, R370, R464). -/

namespace Sys2Proof.Machine

/-! ### A line that an access meets (R333, R349, R352) -/

@[simp] theorem memRecord_mem (a kind owner : Nat) (f : Finder) (s : State) : (memRecord a kind owner f s).mem = s.mem := by
  unfold memRecord
  rw [logR_frame]

@[simp] theorem alarm_mem (c : Fin 16) (s : State) : (alarm c s).mem = s.mem := by rw [alarm_frame]

theorem failChannel_ecc (c : Fin 16) (a : Nat) (f : Finder) (s : State) : (failChannel c a f s).mem.ecc = s.mem.ecc := by
  unfold failChannel
  split
  · rfl
  · rw [alarm_mem, memRecord_mem]; rfl

/-- An uncorrectable event counts against its channel and may fail it; ECC stays as it is. -/
theorem uncEvent_ecc (a : Nat) (f : Finder) (s : State) : (uncEvent a f s).mem.ecc = s.mem.ecc := by
  unfold uncEvent
  dsimp only
  split
  · exact failChannel_ecc ..
  · rfl

theorem badLine_good (o : Fin 8) (b : Nat) (s : State) : (badLine o b s).1 = !(s.mem.ecc || isFar b) := by
  cases h : s.mem.ecc || isFar b <;> simp [badLine, h]

/-- Where the access itself answers well, a failed channel alone makes a line bad (R352). -/
theorem lineBad_ok (s : State) (a : Nat) : lineBad s a .ok = (failedLine s a 64).any (fun b => s.mem.ecc || isFar b) := by
  unfold lineBad judgeRead
  cases failedLine s a 64 with
  | none => rfl
  | some b => simp only [badLine_good, uncEvent_ecc, memRecord_mem, Bool.not_not, Option.any_some]

theorem judgeRead_ok {s : State} {a n : Nat} (sound : runFailed s a n = false) (f : Finder) : judgeRead a n .ok f s = (true, s) := by
  have line : failedLine s a n = none := by simpa [runFailed] using sound
  simp only [judgeRead, line]

/-- What D pays fails no channel. -/
theorem runFailed_chargeD (i : Fin 7) (k : Nat) (s : State) (a n : Nat) : runFailed (chargeD i k s) a n = runFailed s a n := by
  simp only [runFailed, failedLine, onFailed, chargeD]

/-! ### Upkeep windows (R344-R347) -/

/-- The port's window is open and has not acted in this tick (R344). -/
def WindowDue (port : Fin 5) (start len : Nat) (s : State) : Prop :=
  memOn s = true ∧ start ≤ s.tick.phase ∧ s.tick.phase < start + len ∧ s.mem.winTick[port] ≠ some s.tick.now

/-- The port's window has acted in this tick. -/
def windowTaken (port : Fin 5) (s : State) : State :=
  updMem (fun x => { x with winTick := x.winTick.set port.1 (some s.tick.now) port.2 }) s

section
variable {port : Fin 5} {start len sb rtp : Nat} {s : State}
  (window : s.img.dev.upkeep.find? (fun u => u.1 == port.1) = some (port.1, start, len, sb, rtp)) (ok : Bool) (found : List (W64 × AccessResult))
include window

theorem exec_upkeepWindow_due (due : WindowDue port start len s) : exec (.upkeepWindow port ok found) s
    = .next (upkeepMoves port.1 found (upkeepScrub port sb found
        (if port = 0 then upkeepRetrain rtp ok (windowTaken port s) else windowTaken port s))) := by
  obtain ⟨on, opened, before, fresh⟩ := due
  have run : exec (.upkeepWindow port ok found) s = execUpkeepWindow port ok found s := rfl
  have near : (port.1 == 0) = decide (port = 0) := by rw [Bool.eq_iff_iff]; simp
  rw [run, execUpkeepWindow]
  simp only [window, near]
  rw [if_neg (by simpa [on, opened, before] using fresh)]
  simp only [whenS, decide_eq_true_eq]
  rfl

theorem exec_upkeepWindow_not_due (past : ¬ WindowDue port start len s) : exec (.upkeepWindow port ok found) s = .next s := by
  have run : exec (.upkeepWindow port ok found) s = execUpkeepWindow port ok found s := rfl
  rw [run, execUpkeepWindow]
  simp only [window]
  rw [if_pos]
  by_contra acts
  refine past ?_
  simpa [WindowDue, not_or, and_assoc] using acts

end

/-- A window retrains no channel where its image gives no retraining period (R346). -/
theorem upkeepRetrain_off (ok : Bool) (s : State) : upkeepRetrain 0 ok s = s := if_pos (.inl rfl)

/-- A scrub that finds nothing moves the port's pointer (R347). -/
theorem upkeepScrub_clean (port : Fin 5) (n : Nat) (s : State) : upkeepScrub port n [] s = if port = 0
    then updMem (fun x => { x with scrub := (x.scrub + n) % Nat.max 1 (nearCap s) }) s
    else updCxl (Fin.ofNat 4 (port.1 - 1)) (fun x => { x with scrub := (x.scrub + n) % Nat.max 1 x.cap }) s := by
  unfold upkeepScrub
  exact if_congr (Fin.ext_iff (b := 0)).symm rfl rfl

theorem opOrder_idle {s : State} (idle : ∀ p, (s.part p).upops = []) : opOrder s = [] := by
  simp [opOrder, idle]

theorem upkeepCopy_none {s : State} (queue : s.mem.cpQueue = []) (port : Nat) (found : List (W64 × AccessResult)) : upkeepCopy port found s = s := by
  simp only [upkeepCopy, queue]

/-- With no operation and no copy that waits, action 3 moves nothing (R345). -/
theorem upkeepMoves_idle {s : State} (idle : ∀ p, (s.part p).upops = []) (queue : s.mem.cpQueue = []) (port : Nat) (found : List (W64 × AccessResult)) :
    upkeepMoves port found s = s := by
  simp [upkeepMoves, opOrder_idle idle, upkeepCopy_none queue]

/-- A window with nothing to move and nothing found moves the scrub pointer alone. -/
theorem upkeepMoves_clean {s : State} (idle : ∀ p, (s.part p).upops = []) (queue : s.mem.cpQueue = []) (port : Fin 5) (n : Nat) :
    upkeepMoves port.1 [] (upkeepScrub port n [] s) = upkeepScrub port n [] s := by
  have still : ∀ p, ((upkeepScrub port n [] s).part p).upops = [] := by rw [upkeepScrub_clean]; split <;> exact idle
  have unasked : (upkeepScrub port n [] s).mem.cpQueue = [] := by rw [upkeepScrub_clean]; split <;> exact queue
  exact upkeepMoves_idle still unasked ..

/-! ### Owner copies (R343) -/

theorem goodLines_takeFree (s : State) (c : Copy) : goodLines (takeFree s).2 c none = goodLines s c none := by
  simp only [goodLines, lineBad_ok]
  rfl

@[simp] theorem copyCharge_mem (c : Copy) (n : Nat) (s : State) : (copyCharge c n s).mem = s.mem := by
  have one (b : Bool) (i : Fin 7) (t : State) : (whenS b (chargeD i n) t).mem = t.mem := by cases b <;> rfl
  unfold copyCharge
  split
  · rfl
  · exact (one ..).trans (one ..)

/-- The lines that a window lets a copy move, at most those that are left before its end or its first bad line (log 184). -/
theorem moved_lines (moved good v : Nat) :
    let n := moved + 64 * (v % ((64 * good - moved) / 64 + 1))
    moved ≤ n ∧ n ≤ Nat.max moved (64 * good) ∧ (n - moved) % 64 = 0 := by
  intro n
  have lines : v % ((64 * good - moved) / 64 + 1) ≤ (64 * good - moved) / 64 := Nat.le_of_lt_succ (Nat.mod_lt _ (Nat.succ_pos _))
  refine ⟨Nat.le_add_right .., ?_, by simp [n]⟩
  change n ≤ max moved (64 * good)
  omega

theorem upkeepCopy_moves {s : State} {c : Copy} {rest : List Copy} {port : Nat} (queue : s.mem.cpQueue = c :: rest) (active : partsActive s = true)
    (touches : copyTouches s c port = true) : (upkeepCopy port [] s).mem.cpQueue
      = { c with moved := c.moved + 64 * ((takeFree s).1.toNat % ((64 * goodLines s c none - c.moved) / 64 + 1)) } :: rest := by
  simp only [upkeepCopy, queue]
  rw [if_neg (by simp [active, touches]), copyCharge_mem, updMem_mem, List.find?_nil, goodLines_takeFree]

section
variable {m : Master} {s : State}

/-- The copy that the registers give (R343). -/
def askedCopy (s : State) (srcHost dstHost : Bool) : Copy := { src := s.mem.cpSrc, dst := s.mem.cpDst, len := s.mem.cpLen.toNat, srcHost, dstHost }

section
variable {srcHost dstHost : Bool} (owner : OwnerActs m s)
include owner

theorem exec_memCpgo_queued (accepted : copyReason s (askedCopy s srcHost dstHost) = none) : exec (.memCpgo m srcHost dstHost) s
    = .next (updMem (fun x => { x with
        cpQueue := x.cpQueue ++ [{ askedCopy s srcHost dstHost with seq := x.opCount }], opCount := x.opCount + 1 }) s) := by
  have run : exec (.memCpgo m srcHost dstHost) s = execMemCpgo m srcHost dstHost s := rfl
  unfold askedCopy at accepted
  rw [run, execMemCpgo, if_neg (by simp [owner.1]), if_neg (by simp [owner.2])]
  simp only [accepted]
  rfl

theorem exec_memCpgo_rejected {k : Nat} (rejected : copyReason s (askedCopy s srcHost dstHost) = some k) : exec (.memCpgo m srcHost dstHost) s
    = .next (copyError k s) := by
  have run : exec (.memCpgo m srcHost dstHost) s = execMemCpgo m srcHost dstHost s := rfl
  unfold askedCopy at rejected
  rw [run, execMemCpgo, if_neg (by simp [owner.1]), if_neg (by simp [owner.2])]
  simp only [rejected]

end

theorem exec_memCpgo_other (reaches : arrives s m = true) (other : isOwner s m = false) (srcHost dstHost : Bool) :
    exec (.memCpgo m srcHost dstHost) s = .next (copyError 7 (ignoreWrite m memCpgo 1 s)) := by
  have run : exec (.memCpgo m srcHost dstHost) s = execMemCpgo m srcHost dstHost s := rfl
  rw [run, execMemCpgo, if_neg (by simp [reaches]), if_pos (by simp [other])]

end

section
variable {c : Copy} {rest : List Copy} {bad : Option (W64 × AccessResult)} {s : State} (queue : s.mem.cpQueue = c :: rest) (on : memOn s = true)
include queue on

theorem exec_ownerCopyComplete_free (free : partsActive s = false ∨ 64 * goodLines s c bad ≤ c.moved) :
    let k := 64 * goodLines s c bad
    let u := updMem (fun x => { x with cpQueue := rest }) (copyTo c k s)
    exec (.ownerCopyComplete bad) s = .next (vecEvent 0 2 (if k = c.len then updMem (fun x => { x with cpDone := x.cpDone + 1 }) u
      else copyError 6 (judgeRead (c.src.toNat + k) 64 ((bad.map Prod.snd).getD .ok) { found := 4 } u).2)) := by
  intro k u
  have run : exec (.ownerCopyComplete bad) s = execOwnerCopyComplete bad s := rfl
  rw [run, execOwnerCopyComplete]
  simp only [queue]
  rw [if_neg (by obtain idle | moved := free <;> simp [*])]

theorem exec_ownerCopyComplete_held (held : ¬ (partsActive s = false ∨ 64 * goodLines s c bad ≤ c.moved)) : exec (.ownerCopyComplete bad) s = .next s := by
  have run : exec (.ownerCopyComplete bad) s = execOwnerCopyComplete bad s := rfl
  rw [run, execOwnerCopyComplete]
  simp only [queue]
  rw [if_pos (by simpa [on] using held)]

end

/-! ### Reload marks (R349, R479) -/

theorem namedMarks_contains (i : BitVec 6) (v : W64) (l : List Nat) (r : Nat) :
    (namedMarks i v l).contains r = (l.contains r && (r / 64 == i.toNat && v.getLsbD (r % 64))) := by
  rw [Bool.eq_iff_iff]
  simp [namedMarks]

/-- The marks that stay are those that the write does not name. -/
theorem marks_left (i : BitVec 6) (v : W64) (l : List Nat) :
    l.filter (fun r => !(namedMarks i v l).contains r) = l.filter (fun r => !(r / 64 == i.toNat && v.getLsbD (r % 64))) := by
  refine List.filter_congr fun r marked => ?_
  rw [namedMarks_contains, List.contains_iff_mem.2 marked, Bool.true_and]

/-- The state once the marks of register `i` that `v` names are cleared. -/
def marksCleared (far : Bool) (i : BitVec 6) (v : W64) (s : State) : State :=
  let left := (if far then s.mem.freload else s.mem.reload).filter (fun r => !(r / 64 == i.toNat && v.getLsbD (r % 64)))
  updMem (fun x => { x with reload := if far then x.reload else left, freload := if far then left else x.freload }) s

/-- The line lies in a region whose mark stands in register `i` and is named by `v`. -/
def lineNamed (far : Bool) (i : BitVec 6) (v : W64) (s : State) (a : Nat) : Bool :=
  isFar a == far && s.mem.regions.any (fun r =>
    inRegion r a && (if far then s.mem.freload else s.mem.reload).contains r.idx && (r.idx / 64 == i.toNat && v.getLsbD (r.idx % 64)))

theorem clearMarks_eq (far : Bool) (i : BitVec 6) (v : W64) (again : List Nat) (s : State) : clearMarks far i v again s
    = forAll (again.filter (lineNamed far i v s)) (fun a s => (judgeRead a 64 (.uncorrectable 1) { found := 2 } s).2) (marksCleared far i v s) := by
  have lines : lineNamed far i v s = fun a => isFar a == far && s.mem.regions.any (fun r =>
      inRegion r a && (namedMarks i v (if far then s.mem.freload else s.mem.reload)).contains r.idx) := by
    funext a
    simp only [lineNamed, namedMarks_contains, Bool.and_assoc]
  rw [lines]
  unfold clearMarks marksCleared
  simp only [marks_left]
  cases far <;> rfl

theorem exec_reload {m : Master} {s : State} (owner : OwnerActs m s) (far : Bool) (i : BitVec 6) (v : W64) (again : List Nat) :
    exec (if far then .memFreload m i v again else .memReload m i v again) s = .next (clearMarks far i v again s) := by
  cases far with
  | false => exact congrArg Host.Outcome.next (ownerOnly_owner owner)
  | true => exact congrArg Host.Outcome.next (ownerOnly_owner owner)

/-! ### BAR4 (R334, R370, R464) -/

section
variable {f : FuncId} {off : W64} {n : Nat} {r : AccessResult} {s : State}

theorem exec_bar4Read_beyond (beyond : bar4Run s f off.toNat n = none ∨ memOn s = false) :
    exec (.bar4Read f off n r) s = .next (emit (.unsupported f.1) s) := by
  have run : exec (.bar4Read f off n r) s = execBar4Read f off n r s := rfl
  rw [run, execBar4Read]
  obtain unreached | asleep := beyond
  · simp only [unreached]
  · cases bar4Run s f off.toNat n with
    | none => rfl
    | some l => simp only [asleep, Bool.not_false, if_true]

/-- Every byte of a read is good: the access answers well, and no byte lies on a failed channel (R349, R352). -/
theorem bytesGood_iff (ok : Bool) (l : List (Nat × Bool)) (s : State) :
    (ok && !l.any (fun a => onFailed s a.1)) = true ↔ ok = true ∧ ∀ a ∈ l, onFailed s a.1 = false := by
  simp only [Bool.and_eq_true, Bool.not_eq_true', List.any_eq_false, Bool.not_eq_true]

/-- A read within the space answers its bytes, or poison where one is bad (R349). -/
theorem exec_bar4Read_inside {l : List (Nat × Bool)} (inside : bar4Run s f off.toNat n = some l) (on : memOn s = true) :
    let read := judgeRead (l.headD (0, false)).1 n r { found := 3 } (chargeD 1 n s)
    exec (.bar4Read f off n r) s = .next (if read.1 && !l.any (fun a => onFailed read.2 a.1)
      then emit (.bar4 f.1 (l.map (fun a => bar4Byte read.2 a.1)) false) read.2 else emit (.bar4 f.1 [] true) read.2) := by
  have run : exec (.bar4Read f off n r) s = execBar4Read f off n r s := rfl
  rw [run, execBar4Read]
  simp only [inside]
  rw [if_neg (by simp [on])]

end

section
variable {f : FuncId} {off : W64} {data : List Byte} {r : AccessResult} {s : State}

theorem exec_bar4Write_not_owner (other : isOwner s .pf0 = false) : exec (.bar4Write 0 off ⟨data, r⟩) s = .next (ignoreWrite .pf0 off.toNat 1 s) := by
  have run : exec (.bar4Write 0 off ⟨data, r⟩) s = execBar4Write 0 off ⟨data, r⟩ s := rfl
  rw [run, execBar4Write, if_pos ⟨rfl, by simp [other]⟩]
  rfl

variable (mayWrite : f ≠ 0 ∨ isOwner s .pf0 = true)
include mayWrite

theorem not_pf0_without_rights : ¬ (f.1 = 0 ∧ (!isOwner s .pf0) = true) := by
  rintro ⟨pf0, other⟩
  obtain vf | owner := mayWrite
  · exact vf (Fin.ext pf0)
  · simp [owner] at other

theorem exec_bar4Write_dropped (dropped : bar4Run s f off.toNat data.length = none ∨ memOn s = false
      ∨ ∃ l, bar4Run s f off.toNat data.length = some l ∧ ∃ a ∈ l, a.2 = false) :
    exec (.bar4Write f off ⟨data, r⟩) s = .next (ignoreWrite (masterOf f) off.toNat 2 s) := by
  have run : exec (.bar4Write f off ⟨data, r⟩) s = execBar4Write f off ⟨data, r⟩ s := rfl
  rw [run, execBar4Write, if_neg (not_pf0_without_rights mayWrite)]
  cases reached : bar4Run s f off.toNat data.length with
  | none => rfl
  | some l =>
    refine congrArg Host.Outcome.next (if_pos ?_)
    obtain unreached | asleep | ⟨_, same, a, inside, readOnly⟩ := dropped
    · simp [unreached] at reached
    · simp [asleep]
    · obtain rfl := Option.some.inj (same.symm.trans reached)
      simpa using .inr ⟨a.1, readOnly ▸ inside⟩

/-- A write within the space stores its bytes, unless its CRC gives it up (R334). -/
theorem exec_bar4Write_inside {l : List (Nat × Bool)} (inside : bar4Run s f off.toNat data.length = some l) (on : memOn s = true)
    (writable : ∀ a ∈ l, a.2 = true) :
    let a := (l.headD (0, false)).1
    let t := chargeD 1 data.length s
    let j := if crcFails r a then judgeRead a data.length r { found := 3 } t else (true, t)
    exec (.bar4Write f off ⟨data, r⟩) s = .next (if j.1 then forAll (l.zip data) (fun x => tierWrite x.1.1 [x.2]) j.2 else j.2) := by
  have run : exec (.bar4Write f off ⟨data, r⟩) s = execBar4Write f off ⟨data, r⟩ s := rfl
  rw [run, execBar4Write, if_neg (not_pf0_without_rights mayWrite)]
  simp only [inside]
  rw [if_neg (by simpa [on] using writable)]

end

/-! ### The statement -/

/-- Settles O44: the windows, the copies, the marks and BAR4, each by the lemma of its case. -/
theorem memoryWork : Obligations.MemoryWork := by
  unfold Obligations.MemoryWork
  intro m f off bits i n len sb rtp data s
  refine ⟨fun port start ok found window => ?windows, fun c rest port queue active touches => ?moves, fun sh dh => ?asks,
    fun c rest bad queue on => ?ends, fun owner far again => ?marks, fun l r inside on => ?reads, fun r beyond => exec_bar4Read_beyond beyond,
    fun mayWrite r => ⟨fun l inside on writable => ?writes, exec_bar4Write_dropped mayWrite⟩, fun other r => exec_bar4Write_not_owner other⟩
  case windows =>
    refine ⟨exec_upkeepWindow_due window ok found, fun due idle queue off => ?_, exec_upkeepWindow_not_due window ok found⟩
    subst off
    rw [exec_upkeepWindow_due window ok [] due, upkeepRetrain_off, ite_self, upkeepMoves_clean (s := windowTaken port s) idle queue, upkeepScrub_clean]
    rfl
  case moves =>
    obtain ⟨least, most, lines⟩ := moved_lines c.moved (goodLines s c none) (takeFree s).1.toNat
    exact ⟨_, least, most, lines, upkeepCopy_moves queue active touches⟩
  case asks =>
    exact ⟨exec_memCpgo_queued, fun _ owner rejected => exec_memCpgo_rejected owner rejected,
      fun reaches other => exec_memCpgo_other reaches other sh dh⟩
  case ends =>
    refine ⟨fun free whole => ?_, fun free short => ?_, exec_ownerCopyComplete_held queue on⟩
    · rw [exec_ownerCopyComplete_free queue on free, if_pos whole]
    · rw [exec_ownerCopyComplete_free queue on free, if_neg short]; rfl
  case marks =>
    refine ⟨?_, ?_⟩
    · rw [exec_reload owner, clearMarks_eq]; rfl
    · rw [exec_reload owner, clearMarks_eq]; rfl
  case reads =>
    refine ⟨fun good sound => ?_, fun bad => ?_, fun answered sound => ?_⟩
    · rw [exec_bar4Read_inside inside on, if_pos ((bytesGood_iff ..).2 ⟨good, sound⟩)]
    · rw [exec_bar4Read_inside inside on, if_neg fun all => ?_]
      obtain ⟨good, sound⟩ := (bytesGood_iff ..).1 all
      obtain lost | ⟨a, among, failed⟩ := bad
      · exact absurd good (Bool.eq_false_iff.1 lost)
      · exact absurd failed (Bool.eq_false_iff.1 (sound a among))
    · rw [answered, judgeRead_ok ((runFailed_chargeD ..).trans sound)]
  case writes =>
    refine ⟨fun kept => ?_, fun lost => ?_⟩
    · rw [exec_bar4Write_inside mayWrite inside on writable, if_neg (Bool.eq_false_iff.1 kept)]; rfl
    · rw [exec_bar4Write_inside mayWrite inside on writable, if_pos lost]

end Sys2Proof.Machine
end

section
/-! PROOF. O1-O4 and O6, the block: its queue, the idle step (log 1, log 35), and the modes that every command keeps legal (R440). -/

namespace Sys2Proof.Machine

/-- Settles O4: every command keeps the modes legal, and so does an idle phase unit. -/
theorem stepKeepsLegalModes : Obligations.StepKeepsLegalModes := by
  intro s t legal h
  obtain rfl | ⟨i, r, -, run⟩ := step_cases h
  · exact (Keeps.idle (.refl s)).modes legal
  · exact (exec_keeps run).modes legal

/-- Settles O3: every command keeps the queue that it runs on. -/
theorem queueUntouched : Obligations.QueueUntouched :=
  fun _ _ _ run => (exec_keeps run).pending

/-- Settles O1: a queue that holds a command is the second case of a step. -/
theorem stepRunsFront : Obligations.StepRunsFront :=
  fun _ _ _ => rfl

theorem step_of_idle {s : State} (empty : s.pending = []) : step s = .next (idle s) := by
  rw [step, empty]

/-- Settles O2: an empty queue is the first case of a step. -/
theorem idleStep : Obligations.IdleStep :=
  fun s empty => ⟨idle s, step_of_idle empty, rfl, rfl⟩

/-- Right after reset the device is in S0 and holds no debug level. -/
theorem reset_legalModes : LegalModes State.reset :=
  ⟨by decide, fun _ => ⟨rfl, rfl, rfl⟩, fun _ => ⟨rfl, rfl⟩, fun _ => ⟨rfl, rfl⟩⟩

/-- Settles O6: the stores at reset are canonical already. -/
theorem resetInvariants : Obligations.ResetInvariants :=
  ⟨reset_legalModes, reset_storesOk⟩

end Sys2Proof.Machine
end

section
/-! PROOF. O51, the election of an owner (R375). -/

namespace Sys2Proof.Machine

/-- The coordinates by which remote masters are ordered; the other masters have none. -/
def coordsOf : Master → Nat × Nat × Nat
  | .rm x y z => (x.toNat, y.toNat, z.toNat)
  | _ => (0, 0, 0)

/-- What R375 compares, in its order: the highest priority and nonce, then the lowest kind and coordinates. -/
def claimRank (c : Claim) : Natᵒᵈ ×ₗ Natᵒᵈ ×ₗ Nat ×ₗ Nat ×ₗ Nat ×ₗ Nat :=
  let (x, y, z) := coordsOf c.m
  toLex (.toDual c.prio, toLex (.toDual c.nonce, toLex (masterKind c.m, toLex (x, toLex (y, z)))))

theorem coordLess_iff {a b : Master} (sameKind : masterKind a = masterKind b) :
    coordLess a b = true ↔ toLex ((coordsOf a).1, toLex (coordsOf a).2) < toLex ((coordsOf b).1, toLex (coordsOf b).2) := by
  cases a <;> cases b <;> simp_all [masterKind, coordLess, coordsOf, Prod.Lex.toLex_lt_toLex, BitVec.toNat_inj]

/-- One claim beats another where its rank comes first. -/
theorem beats_iff (a b : Claim) : beats a b = true ↔ claimRank a < claimRank b := by
  simp only [beats, claimRank, Prod.Lex.toLex_lt_toLex, OrderDual.toDual_lt_toDual, OrderDual.toDual_inj]
  by_cases prio : a.prio = b.prio
  case neg => simp [prio]
  by_cases nonce : a.nonce = b.nonce
  case neg => simp [prio, nonce]
  by_cases kind : masterKind a.m = masterKind b.m
  case neg => simp [prio, nonce, kind]
  simpa [prio, nonce, kind, Prod.Lex.toLex_lt_toLex] using coordLess_iff kind

theorem beats_eq_false_iff (a b : Claim) : beats a b = false ↔ claimRank b ≤ claimRank a := by
  rw [← not_lt, ← beats_iff, Bool.not_eq_true]

theorem leading_eq_none {l : List Claim} (none : leading l = none) : l = [] := by
  cases l with
  | nil => rfl
  | cons c r =>
    rw [leading] at none
    split at none
    · cases none
    · split at none <;> cases none

/-- The leader is one of the claims, and its rank is the least. -/
theorem leading_least {l : List Claim} {c : Claim} (lead : leading l = some c) : c ∈ l ∧ ∀ d ∈ l, claimRank c ≤ claimRank d := by
  induction l generalizing c with
  | nil => cases lead
  | cons a r ih =>
    rw [leading] at lead
    split at lead
    case h_1 none =>
      cases lead
      simp [leading_eq_none none]
    case h_2 b rest =>
      obtain ⟨among, least⟩ := ih rest
      split at lead
      case isTrue won =>
        cases lead
        have le : claimRank c ≤ claimRank a := ((beats_iff c a).1 won).le
        exact ⟨.tail _ among, List.forall_mem_cons.2 ⟨le, least⟩⟩
      case isFalse lost =>
        cases lead
        have le : claimRank a ≤ claimRank b := (beats_eq_false_iff b a).1 (by simpa using lost)
        exact ⟨.head _, List.forall_mem_cons.2 ⟨le_rfl, fun d hd => le.trans (least d hd)⟩⟩

/-- Settles O51: no claim of the window has a lower rank than the leader's. -/
theorem claimElection : Obligations.ClaimElection := by
  unfold Obligations.ClaimElection
  intro l c lead
  obtain ⟨among, least⟩ := leading_least lead
  exact ⟨among, fun d hd => (beats_eq_false_iff d c).2 (least d hd)⟩

end Sys2Proof.Machine
end

section
/-! PROOF. O50, owner operations of another master (R373). -/

namespace Sys2Proof.Machine

/-- Every command of the owner is done through the check of the master that asks for it. -/
theorem exec_ownerCommand {i : Instr} {m : Master} {off : Nat} (command : ownerCommand i = some (m, off)) (s : State) :
    ∃ f, exec i s = .next (ownerOnly m off f s) := by
  unfold ownerCommand at command
  split at command
  -- COLD_START and WARM_START, which a power event may ask for as well
  case h_20 | h_21 =>
    obtain ⟨x, rfl, e⟩ := Option.map_eq_some_iff.1 command
    cases e
    exact ⟨_, rfl⟩
  -- DEBUG0 and DEBUG1, one operation with two CMDs
  case h_30 | h_31 =>
    cases command
    simp only [exec, execDebug0, execDebug1, debugCmd, secCmd]
    exact ⟨_, rfl⟩
  -- no owner's command
  case h_36 => cases command
  all_goals
    cases command
    exact ⟨_, rfl⟩

/-- Settles O50: the check ignores and counts what another master asks for. -/
theorem othersIgnored : Obligations.OthersIgnored := by
  unfold Obligations.OthersIgnored
  intro i m off s command arrived other
  obtain ⟨f, run⟩ := exec_ownerCommand command s
  rw [run, ownerOnly_other arrived other]

end Sys2Proof.Machine
end

section
/-! PROOF. Shared by the statements below: one element of a list among the others, and what the log, an alarm and a change of the time state
leave (R358, R446, R454). -/

namespace Sys2Proof.Machine

/-! ### One element of a list -/

/-- One element of a list without repetitions, done between others that neither hinder nor undo it. -/
theorem forAll_once {α : Type} {I P : State → Prop} {l : List α} {f : α → State → State} {s : State} {a : α} (once : l.Nodup) (ha : a ∈ l) (hs : I s)
    (others : ∀ x ∈ l, x ≠ a → ∀ t, I t → I (f x t)) (hdo : ∀ t, I t → P (f a t)) (hkeep : ∀ x ∈ l, x ≠ a → ∀ t, P t → P (f x t)) : P (forAll l f s) := by
  induction l generalizing s with
  | nil => cases ha
  | cons x r ih =>
    obtain ⟨new, once'⟩ := List.nodup_cons.1 once
    rw [forAll_cons]
    by_cases first : x = a
    · subst first
      exact forAll_keep P r f _ (fun y hy => hkeep y (.tail _ hy) (ne_of_mem_of_not_mem hy new)) (hdo s hs)
    · exact ih once' ((List.mem_cons.1 ha).resolve_left (Ne.symm first)) (others x (.head _) first s hs)
        (fun y hy => others y (.tail _ hy)) (fun y hy => hkeep y (.tail _ hy))

/-! ### The log and the alarms -/

section
variable (type prio e src part : Nat) (body : List Nat) (c : Fin 16) (s : State)

@[simp] theorem logR_tick : (logR type prio e src part body s).tick = s.tick := by rw [logR_frame]
@[simp] theorem alarm_tick : (alarm c s).tick = s.tick := by rw [alarm_frame]
@[simp] theorem alarm_sec : (alarm c s).sec = s.sec := by rw [alarm_frame]

end

/-! ### The time state (R358-R361) -/

/-- The clock in another time state. -/
def timeChanged (t : TState) (k : Tick) : Tick :=
  { k with
    state := t, wasLocked := k.wasLocked || t == .locked, diffs := if t == .timelost then 0 else k.diffs
    good := if t == .timelost then 0 else k.good, firstOk := if t == .timelost then false else k.firstOk
    slew := if t == .locked then k.slew else 0 }

/-- The clock after a time state is set. -/
def newTime (t : TState) (k : Tick) : Tick := if k.state = t then k else timeChanged t k

@[simp] theorem setTime_tick (t : TState) (s : State) : (setTime t s).tick = newTime t s.tick := by
  unfold setTime newTime
  split
  · rfl
  · simp only [apply_ite State.tick, alarm_tick, ite_self, vecEvent_tick, tickLog, logR_tick, updTick_tick, timeChanged]

theorem newTime_of_ne {t : TState} {k : Tick} (change : k.state ≠ t) : newTime t k = timeChanged t k := if_neg change

@[simp] theorem newTime_state (t : TState) (k : Tick) : (newTime t k).state = t := by
  unfold newTime
  split
  · assumption
  · rfl

@[simp] theorem newTime_now (t : TState) (k : Tick) : (newTime t k).now = k.now := by unfold newTime; split <;> rfl
@[simp] theorem newTime_phase (t : TState) (k : Tick) : (newTime t k).phase = k.phase := by unfold newTime; split <;> rfl
@[simp] theorem newTime_held (t : TState) (k : Tick) : (newTime t k).held = k.held := by unfold newTime; split <;> rfl
@[simp] theorem newTime_period (t : TState) (k : Tick) : (newTime t k).period = k.period := by unfold newTime; split <;> rfl

@[simp] theorem tickPulse_tick (s : State) : (tickPulse s).tick = s.tick := by
  unfold tickPulse whenS; split <;> rfl

end Sys2Proof.Machine
end

section
/-! PROOF. O47, the order of a boundary, its time and its budgets (R360, R364, R365, R367, R408, R438). -/

namespace Sys2Proof.Machine

/-! ### Time (R355, R360) -/

/-- The tick number, the phase and the held number after the time step. -/
theorem boundaryTime_count (s : State) :
    (boundaryTime s).tick.now = nextNow s.tick ∧ (boundaryTime s).tick.phase = 0 ∧ (boundaryTime s).tick.held = none := by
  unfold boundaryTime
  dsimp only
  split
  · simp
  · split <;> simp

theorem nextNow_of_count {k : Tick} (counts : k.state ≠ .timelost ∨ k.held = none) : nextNow k = (k.now + 1) % 2 ^ 64 := by
  unfold nextNow
  split
  case isTrue lost => simp [counts.resolve_left (not_not.2 lost)]
  case isFalse => rfl

theorem nextNow_of_held {k : Tick} {n : Nat} (lost : k.state = .timelost) (held : k.held = some n) : nextNow k = n % 2 ^ 64 := by
  simp [nextNow, lost, held]

/-! ### The refill (R364, R365, R367, R438) -/

theorem refillAll_get (φ static : Nat) (v : Vector Budget 7) (k : Fin 7) : (refillAll φ static v)[k] =
    { ageBudget v[k] with counter := if k = 6 then (ageBudget v[k]).inForce * φ / 256 - static else (ageBudget v[k]).inForce } := by
  unfold refillAll
  by_cases energy : k = 6
  · subst energy; simp
  · have apart : 6 ≠ k.1 := fun e => energy (Fin.ext e.symm)
    simp [energy, apart]

/-- The refill of one partition. -/
def refillPart (φ : Nat) (p : PartId) (s : State) : State :=
  if (s.part p).state = .unconfigured then s
  else updPart p (fun x => { x with budgets := refillAll φ (staticCharge s.tick.kappa (groupCount s p)) x.budgets }) s

/-- The clock with the energy factor that acts from this boundary (R365). -/
def factorDue (k : Tick) : Tick := { k with kappa := k.kappaNext.getD k.kappa, kappaNext := none }

theorem boundaryBudgets_part (s : State) (p : PartId) :
    (boundaryBudgets s).part p = (forAll allParts (refillPart (phi s.pwr)) (updTick factorDue s)).part p := by
  unfold boundaryBudgets refillPart factorDue
  simp only [updTick_part, updTick_pwr]

/-- A refill leaves every other partition, and all that is no partition's. -/
theorem refillPart_others (φ : Nat) (q : PartId) (t : State) :
    refillPart φ q t = { t with parts := (refillPart φ q t).parts } ∧ ∀ p, p ≠ q → (refillPart φ q t).part p = t.part p := by
  unfold refillPart
  split
  · exact ⟨rfl, fun _ _ => rfl⟩
  · exact ⟨rfl, fun p other => by rw [updPart_part, if_neg other]⟩

theorem groupCount_congr {s t : State} {p : PartId} (groups : t.pwr.groups = s.pwr.groups) (same : t.part p = s.part p) :
    groupCount t p = groupCount s p := by
  unfold groupCount coresOf
  rw [groups, same]

/-- The budgets of a configured partition after the refill. -/
theorem boundaryBudgets_budgets {s : State} {p : PartId} (configured : (s.part p).state ≠ .unconfigured) :
    ((boundaryBudgets s).part p).budgets
      = refillAll (phi s.pwr) (staticCharge (s.tick.kappaNext.getD s.tick.kappa) (groupCount s p)) (s.part p).budgets := by
  rw [boundaryBudgets_part]
  refine forAll_once (I := fun t => t.tick = factorDue s.tick ∧ t.pwr = s.pwr ∧ t.part p = s.part p)
    (P := fun t => (t.part p).budgets = refillAll (phi s.pwr) (staticCharge (s.tick.kappaNext.getD s.tick.kappa) (groupCount s p)) (s.part p).budgets)
    (List.nodup_finRange 64) (List.mem_finRange p) ⟨rfl, rfl, rfl⟩ ?others ?refill ?later
  case others =>
    intro q _ other t ⟨tick, pwr, part⟩
    obtain ⟨frame, apart⟩ := refillPart_others (phi s.pwr) q t
    rw [apart p other.symm, frame]
    exact ⟨tick, pwr, part⟩
  case refill =>
    intro t ⟨tick, pwr, part⟩
    rw [refillPart, if_neg (part ▸ configured), updPart_part_self, part, tick, groupCount_congr (congrArg Pwr.groups pwr) part]
    rfl
  case later =>
    intro q _ other t done
    rw [(refillPart_others (phi s.pwr) q t).2 p other.symm, done]

/-! ### The statement -/

/-- Settles O47: the boundary's order is its definition's; the time step and the refill give the values. -/
theorem tickBoundaryOrder : Obligations.TickBoundaryOrder := by
  unfold Obligations.TickBoundaryOrder
  intro env s
  obtain ⟨now, phase, held⟩ := boundaryTime_count s
  have run : exec (.tickBoundary env) s = .next (if aghornOn s then boundary env s else s) := rfl
  refine ⟨fun on => ?order, fun off => ?off, phase, held, fun counts => now.trans (nextNow_of_count counts),
    fun n lost given => now.trans (nextNow_of_held lost given), fun p k configured => ?budget⟩
  case order => rw [run, if_pos on]; rfl
  case off => rw [run, if_neg (Bool.eq_false_iff.1 off)]
  case budget =>
    intro b force
    have due : (ageBudget b).inForce = force := by
      unfold ageBudget
      cases waits : b.pending with
      | none => simp [force, waits]
      | some w => dsimp only; split <;> simp_all [force]
    rw [boundaryBudgets_budgets configured, refillAll_get, ← due]
    exact ⟨rfl, fun other => if_neg other, fun energy => if_pos energy⟩

end Sys2Proof.Machine
end

section
/-! PROOF. O45, tick edges, misses and tick numbers (R355, R356, R358-R362). -/

namespace Sys2Proof.Machine

/-! ### Edges (R356, R359, R360) -/

section
variable {off : Int} {iv : Nat} {s : State}

theorem edgeGood_of_near (near : off.natAbs * 256 ≤ s.tick.period) : edgeGood s.tick.period off = true := decide_eq_true near
theorem edgeGood_of_far (far : ¬off.natAbs * 256 ≤ s.tick.period) : edgeGood s.tick.period off = false := decide_eq_false far

/-- A second edge in one window is ignored (log 91). -/
theorem exec_tickEdge_second (second : iv * 128 ≤ s.tick.period) : exec (.tickEdge off iv) s = .next s := by
  have run : exec (.tickEdge off iv) s = execTickEdge off iv s := rfl
  rw [run, execTickEdge, if_pos second]

variable (first : s.tick.period < iv * 128)
include first

theorem exec_tickEdge_locked (locked : s.tick.state = .locked) :
    exec (.tickEdge off iv) s = .next (if edgeGood s.tick.period off then tickPulse (goodEdge s) else s) := by
  have run : exec (.tickEdge off iv) s = execTickEdge off iv s := rfl
  rw [run, execTickEdge, if_neg (Nat.not_le.2 first), locked]

theorem exec_tickEdge_timelost (lost : s.tick.state = .timelost) : exec (.tickEdge off iv) s = .next (acquireEdge off iv s) := by
  have run : exec (.tickEdge off iv) s = execTickEdge off iv s := rfl
  rw [run, execTickEdge, if_neg (Nat.not_le.2 first), lost]

theorem exec_tickEdge_far (runs : s.tick.state ≠ .timelost) (far : ¬off.natAbs * 256 ≤ s.tick.period) : exec (.tickEdge off iv) s = .next s := by
  have run : exec (.tickEdge off iv) s = execTickEdge off iv s := rfl
  rw [run, execTickEdge, if_neg (Nat.not_le.2 first)]
  cases state : s.tick.state with
  | locked => simp [edgeGood_of_far far]
  | holdover => simp [edgeGood_of_far far]
  | timelost => exact absurd state runs

/-- A good edge in HOLDOVER; the fourth of a run ends it. -/
theorem exec_tickEdge_holdover (held : s.tick.state = .holdover) (near : off.natAbs * 256 ≤ s.tick.period) :
    exec (.tickEdge off iv) s = .next (if 4 ≤ (goodEdge s).tick.good
      then tickPulse (setTime .locked (updTick (fun t => { t with slew := off.natAbs * 65536 / Nat.max 1 t.period }) (goodEdge s))) else goodEdge s) := by
  have run : exec (.tickEdge off iv) s = execTickEdge off iv s := rfl
  rw [run, execTickEdge, if_neg (Nat.not_le.2 first), held, edgeGood_of_near near]
  rfl

end

theorem acquireEdge_first {off : Int} {iv : Nat} {s : State} (none : s.tick.good = 0) :
    acquireEdge off iv s = goodEdge (updTick (fun k => { k with firstOk := false }) s) := by
  rw [acquireEdge, if_pos none]

theorem acquireEdge_second {off : Int} {iv : Nat} {s : State} (one : s.tick.good = 1) :
    acquireEdge off iv s = if intervalOk s.tick.period iv then goodEdge (updTick (fun k => { k with firstOk := true }) s) else s := by
  rw [acquireEdge, if_neg (by omega), if_pos one]

theorem acquireEdge_later {off : Int} {iv : Nat} {s : State} (more : 2 ≤ s.tick.good) :
    acquireEdge off iv s = if edgeGood s.tick.period off then goodEdge s else s := by
  rw [acquireEdge, if_neg (by omega), if_neg (by omega)]

/-! ### Misses (R358, R359, R361) -/

/-- A window closed with no edge: the count, before what it does to the time state. -/
def missed (s : State) : State :=
  updTick (fun k => { k with good := 0, firstOk := false, miss := Nat.min 65535 (k.miss + 1), tickmiss := satAdd 64 k.tickmiss 1 }) s

theorem exec_tickMiss_locked {s : State} (locked : s.tick.state = .locked) : exec .tickMiss s = .next (tickPulse (setTime .holdover (missed s))) := by
  have run : exec .tickMiss s = execTickMiss s := rfl
  rw [run, execTickMiss, updTick_tick, locked]
  rfl

theorem exec_tickMiss_holdover {s : State} (held : s.tick.state = .holdover) :
    exec .tickMiss s = .next (if 256 ≤ (missed s).tick.miss then setTime .timelost (missed s) else missed s) := by
  have run : exec .tickMiss s = execTickMiss s := rfl
  rw [run, execTickMiss, updTick_tick, held]
  rfl

theorem exec_tickMiss_timelost {s : State} (lost : s.tick.state = .timelost) : exec .tickMiss s = .next (missed s) := by
  have run : exec .tickMiss s = execTickMiss s := rfl
  rw [run, execTickMiss, updTick_tick, lost]
  rfl

theorem missed_enough (s : State) : 256 ≤ (missed s).tick.miss ↔ 255 ≤ s.tick.miss := by
  have miss : (missed s).tick.miss = min 65535 (s.tick.miss + 1) := rfl
  rw [miss]
  omega

theorem goodEdge_enough (s : State) : 4 ≤ (goodEdge s).tick.good ↔ 3 ≤ s.tick.good := by
  have good : (goodEdge s).tick.good = min 65535 (s.tick.good + 1) := rfl
  rw [good]
  omega

/-! ### Numbers (R355, R362) -/

theorem tickLog_room {kind n : Nat} {s : State} (room : LogRoom s) :
    tickLog kind n s = logged (recordNow s 13 2 0xFF 0xFFFF 0xFFFF [kind, timeCode s.tick.state, n, s.tick.now]) s :=
  logR_room room ..

@[simp] theorem tickLog_tick (kind n : Nat) (s : State) : (tickLog kind n s).tick = s.tick := logR_tick ..

section
variable {n : W64} {s : State}

theorem takeNumber_further {h : Nat} (held : s.tick.held = some h) :
    takeNumber n s = tickLog 1 n.toNat (updTick (fun k => { k with tickdisc := satAdd 64 k.tickdisc 1 }) s) := by
  rw [takeNumber, held]; rfl

/-- The difference of a received number from the count that the boundary will carry (R362). -/
def numberDiff (n : W64) (k : Tick) : Int := (n.toNat : Int) - ((k.now + 1) % 2 ^ 64 : Nat)

variable (free : s.tick.held = none)
include free

theorem takeNumber_timelost (lost : s.tick.state = .timelost) : takeNumber n s = updTick (fun k => { k with held := some n.toNat }) s := by
  rw [takeNumber, free, if_neg (by decide)]
  exact if_pos lost

theorem takeNumber_equal (runs : s.tick.state ≠ .timelost) (equal : numberDiff n s.tick = 0) :
    takeNumber n s = updTick (fun k => { k with held := some n.toNat, diffs := 0 }) s := by
  rw [takeNumber, free, if_neg (by decide)]
  exact (if_neg runs).trans (if_pos equal)

theorem takeNumber_differs (runs : s.tick.state ≠ .timelost) (differs : numberDiff n s.tick ≠ 0) :
    takeNumber n s = tickLog 2 n.toNat (updTick (fun k => { k with
      held := some n.toNat, offset := numberDiff n k, diffs := if 0 < k.diffs ∧ k.offset = numberDiff n k then k.diffs + 1 else 1 }) s) := by
  rw [takeNumber, free, if_neg (by decide)]
  exact (if_neg runs).trans (if_neg differs)

/-- The first number is held for the coming boundary. -/
theorem takeNumber_holds : (takeNumber n s).tick.held = some n.toNat := by
  by_cases lost : s.tick.state = .timelost
  · rw [takeNumber_timelost free lost]; rfl
  · by_cases equal : numberDiff n s.tick = 0
    · rw [takeNumber_equal free lost equal]; rfl
    · rw [takeNumber_differs free lost equal, tickLog_tick]; rfl

end

/-- The message of a port in service, where the source is class M. -/
theorem exec_tickMessage {port : PortId} {n : W64} {s : State} (source : s.tick.srcM = true) (up : (s.port port).state = .up) :
    exec (.tickMessage port n) s = .next (if s.tick.held.isSome then takeNumber n s else relayTick n (takeNumber n s)) := by
  have run : exec (.tickMessage port n) s = execTickMessage port n s := rfl
  rw [run, execTickMessage, if_neg (by simp [source, up])]

theorem exec_tickMessage_other {port : PortId} {n : W64} {s : State} (other : s.tick.srcM = false ∨ (s.port port).state ≠ .up) :
    exec (.tickMessage port n) s = .next s := by
  have run : exec (.tickMessage port n) s = execTickMessage port n s := rfl
  rw [run, execTickMessage, if_pos (by simpa using other)]

theorem exec_tikNext {m : Master} {n : W64} {s : State} (owner : OwnerActs m s) :
    exec (.tikNext m n) s = .next (if s.tick.srcM then ignoreWrite m tikNext 2 s else takeNumber n s) :=
  congrArg Host.Outcome.next (ownerOnly_owner owner)

/-! ### The statement -/

/-- Settles O45: an edge by the time state it finds, a miss by the same, a number by what is held. -/
theorem tickInput : Obligations.TickInput := by
  unfold Obligations.TickInput
  intro m port n off iv s k near good missed'
  refine ⟨fun first => ⟨?locked, ?holds, ?returns, fun runs far => exec_tickEdge_far first runs far, fun lost => ?acquires⟩,
    fun second => exec_tickEdge_second second, ?missLocked, ?missLast, ?missHoldover, fun lost => exec_tickMiss_timelost lost,
    ?owner, ?ownerOther, ?relayed, ?further, fun other => exec_tickMessage_other other, ?discarded, ?held⟩
  case locked =>
    intro locked close
    rw [exec_tickEdge_locked first locked, edgeGood_of_near close]
    simp [tickPulse, whenS, goodEdge, good, k, locked]
  case holds =>
    intro held close few
    rw [exec_tickEdge_holdover first held close, if_neg (mt (goodEdge_enough s).1 (Nat.not_le.2 few))]
    rfl
  case returns =>
    intro held close enough
    refine ⟨_, exec_tickEdge_holdover first held close, ?_⟩
    rw [if_pos ((goodEdge_enough s).2 enough), tickPulse_tick, setTime_tick]
    refine ⟨newTime_state .., ?_⟩
    rw [newTime_of_ne]
    · rfl
    · exact fun e => nomatch held.symm.trans e
  case acquires =>
    rw [exec_tickEdge_timelost first lost]
    refine ⟨fun none => ?_, fun one close => ?_, fun one far => ?_, fun more close => ?_, fun more far => ?_⟩
    · rw [acquireEdge_first none]; rfl
    · rw [acquireEdge_second one, intervalOk, if_pos (decide_eq_true close)]; rfl
    · rw [acquireEdge_second one, intervalOk, if_neg (by simpa using far)]
    · rw [acquireEdge_later more, edgeGood_of_near close]; rfl
    · rw [acquireEdge_later more, edgeGood_of_far far]; rfl
  case missLocked =>
    intro locked
    refine ⟨_, exec_tickMiss_locked locked, ?_⟩
    rw [tickPulse_tick, setTime_tick]
    refine ⟨newTime_state .., ?_⟩
    rw [newTime_of_ne]
    · rfl
    · exact fun e => nomatch locked.symm.trans e
  case missLast =>
    intro held last
    exact ⟨_, exec_tickMiss_holdover held, by rw [if_pos ((missed_enough s).2 last), setTime_tick, newTime_state]⟩
  case missHoldover =>
    intro held more
    rw [exec_tickMiss_holdover held, if_neg (mt (missed_enough s).1 (Nat.not_le.2 more))]
    rfl
  case owner => intro owner source; rw [exec_tikNext owner, source]; rfl
  case ownerOther => intro owner source; rw [exec_tikNext owner, source]; rfl
  case relayed => intro source up free; rw [exec_tickMessage source up, free]; rfl
  case further => intro h source up held; rw [exec_tickMessage source up, held]; rfl
  case discarded =>
    intro h held room
    rw [takeNumber_further held]
    exact tickLog_room room
  case held =>
    intro free
    refine ⟨takeNumber_holds free, takeNumber_timelost free, takeNumber_equal free, fun runs differs room => ?_⟩
    rw [takeNumber_differs free runs differs]
    exact tickLog_room room

end Sys2Proof.Machine
end

section
/-! PROOF. O46, the period, kappa and budget writes (R354, R365, R367). -/

namespace Sys2Proof.Machine

/-! ### The period (R354) -/

theorem exec_tikPeriod {m : Master} {v : W64} {s : State} (owner : OwnerActs m s) :
    exec (.tikPeriod m v) s = .next
      (if allPartsIn s (fun x => decide (x = .unconfigured)) && decide (10000 ≤ v.toNat % 2 ^ 32 ∧ v.toNat % 2 ^ 32 ≤ 10000000)
        then newPeriod (v.toNat % 2 ^ 32) s else ignoreWrite m tikPeriod 2 s) :=
  congrArg Host.Outcome.next (ownerOnly_owner owner)

/-- A new period leaves the count, and time is lost. -/
theorem newPeriod_tick (v : Nat) (s : State) : (newPeriod v s).tick = newTime .timelost { s.tick with period := v, good := 0, firstOk := false } :=
  setTime_tick ..

/-! ### The energy factor (R365) -/

section
variable {num den : Nat} {s : State}

theorem exec_kappaUpdate_early (early : s.tick.sinceStart = 0 ∨ s.tick.sinceStart % 1024 ≠ 0) : exec (.kappaUpdate num den) s = .next s := by
  have run : exec (.kappaUpdate num den) s = execKappaUpdate num den s := rfl
  rw [run, execKappaUpdate, if_pos early]

variable (started : s.tick.sinceStart ≠ 0) (due : s.tick.sinceStart % 1024 = 0)
include started due

theorem exec_kappaUpdate_measured (charged : den ≠ 0) : exec (.kappaUpdate num den) s
    = .next (updTick (fun k => { k with kappaNext := some (Nat.max 900 (Nat.min 1100 (1000 * num / den))) }) s) := by
  have run : exec (.kappaUpdate num den) s = execKappaUpdate num den s := rfl
  rw [run, execKappaUpdate, if_neg (by simp [started, due]), if_neg charged]

/-- With nothing charged the factor is a free value (log 92). -/
theorem exec_kappaUpdate_free : exec (.kappaUpdate num 0) s = .next (updTick
    (fun k => { k with kappaNext := some (900 + (Config.free s.freeCtr).toNat % 201) }) { s with freeCtr := s.freeCtr + 1 }) := by
  have run : exec (.kappaUpdate num 0) s = execKappaUpdate num 0 s := rfl
  rw [run, execKappaUpdate, if_neg (by simp [started, due]), if_pos rfl]
  rfl

end

/-! ### Budgets (R366, R367) -/

section
variable {m : Master} {p : PartId} {i : Fin 7} {v : W64} {s : State} (owner : OwnerActs m s)
include owner

/-- The budgets of the partition with the value written. -/
def writtenBudgets (s : State) (p : PartId) (i : Fin 7) (v : W64) : Vector Budget 7 :=
  (s.part p).budgets.set i.1 { (s.part p).budgets[i] with written := v.toNat, pending := some (v.toNat, 2) } i.2

theorem exec_budgetWrite {cfg : PCfg} (section_ : (s.part p).section_ = some cfg) (configured : (s.part p).state ≠ .unconfigured) :
    let w := writtenBudgets s p i v
    exec (.budgetWrite m p i v) s = .next
      (if ownBudgetsFit s.img.dev s.img.disabled cfg p.1 s.tick.period (dueBudgets w)
          && sumsFit s.img.dev s.tick.period (dueBudgets w :: otherBudgets s p) then updPart p (fun x => { x with budgets := w }) s
        else prtError p (fun x => { x with brej := true }) s) := by
  have run : exec (.budgetWrite m p i v) s = execBudgetWrite m p i v s := rfl
  rw [run, execBudgetWrite, ownerOnly_owner owner]
  dsimp only
  rw [section_]
  exact congrArg Host.Outcome.next (if_neg configured)

theorem exec_budgetWrite_refused (refused : (s.part p).section_ = none ∨ (s.part p).state = .unconfigured) :
    exec (.budgetWrite m p i v) s = .next (prtError p (fun x => { x with brej := true }) s) := by
  have run : exec (.budgetWrite m p i v) s = execBudgetWrite m p i v s := rfl
  rw [run, execBudgetWrite, ownerOnly_owner owner]
  dsimp only
  cases section_ : (s.part p).section_ with
  | none => rfl
  | some cfg => exact congrArg Host.Outcome.next (if_pos (refused.resolve_left (by simp [section_])))

end

/-! ### The statement -/

/-- Settles O46: each write's own lemma, with the clock that a new period leaves. -/
theorem tickSettings : Obligations.TickSettings := by
  unfold Obligations.TickSettings
  intro m p i v num den s
  refine ⟨fun owner rest low high => ?period, fun owner bad => ?refused, fun started due charged => exec_kappaUpdate_measured started due charged,
    fun started due => ⟨_, ?_, ?_, exec_kappaUpdate_free started due⟩, fun early => exec_kappaUpdate_early early,
    fun cfg owner section_ configured => exec_budgetWrite owner section_ configured, fun owner refused => exec_budgetWrite_refused owner refused⟩
  case period =>
    refine ⟨_, (exec_tikPeriod owner).trans (congrArg Host.Outcome.next (if_pos (by rw [rest, decide_eq_true ⟨low, high⟩]; rfl))), ?_⟩
    simp [newPeriod_tick]
  case refused =>
    have fails : (allPartsIn s (fun x => decide (x = .unconfigured)) && decide (10000 ≤ v.toNat % 2 ^ 32 ∧ v.toNat % 2 ^ 32 ≤ 10000000)) = false := by
      rcases bad with busy | outside
      · rw [busy, Bool.false_and]
      · rw [decide_eq_false (by omega), Bool.and_false]
    rw [exec_tikPeriod owner, fails]
    rfl
  all_goals omega

end Sys2Proof.Machine
end

section
/-! PROOF. O49, claims, the lease, release and handover (R373-R377, R426). -/

namespace Sys2Proof.Machine

/-! ### A change of the election -/

theorem ownChange_own (f : Own → Own) (s : State) : (ownChange f s).own = f s.own := by
  unfold ownChange whenS
  dsimp only
  split <;> rfl

/-- It changes the OWN block and, where OWN_STATUS shows it, PF0's vectors. -/
theorem ownChange_frame (f : Own → Own) (s : State) :
    ownChange f s = { s with own := (ownChange f s).own, funcs := (ownChange f s).funcs } := by
  unfold ownChange whenS
  dsimp only
  split <;> rfl

/-! ### Claims (R373, R375, R426) -/

section
variable {m : Master} {prio : Byte} {nonce : W32} {sigOk : Bool} {s : State}

theorem exec_ownClaim (arrived : arrives s m = true) (noVf : ∀ f, m ≠ .vf f) : exec (.ownClaim m prio nonce sigOk) s = .next
    (if claimOk s m sigOk then ownChange (placeClaim { m, prio := prio.toNat, nonce := nonce.toNat }) s else ignoreWrite m 0x10018 3 s) := by
  have run : exec (.ownClaim m prio nonce sigOk) s = execOwnClaim m prio nonce sigOk s := rfl
  rw [run, execOwnClaim, if_neg (by simp [arrived])]
  -- what is left is the guard of the match's last arm
  exact noVf

theorem exec_ownClaim_vf {f : FuncId} (arrived : arrives s (.vf f) = true) :
    exec (.ownClaim (.vf f) prio nonce sigOk) s = .next (ignoreWrite (.vf f) 0x10018 1 s) := by
  have run : exec (.ownClaim (.vf f) prio nonce sigOk) s = execOwnClaim (.vf f) prio nonce sigOk s := rfl
  rw [run, execOwnClaim, if_neg (by simp [arrived])]

end

section
variable (c : Claim) {o : Own}

theorem placeClaim_unowned (h : o.state = .unowned) : placeClaim c o = { o with state := .window, claims := [c], windowAge := 0 } := by
  rw [placeClaim, h]

theorem placeClaim_window (h : o.state = .window) : placeClaim c o = { o with claims := latest c o.claims } := by
  rw [placeClaim, h]

theorem placeClaim_owned (h : o.state = .owned) : placeClaim c o = { o with standing := latest c o.standing } := by
  rw [placeClaim, h]

theorem placeClaim_handover (h : o.state = .handover) : placeClaim c o
    = if o.succ = some c.m ∧ o.taking = none then { o with taking := some c } else { o with standing := latest c o.standing } := by
  rw [placeClaim, h]

end

/-! ### The device becomes unowned (R376) -/

theorem toUnowned_alone {o : Own} (alone : o.standing = []) :
    toUnowned o = { o with state := .unowned, owner := none, lease := 0, succ := none, taking := none, claims := [] } := if_pos alone

theorem toUnowned_standing {o : Own} (stands : o.standing ≠ []) : toUnowned o = { o with
    state := .window, owner := none, lease := 0, succ := none, taking := none, claims := o.standing, standing := [], windowAge := 0 } := if_neg stands

/-- What leaves the device unowned: a release without a successor, a lapsed lease, a handover that nobody takes, and a window without a
claim (R375-R377). -/
def Disowns (i : Instr) (m : Master) (s : State) : Prop :=
  (i = .ownRelease m none ∨ ∃ f, i = .ownRelease m (some (.vf f))) ∧ OwnerActs m s ∨ i = .leaseLapse ∧ s.own.state = .owned ∧ 1024 ≤ s.own.lease
  ∨ i = .handoverExpiry ∧ s.own.state = .handover ∧ 16 ≤ s.own.handAge ∧ s.own.taking = none
  ∨ i = .claimWindowClose ∧ s.own.state = .window ∧ 16 ≤ s.own.windowAge ∧ leading s.own.claims = none

theorem exec_disowns {i : Instr} {m : Master} {s : State} (h : Disowns i m s) : exec i s = .next (ownChange toUnowned s) := by
  rcases h with ⟨rfl | ⟨f, rfl⟩, owner⟩ | ⟨rfl, owned, lapsed⟩ | ⟨rfl, handover, late, nobody⟩ | ⟨rfl, window, closes, nobody⟩
  · exact congrArg Host.Outcome.next (ownerOnly_owner owner)
  · exact congrArg Host.Outcome.next (ownerOnly_owner owner)
  · exact congrArg Host.Outcome.next (if_pos ⟨owned, lapsed⟩)
  · exact congrArg Host.Outcome.next (if_pos ⟨handover, late, nobody⟩)
  · refine congrArg Host.Outcome.next ((if_pos ⟨window, closes⟩).trans ?_)
    rw [nobody]

theorem exec_ownRelease_successor {m x : Master} {s : State} (owner : OwnerActs m s) (noVf : ∀ f, x ≠ .vf f) : exec (.ownRelease m (some x)) s
    = .next (ownChange (fun o => { o with
        state := .handover, owner := none, lease := 0, succ := some x, taking := none, handAge := 0, handTick := s.tick.now }) s) := by
  refine congrArg Host.Outcome.next ((ownerOnly_owner owner).trans ?_)
  cases x with
  | vf f => exact absurd rfl (noVf f)
  | _ => rfl

theorem exec_ownRenew {m : Master} {nonce : W32} {s : State} (owner : OwnerActs m s) : exec (.ownRenew m nonce) s
    = .next (if s.own.owner.map Claim.nonce = some nonce.toNat then updOwn (fun o => { o with lease := 0 }) s else s) :=
  congrArg Host.Outcome.next (ownerOnly_owner owner)

/-! ### The window (R375) -/

theorem exec_claimWindowClose_led {w : Claim} {s : State} (window : s.own.state = .window) (closes : 16 ≤ s.own.windowAge)
    (led : leading s.own.claims = some w) : exec .claimWindowClose s = .next (ownChange (toOwned w) s) := by
  refine congrArg Host.Outcome.next ((if_pos ⟨window, closes⟩).trans ?_)
  rw [led]

/-! ### The statement -/

/-- Settles O49: a claim by the state it finds, and the changes that leave the device owned, in handover or unowned. -/
theorem ownershipProtocol : Obligations.OwnershipProtocol := by
  unfold Obligations.OwnershipProtocol
  intro m prio nonce sigOk s c last o
  refine ⟨fun arrived noVf => ⟨fun ok => ?claim, fun bad => ?unauthorised⟩, fun f arrived => exec_ownClaim_vf arrived,
    fun w window closes led => ⟨_, exec_claimWindowClose_led window closes led, ownChange_frame .., ownChange_own ..⟩, ?renews, ?renewsNot,
    fun owner x noVf => ⟨_, exec_ownRelease_successor owner noVf, ownChange_frame .., ownChange_own ..⟩,
    fun i disowns => ⟨_, exec_disowns disowns, ownChange_frame .., ?alone, ?standing⟩, ?open_, ?leased, ?waits⟩
  case claim =>
    refine ⟨_, by rw [exec_ownClaim arrived noVf, if_pos ok], ownChange_frame .., ?_⟩
    rw [ownChange_own]
    refine ⟨placeClaim_unowned c, placeClaim_window c, placeClaim_owned c, fun handover named first => ?_, fun handover other => ?_⟩
    · rw [placeClaim_handover c handover, if_pos ⟨named, first⟩]
    · rw [placeClaim_handover c handover, if_neg (by rwa [not_and_or])]; rfl
  case unauthorised => rw [exec_ownClaim arrived noVf, bad]; rfl
  case renews => intro owner own; rw [exec_ownRenew owner, if_pos own]
  case renewsNot => intro owner other; rw [exec_ownRenew owner, if_neg other]
  case alone => intro alone; rw [ownChange_own, toUnowned_alone alone]
  case standing => intro stands; rw [ownChange_own, toUnowned_standing stands]
  case open_ => exact fun notDue => congrArg Host.Outcome.next (if_neg (by rwa [not_and_or, not_le]))
  case leased => exact fun notDue => congrArg Host.Outcome.next (if_neg (by rwa [not_and_or, not_le]))
  case waits => exact fun notDue => congrArg Host.Outcome.next (if_neg (by rwa [not_and_or, not_and_or, not_le]))

end Sys2Proof.Machine
end

section
/-! PROOF. O53, cold and warm starts, REQ and PWR_EN (R400, R401, R416, R422, R435, R436, R486). -/

namespace Sys2Proof.Machine

/-! ### Power off (R435, R486) -/

theorem powerOff_poweredOff (s : State) : PoweredOff s (powerOff s) :=
  ⟨rfl, rfl, rfl, rfl, rfl, rfl, rfl, rfl, rfl, rfl, rfl, rfl, rfl, rfl, fun _ => rfl, fun _ => rfl⟩

/-- The hold of a requested P4 is no part of what a loss of power leaves. -/
theorem offHeld_poweredOff (s : State) : PoweredOff s (updPwr (fun w => { w with offHeld := true }) (powerOff s)) :=
  powerOff_poweredOff s

/-! ### P3 (R435) -/

/-- What P3 leaves of a link port. -/
def sleepingPort (x : Port) : Port := { x with state := .off, replay := [], transit := [], mq := [], seeking := false, naksRun := 0 }

theorem enterP3_frame (s : State) : enterP3 s = { s with
    pwr := { s.pwr with state := .p3, groups := [], wakeDue := false }, ports := (enterP3 s).ports } :=
  forAll_keep (fun t => t = { s with pwr := { s.pwr with state := .p3, groups := [], wakeDue := false }, ports := t.ports }) allPorts _ _
    (fun i _ t same => by rw [same]; rfl) rfl

theorem enterP3_port (s : State) (i : PortId) : (enterP3 s).port i = sleepingPort (s.port i) := by
  refine forAll_once (I := fun t => t.port i = s.port i) (P := fun t => t.port i = sleepingPort (s.port i)) (List.nodup_finRange 8) (List.mem_finRange i) rfl
    (fun j _ other t at_i => ?_) (fun t at_i => ?_) (fun j _ other t done => ?_)
  · rw [updPort_port, if_neg other.symm, at_i]
  · rw [updPort_port_self, at_i]; rfl
  · rw [updPort_port, if_neg other.symm, done]

theorem enterP3_pwr (s : State) : (enterP3 s).pwr = { s.pwr with state := .p3, groups := [], wakeDue := false } := by
  rw [enterP3_frame]

/-! ### Requests (R416, R436) -/

section
variable {m : Master} {env : StartEnv} {s : State} (owner : OwnerActs m s)
include owner

theorem exec_reqStandby : exec (.reqStandby m) s = .next (standby s) := congrArg Host.Outcome.next (ownerOnly_owner owner)
theorem exec_reqOff : exec (.reqOff m) s = .next (requestOff s) := congrArg Host.Outcome.next (ownerOnly_owner owner)
theorem exec_reqWake : exec (.reqWake m env) s = .next (wake env s) := congrArg Host.Outcome.next (ownerOnly_owner owner)
theorem exec_coldStart_owner : exec (.coldStart (some m) env) s = .next (coldStart env s) := congrArg Host.Outcome.next (ownerOnly_owner owner)
theorem exec_warmStart_owner : exec (.warmStart (some m) env) s = .next (warmStart env s) := congrArg Host.Outcome.next (ownerOnly_owner owner)

end

section
variable {s : State}

theorem standby_asleep (asleep : s.pwr.state = .p3) : standby s = s := if_pos asleep

theorem standby_awake (awake : s.pwr.state ≠ .p3) :
    standby s = if allPartsIn s restPart && s.sec.d2.isNone && !s.sec.d3 then enterP3 s else reqReject s := if_neg awake

theorem coldDue_iff : coldDue s = true
    ↔ s.pwr.aon = true ∧ s.pwr.pwrEn = true ∧ s.pwr.offHeld = false ∧ (s.pwr.state = .p4 ∨ s.img.starts = 0) := by
  simp [coldDue, and_assoc]

theorem autowakeDue_iff : autowakeDue s = true ↔ s.pwr.state = .p3 ∧ s.pwr.autowake = true ∧ s.pwr.wakeDue = true := by
  simp [autowakeDue, and_assoc]

end

/-! ### PWR_EN (R486) -/

section
variable {ms : Nat} {env : StartEnv} {s : State}

theorem exec_pwrEnAssert (long : 1 ≤ ms) (low : s.pwr.pwrEn = false) : exec (.pwrEnAssert ms env) s
    = .next (if s.pwr.aon then coldStart env (updPwr (fun w => { w with pwrEn := true }) s) else updPwr (fun w => { w with pwrEn := true }) s) := by
  have run : exec (.pwrEnAssert ms env) s = execPwrEnAssert ms env s := rfl
  rw [run, execPwrEnAssert, if_neg (by simp [low]; omega)]
  rfl

theorem exec_pwrEnAssert_ignored (ignored : ms = 0 ∨ s.pwr.pwrEn = true) : exec (.pwrEnAssert ms env) s = .next s :=
  congrArg Host.Outcome.next (if_pos (ignored.imp_left Nat.lt_one_iff.2))

theorem exec_pwrEnDeassert (long : 1 ≤ ms) (high : s.pwr.pwrEn = true) :
    exec (.pwrEnDeassert ms) s = .next (powerOff (updPwr (fun w => { w with pwrEn := false }) s)) :=
  congrArg Host.Outcome.next (if_neg (by simp [high]; omega))

theorem exec_pwrEnDeassert_ignored (ignored : ms = 0 ∨ s.pwr.pwrEn = false) : exec (.pwrEnDeassert ms) s = .next s :=
  congrArg Host.Outcome.next (if_pos (by simpa [Nat.lt_one_iff] using ignored))

/-- With both Aghorn copies bad no step of a cold start after the second is done (R422). -/
theorem coldStart_noFirmware (bad0 : env.fw0Ok = false) (bad1 : env.fw1Ok = false) :
    (coldStart env s).img.fwCopy = 2 ∧ (coldStart env s).flt.sticky = s.flt.sticky ||| 1024 := by
  have stops (t : State) : stepFirmware env t = none := by rw [stepFirmware, bad0, bad1]; rfl
  unfold coldStart
  simp only [stops]
  exact ⟨rfl, rfl⟩

end

/-! ### The statement -/

/-- Settles O53: each request and each power event by its own lemma. -/
theorem startsAndRequests : Obligations.StartsAndRequests := by
  unfold Obligations.StartsAndRequests
  intro m env ms s
  refine ⟨fun owner => ⟨exec_coldStart_owner owner, exec_warmStart_owner owner, ?wakes, ?wakesNot, ?sleeps, ?asleep, ?barred, ?off, ?offBarred⟩,
    fun due => congrArg Host.Outcome.next (if_pos due), fun due => congrArg Host.Outcome.next (if_neg (Bool.eq_false_iff.1 due)),
    fun due => congrArg Host.Outcome.next (if_pos due), fun due => congrArg Host.Outcome.next (if_neg (Bool.eq_false_iff.1 due)),
    coldDue_iff, autowakeDue_iff, exec_pwrEnAssert, fun long high => ⟨_, exec_pwrEnDeassert long high, powerOff_poweredOff _, rfl, rfl⟩,
    exec_pwrEnAssert_ignored, exec_pwrEnDeassert_ignored, coldStart_noFirmware⟩
  case wakes => intro asleep; rw [exec_reqWake owner, wake, if_pos asleep]
  case wakesNot => intro awake; rw [exec_reqWake owner, wake, if_neg awake]
  case sleeps =>
    intro awake rest d2 d3
    have allowed : (allPartsIn s restPart && s.sec.d2.isNone && !s.sec.d3) = true := by
      rw [d2, d3, show allPartsIn s restPart = true from rest]; rfl
    refine ⟨enterP3 s, ?_, ?_, enterP3_pwr s, enterP3_port s⟩
    · rw [exec_reqStandby owner, standby_awake awake, if_pos allowed]
    · rw [enterP3_frame]
  case asleep => intro asleep; rw [exec_reqStandby owner, standby_asleep asleep]
  case barred =>
    intro awake bars
    have refused : (allPartsIn s restPart && s.sec.d2.isNone && !s.sec.d3) = false := by
      rcases bars with busy | d2 | d3
      · rw [show allPartsIn s restPart = false from busy]; rfl
      · rw [Option.isNone_eq_false_iff.2 (Option.isSome_iff_ne_none.2 d2), Bool.and_false, Bool.false_and]
      · rw [d3, Bool.not_true, Bool.and_false]
    rw [exec_reqStandby owner, standby_awake awake, refused]
    rfl
  case off =>
    intro rest d2
    refine ⟨_, (exec_reqOff owner).trans (congrArg Host.Outcome.next (if_pos ?_)), offHeld_poweredOff s, rfl⟩
    rw [rest, d2]; rfl
  case offBarred =>
    intro bars
    refine (exec_reqOff owner).trans (congrArg Host.Outcome.next (if_neg ?_))
    rw [Bool.not_eq_true, Bool.and_eq_false_iff]
    exact bars.imp_right fun d2 => Option.isNone_eq_false_iff.2 (Option.isSome_iff_ne_none.2 d2)

end Sys2Proof.Machine
end

section
/-! PROOF. O59, the MSI-X vectors (R466, R467). -/

namespace Sys2Proof.Machine

/-! ### Messages -/

section
variable {f : FuncId} {k : Fin 128} {s : State}

theorem exec_msixMessage : exec (.msixMessage f k) s = .next (if msixDue s (s.func f).vectors[k] then
    emit (.msix f.1 k.1) (updFunc f (fun g => { g with
      vectors := g.vectors.set k.1 { g.vectors[k] with due := false, lastNs := some (nowNs s) } k.2 }) s) else s) := rfl

/-- A vector may send: no message of the last 4 us bars it. -/
theorem msixDue_iff (x : Msix) : msixDue s x = true ↔ x.due = true ∧ x.masked = false ∧ ∀ t, x.lastNs = some t → t + 4000 ≤ nowNs s ∨ nowNs s < t := by
  unfold msixDue msixGap
  cases x.lastNs with
  | none => simp
  | some t => simp [and_assoc]

theorem exec_msixMessage_sends (due : msixDue s (s.func f).vectors[k] = true) :
    exec (.msixMessage f k) s = .next (emit (.msix f.1 k.1) (updFunc f (fun g => { g with
      vectors := g.vectors.set k.1 { (s.func f).vectors[k] with due := false, lastNs := some (nowNs s) } k.2 }) s)) := by
  rw [exec_msixMessage, if_pos due]
  exact congrArg (fun t => Host.Outcome.next (emit _ t)) (updFunc_congr rfl)

theorem exec_msixMessage_not_due (early : msixDue s (s.func f).vectors[k] = false) : exec (.msixMessage f k) s = .next s := by
  rw [exec_msixMessage, early]; rfl

/-! ### Events -/

theorem vecEvent_vector : ((vecEvent f k s).func f).vectors[k] = msixHit (s.func f).vectors[k] := by
  rw [vecEvent, updFunc_func_self]
  simp

theorem vecEvent_vector_other {j : Fin 128} (other : j ≠ k) : ((vecEvent f k s).func f).vectors[j] = (s.func f).vectors[j] := by
  have apart : k.1 ≠ j.1 := fun e => other (Fin.ext e.symm)
  rw [vecEvent, updFunc_func_self]
  simp [apart]

end

theorem msixHit_unmasked {x : Msix} (open_ : x.masked = false) : msixHit x = { x with due := true } := by rw [msixHit, open_]; rfl

theorem msixHit_masked {x : Msix} (masked : x.masked = true) : msixHit x = { x with pend := true } := by rw [msixHit, if_pos masked]

/-- A write that unmasks a vector owes the message that its pending bit held. -/
theorem setVector_unmasks {w : BusWrite} {x : Msix} (masked : x.masked = true) (pending : x.pend = true)
    (unmasks : bit (w.put (x.data.toNat + 2 ^ 32)) 32 = false) :
    (setVector w 1 x).due = true ∧ (setVector w 1 x).pend = false ∧ (setVector w 1 x).masked = false := by
  have mask : bit (w.put (x.data.toNat + 2 ^ 32 * b2n x.masked)) 32 = false := by rw [masked]; exact unmasks
  rw [setVector, if_neg (by decide)]
  dsimp only
  rw [mask, pending]
  simp

/-! ### The statement -/

/-- Settles O59: a message by what the vector owes, an event by its mask, and the write that unmasks it. -/
theorem messageVectors : Obligations.MessageVectors := by
  unfold Obligations.MessageVectors
  intro f k w s q
  refine ⟨fun due open_ gap => exec_msixMessage_sends ((msixDue_iff q).2 ⟨due, open_, fun t last => .inl (gap t last)⟩), fun t last past recent => ?early,
    fun idle => ?idle, fun open_ => vecEvent_vector.trans (msixHit_unmasked open_), fun masked => vecEvent_vector.trans (msixHit_masked masked),
    fun j other => vecEvent_vector_other other, setVector_unmasks⟩
  case early =>
    refine exec_msixMessage_not_due (Bool.eq_false_iff.2 fun due => ?_)
    have := ((msixDue_iff q).1 due).2.2 t last
    omega
  case idle =>
    refine exec_msixMessage_not_due (Bool.eq_false_iff.2 fun due => ?_)
    obtain ⟨owes, open_, -⟩ := (msixDue_iff q).1 due
    rcases idle with none | masked
    · exact absurd owes (Bool.eq_false_iff.1 none)
    · exact absurd masked (Bool.eq_false_iff.1 open_)

end Sys2Proof.Machine
end

section
/-! PROOF. O57, attestation requests and reports (R428, R429). -/

namespace Sys2Proof.Machine

/-! ### Requests -/

/-- A function's queue takes no further request, or the device has no identity (R420, R429). -/
def reportsFull (s : State) (f : FuncId) : Prop := s.sec.pufOk = false ∨ 4 ≤ (s.func f).atts.length

section
variable {f : FuncId} {nonce : Nat} {addr : W64} {reject : State → State} {s : State}

theorem requestReport_held (room : ¬reportsFull s f) : requestReport f nonce addr reject s
    = updFunc f (fun x => { x with atts := x.atts ++ [{ nonce, addr := addr &&& 0xFFFFFFFFFFFFFFC0 }] }) s :=
  if_neg (by simpa [reportsFull] using room)

theorem requestReport_full (full : reportsFull s f) : requestReport f nonce addr reject s = reject s :=
  if_pos (by simpa [reportsFull] using full)

end

section
variable {m : Master} {p : PartId} {s : State}

theorem exec_secAttgo (arrived : arrives s .pf0 = true) : exec (.secAttgo .pf0) s
    = .next (requestReport 0 s.sec.attNonce s.sec.attAddr (updSec (fun x => { x with attRej := true })) s) := by
  have run : exec (.secAttgo .pf0) s = execSecAttgo .pf0 s := rfl
  rw [run, execSecAttgo, arrived]
  rfl

theorem exec_secAttgo_other (arrived : arrives s m = true) (other : m ≠ .pf0) : exec (.secAttgo m) s = .next (ignoreWrite m 0x120038 1 s) := by
  have run : exec (.secAttgo m) s = execSecAttgo m s := rfl
  rw [run, execSecAttgo, arrived, if_neg other]
  rfl

theorem exec_prtAttgo (arrived : arrives s (.vf (vfOf p)) = true) : exec (.prtAttgo (.vf (vfOf p)) p) s
    = .next (requestReport (vfOf p) (s.part p).attNonce (s.part p).attAddr (prtError p (fun x => { x with attrej := true })) s) := by
  have run : exec (.prtAttgo (.vf (vfOf p)) p) s = execPrtAttgo (.vf (vfOf p)) p s := rfl
  rw [run, execPrtAttgo, arrived, if_pos rfl]
  rfl

theorem exec_prtAttgo_other (arrived : arrives s m = true) (other : m ≠ .vf (vfOf p)) :
    exec (.prtAttgo m p) s = .next (ignoreWrite m (prtOff p 0x48) 1 s) := by
  have run : exec (.prtAttgo m p) s = execPrtAttgo m p s := rfl
  rw [run, execPrtAttgo, arrived, if_neg other]
  rfl

end

/-! ### Reports -/

/-- Host memory takes a report at the address that its request gave, the request leaves the queue, and the function's vector is signalled. -/
def reported (f : FuncId) (a : Nat) (data : List Byte) (rest : List AttReq) (s : State) : State :=
  vecEvent f (if f.1 = 0 then 4 else 1) (updFunc f (fun x => { x with atts := rest }) (hostWrite a data { s with freeCtr := s.freeCtr + 6152 }))

section
variable {f : FuncId} {a : Nat} {data : List Byte} {r : AttReq} {rest : List AttReq} {s : State}

theorem exec_attestationReport (oldest : (s.func f).atts = r :: rest) (on : s.pwr.state ≠ .p4) :
    exec (.attestationReport f) s = .next (reported f r.addr.toNat (reportFields s f r ++ freeBytes s.freeCtr 6152) rest s) := by
  have run : exec (.attestationReport f) s = execAttestationReport f s := rfl
  rw [run, execAttestationReport, oldest]
  exact congrArg Host.Outcome.next (if_neg on)

theorem exec_attestationReport_none (none : (s.func f).atts = [] ∨ s.pwr.state = .p4) : exec (.attestationReport f) s = .next s := by
  have run : exec (.attestationReport f) s = execAttestationReport f s := rfl
  rw [run, execAttestationReport]
  cases atts : (s.func f).atts with
  | nil => rfl
  | cons r rest => exact congrArg Host.Outcome.next (if_pos (none.resolve_left (by simp [atts])))

theorem reported_atts : ((reported f a data rest s).func f).atts = rest := by
  rw [reported, vecEvent, updFunc_func_self, updFunc_func_self]

theorem reported_host : (reported f a data rest s).mem.host = wrBytes s.mem.host a data := rfl

theorem reported_frame : reported f a data rest s = { s with
    funcs := (reported f a data rest s).funcs, freeCtr := s.freeCtr + 6152, mem := { s.mem with host := (reported f a data rest s).mem.host } } := rfl

/-- The first word of a report, in little-endian order. -/
theorem reportFields_start : (reportFields s f r).take 4 = [0x7E, 0xA7, 0x90, 0x0C] := by
  unfold reportFields
  simp only [List.append_assoc]
  rw [List.take_append_of_le_length (by simp [leBytes])]
  rfl

end

/-! ### The statement -/

/-- Settles O57: a request by who asks for it and whether it has room, a report by the queue that it serves. -/
theorem attestation : Obligations.Attestation := by
  unfold Obligations.Attestation
  intro p f m r rest s full
  refine ⟨fun arrived => ⟨fun room => ?_, fun isFull => ?_⟩, fun arrived => ⟨fun room => ?_, fun isFull => ?_⟩, exec_secAttgo_other, exec_prtAttgo_other,
    fun oldest on => ⟨_, exec_attestationReport oldest on, reported_atts, reported_frame, reported_host, reportFields_start⟩, exec_attestationReport_none⟩
  · rw [exec_secAttgo arrived, requestReport_held room]
  · rw [exec_secAttgo arrived, requestReport_full isFull]
  · rw [exec_prtAttgo arrived, requestReport_held room]
  · rw [exec_prtAttgo arrived, requestReport_full isFull]

end Sys2Proof.Machine
end

section
/-! PROOF. O58, self-tests, recoveries and the loss summary (R402, R410, R441, R447, R457-R459, R462). -/

namespace Sys2Proof.Machine

/-! ### Requests (R457, R458) -/

/-- The test of a kind and resource that waits. -/
def waitingTest (kind : Byte) (res : W16) (s : State) : Option Test :=
  s.flt.tests.find? (fun t => t.kind == kind.toNat && (t.res == res.toNat || kind.toNat == tFULL || kind.toNat == tSHORT)
    && decide (t.stat = .queued ∨ t.stat = .deferred))

section
variable {m : Master} {kind : Byte} {res : W16} {s : State} (owner : OwnerActs m s)
include owner

theorem exec_fltTestreq_invalid (invalid : resOk kind.toNat res.toNat = false) :
    exec (.fltTestreq m kind res) s = .next (ignoreWrite m 0xE0048 2 s) := by
  refine congrArg Host.Outcome.next ((ownerOnly_owner owner).trans (if_pos ?_))
  rw [invalid]; rfl

variable (valid : resOk kind.toNat res.toNat = true)
include valid

theorem exec_fltTestreq_waits {t : Test} (waits : waitingTest kind res s = some t) :
    exec (.fltTestreq m kind res) s = .next (updFlt (fun f => { f with testLast := t.num }) s) := by
  refine congrArg Host.Outcome.next ((ownerOnly_owner owner).trans ((if_neg (by simp [valid])).trans ?_))
  rw [show s.flt.tests.find? _ = some t from waits]

theorem exec_fltTestreq_new (none : waitingTest kind res s = none) :
    let t : Test := { num := s.flt.testNext, kind := kind.toNat, res := res.toNat, stat := firstStat s kind.toNat res.toNat }
    exec (.fltTestreq m kind res) s = .next (holdTests (testRecord t 0 0 false (updFlt (fun f => { f with
      testLast := f.testNext, testNext := f.testNext + 1, tests := f.tests ++ [t] }) s))) := by
  refine congrArg Host.Outcome.next ((ownerOnly_owner owner).trans ((if_neg (by simp [valid])).trans ?_))
  rw [show s.flt.tests.find? _ = .none from none]
  rfl

end

/-! ### Start and end (R402, R410, R457-R459) -/

section
variable {n : Nat} {fm : W64} {detail : W32} {ls : List (Fin 512)} {s : State}

theorem exec_selfTest_unknown (unknown : ∀ t ∈ s.flt.tests, t.num ≠ n) :
    exec (.selfTestStart n) s = .next s ∧ exec (.selfTestComplete n fm detail ls) s = .next s := by
  have none : s.flt.tests.find? (fun t => t.num == n) = none := List.find?_eq_none.2 fun t among => by simpa using unknown t among
  have start : exec (.selfTestStart n) s = execSelfTestStart n s := rfl
  have complete : exec (.selfTestComplete n fm detail ls) s = execSelfTestComplete n fm detail ls s := rfl
  rw [start, complete, execSelfTestStart, execSelfTestComplete, none]
  exact ⟨rfl, rfl⟩

variable {t : Test} (known : s.flt.tests.find? (fun t => t.num == n) = some t)
include known

theorem exec_selfTestStart_early (early : testDue s t = false) : exec (.selfTestStart n) s = .next s := by
  have run : exec (.selfTestStart n) s = execSelfTestStart n s := rfl
  rw [run, execSelfTestStart, known]
  exact congrArg Host.Outcome.next (if_pos (by simp [early]))

theorem exec_selfTestStart_due (due : testDue s t = true) : exec (.selfTestStart n) s = .next (holdTests
    (let u := whenS (t.kind == tFULL) (updFlt (fun f => { f with limited := true, normalDue := false })) (setStat n .running 0 0 false s)
     whenS (t.kind == tPORTEQ && (u.port (portid t.res)).role != 0) (startTraining (portid t.res)) u)) := by
  have run : exec (.selfTestStart n) s = execSelfTestStart n s := rfl
  rw [run, execSelfTestStart, known]
  exact congrArg Host.Outcome.next (if_neg (by simp [due]))

theorem exec_selfTestComplete_idle (idle : t.stat ≠ .running) : exec (.selfTestComplete n fm detail ls) s = .next s := by
  have run : exec (.selfTestComplete n fm detail ls) s = execSelfTestComplete n fm detail ls s := rfl
  rw [run, execSelfTestComplete, known]
  exact congrArg Host.Outcome.next (if_pos idle)

variable (runs : t.stat = .running)
include runs

theorem exec_selfTestComplete_passed : exec (.selfTestComplete n 0 detail ls) s = .next (holdTests
    (serviceAfter t.kind true (setStat n .passed 0 0 (decide (t.kind = 1 ∨ t.kind = 2 ∨ t.kind = 3)) s))) := by
  have run : exec (.selfTestComplete n 0 detail ls) s = execSelfTestComplete n 0 detail ls s := rfl
  have arrays : decide (t.kind = 1 ∨ t.kind = 2 ∨ t.kind = 3) = decide ((0 : W64).toNat < 16 ∧ (t.kind = 1 ∨ t.kind = 2 ∨ t.kind = 3)) := by simp
  rw [run, execSelfTestComplete, known, arrays]
  exact congrArg Host.Outcome.next (if_neg (not_not.2 runs))

theorem exec_selfTestComplete_failed (failed : fm ≠ 0) : exec (.selfTestComplete n fm detail ls) s = .next (holdTests
    (serviceAfter t.kind false (failArrays t.kind ls (alarm 8 (setStat n .failed fm.toNat detail.toNat
      (decide (fm.toNat < 16 ∧ (t.kind = 1 ∨ t.kind = 2 ∨ t.kind = 3))) s))))) := by
  have run : exec (.selfTestComplete n fm detail ls) s = execSelfTestComplete n fm detail ls s := rfl
  have bad : (fm == 0) = false := beq_false_of_ne failed
  rw [run, execSelfTestComplete, known]
  refine congrArg Host.Outcome.next ((if_neg (not_not.2 runs)).trans ?_)
  rw [bad]
  rfl

end

/-! ### Recoveries (R441, R462) -/

section
variable {kind block : Nat} {env : StartEnv} {s : State}

theorem recover_disabled (disabled : s.flt.recoverEn = false) : recover kind block env s = deviceFault kind block s :=
  if_pos (by simp [disabled])

variable (enabled : s.flt.recoverEn = true)
include enabled

theorem recover_limit (limit : 3 ≤ (recentRec s).length) : recover kind block env s
    = deviceFault 4 block (haltAll (alarm 10 (updFlt (fun f => { f with fwAlarm := true }) s))) :=
  (if_neg (by simp [enabled])).trans (if_pos limit)

theorem recover_starts (few : (recentRec s).length < 3) : recover kind block env s = warmStart env (updFlt (fun f => { f with
    recover := satAdd 64 f.recover 1, recTicks := recentRec s ++ [s.tick.now], recCause := f.recCause ++ [kind + 16 * block] }) s) :=
  (if_neg (by simp [enabled])).trans (if_neg (Nat.not_le.2 few))

end

section
variable {env : StartEnv} {block : Byte} {s : State}

theorem exec_recoveries_on (on : aghornOn s = true) :
    exec (.watchdogExpiry env) s = .next (recover 2 0 env s) ∧ exec (.hubError block env) s = .next (recover 1 block.toNat env s) :=
  ⟨congrArg Host.Outcome.next (if_pos on), congrArg Host.Outcome.next (if_pos on)⟩

theorem exec_recoveries_off (off : aghornOn s = false) : exec (.watchdogExpiry env) s = .next s ∧ exec (.hubError block env) s = .next s :=
  ⟨congrArg Host.Outcome.next (if_neg (Bool.eq_false_iff.1 off)), congrArg Host.Outcome.next (if_neg (Bool.eq_false_iff.1 off))⟩

end

/-! ### The loss summary (R447) -/

section
variable {s : State}

/-- The summary of the records dropped since the last one. -/
def summaryNow (s : State) : LogRec := { tick := s.tick.now, phase := s.tick.phase, prio := 0, type := 14, body := s.flt.dropsNew.toList }

/-- The counts of dropped records begin afresh. -/
def dropsZeroed (s : State) : State := updFlt (fun f => { f with dropsNew := Vector.replicate 4 0 }) s

theorem noDrops_iff : (s.flt.dropsNew.toList.all fun n => n == 0) = true ↔ ∀ k : Fin 4, s.flt.dropsNew[k] = 0 := by
  rw [List.all_eq_true, List.forall_mem_iff_getElem]
  simp [Fin.forall_iff]

theorem lossSummary_due (due : s.tick.now % 16 = 0) (lost : ∃ k : Fin 4, s.flt.dropsNew[k] ≠ 0) : lossSummary s
    = updFlt (fun f => { f with queue := summaryNow s :: f.queue })
        (if (dropsZeroed s).flt.queue.length < 4096 then dropsZeroed s
         else
          let worst := (dropsZeroed s).flt.queue.foldl (fun a x => Nat.max a x.prio) 0
          countDrop worst (updFlt (fun f => { f with queue := dropNewest worst f.queue }) (dropsZeroed s))) := by
  refine if_neg ?_
  rw [noDrops_iff, not_or]
  exact ⟨not_not.2 due, not_forall.2 lost⟩

theorem lossSummary_not_due (none : s.tick.now % 16 ≠ 0 ∨ ∀ k : Fin 4, s.flt.dropsNew[k] = 0) : lossSummary s = s :=
  if_pos (none.imp_right noDrops_iff.2)

end

/-! ### The statement -/

/-- Settles O58: a request by the test that waits, a test by its state and outcome, a recovery by its limit, the summary by the queue's room. -/
theorem testsAndRecoveries : Obligations.TestsAndRecoveries := by
  unfold Obligations.TestsAndRecoveries
  intro m kind res n fm detail ls env block s waits
  refine ⟨fun owner valid none => exec_fltTestreq_new owner valid none, fun t owner valid waits => exec_fltTestreq_waits owner valid waits,
    fun owner invalid => exec_fltTestreq_invalid owner invalid,
    fun t known => ⟨?full, ?others, ?equalise, exec_selfTestStart_early known, exec_selfTestComplete_idle known, ?passes, exec_selfTestComplete_failed known⟩,
    ?recoveries, ?disabled, exec_recoveries_off, exec_selfTest_unknown, ?summary, ?noSummary⟩
  case full => intro due kind; rw [exec_selfTestStart_due known due, kind]; rfl
  case others =>
    intro due notFull notPort
    have full : (t.kind == tFULL) = false := beq_false_of_ne notFull
    have port : (t.kind == tPORTEQ) = false := beq_false_of_ne notPort
    rw [exec_selfTestStart_due known due, full, port]
    rfl
  case equalise =>
    intro due kind
    rw [exec_selfTestStart_due known due, kind]
    dsimp only
    by_cases off : ((setStat n .running 0 0 false s).port (portid t.res)).role = 0
    · rw [if_pos off]; simp [whenS, tFULL, tPORTEQ, off]
    · rw [if_neg off]; simp [whenS, tFULL, tPORTEQ, off]
  case passes => intro runs passed; rw [passed]; exact exec_selfTestComplete_passed known runs
  case recoveries =>
    intro on enabled recent from_
    obtain ⟨watchdog, hub⟩ := exec_recoveries_on (env := env) (block := block) on
    rw [watchdog, hub]
    refine ⟨fun few => ?_, fun limit => ?_⟩
    · rw [recover_starts enabled few, recover_starts enabled few]; exact ⟨rfl, rfl⟩
    · rw [recover_limit enabled limit, recover_limit enabled limit]; exact ⟨rfl, rfl⟩
  case disabled =>
    intro on disabled
    obtain ⟨watchdog, hub⟩ := exec_recoveries_on (env := env) (block := block) on
    rw [watchdog, hub, recover_disabled disabled, recover_disabled disabled]
    exact ⟨rfl, rfl⟩
  case summary =>
    intro due lost
    have run : exec .lossSummary s = .next (lossSummary s) := rfl
    rw [run, lossSummary_due due lost]
    exact ⟨fun room => congrArg (fun t => Host.Outcome.next (updFlt _ t)) (if_pos room),
      fun full => congrArg (fun t => Host.Outcome.next (updFlt _ t)) (if_neg full)⟩
  case noSummary => exact fun none => congrArg Host.Outcome.next (lossSummary_not_due none)

end Sys2Proof.Machine
end

section
/-! PROOF. O55, the security commands (R423, R424, R433, R434): one form of check for all of them, then the effect of each. -/

namespace Sys2Proof.Machine

/-! ### The checks (R424) -/

theorem inState_iff (l : List Nat) (s : State) : inState l s = true ↔ s.sec.state ∈ l := List.contains_iff_mem

theorem recordFree_iff (s : State) : recordFree s = true ↔ s.pwr.flashWp = false := by simp [recordFree]

theorem chalLive_iff (s : State) : chalLive s = true ↔ ∃ v t, s.sec.chal = some (v, t) ∧ s.tick.now < t + secTicks := by
  simp [chalLive, Option.any_eq_true]

/-- What a command with a bad signature does besides setting RES. -/
def unsignedEffect (i : Instr) (s : State) : State :=
  match i with
  | .unlock _ _ => unlockFailed s
  | _ => s

/-- What a security command does once every check has passed (R424). -/
def secEffect (i : Instr) (s : State) : State :=
  match i with
  | .provision _ _ k => secRes 1 (updSec (fun x => { x with stateNext := some 1 }) (putRecord
      { sgen := (Config.free s.freeCtr).toNat % 2 ^ 32, s2 := false, keys := k.keyids, digest := k.digest, valid := true, erased := false }
      { s with freeCtr := s.freeCtr + 1 }))
  | .rotate _ _ k => secRes 1 (match provInUse s with
      | none => s
      | some r => putRecord { r with sgen := r.sgen + 1, keys := k.keyids, digest := k.digest } s)
  | .lockdown _ _ => secRes 1 (updSec (fun x => { x with stateNext := some 2, chal := none }) (flagRecord true s))
  | .secRelease _ _ => secRes 1 (updSec (fun x => { x with stateNext := some 1 }) (flagRecord false s))
  | .deprovision _ _ => secRes 5 (updSec (fun x => { x with wipe := some .deprovision }) s)
  | .debug0 _ _ => secRes 1 (updSec (fun x => { x with dbgNext := x.dbgNext ++ [false] }) s)
  | .debug1 _ _ => secRes 1 (updSec (fun x => { x with dbgNext := x.dbgNext ++ [true] }) s)
  | .debug2 _ h p _ => vecEvent (vfOf (pid p.toNat)) 3 (secRes 5 (updSec (fun x => { x with
      d2req := some (p.toNat, h.nonce.toNat, false, s.tick.now) }) s))
  | .challenge _ _ => secRes 1 (emit (.report 0 [Config.random256 s.freeCtr]) (updSec (fun x => { x with
      chal := some (Config.random256 s.freeCtr, s.tick.now) }) { s with freeCtr := s.freeCtr + 1 }))
  | .unlock _ _ => secRes 5 (updSec (fun x => { x with chal := none, wipe := some .d3 }) s)
  | _ => s

/-- Every security command is done through the same checks; its own are those of `secState` and `secCond`. -/
theorem exec_secForm {i : Instr} {m : Master} {h : SecHdr} {cmd len : Nat} {signed : Bool} (form : secForm i = some (m, h, cmd, len, signed)) (s : State) :
    ∃ stateOk condOk unsigned, exec i s = .next (secCmd m h cmd len signed stateOk condOk unsigned (secEffect i) s)
      ∧ (stateOk s = true ↔ secState i s) ∧ (condOk s = true ↔ secCond i s) ∧ unsigned s = unsignedEffect i s := by
  unfold secForm at form
  split at form <;> cases form
  -- PROVISION, ROTATE, LOCKDOWN, RELEASE, DEPROVISION
  case h_1 | h_2 | h_3 | h_4 | h_5 =>
    exact ⟨_, _, _, rfl, by simp [inState_iff, secState], by simp [secCond, recordFree_iff, and_assoc], rfl⟩
  -- DEBUG0, DEBUG1, DEBUG2
  case h_6 | h_7 | h_8 => exact ⟨_, _, _, rfl, by simp [secState], by simp [secCond], rfl⟩
  -- CHALLENGE
  case h_9 => exact ⟨_, _, _, rfl, by simp [inState_iff, secState]; omega, by simp [secCond], rfl⟩
  -- UNLOCK
  case h_10 => exact ⟨_, _, _, rfl, by simp [inState_iff, secState]; omega, by simp [secCond, chalLive_iff, secTicks, and_assoc], rfl⟩

/-- A command has the layout of its CMD (R424). -/
def secLayout (h : SecHdr) (cmd len : Nat) (signed : Bool) : Prop :=
  h.cmd.toNat = cmd ∧ h.rsv0 = true ∧ h.len.toNat = 16 + len + (if signed then 2420 else 0)

/-- A command that needs a signature has a good one, and the device an identity (R424). -/
def secSigned (h : SecHdr) (signed : Bool) (s : State) : Prop := signed = true → h.sigOk = true ∧ s.sec.pufOk = true

section
variable {m : Master} {h : SecHdr} {cmd len : Nat} {signed : Bool} {stateOk condOk : State → Bool} {unsigned effect : State → State} {s : State}
  (owner : OwnerActs m s)
include owner

theorem secCmd_malformed (bad : ¬secLayout h cmd len signed ∨ ¬within16 s.tick.now h.tick.toNat = true) :
    secCmd m h cmd len signed stateOk condOk unsigned effect s = secRes 4 s := by
  rw [secCmd, ownerOnly_owner owner]
  by_cases layout : secLayout h cmd len signed
  case neg => exact if_pos (by simpa [secLayout, or_iff_not_imp_left] using layout)
  case pos =>
    obtain ⟨same, zero, long⟩ := layout
    rw [if_neg (by simp [same, zero, long]), if_pos (by simpa using bad.resolve_left (not_not.2 ⟨same, zero, long⟩))]

variable (layout : secLayout h cmd len signed) (tick : within16 s.tick.now h.tick.toNat = true)
include layout tick

/-- A command with its layout and its tick goes on to the state, the signature and the further conditions, in this order. -/
theorem secCmd_formed : secCmd m h cmd len signed stateOk condOk unsigned effect s
    = if !stateOk s then secRes 2 s else if signed && !(h.sigOk && s.sec.pufOk) then secRes 3 (unsigned s)
      else if !condOk s then secRes 4 s else effect s := by
  obtain ⟨same, zero, long⟩ := layout
  rw [secCmd, ownerOnly_owner owner, if_neg (by simp [same, zero, long]), if_neg (by simp [tick])]

end

/-- The first check that fails sets RES. -/
theorem exec_secForm_refused {i : Instr} {m : Master} {h : SecHdr} {cmd len : Nat} {signed : Bool} {s : State}
    (form : secForm i = some (m, h, cmd, len, signed)) (owner : OwnerActs m s) :
    let layout := secLayout h cmd len signed
    let tick := within16 s.tick.now h.tick.toNat = true
    (¬layout ∨ ¬tick → exec i s = .next (secRes 4 s))
    ∧ (layout → tick → ¬secState i s → exec i s = .next (secRes 2 s))
    ∧ (layout → tick → secState i s → ¬secSigned h signed s → exec i s = .next (secRes 3 (unsignedEffect i s)))
    ∧ (layout → tick → secState i s → secSigned h signed s → ¬secCond i s → exec i s = .next (secRes 4 s)) := by
  intro layout tick
  obtain ⟨stateOk, condOk, unsigned, run, state, cond, unsigned_eq⟩ := exec_secForm form s
  rw [run, ← state, ← cond, ← unsigned_eq]
  have sig : (signed && !(h.sigOk && s.sec.pufOk)) = true ↔ ¬secSigned h signed s := by
    unfold secSigned; cases signed <;> cases h.sigOk <;> simp
  refine ⟨fun bad => by rw [secCmd_malformed owner bad], fun formed now other => ?_, fun formed now ok bad => ?_, fun formed now ok good other => ?_⟩
  · rw [secCmd_formed owner formed now, if_pos (by simpa using other)]
  · rw [secCmd_formed owner formed now, if_neg (by simp [ok]), if_pos (sig.2 bad)]
  · rw [secCmd_formed owner formed now, if_neg (by simp [ok]), if_neg (fun e => sig.1 e good), if_pos (by simpa using other)]

/-- A command that passes every check has its effect. -/
theorem exec_secForm_runs {i : Instr} {m : Master} {h : SecHdr} {cmd len : Nat} {signed : Bool} {s : State}
    (form : secForm i = some (m, h, cmd, len, signed)) (runs : SecCmdOk m h cmd len signed s ∧ secState i s ∧ secCond i s) :
    exec i s = .next (secEffect i s) := by
  obtain ⟨checked, state, cond⟩ := runs
  obtain ⟨stateOk, condOk, unsigned, run, state_iff, cond_iff, -⟩ := exec_secForm form s
  rw [run, secCmd_ok checked, if_pos (state_iff.2 state), if_pos (cond_iff.2 cond)]

/-! ### The record (R423) -/

theorem flagRecord_inUse {r : Prov} {s : State} (inUse : provInUse s = some r) (b : Bool) : flagRecord b s
    = putRecord { r with sgen := r.sgen + 1, s2 := b, digest := Config.sha3 [r.digest, r.sgen + 1, if b then 1 else 0] } s := by
  rw [flagRecord, inUse]
  rfl

/-! ### The wipe (R434) -/

theorem wipeAll_ws (s : State) (c : CoreId) : ((wipeAll s).core c).ws = [] := by
  simp [wipeAll, State.core, wipeCore]

theorem wipeAll_xmem (s : State) (p : PartId) : ((wipeAll s).part p).xmem = [] := by
  simp [wipeAll, State.part]

/-- The end of a wipe: its contents are gone, and what it was for is due or done. -/
def wiped (w : Wipe) (s : State) : State :=
  match w with
  | .d3 => updSec (fun x => { x with wipe := none, d3Next := true }) (wipeAll s)
  | .deprovision => secRes 1 (updSec (fun x => { x with wipe := none, prov0 := {}, prov1 := {}, stateNext := some 0 }) (wipeAll s))

theorem exec_wipeComplete {w : Wipe} {s : State} (wipes : s.sec.wipe = some w) : exec .wipeComplete s = .next (wiped w s) := by
  have run : exec .wipeComplete s = execWipeComplete s := rfl
  rw [run, execWipeComplete, wipes]
  cases w <;> rfl

theorem exec_wipeComplete_none {s : State} (none : s.sec.wipe = none) : exec .wipeComplete s = .next s := by
  have run : exec .wipeComplete s = execWipeComplete s := rfl
  rw [run, execWipeComplete, none]

/-- Either wipe leaves the stores as `wipeAll` does, and itself no more. -/
theorem wiped_stores (w : Wipe) (s : State) : (wiped w s).sec.wipe = none ∧ (wiped w s).mem = (wipeAll s).mem
    ∧ (wiped w s).cores = (wipeAll s).cores ∧ (wiped w s).parts = (wipeAll s).parts := by
  cases w <;> exact ⟨rfl, rfl, rfl, rfl⟩

/-! ### The statement -/

/-- Settles O55: the refusals are one lemma for every security command, and so are the effects; the wipe's end by its own. -/
theorem securityCommands : Obligations.SecurityCommands := by
  unfold Obligations.SecurityCommands
  refine ⟨fun i m h cmd len signed s form owner => exec_secForm_refused form owner, fun m h k s => ?_⟩
  intro due runs
  refine ⟨exec_secForm_runs rfl, fun ok => ⟨fun r inUse => ?rotated, fun none => ?unrotated⟩, exec_secForm_runs rfl, exec_secForm_runs rfl, exec_secForm_runs rfl,
    fun r inUse b => flagRecord_inUse inUse b, fun w wipes => ⟨_, exec_wipeComplete wipes, ?wiped⟩, exec_wipeComplete_none⟩
  case rotated => rw [exec_secForm_runs (i := .rotate m h k) rfl ok, secEffect, inUse]
  case unrotated => rw [exec_secForm_runs (i := .rotate m h k) rfl ok, secEffect, none]
  case wiped =>
    obtain ⟨wipe, mem, cores, parts⟩ := wiped_stores w s
    refine ⟨wipe, by rw [mem]; rfl, by rw [mem]; rfl, fun c => ?_, fun p => ?_, ?_, ?_⟩
    · rw [State.core, cores]; exact wipeAll_ws s c
    · rw [State.part, parts]; exact wipeAll_xmem s p
    · rintro rfl; exact ⟨rfl, rfl, rfl, rfl⟩
    · rintro rfl; rfl

end Sys2Proof.Machine
end

section
/-! PROOF. O56, the debug commands (R424, R427, R430-R433). -/

namespace Sys2Proof.Machine

/-! ### Consent (R431) -/

section
variable {m : Master} {p : PartId} {nonce : W32} {yes : Bool} {s : State}

theorem exec_prtConsent (arrived : arrives s (.vf (vfOf p)) = true) :
    exec (.prtConsent (.vf (vfOf p)) p nonce yes) s = .next (giveConsent p nonce yes s) := by
  have run : exec (.prtConsent (.vf (vfOf p)) p nonce yes) s = execPrtConsent (.vf (vfOf p)) p nonce yes s := rfl
  rw [run, execPrtConsent, arrived, if_pos rfl]
  rfl

theorem exec_prtConsent_other (arrived : arrives s m = true) (other : m ≠ .vf (vfOf p)) :
    exec (.prtConsent m p nonce yes) s = .next (ignoreWrite m (prtOff p 0x18) 1 s) := by
  have run : exec (.prtConsent m p nonce yes) s = execPrtConsent m p nonce yes s := rfl
  rw [run, execPrtConsent, arrived, if_neg other]
  rfl

/-- Consent withdrawn ends a D2 of the partition (R431). -/
def consentEnds (p : PartId) (yes : Bool) (x : Sec) : Bool := x.d2end || (!yes && x.d2 == some p.1)

theorem giveConsent_asked {n t : Nat} {c : Bool} (asked : s.sec.d2req = some (p.1, n, c, t)) : giveConsent p nonce yes s
    = updSec (fun x => { x with
        d2req := some (p.1, n, if yes then c || n == nonce.toNat else false, t), d2end := consentEnds p yes s.sec }) s := by
  refine updSec_congr ?_
  rw [asked]
  exact if_pos rfl

theorem giveConsent_unasked (unasked : ∀ n c t, s.sec.d2req ≠ some (p.1, n, c, t)) : giveConsent p nonce yes s
    = updSec (fun x => { x with d2end := consentEnds p yes s.sec }) s := by
  refine updSec_congr ?_
  cases asked : s.sec.d2req with
  | none => rfl
  | some request =>
    obtain ⟨q, n, c, t⟩ := request
    exact if_neg fun same : q = p.1 => unasked n c t (same ▸ asked)

theorem lapseConsent_unconsented {q n t : Nat} (waits : s.sec.d2req = some (q, n, false, t)) :
    lapseConsent s = if t + secTicks ≤ s.tick.now then secRes 4 (updSec (fun x => { x with d2req := none }) s) else s := by
  rw [lapseConsent, waits]

theorem lapseConsent_settled (settled : s.sec.d2req = none ∨ ∃ q n t, s.sec.d2req = some (q, n, true, t)) : lapseConsent s = s := by
  rcases settled with none | ⟨q, n, t, given⟩
  · rw [lapseConsent, none]
  · rw [lapseConsent, given]

/-! ### The challenge (R432) -/

theorem exec_challengeExpiry : exec .challengeExpiry s
    = .next (if s.sec.chal.isSome && !chalLive s then updSec (fun x => { x with chal := none }) s else s) := rfl

/-! ### A failed response (R427) -/

/-- A failed response is counted and alarmed. -/
def unlockCounted (s : State) : State := alarm 11 (updSec (fun x => { x with fails := x.fails + 1 }) s)

theorem unlockCounted_sec (s : State) : (unlockCounted s).sec = { s.sec with fails := s.sec.fails + 1 } := alarm_sec ..

theorem unlockFailed_counted (s : State) : unlockFailed s = if (unlockCounted s).sec.fails < 3 then unlockCounted s
    else if (unlockCounted s).sec.state = 1 then updSec (fun x => { x with stateNext := some 2, chal := none }) (flagRecord true (unlockCounted s))
    else if (unlockCounted s).sec.state = 0 then updSec (fun x => { x with barred := true }) (unlockCounted s) else unlockCounted s := rfl

theorem unlockFailed_few (few : s.sec.fails < 2) : unlockFailed s = unlockCounted s := by
  rw [unlockFailed_counted, unlockCounted_sec]
  exact if_pos (Nat.succ_lt_succ few)

section
variable (many : 2 ≤ s.sec.fails)
include many

theorem unlockFailed_s1 (s1 : s.sec.state = 1) :
    unlockFailed s = updSec (fun x => { x with stateNext := some 2, chal := none }) (flagRecord true (unlockCounted s)) := by
  rw [unlockFailed_counted, unlockCounted_sec]
  exact (if_neg (Nat.not_lt.2 (Nat.succ_le_succ many))).trans (if_pos s1)

theorem unlockFailed_s0 (s0 : s.sec.state = 0) : unlockFailed s = updSec (fun x => { x with barred := true }) (unlockCounted s) := by
  rw [unlockFailed_counted, unlockCounted_sec]
  exact (if_neg (Nat.not_lt.2 (Nat.succ_le_succ many))).trans ((if_neg (by simp [s0])).trans (if_pos s0))

end
end

/-! ### The statement -/

/-- Settles O56: the effects that passed commands have, consent, the two lapses, and the failed response by its count. -/
theorem debugCommands : Obligations.DebugCommands := by
  unfold Obligations.DebugCommands
  intro m h p b nonce yes s runs
  refine ⟨exec_secForm_runs rfl, exec_secForm_runs rfl, exec_secForm_runs rfl, ?consent,
    exec_prtConsent_other, fun q n t waits => ⟨fun late => ?lapses, fun early => ?waits⟩, fun settled => ?settled, exec_secForm_runs rfl,
    fun v t chal late => ?expires, fun live => ?lives, exec_secForm_runs rfl, unlockFailed_few, unlockFailed_s1, unlockFailed_s0⟩
  case consent =>
    intro arrived ends
    rw [exec_prtConsent arrived]
    exact ⟨fun n c t asked => congrArg Host.Outcome.next (giveConsent_asked asked), fun unasked => congrArg Host.Outcome.next (giveConsent_unasked unasked)⟩
  case lapses => exact congrArg Host.Outcome.next ((lapseConsent_unconsented waits).trans (if_pos late))
  case waits => exact congrArg Host.Outcome.next ((lapseConsent_unconsented waits).trans (if_neg (Nat.not_le.2 early)))
  case settled => exact congrArg Host.Outcome.next (lapseConsent_settled settled)
  case expires =>
    have over_ : ¬chalLive s = true := by
      rw [chalLive_iff]
      rintro ⟨w, u, held, live⟩
      cases chal.symm.trans held
      exact absurd live (Nat.not_lt.2 late)
    rw [exec_challengeExpiry, if_pos (by simp [chal, over_])]
  case lives =>
    rw [exec_challengeExpiry, if_neg]
    rcases live with none | ⟨v, t, chal, early⟩
    · simp [none]
    · simp [(chalLive_iff s).2 ⟨v, t, chal, early⟩]

end Sys2Proof.Machine
end

section
/-! PROOF. O34, the suspect table and accusations (R435, R450-R453). -/

namespace Sys2Proof.Machine

/-! ### Sending takes no time (R276, R277) -/

theorem sendFlits_now (i : PortId) (cls : Nat) (vc : Bool) (own : Option (Nat × Nat)) (l : List Flit) (s : State) :
    (sendFlits i cls vc own l s).tick.now = s.tick.now :=
  forAll_keep (fun t => t.tick.now = s.tick.now) _ _ _ (fun _ _ _ h => h) rfl

theorem mPump_now (n : Nat) (o : PortId) (s : State) : (mPump n o s).tick.now = s.tick.now := by
  induction n generalizing s with
  | zero => rfl
  | succ n ih =>
    unfold mPump
    split
    · rfl
    · split
      · rw [ih, sendPacket, sendFlits_now]; rfl
      · rfl

theorem sendM_now (kind : Nat) (d : DevAddr) (body : List Nat) (s : State) : (sendM kind d body s).tick.now = s.tick.now := by
  unfold sendM sendMOn
  dsimp only
  split
  · rw [queueM, mPump_now]; rfl
  · rfl

/-! ### A forward (R451, R452) -/

/-- A suspect's report as this device sends it. -/
def reportOf (q : Suspect) (s : State) : SuspectRep := { q.rep with rx := (selfAddr s).x, ry := (selfAddr s).y, rz := (selfAddr s).z }

/-- The log holds a suspect's report. -/
def forwardLogged (q : Suspect) (s : State) : State :=
  logR 6 1 6 (if (reportOf q s).res == 0 then 0xFFFF else 0x100 + ((reportOf q s).res.toNat - 1)) q.part (repBody (reportOf q s)) s

/-- The devices that a local detection goes to, and then the suspect, are told. -/
def forwardTold (q : Suspect) (r : SuspectRep) (s : State) : State :=
  sendM 0x11 r.suspect (repBody { r with rflags := r.rflags ||| 2 }) (forAll (forwardTo s q.part) (fun d => sendM 0x10 d (repBody r)) s)

/-- A forward ends: the entry begins a new count. -/
def forwardEnd (e : Fin 64) (q : Suspect) (s : State) : State :=
  setSuspect e (some { q with rep := { q.rep with count := 0 }, local_ := false, lastFwd := s.tick.now }) s

section
variable {e : Fin 64} {q : Suspect} {s : State}

theorem forwardEntry_of_entry (entry : s.flt.suspects[e] = some q) :
    forwardEntry e s = forwardEnd e q (whenS q.local_ (forwardTold q (reportOf q s)) (forwardLogged q s)) := by
  rw [forwardEntry, show s.flt.suspects[e.1]'e.2 = some q from entry]
  rfl

theorem forwardEntry_of_none (none : s.flt.suspects[e] = none) : forwardEntry e s = s := by
  rw [forwardEntry, show s.flt.suspects[e.1]'e.2 = .none from none]

/-- A forward takes no time. -/
theorem forwardEntry_now (e : Fin 64) (s : State) : (forwardEntry e s).tick.now = s.tick.now := by
  cases entry : s.flt.suspects[e] with
  | none => rw [forwardEntry_of_none entry]
  | some q =>
    have logged : (forwardLogged q s).tick.now = s.tick.now := by rw [forwardLogged, logR_tick]
    rw [forwardEntry_of_entry entry, forwardEnd, setSuspect, updFlt_tick]
    cases q.local_ with
    | false => exact logged
    | true =>
      refine (sendM_now ..).trans (Eq.trans ?_ logged)
      exact forAll_keep (fun t => t.tick.now = (forwardLogged q s).tick.now) _ _ _ (fun _ _ _ h => (sendM_now ..).trans h) rfl

end

/-! ### Reports (R451, R453) -/

/-- A slot holds the suspect. -/
def holdsSuspect (s : State) (d : DevAddr) (res : Byte) (e : Fin 64) : Bool :=
  match s.flt.suspects[e.1]'e.2 with
  | some q => sameDev q.rep.suspect d && q.rep.res == res
  | none => false

theorem holdsSuspect_eq_any (s : State) (d : DevAddr) (res : Byte) :
    holdsSuspect s d res = fun e => (s.flt.suspects[e]).any (fun q => sameDev q.rep.suspect d && q.rep.res == res) := by
  funext e
  unfold holdsSuspect
  rw [Fin.getElem_fin]
  cases s.flt.suspects[e.1] <;> rfl

/-- The slot that a new suspect takes, after its entry's pending forward. -/
def entryForwarded (e : Fin 64) (s : State) : State :=
  if (s.flt.suspects[e]).any (fun q => decide (q.rep.count ≠ 0)) then forwardEntry e s else s

section
variable {e : Fin 64} {s : State}

theorem entryForwarded_empty (none : s.flt.suspects[e] = none) : entryForwarded e s = s := by
  rw [entryForwarded, none]; rfl

theorem entryForwarded_entry {q : Suspect} (entry : s.flt.suspects[e] = some q) :
    entryForwarded e s = if q.rep.count ≠ 0 then forwardEntry e s else s := by
  rw [entryForwarded, entry]
  simp

theorem entryForwarded_now (e : Fin 64) (s : State) : (entryForwarded e s).tick.now = s.tick.now := by
  unfold entryForwarded
  split
  · exact forwardEntry_now e s
  · rfl

end

section
variable {d : DevAddr} {res reason : Byte} {n part : Nat} {loc recv : Bool} {s : State}

theorem noteSuspect_held {e : Fin 64} {q : Suspect} (holds : (List.finRange 64).find? (holdsSuspect s d res) = some e)
    (entry : s.flt.suspects[e] = some q) : noteSuspect d res reason n loc recv part s = setSuspect e (some { q with
      rep := { q.rep with count := sat32 q.rep.count n, total := sat32 q.rep.total n, reason := reason }
      local_ := q.local_ || loc, lastRep := s.tick.now }) s := by
  unfold noteSuspect
  split
  case h_2 missed => cases missed.symm.trans holds
  case h_1 found =>
    cases found.symm.trans holds
    rw [show s.flt.suspects[e.1]'e.2 = some q from entry]

variable (unheld : (List.finRange 64).find? (holdsSuspect s d res) = none)
include unheld

theorem noteSuspect_full (full : suspectSlot s = none) :
    noteSuspect d res reason n loc recv part s = alarm 13 (updFlt (fun f => { f with suspovf := satAdd 64 f.suspovf 1 }) s) := by
  unfold noteSuspect
  split
  case h_1 found => cases found.symm.trans unheld
  case h_2 => rw [full]

theorem noteSuspect_new {e : Fin 64} (slot : suspectSlot s = some e) : noteSuspect d res reason n loc recv part s
    = forwardEntry e (setSuspect e (some {
        rep := { suspect := d, res := res, reason := reason, rflags := if recv then 1 else 0, rx := 0, ry := 0, rz := 0
                 count := BitVec.ofNat 32 n, total := BitVec.ofNat 32 n, first := BitVec.ofNat 64 s.tick.now }
        local_ := loc, lastFwd := s.tick.now, lastRep := s.tick.now, part := part }) (entryForwarded e s)) := by
  unfold noteSuspect
  split
  case h_1 found => cases found.symm.trans unheld
  case h_2 =>
    rw [slot, ← entryForwarded_now e s]
    dsimp only
    cases entry : s.flt.suspects[e.1]'e.2 with
    | none => rw [entryForwarded_empty entry]
    | some q => rw [entryForwarded_entry entry]

end

/-! ### Accusations (R452) -/

/-- The accuser has been recorded within 16 ticks. -/
def accusedRecently (r : SuspectRep) (s : State) : Bool :=
  s.flt.accLog.any (fun a => sameDev a.1 ⟨r.rx, r.ry, r.rz, 0⟩ && decide (s.tick.now < a.2 + 16))

/-- An accusation is counted. -/
def accusedCounted (s : State) : State := updFlt (fun f => { f with accused := satAdd 64 f.accused 1 }) s

theorem accused_again {r : SuspectRep} {s : State} (again : accusedRecently r s = true) : accused r s = alarm 12 (accusedCounted s) :=
  congrArg (alarm 12) (if_pos again)

theorem accused_first {r : SuspectRep} {s : State} (first : accusedRecently r s = false) : accused r s
    = alarm 12 (logR 7 0 6 0xFFFF 0xFFFF (repBody r) (updFlt (fun f => { f with
        accLog := (⟨r.rx, r.ry, r.rz, 0⟩, s.tick.now) :: f.accLog.filter (fun a => !sameDev a.1 ⟨r.rx, r.ry, r.rz, 0⟩) }) (accusedCounted s))) :=
  congrArg (alarm 12) (if_neg (Bool.eq_false_iff.1 first))

/-! ### Commands (R435, R451-R453) -/

theorem exec_suspectReport {r : SuspectRep} {s : State} (on : linksOn s = true) :
    exec (.suspectReport r) s = .next (noteSuspect r.suspect r.res r.reason r.count.toNat false true 0xFFFF s) :=
  congrArg Host.Outcome.next (if_neg (by simp [on]))

theorem exec_peerAccused {r : SuspectRep} {s : State} (on : linksOn s = true) : exec (.peerAccused r) s = .next (accused r s) :=
  congrArg Host.Outcome.next (if_neg (by simp [on]))

theorem exec_suspectMessages_off {r : SuspectRep} {s : State} (off : linksOn s = false) :
    exec (.suspectReport r) s = .next s ∧ exec (.peerAccused r) s = .next s :=
  ⟨congrArg Host.Outcome.next (if_pos (by simp [off])), congrArg Host.Outcome.next (if_pos (by simp [off]))⟩

section
variable {e : Fin 64} {s : State}

theorem exec_suspects_empty (none : s.flt.suspects[e] = none) :
    exec (.suspectForward e) s = .next s ∧ exec (.suspectExpiry e) s = .next s := by
  have forward : exec (.suspectForward e) s = execSuspectForward e s := rfl
  have expiry : exec (.suspectExpiry e) s = execSuspectExpiry e s := rfl
  rw [forward, expiry, execSuspectForward, execSuspectExpiry, show s.flt.suspects[e.1]'e.2 = .none from none]
  exact ⟨rfl, rfl⟩

variable {q : Suspect} (entry : s.flt.suspects[e] = some q)
include entry

theorem exec_suspectForward :
    exec (.suspectForward e) s = .next (if q.lastFwd + 16 ≤ s.tick.now ∧ q.rep.count ≠ 0 then forwardEntry e s else s) := by
  have run : exec (.suspectForward e) s = execSuspectForward e s := rfl
  rw [run, execSuspectForward, show s.flt.suspects[e.1]'e.2 = some q from entry]

theorem exec_suspectExpiry : exec (.suspectExpiry e) s = .next
    (if q.lastRep + 1024 ≤ s.tick.now then setSuspect e none (whenS (decide (q.rep.count ≠ 0)) (forwardEntry e) s) else s) := by
  have run : exec (.suspectExpiry e) s = execSuspectExpiry e s := rfl
  rw [run, execSuspectExpiry, show s.flt.suspects[e.1]'e.2 = some q from entry]

end

/-! ### The statement -/

/-- Settles O34: a report by the slot that it finds, an accusation by its accuser's last, an entry by its ages and its count. -/
theorem suspects : Obligations.Suspects := by
  unfold Obligations.Suspects
  refine ⟨fun r s => ?messages, fun e q s entry => ⟨fun due count => ?_, fun early => ?_, fun old none => ?_, fun old count => ?_, fun recent => ?_, ?forward⟩,
    fun e s none => exec_suspects_empty none⟩
  case messages =>
    intro holds
    refine ⟨exec_suspectMessages_off, fun on => ?_⟩
    rw [exec_suspectReport on, exec_peerAccused on]
    have table : holdsSuspect s r.suspect r.res = holds := holdsSuspect_eq_any ..
    have unheld (new : ∀ k, holds k = false) : (List.finRange 64).find? (holdsSuspect s r.suspect r.res) = none := by
      rw [table]; exact List.find?_eq_none.2 fun k _ => by simp [new k]
    refine ⟨fun e q found entry => ?_, fun e new slot => ?_, fun new full => congrArg Host.Outcome.next (noteSuspect_full (unheld new) full), ?_⟩
    · rw [noteSuspect_held (table ▸ found) entry, Bool.or_false]
    · rw [noteSuspect_new (unheld new) slot, BitVec.ofNat_toNat, BitVec.setWidth_eq]
      rfl
    · intro who counted recent
      exact ⟨fun again => congrArg Host.Outcome.next (accused_again again), fun first => congrArg Host.Outcome.next (accused_first first)⟩
  · rw [exec_suspectForward entry, if_pos ⟨due, count⟩]
  · rw [exec_suspectForward entry, if_neg fun ⟨late, count⟩ => early.elim (Nat.not_lt.2 late) count]
  · rw [exec_suspectExpiry entry, if_pos old, none]; rfl
  · rw [exec_suspectExpiry entry, if_pos old, decide_eq_true count]; rfl
  · rw [exec_suspectExpiry entry, if_neg (Nat.not_le.2 recent)]
  case forward =>
    intro r sent rec_
    rw [forwardEntry_of_entry entry]
    refine ⟨fun remote => ?_, fun local_ => ⟨_, rfl, ?_⟩⟩
    · rw [remote]; rfl
    · rw [local_]; rfl

end Sys2Proof.Machine
end
